-- ==== Sys2Proof/Word.lean ====
section
/-!
DEFINITION. The word types of the Olusan M96 and two plain list helpers that several layers share.
-/

namespace Sys2Proof

/-- A byte of memory (R16). -/
abbrev Byte := BitVec 8

/-- A 64-bit word: a scalar register, a lane mask, a memory word. -/
abbrev Word := BitVec 64

/-- One bit per lane of a course, lane l at bit l (R4, W = 64). -/
abbrev LaneMask := BitVec 64

/-- A sparse table: (key, value) pairs with strictly rising keys. -/
abbrev Tab (β : Type) := List (Nat × β)

/-- The entry of key k, if there is one. -/
def Tab.find {β : Type} : Tab β → Nat → Option β
  | [], _ => none
  | (j, v) :: t, k => if j = k then some v else Tab.find t k

/-- The entry of key k, or the value d of an unlisted key. -/
def Tab.getD {β : Type} (t : Tab β) (k : Nat) (d : β) : β := (Tab.find t k).getD d

/-- Sets the entry of key k. -/
def Tab.put {β : Type} : Tab β → Nat → β → Tab β
  | [], k, v => [(k, v)]
  | (j, w) :: t, k, v =>
    if k < j then (k, v) :: (j, w) :: t
    else if k = j then (k, v) :: t
    else (j, w) :: Tab.put t k v

/-- Removes the entry of key k. -/
def Tab.del {β : Type} (t : Tab β) (k : Nat) : Tab β := t.filter (fun e => e.1 != k)

/-- Sets the entry of key k, or removes it when v is what an unlisted key reads as. -/
def Tab.set {β : Type} [DecidableEq β] (d : β) (t : Tab β) (k : Nat) (v : β) : Tab β :=
  if v = d then Tab.del t k else Tab.put t k v

/-- The keys are strictly rising. -/
def Tab.sorted {β : Type} : Tab β → Bool
  | [] => true
  | [_] => true
  | a :: b :: t => decide (a.1 < b.1) && Tab.sorted (b :: t)

end Sys2Proof
end

