-- ==== Sys2Proof/Config.lean ====
section
/-!
DEFINITION. What one M96 package fixes, and the free values: constants without a body, of which nothing can be proved.
-/

namespace Sys2Proof.Config

/-- The course width W of the M96 (R3). -/
def width : Nat := 64

/-- Cores of the package (R2, R8). -/
def cores : Nat := 96

/-- Course slots of a core and issue slots of a core (R8, R65). -/
def courseSlots : Nat := 32

/-- Issue slots of a core (R8). -/
def issueSlots : Nat := 4

/-- Rows of a core's vector register file (R8). -/
def fileRows : Nat := 4096

/-- Entries of the range-lock table (R163). -/
def lockEntries : Nat := 2048

/-- Copy engines of one die (R8). -/
def copyEngines : Nat := 128

/-- Messages a link's replay queue holds (R320). -/
def replayDepth : Nat := 4096

/-- Waiters a gate unit holds (R290). -/
def gateWaiters : Nat := 16384

/-- Revision of the vendor capability that the host port shows (R15, R312). -/
def dvsecRevision : Nat := 1

/-- The k-th free value of the run: a value that the spec leaves open (log entry 8). -/
opaque freeValue : Nat → BitVec 64

/-- Host physical address of the gate table; the spec gives no register that holds it (R287, log entry 9). -/
opaque gateTableBase : BitVec 64

/-- Whether an ECDSA P-384 signature of a digest verifies under the fused firmware key (R326, log entry 11). -/
opaque firmwareSigOk : BitVec 384 → BitVec 768 → Bool

/-- The public identity key that measurement 0 gives this package (R328, log entry 11). -/
opaque identityKey : BitVec 384 → BitVec 768

/-- The signature of an identity key by the key derived from the fused secret alone (R328, log entry 11). -/
opaque certSign : BitVec 768 → BitVec 768

/-- The signature of a digest by the identity key that measurement 0 gives (R329, log entry 11). -/
opaque identitySign : BitVec 384 → BitVec 384 → BitVec 768

/-- The firmware image in flash slot A as shipped (R326, log entry 11). -/
opaque shippedImage : List Byte

/-- Its signature (R326, log entry 11). -/
opaque shippedSig : BitVec 768

end Sys2Proof.Config
end

