-- ==== Sys2Proof/Syntax.lean ====
section
/-!
DEFINITION. The instruction set as syntax: operand forms, guards, hints, modifiers, and the one inductive Instr with a
constructor for every row of the opcode table, instructions first, machine events after them.
-/

namespace Sys2Proof

/-- Element types of R45, in the order of their codes 0x00 to 0x11. -/
inductive Ty where
  | i8 | i16 | i32 | i64 | n8 | n16 | n32 | n64 | b32 | b64
  | f64 | f32 | f16 | bf16 | e4m3 | e5m2 | q4g | q8g
  deriving DecidableEq, Repr

/-- Floating-point formats of R18. -/
inductive Fmt where
  | f64 | f32 | f16 | bf16 | e4m3 | e5m2
  deriving DecidableEq, Repr

/-- Rounding modes of R22, in the order of their codes. -/
inductive Rnd where
  | rn | rz | rm | rp
  deriving DecidableEq, Repr

/-- Scopes of R46, in the order of their codes. -/
inductive Scope where
  | cw | co | crew | bay | die | pkg | part | sys
  deriving DecidableEq, Repr

/-- The guard G (R39): always, or predicate p, inverted when neg. -/
inductive Guard where
  | always
  | on (p : BitVec 6) (neg : Bool)
  deriving DecidableEq, Repr

/-- The read-path patterns of R37. -/
inductive PatKind where
  | self | rot | bc | bfly | mir | shz
  deriving DecidableEq, Repr

/-- A read-path pattern field (R37): kind, width-relative mode, direction, amount. -/
structure Pat where
  kind : PatKind
  rel : Bool
  neg : Bool
  amt : BitVec 5
  deriving DecidableEq, Repr

/-- The pattern of a plain register. -/
def Pat.plain : Pat := { kind := .self, rel := false, neg := false, amt := 0 }

/-- An operand field (R35). -/
inductive Opnd where
  /-- an unused or omitted field, all zero -/
  | zero
  /-- class 00: vector register r read through a pattern -/
  | vec (r : BitVec 6) (pat : Pat)
  /-- class 01: a scalar, predicate, tile, shape or special register by number -/
  | reg (n : BitVec 6)
  /-- class 10: a 16-bit immediate or control field -/
  | imm (v : BitVec 16)
  /-- class 11: one half of a joined immediate -/
  | joined (v : BitVec 16)
  deriving DecidableEq, Repr

/-- Which of the run's flags an instruction that is no header selects (R41). -/
inductive Sel where
  | none | fa | fb
  deriving DecidableEq, Repr

/-- The hint field H (R41): the run header's fields, or a boundary bit and a flag select. -/
inductive Hint where
  | header (bnd : Bool) (wait : BitVec 12) (fa fb : Option (BitVec 4))
  | body (bnd : Bool) (sel : Sel)
  deriving DecidableEq, Repr

/-- Whether the instruction has its boundary bit set. -/
def Hint.bnd : Hint → Bool
  | .header b _ _ _ => b
  | .body b _ => b

/-- The modifier MOD (R48): none, an element type, a float format with a rounding mode, a scope, or a number. -/
inductive Mod where
  | none
  | ty (t : Ty)
  | flt (f : Fmt) (r : Rnd)
  | scope (s : Scope)
  | num (n : BitVec 5)
  deriving DecidableEq, Repr

/-- The decoded fields of an instruction word (R33): guard, hint, modifier, and the operand fields D, A, B. -/
structure Args where
  g : Guard
  h : Hint
  m : Mod
  d : Opnd
  a : Opnd
  b : Opnd
  deriving DecidableEq, Repr

/-- Replies that end or keep a message of a link (R267, R268, R289, R320). -/
inductive Reply where
  | accept | duplicate | refused | retryLater
  /-- the value a gate operation of another package returns -/
  | gate (v : Word)
  /-- a gate operation refused with a subcode of R291 -/
  | gateTrap (sub : BitVec 8)
  /-- VALUE of a gate of the peer for waiters that migrated, or none once it is RETIRED (R294, R295) -/
  | gateValue (gate : Nat) (v : Option Word)
  deriving DecidableEq, Repr

/-- A gate operation as it travels to the gate's home (R289). -/
inductive GateOp where
  | sig (n : Word)
  | wait (v : Word)
  | rd
  deriving DecidableEq, Repr

/-- The start of a walk (R144): its address, and whether the walker takes the table entries that its core's cache holds. -/
structure WalkFrom where
  va : Nat
  warm : Bool
  deriving DecidableEq, Repr

/-- What training exchanged (R15, R318): the version both sides have in common (0: none), and the lanes that work at the peer. -/
structure Training where
  ver : Nat
  lanes : BitVec 8
  deriving DecidableEq, Repr

/-- A decoded picture (R218): samples of 8 or of 10 bits, its size, and its samples as far as they have been decoded. -/
structure Picture where
  ten : Bool
  width : Nat
  height : Nat
  luma : List Nat
  chroma : List Nat
  deriving DecidableEq, Repr

/-- The instructions and machine events of the opcode table, one constructor per row. -/
inductive Instr where
  /-- ADD (R85): Wrapping integer addition of a and b. -/
  | add (x : Args)
  /-- SUB (R85): Wrapping integer subtraction of b from a. -/
  | sub (x : Args)
  /-- ADDS (R85): Saturating integer addition. -/
  | adds (x : Args)
  /-- SUBS (R85): Saturating integer subtraction. -/
  | subs (x : Args)
  /-- MUL (R85): Wrapping integer multiplication. -/
  | mul (x : Args)
  /-- MULHI (R85): High half of the exact integer product. -/
  | mulhi (x : Args)
  /-- MAD (R85): Wrapping multiply-add that reads D as the addend. -/
  | mad (x : Args)
  /-- NEG (R85): Wrapping integer negation. -/
  | neg (x : Args)
  /-- ABS (R85): Wrapping integer absolute value. -/
  | abs (x : Args)
  /-- MIN (R85): Lesser of two integers. -/
  | min (x : Args)
  /-- MAX (R85): Greater of two integers. -/
  | max (x : Args)
  /-- DIV (R85): Integer division toward zero, with defined results for zero and overflow. -/
  | div (x : Args)
  /-- REM (R85): Integer remainder that takes the sign of the dividend. -/
  | rem (x : Args)
  /-- AND (R85): Bitwise AND. -/
  | and (x : Args)
  /-- OR (R85): Bitwise OR. -/
  | or (x : Args)
  /-- XOR (R85): Bitwise XOR. -/
  | xor (x : Args)
  /-- NOT (R85): Bitwise complement. -/
  | not (x : Args)
  /-- SHL (R85): Left shift by b[7:0]. -/
  | shl (x : Args)
  /-- SHR (R85): Right shift by b[7:0], arithmetic for signed types. -/
  | shr (x : Args)
  /-- ROL (R85): Rotate left by b[7:0] mod n. -/
  | rol (x : Args)
  /-- BFX (R85): Bit-field extract. -/
  | bfx (x : Args)
  /-- BFI (R85): Bit-field insert into D. -/
  | bfi (x : Args)
  /-- POPC (R85): Population count. -/
  | popc (x : Args)
  /-- CLZ (R85): Count of leading zeros. -/
  | clz (x : Args)
  /-- BREV (R85): Bit reversal. -/
  | brev (x : Args)
  /-- SEL (R86): Per-lane select of a or b by the guard. -/
  | sel (x : Args)
  /-- MOV (R86): Copy of a, including joined immediates. -/
  | mov (x : Args)
  /-- LEA (R85): Address formed as a plus b scaled by the element size. -/
  | lea (x : Args)
  /-- FADD (R87): Floating-point addition rounded once. -/
  | fadd (x : Args)
  /-- FSUB (R87): Floating-point subtraction rounded once. -/
  | fsub (x : Args)
  /-- FMUL (R87): Floating-point multiplication rounded once. -/
  | fmul (x : Args)
  /-- FFMA (R87): Fused multiply-add with D as the addend and one rounding. -/
  | ffma (x : Args)
  /-- FMIN (R89): Floating-point minimum, with -0 below +0 and NaN handling. -/
  | fmin (x : Args)
  /-- FMAX (R89): Floating-point maximum, with -0 below +0 and NaN handling. -/
  | fmax (x : Args)
  /-- FNEG (R89): Inverts the sign bit. -/
  | fneg (x : Args)
  /-- FABS (R89): Clears the sign bit. -/
  | fabs (x : Args)
  /-- FDIV (R87): Correctly rounded floating-point division. -/
  | fdiv (x : Args)
  /-- FSQRT (R87): Correctly rounded square root. -/
  | fsqrt (x : Args)
  /-- FRCP (R87): Correctly rounded reciprocal. -/
  | frcp (x : Args)
  /-- FRSQ (R87): Correctly rounded reciprocal square root. -/
  | frsq (x : Args)
  /-- CVT (R90): Conversion between float formats and from group formats. -/
  | cvt (x : Args)
  /-- CVTI (R91): Conversion from float to integer with saturation. -/
  | cvti (x : Args)
  /-- CVTF (R91): Conversion from integer to float. -/
  | cvtf (x : Args)
  /-- SETP_EQ (R92): Writes predicate p with a equal to b. -/
  | setpEq (x : Args)
  /-- SETP_NE (R92): Writes predicate p with a not equal to b. -/
  | setpNe (x : Args)
  /-- SETP_LT (R92): Writes predicate p with a less than b. -/
  | setpLt (x : Args)
  /-- SETP_LE (R92): Writes predicate p with a at most b. -/
  | setpLe (x : Args)
  /-- SETP_GT (R92): Writes predicate p with a greater than b. -/
  | setpGt (x : Args)
  /-- SETP_GE (R92): Writes predicate p with a at least b. -/
  | setpGe (x : Args)
  /-- SETP_UN (R92): Writes predicate p, true when the float operands are unordered. -/
  | setpUn (x : Args)
  /-- SETP_NUM (R92): Writes predicate p, true when both float operands are numbers. -/
  | setpNum (x : Args)
  /-- PAND (R93): Predicate AND. -/
  | pand (x : Args)
  /-- POR (R93): Predicate OR. -/
  | por (x : Args)
  /-- PXOR (R93): Predicate XOR. -/
  | pxor (x : Args)
  /-- PNOT (R93): Predicate NOT. -/
  | pnot (x : Args)
  /-- VOTE_ANY (R94): Writes the OR of q over the acting lanes. -/
  | voteAny (x : Args)
  /-- VOTE_ALL (R94): Writes the AND of q over the acting lanes. -/
  | voteAll (x : Args)
  /-- VOTE_UNIFORM (R94): Writes whether q is equal in all acting lanes. -/
  | voteUniform (x : Args)
  /-- BALLOT (R94): Gathers q of the acting lanes into a scalar lane mask. -/
  | ballot (x : Args)
  /-- PMOV (R93): Moves a predicate, the scalar bits or an immediate into a predicate. -/
  | pmov (x : Args)
  /-- PERM (R95): Gathers values across lanes by index. -/
  | perm (x : Args)
  /-- LRED (R97): Masked log-step reduction across lanes, with nonempty and exited flags. -/
  | lred (x : Args)
  /-- LSCAN (R97): Masked inclusive scan across lanes. -/
  | lscan (x : Args)
  /-- KCLR (R98): Clears the Kulisch accumulator value and keeps %kst. -/
  | kclr (x : Args)
  /-- KADD (R98): Adds values exactly into the Kulisch accumulator. -/
  | kadd (x : Args)
  /-- KMAC (R98): Adds exact products into the Kulisch accumulator. -/
  | kmac (x : Args)
  /-- KSCAN (R99): Adds .f64 addends lane by lane and returns rounded exact prefixes. -/
  | kscan (x : Args)
  /-- KRD (R98): Reads out the accumulator rounded under the %kst rules. -/
  | krd (x : Args)
  /-- XRED (R101): Sends a reduction to the tree, which writes xr at completion. -/
  | xred (x : Args)
  /-- XGET (R102): Ends the run and waits for an xr sequence number, then reads xr. -/
  | xget (x : Args)
  /-- XPUT (R103): Copies the xr value into a vector. -/
  | xput (x : Args)
  /-- BR (R75): Transfers the path to an immediate target. -/
  | br (x : Args)
  /-- BRX (R75): Transfers the path to a target held in a scalar. -/
  | brx (x : Args)
  /-- CALL (R75): Pushes a frame and transfers to the target. -/
  | call (x : Args)
  /-- CALLV (R75): Per-lane indirect call that may split the path. -/
  | callv (x : Args)
  /-- RET (R108): Pops a frame, or arrives at a join for a split frame. -/
  | ret (x : Args)
  /-- IF (R73): Opens a conditional region on the nesting counters. -/
  | ifRegion (x : Args)
  /-- ELSE (R73): Inverts the lanes of the current if region. -/
  | elseRegion (x : Args)
  /-- ENDIF (R73): Closes an if region. -/
  | endifRegion (x : Args)
  /-- LOOP (R73): Opens a loop region. -/
  | loopRegion (x : Args)
  /-- BREAK (R73): Parks lanes until n region ends have passed. -/
  | breakRegion (x : Args)
  /-- CONT (R73): Parks lanes until the next loop iteration. -/
  | contRegion (x : Args)
  /-- ENDLOOP (R73): Starts the next iteration or falls through. -/
  | endloopRegion (x : Args)
  /-- PRIO (R75): Sets the path priority and ends a yield demotion. -/
  | prio (x : Args)
  /-- YIELD (R77): Demotes the path to class -1. -/
  | yield (x : Args)
  /-- EXIT (R75): Exits lanes, leaving their crews and barriers. -/
  | exit (x : Args)
  /-- NOP (R75): No effect. -/
  | nop (x : Args)
  /-- MARK (R117): Marks the current frame with an id. -/
  | mark (x : Args)
  /-- CUT (R118): Lifts the frames above the nearest mark into a stack slice. -/
  | cut (x : Args)
  /-- GRAFT (R119): Sets a slice down on the grafting thread's stack. -/
  | graft (x : Args)
  /-- SLICE_DROP (R120): Frees a LIVE slice. -/
  | sliceDrop (x : Args)
  /-- SLICE_ATT (R121): Attaches a LIVE slice to a signal through a SLICE node. -/
  | sliceAtt (x : Args)
  /-- WFLUSH (R110): Moves the resident register span by spilling and filling rows. -/
  | wflush (x : Args)
  /-- LD (R133): Loads one element per lane, or once. -/
  | ld (x : Args)
  /-- ST (R133): Stores one element per lane, or once. -/
  | st (x : Args)
  /-- ATOM_ADD (R134): Atomic add that returns the old value. -/
  | atomAdd (x : Args)
  /-- ATOM_MIN (R134): Atomic minimum. -/
  | atomMin (x : Args)
  /-- ATOM_MAX (R134): Atomic maximum. -/
  | atomMax (x : Args)
  /-- ATOM_AND (R134): Atomic AND. -/
  | atomAnd (x : Args)
  /-- ATOM_OR (R134): Atomic OR. -/
  | atomOr (x : Args)
  /-- ATOM_XOR (R134): Atomic XOR. -/
  | atomXor (x : Args)
  /-- ATOM_XCHG (R134): Atomic exchange. -/
  | atomXchg (x : Args)
  /-- ATOM_CAS (R134): Atomic compare-and-swap. -/
  | atomCas (x : Args)
  /-- AMAXP (R135): Packed atomic maximum of a score and an index. -/
  | amaxp (x : Args)
  /-- PARK (R137): Blocks the path while a 64-bit word equals the expected value. -/
  | park (x : Args)
  /-- FENCE_ACQ (R159): Acquire fence at a scope. -/
  | fenceAcq (x : Args)
  /-- FENCE_REL (R159): Release fence at a scope. -/
  | fenceRel (x : Args)
  /-- FENCE_AR (R159): Acquire-release fence at a scope. -/
  | fenceAr (x : Args)
  /-- FENCE_SC (R159): Sequentially consistent fence at a scope. -/
  | fenceSc (x : Args)
  /-- TFENCE (R145): Orders earlier stores before later stage-1 walks and discards stage-1 items. -/
  | tfence (x : Args)
  /-- TMV (R139): Starts a move of scratch lines. -/
  | tmv (x : Args)
  /-- CP (R215): Starts a copy of n bytes on a copy engine. -/
  | cp (x : Args)
  /-- CP_D (R215): Starts a strided copy from a copy descriptor. -/
  | cpD (x : Args)
  /-- FBIND (R212): Binds a fetch slot to a handle descriptor under a W lock. -/
  | fbind (x : Args)
  /-- FETCH (R212): Reads a bound region by coordinates. -/
  | fetch (x : Args)
  /-- OVL_LD (R216): Loads an overlay image into an overlay slot of the core. -/
  | ovlLd (x : Args)
  /-- WBLD (R196): Loads weight lines into both cores of the bent. -/
  | wbld (x : Args)
  /-- FUNBIND (R212): Unbinds a fetch slot once its earlier fetches have read. -/
  | funbind (x : Args)
  /-- TZERO (R139): Starts zeroing scratch lines. -/
  | tzero (x : Args)
  /-- MMA_E4M3 (R199): Queues an E4M3 bent matrix operation. -/
  | mmaE4m3 (x : Args)
  /-- MMA_E5M2 (R199): Queues an E5M2 bent matrix operation. -/
  | mmaE5m2 (x : Args)
  /-- MMA_I8 (R199): Queues an INT8 bent matrix operation. -/
  | mmaI8 (x : Args)
  /-- MMA_BF16 (R199): Queues a BF16 bent matrix operation. -/
  | mmaBf16 (x : Args)
  /-- MMA_F16 (R199): Queues an FP16 bent matrix operation. -/
  | mmaF16 (x : Args)
  /-- MMA_F32 (R199): Queues an FP32 bent matrix operation. -/
  | mmaF32 (x : Args)
  /-- MMA_F64 (R199): Queues an FP64 bent matrix operation. -/
  | mmaF64 (x : Args)
  /-- MMQ_Q4G (R201): Queues an INT4 asymmetric-group matrix operation. -/
  | mmqQ4g (x : Args)
  /-- MMQ_Q8G (R201): Queues an INT8-code asymmetric-group matrix operation. -/
  | mmqQ8g (x : Args)
  /-- MMSP_E4M3 (R202): Queues a bitmap-sparse E4M3 matrix operation. -/
  | mmspE4m3 (x : Args)
  /-- MMSP_E5M2 (R202): Queues a bitmap-sparse E5M2 matrix operation. -/
  | mmspE5m2 (x : Args)
  /-- MMSP_I8 (R202): Queues a bitmap-sparse INT8 matrix operation. -/
  | mmspI8 (x : Args)
  /-- MMSP_BF16 (R202): Queues a bitmap-sparse BF16 matrix operation. -/
  | mmspBf16 (x : Args)
  /-- MMSP_F16 (R202): Queues a bitmap-sparse FP16 matrix operation. -/
  | mmspF16 (x : Args)
  /-- MZERO (R204): Queues the zeroing of a tile. -/
  | mzero (x : Args)
  /-- MLD (R204): Queues a load of a whole tile from memory. -/
  | mld (x : Args)
  /-- MSTR (R204): Queues a store of a whole tile to memory. -/
  | mstr (x : Args)
  /-- MSHAPE (R192): Writes a shape record. -/
  | mshape (x : Args)
  /-- SPDG (R207): Queues one drop-and-grow step by weight magnitude. -/
  | spdg (x : Args)
  /-- SPSAL (R207): Queues one drop-and-grow step by saliency. -/
  | spsal (x : Args)
  /-- MTALLOC (R205): Claims a tile and reports success in a predicate. -/
  | mtalloc (x : Args)
  /-- MTFREE (R205): Releases a held tile. -/
  | mtfree (x : Args)
  /-- EA_NEW (R180): Creates an elastic array from a creation block. -/
  | eaNew (x : Args)
  /-- EA_FREE (R180): Frees an elastic array. -/
  | eaFree (x : Args)
  /-- EA_INS (R180): Inserts n zero elements at a place. -/
  | eaIns (x : Args)
  /-- EA_DEL (R180): Deletes n elements at a rank. -/
  | eaDel (x : Args)
  /-- EA_SPLIT (R180): Splits an array at a place into a new array. -/
  | eaSplit (x : Args)
  /-- EA_CAT (R180): Appends array g to array h. -/
  | eaCat (x : Args)
  /-- EA_MORT (R180): Places m mortises at a place. -/
  | eaMort (x : Args)
  /-- EA_FILL (R180): Copies elements in just before a mortise, one operation per lane. -/
  | eaFill (x : Args)
  /-- EA_SEAL (R180): Removes m mortises. -/
  | eaSeal (x : Args)
  /-- EA_RANK (R180): Returns the rank of the element a peg names. -/
  | eaRank (x : Args)
  /-- EA_PEG (R180): Returns the peg of the element at a rank. -/
  | eaPeg (x : Args)
  /-- EA_LEN (R180): Returns the observed length of an array. -/
  | eaLen (x : Args)
  /-- XQ_CFG (R260): Submits the configuration of an expert queue. -/
  | xqCfg (x : Args)
  /-- XQ_PUSH (R261): Pushes token rows with return tags into expert queues. -/
  | xqPush (x : Args)
  /-- XQ_POP (R262): Copies the rows and tags of a batch out. -/
  | xqPop (x : Args)
  /-- XQ_COMB (R262): Writes the output rows of a batch into combine slots, locally or remotely. -/
  | xqComb (x : Args)
  /-- XQ_DONE (R262): Releases a batch. -/
  | xqDone (x : Args)
  /-- XQ_STAT (R262): Reads a status word of an expert queue. -/
  | xqStat (x : Args)
  /-- CREW_JOIN (R222): Lanes join a crew. -/
  | crewJoin (x : Args)
  /-- CREW_LEAVE (R222): Lanes leave their crews. -/
  | crewLeave (x : Args)
  /-- CREW_INFO (R222): Reads a word of a crew-table entry. -/
  | crewInfo (x : Args)
  /-- BAR_BIND (R230): Binds a barrier with an expected count. -/
  | barBind (x : Args)
  /-- BAR_ARRIVE (R230): Plain arrival of lanes at a barrier. -/
  | barArrive (x : Args)
  /-- BAR_ARRIVE_ENROL (R230): Enrols lanes at a barrier without arriving. -/
  | barArriveEnrol (x : Args)
  /-- BAR_ARRIVE_DROP (R230): Arrives once and then leaves the barrier. -/
  | barArriveDrop (x : Args)
  /-- BAR_WAIT (R230): Ends the run and waits for the phase release. -/
  | barWait (x : Args)
  /-- BAR_FREE (R230): Frees a barrier and releases its waiters. -/
  | barFree (x : Args)
  /-- SIG_DEC (R252): Atomically decrements a signal object as a release. -/
  | sigDec (x : Args)
  /-- SIG_WAIT (R252): Ends the run and waits for a signal comparison. -/
  | sigWait (x : Args)
  /-- SIG_SET (R252): Atomically sets a signal object as a release. -/
  | sigSet (x : Args)
  /-- GATE_SIG (R290): Adds n to a gate value, or defers when rate-limited. -/
  | gateSig (x : Args)
  /-- GATE_WAIT (R290): Ends the run and waits for a gate value of at least v. -/
  | gateWait (x : Args)
  /-- GATE_RD (R290): Reads a gate value. -/
  | gateRd (x : Args)
  /-- SRD (R68): Reads a special register. -/
  | srd (x : Args)
  /-- SWR (R68): Writes a special register by its swr effect. -/
  | swr (x : Args)
  /-- TRAP (R302): Raises a USER trap to the shim. -/
  | trap (x : Args)
  /-- TRAPRET (R300): Leaves the shim: retry, resume after, or hand the trap to the driver. -/
  | trapret (x : Args)
  /-- REGION (R303): Opens an idempotent region and saves the region state. -/
  | region (x : Args)
  /-- SIGCHK (R307): Compares and resets %sig, or raises SIG. -/
  | sigchk (x : Args)
  /-- LAUNCH (R237): Appends a kernel node to a queue. -/
  | launch (x : Args)
  /-- PROF_OFF (R82): Stops sampling. -/
  | profOff (x : Args)
  /-- PROF_ON (R82): Starts sampling with period P. -/
  | profOn (x : Args)
  /-- PROF_BUF (R82): Sets the sample buffer and resets its counts. -/
  | profBuf (x : Args)
  /-- PROF_RDP (R82): Reads the producer count. -/
  | profRdp (x : Args)
  /-- PROF_CONS (R82): Sets the consumer count. -/
  | profCons (x : Args)
  /-- PROF_DROP (R82): Reads and clears the drop count. -/
  | profDrop (x : Args)
  /-- DBG (R302): Raises a USER trap to the driver. -/
  | dbg (x : Args)
  /-- RUN_ARBITRATION (R70): An issue slot chooses a ready course and path and runs the chosen run. -/
  | runArbitration (core islot : Nat)
  /-- LONG_LATENCY_COMPLETE (R42): An L instruction's results are written and its flag count falls. -/
  | longLatencyComplete (op line : Nat)
  /-- SAMPLE (R81): The sampler's period expires and it writes or drops one record. -/
  | sample (core part : Nat)
  /-- PARK_WAKE (R137): A write to a parked word is performed and wakes the path. -/
  | parkWake (cid p : Nat)
  /-- PARK_TIMEOUT (R137): A park expires 65,536 clk after issue. -/
  | parkTimeout (cid p : Nat)
  /-- TMV_LINE_ARRIVAL (R139): A tile-move or zero line arrives, sets P and recomputes Z. -/
  | tmvLineArrival (op i : Nat)
  /-- COPY_ENGINE_ACQUIRE (R215): A waiting cp takes a free copy engine of its die. -/
  | copyEngineAcquire (op : Nat)
  /-- CP_COMPLETE (R215): A copy completes, releases its locks, its flag falls and its signal is decremented. -/
  | cpComplete (op : Nat)
  /-- ENGINE_FAULT (R215): A translation fault after an engine operation has started ends it. -/
  | engineFault (op : Nat)
  /-- RANGE_LOCK_ENTRY_FREE (R163): An operation waiting for a free range-lock entry registers. -/
  | rangeLockEntryFree (op : Nat)
  /-- WBLD_LINE_ARRIVAL (R196): A weight line arrives, computes Z and sets P. -/
  | wbldLineArrival (bent j : Nat)
  /-- OVL_UNLOAD (R216): No path is mid-run in marked slots, so the unload and the copy begin. -/
  | ovlUnload (op : Nat)
  /-- OVL_LD_COMPLETE (R216): The overlay copy completes and the id counts as loaded. -/
  | ovlLdComplete (op : Nat)
  /-- FBIND_COMPLETE (R212): The binding's lock is in effect and the fbind flag falls. -/
  | fbindComplete (op : Nat)
  /-- FUNBIND_RELEASE (R212): Earlier fetches have read, and the binding's entry is released. -/
  | funbindRelease (op : Nat)
  /-- WFLUSH_COMPLETE (R110): Every row has moved and the flag of wflush falls. -/
  | wflushComplete (op : Nat)
  /-- SLICE_COPY_COMPLETE (R124): A cut or graft copy completes and commits. -/
  | sliceCopyComplete (op : Nat)
  /-- SLICE_DROP_COMPLETE (R120): Pending grafts finish, blocks return and the entry becomes FREE. -/
  | sliceDropComplete (op : Nat)
  /-- MATRIX_QUEUE_SERVE (R185): The sequencer takes the head entry of the next queue in round-robin order. -/
  | matrixQueueServe (bent : Nat)
  /-- MATRIX_STEP (R199): One step of a matrix operation is accumulated into the tile. -/
  | matrixStep (bent : Nat)
  /-- MATRIX_OP_COMPLETE (R199): The flag falls 12 clk after the last step. -/
  | matrixOpComplete (bent : Nat)
  /-- TILE_SAVE_FINISHED (R189): A SAVING tile's image is stored and the tile is FREE. -/
  | tileSaveFinished (bent tile : Nat)
  /-- EA_ACCEPT (R174): The home accepts or refuses a structural operation and gives it a sequence number. -/
  | eaAccept (op : Nat)
  /-- EA_COMMIT (R174): The home writes elements, updates the tree under odd SEQ and sends the shoot-down. -/
  | eaCommit (op : Nat)
  /-- SHOOTDOWN (R177): A core applies a rank shoot-down to its rank cache. -/
  | shootdown (op core : Nat)
  /-- SHOOTDOWN_ACK (R178): A core acknowledges once older accesses and walks have finished. -/
  | shootdownAck (op core : Nat)
  /-- EA_COMMIT_COMPLETE (R174): All acknowledgements are in; structures and locks are released and the flag falls. -/
  | eaCommitComplete (op : Nat)
  /-- WALK_COMPLETE (R148): A walk finishes, installs its result or is discarded under a newer generation. -/
  | walkComplete (core i : Nat)
  /-- CREW_EVENT_APPLY (R221): The crew home applies a join, leave or halt event. -/
  | crewEventApply (op : Nat)
  /-- BAR_ARRIVAL_APPLY (R228): The barrier home applies arrivals and exits, releasing a phase at zero. -/
  | barArrivalApply (op : Nat)
  /-- BAR_RELEASE_WAKE (R229): The release latency expires and waiting paths become ready. -/
  | barReleaseWake (cid p : Nat)
  /-- SIGNAL_WRITE_REEVAL (R252): A signal write at its home re-evaluates waiting paths and watching nodes. -/
  | signalWriteReeval (pa : Nat)
  /-- XRED_COMPLETE (R101): The tree writes xr and increments its sequence number. -/
  | xredComplete (op : Nat)
  /-- NODE_START (R248): The walker starts a READY node in ring order. -/
  | nodeStart (q slot : Nat)
  /-- NODE_COMPLETE (R246): A node leaves RUNNING and sends its arrivals. -/
  | nodeComplete (q slot : Nat)
  /-- NODE_FAULT (R250): A node becomes FAULTED and the queue is STOPPED. -/
  | nodeFault (q slot : Nat)
  /-- PLACEMENT (R239): The distributor places a course of a waiting kernel on a core. -/
  | placement (kern : Nat)
  /-- COURSE_START (R240): The entry overlay is loaded and the course starts in its launch state. -/
  | courseStart (cid : Nat)
  /-- COURSE_RETIRE (R241): A course whose lanes exited and work drained releases its resources. -/
  | courseRetire (cid : Nat)
  /-- XQ_CFG_APPLY (R260): A held configuration applies once the queue is drained. -/
  | xqCfgApply (op : Nat)
  /-- SELECTION_ROUND (R264): At every multiple of 40 ns the cairn fires up to 64 queues. -/
  | selectionRound (die : Nat)
  /-- REPLAY_RETRY (R320): A retry-later message is resent after 2 µs. -/
  | replayRetry (link seq : Nat)
  /-- ROUTE_TIMEOUT (R320): Messages with no route for 10 ms end as refused. -/
  | routeTimeout (link seq : Nat)
  /-- GATE_TOKEN_REFILL (R288): A refill tick adds a token to an access-list entry. -/
  | gateTokenRefill (gate i : Nat)
  /-- GATE_DEFER_TIMEOUT (R290): A deferred signal not applied within 10 µs is dropped with RATE. -/
  | gateDeferTimeout (op : Nat)
  /-- SLOT_BOUNDARY (R278): Courses of the outgoing virtual device halt and those of the incoming one resume. -/
  | slotBoundary (part : Nat)
  /-- RECLAIM (R282): A lender reclaims lent capacity and halts the borrowed course. -/
  | reclaim (part cid : Nat)
  /-- LEND_RETURN (R282): At t mod Π = 0 a reclaimed borrowed course resumes in its capacity. -/
  | lendReturn (part : Nat)
  /-- PARTITION_LOAD_EFFECT (R284): An accepted partition load takes effect at the next period start. -/
  | partitionLoadEffect (part : Nat)
  /-- COURSE_RELOCATE (R309): A course moved off a retired bent is placed and restored on another core. -/
  | courseRelocate (cid : Nat)
  /-- INVALIDATION_ACK (R147): An invalidation is acknowledged once its conditions hold. -/
  | invalidationAck (page : Nat)
  /-- CONTEXT_END_COMPLETE (R285): The last course and operation end and the context becomes FREE. -/
  | contextEndComplete (ctx : Nat)
  /-- MIGRATE_OUT_SAVE_FINISHED (R283): The migrating context's state is saved and it becomes FREE. -/
  | migrateOutSaveFinished (ctx : Nat)
  /-- MIGRATION_LINE_COPY (R150): One line of a migrating frame is copied, and the last switches the frame map. -/
  | migrationLineCopy (frame : Nat)
  /-- TRAINING_RETRY (R318): A failed link retries training after 1 ms. -/
  | trainingRetry (link : Nat)
  /-- LANE_ERROR_THRESHOLD (R318): 16 CRC failures in 1 ms exclude a lane and retrain the link. -/
  | laneErrorThreshold (link lane : Nat)
  /-- RANK_WALK (R174): A rank walk reads the tree under an even SEQ, or discards and retries. -/
  | rankWalk (core : Nat) (handle : Word) (rank : Nat)
  /-- WALK_START (R144): The core walker begins a page walk. -/
  | walkStart (core ctx : Nat) (va : WalkFrom)
  /-- REMOTE_PUSH (R267): A receiving cairn applies Accept to a pushed row and replies. -/
  | remotePush (link seq dev queue : Nat) (tag : Word) (row : List Byte × List Bool)
  /-- COMBINE_MESSAGE (R268): A receiving cairn writes a combine row into its slot, or refuses it. -/
  | combineMessage (link seq queue layer : Nat) (tag : Word) (kmax outu : Nat) (row : List Byte × List Bool)
  /-- LINK_REPLY (R320): A reply ends or keeps a message in the replay queue. -/
  | linkReply (link seq : Nat) (r : Reply)
  /-- GATE_MESSAGE (R289): A gate operation from another package is applied at its home. -/
  | gateMessage (link seq gate pkg part : Nat) (op : GateOp)
  /-- BENT_RETIRE (R12): A bent leaves service and its courses are saved for placement elsewhere. -/
  | bentRetire (bent : Nat)
  /-- QUEUE_ENABLE (R250): A non-zero QBLOCK write enables a queue. -/
  | queueEnable (page q : Nat) (va : Word)
  /-- QUEUE_DISABLE (R250): A zero QBLOCK write disables a queue once no node is running. -/
  | queueDisable (page q : Nat)
  /-- BELL (R248): The doorbell appends a host-written node at the new TAIL. -/
  | bell (page q tail : Nat)
  /-- RESUME (R301): The resume doorbell applies the record's ACTION to a stopped path. -/
  | resume (page ctx core cslot p : Nat)
  /-- CONS (R315): A consumer-count write frees room for waiting fault notices. -/
  | cons (page : Nat) (v : BitVec 32)
  /-- STAGE1_RANGE_INVALIDATE (R147): Invalidates stage-1 translations of a VA range. -/
  | stage1RangeInvalidate (page part ctx : Nat) (base : Word) (count seq : BitVec 32)
  /-- STAGE1_CONTEXT_INVALIDATE (R147): Invalidates every stage-1 translation of a context. -/
  | stage1ContextInvalidate (page part ctx : Nat) (seq : BitVec 32)
  /-- STAGE2_RANGE_INVALIDATE (R147): Invalidates stage-2 translations of a GPA range. -/
  | stage2RangeInvalidate (page part : Nat) (base : Word) (count seq : BitVec 32)
  /-- STAGE2_PARTITION_INVALIDATE (R147): Invalidates every stage-2 translation of a partition. -/
  | stage2PartitionInvalidate (page part : Nat) (seq : BitVec 32)
  /-- ADD_SPARE_FRAMES (R150): Hands HPA frames to the spare list. -/
  | addSpareFrames (page : Nat) (base : Word) (count seq : BitVec 32)
  /-- LOAD_PARTITION_BLOCK (R284): The hypervisor loads a partition block. -/
  | loadPartitionBlock (page part : Nat) (addr : Word) (seq : BitVec 32)
  /-- ENABLE (R285): Enables a context from its context block. -/
  | enable (page part ctx : Nat) (addr : Word) (seq : BitVec 32)
  /-- END (R285): Ends a context and returns its objects. -/
  | endContext (page part ctx : Nat) (seq : BitVec 32)
  /-- FLUSH_CREW (R281): Flushes a crew's courses back to their regions. -/
  | flushCrew (page part ctx crew : Nat) (seq : BitVec 32)
  /-- RESTART_CREW (R281): Resumes a flushed crew at %regpc. -/
  | restartCrew (page part ctx crew : Nat) (seq : BitVec 32)
  /-- MIGRATE_OUT (R283): Halts and saves a context for migration. -/
  | migrateOut (page part ctx : Nat) (seq : BitVec 32)
  /-- MIGRATE_IN (R283): Enables a migrated context from its block and save area. -/
  | migrateIn (page part ctx : Nat) (addr : Word) (seq : BitVec 32)
  /-- ACTIVATE (R295): Activates a gate, enabling the table first if needed. -/
  | activate (page gate ver : Nat) (seq : BitVec 32)
  /-- FREEZE (R295): Freezes a gate. -/
  | freeze (page gate : Nat) (seq : BitVec 32)
  /-- THAW (R295): Thaws a gate and applies deferred signals. -/
  | thaw (page gate : Nat) (seq : BitVec 32)
  /-- RETIRE (R295): Retires a gate, dropping deferred signals and releasing waiters. -/
  | retire (page gate : Nat) (seq : BitVec 32)
  /-- BEGIN_MIGRATION (R295): Begins the migration of a gate's access-list entry. -/
  | beginMigration (page gate acli : Nat) (seq : BitVec 32)
  /-- END_MIGRATION (R295): Ends a gate migration and re-delivers remote waiters. -/
  | endMigration (page gate : Nat) (seq : BitVec 32)
  /-- ARM (R316): Arms the checkpoint safe tier. -/
  | arm (page : Nat) (base : Word) (seq : BitVec 32)
  /-- START (R311): Starts a whole-memory checkpoint. -/
  | startCheckpoint (page : Nat) (seq : BitVec 32)
  /-- DISARM (R316): Disarms the checkpoint safe tier. -/
  | disarm (page : Nat) (seq : BitVec 32)
  /-- CHECKPOINT_COMPLETE (R311): Every in-service frame is copied and courses resume. -/
  | checkpointComplete
  /-- ERRCNT (R317): Reading a peer window's error counter returns and clears it. -/
  | errcnt (w : Nat)
  /-- RETRAIN (R319): Reading a link's retrain count returns and clears it. -/
  | retrain (link : Nat)
  /-- REGISTER_WRITE (R313): Writes a host register that has no behaviour of its own. -/
  | registerWrite (page off : Nat) (v : Word)
  /-- PEER_WRITE (R219): A storage write to a peer window lands in an armed range or is discarded. -/
  | peerWrite (off : Nat) (bytes : List Byte × List Bool)
  /-- HOST_CXL_MEM_ACCESS (R312): A host CXL.mem access to an HDM-DB window is performed at the DRAM home. -/
  | hostCxlMemAccess (write : Bool) (hpa n : Nat) (bytes : List Byte)
  /-- DECODE_FRAME (R218): A decoder finishes a frame and fills it before the node's mortise. -/
  | decodeFrame (q slot : Nat) (frame : Picture) (err last : Bool)
  /-- FRAME_RETIRE_TRIGGER (R150): A DRAM frame reports an error that makes it PENDING. -/
  | frameRetireTrigger (frame reason block : Nat)
  /-- ILLEGAL_ENCODING (R51): A word that breaks an encoding rule raises ILLEGAL with no effect. -/
  | illegalEncoding (sub : BitVec 8)
  /-- CORRECTED_ERROR (R310): A corrected error is counted per frame and reported. -/
  | correctedError (frame : Nat)
  /-- SCRUB (R310): A DRAM frame is read and scrubbed. -/
  | scrub (frame : Nat)
  /-- VIRAL_STATE (R310): An uncontainable error puts the package in the viral state. -/
  | viralState
  /-- CXL_RESET (R310): A CXL or conventional reset leaves the viral state. -/
  | cxlReset
  /-- LINK_POWER_UP (R318): Power-up or reset starts link training. -/
  | linkPowerUp (link : Nat)
  /-- TRAINING_SUCCEEDS (R318): A link trains to the widest working width and goes UP. -/
  | trainingSucceeds (link peer : Nat) (ver : Training)
  /-- TRAINING_FAILS (R318): Training fails or finds no common version, and the link goes DOWN. -/
  | trainingFails (link : Nat)
  /-- FLIT_CRC_FAILURE (R318): A flit failing its CRC is resent from the link retry buffer. -/
  | flitCrcFailure (link lane : Nat)
  /-- VIRAL_FLIT_RECEIVED (R323): A peer's viral flit takes the link DOWN. -/
  | viralFlitReceived (link : Nat)
  /-- TIME_SYNC (R322): The IEEE 1588 input disciplines the time-stamp counter. -/
  | timeSync (off ppm : Int)
  /-- POWER_CAP_SET (R325): The hypervisor sets the power cap. -/
  | powerCapSet (watts : Nat)
  /-- CLOCK_STEP (R325): The management controller changes the arithmetic clock by 100 MHz. -/
  | clockStep (mhz : Nat)
  /-- JUNCTION_TRIP (R325): A junction at 115 °C makes the package viral and removes power. -/
  | junctionTrip
  /-- INPUT_UNDERVOLTAGE (R325): An input below 46 V for 1 ms makes the package viral and removes power. -/
  | inputUndervoltage
  /-- RESET_BOOT (R326): The boot ROM verifies a firmware slot and the firmware brings up the package. -/
  | resetBoot
  /-- FIRMWARE_UPDATE (R327): Writes and checks an update in the inactive slot and marks it active. -/
  | firmwareUpdate (image : List Byte) (version : Nat) (sig : BitVec 768)
  /-- CERTIFICATE_REQUEST (R328): The management controller serves the identity-key certificate. -/
  | certificateRequest
  /-- ATTESTATION_REQUEST (R329): The management controller signs an attestation report for a nonce. -/
  | attestationRequest (nonce : BitVec 384)
  /-- QUEUE_RESUME (R250): The driver resumes a STOPPED queue, which becomes ACTIVE after the driver has rewritten the faulted node to READY or COMPLETE. -/
  | queueResume (page q : Nat)
  deriving DecidableEq, Repr

end Sys2Proof
end

