-- ==== Sys2Proof/Machine/Encoding.lean ====
section
/-!
DEFINITION. The encoding tables of the spec (R33 to R51 and the encoding line of every entry): for each instruction its OP,
its modifiers, its ᴸ and ᴮ marks, the operand classes each field may have, and the checks of its control fields.
-/

namespace Sys2Proof

/-- Subcodes of ILLEGAL (R51). -/
def Sub.runlen : BitVec 8 := 0x01
/-- R40. -/
def Sub.runstart : BitVec 8 := 0x02
/-- R48, R50. -/
def Sub.op : BitVec 8 := 0x03
/-- A modifier that the entry does not list. -/
def Sub.mod : BitVec 8 := 0x04
/-- R41. -/
def Sub.flag : BitVec 8 := 0x05
/-- R35, R39. -/
def Sub.pred : BitVec 8 := 0x06
/-- R35, R36, R38. -/
def Sub.cls : BitVec 8 := 0x07
/-- R37. -/
def Sub.pat : BitVec 8 := 0x08
/-- R16. -/
def Sub.odd : BitVec 8 := 0x09
/-- R35, R47, and the out-of-range fields of the entries. -/
def Sub.field : BitVec 8 := 0x0A
/-- A bit that must be zero. -/
def Sub.mbz : BitVec 8 := 0x0B
/-- R73. -/
def Sub.brkpath : BitVec 8 := 0x0C
/-- R15. -/
def Sub.ver : BitVec 8 := 0x0D

/-- The code of an element type (R45). -/
def Ty.code : Ty → BitVec 5
  | .i8 => 0x00 | .i16 => 0x01 | .i32 => 0x02 | .i64 => 0x03
  | .n8 => 0x04 | .n16 => 0x05 | .n32 => 0x06 | .n64 => 0x07
  | .b32 => 0x08 | .b64 => 0x09 | .f64 => 0x0A | .f32 => 0x0B
  | .f16 => 0x0C | .bf16 => 0x0D | .e4m3 => 0x0E | .e5m2 => 0x0F
  | .q4g => 0x10 | .q8g => 0x11

/-- The types in the order of their codes. -/
def Ty.all : List Ty :=
  [.i8, .i16, .i32, .i64, .n8, .n16, .n32, .n64, .b32, .b64, .f64, .f32, .f16, .bf16, .e4m3, .e5m2, .q4g, .q8g]

/-- The type of a code; codes 0x12 to 0x1F are reserved (R45). -/
def Ty.ofCode (c : BitVec 5) : Option Ty := Ty.all[c.toNat]?

/-- The width of a type in bits (R17, R18, R26). -/
def Ty.bits : Ty → Nat
  | .i8 | .n8 | .e4m3 | .e5m2 | .q8g => 8
  | .i16 | .n16 | .f16 | .bf16 => 16
  | .i32 | .n32 | .b32 | .f32 => 32
  | .i64 | .n64 | .b64 | .f64 => 64
  | .q4g => 4

/-- Whether values of the type take an even–odd pair of vector registers (R16, R83). -/
def Ty.wide (t : Ty) : Bool := t.bits == 64

/-- The float format of a type, if it is one. -/
def Ty.fmt? : Ty → Option Fmt
  | .f64 => some .f64 | .f32 => some .f32 | .f16 => some .f16
  | .bf16 => some .bf16 | .e4m3 => some .e4m3 | .e5m2 => some .e5m2
  | _ => none

/-- Signed integer types (R17). -/
def Ty.signed : Ty → Bool
  | .i8 | .i16 | .i32 | .i64 => true
  | _ => false

/-- The type of the same name as a format. -/
def Fmt.ty : Fmt → Ty
  | .f64 => .f64 | .f32 => .f32 | .f16 => .f16 | .bf16 => .bf16 | .e4m3 => .e4m3 | .e5m2 => .e5m2

/-- The 3-bit code of a float format (R45). -/
def Fmt.code : Fmt → BitVec 3
  | .f64 => 0 | .f32 => 1 | .f16 => 2 | .bf16 => 3 | .e4m3 => 4 | .e5m2 => 5

/-- The format of a code; 6 and 7 are reserved (R45). -/
def Fmt.ofCode (c : BitVec 3) : Option Fmt :=
  [Fmt.f64, .f32, .f16, .bf16, .e4m3, .e5m2][c.toNat]?

/-- The code of a rounding mode (R22). -/
def Rnd.code : Rnd → BitVec 2
  | .rn => 0 | .rz => 1 | .rm => 2 | .rp => 3

/-- The rounding mode of a code (R22). -/
def Rnd.ofCode (c : BitVec 2) : Rnd :=
  if c = 0 then .rn else if c = 1 then .rz else if c = 2 then .rm else .rp

/-- The code of a scope (R46). -/
def Scope.code : Scope → BitVec 3
  | .cw => 0 | .co => 1 | .crew => 2 | .bay => 3 | .die => 4 | .pkg => 5 | .part => 6 | .sys => 7

/-- The scope of a code (R46). -/
def Scope.ofCode (c : BitVec 3) : Scope :=
  if c = 0 then .cw else if c = 1 then .co else if c = 2 then .crew else if c = 3 then .bay
  else if c = 4 then .die else if c = 5 then .pkg else if c = 6 then .part else .sys

/-- What a class 01 field names (R35). -/
inductive Role where
  | scalar | pred | evenPred | tile | shape | special | any
  deriving DecidableEq, Repr

/-- When a vector field must name an even register (R83). -/
inductive PairRule where
  | never | always | byTy
  deriving DecidableEq, Repr

/-- What an operand field may be: all zero, a vector, a class 01 register, an immediate, a joined immediate. -/
structure FieldSpec where
  z : Bool := false
  v : Bool := false
  r : Bool := false
  i : Bool := false
  j : Bool := false
  role : Role := .scalar
  pair : PairRule := .never
  deriving DecidableEq, Repr

/-- The modifiers an entry lists (R48). -/
inductive ModSpec where
  /-- MOD is this value -/
  | fixed (n : BitVec 5)
  /-- a type code of this list -/
  | tys (l : List Ty)
  /-- a float format of this list, with any rounding code or with 0b00 only -/
  | flt (l : List Fmt) (anyRnd : Bool)
  /-- a number from lo to hi -/
  | num (lo hi : Nat)
  /-- MOD[4:3] is k and MOD[2:0] a scope -/
  | scope (k : BitVec 2)
  deriving DecidableEq, Repr

/-- What the guard field may be. -/
inductive GuardSpec where
  /-- any guard of R39 -/
  | any
  /-- G must be 0x3F; otherwise MBZ (R73, R307) -/
  | always
  /-- a predicate that is not inverted; otherwise PRED (R261) -/
  | plainPred
  deriving DecidableEq, Repr

/-- How elements of the sources reach the lanes of a result (R305): lane by lane, by the choice of sel, through perm, or
through the steps of a reduction or a scan. -/
inductive Reach where
  | lane | sel | perm | red | scan
  deriving DecidableEq, Repr

/-- Registers an operand field names under the pair rule: two for a pair. -/
def FieldSpec.count (f : FieldSpec) (wide : Bool) : Nat :=
  match f.pair with
  | .never => 1
  | .always => 2
  | .byTy => if wide then 2 else 1

/-- The encoding of one instruction. -/
structure Entry where
  op : BitVec 9
  mods : ModSpec := .fixed 0
  isL : Bool := false
  isB : Bool := false
  /-- a memory instruction: behind a tfence of its course it waits in the access queue (R160) -/
  paged : Bool := false
  guard : GuardSpec := .any
  d : FieldSpec := {}
  a : FieldSpec := {}
  b : FieldSpec := {}
  /-- a scalar D excludes vector sources (R38) -/
  r38 : Bool := false
  /-- D is read as a source -/
  rd : Bool := false
  /-- the B field that selects this row among rows of one OP -/
  bsel : Option (BitVec 18) := none
  reach : Reach := .lane
  /-- vector registers that the fields D, A and B are read as; none for a field that is only written -/
  regs : Bool → Args → Nat × Nat × Nat := fun wide _ => (if rd then d.count wide else 0, a.count wide, b.count wide)
  /-- the subcodes of the further rules that the decoded fields break -/
  extra : Args → List (BitVec 8) := fun _ => []

/-! ### Modifiers -/

/-- The modifier a MOD field stands for under an entry, if the entry lists it. -/
def ModSpec.parse (s : ModSpec) (w : BitVec 5) : Option Mod :=
  match s with
  | .fixed n => if w = n then some .none else none
  | .tys l =>
    match Ty.ofCode w with
    | some t => if t ∈ l then some (.ty t) else none
    | none => none
  | .flt l any =>
    match Fmt.ofCode (w.extractLsb' 2 3) with
    | some f =>
      if f ∈ l ∧ (any = true ∨ w.extractLsb' 0 2 = 0)
      then some (.flt f (Rnd.ofCode (w.extractLsb' 0 2))) else none
    | none => none
  | .num lo hi => if lo ≤ w.toNat ∧ w.toNat ≤ hi then some (.num w) else none
  | .scope k => if w.extractLsb' 3 2 = k then some (.scope (Scope.ofCode (w.extractLsb' 0 3))) else none

/-- The MOD field of a modifier under an entry. -/
def ModSpec.encode (s : ModSpec) (m : Mod) : BitVec 5 :=
  match s, m with
  | .fixed n, _ => n
  | .tys _, .ty t => t.code
  | .flt _ _, .flt f r => f.code ++ r.code
  | .num _ _, .num n => n
  | .scope k, .scope c => k ++ c.code
  | _, _ => 0

/-- Whether the entry lists the modifier. -/
def ModSpec.ok (s : ModSpec) (m : Mod) : Bool :=
  match s, m with
  | .fixed _, .none => true
  | .tys l, .ty t => decide (t ∈ l)
  | .flt l any, .flt f r => decide (f ∈ l) && (any || decide (r = .rn))
  | .num lo hi, .num n => decide (lo ≤ n.toNat) && decide (n.toNat ≤ hi)
  | .scope _, .scope _ => true
  | _, _ => false

/-! ### Control-field checks -/

/-- The element type a modifier names; .b32 where it names none. -/
def Mod.tyD : Mod → Ty
  | .ty t => t
  | .flt f _ => f.ty
  | _ => .b32

/-- Immediates a float type cannot take (R36): class 10 of an 8-bit float, a joined pattern of a format other than
.f32 and .f64. -/
def immBroken (t : Ty) (o : Opnd) : List (BitVec 8) :=
  match o, t.fmt? with
  | .imm _, some .e4m3 => [Sub.cls]
  | .imm _, some .e5m2 => [Sub.cls]
  | .joined _, some .f64 => []
  | .joined _, some .f32 => []
  | .joined _, some _ => [Sub.cls]
  | _, _ => []

/-- R36 for both sources under the modifier's type. -/
def immChecks (x : Args) : List (BitVec 8) := immBroken x.m.tyD x.a ++ immBroken x.m.tyD x.b

/-- Whether a vector operand has an odd register number. -/
def Opnd.oddVec : Opnd → Bool
  | .vec r _ => r.getLsbD 0
  | _ => false

/-- Whether the operand is a vector. -/
def Opnd.isVec : Opnd → Bool
  | .vec _ _ => true
  | _ => false

/-- Whether the operand is a class 01 register. -/
def Opnd.isReg : Opnd → Bool
  | .reg _ => true
  | _ => false

/-- An immediate B that names a slot or word 0 to k: FIELD above k. -/
def slotCheck (k : Nat) (o : Opnd) : List (BitVec 8) :=
  match o with
  | .imm v => if v.toNat ≤ k then [] else [Sub.field]
  | _ => []

/-- The control field of lred, lscan and xred (R96, R101). -/
def redCheck (xred : Bool) (x : Args) : List (BitVec 8) :=
  match x.b with
  | .imm v =>
    let pn := (v.extractLsb' 4 6).toNat
    let opr := (v.extractLsb' 0 4).toNat
    let t := x.m.tyD
    (if 6 ≤ opr then [Sub.field] else [])
    ++ (if xred then (if pn = 63 then [] else [Sub.field])
        else if pn = 63 then [] else
          (if 48 ≤ pn then [Sub.pred] else []) ++ (if pn % 2 = 1 then [Sub.odd] else []))
    ++ (if 3 ≤ opr ∧ opr < 6 ∧ t.fmt?.isSome then [Sub.mod] else [])
    ++ (if (opr = 1 ∨ opr = 2) ∧ (t = .b32 ∨ t = .b64) then [Sub.mod] else [])
  | _ => []

/-- Which ORD codes a memory instruction allows (R130). -/
inductive MemKind where
  | ld | st | atom | cas | park
  deriving DecidableEq, Repr

/-- The control field of a memory instruction and the registers its address and group need (R130, R131, R134). -/
def memCheck (k : MemKind) (x : Args) : List (BitVec 8) :=
  match x.b with
  | .imm v =>
    let sp := (v.extractLsb' 13 3).toNat
    let ord := (v.extractLsb' 11 2).toNat
    let scope := (v.extractLsb' 8 3).toNat
    let paged : Bool := sp == 0 || sp == 1 || sp == 5
    let ordOk : Bool := match k with
      | .ld => ord == 0 || ord == 1
      | .st => ord == 0 || ord == 2
      | .atom | .cas => true
      | .park => ord == 0
    let scopeZero : Bool := match k with
      | .ld | .st => ord == 0
      | .atom | .cas => false
      | .park => true
    let group := match k, x.d with
      | .cas, .vec r _ => if r.toNat + (if x.m.tyD.wide then 3 else 1) ≤ 63 then [] else [Sub.field]
      | .cas, .reg r => if r.toNat + 1 ≤ 63 then [] else [Sub.field]
      | _, _ => []
    (if 6 ≤ sp then [Sub.field] else [])
    ++ (if k = .park ∧ sp = 5 then [Sub.field] else [])
    ++ (if ordOk then [] else [Sub.field])
    ++ (if scopeZero ∧ scope ≠ 0 then [Sub.mbz] else [])
    ++ (if sp = 5 ∧ (v.extractLsb' 6 2).toNat ≠ 0 then [Sub.mbz] else [])
    ++ (if paged ∧ x.a.oddVec then [Sub.odd] else [])
    ++ group
  | _ => []

/-- Which source types cvt accepts for a destination format (R90). -/
def cvtSources : Fmt → List Ty
  | .f64 => [.f64, .f32, .f16, .bf16, .q4g, .q8g]
  | .f32 | .f16 | .bf16 => [.f64, .f32, .f16, .bf16, .e4m3, .e5m2, .q4g, .q8g]
  | .e4m3 | .e5m2 => [.f32, .f16]

/-- The format a class 001 modifier names. -/
def Mod.fmtD : Mod → Fmt
  | .flt f _ => f
  | _ => .f32

/-- The type code in the B field of a conversion (R48, R90). -/
def cvtTy (x : Args) : Option Ty :=
  match x.b with
  | .imm v => Ty.ofCode (v.extractLsb' 0 5)
  | _ => none

/-- Registers that cvt reads (R90): the scale from D for a group format, a pair for a source of 64 bits. -/
def cvtRegs (x : Args) : Nat × Nat × Nat :=
  match cvtTy x with
  | some t => (if t = .q4g ∨ t = .q8g then 1 else 0, if t.wide then 2 else 1, 1)
  | none => (0, 1, 1)

/-- Registers that cvti and cvtf read (R91). -/
def cvtIntRegs (toInt : Bool) (x : Args) : Nat × Nat × Nat :=
  if toInt then (0, if x.m.fmtD = .f64 then 2 else 1, 1)
  else match cvtTy x with
    | some t => (0, if t.wide then 2 else 1, 1)
    | none => (0, 1, 1)

/-- Registers that a memory instruction reads (R130, R131, R134): its source or group, and an address pair in a paged space. -/
def memRegs (k : MemKind) (wide : Bool) (x : Args) : Nat × Nat × Nat :=
  let n := if wide then 2 else 1
  let paged : Bool := match x.b with
    | .imm v => (v.extractLsb' 13 3).toNat ≤ 1 || (v.extractLsb' 13 3).toNat == 5
    | _ => false
  ((match k with | .ld => 0 | .st | .atom => n | .cas => 2 * n | .park => 1), if paged then 2 else 1, 1)

/-- The control field and register pairs of cvt (R90). -/
def cvtCheck (x : Args) : List (BitVec 8) :=
  let f := x.m.fmtD
  let pairs (t : Ty) : List (BitVec 8) :=
    immBroken t x.a ++ (if t.wide ∧ x.a.oddVec then [Sub.odd] else [])
  (match x.b with
   | .imm v =>
     (match cvtTy x with
      | some t => (if t ∈ cvtSources f then [] else [Sub.field]) ++ pairs t
      | none => [Sub.field])
     ++ (if v.getLsbD 5 ∧ f ≠ .e4m3 ∧ f ≠ .e5m2 then [Sub.mbz] else [])
     ++ (if v.extractLsb' 6 10 = 0 then [] else [Sub.mbz])
   | _ => [])
  ++ (if f = .f64 ∧ x.d.oddVec then [Sub.odd] else [])

/-- The control field and register pairs of cvti and cvtf (R91). -/
def cvtIntCheck (toInt : Bool) (x : Args) : List (BitVec 8) :=
  let f := x.m.fmtD
  match x.b with
  | .imm v =>
    (match cvtTy x with
     | some t =>
       (if t.code.toNat ≤ 7 then [] else [Sub.field])
       ++ (if (if toInt then t.wide else decide (f = .f64)) && x.d.oddVec then [Sub.odd] else [])
       ++ (if (if toInt then decide (f = .f64) else t.wide) && x.a.oddVec then [Sub.odd] else [])
     | none => [Sub.field])
    ++ (if v.extractLsb' 5 11 = 0 then [] else [Sub.mbz])
  | _ => []

/-- The three forms of pmov (R93); a B of class 10 with value 0 is none of them and breaks MBZ, a choice (log entry 97). -/
def pmovCheck (x : Args) : List (BitVec 8) :=
  match x.a, x.b with
  | .reg n, .zero => if n.toNat < 48 then [] else [Sub.pred]
  | .reg _, .imm v => if v = 1 then [] else if v = 0 then [Sub.mbz] else [Sub.field]
  | .imm _, .zero => []
  | .imm _, .imm v => if v = 1 then [Sub.cls] else if v = 0 then [Sub.mbz] else [Sub.field]
  | _, _ => []

/-- Special registers that differ per lane (R67). -/
def laneSpecial (n : Nat) : Bool := n = 1 || n = 2 || n = 8

/-- Special registers of 64 bits (R67). -/
def wideSpecial (n : Nat) : Bool := n = 9 || n = 0x0A || n = 0x12

/-- Special registers of a tile (R67). -/
def tileSpecial (n : Nat) : Bool := n = 0x0C || n = 0x0D

/-- The operands of srd (R68). A B field that is no tile where none is named breaks CLASS by its class and MBZ in class 01, a choice
(log entry 96). -/
def srdCheck (x : Args) : List (BitVec 8) :=
  match x.a with
  | .reg n =>
    let k := n.toNat
    (if laneSpecial k ∧ x.d.isReg then [Sub.cls] else [])
    ++ (if wideSpecial k ∧ x.d.oddVec then [Sub.odd] else [])
    ++ (if tileSpecial k then (if x.b.isReg then [] else [Sub.cls])
        else if x.b = .zero then [] else [Sub.mbz])
  | _ => []

/-- The operands of swr (R68). -/
def swrCheck (x : Args) : List (BitVec 8) :=
  match x.d, x.b with
  | .reg n, .joined _ => if tileSpecial n.toNat then [Sub.cls] else []
  | .reg n, .reg _ => if tileSpecial n.toNat then [] else [Sub.mbz]
  | .reg n, _ => if tileSpecial n.toNat then [Sub.cls] else []
  | _, _ => []

/-- A gate name given as an immediate (R289). -/
def gateCheck (x : Args) : List (BitVec 8) :=
  match x.a with
  | .imm v => if v.extractLsb' 12 4 = 0 then [] else [Sub.field]
  | _ => []

/-- The B field of bar.arrive (R230): zero; 1 and 2 select other rows. -/
def arriveCheck (x : Args) : List (BitVec 8) :=
  match x.b with
  | .imm _ => [Sub.field]
  | _ => []

/-- A range an immediate operand must lie in. -/
def immRange (lo hi : Nat) (o : Opnd) : List (BitVec 8) :=
  match o with
  | .imm v => if lo ≤ v.toNat ∧ v.toNat ≤ hi then [] else [Sub.field]
  | _ => []

/-- region ends its run (R303). -/
def regionCheck (x : Args) : List (BitVec 8) := if x.h.bnd then [] else [Sub.field]

/-! ### Type sets (R85) -/

/-- I of R85. -/
def tysI : List Ty := [.i8, .i16, .i32, .i64, .n8, .n16, .n32, .n64]
/-- S of R85. -/
def tysS : List Ty := [.i8, .i16, .i32, .i64]
/-- X of R85. -/
def tysX : List Ty := tysI ++ [.b32, .b64]
/-- F of R85. -/
def tysF : List Ty := [.i32, .i64, .n32, .n64]
/-- G of R85. -/
def tysG : List Ty := [.i32, .i64, .n32, .n64, .b32, .b64]
/-- M of R85. -/
def tysM : List Ty := tysX ++ [.f64, .f32, .f16, .bf16, .e4m3, .e5m2]
/-- M without .i8: the types of lea. -/
def tysLea : List Ty := [.i16, .i32, .i64, .n8, .n16, .n32, .n64, .b32, .b64, .f64, .f32, .f16, .bf16, .e4m3, .e5m2]
/-- 0x00 to 0x0D: comparisons and reductions (R92, R96). -/
def tysCmp : List Ty := tysX ++ [.f64, .f32, .f16, .bf16]
/-- The types of ordered comparisons (R92). -/
def tysOrd : List Ty := tysI ++ [.f64, .f32, .f16, .bf16]
/-- The float types of un and num (R92). -/
def tysFlt : List Ty := [.f64, .f32, .f16, .bf16]
/-- The types of perm and xput (R95, R103). -/
def tysPerm : List Ty := [.i32, .i64, .n32, .n64, .b32, .b64, .f64, .f32]
/-- The types of atom.add, atom.min, atom.max (R134). -/
def tysAtom : List Ty := [.i32, .i64, .n32, .n64, .f64, .f32]
/-- The four arithmetic formats of R87. -/
def fmtsA : List Fmt := [.f64, .f32, .f16, .bf16]

/-! ### Field forms -/

/-- An unused field. -/
def fZ : FieldSpec := { z := true }
/-- A scalar. -/
def fS : FieldSpec := { r := true }
/-- A scalar or nothing. -/
def fSZ : FieldSpec := { r := true, z := true }
/-- A scalar or an immediate. -/
def fSI : FieldSpec := { r := true, i := true }
/-- An immediate or control field. -/
def fI : FieldSpec := { i := true }
/-- A predicate. -/
def fP : FieldSpec := { r := true, role := .pred }
/-- A predicate or nothing. -/
def fPZ : FieldSpec := { r := true, role := .pred, z := true }
/-- A tile. -/
def fT : FieldSpec := { r := true, role := .tile }
/-- A shape record. -/
def fSh : FieldSpec := { r := true, role := .shape }
/-- A vector or scalar of the modifier's type. -/
def fVS : FieldSpec := { v := true, r := true, pair := .byTy }
/-- A vector, scalar or immediate of the modifier's type. -/
def fVSI : FieldSpec := { v := true, r := true, i := true, pair := .byTy }
/-- A vector of the modifier's type. -/
def fV : FieldSpec := { v := true, pair := .byTy }
/-- A single vector register. -/
def fV1 : FieldSpec := { v := true }
/-- A pair of vector registers. -/
def fV2 : FieldSpec := { v := true, pair := .always }
/-- A pair or a scalar. -/
def fV2S : FieldSpec := { v := true, r := true, pair := .always }
/-- A pair, a scalar or an immediate. -/
def fV2SI : FieldSpec := { v := true, r := true, i := true, pair := .always }
/-- A single vector register, a scalar or an immediate. -/
def fV1SI : FieldSpec := { v := true, r := true, i := true }
/-- A vector register (pairs as the entry's own check says) or a scalar. -/
def fV1S : FieldSpec := { v := true, r := true }

/-! ### The entries -/

/-- ADD (R85). -/
def Enc.add : Entry :=
  { op := 0x000, mods := .tys tysI, d := fVS, a := fVSI, b := fVSI, r38 := true }
/-- SUB (R85). -/
def Enc.sub : Entry :=
  { op := 0x001, mods := .tys tysI, d := fVS, a := fVSI, b := fVSI, r38 := true }
/-- ADDS (R85). -/
def Enc.adds : Entry :=
  { op := 0x002, mods := .tys tysI, d := fVS, a := fVSI, b := fVSI, r38 := true }
/-- SUBS (R85). -/
def Enc.subs : Entry :=
  { op := 0x003, mods := .tys tysI, d := fVS, a := fVSI, b := fVSI, r38 := true }
/-- MUL (R85). -/
def Enc.mul : Entry :=
  { op := 0x004, mods := .tys tysI, d := fVS, a := fVSI, b := fVSI, r38 := true }
/-- MULHI (R85). -/
def Enc.mulhi : Entry :=
  { op := 0x005, mods := .tys tysI, d := fVS, a := fVSI, b := fVSI, r38 := true }
/-- MAD (R85). -/
def Enc.mad : Entry :=
  { op := 0x006, mods := .tys tysI, d := fVS, a := fVSI, b := fVSI, r38 := true, rd := true }
/-- NEG (R85). -/
def Enc.neg : Entry :=
  { op := 0x007, mods := .tys tysS, d := fVS, a := fVSI, b := fZ, r38 := true }
/-- ABS (R85). -/
def Enc.abs : Entry :=
  { op := 0x008, mods := .tys tysS, d := fVS, a := fVSI, b := fZ, r38 := true }
/-- MIN (R85). -/
def Enc.min : Entry :=
  { op := 0x009, mods := .tys tysI, d := fVS, a := fVSI, b := fVSI, r38 := true }
/-- MAX (R85). -/
def Enc.max : Entry :=
  { op := 0x00A, mods := .tys tysI, d := fVS, a := fVSI, b := fVSI, r38 := true }
/-- DIV (R85). -/
def Enc.div : Entry :=
  { op := 0x00B, mods := .tys tysI, d := fVS, a := fVSI, b := fVSI, r38 := true }
/-- REM (R85). -/
def Enc.rem : Entry :=
  { op := 0x00C, mods := .tys tysI, d := fVS, a := fVSI, b := fVSI, r38 := true }
/-- AND (R85). -/
def Enc.and : Entry :=
  { op := 0x00D, mods := .tys tysX, d := fVS, a := fVSI, b := fVSI, r38 := true }
/-- OR (R85). -/
def Enc.or : Entry :=
  { op := 0x00E, mods := .tys tysX, d := fVS, a := fVSI, b := fVSI, r38 := true }
/-- XOR (R85). -/
def Enc.xor : Entry :=
  { op := 0x00F, mods := .tys tysX, d := fVS, a := fVSI, b := fVSI, r38 := true }
/-- NOT (R85). -/
def Enc.not : Entry :=
  { op := 0x010, mods := .tys tysX, d := fVS, a := fVSI, b := fZ, r38 := true }
/-- SHL (R85). -/
def Enc.shl : Entry :=
  { op := 0x011, mods := .tys tysX, d := fVS, a := fVSI, b := fVSI, r38 := true }
/-- SHR (R85). -/
def Enc.shr : Entry :=
  { op := 0x012, mods := .tys tysX, d := fVS, a := fVSI, b := fVSI, r38 := true }
/-- ROL (R85). -/
def Enc.rol : Entry :=
  { op := 0x013, mods := .tys tysX, d := fVS, a := fVSI, b := fVSI, r38 := true }
/-- BFX (R85). -/
def Enc.bfx : Entry :=
  { op := 0x014, mods := .tys tysF, d := fVS, a := fVSI, b := fVSI, r38 := true }
/-- BFI (R85). -/
def Enc.bfi : Entry :=
  { op := 0x015, mods := .tys tysG, d := fVS, a := fVSI, b := fVSI, r38 := true, rd := true }
/-- POPC (R85). -/
def Enc.popc : Entry :=
  { op := 0x016, mods := .tys tysX, d := fVS, a := fVSI, b := fZ, r38 := true }
/-- CLZ (R85). -/
def Enc.clz : Entry :=
  { op := 0x017, mods := .tys tysX, d := fVS, a := fVSI, b := fZ, r38 := true }
/-- BREV (R85). -/
def Enc.brev : Entry :=
  { op := 0x018, mods := .tys tysX, d := fVS, a := fVSI, b := fZ, r38 := true }
/-- SEL (R86). -/
def Enc.sel : Entry :=
  { op := 0x019, mods := .tys tysM, d := fV, a := fVSI, b := fVSI, reach := .sel, extra := immChecks }
/-- MOV (R86). -/
def Enc.mov : Entry :=
  { op := 0x01A, mods := .tys tysM, d := fVS, a := { v := true, r := true, i := true, j := true, pair := .byTy }, b := { z := true, j := true }, r38 := true, extra := immChecks }
/-- LEA (R85). -/
def Enc.lea : Entry :=
  { op := 0x01B, mods := .tys tysLea, d := fV2S, a := fV2SI, b := fV1SI, r38 := true }
/-- FADD (R87). -/
def Enc.fadd : Entry :=
  { op := 0x040, mods := .flt fmtsA true, d := fVS, a := fVSI, b := fVSI, r38 := true }
/-- FSUB (R87). -/
def Enc.fsub : Entry :=
  { op := 0x041, mods := .flt fmtsA true, d := fVS, a := fVSI, b := fVSI, r38 := true }
/-- FMUL (R87). -/
def Enc.fmul : Entry :=
  { op := 0x042, mods := .flt fmtsA true, d := fVS, a := fVSI, b := fVSI, r38 := true }
/-- FFMA (R87). -/
def Enc.ffma : Entry :=
  { op := 0x043, mods := .flt fmtsA true, d := fVS, a := fVSI, b := fVSI, r38 := true, rd := true }
/-- FMIN (R89). -/
def Enc.fmin : Entry :=
  { op := 0x044, mods := .flt fmtsA false, d := fVS, a := fVSI, b := fVSI, r38 := true }
/-- FMAX (R89). -/
def Enc.fmax : Entry :=
  { op := 0x045, mods := .flt fmtsA false, d := fVS, a := fVSI, b := fVSI, r38 := true }
/-- FNEG (R89). -/
def Enc.fneg : Entry :=
  { op := 0x046, mods := .flt fmtsA false, d := fVS, a := fVSI, b := fZ, r38 := true }
/-- FABS (R89). -/
def Enc.fabs : Entry :=
  { op := 0x047, mods := .flt fmtsA false, d := fVS, a := fVSI, b := fZ, r38 := true }
/-- FDIV (R87). -/
def Enc.fdiv : Entry :=
  { op := 0x048, mods := .flt fmtsA true, d := fVS, a := fVSI, b := fVSI, r38 := true }
/-- FSQRT (R87). -/
def Enc.fsqrt : Entry :=
  { op := 0x049, mods := .flt fmtsA true, d := fVS, a := fVSI, b := fZ, r38 := true }
/-- FRCP (R87). -/
def Enc.frcp : Entry :=
  { op := 0x04A, mods := .flt fmtsA true, d := fVS, a := fVSI, b := fZ, r38 := true }
/-- FRSQ (R87). -/
def Enc.frsq : Entry :=
  { op := 0x04B, mods := .flt fmtsA true, d := fVS, a := fVSI, b := fZ, r38 := true }
/-- CVT (R90). -/
def Enc.cvt : Entry :=
  { op := 0x04C, mods := .flt [.f64, .f32, .f16, .bf16, .e4m3, .e5m2] true, d := fV1S, a := fV1SI, b := fI, r38 := true, regs := fun _ x => cvtRegs x, extra := cvtCheck }
/-- CVTI (R91). -/
def Enc.cvti : Entry :=
  { op := 0x04D, mods := .flt fmtsA true, d := fV1S, a := fV1SI, b := fI, r38 := true, regs := fun _ x => cvtIntRegs true x, extra := cvtIntCheck true }
/-- CVTF (R91). -/
def Enc.cvtf : Entry :=
  { op := 0x04E, mods := .flt fmtsA true, d := fV1S, a := fV1SI, b := fI, r38 := true, regs := fun _ x => cvtIntRegs false x, extra := cvtIntCheck false }
/-- SETP_EQ (R92). -/
def Enc.setpEq : Entry :=
  { op := 0x080, mods := .tys tysCmp, d := fP, a := fVSI, b := fVSI }
/-- SETP_NE (R92). -/
def Enc.setpNe : Entry :=
  { op := 0x081, mods := .tys tysCmp, d := fP, a := fVSI, b := fVSI }
/-- SETP_LT (R92). -/
def Enc.setpLt : Entry :=
  { op := 0x082, mods := .tys tysOrd, d := fP, a := fVSI, b := fVSI }
/-- SETP_LE (R92). -/
def Enc.setpLe : Entry :=
  { op := 0x083, mods := .tys tysOrd, d := fP, a := fVSI, b := fVSI }
/-- SETP_GT (R92). -/
def Enc.setpGt : Entry :=
  { op := 0x084, mods := .tys tysOrd, d := fP, a := fVSI, b := fVSI }
/-- SETP_GE (R92). -/
def Enc.setpGe : Entry :=
  { op := 0x085, mods := .tys tysOrd, d := fP, a := fVSI, b := fVSI }
/-- SETP_UN (R92). -/
def Enc.setpUn : Entry :=
  { op := 0x086, mods := .tys tysFlt, d := fP, a := fVSI, b := fVSI }
/-- SETP_NUM (R92). -/
def Enc.setpNum : Entry :=
  { op := 0x087, mods := .tys tysFlt, d := fP, a := fVSI, b := fVSI }
/-- PAND (R93). -/
def Enc.pand : Entry :=
  { op := 0x088, d := fP, a := fP, b := fP }
/-- POR (R93). -/
def Enc.por : Entry :=
  { op := 0x089, d := fP, a := fP, b := fP }
/-- PXOR (R93). -/
def Enc.pxor : Entry :=
  { op := 0x08A, d := fP, a := fP, b := fP }
/-- PNOT (R93). -/
def Enc.pnot : Entry :=
  { op := 0x08B, d := fP, a := fP, b := fZ }
/-- VOTE_ANY (R94). -/
def Enc.voteAny : Entry :=
  { op := 0x08C, mods := .fixed 0, d := fP, a := fP, b := fZ }
/-- VOTE_ALL (R94). -/
def Enc.voteAll : Entry :=
  { op := 0x08C, mods := .fixed 1, d := fP, a := fP, b := fZ }
/-- VOTE_UNIFORM (R94). -/
def Enc.voteUniform : Entry :=
  { op := 0x08C, mods := .fixed 2, d := fP, a := fP, b := fZ }
/-- BALLOT (R94). -/
def Enc.ballot : Entry :=
  { op := 0x08D, d := fS, a := fP, b := fZ }
/-- PMOV (R93). -/
def Enc.pmov : Entry :=
  { op := 0x08E, d := fP, a := { r := true, i := true, role := .any }, b := { z := true, i := true }, extra := pmovCheck }
/-- PERM (R95). -/
def Enc.perm : Entry :=
  { op := 0x090, mods := .tys tysPerm, d := fV, a := fV, b := fV1SI, reach := .perm }
/-- LRED (R97). -/
def Enc.lred : Entry :=
  { op := 0x091, mods := .tys tysCmp, d := fV, a := fV, b := fI, reach := .red, extra := redCheck false }
/-- LSCAN (R97). -/
def Enc.lscan : Entry :=
  { op := 0x092, mods := .tys tysCmp, d := fV, a := fV, b := fI, reach := .scan, extra := redCheck false }
/-- KCLR (R98). -/
def Enc.kclr : Entry :=
  { op := 0x098, d := fZ, a := fZ, b := fZ }
/-- KADD (R98). -/
def Enc.kadd : Entry :=
  { op := 0x099, mods := .tys [.f64, .f32, .f16], d := fZ, a := fVSI, b := fZ }
/-- KMAC (R98). -/
def Enc.kmac : Entry :=
  { op := 0x09A, mods := .tys [.f32, .bf16], d := fZ, a := fVSI, b := fVSI }
/-- KSCAN (R99). -/
def Enc.kscan : Entry :=
  { op := 0x09B, d := fV2, a := fV2, b := fZ }
/-- KRD (R98). -/
def Enc.krd : Entry :=
  { op := 0x09C, mods := .flt [.f64, .f32] true, d := fVS, a := fZ, b := fZ }
/-- XRED (R101). -/
def Enc.xred : Entry :=
  { op := 0x09D, mods := .tys tysCmp, isL := true, d := fZ, a := fV, b := fI, reach := .red, extra := redCheck true }
/-- XGET (R102). -/
def Enc.xget : Entry :=
  { op := 0x09E, isB := true, d := fS, a := fSI, b := { z := true, r := true, role := .evenPred } }
/-- XPUT (R103). -/
def Enc.xput : Entry :=
  { op := 0x09F, mods := .tys tysPerm, d := fV, a := fZ, b := fZ }
/-- BR (R75). -/
def Enc.br : Entry :=
  { op := 0x0C0, isB := true, d := fZ, a := { i := true, j := true }, b := { z := true, j := true } }
/-- BRX (R75). -/
def Enc.brx : Entry :=
  { op := 0x0C1, isB := true, d := fZ, a := fS, b := fZ }
/-- CALL (R75). -/
def Enc.call : Entry :=
  { op := 0x0C2, mods := .num 0 16, isB := true, d := fZ, a := { i := true, j := true, r := true }, b := { z := true, j := true } }
/-- CALLV (R75). -/
def Enc.callv : Entry :=
  { op := 0x0C3, mods := .num 0 16, isB := true, d := fZ, a := fV1, b := fZ }
/-- RET (R108). -/
def Enc.ret : Entry :=
  { op := 0x0C4, isB := true, d := fZ, a := fZ, b := fZ }
/-- IF (R73). -/
def Enc.ifRegion : Entry :=
  { op := 0x0C5, d := fZ, a := fZ, b := fZ }
/-- ELSE (R73). -/
def Enc.elseRegion : Entry :=
  { op := 0x0C6, guard := .always, d := fZ, a := fZ, b := fZ }
/-- ENDIF (R73). -/
def Enc.endifRegion : Entry :=
  { op := 0x0C7, guard := .always, d := fZ, a := fZ, b := fZ }
/-- LOOP (R73). -/
def Enc.loopRegion : Entry :=
  { op := 0x0C8, guard := .always, d := fZ, a := fZ, b := fZ }
/-- BREAK (R73). -/
def Enc.breakRegion : Entry :=
  { op := 0x0C9, mods := .num 1 31, d := fZ, a := fZ, b := fZ }
/-- CONT (R73). -/
def Enc.contRegion : Entry :=
  { op := 0x0CA, d := fZ, a := fI, b := fZ, extra := fun x => immRange 1 31 x.a }
/-- ENDLOOP (R73). -/
def Enc.endloopRegion : Entry :=
  { op := 0x0CB, isB := true, guard := .always, d := fZ, a := fI, b := fZ }
/-- PRIO (R75). -/
def Enc.prio : Entry :=
  { op := 0x0CC, mods := .num 0 7, d := fZ, a := fZ, b := fZ }
/-- YIELD (R77). -/
def Enc.yield : Entry :=
  { op := 0x0CD, isB := true, d := fZ, a := fZ, b := fZ }
/-- EXIT (R75). -/
def Enc.exit : Entry :=
  { op := 0x0CE, isB := true, d := fZ, a := fZ, b := fZ }
/-- NOP (R75). -/
def Enc.nop : Entry :=
  { op := 0x0CF, d := fZ, a := fZ, b := fZ }
/-- MARK (R117). -/
def Enc.mark : Entry :=
  { op := 0x0E0, d := fZ, a := fI, b := fZ }
/-- CUT (R118). -/
def Enc.cut : Entry :=
  { op := 0x0E1, isB := true, d := fS, a := fI, b := fZ }
/-- GRAFT (R119). -/
def Enc.graft : Entry :=
  { op := 0x0E2, isB := true, d := fZ, a := fV2S, b := fZ }
/-- SLICE_DROP (R120). -/
def Enc.sliceDrop : Entry :=
  { op := 0x0E3, isL := true, d := fZ, a := fS, b := fZ }
/-- SLICE_ATT (R121). -/
def Enc.sliceAtt : Entry :=
  { op := 0x0E4, isL := true, d := fS, a := fS, b := fS, rd := true }
/-- WFLUSH (R110). -/
def Enc.wflush : Entry :=
  { op := 0x0E5, isL := true, d := fZ, a := fSI, b := fZ }
/-- LD (R133). -/
def Enc.ld : Entry :=
  { op := 0x100, mods := .tys tysM, isL := true, paged := true, d := fVS, a := fV1S, b := fI, r38 := true, regs := memRegs .ld, extra := memCheck .ld }
/-- ST (R133). -/
def Enc.st : Entry :=
  { op := 0x101, mods := .tys tysM, isL := true, paged := true, d := fVS, a := fV1S, b := fI, r38 := true, rd := true, regs := memRegs .st, extra := memCheck .st }
/-- ATOM_ADD (R134). -/
def Enc.atomAdd : Entry :=
  { op := 0x102, mods := .tys tysAtom, isL := true, paged := true, d := fVS, a := fV1S, b := fI, r38 := true, rd := true, regs := memRegs .atom, extra := memCheck .atom }
/-- ATOM_MIN (R134). -/
def Enc.atomMin : Entry :=
  { op := 0x103, mods := .tys tysAtom, isL := true, paged := true, d := fVS, a := fV1S, b := fI, r38 := true, rd := true, regs := memRegs .atom, extra := memCheck .atom }
/-- ATOM_MAX (R134). -/
def Enc.atomMax : Entry :=
  { op := 0x104, mods := .tys tysAtom, isL := true, paged := true, d := fVS, a := fV1S, b := fI, r38 := true, rd := true, regs := memRegs .atom, extra := memCheck .atom }
/-- ATOM_AND (R134). -/
def Enc.atomAnd : Entry :=
  { op := 0x105, mods := .tys tysG, isL := true, paged := true, d := fVS, a := fV1S, b := fI, r38 := true, rd := true, regs := memRegs .atom, extra := memCheck .atom }
/-- ATOM_OR (R134). -/
def Enc.atomOr : Entry :=
  { op := 0x106, mods := .tys tysG, isL := true, paged := true, d := fVS, a := fV1S, b := fI, r38 := true, rd := true, regs := memRegs .atom, extra := memCheck .atom }
/-- ATOM_XOR (R134). -/
def Enc.atomXor : Entry :=
  { op := 0x107, mods := .tys tysG, isL := true, paged := true, d := fVS, a := fV1S, b := fI, r38 := true, rd := true, regs := memRegs .atom, extra := memCheck .atom }
/-- ATOM_XCHG (R134). -/
def Enc.atomXchg : Entry :=
  { op := 0x108, mods := .tys tysPerm, isL := true, paged := true, d := fVS, a := fV1S, b := fI, r38 := true, rd := true, regs := memRegs .atom, extra := memCheck .atom }
/-- ATOM_CAS (R134). -/
def Enc.atomCas : Entry :=
  { op := 0x109, mods := .tys tysPerm, isL := true, paged := true, d := fVS, a := fV1S, b := fI, r38 := true, rd := true, regs := memRegs .cas, extra := memCheck .cas }
/-- AMAXP (R135). -/
def Enc.amaxp : Entry :=
  { op := 0x10A, mods := .tys [.n64], isL := true, paged := true, d := fV2S, a := fV1S, b := fI, r38 := true, rd := true, regs := memRegs .atom, extra := memCheck .atom }
/-- PARK (R137). -/
def Enc.park : Entry :=
  { op := 0x10B, isB := true, paged := true, d := fS, a := fS, b := fI, rd := true, regs := memRegs .park, extra := memCheck .park }
/-- FENCE_ACQ (R159). -/
def Enc.fenceAcq : Entry :=
  { op := 0x10C, mods := .scope 0, d := fZ, a := fZ, b := fZ }
/-- FENCE_REL (R159). -/
def Enc.fenceRel : Entry :=
  { op := 0x10C, mods := .scope 1, d := fZ, a := fZ, b := fZ }
/-- FENCE_AR (R159). -/
def Enc.fenceAr : Entry :=
  { op := 0x10C, mods := .scope 2, d := fZ, a := fZ, b := fZ }
/-- FENCE_SC (R159). -/
def Enc.fenceSc : Entry :=
  { op := 0x10C, mods := .scope 3, d := fZ, a := fZ, b := fZ }
/-- TFENCE (R145). -/
def Enc.tfence : Entry :=
  { op := 0x10D, mods := .scope 0, d := fZ, a := fZ, b := fZ }
/-- TMV (R139). -/
def Enc.tmv : Entry :=
  { op := 0x140, isL := true, d := fS, a := fS, b := fSI, rd := true }
/-- CP (R215). -/
def Enc.cp : Entry :=
  { op := 0x141, mods := .fixed 0, isL := true, paged := true, d := fS, a := fS, b := fSI, rd := true }
/-- CP_D (R215). -/
def Enc.cpD : Entry :=
  { op := 0x141, mods := .fixed 1, isL := true, paged := true, d := fZ, a := fS, b := fZ }
/-- FBIND (R212). -/
def Enc.fbind : Entry :=
  { op := 0x142, isL := true, paged := true, d := fZ, a := fS, b := fI, extra := fun x => slotCheck 3 x.b }
/-- FETCH (R212). -/
def Enc.fetch : Entry :=
  { op := 0x143, isL := true, paged := true, d := fV1, a := fV1, b := fI, extra := fun x => slotCheck 3 x.b }
/-- OVL_LD (R216). -/
def Enc.ovlLd : Entry :=
  { op := 0x144, isL := true, paged := true, d := fS, a := fS, b := fSI, rd := true }
/-- WBLD (R196). -/
def Enc.wbld : Entry :=
  { op := 0x145, isL := true, d := fS, a := fS, b := fSI, rd := true }
/-- FUNBIND (R212). -/
def Enc.funbind : Entry :=
  { op := 0x146, d := fZ, a := fI, b := fZ, extra := fun x => slotCheck 3 x.a }
/-- TZERO (R139). -/
def Enc.tzero : Entry :=
  { op := 0x147, isL := true, d := fS, a := fZ, b := fSI, rd := true }
/-- MMA_E4M3 (R199). -/
def Enc.mmaE4m3 : Entry :=
  { op := 0x150, mods := .num 0 7, isL := true, d := fT, a := fSh, b := fS }
/-- MMA_E5M2 (R199). -/
def Enc.mmaE5m2 : Entry :=
  { op := 0x151, mods := .num 0 7, isL := true, d := fT, a := fSh, b := fS }
/-- MMA_I8 (R199). -/
def Enc.mmaI8 : Entry :=
  { op := 0x152, mods := .num 0 7, isL := true, d := fT, a := fSh, b := fS }
/-- MMA_BF16 (R199). -/
def Enc.mmaBf16 : Entry :=
  { op := 0x153, mods := .num 0 7, isL := true, d := fT, a := fSh, b := fS }
/-- MMA_F16 (R199). -/
def Enc.mmaF16 : Entry :=
  { op := 0x154, mods := .num 0 7, isL := true, d := fT, a := fSh, b := fS }
/-- MMA_F32 (R199). -/
def Enc.mmaF32 : Entry :=
  { op := 0x155, mods := .num 0 7, isL := true, d := fT, a := fSh, b := fS }
/-- MMA_F64 (R199). -/
def Enc.mmaF64 : Entry :=
  { op := 0x156, mods := .num 0 7, isL := true, d := fT, a := fSh, b := fS }
/-- MMQ_Q4G (R201). -/
def Enc.mmqQ4g : Entry :=
  { op := 0x158, mods := .num 0 7, isL := true, d := fT, a := fSh, b := fS }
/-- MMQ_Q8G (R201). -/
def Enc.mmqQ8g : Entry :=
  { op := 0x159, mods := .num 0 7, isL := true, d := fT, a := fSh, b := fS }
/-- MMSP_E4M3 (R202). -/
def Enc.mmspE4m3 : Entry :=
  { op := 0x15A, mods := .num 0 7, isL := true, d := fT, a := fSh, b := fS }
/-- MMSP_E5M2 (R202). -/
def Enc.mmspE5m2 : Entry :=
  { op := 0x15B, mods := .num 0 7, isL := true, d := fT, a := fSh, b := fS }
/-- MMSP_I8 (R202). -/
def Enc.mmspI8 : Entry :=
  { op := 0x15C, mods := .num 0 7, isL := true, d := fT, a := fSh, b := fS }
/-- MMSP_BF16 (R202). -/
def Enc.mmspBf16 : Entry :=
  { op := 0x15D, mods := .num 0 7, isL := true, d := fT, a := fSh, b := fS }
/-- MMSP_F16 (R202). -/
def Enc.mmspF16 : Entry :=
  { op := 0x15E, mods := .num 0 7, isL := true, d := fT, a := fSh, b := fS }
/-- MZERO (R204). -/
def Enc.mzero : Entry :=
  { op := 0x160, isL := true, d := fT, a := fZ, b := fZ }
/-- MLD (R204). -/
def Enc.mld : Entry :=
  { op := 0x161, mods := .tys [.f32, .f16, .bf16, .i32, .i8, .f64], isL := true, d := fT, a := fS, b := fSI }
/-- MSTR (R204). -/
def Enc.mstr : Entry :=
  { op := 0x162, mods := .tys [.f32, .f16, .bf16, .i32, .i8, .f64], isL := true, d := fT, a := fS, b := fSI }
/-- MSHAPE (R192). -/
def Enc.mshape : Entry :=
  { op := 0x163, d := fSh, a := fS, b := fS }
/-- SPDG (R207). -/
def Enc.spdg : Entry :=
  { op := 0x164, isL := true, d := fS, a := fSh, b := fSh, rd := true }
/-- SPSAL (R207). -/
def Enc.spsal : Entry :=
  { op := 0x165, isL := true, d := fS, a := fSh, b := fSh, rd := true }
/-- MTALLOC (R205). -/
def Enc.mtalloc : Entry :=
  { op := 0x166, d := fP, a := fT, b := fZ }
/-- MTFREE (R205). -/
def Enc.mtfree : Entry :=
  { op := 0x167, d := fZ, a := fT, b := fZ }
/-- EA_NEW (R180). -/
def Enc.eaNew : Entry :=
  { op := 0x180, isL := true, d := fS, a := fS, b := fZ }
/-- EA_FREE (R180). -/
def Enc.eaFree : Entry :=
  { op := 0x181, isL := true, d := fZ, a := fS, b := fZ }
/-- EA_INS (R180). -/
def Enc.eaIns : Entry :=
  { op := 0x182, isL := true, d := fS, a := fSI, b := fSI, rd := true }
/-- EA_DEL (R180). -/
def Enc.eaDel : Entry :=
  { op := 0x183, isL := true, d := fS, a := fSI, b := fSI, rd := true }
/-- EA_SPLIT (R180). -/
def Enc.eaSplit : Entry :=
  { op := 0x184, isL := true, d := fS, a := fS, b := fSI }
/-- EA_CAT (R180). -/
def Enc.eaCat : Entry :=
  { op := 0x185, isL := true, d := fS, a := fS, b := fZ, rd := true }
/-- EA_MORT (R180). -/
def Enc.eaMort : Entry :=
  { op := 0x186, isL := true, d := fS, a := fS, b := fSI, rd := true }
/-- EA_FILL (R180). -/
def Enc.eaFill : Entry :=
  { op := 0x187, isL := true, d := fV2S, a := fV2S, b := fV1SI, rd := true }
/-- EA_SEAL (R180). -/
def Enc.eaSeal : Entry :=
  { op := 0x188, isL := true, d := fZ, a := fS, b := fSI }
/-- EA_RANK (R180). -/
def Enc.eaRank : Entry :=
  { op := 0x189, isL := true, d := fV2S, a := fS, b := fV2S, r38 := true }
/-- EA_PEG (R180). -/
def Enc.eaPeg : Entry :=
  { op := 0x18A, isL := true, d := fV2S, a := fS, b := fV2SI, r38 := true }
/-- EA_LEN (R180). -/
def Enc.eaLen : Entry :=
  { op := 0x18B, isL := true, d := fS, a := fS, b := fZ }
/-- XQ_CFG (R260). -/
def Enc.xqCfg : Entry :=
  { op := 0x190, isL := true, paged := true, d := fZ, a := fS, b := fSI }
/-- XQ_PUSH (R261). -/
def Enc.xqPush : Entry :=
  { op := 0x191, isL := true, paged := true, guard := .plainPred, d := fV2S, a := fV2S, b := fV1SI, rd := true }
/-- XQ_POP (R262). -/
def Enc.xqPop : Entry :=
  { op := 0x192, isL := true, paged := true, d := fS, a := fS, b := fSZ, rd := true }
/-- XQ_COMB (R262). -/
def Enc.xqComb : Entry :=
  { op := 0x193, isL := true, paged := true, d := fS, a := fS, b := fZ, rd := true }
/-- XQ_DONE (R262). -/
def Enc.xqDone : Entry :=
  { op := 0x194, isL := true, d := fZ, a := fS, b := fZ }
/-- XQ_STAT (R262). -/
def Enc.xqStat : Entry :=
  { op := 0x195, isL := true, d := fS, a := fSI, b := fI, extra := fun x => slotCheck 3 x.b }
/-- CREW_JOIN (R222). -/
def Enc.crewJoin : Entry :=
  { op := 0x198, isL := true, d := fZ, a := fV1SI, b := fZ }
/-- CREW_LEAVE (R222). -/
def Enc.crewLeave : Entry :=
  { op := 0x199, isL := true, d := fZ, a := fZ, b := fZ }
/-- CREW_INFO (R222). -/
def Enc.crewInfo : Entry :=
  { op := 0x19A, d := fS, a := fSI, b := fI, extra := fun x => slotCheck 3 x.b }
/-- BAR_BIND (R230). -/
def Enc.barBind : Entry :=
  { op := 0x19B, isL := true, d := fP, a := fSI, b := fSI }
/-- BAR_ARRIVE (R230). -/
def Enc.barArrive : Entry :=
  { op := 0x19C, isL := true, d := fZ, a := fSI, b := { z := true, i := true }, extra := arriveCheck }
/-- BAR_ARRIVE_ENROL (R230). -/
def Enc.barArriveEnrol : Entry :=
  { op := 0x19C, isL := true, d := fZ, a := fSI, b := fI, bsel := some 0x20001, extra := fun x => immRange 1 1 x.b }
/-- BAR_ARRIVE_DROP (R230). -/
def Enc.barArriveDrop : Entry :=
  { op := 0x19C, isL := true, d := fZ, a := fSI, b := fI, bsel := some 0x20002, extra := fun x => immRange 2 2 x.b }
/-- BAR_WAIT (R230). -/
def Enc.barWait : Entry :=
  { op := 0x19D, isB := true, d := fPZ, a := fSI, b := fZ }
/-- BAR_FREE (R230). -/
def Enc.barFree : Entry :=
  { op := 0x19E, isL := true, d := fZ, a := fSI, b := fZ }
/-- SIG_DEC (R252). -/
def Enc.sigDec : Entry :=
  { op := 0x1A0, isL := true, paged := true, d := fSZ, a := fS, b := fSI }
/-- SIG_WAIT (R252). -/
def Enc.sigWait : Entry :=
  { op := 0x1A1, mods := .num 0 5, isB := true, paged := true, d := fSZ, a := fS, b := fSI }
/-- SIG_SET (R252). -/
def Enc.sigSet : Entry :=
  { op := 0x1A2, isL := true, paged := true, d := fSZ, a := fS, b := fSI }
/-- GATE_SIG (R290). -/
def Enc.gateSig : Entry :=
  { op := 0x1A3, isL := true, d := fZ, a := fSI, b := fSI, extra := gateCheck }
/-- GATE_WAIT (R290). -/
def Enc.gateWait : Entry :=
  { op := 0x1A4, isB := true, d := fSZ, a := fSI, b := fSI, extra := gateCheck }
/-- GATE_RD (R290). -/
def Enc.gateRd : Entry :=
  { op := 0x1A5, isL := true, d := fS, a := fSI, b := fZ, extra := gateCheck }
/-- SRD (R68). -/
def Enc.srd : Entry :=
  { op := 0x1C0, d := fV1S, a := { r := true, role := .special }, b := { z := true, r := true, role := .tile }, extra := srdCheck }
/-- SWR (R68). -/
def Enc.swr : Entry :=
  { op := 0x1C1, d := { r := true, role := .special }, a := { r := true, i := true, j := true }, b := { z := true, r := true, j := true, role := .tile }, extra := swrCheck }
/-- TRAP (R302). -/
def Enc.trap : Entry :=
  { op := 0x1C2, isB := true, d := fZ, a := fI, b := fZ, extra := fun x => immRange 0 254 x.a }
/-- TRAPRET (R300). -/
def Enc.trapret : Entry :=
  { op := 0x1C3, isB := true, d := fZ, a := fI, b := fZ, extra := fun x => immRange 0 2 x.a }
/-- REGION (R303). -/
def Enc.region : Entry :=
  { op := 0x1C4, d := fZ, a := fZ, b := fZ, extra := regionCheck }
/-- SIGCHK (R307). -/
def Enc.sigchk : Entry :=
  { op := 0x1C5, guard := .always, d := fZ, a := { j := true }, b := { j := true } }
/-- LAUNCH (R237). -/
def Enc.launch : Entry :=
  { op := 0x1C6, isL := true, paged := true, d := fS, a := fS, b := fZ, rd := true }
/-- PROF_OFF (R82). -/
def Enc.profOff : Entry :=
  { op := 0x1C7, mods := .fixed 0, d := fZ, a := fZ, b := fZ }
/-- PROF_ON (R82). -/
def Enc.profOn : Entry :=
  { op := 0x1C7, mods := .fixed 1, d := fZ, a := fSI, b := fZ }
/-- PROF_BUF (R82). -/
def Enc.profBuf : Entry :=
  { op := 0x1C7, mods := .fixed 2, d := fZ, a := fS, b := fI, extra := fun x => immRange 4 24 x.b }
/-- PROF_RDP (R82). -/
def Enc.profRdp : Entry :=
  { op := 0x1C7, mods := .fixed 3, d := fS, a := fZ, b := fZ }
/-- PROF_CONS (R82). -/
def Enc.profCons : Entry :=
  { op := 0x1C7, mods := .fixed 4, d := fZ, a := fS, b := fZ }
/-- PROF_DROP (R82). -/
def Enc.profDrop : Entry :=
  { op := 0x1C7, mods := .fixed 5, d := fS, a := fZ, b := fZ }
/-- DBG (R302). -/
def Enc.dbg : Entry :=
  { op := 0x1C8, isB := true, d := fZ, a := fZ, b := fZ }

/-! ### The opcode map (R48), one table per class -/

/-- Class 000. -/
def tableInt : List (Entry × (Args → Instr)) :=
  ([(Enc.add, Instr.add), (Enc.sub, Instr.sub), (Enc.adds, Instr.adds), (Enc.subs, Instr.subs), (Enc.mul, Instr.mul), (Enc.mulhi, Instr.mulhi), (Enc.mad, Instr.mad), (Enc.neg, Instr.neg), (Enc.abs, Instr.abs), (Enc.min, Instr.min), (Enc.max, Instr.max), (Enc.div, Instr.div), (Enc.rem, Instr.rem), (Enc.and, Instr.and), (Enc.or, Instr.or), (Enc.xor, Instr.xor)] ++
   [(Enc.not, Instr.not), (Enc.shl, Instr.shl), (Enc.shr, Instr.shr), (Enc.rol, Instr.rol), (Enc.bfx, Instr.bfx), (Enc.bfi, Instr.bfi), (Enc.popc, Instr.popc), (Enc.clz, Instr.clz), (Enc.brev, Instr.brev), (Enc.sel, Instr.sel), (Enc.mov, Instr.mov), (Enc.lea, Instr.lea)])
/-- Class 001. -/
def tableFlt : List (Entry × (Args → Instr)) :=
  ([(Enc.fadd, Instr.fadd), (Enc.fsub, Instr.fsub), (Enc.fmul, Instr.fmul), (Enc.ffma, Instr.ffma), (Enc.fmin, Instr.fmin), (Enc.fmax, Instr.fmax), (Enc.fneg, Instr.fneg), (Enc.fabs, Instr.fabs), (Enc.fdiv, Instr.fdiv), (Enc.fsqrt, Instr.fsqrt), (Enc.frcp, Instr.frcp), (Enc.frsq, Instr.frsq), (Enc.cvt, Instr.cvt), (Enc.cvti, Instr.cvti), (Enc.cvtf, Instr.cvtf)])
/-- Class 010. -/
def tablePred : List (Entry × (Args → Instr)) :=
  ([(Enc.setpEq, Instr.setpEq), (Enc.setpNe, Instr.setpNe), (Enc.setpLt, Instr.setpLt), (Enc.setpLe, Instr.setpLe), (Enc.setpGt, Instr.setpGt), (Enc.setpGe, Instr.setpGe), (Enc.setpUn, Instr.setpUn), (Enc.setpNum, Instr.setpNum), (Enc.pand, Instr.pand), (Enc.por, Instr.por), (Enc.pxor, Instr.pxor), (Enc.pnot, Instr.pnot), (Enc.voteAny, Instr.voteAny), (Enc.voteAll, Instr.voteAll), (Enc.voteUniform, Instr.voteUniform), (Enc.ballot, Instr.ballot)] ++
   [(Enc.pmov, Instr.pmov), (Enc.perm, Instr.perm), (Enc.lred, Instr.lred), (Enc.lscan, Instr.lscan), (Enc.kclr, Instr.kclr), (Enc.kadd, Instr.kadd), (Enc.kmac, Instr.kmac), (Enc.kscan, Instr.kscan), (Enc.krd, Instr.krd), (Enc.xred, Instr.xred), (Enc.xget, Instr.xget), (Enc.xput, Instr.xput)])
/-- Class 011. -/
def tableCtrl : List (Entry × (Args → Instr)) :=
  ([(Enc.br, Instr.br), (Enc.brx, Instr.brx), (Enc.call, Instr.call), (Enc.callv, Instr.callv), (Enc.ret, Instr.ret), (Enc.ifRegion, Instr.ifRegion), (Enc.elseRegion, Instr.elseRegion), (Enc.endifRegion, Instr.endifRegion), (Enc.loopRegion, Instr.loopRegion), (Enc.breakRegion, Instr.breakRegion), (Enc.contRegion, Instr.contRegion), (Enc.endloopRegion, Instr.endloopRegion), (Enc.prio, Instr.prio), (Enc.yield, Instr.yield), (Enc.exit, Instr.exit), (Enc.nop, Instr.nop)] ++
   [(Enc.mark, Instr.mark), (Enc.cut, Instr.cut), (Enc.graft, Instr.graft), (Enc.sliceDrop, Instr.sliceDrop), (Enc.sliceAtt, Instr.sliceAtt), (Enc.wflush, Instr.wflush)])
/-- Class 100. -/
def tableMem : List (Entry × (Args → Instr)) :=
  ([(Enc.ld, Instr.ld), (Enc.st, Instr.st), (Enc.atomAdd, Instr.atomAdd), (Enc.atomMin, Instr.atomMin), (Enc.atomMax, Instr.atomMax), (Enc.atomAnd, Instr.atomAnd), (Enc.atomOr, Instr.atomOr), (Enc.atomXor, Instr.atomXor), (Enc.atomXchg, Instr.atomXchg), (Enc.atomCas, Instr.atomCas), (Enc.amaxp, Instr.amaxp), (Enc.park, Instr.park), (Enc.fenceAcq, Instr.fenceAcq), (Enc.fenceRel, Instr.fenceRel), (Enc.fenceAr, Instr.fenceAr), (Enc.fenceSc, Instr.fenceSc)] ++
   [(Enc.tfence, Instr.tfence)])
/-- Class 101. -/
def tableEng : List (Entry × (Args → Instr)) :=
  ([(Enc.tmv, Instr.tmv), (Enc.cp, Instr.cp), (Enc.cpD, Instr.cpD), (Enc.fbind, Instr.fbind), (Enc.fetch, Instr.fetch), (Enc.ovlLd, Instr.ovlLd), (Enc.wbld, Instr.wbld), (Enc.funbind, Instr.funbind), (Enc.tzero, Instr.tzero), (Enc.mmaE4m3, Instr.mmaE4m3), (Enc.mmaE5m2, Instr.mmaE5m2), (Enc.mmaI8, Instr.mmaI8), (Enc.mmaBf16, Instr.mmaBf16), (Enc.mmaF16, Instr.mmaF16), (Enc.mmaF32, Instr.mmaF32), (Enc.mmaF64, Instr.mmaF64)] ++
   [(Enc.mmqQ4g, Instr.mmqQ4g), (Enc.mmqQ8g, Instr.mmqQ8g), (Enc.mmspE4m3, Instr.mmspE4m3), (Enc.mmspE5m2, Instr.mmspE5m2), (Enc.mmspI8, Instr.mmspI8), (Enc.mmspBf16, Instr.mmspBf16), (Enc.mmspF16, Instr.mmspF16), (Enc.mzero, Instr.mzero), (Enc.mld, Instr.mld), (Enc.mstr, Instr.mstr), (Enc.mshape, Instr.mshape), (Enc.spdg, Instr.spdg), (Enc.spsal, Instr.spsal), (Enc.mtalloc, Instr.mtalloc), (Enc.mtfree, Instr.mtfree)])
/-- Class 110. -/
def tableObj : List (Entry × (Args → Instr)) :=
  ([(Enc.barArriveEnrol, Instr.barArriveEnrol), (Enc.barArriveDrop, Instr.barArriveDrop), (Enc.eaNew, Instr.eaNew), (Enc.eaFree, Instr.eaFree), (Enc.eaIns, Instr.eaIns), (Enc.eaDel, Instr.eaDel), (Enc.eaSplit, Instr.eaSplit), (Enc.eaCat, Instr.eaCat), (Enc.eaMort, Instr.eaMort), (Enc.eaFill, Instr.eaFill), (Enc.eaSeal, Instr.eaSeal), (Enc.eaRank, Instr.eaRank), (Enc.eaPeg, Instr.eaPeg), (Enc.eaLen, Instr.eaLen), (Enc.xqCfg, Instr.xqCfg), (Enc.xqPush, Instr.xqPush)] ++
   [(Enc.xqPop, Instr.xqPop), (Enc.xqComb, Instr.xqComb), (Enc.xqDone, Instr.xqDone), (Enc.xqStat, Instr.xqStat), (Enc.crewJoin, Instr.crewJoin), (Enc.crewLeave, Instr.crewLeave), (Enc.crewInfo, Instr.crewInfo), (Enc.barBind, Instr.barBind), (Enc.barArrive, Instr.barArrive), (Enc.barWait, Instr.barWait), (Enc.barFree, Instr.barFree), (Enc.sigDec, Instr.sigDec), (Enc.sigWait, Instr.sigWait), (Enc.sigSet, Instr.sigSet), (Enc.gateSig, Instr.gateSig), (Enc.gateWait, Instr.gateWait)] ++
   [(Enc.gateRd, Instr.gateRd)])
/-- Class 111. -/
def tableSys : List (Entry × (Args → Instr)) :=
  ([(Enc.srd, Instr.srd), (Enc.swr, Instr.swr), (Enc.trap, Instr.trap), (Enc.trapret, Instr.trapret), (Enc.region, Instr.region), (Enc.sigchk, Instr.sigchk), (Enc.launch, Instr.launch), (Enc.profOff, Instr.profOff), (Enc.profOn, Instr.profOn), (Enc.profBuf, Instr.profBuf), (Enc.profRdp, Instr.profRdp), (Enc.profCons, Instr.profCons), (Enc.profDrop, Instr.profDrop), (Enc.dbg, Instr.dbg)])

/-- The rows of the class that an OP belongs to (R33, R48). -/
def classTable (op : BitVec 9) : List (Entry × (Args → Instr)) :=
  match (op.extractLsb' 6 3).toNat with
  | 0 => tableInt
  | 1 => tableFlt
  | 2 => tablePred
  | 3 => tableCtrl
  | 4 => tableMem
  | 5 => tableEng
  | 6 => tableObj
  | _ => tableSys

/-- The encoding and the decoded fields of an instruction; none for a machine event. -/
def Instr.parts : Instr → Option (Entry × Args)
  | .add x => some (Enc.add, x)
  | .sub x => some (Enc.sub, x)
  | .adds x => some (Enc.adds, x)
  | .subs x => some (Enc.subs, x)
  | .mul x => some (Enc.mul, x)
  | .mulhi x => some (Enc.mulhi, x)
  | .mad x => some (Enc.mad, x)
  | .neg x => some (Enc.neg, x)
  | .abs x => some (Enc.abs, x)
  | .min x => some (Enc.min, x)
  | .max x => some (Enc.max, x)
  | .div x => some (Enc.div, x)
  | .rem x => some (Enc.rem, x)
  | .and x => some (Enc.and, x)
  | .or x => some (Enc.or, x)
  | .xor x => some (Enc.xor, x)
  | .not x => some (Enc.not, x)
  | .shl x => some (Enc.shl, x)
  | .shr x => some (Enc.shr, x)
  | .rol x => some (Enc.rol, x)
  | .bfx x => some (Enc.bfx, x)
  | .bfi x => some (Enc.bfi, x)
  | .popc x => some (Enc.popc, x)
  | .clz x => some (Enc.clz, x)
  | .brev x => some (Enc.brev, x)
  | .sel x => some (Enc.sel, x)
  | .mov x => some (Enc.mov, x)
  | .lea x => some (Enc.lea, x)
  | .fadd x => some (Enc.fadd, x)
  | .fsub x => some (Enc.fsub, x)
  | .fmul x => some (Enc.fmul, x)
  | .ffma x => some (Enc.ffma, x)
  | .fmin x => some (Enc.fmin, x)
  | .fmax x => some (Enc.fmax, x)
  | .fneg x => some (Enc.fneg, x)
  | .fabs x => some (Enc.fabs, x)
  | .fdiv x => some (Enc.fdiv, x)
  | .fsqrt x => some (Enc.fsqrt, x)
  | .frcp x => some (Enc.frcp, x)
  | .frsq x => some (Enc.frsq, x)
  | .cvt x => some (Enc.cvt, x)
  | .cvti x => some (Enc.cvti, x)
  | .cvtf x => some (Enc.cvtf, x)
  | .setpEq x => some (Enc.setpEq, x)
  | .setpNe x => some (Enc.setpNe, x)
  | .setpLt x => some (Enc.setpLt, x)
  | .setpLe x => some (Enc.setpLe, x)
  | .setpGt x => some (Enc.setpGt, x)
  | .setpGe x => some (Enc.setpGe, x)
  | .setpUn x => some (Enc.setpUn, x)
  | .setpNum x => some (Enc.setpNum, x)
  | .pand x => some (Enc.pand, x)
  | .por x => some (Enc.por, x)
  | .pxor x => some (Enc.pxor, x)
  | .pnot x => some (Enc.pnot, x)
  | .voteAny x => some (Enc.voteAny, x)
  | .voteAll x => some (Enc.voteAll, x)
  | .voteUniform x => some (Enc.voteUniform, x)
  | .ballot x => some (Enc.ballot, x)
  | .pmov x => some (Enc.pmov, x)
  | .perm x => some (Enc.perm, x)
  | .lred x => some (Enc.lred, x)
  | .lscan x => some (Enc.lscan, x)
  | .kclr x => some (Enc.kclr, x)
  | .kadd x => some (Enc.kadd, x)
  | .kmac x => some (Enc.kmac, x)
  | .kscan x => some (Enc.kscan, x)
  | .krd x => some (Enc.krd, x)
  | .xred x => some (Enc.xred, x)
  | .xget x => some (Enc.xget, x)
  | .xput x => some (Enc.xput, x)
  | .br x => some (Enc.br, x)
  | .brx x => some (Enc.brx, x)
  | .call x => some (Enc.call, x)
  | .callv x => some (Enc.callv, x)
  | .ret x => some (Enc.ret, x)
  | .ifRegion x => some (Enc.ifRegion, x)
  | .elseRegion x => some (Enc.elseRegion, x)
  | .endifRegion x => some (Enc.endifRegion, x)
  | .loopRegion x => some (Enc.loopRegion, x)
  | .breakRegion x => some (Enc.breakRegion, x)
  | .contRegion x => some (Enc.contRegion, x)
  | .endloopRegion x => some (Enc.endloopRegion, x)
  | .prio x => some (Enc.prio, x)
  | .yield x => some (Enc.yield, x)
  | .exit x => some (Enc.exit, x)
  | .nop x => some (Enc.nop, x)
  | .mark x => some (Enc.mark, x)
  | .cut x => some (Enc.cut, x)
  | .graft x => some (Enc.graft, x)
  | .sliceDrop x => some (Enc.sliceDrop, x)
  | .sliceAtt x => some (Enc.sliceAtt, x)
  | .wflush x => some (Enc.wflush, x)
  | .ld x => some (Enc.ld, x)
  | .st x => some (Enc.st, x)
  | .atomAdd x => some (Enc.atomAdd, x)
  | .atomMin x => some (Enc.atomMin, x)
  | .atomMax x => some (Enc.atomMax, x)
  | .atomAnd x => some (Enc.atomAnd, x)
  | .atomOr x => some (Enc.atomOr, x)
  | .atomXor x => some (Enc.atomXor, x)
  | .atomXchg x => some (Enc.atomXchg, x)
  | .atomCas x => some (Enc.atomCas, x)
  | .amaxp x => some (Enc.amaxp, x)
  | .park x => some (Enc.park, x)
  | .fenceAcq x => some (Enc.fenceAcq, x)
  | .fenceRel x => some (Enc.fenceRel, x)
  | .fenceAr x => some (Enc.fenceAr, x)
  | .fenceSc x => some (Enc.fenceSc, x)
  | .tfence x => some (Enc.tfence, x)
  | .tmv x => some (Enc.tmv, x)
  | .cp x => some (Enc.cp, x)
  | .cpD x => some (Enc.cpD, x)
  | .fbind x => some (Enc.fbind, x)
  | .fetch x => some (Enc.fetch, x)
  | .ovlLd x => some (Enc.ovlLd, x)
  | .wbld x => some (Enc.wbld, x)
  | .funbind x => some (Enc.funbind, x)
  | .tzero x => some (Enc.tzero, x)
  | .mmaE4m3 x => some (Enc.mmaE4m3, x)
  | .mmaE5m2 x => some (Enc.mmaE5m2, x)
  | .mmaI8 x => some (Enc.mmaI8, x)
  | .mmaBf16 x => some (Enc.mmaBf16, x)
  | .mmaF16 x => some (Enc.mmaF16, x)
  | .mmaF32 x => some (Enc.mmaF32, x)
  | .mmaF64 x => some (Enc.mmaF64, x)
  | .mmqQ4g x => some (Enc.mmqQ4g, x)
  | .mmqQ8g x => some (Enc.mmqQ8g, x)
  | .mmspE4m3 x => some (Enc.mmspE4m3, x)
  | .mmspE5m2 x => some (Enc.mmspE5m2, x)
  | .mmspI8 x => some (Enc.mmspI8, x)
  | .mmspBf16 x => some (Enc.mmspBf16, x)
  | .mmspF16 x => some (Enc.mmspF16, x)
  | .mzero x => some (Enc.mzero, x)
  | .mld x => some (Enc.mld, x)
  | .mstr x => some (Enc.mstr, x)
  | .mshape x => some (Enc.mshape, x)
  | .spdg x => some (Enc.spdg, x)
  | .spsal x => some (Enc.spsal, x)
  | .mtalloc x => some (Enc.mtalloc, x)
  | .mtfree x => some (Enc.mtfree, x)
  | .eaNew x => some (Enc.eaNew, x)
  | .eaFree x => some (Enc.eaFree, x)
  | .eaIns x => some (Enc.eaIns, x)
  | .eaDel x => some (Enc.eaDel, x)
  | .eaSplit x => some (Enc.eaSplit, x)
  | .eaCat x => some (Enc.eaCat, x)
  | .eaMort x => some (Enc.eaMort, x)
  | .eaFill x => some (Enc.eaFill, x)
  | .eaSeal x => some (Enc.eaSeal, x)
  | .eaRank x => some (Enc.eaRank, x)
  | .eaPeg x => some (Enc.eaPeg, x)
  | .eaLen x => some (Enc.eaLen, x)
  | .xqCfg x => some (Enc.xqCfg, x)
  | .xqPush x => some (Enc.xqPush, x)
  | .xqPop x => some (Enc.xqPop, x)
  | .xqComb x => some (Enc.xqComb, x)
  | .xqDone x => some (Enc.xqDone, x)
  | .xqStat x => some (Enc.xqStat, x)
  | .crewJoin x => some (Enc.crewJoin, x)
  | .crewLeave x => some (Enc.crewLeave, x)
  | .crewInfo x => some (Enc.crewInfo, x)
  | .barBind x => some (Enc.barBind, x)
  | .barArrive x => some (Enc.barArrive, x)
  | .barArriveEnrol x => some (Enc.barArriveEnrol, x)
  | .barArriveDrop x => some (Enc.barArriveDrop, x)
  | .barWait x => some (Enc.barWait, x)
  | .barFree x => some (Enc.barFree, x)
  | .sigDec x => some (Enc.sigDec, x)
  | .sigWait x => some (Enc.sigWait, x)
  | .sigSet x => some (Enc.sigSet, x)
  | .gateSig x => some (Enc.gateSig, x)
  | .gateWait x => some (Enc.gateWait, x)
  | .gateRd x => some (Enc.gateRd, x)
  | .srd x => some (Enc.srd, x)
  | .swr x => some (Enc.swr, x)
  | .trap x => some (Enc.trap, x)
  | .trapret x => some (Enc.trapret, x)
  | .region x => some (Enc.region, x)
  | .sigchk x => some (Enc.sigchk, x)
  | .launch x => some (Enc.launch, x)
  | .profOff x => some (Enc.profOff, x)
  | .profOn x => some (Enc.profOn, x)
  | .profBuf x => some (Enc.profBuf, x)
  | .profRdp x => some (Enc.profRdp, x)
  | .profCons x => some (Enc.profCons, x)
  | .profDrop x => some (Enc.profDrop, x)
  | .dbg x => some (Enc.dbg, x)
  | .illegalEncoding _ => none
  | .runArbitration _ _ => none
  | .longLatencyComplete _ _ => none
  | .sample _ _ => none
  | .parkWake _ _ => none
  | .parkTimeout _ _ => none
  | .tmvLineArrival _ _ => none
  | .copyEngineAcquire _ => none
  | .cpComplete _ => none
  | .engineFault _ => none
  | .rangeLockEntryFree _ => none
  | .wbldLineArrival _ _ => none
  | .ovlUnload _ => none
  | .ovlLdComplete _ => none
  | .fbindComplete _ => none
  | .funbindRelease _ => none
  | .wflushComplete _ => none
  | .sliceCopyComplete _ => none
  | .sliceDropComplete _ => none
  | .matrixQueueServe _ => none
  | .matrixStep _ => none
  | .matrixOpComplete _ => none
  | .tileSaveFinished _ _ => none
  | .eaAccept _ => none
  | .eaCommit _ => none
  | .shootdown _ _ => none
  | .shootdownAck _ _ => none
  | .eaCommitComplete _ => none
  | .rankWalk _ _ _ => none
  | .walkStart _ _ _ => none
  | .walkComplete _ _ => none
  | .crewEventApply _ => none
  | .barArrivalApply _ => none
  | .barReleaseWake _ _ => none
  | .signalWriteReeval _ => none
  | .xredComplete _ => none
  | .nodeStart _ _ => none
  | .nodeComplete _ _ => none
  | .nodeFault _ _ => none
  | .placement _ => none
  | .courseStart _ => none
  | .courseRetire _ => none
  | .xqCfgApply _ => none
  | .selectionRound _ => none
  | .remotePush _ _ _ _ _ _ => none
  | .combineMessage _ _ _ _ _ _ _ _ => none
  | .linkReply _ _ _ => none
  | .replayRetry _ _ => none
  | .routeTimeout _ _ => none
  | .gateMessage _ _ _ _ _ _ => none
  | .gateTokenRefill _ _ => none
  | .gateDeferTimeout _ => none
  | .slotBoundary _ => none
  | .reclaim _ _ => none
  | .lendReturn _ => none
  | .partitionLoadEffect _ => none
  | .courseRelocate _ => none
  | .bentRetire _ => none
  | .queueEnable _ _ _ => none
  | .queueDisable _ _ => none
  | .bell _ _ _ => none
  | .resume _ _ _ _ _ => none
  | .cons _ _ => none
  | .stage1RangeInvalidate _ _ _ _ _ _ => none
  | .stage1ContextInvalidate _ _ _ _ => none
  | .stage2RangeInvalidate _ _ _ _ _ => none
  | .stage2PartitionInvalidate _ _ _ => none
  | .addSpareFrames _ _ _ _ => none
  | .invalidationAck _ => none
  | .loadPartitionBlock _ _ _ _ => none
  | .enable _ _ _ _ _ => none
  | .endContext _ _ _ _ => none
  | .contextEndComplete _ => none
  | .flushCrew _ _ _ _ _ => none
  | .restartCrew _ _ _ _ _ => none
  | .migrateOut _ _ _ _ => none
  | .migrateOutSaveFinished _ => none
  | .migrateIn _ _ _ _ _ => none
  | .activate _ _ _ _ => none
  | .freeze _ _ _ => none
  | .thaw _ _ _ => none
  | .retire _ _ _ => none
  | .beginMigration _ _ _ _ => none
  | .endMigration _ _ _ => none
  | .arm _ _ _ => none
  | .startCheckpoint _ _ => none
  | .disarm _ _ => none
  | .checkpointComplete => none
  | .errcnt _ => none
  | .retrain _ => none
  | .registerWrite _ _ _ => none
  | .peerWrite _ _ => none
  | .hostCxlMemAccess _ _ _ _ => none
  | .decodeFrame _ _ _ _ _ => none
  | .frameRetireTrigger _ _ _ => none
  | .migrationLineCopy _ => none
  | .correctedError _ => none
  | .scrub _ => none
  | .viralState => none
  | .cxlReset => none
  | .linkPowerUp _ => none
  | .trainingSucceeds _ _ _ => none
  | .trainingFails _ => none
  | .trainingRetry _ => none
  | .laneErrorThreshold _ _ => none
  | .flitCrcFailure _ _ => none
  | .viralFlitReceived _ => none
  | .timeSync _ _ => none
  | .powerCapSet _ => none
  | .clockStep _ => none
  | .junctionTrip => none
  | .inputUndervoltage => none
  | .resetBoot => none
  | .firmwareUpdate _ _ _ => none
  | .certificateRequest => none
  | .attestationRequest _ => none
  | .queueResume _ _ => none

/-! ### The rules of R35 to R41 on decoded fields -/

/-- The must-be-zero bits of a read-path pattern (R37). -/
def Pat.broken (p : Pat) : List (BitVec 8) :=
  let amtBad := p.rel && decide (p.amt.extractLsb' 3 2 ≠ 0)
  match p.kind with
  | .self | .mir => if p = { Pat.plain with kind := p.kind } then [] else [Sub.mbz]
  | .bfly => if p.neg || amtBad then [Sub.mbz] else []
  | .rot | .bc | .shz => if amtBad then [Sub.mbz] else []

/-- The range of a class 01 number (R35). -/
def Role.broken (r : Role) (n : Nat) : List (BitVec 8) :=
  match r with
  | .scalar | .any => []
  | .pred => if n < 48 then [] else [Sub.pred]
  | .evenPred => (if n < 48 then [] else [Sub.pred]) ++ (if n % 2 = 0 then [] else [Sub.odd])
  | .tile => if n < 8 then [] else [Sub.field]
  | .shape => if n < 4 then [] else [Sub.field]
  | .special => if n ≤ 0x12 then [] else [Sub.field]

/-- Whether no class is allowed, so that the field must be all zero. -/
def FieldSpec.unused (f : FieldSpec) : Bool := !f.v && !f.r && !f.i && !f.j

/-- The rules an operand breaks under its field's form. -/
def FieldSpec.broken (f : FieldSpec) (isD : Bool) (t : Ty) (o : Opnd) : List (BitVec 8) :=
  match o with
  | .zero => if f.z then [] else [Sub.cls]
  | .vec r p =>
    if f.unused then [Sub.mbz] else if !f.v then [Sub.cls] else
      (if isD then (if p = Pat.plain then [] else [Sub.mbz]) else p.broken)
      ++ (match f.pair with
          | .never => []
          | .always => if r.getLsbD 0 then [Sub.odd] else []
          | .byTy => if t.wide && r.getLsbD 0 then [Sub.odd] else [])
  | .reg n => if f.unused then [Sub.mbz] else if !f.r then [Sub.cls] else f.role.broken n.toNat
  | .imm _ => if f.unused then [Sub.mbz] else if !f.i then [Sub.cls] else []
  | .joined _ => if !f.j || isD then [Sub.cls] else []

/-- The guard rules of R39 and of the entry. -/
def GuardSpec.broken (s : GuardSpec) (g : Guard) : List (BitVec 8) :=
  (match g with
   | .always => []
   | .on p _ => if p.toNat < 48 then [] else [Sub.pred])
  ++ (match s with
      | .any => []
      | .always => if g = .always then [] else [Sub.mbz]
      | .plainPred =>
        match g with
        | .always => [Sub.pred]
        | .on _ neg => if neg then [Sub.pred] else [])

/-- The flag rules of R41 that the word alone decides. -/
def Hint.broken (isL : Bool) (h : Hint) : List (BitVec 8) :=
  let bad (f : Option (BitVec 4)) : Bool := match f with
    | some n => decide (12 ≤ n.toNat)
    | none => false
  match h with
  | .header _ _ fa fb => if bad fa || bad fb then [Sub.flag] else []
  | .body _ .none => []
  | .body _ _ => if isL then [] else [Sub.flag]

/-- Class 11 must stand in both A and B or in neither (R36). -/
def joinedBroken (x : Args) : List (BitVec 8) :=
  match x.a, x.b with
  | .joined _, .joined _ => []
  | .joined _, _ => [Sub.cls]
  | _, .joined _ => [Sub.cls]
  | _, _ => []

/-- Every rule of R51 that decoded fields break under an entry. -/
def Entry.broken (e : Entry) (x : Args) : List (BitVec 8) :=
  (if e.mods.ok x.m then [] else [Sub.mod])
  ++ e.guard.broken x.g
  ++ x.h.broken e.isL
  ++ e.d.broken true x.m.tyD x.d ++ e.a.broken false x.m.tyD x.a ++ e.b.broken false x.m.tyD x.b
  ++ joinedBroken x
  ++ (if e.r38 && x.d.isReg && (x.a.isVec || x.b.isVec) then [Sub.cls] else [])
  ++ e.extra x

end Sys2Proof
end

