-- ==== Sys2Proof/WellFormed.lean ====
section
/-!
DEFINITION. Which instructions have a word: every field keeps the rules of R33 to R51 and of the instruction's entry.
-/

namespace Sys2Proof

/-- An instruction is well formed when its fields break no rule of its encoding; a machine event has no encoding and is
well formed as it stands. -/
def Instr.wf (i : Instr) : Bool :=
  match i.parts with
  | some (e, x) => (e.broken x).isEmpty
  | none => true

/-- An instruction that has a word: well formed and no machine event. -/
def Instr.encodable (i : Instr) : Bool := i.parts.isSome && i.wf

end Sys2Proof
end

