-- ==== Sys2Proof/Decode.lean ====
section
/-!
DEFINITION. Decoding a 96-bit word (R33 to R51), total on every word and rejecting by subcode, and the encoder written from
the same tables.
-/

namespace Sys2Proof

/-- Where a word stands in its run (R41): a header, or an instruction of a run whose header names FA, FB or not. -/
inductive RunCtx where
  | header
  | body (fa fb : Bool)
  deriving DecidableEq, Repr

/-- The fields of a word (R33). -/
structure Raw where
  op : BitVec 9
  mod : BitVec 5
  g : BitVec 7
  d : BitVec 18
  a : BitVec 18
  b : BitVec 18
  h : BitVec 21
  deriving DecidableEq, Repr

/-- Cuts a word into its fields (R33). -/
def Raw.ofWord (w : BitVec 96) : Raw :=
  { op := w.extractLsb' 87 9, mod := w.extractLsb' 82 5, g := w.extractLsb' 75 7, d := w.extractLsb' 57 18,
    a := w.extractLsb' 39 18, b := w.extractLsb' 21 18, h := w.extractLsb' 0 21 }

/-- The word of the fields. -/
def Raw.toWord (r : Raw) : BitVec 96 := r.op ++ (r.mod ++ (r.g ++ (r.d ++ (r.a ++ (r.b ++ r.h)))))

/-- The kind a pattern code names; 6 and 7 are none (R37). -/
def PatKind.ofCode (c : BitVec 3) : Option PatKind :=
  [PatKind.self, .rot, .bc, .bfly, .mir, .shz][c.toNat]?

/-- The code of a pattern kind (R37). -/
def PatKind.code : PatKind → BitVec 3
  | .self => 0 | .rot => 1 | .bc => 2 | .bfly => 3 | .mir => 4 | .shz => 5

/-- A bit as a Bool. -/
def bit1 (w : BitVec 1) : Bool := w = 1

/-- Reads an operand field (R35 to R37), with the rules the bits themselves break: class 11 in a field that takes no operand is used
wrongly, and a pattern code that is none breaks PAT in a source and MBZ in D. -/
def parseOpnd (isD : Bool) (f : FieldSpec) (w : BitVec 18) : Opnd × List (BitVec 8) :=
  if f.z && w = 0 then (.zero, [])
  else if f.unused then (.imm 0, if (w.extractLsb' 16 2).toNat = 3 then [Sub.cls] else [])
  else
    let c := (w.extractLsb' 16 2).toNat
    if c = 0 then
      let r := w.extractLsb' 10 6
      let rel := bit1 (w.extractLsb' 6 1)
      let neg := bit1 (w.extractLsb' 5 1)
      match PatKind.ofCode (w.extractLsb' 7 3) with
      | some k => (.vec r { kind := k, rel := rel, neg := neg, amt := w.extractLsb' 0 5 }, [])
      | none => (.vec r Pat.plain, if f.v then [if isD then Sub.mbz else Sub.pat] else [])
    else if c = 1 then
      (.reg (w.extractLsb' 10 6), if f.r && w.extractLsb' 0 10 ≠ 0 then [Sub.mbz] else [])
    else if c = 2 then (.imm (w.extractLsb' 0 16), [])
    else (.joined (w.extractLsb' 0 16), [])

/-- A Bool as a bit. -/
def bitOf (b : Bool) : BitVec 1 := if b then 1 else 0

/-- The operand field of an operand (R35, R37). -/
def encodeOpnd : Opnd → BitVec 18
  | .zero => 0
  | .vec r p => (0 : BitVec 2) ++ (r ++ (p.kind.code ++ (bitOf p.rel ++ (bitOf p.neg ++ p.amt))))
  | .reg n => (1 : BitVec 2) ++ (n ++ (0 : BitVec 10))
  | .imm v => (2 : BitVec 2) ++ v
  | .joined v => (3 : BitVec 2) ++ v

/-- Reads the guard field (R39). -/
def parseGuard (w : BitVec 7) : Guard :=
  if w = 0x3F then .always else .on (w.extractLsb' 0 6) (bit1 (w.extractLsb' 6 1))

/-- The guard field (R39). -/
def encodeGuard : Guard → BitVec 7
  | .always => 0x3F
  | .on p neg => bitOf neg ++ p

/-- A flag number field; 15 is none (R41). -/
def parseFlag (w : BitVec 4) : Option (BitVec 4) := if w = 15 then none else some w

/-- The flag number field (R41). -/
def encodeFlag : Option (BitVec 4) → BitVec 4
  | none => 15
  | some n => n

/-- Reads the hint field (R41), with the rules that its bits and the run break. -/
def parseHint (ctx : RunCtx) (w : BitVec 21) : Hint × List (BitVec 8) :=
  let bnd := bit1 (w.extractLsb' 20 1)
  match ctx with
  | .header =>
    (.header bnd (w.extractLsb' 8 12) (parseFlag (w.extractLsb' 4 4)) (parseFlag (w.extractLsb' 0 4)), [])
  | .body fa fb =>
    let s := (w.extractLsb' 18 2).toNat
    let low := if w.extractLsb' 0 18 = 0 then [] else [Sub.mbz]
    if s = 0 then (.body bnd .none, low)
    else if s = 1 then (.body bnd .fa, low ++ (if fa then [] else [Sub.flag]))
    else if s = 2 then (.body bnd .fb, low ++ (if fb then [] else [Sub.flag]))
    else (.body bnd .none, low ++ [Sub.flag])

/-- The hint field (R41). -/
def encodeHint : Hint → BitVec 21
  | .header bnd wait fa fb => bitOf bnd ++ (wait ++ (encodeFlag fa ++ encodeFlag fb))
  | .body bnd s =>
    bitOf bnd ++ ((match s with | .none => (0 : BitVec 2) | .fa => 1 | .fb => 2) ++ (0 : BitVec 18))

/-- Whether an instruction's hint can stand at this place of a run. -/
def RunCtx.admits : RunCtx → Hint → Bool
  | .header, .header _ _ _ _ => true
  | .body _ _, .body _ .none => true
  | .body fa _, .body _ .fa => fa
  | .body _ fb, .body _ .fb => fb
  | _, _ => false

/-- The earliest broken rule in the order of R51, which is the order of the subcodes. -/
def firstBroken : List (BitVec 8) → Option (BitVec 8)
  | [] => none
  | s :: l =>
    match firstBroken l with
    | none => some s
    | some t => some (if s.toNat ≤ t.toNat then s else t)

/-- Whether a row stands for this MOD and B field. -/
def Entry.selects (e : Entry) (r : Raw) : Bool :=
  (e.mods.parse r.mod).isSome && (match e.bsel with | none => true | some b => b = r.b)

/-- Decodes a word (R51): the instruction, or the subcode of the first broken rule. -/
def decode (ctx : RunCtx) (w : BitVec 96) : Except (BitVec 8) Instr :=
  let r := Raw.ofWord w
  let rows := (classTable r.op).filter (fun p => p.1.op = r.op)
  match rows.find? (fun p => p.1.selects r) with
  | none => .error (if rows.isEmpty then Sub.op else Sub.mod)
  | some (e, mk) =>
    let d := parseOpnd true e.d r.d
    let a := parseOpnd false e.a r.a
    let b := parseOpnd false e.b r.b
    let h := parseHint ctx r.h
    let x : Args :=
      { g := parseGuard r.g, h := h.1, m := (e.mods.parse r.mod).getD .none, d := d.1, a := a.1, b := b.1 }
    match firstBroken (h.2 ++ d.2 ++ a.2 ++ b.2 ++ e.broken x) with
    | none => .ok (mk x)
    | some s => .error s

/-- The word of an instruction; the all-ones word, which never decodes, for a machine event (R48). -/
def encode (i : Instr) : BitVec 96 :=
  match i.parts with
  | none => BitVec.allOnes 96
  | some (e, x) =>
    Raw.toWord
      { op := e.op, mod := e.mods.encode x.m, g := encodeGuard x.g, d := encodeOpnd x.d, a := encodeOpnd x.a,
        b := encodeOpnd x.b, h := encodeHint x.h }

/-- The twelve bytes of a word as instruction memory holds them (R34). -/
def wordBytes (w : BitVec 96) : List Byte := (List.range 12).map (fun k => w.extractLsb' (8 * k) 8)

/-- The word that bytes hold, the first byte lowest (R34). -/
def wordOfBytes (l : List Byte) : BitVec 96 :=
  BitVec.ofNat 96 (l.foldr (fun b acc => b.toNat + 256 * acc) 0)

/-- What the decoder reads from the bits w of an instruction, the first byte lowest, as the first word of a run. -/
def decodeTableWord (nbits w : Nat) : Option Instr :=
  match decode .header (wordOfBytes (wordBytes (BitVec.ofNat 96 (w % 2 ^ nbits)))) with
  | .ok i => some i
  | .error _ => none

end Sys2Proof
end

