-- ==== Sys2Proof/Machine/Num.lean ====
section
/-!
DEFINITION. Integers, floating-point values and exact arithmetic (R16 to R32): every operation is exact on integers or
dyadic numbers and rounds once, through roundTo, which is Round of R23. Bit patterns are natural numbers here.
-/

namespace Sys2Proof

/-- Bits [lo+w-1:lo] of n. -/
def bits (n lo w : Nat) : Nat := (n >>> lo) % 2 ^ w

/-- Bit i of n. -/
def nbit (n i : Nat) : Bool := (n >>> i) % 2 == 1

/-- n with bits [lo+w-1:lo] replaced by the low bits of v. -/
def setBits (n lo w v : Nat) : Nat :=
  n % 2 ^ lo + ((v % 2 ^ w) <<< lo) + ((n >>> (lo + w)) <<< (lo + w))

/-- The two's complement value of the low w bits of n (R17). -/
def toInt (w n : Nat) : Int :=
  let v := n % 2 ^ w
  if v < 2 ^ (w - 1) then (v : Int) else (v : Int) - (2 ^ w : Nat)

/-- An integer modulo 2^w as a bit pattern (R7, R17). -/
def wrap (w : Nat) (x : Int) : Nat := (x % ((2 ^ w : Nat) : Int)).toNat

/-- Sign-extends the low w bits of n to the given number of bits. -/
def signExt (w cw n : Nat) : Nat := wrap cw (toInt w n)

/-- The least value of an integer type (R17). -/
def Ty.minI (t : Ty) : Int := if t.signed then -((2 ^ (t.bits - 1) : Nat) : Int) else 0

/-- The greatest value of an integer type (R17). -/
def Ty.maxI (t : Ty) : Int :=
  if t.signed then ((2 ^ (t.bits - 1) : Nat) : Int) - 1 else ((2 ^ t.bits : Nat) : Int) - 1

/-- The integer that a bit pattern stands for under an integer type (R83); .b types read as unsigned. -/
def Ty.val (t : Ty) (n : Nat) : Int := if t.signed then toInt t.bits n else ((n % 2 ^ t.bits : Nat) : Int)

/-- Sat of R17. -/
def Ty.sat (t : Ty) (x : Int) : Int := if x < t.minI then t.minI else if t.maxI < x then t.maxI else x

/-- Size(T) in bytes, with codes of .q4g counted as one byte where a whole number is needed (R85). -/
def Ty.size (t : Ty) : Nat := (t.bits + 7) / 8

/-- How Put extends a value to its container of the given width (R83). -/
def Ty.extend (t : Ty) (cw n : Nat) : Nat :=
  if t.signed then signExt t.bits cw n else n % 2 ^ t.bits

/-! ### Floating-point values (R18 to R20) -/

/-- A floating-point value: NaN, an infinity, or the number (−1)^neg × man × 2^exp. -/
inductive FVal where
  | nan
  | inf (neg : Bool)
  | fin (neg : Bool) (man : Nat) (exp : Int)
  deriving DecidableEq, Repr

/-- Exponent bits E of a format (R18). -/
def Fmt.ebits : Fmt → Nat
  | .f64 => 11 | .f32 => 8 | .f16 => 5 | .bf16 => 8 | .e4m3 => 4 | .e5m2 => 5

/-- Fraction bits F of a format (R18). -/
def Fmt.fbits : Fmt → Nat
  | .f64 => 52 | .f32 => 23 | .f16 => 10 | .bf16 => 7 | .e4m3 => 3 | .e5m2 => 2

/-- Bias of a format (R18). -/
def Fmt.bias : Fmt → Nat
  | .f64 => 1023 | .f32 => 127 | .f16 => 15 | .bf16 => 127 | .e4m3 => 7 | .e5m2 => 15

/-- Width of a format in bits. -/
def Fmt.bits (f : Fmt) : Nat := 1 + f.ebits + f.fbits

/-- The canonical NaN of a format (R18, R20). -/
def Fmt.nan : Fmt → Nat
  | .f64 => 0x7FF8000000000000 | .f32 => 0x7FC00000 | .f16 => 0x7E00 | .bf16 => 0x7FC0
  | .e4m3 => 0x7F | .e5m2 => 0x7E

/-- The sign bit of a format, set or clear. -/
def Fmt.signBit (f : Fmt) (neg : Bool) : Nat := if neg then 2 ^ (f.ebits + f.fbits) else 0

/-- The infinity of a format; E4M3 has none and takes its NaN (R18, R23). -/
def Fmt.infBits (f : Fmt) (neg : Bool) : Nat :=
  match f with
  | .e4m3 => f.nan
  | f => f.signBit neg + (2 ^ f.ebits - 1) * 2 ^ f.fbits

/-- The largest finite magnitude as a bit pattern (R18). -/
def Fmt.maxBits (f : Fmt) (neg : Bool) : Nat :=
  match f with
  | .e4m3 => f.signBit neg + 0x7E
  | f => f.signBit neg + (2 ^ f.ebits - 1) * 2 ^ f.fbits - 1

/-- The value of a bit pattern (R18). -/
def Fmt.decode (f : Fmt) (n : Nat) : FVal :=
  let neg := nbit n (f.ebits + f.fbits)
  let e := Sys2Proof.bits n f.fbits f.ebits
  let m := Sys2Proof.bits n 0 f.fbits
  if e = 2 ^ f.ebits - 1 ∧ f ≠ .e4m3 then (if m = 0 then .inf neg else .nan)
  else if f = .e4m3 ∧ e = 15 ∧ m = 7 then .nan
  else if e = 0 then .fin neg m (1 - (f.bias : Int) - (f.fbits : Int))
  else .fin neg (2 ^ f.fbits + m) ((e : Int) - (f.bias : Int) - (f.fbits : Int))

/-- Left shift by a possibly negative amount whose low bits are known to be zero. -/
def shiftI (m : Nat) (k : Int) : Nat := if 0 ≤ k then m <<< k.toNat else m >>> (-k).toNat

/-- Whether the magnitude lo + rem / 2^sh of a value of the given sign rounds up to lo + 1 (R22, R23). -/
def roundsUp (mode : Rnd) (neg : Bool) (lo rem sh : Nat) : Bool :=
  if rem = 0 then false else
  match mode with
  | .rn => decide (2 * rem > 2 ^ sh) || (decide (2 * rem = 2 ^ sh) && lo % 2 == 1)
  | .rz => false
  | .rm => neg
  | .rp => !neg

/-- What an overflow becomes (R23). -/
def Fmt.overflow (f : Fmt) (mode : Rnd) (neg : Bool) : Nat :=
  match mode, neg with
  | .rn, _ => f.infBits neg
  | .rz, _ => f.maxBits neg
  | .rm, false => f.maxBits false
  | .rm, true => f.infBits true
  | .rp, false => f.infBits false
  | .rp, true => f.maxBits true

/-- The magnitude man × 2^q, on the format's grid, as an encoding without sign. -/
def Fmt.pack (f : Fmt) (man : Nat) (q : Int) : Nat :=
  if man < 2 ^ f.fbits then man
  else if man < 2 ^ (f.fbits + 1) then (q + f.fbits + f.bias).toNat * 2 ^ f.fbits + (man - 2 ^ f.fbits)
  else (q + 1 + f.fbits + f.bias).toNat * 2 ^ f.fbits + (man / 2 - 2 ^ f.fbits)

/-- Round(x, fmt, mode) of R23 for x = (−1)^neg × man × 2^exp; a zero keeps the sign given. The second part says whether
a finite x overflowed. -/
def roundOv (f : Fmt) (mode : Rnd) (neg : Bool) (man : Nat) (exp : Int) : Nat × Bool :=
  if man = 0 then (f.signBit neg, false) else
  let msb := Nat.log2 man
  let emin : Int := 1 - (f.bias : Int) - (f.fbits : Int)
  let q := max (exp + msb - f.fbits) emin
  let sh := q - exp
  let lo := if sh ≤ 0 then man <<< (-sh).toNat else man >>> sh.toNat
  let rem := if sh ≤ 0 then 0 else man % 2 ^ sh.toNat
  let r := if roundsUp mode neg lo rem sh.toNat then lo + 1 else lo
  let p := f.pack r q
  if p ≤ f.maxBits false then (f.signBit neg + p, false) else (f.overflow mode neg, true)

/-- Round of R23. -/
def roundTo (f : Fmt) (mode : Rnd) (neg : Bool) (man : Nat) (exp : Int) : Nat := (roundOv f mode neg man exp).1

/-- The encoding of a value under a format: finite values rounded, NaN canonical (R20, R23). -/
def FVal.encode (f : Fmt) (mode : Rnd) : FVal → Nat
  | .nan => f.nan
  | .inf neg => f.infBits neg
  | .fin neg m e => roundTo f mode neg m e

/-- The sign of an exact zero that is the sum of operands of opposite sign (R23). -/
def zeroSign (mode : Rnd) : Bool := mode == .rm

/-- A signed integer times 2^e as a value; zero takes the sign given. -/
def FVal.ofInt (zneg : Bool) (x : Int) (e : Int) : FVal :=
  if x = 0 then .fin zneg 0 e else .fin (decide (x < 0)) x.natAbs e

/-- A finite value's signed mantissa. -/
def signedMan (neg : Bool) (m : Nat) : Int := if neg then -(m : Int) else m

/-- Exact addition (R23, R88). -/
def FVal.add (mode : Rnd) : FVal → FVal → FVal
  | .nan, _ => .nan
  | _, .nan => .nan
  | .inf a, .inf b => if a = b then .inf a else .nan
  | .inf a, _ => .inf a
  | _, .inf b => .inf b
  | .fin na ma ea, .fin nb mb eb =>
    let e := min ea eb
    let x := signedMan na (ma <<< (ea - e).toNat) + signedMan nb (mb <<< (eb - e).toNat)
    let z := if ma = 0 ∧ mb = 0 ∧ na = nb then na else zeroSign mode
    FVal.ofInt z x e

/-- Sign change. -/
def FVal.negate : FVal → FVal
  | .nan => .nan
  | .inf a => .inf (!a)
  | .fin n m e => .fin (!n) m e

/-- Exact multiplication (R88). -/
def FVal.mul : FVal → FVal → FVal
  | .nan, _ => .nan
  | _, .nan => .nan
  | .inf a, .inf b => .inf (a ^^ b)
  | .inf a, .fin n m _ => if m = 0 then .nan else .inf (a ^^ n)
  | .fin n m _, .inf a => if m = 0 then .nan else .inf (a ^^ n)
  | .fin na ma ea, .fin nb mb eb => .fin (na ^^ nb) (ma * mb) (ea + eb)

/-- The quotient's leading bits, with the remainder's presence in the last bit, so that roundTo rounds it correctly. -/
def FVal.div (f : Fmt) : FVal → FVal → FVal
  | .nan, _ => .nan
  | _, .nan => .nan
  | .inf _, .inf _ => .nan
  | .inf a, .fin n _ _ => .inf (a ^^ n)
  | .fin n _ _, .inf a => .fin (n ^^ a) 0 0
  | .fin na ma ea, .fin nb mb eb =>
    if mb = 0 then (if ma = 0 then .nan else .inf (na ^^ nb)) else
    let k := f.fbits + 6 + Nat.log2 mb
    let q := (ma <<< k) / mb
    let r := (ma <<< k) % mb
    .fin (na ^^ nb) (2 * q + (if r = 0 then 0 else 1)) (ea - eb - k - 1)

/-- The integer square root, found bit by bit from bit n − 1 down. -/
def isqrtBits (x : Nat) : Nat → Nat → Nat
  | 0, r => r
  | n + 1, r => isqrtBits x n (if (r + 2 ^ n) * (r + 2 ^ n) ≤ x then r + 2 ^ n else r)

/-- The integer square root. -/
def isqrt (x : Nat) : Nat := isqrtBits x (Nat.log2 x / 2 + 1) 0

/-- The square root of a positive number, with its inexactness in the last bit. -/
def sqrtMan (f : Fmt) (m : Nat) (e : Int) : Nat × Int :=
  let k := 2 * (f.fbits + 6)
  let odd := (e % 2).toNat
  let m' := m <<< (k + odd)
  let s := isqrt m'
  (2 * s + (if s * s = m' then 0 else 1), (e - odd - k) / 2 - 1)

/-- fsqrt of R87 and R88. -/
def FVal.sqrt (f : Fmt) : FVal → FVal
  | .nan => .nan
  | .inf a => if a then .nan else .inf false
  | .fin n m e =>
    if m = 0 then .fin n 0 e else if n then .nan else
    let r := sqrtMan f m e
    .fin false r.1 r.2

/-- frcp of R87 and R88. -/
def FVal.rcp (f : Fmt) (a : FVal) : FVal :=
  match a with
  | .fin n 0 _ => .inf n
  | a => FVal.div f (.fin false 1 0) a

/-- frsq of R87 and R88. -/
def FVal.rsq (f : Fmt) : FVal → FVal
  | .nan => .nan
  | .inf a => if a then .nan else .fin false 0 0
  | .fin n m e =>
    if m = 0 then .inf n else if n then .nan else
    let odd := (e % 2).toNat
    let m' := m <<< odd
    let k := f.fbits + 6 + Nat.log2 m'
    let t := 2 ^ (2 * k)
    let s := isqrt (t / m')
    .fin false (2 * s + (if s * s * m' = t then 0 else 1)) (-((e - odd) / 2) - k - 1)

/-- Exact comparison of two values that are no NaN: less, equal or greater; zeros are equal. -/
def FVal.cmp : FVal → FVal → Ordering
  | .nan, _ => .eq
  | _, .nan => .eq
  | .inf a, .inf b => if a = b then .eq else if a then .lt else .gt
  | .inf a, .fin _ _ _ => if a then .lt else .gt
  | .fin _ _ _, .inf b => if b then .gt else .lt
  | .fin na ma ea, .fin nb mb eb =>
    let e := min ea eb
    compare (signedMan na (ma <<< (ea - e).toNat)) (signedMan nb (mb <<< (eb - e).toNat))

/-- Whether a value is a NaN. -/
def FVal.isNan : FVal → Bool
  | .nan => true
  | _ => false

/-- FMin and FMax of R89 on bit patterns; -0 is ordered below +0. -/
def fminmax (f : Fmt) (isMax : Bool) (a b : Nat) : Nat :=
  let x := f.decode a
  let y := f.decode b
  if x.isNan && y.isNan then f.nan else if x.isNan then b else if y.isNan then a else
  let less : Bool := match FVal.cmp x y with
    | .lt => true
    | .gt => false
    | .eq => nbit a (f.ebits + f.fbits) && !nbit b (f.ebits + f.fbits)
  if less = isMax then b else a

/-- A finite value rounded to an integer in a mode. -/
def roundInt (mode : Rnd) (neg : Bool) (m : Nat) (e : Int) : Int :=
  if 0 ≤ e then signedMan neg (m <<< e.toNat) else
  let sh := (-e).toNat
  let lo := m >>> sh
  let r := if roundsUp mode neg lo (m % 2 ^ sh) sh then lo + 1 else lo
  signedMan neg r

/-- float → integer (R25): rounded, then saturated; NaN is 0. -/
def floatToInt (t : Ty) (mode : Rnd) : FVal → Int
  | .nan => 0
  | .inf neg => if neg then t.minI else t.maxI
  | .fin neg m e => t.sat (roundInt mode neg m e)

/-- float → float (R24, R25), on bit patterns. -/
def convFloat (src dst : Fmt) (mode : Rnd) (sat : Bool) (n : Nat) : Nat :=
  match src.decode n with
  | .nan => dst.nan
  | .inf neg => if sat then dst.maxBits neg else dst.infBits neg
  | .fin neg m e =>
    let r := roundOv dst mode neg m e
    if sat && r.2 then dst.maxBits neg else r.1

/-- σ × (q − z), exact (R26, R90); DESIGN CHOICE: a zero has the sign of σ, inverted where q < z (log entry 102). -/
def groupVal (sigma q z : Nat) : FVal :=
  let d := (q : Int) - (z : Int)
  match Fmt.f16.decode sigma with
  | .nan => .nan
  | .inf n => if d = 0 then .nan else .inf (n ^^ decide (d < 0))
  | .fin n m e => .fin (n ^^ decide (d < 0)) (m * d.natAbs) e

/-! ### The Kulisch accumulator (R27 to R30) -/

/-- Sticky bits of %kst (R29). -/
def kstOv : BitVec 64 := 1
/-- %kst.INV. -/
def kstInv : BitVec 64 := 2
/-- %kst.INFP. -/
def kstInfp : BitVec 64 := 4
/-- %kst.INFN. -/
def kstInfn : BitVec 64 := 8
/-- %kst.NAN. -/
def kstNan : BitVec 64 := 16
/-- %kst.Z. -/
def kstZ : BitVec 64 := 32

/-- An accumulator with its status. -/
structure Kul where
  acc : BitVec 2176
  st : BitVec 64
  deriving DecidableEq, Repr

/-- Add(x) of R98: a finite addend enters exactly, the other events set their bits (R29, R30). -/
def Kul.add (k : Kul) : FVal → Kul
  | .nan => { k with st := k.st ||| kstNan }
  | .inf false =>
    let st := k.st ||| kstInfp
    { k with st := if st &&& kstInfn = 0 then st else st ||| kstInv }
  | .inf true =>
    let st := k.st ||| kstInfn
    { k with st := if st &&& kstInfp = 0 then st else st ||| kstInv }
  | .fin neg m e =>
    let x := k.acc.toInt + signedMan neg (shiftI m (e + 1074))
    { acc := BitVec.ofInt 2176 x,
      st := if x < -((2 ^ 2175 : Nat) : Int) ∨ ((2 ^ 2175 : Nat) : Int) ≤ x then k.st ||| kstOv else k.st }

/-- One addend of kmac (R98): a NaN, a product ∞ × 0, or the exact product. -/
def Kul.mac (k : Kul) (a b : FVal) : Kul :=
  match a, b with
  | .nan, _ => { k with st := k.st ||| kstNan }
  | _, .nan => { k with st := k.st ||| kstNan }
  | .inf _, .fin _ 0 _ => { k with st := k.st ||| kstInv }
  | .fin _ 0 _, .inf _ => { k with st := k.st ||| kstInv }
  | a, b => k.add (FVal.mul a b)

/-- ReadOut of R30. -/
def Kul.readOut (k : Kul) (f : Fmt) (mode : Rnd) : Nat :=
  let on (b : BitVec 64) : Bool := decide (k.st &&& b ≠ 0)
  if on kstNan || on kstInv then f.nan
  else if on kstInfp && !on kstInfn then f.infBits false
  else if on kstInfn && !on kstInfp then f.infBits true
  else if on kstOv then f.nan
  else
    let x := k.acc.toInt
    if x = 0 then 0 else roundTo f mode (decide (x < 0)) x.natAbs (-1074)

/-! ### CRC-32C (R306) -/

/-- One bit step of the reflected CRC-32C. -/
def crcBit (c : BitVec 32) : BitVec 32 :=
  if c.getLsbD 0 then (c >>> 1) ^^^ 0x82F63B78#32 else c >>> 1

/-- CRC(c, byte): the byte low bit first, no inversion (R306). -/
def crcByte (c : BitVec 32) (b : BitVec 8) : BitVec 32 :=
  let x := c ^^^ b.setWidth 32
  crcBit (crcBit (crcBit (crcBit (crcBit (crcBit (crcBit (crcBit x)))))))

/-- The update of %sig by an instruction of this OP and MOD (R306). -/
def sigUpdate (c : BitVec 32) (op : BitVec 9) (mod : BitVec 5) : BitVec 32 :=
  let v := op ++ mod
  crcByte (crcByte c (v.extractLsb' 0 8)) ((v.extractLsb' 8 6).setWidth 8)

end Sys2Proof
end

