-- ==== Sys2Proof/Machine/State.lean ====
section
/-!
DEFINITION. Everything the spec gives the machine, as plain data, and the state right after reset. Memory is a list of cells
in one canonical form; every other table is sparse, and an unlisted entry is at the value its reader names.
-/

namespace Sys2Proof.Machine

/-- Why a step stops with a fault. -/
inductive Fault where
  /-- An instruction is executed while no path holds an issue slot: raised by the issue operation of every instruction.
  The spec has no such step, since only a path issues (R70), so the stop is safe. -/
  | noIssuingPath
  deriving DecidableEq, Repr

/-- Why a step is refused. -/
inductive Refusal where
  /-- Raised by an arm of exec that has no meaning yet; safe, since the model stops. -/
  | notModelled (mnemonic : String)
  deriving DecidableEq, Repr

/-- Page kinds of R142 and R156. -/
inductive PageKind where
  | so | rc | un
  deriving DecidableEq, Repr

/-- What a trap record says of its cause (R297, R298). -/
structure Trap where
  cls : BitVec 8
  sub : BitVec 8
  lane : BitVec 8 := 0xFF
  addr : Word := 0
  info : Word := 0
  /-- an error that goes to the driver even where a region is open (R224) -/
  stay : Bool := false
  deriving DecidableEq, Repr

/-- A trap that an earlier instruction raises at a run start (R298 DEFER). -/
structure LateTrap where
  trap : Trap
  /-- code address of the earlier instruction -/
  ovl : Nat
  idx : Nat
  /-- its place in program order -/
  place : Nat
  deriving DecidableEq, Repr

/-- A run under way or to be resumed (R40, R44): its header's WAIT, FA, FB and the instructions it has completed. -/
structure Run where
  wait : BitVec 12
  fa : Option (BitVec 4)
  fb : Option (BitVec 4)
  len : Nat
  deriving DecidableEq, Repr

/-- What the shim's return restores (R299, R300), and the run the trap abandoned. -/
structure Shim where
  c : BitVec 512
  x : LaneMask
  k : LaneMask
  d : Nat
  run : Option Run
  /-- entry masks of the regions open when the trap came (R306) -/
  ent : List (Nat × LaneMask)
  deriving DecidableEq, Repr

/-- What a path waits for before its next run (R49, R70, R128, R137, R216, R230, R252, R290, R300, R301). -/
inductive Wait where
  | nothing
  /-- absent lines, by line number (R128) -/
  | lines (l : List Nat)
  /-- xget: destination, sequence number, predicate, lanes that execute (R102) -/
  | xget (d : BitVec 6) (e : BitVec 32) (p : Option (BitVec 6)) (lanes : LaneMask)
  /-- park: the word's virtual and physical address, the clk of the time-out, whether a write has been performed (R137) -/
  | park (va pa : Nat) (limit : Nat) (hit : Bool)
  /-- bar.wait: barrier, its place in program order, lanes that execute, predicate, whether it has been released (R230) -/
  | bar (b place : Nat) (lanes : LaneMask) (p : Option (BitVec 6)) (freed : Bool)
  /-- a released bar.wait whose release latency has not passed: clk of the wake, values of the predicate (R229) -/
  | barWake (at_ : Nat) (lanes ones : LaneMask) (p : Option (BitVec 6))
  /-- sig.wait: virtual and physical address, comparison, value, destination, what the satisfying read gave: a value or an error (R252) -/
  | sig (va pa : Nat) (cc : Nat) (v : Word) (d : Option (BitVec 6)) (got : Option (Option Word))
  /-- an instruction that no flag follows and whose access a tfence or a fence of its course still holds back (R160) -/
  | access
  /-- gate.wait: gate, value, destination, the satisfying value once read (R290) -/
  | gate (gate : Nat) (v : Word) (d : Option (BitVec 6)) (got : Option Word)
  /-- gate.wait at another package's gate: link and sequence number of the waiter message, gate name, value, destination, what the
  home answered (R289); 2^32 is no sequence number: the waiter came with its context (R294) -/
  | remoteGate (link seq name : Nat) (v : Word) (d : Option (BitVec 6)) (got : Option Word)
  /-- a slice copy under way: its operation, and the run it ended (R124) -/
  | copy (op : Nat) (run : Option Run)
  /-- trapret after a window trap: every wflush of the course must complete (R300) -/
  | wflush
  /-- trapret after RLOCK: the lock entry and the operation that held it (R300) -/
  | rlock (entry : Nat) (op : Nat)
  /-- trapret after XQSPILL: queue and the occupancy to fall to (R263, R300) -/
  | xqroom (q limit : Nat)
  /-- the overlay id that is being loaded (R216) -/
  | overlay (id : Nat)
  deriving DecidableEq, Repr

/-- A path (R66, R76 to R79, R106, R298 to R301, R306). -/
structure Path where
  ovl : Nat
  idx : Nat
  lanes : LaneMask
  fmask : LaneMask
  /-- region depth d -/
  d : Nat
  prio : Nat
  /-- runs of the sibling since yield, while demoted (R77) -/
  demoted : Option Nat
  /-- logical window base LWB -/
  lwb : Nat
  /-- frame depth k -/
  depth : Nat
  /-- entry index of the join record of the split the path came from (R79 JIDX) -/
  jidx : Option Nat
  run : Option Run
  wait : Wait
  /-- late traps to raise at the next run start, earliest instruction first (R305) -/
  late : List LateTrap
  shim : Option Shim
  /-- entry masks of the innermost 8 open regions, newest first: 256 · frame depth + region depth, and lanes (R306) -/
  ent : List (Nat × LaneMask)
  /-- the operation that a home has been offered while the instruction holds its issue slot (R174, R289) -/
  offer : Option Nat
  /-- a window trap of the path's own transfer may have moved the span away from its window (R109) -/
  gap : Bool
  /-- a trap of the path awaits the driver or the hypervisor (R301); what the path waited for, if anything, stands beside it (R309) -/
  stopped : Bool
  deriving DecidableEq, Repr

/-- A binding (R209, R212): its descriptor, its extent and the operation that made it. -/
structure Binding where
  words : List Word
  op : Nat
  /-- the lock is in effect (R163, R212) -/
  live : Bool
  deriving DecidableEq, Repr

/-- The region state of a course (R303). -/
structure Region where
  depth : Nat
  lwb : Nat
  fmask : LaneMask
  d : Nat
  prio : Nat
  /-- region copy: accumulator and xr sequence number (R100) -/
  acc : BitVec 2176
  xseq : BitVec 32
  /-- restart count (R304) -/
  restarts : Nat
  deriving DecidableEq, Repr

/-- The kinds of fence (R145, R159). -/
inductive FenceKind where
  | acq | rel | ar | sc
  /-- tfence: the cores that its scope covers -/
  | tf (cores : BitVec 96)
  deriving DecidableEq, Repr

/-- A fence standing in the access queue of a course (R159, R160): its place in program order, its kind, its scope and the lanes that
executed it. -/
structure Fence where
  place : Nat
  kind : FenceKind
  scope : Scope
  lanes : LaneMask
  deriving DecidableEq, Repr

/-- A course (R66, R104, R129, R191, R209, R228, R240, R280, R299, R303). -/
structure Course where
  ctx : Nat
  kern : Nat
  index : Nat
  core : Nat
  cslot : Nat
  segbase : Nat
  /-- S, rows of the segment -/
  rows : Nat
  /-- LO of the resident span -/
  lo : Nat
  /-- HW and the reserve, in 64 KiB units -/
  hw : Nat
  res : Nat
  /-- VA of the private stack region -/
  priv : Nat
  /-- the launch state is in place (R240) -/
  started : Bool
  /-- the slot is claimed and the state saved; the segment rows held in the record (R279, R280) -/
  saved : Bool
  spl : BitVec 512
  /-- crews whose flush halts it (R281) -/
  flushed : List Nat
  /-- halted for lent capacity: the lender's partition (R282) -/
  reclaimed : Option Nat
  /-- halted by a bent's retirement: the retired core (R309) -/
  moved : Option Nat
  /-- held in lent capacity (R282) -/
  borrowed : Bool
  /-- the slice that a resumption course grafts as its first instruction (R121) -/
  first : Option Word
  /-- crews that count it as a halted member (R225) -/
  hm : List Nat
  /-- the driver has been told that a save or restore meets a translation fault (R280) -/
  told : Bool
  /-- a restart at %regpc is due once the outstanding operations have completed (R281, R304, R309) -/
  drain : Bool
  /-- entries of the path stack in use, as the core caches it (R79, R105) -/
  stack : Nat
  /-- frame masks of the paths and joins on the path stack, by entry -/
  stackFm : Tab LaneMask
  scal : Tab (BitVec 64)
  preds : Tab LaneMask
  c : BitVec 512
  x : LaneMask
  k : LaneMask
  exited : LaneMask
  /-- the crew that each lane belongs to, as the crews' homes have it (R220, R222) -/
  crew : Tab Nat
  /-- what %crew reads: the crews as they stood when the course's last run started (R43, R222) -/
  crewRd : Tab Nat
  xr : BitVec 64
  xseq : BitVec 32
  ne : Bool
  ex : Bool
  flags : Tab Nat
  acc : BitVec 2176
  kst : BitVec 64
  sig : BitVec 32
  regpc : BitVec 32
  clamped : Bool
  region : Region
  shapes : Tab (BitVec 128)
  binds : Tab Binding
  /-- E and A of R228, by barrier number -/
  barE : Tab LaneMask
  barA : Tab LaneMask
  paths : Tab Path
  lastPath : Nat
  passed : Nat
  /-- clk at which the course became forced (R70) -/
  forced : Option Nat
  /-- fences with their place in the order of operations (R160) -/
  fences : List Fence
  /-- queued matrix operations, oldest first (R185) -/
  mq : List Nat
  /-- tiles of the course that are saved in the save area (R189) -/
  tilesOut : BitVec 8
  /-- poisoned scalars, predicates and xr (R305) -/
  sPoison : BitVec 64
  pPoison : BitVec 64
  xPoison : Bool
  deriving DecidableEq, Repr

/-- One access of a memory operation, translated and checked (R131, R132). -/
structure Acc where
  /-- the lane, or 64 for a course-level access -/
  lane : Nat
  pa : Nat
  n : Nat
  kind : PageKind
  /-- operand value and, for cas, the new value -/
  x : Nat
  y : Nat
  /-- effective address for a trap record: VA, scratch address or rank -/
  va : Nat
  /-- the address that names its bytes in POISON: VA, scratch address, or GPA in a leaf frame (R305) -/
  ref : Nat
  deriving DecidableEq, Repr

/-- What a memory operation does at an address (R133 to R135). -/
inductive MemOp where
  | ld | st | add | min | max | and | or | xor | xchg | cas | amaxp
  deriving DecidableEq, Repr

/-- A load, store or atomic under way (R133 to R135). -/
structure MemJob where
  m : MemOp
  t : Ty
  d : Opnd
  acq : Bool
  rel : Bool
  /-- the scope of its qualifiers, and the lanes that execute it (R153) -/
  scope : Scope
  lanes : LaneMask
  /-- a lane touches an SO page (R158) -/
  so : Bool
  /-- the array of an access on .ea (R178) -/
  array : Option Nat
  /-- accesses still to perform -/
  todo : List Acc
  /-- values read so far, by lane -/
  got : List (Nat × Nat)
  /-- every range that a store writes: blocks that they cover whole lose their poison marks (R310) -/
  whole : List (Nat × Nat)
  /-- lowest lane that met poisoned data, and the first poisoned unit -/
  bad : Option (Nat × Nat)
  deriving DecidableEq, Repr

/-- A structural operation on an elastic array (R174, R180), with its operands as read at issue. -/
inductive EaOp where
  | new (esz kind : Nat)
  | free (h : Word)
  | ins (h : Word) (r n : Nat)
  | del (h : Word) (r n : Nat)
  | split (h : Word) (r : Nat)
  | cat (h g : Word)
  | mort (h : Word) (r m : Nat)
  /-- per lane: lane, mortise reference, source VA, count -/
  | fill (l : List (Nat × Word × Nat × Nat))
  | seal (k : Word) (m : Nat)
  /-- a decoder's frame before a mortise: mortise reference, elements (R218) -/
  | feed (k : Word) (n : Nat)
  deriving DecidableEq, Repr

/-- Where a structural operation stands (R174, R177). -/
inductive EaPhase where
  | offered
  | refused (t : Trap)
  | accepted
  /-- committed: cores still to apply the shoot-down, cores still to acknowledge it -/
  | committed (toApply toAck : List Nat)
  deriving DecidableEq, Repr

/-- What stands in the sequence of an array (R170, R171): a run of slots of a leaf, or a mortise. -/
inductive EItem where
  | ext (leaf start count : Nat)
  | mort (m : Nat)
  deriving DecidableEq, Repr

/-- An array as its home will write it at commit. -/
structure EaTree where
  array : Nat
  items : List EItem
  /-- nodes of the new tree, level 0 first -/
  nodes : List Nat
  mnext : Nat
  /-- OPEN leaf and NEXTSLOT -/
  leaf : Nat
  slot : Nat
  deriving DecidableEq, Repr

/-- A shoot-down of R177. -/
structure Shoot where
  array : Nat
  r : Nat
  delta : Int
  /-- entries that reach beyond r are dropped and none is shifted -/
  drop : Bool
  deriving DecidableEq, Repr

/-- A structural operation at its home (R174). -/
structure EaJob where
  o : EaOp
  phase : EaPhase
  d : Opnd
  result : Word
  /-- arrays to write at commit -/
  trees : List EaTree
  /-- new elements: GPA, bytes, and the source VA of a fill -/
  writes : List (Nat × Nat × Option Nat)
  shoots : List Shoot
  /-- nodes of the trees that commit replaces; those that the new trees do not use again go back to the pool -/
  oldNodes : List Nat
  /-- mortise-table frames taken for an array -/
  pages : List Nat
  /-- leaves that the commit touched -/
  leaves : List Nat
  /-- array entry that becomes FREE -/
  freed : Option Nat
  /-- bytes of the new elements where a decoder supplies them (R218) -/
  data : List Byte
  deriving DecidableEq, Repr

/-- The family of a matrix operation (R197, R204, R206). -/
inductive MatKind where
  | mma (a : Ty) (b : Ty)
  | mmq (q : Ty)
  | mmsp (a : Ty)
  | mzero
  | mld (t : Ty)
  | mstr (t : Ty)
  | wbld
  | spdg
  | spsal
  deriving DecidableEq, Repr

/-- What a sparse operation forms once: the live list and the bitmaps of A and of both halves of B (R202, R203). -/
structure Sparse where
  live : List Nat
  a : List Byte
  b0 : List Byte
  b1 : List Byte
  deriving DecidableEq, Repr

/-- A queued matrix operation with every operand as read at issue (R185). -/
structure Mat where
  kind : MatKind
  tile : Nat
  /-- shape records of A and, for the sparsity steps, of the gradients -/
  sha : BitVec 128
  shb : BitVec 128
  wref : Word
  mods : BitVec 5
  /-- scales and zero points, by group and column: 192·g + c (R195) -/
  sigma : List Nat
  zero : List Nat
  /-- source or destination address, pitch or count, first weight line; of a sparsity step KSWAP, the counter block's offset and
  BMLINE -/
  addr : Word
  n : Nat
  line : Nat
  sparse : Option Sparse
  deriving DecidableEq, Repr

/-- When a tile move may read a source line (R139): once P = 1, at once, or once the data of an earlier move have arrived. -/
inductive LineWait where
  | present | free | earlier
  deriving DecidableEq, Repr

/-- A line that a tile move has still to move: its place in the move, source and destination by line number. -/
structure MoveLine where
  i : Nat
  src : Nat
  dst : Nat
  wait : LineWait
  deriving DecidableEq, Repr

/-- A row-wise copy (R214, R215). -/
structure Copy where
  src : Word
  dst : Word
  rows : Nat
  len : Nat
  spitch : Nat
  dpitch : Nat
  sig : Word
  /-- scratch source lines that may be read whatever their P, and those that wait for an earlier move (R139, R140) -/
  free : List Nat
  earlier : List Nat
  deriving DecidableEq, Repr

/-- What a slice copy will commit (R118, R119). -/
inductive SlicePlan where
  /-- cut: destination scalar, the mark's frame m, the resumption point after the cut -/
  | cut (d : BitVec 6) (m : Nat)
  /-- graft: (handle, lanes that enter), more than one when the path splits -/
  | graft (l : List (Word × LaneMask))
  deriving DecidableEq, Repr

/-- A long-latency or engine operation under way. -/
inductive OpKind where
  /-- an L instruction with nothing to do (R42) -/
  | nothing
  | mem (j : MemJob)
  /-- an instruction that waits behind a tfence in the access queue (R160): its OP and operands, the issue slot, the course and the path
  as they stood at issue, and the rows that it reads -/
  | behind (code : BitVec 9) (x : Args) (slot : Nat) (co : Course) (pa : Path) (rows : Tab (BitVec 2048))
  | xred (v : Word) (ne ex : Bool)
  /-- fetch: the operation that made the binding, its descriptor, destination, (lane, coordinates) -/
  | fetch (bind : Nat) (words : List Word) (d : Opnd) (l : List (Nat × List Nat))
  /-- tile move or zero: the lines still to move -/
  | tmv (zero : Bool) (todo : List MoveLine)
  | cp (c : Copy) (engine : Bool) (node : Option (Nat × Nat))
  | wflush (k : Int)
  | slice (plan : SlicePlan)
  /-- slice.drop of the slice-table entry -/
  | sliceDrop (h : Word)
  /-- ovl.ld: slot, id, image VA, instructions, unloaded (R216); start: loaded by the distributor (R240) -/
  | ovlLd (core slot id va n : Nat) (begun : Bool)
  | fbind (slot : Nat)
  /-- funbind of the binding that this operation made -/
  | funbind (bind : Nat)
  | mat (m : Mat)
  | ea (j : EaJob)
  /-- results to write when the course is between runs: type, destination, lane and value -/
  | land (t : Ty) (d : Opnd) (l : List (Nat × Nat))
  /-- crew joins (lane, crew) and leaves (lane) still to apply, and whether the driver has been told that an entry does not take them -/
  | crew (todo : List (Nat × Option Nat)) (told : Bool)
  /-- barrier arrivals: number, 0 plain 1 enrol 2 drop 3 exit, lanes still to apply -/
  | arrive (b mode : Nat) (todo : List Nat)
  | barBind (b n : Nat) (p : BitVec 6) (lanes : LaneMask)
  | barFree (b : Nat)
  /-- a deferred signal of a gate (R290) -/
  | gateSig (gate : Nat)
  | gateRemote (link seq name : Nat) (o : GateOp) (d : Opnd) (reply : Option Reply)
  | xqCfg (q : Nat) (words : List Word)
  /-- push: guard predicate, (lane, tag, source, queue, ring location) still to transfer, remote lanes unanswered -/
  | xqPush (p : BitVec 6) (todo : List (Nat × Word × Word × Nat × Nat)) (dups : LaneMask) (remote : List (Nat × Nat × Nat))
  /-- pop: queue, places of the batch's rows, row and tag destinations -/
  | xqPop (q : Nat) (locs : List Nat) (d b : Word)
  /-- comb: queue, output rows, rows still to write or send with their tags, remote rows unanswered -/
  | xqComb (q : Nat) (d : Word) (todo : List (Nat × Word)) (remote : List (Nat × Nat))
  /-- the lock of a DRAM frame under migration (R150) -/
  | frame (f : Nat)
  /-- an append to queue q: kind of node and its payload words -/
  | append (q kind : Nat) (words : List Word)
  /-- a media decode node's operation: it has a decoder; its last frame has been decoded (R217, R218) -/
  | media (q slot : Nat) (busy last : Bool)
  /-- a storage node's armed range: destination, byte count, peer-window offset, bytes arrived (R219) -/
  | storage (q slot : Nat) (dst : Word) (count off got : Nat)
  deriving DecidableEq, Repr

/-- An operation: who issued it, the flag it will lower, and what it does. -/
structure Op where
  /-- issuing course, or none for a walker's operation -/
  cid : Option Nat
  ctx : Nat
  path : Nat
  ovl : Nat
  idx : Nat
  flag : Option (BitVec 4)
  /-- window base of the issuing path -/
  lwb : Nat
  kind : OpKind
  /-- lock ranges still to be registered: (first byte, end, RW) (R163) -/
  pend : List (Nat × Nat × Bool)
  deriving DecidableEq, Repr

/-- A range-lock entry (R163). -/
structure Lock where
  lo : Nat
  hi : Nat
  rw : Bool
  op : Nat
  cid : Option Nat
  /-- an fbind lock: R166 SELF -/
  bind : Bool
  /-- when it was registered, in the order of operations (R163) -/
  since : Nat
  deriving DecidableEq, Repr

/-- The last instruction that completed issue in a slot: its clk, course, path, overlay and index (R80). -/
structure Issued where
  clk : Nat
  cid : Nat
  p : Nat
  ovl : Nat
  idx : Nat
  deriving DecidableEq, Repr

/-- An issue slot (R70). -/
structure Slot where
  busy : Option (Nat × Nat)
  last : Nat
  issued : Option Issued
  deriving DecidableEq, Repr

/-- A sampler (R80 to R82). -/
structure Sampler where
  ctx : Nat
  on : Bool
  period : Nat
  base : Nat
  cap : Nat
  prod : BitVec 32
  cons : BitVec 32
  drop : Nat
  next : Nat
  last : Nat
  deriving DecidableEq, Repr

/-- The result of reading a leaf: its attributes or a subcode (R142, R143). -/
structure Leaf where
  frame : Nat
  kind : PageKind
  priv : Bool
  w : Bool
  deriving DecidableEq, Repr

/-- What a walk has read at one stage (R144): the entry of a table node, or the entry that ended the walk for a page. -/
structure Seen where
  stage2 : Bool
  /-- at_ is a 64 KiB page; otherwise the address of the entry -/
  page : Bool
  at_ : Nat
  level : Nat
  entry : Nat
  deriving DecidableEq, Repr

/-- An item of a core's translation cache (R144), with the context and the stage generations under which it was read (R148). -/
structure TlbItem where
  core : Nat
  ctx : Nat
  s1gen : BitVec 32
  s2gen : BitVec 32
  what : Seen
  deriving DecidableEq, Repr

/-- A walk under way: its address, whether it takes table entries from the cache, the generations it recorded, and what it has read
(R144, R148). -/
structure Walk where
  core : Nat
  ctx : Nat
  va : Nat
  warm : Bool
  s1gen : BitVec 32
  s2gen : BitVec 32
  items : List TlbItem
  deriving DecidableEq, Repr

/-- A rank-cache entry (R177). -/
structure RankItem where
  core : Nat
  ctx : Nat
  array : Nat
  gen : Nat
  base : Nat
  count : Nat
  frame : Nat
  start : Nat
  deriving DecidableEq, Repr

/-- An overlay slot of a core (R216). -/
structure Ovl where
  id : Nat
  ctx : Nat
  n : Nat
  /-- VA of the image, and when it was loaded -/
  image : Nat
  order : Nat
  loaded : Bool
  /-- the loads that have marked it for unloading -/
  mark : List Nat
  deriving DecidableEq, Repr

/-- States of a tile (R189). -/
inductive TileState where
  | free
  | held (cid : Nat)
  | releasing (cid : Nat)
  | saving (cid : Nat)
  deriving DecidableEq, Repr

/-- An accumulator tile's status (R187, R189); its data lie in memory. -/
structure Tile where
  st : TileState
  /-- context of the last holder -/
  last : Option Nat
  mst : BitVec 32
  act : Bool
  step : Nat
  deriving DecidableEq, Repr

/-- A bent's sequencer (R185): the last queue served, the entry in progress, lines a wbld has still to load. -/
structure Bent where
  last : Nat
  cur : Option Nat
  todo : List Nat
  /-- the entry in progress has taken its last step -/
  done : Bool
  deriving DecidableEq, Repr

/-- A barrier (R228, R234). -/
structure Barrier where
  bound : Bool
  ctx : Nat
  expect : Nat
  pending : Nat
  phase : BitVec 32
  deriving DecidableEq, Repr

/-- States of a kernel after its node has started (R241). -/
inductive KState where
  | placing | resident | retired | faulted | aborted
  deriving DecidableEq, Repr

/-- A kernel (R236 to R242). -/
structure Kernel where
  st : KState
  ctx : Nat
  part : Nat
  /-- the launch block -/
  words : List Word
  prio : Nat
  crew : Nat
  next : Nat
  courses : Nat
  live : Nat
  node : Option (Nat × Nat)
  /-- the driver has been told that a claim for it meets a translation fault (R280) -/
  told : Bool
  /-- batch handle of an expert queue's kernel (R265) -/
  batch : Option Word
  /-- slice handle of a resumption course (R121) -/
  graft : Option Word
  deriving DecidableEq, Repr

/-- States of a queue (R250). -/
inductive QState where
  | off | active | stopped
  deriving DecidableEq, Repr

/-- A queue as its walker holds it (R243, R248, R250). -/
structure Queue where
  st : QState
  block : Word
  ring : Nat
  ctx : Nat
  part : Nat
  prio : Nat
  nslot : Nat
  head : Nat
  tail : Nat
  /-- slots from HEAD to TAIL -/
  used : Nat
  fnode : Nat
  /-- a disable waits until no node is RUNNING -/
  closing : Bool
  deriving DecidableEq, Repr

/-- A RUNNING node and what it started (R245): a kernel, an operation, or a watched signal. -/
structure NodeRun where
  q : Nat
  slot : Nat
  kern : Option Nat
  op : Option Nat
  /-- watched word: virtual and physical address, comparison, value -/
  watch : Option (Nat × Nat × Nat × Word)
  /-- its condition has held or its operation has ended -/
  done : Bool
  /-- COND: whether the condition word was non-zero -/
  cond : Bool
  /-- FCODE, FCLASS, FSUB of a fault -/
  bad : Option (Nat × Nat × Nat)
  deriving DecidableEq, Repr

/-- A queued row (R261): its place in the ring or spill region and its stamp. -/
structure XRow where
  loc : Nat
  stamp : Nat
  deriving DecidableEq, Repr

/-- An outstanding batch (R259). -/
structure Batch where
  handle : Word
  rows : List XRow
  kern : Nat
  deriving DecidableEq, Repr

/-- An expert queue (R254 to R265). -/
structure XQ where
  /-- the configuration block in force; empty while OFF -/
  cfg : List Word
  ctx : Nat
  dup : BitVec 32
  fired : BitVec 32
  cref : Nat
  serial : BitVec 16
  rows : List XRow
  out : List Batch
  /-- expiry round (R264) -/
  expiry : Option Nat
  deriving DecidableEq, Repr

/-- States of a gate (R288). -/
inductive GState where
  | retired | active | migrating | frozen
  deriving DecidableEq, Repr

/-- Who waits for a gate's answer: a local operation, or a message of another package. -/
inductive GWho where
  | op (id : Nat)
  | msg (link seq : Nat)
  deriving DecidableEq, Repr

/-- A deferred signal (R290): its number, issuer, count, access-list entry and last moment. -/
structure Deferred where
  id : Nat
  who : GWho
  n : Word
  acl : Nat
  limit : Nat
  deriving DecidableEq, Repr

/-- A waiter record whose path is not in this package, or belongs to the migrating partition (R290, R294): where its answer goes, by link
and sequence number, the value awaited and the access-list entry. -/
structure GWaiter where
  back : Option (Nat × Nat)
  v : Word
  acl : Nat
  deriving DecidableEq, Repr

/-- A gate at its home (R287 to R295): the access list as last read, with TOKENS. -/
structure Gate where
  st : GState
  value : Word
  acl : List Word
  mpart : Nat
  /-- freeze once the migration ends -/
  freezeAfter : Bool
  nwait : Nat
  deferred : List Deferred
  /-- remote waiters -/
  remote : List GWaiter
  deriving DecidableEq, Repr

/-- States of a context (R285). -/
inductive CState where
  | active | halted | migrating | ending
  deriving DecidableEq, Repr

/-- A context that is not FREE (R274, R275, R285). -/
structure Context where
  st : CState
  part : Nat
  /-- the context block as read at enable -/
  block : List Word
  /-- windows by the word number of R275: first line and lines -/
  wins : Tab (Nat × Nat)
  s1gen : BitVec 32
  /-- first free frame of the elastic pool, free nodes carved from its frames, first free block of the slice area -/
  pool : Nat
  nodes : List Nat
  /-- leaves that are some array's OPEN leaf -/
  opens : List Nat
  /-- frames of each array's mortise table beyond the one that MTAB names, by array (log entry 21) -/
  mpages : Tab (List Nat)
  /-- barriers whose images stand in the save area: core · 16 + n, or 1,536 + g (R234) -/
  barsOut : List Nat
  blocks : Nat
  /-- no run may start before this %tstamp (R283) -/
  after : Nat
  /-- place in the order of enables -/
  order : Nat
  deriving DecidableEq, Repr

/-- A notice of a trap for the fault ring (R315). -/
structure Notice where
  stamp : Nat
  ctx : Nat
  src : Nat
  cls : BitVec 8
  sub : BitVec 8
  deriving DecidableEq, Repr

/-- A partition (R273, R277, R284, R315). -/
structure Partition where
  /-- the block in force; empty before the first load -/
  block : List Word
  /-- an accepted load waiting for its period start, and when that is -/
  next : Option (List Word × Nat)
  s2gen : BitVec 32
  /-- slot last applied -/
  slot : Nat
  /-- when a reclaim of lent capacity is due (R282) -/
  reclaimAt : Option Nat
  /-- when reclaimed capacity goes back to the borrowed courses (R282) -/
  returnAt : Option Nat
  ringBase : Word
  ringLog : Nat
  prod : BitVec 32
  cons : BitVec 32
  notices : List Notice
  deriving DecidableEq, Repr

/-- A message in a link's replay queue (R320). -/
inductive MsgKind where
  | push (op lane dev queue : Nat) (tag : Word) (row : List Byte) (marks : List Bool)
  | comb (op row queue layer : Nat) (tag : Word) (kmax outu : Nat) (bytes : List Byte) (marks : List Bool)
  | gate (gate part : Nat) (o : GateOp)
  /-- the reply to a gate operation of the peer, by its sequence number (R289) -/
  | reply (of : Nat) (r : Reply)
  deriving DecidableEq, Repr

/-- A queued message: sequence number, destination package, when a retry is due, and when it joined the queue. -/
structure Msg where
  seq : Nat
  dest : Nat
  kind : MsgKind
  retry : Option Nat
  since : Nat
  deriving DecidableEq, Repr

/-- States of a link (R318). -/
inductive LState where
  | down | training | up
  deriving DecidableEq, Repr

/-- A fabric link (R318 to R320). -/
structure Link where
  st : LState
  ver : Nat
  peer : Nat
  retrain : Nat
  width : Nat
  /-- lanes excluded; times of a lane's CRC failures in the last millisecond -/
  excluded : BitVec 8
  crc : Tab (List Nat)
  /-- when it first went DOWN since it was last UP, and when training is to be tried again -/
  downAt : Option Nat
  retryAt : Option Nat
  nextSeq : Nat
  queue : List Msg
  /-- sequence numbers of the peer's messages already applied, with the replies given -/
  seen : List (Nat × Reply)
  /-- down until reset after a viral flit -/
  viral : Bool
  deriving DecidableEq, Repr

/-- A command block of the host register space (R146, R284, R296, R316): its words and whether a command is pending. -/
structure Cmd where
  words : List Word
  pending : Bool
  deriving DecidableEq, Repr

/-- A translation command waiting for its acknowledgement (R147): block, partition, operations issued before it. -/
structure Inval where
  page : Nat
  part : Nat
  ctx : Option Nat
  before : Nat
  deriving DecidableEq, Repr

/-- States of a DRAM frame that is being retired (R150). -/
inductive FrameState where
  | pending
  /-- spare HPA frame taken, lines copied -/
  | migrating (spare done : Nat)
  | retired
  deriving DecidableEq, Repr

/-- A bad-frame list entry (R151). -/
structure BadFrame where
  frame : Nat
  reason : Nat
  stamp : Nat
  deriving DecidableEq, Repr

/-- A firmware slot (R326). -/
structure Firmware where
  image : List Byte
  version : Nat
  sig : BitVec 768
  deriving DecidableEq, Repr

/-- The two forms in which the package is ordered (R1). -/
inductive Form where
  | olm96P | olm96M
  deriving DecidableEq, Repr

/-- Package and platform state (R11, R150, R151, R310, R311, R313, R316, R325 to R329). -/
structure Package where
  form : Form
  bentEn : BitVec 48
  chLo : BitVec 64
  chHi : BitVec 64
  linkW : BitVec 48
  cfgGen : BitVec 32
  pkgno : Nat
  viral : Bool
  powerOff : Bool
  inReset : Bool
  /-- the stacks whose DRAM training fails at the next boot: an input from outside, held here as the agenda is (R326) -/
  untrained : BitVec 8
  powerCap : Nat
  fwA : Firmware
  fwB : Firmware
  activeB : Bool
  rollback : Nat
  meas0 : BitVec 384
  meas1 : BitVec 384
  tier : Option Word
  checkpoint : Bool
  spares : List Nat
  frameMap : Tab Nat
  frames : Tab FrameState
  corrected : Tab Nat
  badFrames : List BadFrame
  /-- HDM-DB windows over package DRAM, by window: first byte and bytes (R312) -/
  hdm : Tab (Nat × Nat)
  gateOn : Bool
  peerEn : Tab (Nat × Bool)
  peerErr : Tab Nat
  routes : Tab Nat
  deriving DecidableEq, Repr

/-- Time: periods of the arithmetic clock, nanoseconds of the time-stamp counter, the part of a nanosecond left over, the
clock in MHz and the rate correction in ppm (R5, R322, R325). -/
structure Time where
  clk : Nat
  ns : Nat
  frac : Nat
  mhz : Nat
  ppm : Int
  deriving DecidableEq, Repr

/-- What the last event that answers gave to the host, a peer or a requester. -/
inductive Out where
  | none
  | word (v : Word)
  | bytes (l : List Byte)
  /-- a read answered with poison (R310) -/
  | poison
  /-- the management controller's report that no firmware slot is good (R326) -/
  | bootFailed
  /-- the viral indication, sent on these links (R310, R323) -/
  | viral (l : List Nat)
  /-- replies to messages of other packages: link, sequence number -/
  | replies (l : List (Nat × Nat × Reply))
  deriving DecidableEq, Repr

/-- The whole machine. -/
structure State where
  /-- every byte of DRAM, of the scratchpads, weight buffers, instruction memories and tiles (R8, R125) -/
  mem : List Host.Cell
  /-- lines whose P bit is 0, by line number (R127) -/
  absent : List Nat
  /-- poisoned 64-byte blocks of DRAM and 256-byte lines elsewhere, by first byte (R310) -/
  poison : List Nat
  /-- vector register file: core · 4096 + row, 64 lanes of 32 bits (R8) -/
  rows : Tab (BitVec 2048)
  /-- poisoned pairs of lanes of a row (R305) -/
  rowPoison : Tab (BitVec 32)
  courses : Tab Course
  slots : Tab Slot
  samplers : Tab Sampler
  /-- outstanding operations, by issue order (R42, R160) -/
  ops : Tab Op
  locks : Tab Lock
  tlb : List TlbItem
  walks : List Walk
  ranks : List RankItem
  ovls : Tab Ovl
  tiles : Tab Tile
  bents : Tab Bent
  barriers : Tab Barrier
  kernels : Tab Kernel
  queues : Tab Queue
  /-- QBLOCK of each queue register as last written (R314) -/
  qblocks : Tab Word
  nodes : List NodeRun
  xqs : Tab XQ
  gates : Tab Gate
  /-- last VALUE that the home of another package's gate sent, by gate name (R294) -/
  gateVals : Tab Word
  ctxs : Tab Context
  parts : Tab Partition
  links : Tab Link
  cmds : Tab Cmd
  invals : List Inval
  /-- SIG mismatches of a core (R308) -/
  sigCount : Tab Nat
  /-- last bay the distributors used (R239) -/
  lastBay : Nat
  /-- last selection round of a cairn (R264) -/
  lastRound : Tab Nat
  /-- tick of an access-list entry last applied: gate · 8 + entry (R288) -/
  lastTick : Tab Nat
  pkg : Package
  time : Time
  /-- next operation, course and kernel number, next place in an order -/
  nextId : Nat
  /-- the model's own: events to come (log entry 4) -/
  agenda : List Instr
  /-- the model's own: the issue slot whose turn it is (log entry 4) -/
  cur : Option Nat
  /-- the model's own: clk that the coming instructions take (log entry 5) -/
  pace : List Nat
  /-- the model's own: free values used so far (log entry 8) -/
  free : Nat
  /-- the model's own: what the last event gave to the outside (log entry 12) -/
  out : Out
  deriving DecidableEq, Repr

/-- A link after power-up: DOWN, every status field 0 (R318, R319). -/
def Link.reset : Link :=
  { st := .down, ver := 0, peer := 0, retrain := 0, width := 0, excluded := 0, crc := [], downAt := none, retryAt := none,
    nextSeq := 0, queue := [], seen := [], viral := false }

/-- The package as shipped, in reset until its boot (R11, R326, log entries 2, 10, 11 and 108). -/
def Package.reset : Package :=
  { form := .olm96M, bentEn := BitVec.allOnes 48, chLo := BitVec.allOnes 64, chHi := BitVec.allOnes 64, linkW := 0x888888888888,
    cfgGen := 0, pkgno := 0,
    viral := false, powerOff := false, inReset := true, untrained := 0, powerCap := 3000,
    fwA := { image := Config.shippedImage, version := 0, sig := Config.shippedSig },
    fwB := { image := Config.shippedImage, version := 0, sig := Config.shippedSig },
    activeB := false, rollback := 0, meas0 := 0, meas1 := 0, tier := none, checkpoint := false, spares := [],
    frameMap := [], frames := [], corrected := [], badFrames := [], hdm := [], gateOn := false, peerEn := [], peerErr := [],
    routes := [] }

/-- The machine right after reset, before the boot ROM has run (R326): no context, nothing loaded, every register at the value the spec or
the log names. -/
def State.reset : State :=
  { mem := [], absent := [], poison := [], rows := [], rowPoison := [], courses := [], slots := [], samplers := [],
    ops := [], locks := [], tlb := [], walks := [], ranks := [], ovls := [], tiles := [], bents := [], barriers := [],
    kernels := [], queues := [], qblocks := [], nodes := [], xqs := [], gates := [], gateVals := [], ctxs := [], parts := [], links := [], cmds := [],
    invals := [], sigCount := [], lastBay := 11, lastRound := [], lastTick := [], pkg := Package.reset,
    time := { clk := 0, ns := 0, frac := 0, mhz := 1600, ppm := 0 }, nextId := 1, agenda := [], cur := none,
    pace := [], free := 0, out := .none }

end Sys2Proof.Machine
end

