-- ==== Sys2Proof/Machine/Mem.lean ====
section
/-!
DEFINITION. Memory: bytes in one canonical form, the physical places of the stores, line state and poison, page walks, the
translation cache and the range-lock table.
-/

namespace Sys2Proof.Machine

/-! ### Bytes -/

/-- What an unlisted byte reads as: zero (R126 for the scratchpads; log entry 1 for DRAM). -/
def memDefault : Byte := 0

/-- The byte at an address. -/
def memByte : List Host.Cell → Nat → Byte
  | [], _ => memDefault
  | (k, v) :: t, a => if k = a then v else memByte t a

/-- The canonical form: addresses strictly rising, and no cell equal to what an unlisted byte reads as. -/
def Memory.wf : List Host.Cell → Bool
  | [] => true
  | [c] => c.2 != memDefault
  | a :: b :: t => decide (a.1 < b.1) && a.2 != memDefault && Memory.wf (b :: t)

/-- The n bytes from a on, the cells being those at or above a. -/
def spanFrom : List Host.Cell → Nat → Nat → List Byte
  | _, _, 0 => []
  | [], a, n + 1 => memDefault :: spanFrom [] (a + 1) n
  | (k, v) :: t, a, n + 1 =>
    if k = a then v :: spanFrom t (a + 1) n else memDefault :: spanFrom ((k, v) :: t) (a + 1) n

/-- The n bytes from a on. -/
def memSpan (m : List Host.Cell) (a n : Nat) : List Byte := spanFrom (m.dropWhile (fun c => c.1 < a)) a n

/-- The cells that the bytes l make from a on. -/
def newCells : Nat → List Byte → List Host.Cell
  | _, [] => []
  | a, b :: l => if b = memDefault then newCells (a + 1) l else (a, b) :: newCells (a + 1) l

/-- Memory with the bytes l stored from a on. -/
def memWrite (m : List Host.Cell) (a : Nat) (l : List Byte) : List Host.Cell :=
  m.filter (fun c => c.1 < a) ++ newCells a l ++ m.filter (fun c => a + l.length ≤ c.1)

/-- The number that bytes hold, little-endian (R16). -/
def leNat : List Byte → Nat
  | [] => 0
  | b :: l => b.toNat + 256 * leNat l

/-- The n bytes of a number, little-endian (R16). -/
def toLe : Nat → Nat → List Byte
  | 0, _ => []
  | n + 1, v => BitVec.ofNat 8 (v % 256) :: toLe n (v / 256)

/-! ### Physical places (log entry 13) -/

/-- Base of the core store of core c. -/
def coreBase (c : Nat) : Nat := 2 ^ 52 + c * 2 ^ 20
/-- Base of the store of bay u. -/
def bayBase (u : Nat) : Nat := 2 ^ 53 + u * 2 ^ 24
/-- Base of the store of die d. -/
def dieBase (d : Nat) : Nat := 2 ^ 54 + d * 2 ^ 27
/-- Base of the weight buffer of core c. -/
def weightBase (c : Nat) : Nat := 2 ^ 55 + c * 2 ^ 18
/-- Base of overlay slot j of core c. -/
def imemBase (c j : Nat) : Nat := 2 ^ 56 + (c * 8 + j) * 2 ^ 16
/-- Base of tile t of bent b. -/
def tileBase (b t : Nat) : Nat := 2 ^ 57 + (b * 8 + t) * 2 ^ 16

/-- Whether a physical address lies in DRAM. -/
def isDram (pa : Nat) : Bool := decide (pa < 2 ^ 52)

/-- The memory cell of a physical address: DRAM through the frame map (R150), everything else itself. -/
def State.cell (s : State) (pa : Nat) : Nat :=
  if isDram pa then
    match s.pkg.frameMap.find (pa / 65536) with
    | some f => f * 65536 + pa % 65536
    | none => pa
  else pa

/-- The bytes at a physical address. -/
def State.peek (s : State) (pa n : Nat) : List Byte :=
  if s.pkg.frameMap.isEmpty then memSpan s.mem pa n
  else (List.range n).map (fun i => memByte s.mem (s.cell (pa + i)))

/-- A number of n bytes at a physical address. -/
def State.peekNat (s : State) (pa n : Nat) : Nat := leNat (s.peek pa n)

/-- Memory after a store through the frame map. -/
def State.store (s : State) (pa : Nat) (l : List Byte) : List Host.Cell :=
  if s.pkg.frameMap.isEmpty then memWrite s.mem pa l
  else l.zipIdx.foldl (fun m b => memWrite m (s.cell (pa + b.2)) [b.1]) s.mem

/-! ### Poison (R310) -/

/-- Size of the unit that carries a poison mark at this place. -/
def poisonUnit (cell : Nat) : Nat := if isDram cell then 64 else 256

/-- The units that a range touches, by first byte. -/
def poisonUnits (cell n : Nat) : List Nat :=
  let u := poisonUnit cell
  if n = 0 then [] else (List.range ((cell + n - 1) / u - cell / u + 1)).map (fun i => (cell / u + i) * u)

/-- The first poisoned unit that a range touches. -/
def State.poisoned (s : State) (pa n : Nat) : Option Nat :=
  (poisonUnits (s.cell pa) n).find? (fun u => s.poison.contains u)

/-- The first poisoned unit that a range touches, as the address it has where the range's own first byte is named ref (R305). -/
def State.poisonedAs (s : State) (ref pa n : Nat) : Option Nat :=
  let u := poisonUnit (s.cell pa)
  (s.poisoned pa n).map (fun k => ref / u * u + (k - s.cell pa / u * u))

/-- Poison after a store: units that the store covers whole are cleared. -/
def clearPoison (p : List Nat) (cell n : Nat) : List Nat :=
  let u := poisonUnit cell
  p.filter (fun k => !(decide (cell ≤ k) && decide (k + u ≤ cell + n)))

/-- Marks the units that a range touches. -/
def State.markPoison (s : State) (pa n : Nat) : State :=
  { s with poison := (poisonUnits (s.cell pa) n).foldl (fun p u => if p.contains u then p else u :: p) s.poison }

/-! ### Watchers (R137, R252) -/

/-- The comparison of sig.wait by its code (R252). -/
def ccHolds (cc : Nat) (m v : Word) : Bool :=
  let x := m.toInt
  let y := v.toInt
  match cc with
  | 0 => x == y
  | 1 => x != y
  | 2 => decide (x < y)
  | 3 => decide (x ≤ y)
  | 4 => decide (y < x)
  | _ => decide (y ≤ x)

/-- A path's wait after a write to [a, a + n) has been performed; rd reads a word of the memory it left, or nothing where its data are
poisoned. -/
def Wait.touched (w : Wait) (rd : Nat → Option Word) (a n : Nat) : Wait :=
  let hits (pa : Nat) : Bool := decide (pa < a + n) && decide (a < pa + 8)
  match w with
  | .park va pa l hit => .park va pa l (hit || hits pa)
  | .sig va pa cc v d none =>
    if hits pa && (match rd pa with
      | some m => ccHolds cc m v
      | none => true) then .sig va pa cc v d (some (rd pa)) else w
  | w => w

/-- A running node's watch after such a write (R245); an error makes it faulted (R250). -/
def NodeRun.touched (r : NodeRun) (rd : Nat → Option Word) (a n : Nat) : NodeRun :=
  match r.watch with
  | some (_, pa, cc, v) =>
    if decide (pa < a + n) && decide (a < pa + 8) then
      (match rd pa with
       | some m => if ccHolds cc m v then { r with done := true } else r
       | none => { r with bad := some (2, 8, 0) })
    else r
  | none => r

/-- The word at a physical address, if no data of it are poisoned (R252, R305). -/
def State.goodWord (s : State) (pa : Nat) : Option Word :=
  if (s.poisoned pa 8).isSome then none else some (BitVec.ofNat 64 (s.peekNat pa 8))

/-- Stores bytes at a physical address: memory, poison of the units covered, and everyone who watches the word. -/
def State.poke (s : State) (pa : Nat) (l : List Byte) : State :=
  let t := { s with mem := s.store pa l, poison := clearPoison s.poison (s.cell pa) l.length }
  { t with
    courses := t.courses.map (fun c =>
      (c.1, { c.2 with paths := c.2.paths.map (fun p => (p.1, { p.2 with wait := p.2.wait.touched t.goodWord pa l.length })) }))
    nodes := t.nodes.map (fun r => r.touched t.goodWord pa l.length) }

/-- Stores a number of n bytes. -/
def State.pokeNat (s : State) (pa n v : Nat) : State := s.poke pa (toLe n v)

/-- Copies bytes with their poison marks (R310): the destination units that receive a poisoned byte are marked. -/
def State.pokeFrom (s : State) (pa : Nat) (l : List Byte) (bad : Bool) : State :=
  let t := s.poke pa l
  if bad then t.markPoison pa l.length else t

/-! ### Line state (R127) -/

/-- Whether the line of a physical address has P = 1. -/
def State.present (s : State) (pa : Nat) : Bool := !(s.absent.contains (pa / 256))

/-- Whether a line holds only zeros: its Z bit, which always describes the data. -/
def State.zeroLine (s : State) (pa : Nat) : Bool := (s.peek (pa / 256 * 256) 256).all (fun b => b == 0)

/-- Clears P on lines, by line number. -/
def State.setAbsent (s : State) (l : List Nat) : State :=
  { s with absent := l.foldl (fun a x => if a.contains x then a else x :: a) s.absent }

/-- Sets P on lines, by line number. -/
def State.setPresent (s : State) (l : List Nat) : State :=
  { s with absent := s.absent.filter (fun x => !(l.contains x)) }

/-! ### Contexts and windows (R126, R275) -/

/-- The window of a context in a store: first line and count; none is (0, 0). -/
def State.window (s : State) (ctx w : Nat) : Nat × Nat :=
  match s.ctxs.find ctx with
  | some c => c.wins.getD w (0, 0)
  | none => (0, 0)

/-- Die, bay and bent of a core (R2). -/
def dieOf (core : Nat) : Nat := core / 48
/-- Bay die × 6 + bay of a core. -/
def bayOf (core : Nat) : Nat := core / 8
/-- Bent index of a core. -/
def bentOf (core : Nat) : Nat := core / 2

/-- The bent is in service (R11, R12). -/
def State.bentOn (s : State) (bent : Nat) : Bool := s.pkg.bentEn.getLsbD bent

/-- The partition of a context. -/
def State.partOf (s : State) (ctx : Nat) : Nat :=
  match s.ctxs.find ctx with
  | some c => c.part
  | none => 0

/-- Word k of a block held as a list. -/
def wordAt (l : List Word) (k : Nat) : Nat := (l.getD k 0).toNat

/-- Word k of a context's block. -/
def State.ctxWord (s : State) (ctx k : Nat) : Nat :=
  match s.ctxs.find ctx with
  | some c => wordAt c.block k
  | none => 0

/-- Word k of a partition's block; 0 without one. -/
def State.partWord (s : State) (part k : Nat) : Nat :=
  match s.parts.find part with
  | some p => wordAt p.block k
  | none => 0

/-- The context is marked system (R154, R273 SYSCTX). -/
def State.isSystem (s : State) (ctx : Nat) : Bool :=
  bits (s.partWord (s.partOf ctx) 8) 48 16 == ctx && ctx != 0xFFFF

/-! ### Page walks (R141 to R144) -/

/-- How an access fails in translation. -/
inductive XErr where
  /-- PAGE with a subcode and, at stage 2, the GPA -/
  | page (sub : BitVec 8) (gpa : Nat)
  /-- a poisoned table entry -/
  | poison
  deriving DecidableEq, Repr

/-- Subcode of PAGE for a scratch offset outside the window (R132). -/
def Sub.scr : BitVec 8 := 0x10
/-- R132. -/
def Sub.canon : BitVec 8 := 0x11
/-- R132. -/
def Sub.space : BitVec 8 := 0x12
/-- R211. -/
def Sub.bound : BitVec 8 := 0x13

/-- The stage bit of a translation subcode (R143). -/
def stageSub (stage2 : Bool) (n : BitVec 8) : BitVec 8 := if stage2 then n + 8 else n

/-- What a valid entry of a level is. -/
inductive Ent where
  | table (next : Nat)
  | leaf (l : Leaf)
  deriving DecidableEq, Repr

/-- The page kind of a KIND code (R142). -/
def PageKind.ofCode (n : Nat) : PageKind := if n = 0 then .so else if n = 1 then .rc else .un

/-- Checks an entry of a level in the order of R143; a leaf's frame is that of the 64 KiB page with index low in it. -/
def checkEntry (stage2 : Bool) (level : Nat) (space : Option Bool) (write : Bool) (low e : Nat) : Except (BitVec 8) Ent :=
  let leaf := nbit e 1
  let w := nbit e 2
  let priv := nbit e 61
  let kind := bits e 62 2
  let frame := bits e 16 36
  if !nbit e 0 then .error (stageSub stage2 1)
  else if level = 0 ∨ level = 1 ∨ (level = 2 ∧ !leaf) then
    if kind ≠ 0 then .error (stageSub stage2 3)
    else if bits e 52 9 ≠ 0 ∨ bits e 3 9 ≠ 0 ∨ priv ∨ leaf ∨ !w then .error (stageSub stage2 4)
    else .ok (.table (frame * 65536))
  else
    if !stage2 && space.isSome && leaf && space != some priv then .error Sub.space
    else if write && !w then .error (stageSub stage2 2)
    else if kind = 3 then .error (stageSub stage2 3)
    else if bits e 52 9 ≠ 0 ∨ bits e 3 9 ≠ 0 ∨ (stage2 ∧ priv) ∨ !leaf ∨ (level = 2 ∧ frame % 8192 ≠ 0) then
      .error (stageSub stage2 4)
    else .ok (.leaf { frame := if level = 2 then frame + low else frame, kind := PageKind.ofCode kind, priv := priv, w := w })

/-- Index of a page in a node of a level (R141). -/
def levelIndex (stage2 : Bool) (level page : Nat) : Nat :=
  if level = 0 then bits page 39 5 else if level = 1 then bits page 26 (if stage2 then 10 else 13)
  else if level = 2 then bits page 13 13 else bits page 0 13

/-- Walks the levels of a list from a node (R141, R143, R144): what it read and the leaf, or the failure, which names the GPA where one was
formed. rd reads the entry at an address, together with what that took. -/
def walkLevels (stage2 : Bool) (rd : Nat → List Seen × Except XErr Nat) (page : Nat) (space : Option Bool) (write : Bool) (gpa : Nat) :
    List Nat → Nat → List Seen × Except XErr Leaf
  | [], _ => ([], .error (.page (stageSub stage2 4) gpa))
  | level :: rest, base =>
    let addr := base + 8 * levelIndex stage2 level page
    let r := rd addr
    match r.2 with
    | .error e => (r.1, .error e)
    | .ok e =>
      let here : Seen := { stage2 := stage2, page := false, at_ := addr, level := level, entry := e }
      let last : Seen := { stage2 := stage2, page := true, at_ := page, level := level, entry := e }
      match checkEntry stage2 level space write (page % 8192) e with
      | .error b => (r.1 ++ [here, last], .error (.page b gpa))
      | .ok (.leaf l) => (r.1 ++ [here, last], .ok l)
      | .ok (.table next) =>
        let t := walkLevels stage2 rd page space write gpa rest next
        (r.1 ++ here :: t.1, t.2)

/-- What a core's translation cache holds at one stage for a page, or for the address of a table entry (R144); no core holds nothing. -/
def State.cached (s : State) (who : Option (Nat × Nat)) (stage2 page : Bool) (at_ : Nat) : Option Seen :=
  match who with
  | none => none
  | some (core, ctx) => (s.tlb.find? (fun i => i.core = core ∧ i.ctx = ctx ∧ i.what.stage2 = stage2 ∧ i.what.page = page ∧ i.what.at_ = at_)).map (·.what)

/-- Reads a table entry at a physical address: one plain load at its home. -/
def State.readEntry (s : State) (pa : Nat) : Except XErr Nat :=
  match s.poisoned pa 8 with
  | some _ => .error .poison
  | none => .ok (s.peekNat pa 8)

/-- Walks stage 2 for a GPA (R141), taking table entries from the cache where who is a core's. -/
def State.walk2 (s : State) (who : Option (Nat × Nat)) (part gpa : Nat) (write : Bool) : List Seen × Except XErr Leaf :=
  walkLevels true (fun pa => match s.cached who true false pa with
    | some i => ([], .ok i.entry)
    | none => ([], s.readEntry pa)) (gpa / 65536) none write gpa [1, 2, 3] (bits (s.partWord part 0) 16 36 * 65536)

/-- The leaf of a page at a stage: from the completed translation in the cache, checked as a fresh one is, or by a walk. -/
def State.leafOf (s : State) (who : Option (Nat × Nat)) (stage2 : Bool) (page : Nat) (space : Option Bool) (write : Bool) (gpa : Nat)
    (walk : List Seen × Except XErr Leaf) : List Seen × Except XErr Leaf :=
  match s.cached who stage2 true page with
  | none => walk
  | some i =>
    match checkEntry stage2 i.level space write (page % 8192) i.entry with
    | .error b => ([], .error (.page b gpa))
    | .ok (.leaf l) => ([], .ok l)
    | .ok (.table _) => walk

/-- Translates a GPA by stage 2 for a context: physical address and leaf, with what a walk read. -/
def State.stage2By (s : State) (who : Option (Nat × Nat)) (ctx gpa : Nat) (write : Bool) : List Seen × Except XErr (Nat × Leaf) :=
  let r := s.leafOf who true (gpa / 65536) none write gpa (s.walk2 who (s.partOf ctx) gpa write)
  (r.1, r.2.map (fun l => (l.frame * 65536 + gpa % 65536, l)))

/-- Translates a GPA by stage 2 on a core. -/
def State.stage2 (s : State) (core ctx gpa : Nat) (write : Bool) : Except XErr (Nat × Leaf) := (s.stage2By (some (core, ctx)) ctx gpa write).2

/-- Walks stage 1 for a page of VAs, each node address translated by stage 2 (R141). -/
def State.walk1 (s : State) (who : Option (Nat × Nat)) (ctx vpage : Nat) (space : Option Bool) (write : Bool) : List Seen × Except XErr Leaf :=
  let root := match s.ctxs.find ctx with
    | some c => bits (wordAt c.block 1) 16 36 * 65536
    | none => 0
  walkLevels false (fun gpa => match s.cached who false false gpa with
    | some i => ([], .ok i.entry)
    | none =>
      let r := s.stage2By who ctx gpa false
      (r.1, r.2.bind (fun p => s.readEntry p.1))) vpage space write 0 [0, 1, 2, 3] root

/-- The stronger of two kinds (R142). -/
def PageKind.stronger : PageKind → PageKind → PageKind
  | .so, _ => .so
  | _, .so => .so
  | .rc, _ => .rc
  | _, .rc => .rc
  | .un, .un => .un

/-- Translates a virtual address: physical address and effective kind (R132 orders 2, 4 and 5; R142). -/
def State.translate (s : State) (core ctx va : Nat) (space : Option Bool) (write : Bool) : Except XErr (Nat × PageKind) :=
  let who := some (core, ctx)
  if va ≥ 2 ^ 60 then .error (.page Sub.canon 0) else do
  let l1 ← (s.leafOf who false (va / 65536) space write 0 (s.walk1 who ctx (va / 65536) space write)).2
  let r ← s.stage2 core ctx (l1.frame * 65536 + va % 65536) write
  .ok (r.1, PageKind.stronger l1.kind r.2.kind)

/-- The stage-2 generation of a partition. -/
def State.s2gen (s : State) (part : Nat) : BitVec 32 :=
  match s.parts.find part with
  | some p => p.s2gen
  | none => 0

/-- The stage-1 generation of a context. -/
def State.s1gen (s : State) (ctx : Nat) : BitVec 32 :=
  match s.ctxs.find ctx with
  | some c => c.s1gen
  | none => 0

/-- A walk of a core for a VA that begins now (R144, R148): it records both generations and reads the tables as they stand, taking table
entries from the core's cache where it is warm; a poisoned entry ends it. -/
def State.walkOf (s : State) (core ctx va : Nat) (warm : Bool) : Walk :=
  let who := if warm then some (core, ctx) else none
  let gen := s.s1gen ctx
  let gen2 := s.s2gen (s.partOf ctx)
  let r := s.walk1 who ctx (va / 65536) none false
  let more := match r.2 with
    | .ok l => (s.walk2 who (s.partOf ctx) (l.frame * 65536 + va % 65536) false).1
    | .error _ => []
  { core := core, ctx := ctx, va := va, warm := warm, s1gen := gen, s2gen := gen2,
    items := (r.1 ++ more).map (fun i => { core := core, ctx := ctx, s1gen := gen, s2gen := gen2, what := i }) }

/-! ### The range-lock table (R163 to R166) -/

/-- Widens a byte range to whole 256-byte lines. -/
def lineRange (pa n : Nat) : Nat × Nat := (pa / 256 * 256, (pa + n + 255) / 256 * 256)

/-- The lowest entry that forbids a thread's access to a range, or an access of an operation other than own (R165). -/
def State.lockAt (s : State) (own : Nat) (pa n : Nat) (write : Bool) : Option (Nat × Lock) :=
  s.locks.find? (fun e => e.2.op ≠ own ∧ (write = true ∨ e.2.rw = true) ∧ e.2.lo < pa + n ∧ pa < e.2.hi)

/-- The place in the lock table that stands for a whole elastic array (R212, R213, log entry 24). -/
def arrayKey (ctx a : Nat) : Nat := 2 ^ 60 + (ctx * 2 ^ 20 + a) * 256

/-- The lowest free entry number. -/
def freeEntry (t : Tab Lock) : Option Nat := (List.range Config.lockEntries).find? (fun k => (t.find k).isNone)

/-- Registers one range, if an entry is free. -/
def State.register (s : State) (lo hi : Nat) (rw : Bool) (op : Nat) (cid : Option Nat) (bind : Bool) : Option State :=
  match freeEntry s.locks with
  | none => none
  | some k => some { s with locks := s.locks.put k { lo := lo, hi := hi, rw := rw, op := op, cid := cid, bind := bind, since := s.nextId } }

/-- Registers ranges as far as entries are free; the rest is returned (R163). -/
def State.registerAll (s : State) (op : Nat) (cid : Option Nat) (bind : Bool) :
    List (Nat × Nat × Bool) → State × List (Nat × Nat × Bool)
  | [] => (s, [])
  | (lo, hi, rw) :: l =>
    match s.register lo hi rw op cid bind with
    | some t => t.registerAll op cid bind l
    | none => (s, (lo, hi, rw) :: l)

/-- Releases the entries of an operation. -/
def State.unlock (s : State) (op : Nat) : State := { s with locks := s.locks.filter (fun e => e.2.op ≠ op) }

/-! ### Paged and scratch ranges -/

/-- The scratch unit that a scratch address names (R138): base of the unit and the window word of R275. -/
def scratchUnit (spc unit : Nat) : Option (Nat × Nat) :=
  if spc = 2 ∧ unit < 96 then some (coreBase unit, unit)
  else if spc = 3 ∧ unit < 12 then some (bayBase unit, 96 + unit)
  else if spc = 4 ∧ unit < 2 then some (dieBase unit, 108 + unit)
  else none

/-- Physical address of a scratch address and the bytes left in its window after it; none for SCR (R138). -/
def State.scratch (s : State) (ctx : Nat) (a : Word) : Option (Nat × Nat) :=
  let v := a.toNat
  match scratchUnit (bits v 60 4) (bits v 52 8) with
  | none => none
  | some (base, w) =>
    let win := s.window ctx w
    let off := bits v 0 32
    if bits v 32 20 ≠ 0 ∨ win.2 * 256 ≤ off then none
    else if bits v 60 4 = 2 ∧ !s.bentOn (bentOf (bits v 52 8)) then none
    else some (base + win.1 * 256 + off, win.2 * 256 - off)

/-- Whether an address names a scratchpad by its SPC (R138, R196, R214); any other non-zero SPC makes it no address at all (R132 CANON). -/
def isScratchAddr (a : Word) : Bool := decide (2 ≤ bits a.toNat 60 4) && decide (bits a.toNat 60 4 ≤ 4)

/-- Cuts the byte range [va, va + n) at 64 KiB pages: (first byte, length), at most fuel pieces. -/
def pieces : Nat → Nat → Nat → List (Nat × Nat)
  | 0, _, _ => []
  | fuel + 1, va, n =>
    if n = 0 then [] else
    let k := min n (65536 - va % 65536)
    (va, k) :: pieces fuel (va + k) (n - k)

/-- Physical pieces of a virtual or scratch range, or the first failing check. -/
def State.range (s : State) (core ctx : Nat) (a : Word) (n : Nat) (write : Bool) : Except XErr (List (Nat × Nat)) :=
  if isScratchAddr a then
    match s.scratch ctx a with
    | some (pa, left) => if n ≤ left then .ok [(pa, n)] else .error (.page Sub.scr 0)
    | none => .error (.page Sub.scr 0)
  else
    (pieces (n / 65536 + 2) a.toNat n).mapM (fun p => do
      let r ← s.translate core ctx p.1 none write
      .ok (r.1, p.2))

/-- The bytes of physical pieces. -/
def State.peekAll (s : State) (l : List (Nat × Nat)) : List Byte := l.flatMap (fun p => s.peek p.1 p.2)

/-- The first poisoned unit of physical pieces. -/
def State.poisonedAll (s : State) (l : List (Nat × Nat)) : Option Nat := l.findSome? (fun p => s.poisoned p.1 p.2)

/-- The first poisoned unit of physical pieces whose bytes follow one another from the address ref on. -/
def State.poisonedRun (s : State) : Nat → List (Nat × Nat) → Option Nat
  | _, [] => none
  | ref, p :: t =>
    match s.poisonedAs ref p.1 p.2 with
    | some u => some u
    | none => s.poisonedRun (ref + p.2) t

/-- Stores bytes over physical pieces, carrying a poison mark where bad. -/
def State.pokeAll (s : State) (l : List (Nat × Nat)) (bs : List Byte) (bad : Bool) : State :=
  (l.foldl (fun (acc : State × List Byte) p => (acc.1.pokeFrom p.1 (acc.2.take p.2) bad, acc.2.drop p.2)) (s, bs)).1

/-- Clears the marks of the units that ranges cover whole when taken together: one store, whatever its pieces (R310). -/
def State.clearWhole (s : State) (l : List (Nat × Nat)) : State :=
  let marked := (l.flatMap (fun p => (poisonUnits (s.cell p.1) p.2).map (fun k => (k, p.1 / poisonUnit (s.cell p.1) * poisonUnit (s.cell p.1)
    + (k - s.cell p.1 / poisonUnit (s.cell p.1) * poisonUnit (s.cell p.1)))))).filter (fun u => s.poison.contains u.1)
  let gone := marked.filter (fun u => (List.range (poisonUnit u.1)).all (fun i => l.any (fun p => decide (p.1 ≤ u.2 + i) && decide (u.2 + i < p.1 + p.2))))
  { s with poison := s.poison.filter (fun k => !gone.any (fun u => u.1 == k)) }

/-- The bytes of physical pieces with a mark for each, none listed when no poison exists at all. -/
def State.readMarked (s : State) (l : List (Nat × Nat)) : List Byte × List Bool :=
  (s.peekAll l, if s.poison.isEmpty then [] else
    l.flatMap (fun p => (List.range p.2).map (fun i => (s.poisoned (p.1 + i) 1).isSome)))

/-- Stores bytes over physical pieces and marks the units that receive a marked byte (R310). -/
def State.writeMarked (s : State) (l : List (Nat × Nat)) (d : List Byte × List Bool) : State :=
  let s := (s.clearWhole l).pokeAll l d.1 false
  if d.2.any id then
    ((l.flatMap (fun p => (List.range p.2).map (fun i => p.1 + i))).zip d.2).foldl (fun s e =>
      if e.2 then s.markPoison e.1 1 else s) s
  else s

end Sys2Proof.Machine
end

