-- ==== Sys2Proof/Machine/Ops.lean ====
section
/-!
DEFINITION. The named operations every meaning is written over: courses and paths, registers, time, readiness, issuing an
instruction, taking a trap and returning from one, restarting a region.
-/

namespace Sys2Proof.Machine

/-! ### Time (R5, R322, R325) -/

/-- Time after k periods of the arithmetic clock. -/
def Time.advance (t : Time) (k : Nat) : Time :=
  let num := t.frac + 1000 * k * ((1000000 + t.ppm).toNat)
  let den := 1000000 * t.mhz
  if den = 0 then { t with clk := t.clk + k }
  else { t with clk := t.clk + k, ns := t.ns + num / den, frac := num % den }

/-- The clk the next instruction takes: the head of pace, or one (log entry 5). -/
def State.tick (s : State) : State :=
  { s with time := s.time.advance (s.pace.headD 1), pace := s.pace.tail }

/-- A fresh free value (log entry 8). -/
def State.freeWord (s : State) : Word × State := (Config.freeValue s.free, { s with free := s.free + 1 })

/-! ### Lanes -/

/-- The lanes 0 to 63. -/
def lanes64 : List Nat := List.range 64

/-- A mask of the lanes that satisfy a test. -/
def maskOf (f : Nat → Bool) : LaneMask :=
  BitVec.ofNat 64 (lanes64.foldl (fun n l => if f l then n + 2 ^ l else n) 0)

/-- The lanes of a mask, ascending. -/
def lanesOf (m : LaneMask) : List Nat := lanes64.filter (fun l => m.getLsbD l)

/-- The lowest lane of a mask; 0 of an empty one. -/
def lowLane (m : LaneMask) : Nat := (lanesOf m).headD 0

/-- Lane l's nesting counter (R72). -/
def cOf (c : BitVec 512) (l : Nat) : Nat := (c.extractLsb' (8 * l) 8).toNat

/-- Sets the nesting counters of every lane by a function. -/
def cMap (c : BitVec 512) (f : Nat → Nat → Nat) : BitVec 512 :=
  BitVec.ofNat 512 (lanes64.foldl (fun n l => n + (f l (cOf c l) % 256) * 2 ^ (8 * l)) 0)

/-! ### Courses and paths -/

/-- Replaces a course. -/
def State.setCourse (s : State) (cid : Nat) (c : Course) : State := { s with courses := s.courses.put cid c }

/-- Changes a course in place. -/
def State.modCourse (s : State) (cid : Nat) (f : Course → Course) : State :=
  match s.courses.find cid with
  | some c => s.setCourse cid (f c)
  | none => s

/-- Changes a path of a course in place. -/
def Course.modPath (c : Course) (p : Nat) (f : Path → Path) : Course :=
  match c.paths.find p with
  | some q => { c with paths := c.paths.put p (f q) }
  | none => c

/-- Replaces a path of a course. -/
def State.setPath (s : State) (cid p : Nat) (q : Path) : State :=
  match s.courses.find cid with
  | some c => s.setCourse cid { c with paths := c.paths.put p q }
  | none => s

/-- Frees a path slot of a course. -/
def State.dropPath (s : State) (cid p : Nat) : State :=
  match s.courses.find cid with
  | some c => s.setCourse cid { c with paths := c.paths.del p }
  | none => s

/-- A path of a course. -/
def State.path (s : State) (cid p : Nat) : Option Path :=
  match s.courses.find cid with
  | some c => c.paths.find p
  | none => none

/-- A course with nothing in it: the view that a walker or cairn has of a core and a context. -/
def Course.blank (core ctx : Nat) : Course :=
  { ctx := ctx, kern := 0, index := 0, core := core, cslot := 0, segbase := 0, rows := 0, lo := 0, hw := 0, res := 0, priv := 0,
    started := false, saved := false, spl := 0, flushed := [], reclaimed := none, moved := none, borrowed := false, first := none,
    hm := [], told := false, drain := false, stack := 0, stackFm := [], scal := [], preds := [], c := 0, x := 0, k := 0, exited := 0,
    crew := [], crewRd := [], xr := 0, xseq := 0, ne := false, ex := false, flags := [], acc := 0, kst := 0, sig := 0, regpc := 0, clamped := false,
    region := { depth := 0, lwb := 0, fmask := 0, d := 0, prio := 0, acc := 0, xseq := 0, restarts := 0 }, shapes := [], binds := [],
    barE := [], barA := [], paths := [], lastPath := 0, passed := 0, forced := none, fences := [], mq := [], tilesOut := 0, sPoison := 0,
    pPoison := 0, xPoison := false }

/-- The issue slot of a course (R65): core · 4 + course slot mod 4. -/
def Course.slot (c : Course) : Nat := c.core * 4 + c.cslot % 4

/-- An issue slot; before its first arbitration its last winner is its highest course slot (R70). -/
def State.slotOf (s : State) (k : Nat) : Slot := s.slots.getD k { busy := none, last := 28 + k % 4, issued := none }

/-- What an instruction sees of the path that issues it. -/
structure Env where
  slot : Nat
  cid : Nat
  p : Nat
  co : Course
  pa : Path
  deriving DecidableEq, Repr

/-- The path that holds the issue slot whose turn it is. -/
def State.issuing (s : State) : Option Env :=
  match s.cur with
  | none => none
  | some k =>
    match (s.slotOf k).busy with
    | none => none
    | some (cid, p) =>
      match s.courses.find cid with
      | none => none
      | some co =>
        match co.paths.find p with
        | none => none
        | some pa => some { slot := k, cid := cid, p := p, co := co, pa := pa }

/-- F of R72: lanes of the path in its frame mask that have not exited. -/
def Env.F (e : Env) : LaneMask := e.pa.lanes &&& e.pa.fmask &&& ~~~e.co.exited

/-- The active lanes: those of F whose c is 0 (R72). -/
def Env.active (e : Env) : LaneMask := e.F &&& maskOf (fun l => cOf e.co.c l == 0)

/-- A predicate as a mask over the lanes (R66). -/
def Course.pred (c : Course) (n : Nat) : LaneMask := c.preds.getD n 0

/-- The lanes whose guard is true (R39). -/
def Course.guard (c : Course) : Guard → LaneMask
  | .always => BitVec.allOnes 64
  | .on p neg => if neg then ~~~(c.pred p.toNat) else c.pred p.toNat

/-- The active lanes whose guard is true (R39). -/
def Env.acting (e : Env) (x : Args) : LaneMask := e.active &&& e.co.guard x.g

/-- A scalar register (R66). -/
def Course.scalar (c : Course) (n : Nat) : Word := c.scal.getD n 0

/-- Writes a scalar and clears its poison mark (R310). -/
def Course.setScalar (c : Course) (n : Nat) (v : Word) : Course :=
  { c with scal := c.scal.set 0 n v, sPoison := c.sPoison &&& ~~~(BitVec.ofNat 64 (2 ^ n)) }

/-- Writes lanes of a predicate; a predicate written in every lane loses its poison mark. -/
def Course.setPred (c : Course) (n : Nat) (lanes v : LaneMask) : Course :=
  { c with preds := c.preds.set 0 n ((c.pred n &&& ~~~lanes) ||| (v &&& lanes)),
           pPoison := if lanes = BitVec.allOnes 64 then c.pPoison &&& ~~~(BitVec.ofNat 64 (2 ^ n)) else c.pPoison }

/-- Writes a scalar of a course. -/
def State.setScalar (s : State) (cid n : Nat) (v : Word) : State :=
  match s.courses.find cid with
  | some c => s.setCourse cid (c.setScalar n v)
  | none => s

/-- Writes lanes of a predicate of a course. -/
def State.setPred (s : State) (cid n : Nat) (lanes v : LaneMask) : State :=
  match s.courses.find cid with
  | some c => s.setCourse cid (c.setPred n lanes v)
  | none => s

/-! ### Vector registers (R104) -/

/-- Key of the physical row that holds logical row L of a course. -/
def Course.rowKey (c : Course) (L : Nat) : Nat :=
  c.core * Config.fileRows + (c.segbase + (if c.rows = 0 then 0 else L % c.rows)) % Config.fileRows

/-- A logical row of a course. -/
def State.row (s : State) (c : Course) (L : Nat) : BitVec 2048 := s.rows.getD (c.rowKey L) 0

/-- Lane l of a row. -/
def rowLane (r : BitVec 2048) (l : Nat) : Nat := (r.extractLsb' (32 * l) 32).toNat

/-- A row with the listed lanes replaced. -/
def rowPut (r : BitVec 2048) (vals : List (Nat × Nat)) : BitVec 2048 :=
  vals.foldl (fun r v =>
    (r &&& ~~~(BitVec.ofNat 2048 ((2 ^ 32 - 1) <<< (32 * v.1)))) ||| BitVec.ofNat 2048 ((v.2 % 2 ^ 32) <<< (32 * v.1))) r

/-- The pairs of lanes both of whose lanes are listed. -/
def pairsWritten (vals : List (Nat × Nat)) : BitVec 32 :=
  BitVec.ofNat 32 ((List.range 32).foldl (fun n j =>
    if vals.any (fun v => v.1 = 2 * j) && vals.any (fun v => v.1 = 2 * j + 1) then n + 2 ^ j else n) 0)

/-- Writes lanes of the physical row with this key; a pair of lanes written together loses its poison mark (R305). -/
def State.putRow (s : State) (key : Nat) (vals : List (Nat × Nat)) : State :=
  { s with rows := s.rows.set 0 key (rowPut (s.rows.getD key 0) vals),
           rowPoison := s.rowPoison.set 0 key (s.rowPoison.getD key 0 &&& ~~~(pairsWritten vals)) }

/-- Writes lanes of v_r in the window at lwb; wide values fill the pair v_r, v_r+1 (R16, R83). -/
def State.putVec (s : State) (c : Course) (lwb r : Nat) (wide : Bool) (vals : List (Nat × Nat)) : State :=
  let t := s.putRow (c.rowKey (lwb + r)) vals
  if wide then t.putRow (c.rowKey (lwb + r + 1)) (vals.map (fun v => (v.1, v.2 >>> 32))) else t

/-- Lane l of v_r, or of the pair v_r, v_r+1. -/
def State.vec (s : State) (c : Course) (lwb r : Nat) (wide : Bool) (l : Nat) : Nat :=
  rowLane (s.row c (lwb + r)) l + (if wide then 2 ^ 32 * rowLane (s.row c (lwb + r + 1)) l else 0)

/-! ### Traps: classes and causes (R297) -/

/-- ILLEGAL with a subcode (R51). -/
def Trap.illegal (sub : BitVec 8) : Trap := { cls := 0x01, sub := sub }
/-- ILLEGAL FIELD. -/
def Trap.field : Trap := Trap.illegal Sub.field
/-- WSPILL or WFILL with its signed count (R109). -/
def Trap.window (k : Int) : Trap :=
  { cls := if 0 ≤ k then 0x02 else 0x03, sub := 0, info := BitVec.ofInt 64 k }
/-- OVL (R34, R74). -/
def Trap.ovl : Trap := { cls := 0x04, sub := 0 }
/-- RLOCK for a lock entry met by a course (R166). -/
def Trap.rlock (entry : Nat) (l : Lock) (cid : Nat) (lane : Nat) (addr : Nat) : Trap :=
  { cls := 0x05, sub := if l.bind && l.cid == some cid then 2 else 1, lane := BitVec.ofNat 8 lane,
    addr := BitVec.ofNat 64 addr, info := BitVec.ofNat 64 entry }
/-- PAGE with a subcode. -/
def Trap.page (sub : BitVec 8) (lane addr gpa : Nat) : Trap :=
  { cls := 0x06, sub := sub, lane := BitVec.ofNat 8 lane, addr := BitVec.ofNat 64 addr, info := BitVec.ofNat 64 gpa }
/-- PRIVHW (R129). -/
def Trap.privhw (lane addr : Nat) : Trap :=
  { cls := 0x07, sub := 0, lane := BitVec.ofNat 8 lane, addr := BitVec.ofNat 64 addr }
/-- POISON naming a lane and the first poisoned unit (R305). -/
def Trap.poison (lane addr : Nat) : Trap :=
  { cls := 0x08, sub := 0, lane := BitVec.ofNat 8 lane, addr := BitVec.ofNat 64 addr }
/-- SIG with a subcode (R302, R307, R309). -/
def Trap.sig (sub : BitVec 8) (info : Nat) : Trap := { cls := 0x09, sub := sub, info := BitVec.ofNat 64 info }
/-- GATE (R291). -/
def Trap.gate (sub : BitVec 8) (name : Nat) : Trap := { cls := 0x0A, sub := sub, info := BitVec.ofNat 64 name }
/-- PEG (R181). -/
def Trap.peg (sub : BitVec 8) (lane : Nat) (addr : Nat) : Trap :=
  { cls := 0x0C, sub := sub, lane := BitVec.ofNat 8 lane, addr := BitVec.ofNat 64 addr }
/-- SLICE (R123). -/
def Trap.slice (sub : BitVec 8) (lane : Nat) : Trap := { cls := 0x0D, sub := sub, lane := BitVec.ofNat 8 lane }
/-- ALIGN. -/
def Trap.align (lane addr : Nat) : Trap :=
  { cls := 0x0E, sub := 0, lane := BitVec.ofNat 8 lane, addr := BitVec.ofNat 64 addr }
/-- USER (R302). -/
def Trap.user (k : BitVec 8) : Trap := { cls := 0x0F, sub := k, info := k.setWidth 64 }

/-- The trap, naming the lane in which its cause arose (R298). -/
def Trap.onLane (t : Trap) (lane : Nat) : Trap := { t with lane := BitVec.ofNat 8 lane }

/-- An answer whose trap names the lane in which its cause arose. -/
def onLane {α : Type} (lane : Nat) : Except Trap α → Except Trap α
  | .ok a => .ok a
  | .error t => .error (t.onLane lane)

/-- The trap of a failed translation. -/
def XErr.trap (e : XErr) (lane addr : Nat) : Trap :=
  match e with
  | .page sub gpa => Trap.page sub lane addr gpa
  | .poison => Trap.poison lane addr

/-! ### The private stack region (R105, R129) -/

/-- Physical address of n bytes at an offset of the course's private region, or the trap of the access. -/
def State.privAt (s : State) (c : Course) (off n : Nat) (write : Bool) : Except Trap Nat :=
  let va := c.priv + off
  if c.res * 65536 < off + n then .error (Trap.page 1 0xFF va 0) else
  match s.translate c.core c.ctx va (some true) write with
  | .error e => .error (e.trap 0xFF va)
  | .ok r => if c.hw * 65536 < off + n then .error (Trap.privhw 0xFF va) else .ok r.1

/-- Reads n bytes of the private region, with the poison check of R132. -/
def State.privRead (s : State) (c : Course) (off n : Nat) : Except Trap Nat := do
  let pa ← s.privAt c off n false
  match s.poisonedAs (c.priv + off) pa n with
  | some u => .error (Trap.poison 0xFF u)
  | none => .ok (s.peekNat pa n)

/-- Writes n bytes of the private region. -/
def State.privWrite (s : State) (c : Course) (off n v : Nat) : Except Trap State := do
  let pa ← s.privAt c off n true
  .ok (s.pokeNat pa n v)

/-- Writes n bytes of the private region where the page takes them, and leaves memory as it is otherwise (log entry 14). -/
def State.privTry (s : State) (c : Course) (off n v : Nat) : State :=
  match s.translate c.core c.ctx (c.priv + off) (some true) true with
  | .ok r => s.pokeNat r.1 n v
  | .error _ => s

/-- Reads n bytes of the private region; zero where the page does not give them. -/
def State.privSee (s : State) (c : Course) (off n : Nat) : Nat :=
  match s.translate c.core c.ctx (c.priv + off) (some true) false with
  | .ok r => s.peekNat r.1 n
  | .error _ => 0

/-! ### The save area (R280) -/

/-- VA of an offset in a course's record. -/
def State.recordVa (s : State) (c : Course) (off : Nat) : Nat := s.ctxWord c.ctx 9 + 196608 * (32 * c.core + c.cslot) + off

/-- Physical address of an offset in a course's record, if its page is mapped for the access. -/
def State.recordAt (s : State) (c : Course) (off : Nat) (write : Bool) : Option Nat :=
  match s.translate c.core c.ctx (s.recordVa c off) none write with
  | .ok r => some r.1
  | .error _ => none

/-- Word 0 of a record's header. -/
def Course.header (c : Course) : Nat := c.ctx * 2 ^ 48 + c.segbase * 2 ^ 32 + c.rows * 2 ^ 16 + 1

/-- The header and SPL words of a record: offset, bytes and value. -/
def Course.headWords (c : Course) (node : Option (Nat × Nat)) : List (Nat × Nat × Nat) :=
  [(0x000, 8, c.header), (0x008, 8, c.index % 2 ^ 32 * 2 ^ 32 + c.hw % 2 ^ 32),
   (0x010, 8, match node with
     | some n => n.1 * 2 ^ 16 + n.2
     | none => 0),
   (0x018, 40, 0), (0x040, 64, c.spl.toNat)]

/-- Stores words at offsets of one 64 KiB page of a record. -/
def State.putWords (s : State) (pa : Nat) (l : List (Nat × Nat × Nat)) : State :=
  l.foldl (fun s w => s.pokeNat (pa + w.1) w.2.1 w.2.2) s

/-- The node of a course's kernel. -/
def State.courseNode (s : State) (c : Course) : Option (Nat × Nat) := (s.kernels.find c.kern).bind (·.node)

/-- Stores the header and SPL of a course. -/
def State.saveHead (s : State) (c : Course) : Option State :=
  (s.recordAt c 0 true).map (fun pa => s.putWords pa (c.headWords (s.courseNode c)))

/-- VA of a tile's image in the save area of its owner (R280). -/
def State.tileImage (s : State) (ctx k : Nat) : Nat := s.ctxWord ctx 9 + 0x24000000 + 49216 * k

/-! ### Trap records (R298) -/

/-- Offset of word k of the trap record of path slot p. -/
def recOff (p k : Nat) : Nat := 0x103000 + 128 * p + 8 * k

/-- Word k of a path slot's trap record. -/
def State.recWord (s : State) (c : Course) (p k : Nat) : Nat := s.privSee c (recOff p k) 8

/-- Writes words of a path slot's trap record. -/
def State.recWrite (s : State) (c : Course) (p : Nat) (l : List (Nat × Nat)) : State :=
  l.foldl (fun s w => s.privTry c (recOff p w.1) 8 w.2) s

/-- Word 0 of a record. -/
def recWord0 (t : Trap) (ovl idx : Nat) : Nat :=
  t.cls.toNat * 2 ^ 56 + t.sub.toNat * 2 ^ 48 + t.lane.toNat * 2 ^ 40 + ovl * 2 ^ 16 + idx

/-! ### Notices (R315) -/

/-- The context enabled first in a partition: the fault ring's addresses are its (R315). -/
def State.firstCtx (s : State) (part : Nat) : Option Nat :=
  let l := s.ctxs.filter (fun c => c.2.part = part)
  match l with
  | [] => none
  | a :: l => some (l.foldl (fun b c => if c.2.order < b.2.order then c else b) a).1

/-- The physical place of the ring's next entry: none while the ring is full, has no size, or has no page that takes it (R315). -/
def State.ringPlace (s : State) (part : Nat) (p : Partition) : Option Nat :=
  if p.ringLog < 4 ∨ 20 < p.ringLog ∨ 2 ^ p.ringLog ≤ (p.prod - p.cons).toNat then none else
  match s.firstCtx part with
  | none => none
  | some ctx =>
    match s.translate 0 ctx (p.ringBase.toNat + 32 * (p.prod.toNat % 2 ^ p.ringLog)) none true with
    | .ok r => some r.1
    | .error _ => none

/-- Writes waiting notices into the ring, in their order, as long as it takes them; the others go on waiting (R315). -/
def State.flushList (part : Nat) : List Notice → State → Partition → State × Partition
  | [], s, p => (s, { p with notices := [] })
  | n :: t, s, p =>
    match s.ringPlace part p with
    | none => (s, { p with notices := n :: t })
    | some pa =>
      let w1 := n.ctx * 2 ^ 48 + n.src * 2 ^ 32 + n.cls.toNat * 2 ^ 24 + n.sub.toNat * 2 ^ 16
      State.flushList part t (s.poke pa (toLe 8 n.stamp ++ toLe 8 w1 ++ toLe 16 0)) { p with prod := p.prod + 1 }

/-- Writes a partition's waiting notices into its ring while it takes them (R315). -/
def State.flushNotices (s : State) (part : Nat) : State :=
  match s.parts.find part with
  | none => s
  | some p =>
    let r := State.flushList part p.notices s p
    { r.1 with parts := r.1.parts.put part r.2 }

/-- A list of waiting notices with one more, which stands before those of a later time and, at the same time, of a higher source (R321). -/
def addNotice (n : Notice) : List Notice → List Notice
  | [] => [n]
  | m :: t => if decide (n.stamp < m.stamp) || (n.stamp == m.stamp && decide (n.src < m.src)) then n :: m :: t else m :: addNotice n t

/-- Gives a partition's driver a notice. -/
def State.notify (s : State) (part : Nat) (n : Notice) : State :=
  match s.parts.find part with
  | none => s
  | some p => State.flushNotices { s with parts := s.parts.put part { p with notices := addNotice n p.notices } } part

/-- Source number of a course's event (R321). -/
def courseSource (core cslot p : Nat) : Nat := core * 64 + cslot * 2 + p

/-! ### Ending a run (R40, R70, R77) -/

/-- Frees the issue slot a path holds. -/
def State.leaveSlot (s : State) (k : Nat) : State :=
  { s with slots := s.slots.put k { s.slotOf k with busy := none },
           cur := if s.cur = some k then none else s.cur }

/-- Counts a completed run of path p against its demoted sibling (R77). -/
def Course.runDone (c : Course) (p : Nat) : Course :=
  let other := 1 - p
  match c.paths.find other with
  | some q =>
    match q.demoted with
    | some n => { c with lastPath := p, paths := c.paths.put other { q with demoted := if 63 ≤ n then none else some (n + 1) } }
    | none => { c with lastPath := p }
  | none => { c with lastPath := p }

/-- Ends the run of path p of a course: the slot is free, the sibling's demotion is counted. -/
def State.endRun (s : State) (slot cid p : Nat) : State :=
  let s := s.leaveSlot slot
  match s.courses.find cid with
  | some c => s.setCourse cid (c.runDone p)
  | none => s

/-! ### Restart (R304) -/

/-- Outstanding operations of a course. -/
def State.opsOf (s : State) (cid : Nat) : List (Nat × Op) := s.ops.filter (fun o => o.2.cid = some cid)

/-- Whether an operation is a queued matrix operation. -/
def Op.isMat (o : Op) : Bool :=
  match o.kind with
  | .mat _ => true
  | _ => false

/-- Lowers the count of a flag of a course (R42). -/
def Course.lower (c : Course) (f : Option (BitVec 4)) : Course :=
  match f with
  | some n => { c with flags := c.flags.set 0 n.toNat (c.flags.getD n.toNat 0 - 1) }
  | none => c

/-- Lowers the count of a flag in the record of a course whose slot has been claimed (R42, R139, R278). -/
def State.lowerSaved (s : State) (c : Course) (f : Option (BitVec 4)) : State :=
  match f with
  | none => s
  | some n =>
    if !c.saved then s else
    match s.recordAt c 0x290 true with
    | none => s
    | some pa =>
      let v := s.peekNat pa 16
      if bits v (6 * n.toNat) 6 = 0 then s else s.pokeNat pa 16 (v - 2 ^ (6 * n.toNat))

/-- Removes an operation and lowers its flag: its completion (R42). -/
def State.finishOp (s : State) (id : Nat) : State :=
  match s.ops.find id with
  | none => s
  | some o =>
    let s := { s with ops := s.ops.del id }
    match o.cid with
    | some cid =>
      match s.courses.find cid with
      | some c => (s.setCourse cid (c.lower o.flag)).lowerSaved c o.flag
      | none => s
    | none => s

/-- The weight lines of an operation in progress that have not arrived get P = 1 again with their old data (R196, R208). -/
def State.dropBent (s : State) (id : Nat) : State :=
  { s with
    absent := s.absent.filter (fun l => !(s.bents.any (fun b =>
      b.2.cur = some id && b.2.todo.any (fun j =>
        l == (weightBase (2 * b.1)) / 256 + j || l == (weightBase (2 * b.1 + 1)) / 256 + j))))
    bents := s.bents.map (fun b => if b.2.cur = some id then (b.1, { b.2 with cur := none, todo := [], done := false }) else b) }

/-- The operation works on a tile. -/
def MatKind.onTile : MatKind → Bool
  | .wbld | .spdg | .spsal => false
  | _ => true

/-- A RELEASING tile whose holder has no entry for it left becomes FREE (R189). -/
def State.drainTiles (s : State) (cid : Nat) : State :=
  match s.courses.find cid with
  | none => s
  | some c =>
    { s with tiles := s.tiles.map (fun e =>
        if e.2.st = .releasing cid && !(s.opsOf cid).any (fun o => match o.2.kind with
            | .mat m => m.kind.onTile && (8 * bentOf c.core + m.tile == e.1)
            | _ => false)
        then (e.1, { e.2 with st := .free, last := some c.ctx }) else e) }

/-- A tile is a course's own: held by it, or on its way from it. -/
def State.ownTile (s : State) (cid k : Nat) : Bool :=
  match s.tiles.find k with
  | some t => t.st == .held cid || t.st == .releasing cid || t.st == .saving cid
  | none => false

/-- Clears ACT of a tile of a course, where it stands: in the bent, or in its image (R190, R208). -/
def State.abandon (s : State) (cid tile : Nat) : State :=
  match s.courses.find cid with
  | none => s
  | some c =>
    let k := 8 * bentOf c.core + tile
    if s.ownTile cid k then
      match s.tiles.find k with
      | some t => { s with tiles := s.tiles.put k { t with act := false } }
      | none => s
    else if !c.tilesOut.getLsbD tile then s else
    match s.translate c.core c.ctx (s.tileImage c.ctx k + 49152 + 8) none true with
    | .ok r => s.pokeNat r.1 4 (s.peekNat r.1 4 % 2 ^ 31)
    | .error _ => s

/-- Discards the queued matrix operations of a course; their flag counts fall and %mstep.ACT is cleared (R208). -/
def State.dropMats (s : State) (cid : Nat) : State :=
  let l := (s.opsOf cid).filter (fun o => o.2.isMat)
  let s := l.foldl (fun s o =>
    let s := s.dropBent o.1
    let s := match o.2.kind with
      | .mat m => if m.kind.onTile then s.abandon cid m.tile else s
      | _ => s
    (s.unlock o.1).finishOp o.1) s
  match s.courses.find cid with
  | some c => (s.setCourse cid { c with mq := [] }).drainTiles cid
  | none => s

/-- The packed code address that no region leaves in %regpc (R303). -/
def noRegion : BitVec 32 := BitVec.allOnes 32

/-- Begins a restart: paths stop, queued matrix entries are discarded, the rest waits for outstanding operations. -/
def State.restart (s : State) (cid : Nat) : State :=
  let s := s.dropMats cid
  match s.courses.find cid with
  | some c => s.setCourse cid { c with drain := true, region := { c.region with restarts := c.region.restarts + 1 } }
  | none => s

/-- Resumes a drained course at %regpc in its region state (R304). -/
def Course.resumeRegion (c : Course) : Course :=
  let r := c.region
  { c with
    drain := false, flags := [], stack := 0, stackFm := [], lastPath := 0, fences := [],
    c := cMap c.c (fun l v => if r.fmask.getLsbD l then 0 else v),
    x := c.x &&& ~~~r.fmask, k := c.k &&& ~~~r.fmask,
    acc := r.acc, xseq := r.xseq, sig := 0,
    paths := [(0, { ovl := (c.regpc.extractLsb' 16 16).toNat, idx := (c.regpc.extractLsb' 0 16).toNat,
                    lanes := (c.paths.foldl (fun m p => m ||| p.2.lanes) 0) ||| r.fmask,
                    fmask := r.fmask, d := r.d, prio := r.prio, demoted := none, lwb := r.lwb, depth := r.depth,
                    jidx := none, run := none, wait := .nothing, late := [], shim := none, ent := [], offer := none, gap := false, stopped := false })] }

/-! ### Taking a trap (R297 to R301) -/

/-- Whether the core's overlay slot 0 holds a shim. -/
def State.hasShim (s : State) (core : Nat) : Bool :=
  match s.ovls.find (core * 8) with
  | some o => o.loaded
  | none => false

/-- Whether the class and subcode name the shim as receiver (R297). -/
def Trap.toShim (t : Trap) : Bool :=
  let c := t.cls.toNat
  c == 0x02 || c == 0x03 || (c == 0x05 && t.sub == 1) || (c == 0x0A && (t.sub == 1 || t.sub == 2)) || c == 0x0B
    || (c == 0x0F && t.sub != 0xFF)

/-- Whether the trap restarts a course (R297, R304). -/
def Trap.restarts (t : Trap) : Bool := !t.stay && (t.cls == 0x08 || (t.cls == 0x09 && t.sub == 1))

/-- The words of a fresh trap record (R298): the trap of the instruction at (ovl, idx), raised with the path to resume at the
path's own code address. Words 4 to 11 are written when the shim is entered, words 12 to 14 by a trap inside it. -/
def recordWords (c : Course) (p : Nat) (q : Path) (t : Trap) (ovl idx : Nat) (defer : Bool) : List (Nat × Nat) :=
  [(0, recWord0 t ovl idx), (1, t.addr.toNat), (2, t.info.toNat), (3, p * 2 ^ 63 + c.sig.toNat)]
  ++ [(15, (if defer then 2 ^ 63 else 0) + q.ovl * 2 ^ 16 + q.idx)]

/-- Enters the trap shim (R299): s56 to s63 are stored in the record, s62 and s63 set, c, X, K and d held. -/
def State.enterShim (s : State) (cid p : Nat) (t : Trap) : State :=
  let s := match s.courses.find cid with
    | some c => s.recWrite c p ((List.range 8).map (fun i => (4 + i, (c.scalar (56 + i)).toNat)))
    | none => s
  match s.courses.find cid with
  | none => s
  | some c =>
    match c.paths.find p with
    | none => s
    | some q =>
      let c' := (c.setScalar 63 (BitVec.ofNat 64 (c.priv + recOff p 0))).setScalar 62
        (BitVec.ofNat 64 (t.cls.toNat * 256 + t.sub.toNat))
      let m := q.fmask
      s.setCourse cid { c' with
        c := cMap c.c (fun l v => if m.getLsbD l then 0 else v), x := c.x &&& ~~~m, k := c.k &&& ~~~m,
        paths := c.paths.put p { q with
          ovl := 0, idx := 16 * t.cls.toNat, d := 0, run := none, wait := .nothing, ent := [],
          shim := some { c := c.c, x := c.x, k := c.k, d := q.d, run := q.run, ent := q.ent } } }

/-- MOVED (R309): the path stands at its resumption point, whatever it waits for there. -/
def Trap.moved (t : Trap) : Bool := t.cls == 0x09 && t.sub == 2

/-- Stops a path for the driver or hypervisor and sends the notice (R301). A PRIVHW stores the header of the course record first, so that
the driver finds HW there and may raise it (R129, log entry 115). -/
def State.stopForDriver (s : State) (cid p : Nat) (t : Trap) : State :=
  match s.courses.find cid with
  | none => s
  | some c =>
    match c.paths.find p with
    | none => s
    | some q =>
      let s := if t.cls = 0x07 then (s.saveHead c).getD s else s
      let s := s.setPath cid p { q with stopped := true, wait := if t.moved then q.wait else .nothing }
      s.notify (s.partOf c.ctx)
        { stamp := s.time.ns, ctx := c.ctx, src := courseSource c.core c.cslot p, cls := t.cls, sub := t.sub }

/-- TAKES A TRAP: the one operation by which every trap is delivered. The trap was raised by the instruction at (ovl, idx);
the path's own code address is where it resumes. A trap inside the shim is DOUBLE and goes to the driver (R299); an error
that a region can restart restarts it, at most twice (R304); otherwise the class's receiver takes it (R297). -/
def State.deliver (s : State) (cid p : Nat) (t : Trap) (ovl idx : Nat) (defer : Bool) : State :=
  match s.courses.find cid with
  | none => s
  | some c =>
    match c.paths.find p with
    | none => s
    | some q =>
      if q.shim.isSome then
        let w3 := s.recWord c p 3
        let s := s.recWrite c p [(3, w3 % 2 ^ 62 + 2 ^ 62 + (w3 / 2 ^ 63) * 2 ^ 63), (12, recWord0 t ovl idx),
          (13, t.addr.toNat), (14, t.info.toNat)]
        s.stopForDriver cid p t
      else if t.restarts && c.regpc != noRegion && decide (c.region.restarts < 2) then s.restart cid
      else
        let s := s.recWrite c p (recordWords c p q t ovl idx defer)
        if t.toShim && s.hasShim c.core then s.enterShim cid p t else s.stopForDriver cid p t

/-- WSPILL and WFILL (R109). -/
def Trap.isWindow (t : Trap) : Bool := t.cls == 0x02 || t.cls == 0x03

/-- A trap raised by the instruction at the path's own code address: the run is abandoned there (R44). After a window trap the
instruction is retried although its own window may have left the span (R109). -/
def State.trapHere (s : State) (e : Env) (t : Trap) : State :=
  let s := (s.leaveSlot e.slot).deliver e.cid e.p t e.pa.ovl e.pa.idx false
  if t.isWindow then s.modCourse e.cid (fun c => c.modPath e.p (fun q => { q with gap := true })) else s

/-! ### Overlays and fetch (R34, R216) -/

/-- The overlay slot of a core that serves an id for a context. -/
def State.ovlSlot (s : State) (core ctx id : Nat) : Option (Nat × Ovl) :=
  ((List.range 8).filterMap (fun j => (s.ovls.find (core * 8 + j)).map (fun o => (j, o)))).find? (fun jo =>
    jo.2.loaded && jo.2.id == id && (jo.1 == 0 || jo.2.ctx == ctx))

/-- The word at an index of an overlay slot (R34). -/
def State.word (s : State) (core j idx : Nat) : BitVec 96 := wordOfBytes (s.peek (imemBase core j + 12 * idx) 12)

/-- A word ends its run (R40): its boundary bit is set, or its OP is marked B in the opcode map. -/
def wordEnds (w : BitVec 96) : Bool :=
  w.getLsbD 20 || (classTable (w.extractLsb' 87 9)).any (fun r => r.1.op == w.extractLsb' 87 9 && r.1.isB)

/-- An instruction is a run start (R40): index 0, or the word before it ends its run. -/
def State.isRunStart (s : State) (core j idx : Nat) : Bool := idx == 0 || wordEnds (s.word core j (idx - 1))

/-- Where the next word of a path stands in its run (R41). -/
def runCtx : Option Run → RunCtx
  | none => .header
  | some r => .body r.fa.isSome r.fb.isSome

/-- The run after an instruction has completed issue in it (R40, R44). -/
def nextRun (r : Option Run) (h : Hint) : Run :=
  match h, r with
  | .header _ w fa fb, _ => { wait := w, fa := fa, fb := fb, len := 1 }
  | .body _ _, some r => { r with len := r.len + 1 }
  | .body _ _, none => { wait := 0, fa := none, fb := none, len := 1 }

/-- What a transfer of control to a code address meets (R74, R216): the slot, a trap, or a load in progress to wait for. -/
inductive Target where
  | ok
  | wait (id : Nat)
  | bad (t : Trap)
  deriving DecidableEq, Repr

/-- Whether a load of this id for the context is in progress on the core (R216). -/
def State.loadingOvl (s : State) (core ctx id : Nat) : Bool :=
  s.ops.any (fun o => match o.2.kind with
    | .ovlLd c _ i _ _ _ => c == core && i == id && o.2.ctx == ctx
    | _ => false)

/-- Checks a transfer target (R74): OVL, then RUNSTART. -/
def State.target (s : State) (core ctx ovl idx : Nat) : Target :=
  if s.loadingOvl core ctx ovl then .wait ovl else
  match s.ovlSlot core ctx ovl with
  | none => .bad Trap.ovl
  | some (j, o) =>
    if !o.mark.isEmpty then .bad Trap.ovl
    else if o.n ≤ idx then .bad Trap.ovl
    else if s.isRunStart core j idx then .ok else .bad (Trap.illegal Sub.runstart)

/-! ### Returning from a trap (R300, R301) -/

/-- A path that resumes after the instruction at its own code address (R44): the run goes on, or its next run starts. -/
def State.pastInstr (s : State) (c : Course) (q : Path) : Path :=
  match s.ovlSlot c.core c.ctx q.ovl with
  | none => { q with idx := q.idx + 1, run := none }
  | some (j, _) =>
    let w := s.word c.core j q.idx
    { q with idx := q.idx + 1,
             run := if wordEnds w then none else some (nextRun q.run (parseHint (runCtx q.run) (Raw.ofWord w).h).1) }

/-- The trap that a path slot's record describes. -/
def State.recTrap (s : State) (c : Course) (p : Nat) : Trap :=
  let w := s.recWord c p 0
  { cls := BitVec.ofNat 8 (bits w 56 8), sub := BitVec.ofNat 8 (bits w 48 8), lane := BitVec.ofNat 8 (bits w 40 8),
    addr := BitVec.ofNat 64 (s.recWord c p 1), info := BitVec.ofNat 64 (s.recWord c p 2) }

/-- A path at the resumption point that its record names, or after it; a deferred trap's instruction is never executed
again, so both are its run start (R300, R301); MOVED names no instruction to go past (R309). -/
def State.resumed (s : State) (c : Course) (p : Nat) (q : Path) (after : Bool) : Path :=
  let w := s.recWord c p 15
  let q := { q with ovl := bits w 16 16, idx := bits w 0 16 }
  if nbit w 63 || !after || (s.recTrap c p).moved then q else s.pastInstr c q

/-- LEAVES THE SHIM: s56 to s63 and %sig come from the record as it stands, the held c, X, K, d, run and entry masks come
back, and the path stands at the resumption point or after it (R300). -/
def State.leaveShim (s : State) (cid p : Nat) (after : Bool) : State :=
  match s.courses.find cid with
  | none => s
  | some c =>
    match c.paths.find p with
    | none => s
    | some q =>
      match q.shim with
      | none => s
      | some h =>
        let c' := (List.range 8).foldl (fun (c : Course) i => c.setScalar (56 + i) (BitVec.ofNat 64 (s.recWord c p (4 + i)))) c
        let m := q.lanes
        let q := s.resumed c p { q with d := h.d, run := h.run, ent := h.ent, shim := none } after
        s.setCourse cid { c' with
          sig := BitVec.ofNat 32 (s.recWord c p 3),
          c := cMap c.c (fun l v => if m.getLsbD l then cOf h.c l else v),
          x := (c.x &&& ~~~m) ||| (h.x &&& m), k := (c.k &&& ~~~m) ||| (h.k &&& m),
          paths := c.paths.put p q }

/-! ### Transfers of control (R74) -/

/-- The code address that a target operand names (R74). -/
def Env.targetOf (e : Env) (a b : Opnd) : Nat × Nat :=
  match a, b with
  | .imm v, _ => (e.pa.ovl, v.toNat)
  | .joined hi, .joined lo => (hi.toNat, lo.toNat)
  | .reg n, _ => (bits (e.co.scalar n.toNat).toNat 16 16, bits (e.co.scalar n.toNat).toNat 0 16)
  | _, _ => (0, 0)

/-- The trap of a window that would not be resident, if it would not (R109). -/
def Course.windowTrap (c : Course) (lwb : Nat) : Option Trap :=
  if c.lo + c.rows < lwb + 64 then some (Trap.window ((lwb + 64 : Int) - (c.lo + c.rows)))
  else if lwb < c.lo then some (Trap.window ((lwb : Int) - c.lo))
  else none

end Sys2Proof.Machine
end

