-- ==== Sys2Proof/Machine/Operands.lean ====
section
/-!
DEFINITION. Operand forms (R35 to R38, R83): what each lane reads from a field, and how a result is put into a destination.
-/

namespace Sys2Proof

/-- The lane that lane l reads through a pattern (R37). -/
def Pat.source (p : Pat) (l : Nat) : Option Nat :=
  let k := if p.rel then 64 / 2 ^ (p.amt.toNat % 8) else p.amt.toNat
  match p.kind with
  | .self => some l
  | .rot => some (if p.neg then (l + 64 - k % 64) % 64 else (l + k) % 64)
  | .bc => some (if p.neg then 63 - k % 64 else k % 64)
  | .bfly => some ((l ^^^ (k % 64)) % 64)
  | .mir => some (63 - l)
  | .shz => if p.neg then (if k ≤ l then some (l - k) else none) else (if l + k < 64 then some (l + k) else none)

/-- The 32-bit value of the joined immediate in A and B (R36). -/
def Args.joined (x : Args) : Nat :=
  match x.a, x.b with
  | .joined hi, .joined lo => hi.toNat * 65536 + lo.toNat
  | _, _ => 0

/-- The number of a class 01 operand; 0 of another. -/
def Opnd.num : Opnd → Nat
  | .reg n => n.toNat
  | .vec r _ => r.toNat
  | _ => 0

/-- The value of an immediate or control field; 0 of another operand. -/
def Opnd.ctl : Opnd → Nat
  | .imm v => v.toNat
  | _ => 0

end Sys2Proof

namespace Sys2Proof.Machine

/-! ### Immediates (R36) -/

/-- A bit pattern widened exactly from one float format to another of at least its precision, NaN payloads included. -/
def widen (src dst : Fmt) (n : Nat) : Nat :=
  match src.decode n with
  | .nan =>
    dst.signBit (nbit n (src.ebits + src.fbits)) + (2 ^ dst.ebits - 1) * 2 ^ dst.fbits
      + (bits n 0 src.fbits) * 2 ^ (dst.fbits - src.fbits)
  | v => v.encode dst .rn

/-- A 16-bit immediate as a pattern of a type (R36). -/
def immVal (t : Ty) (v : BitVec 16) : Nat :=
  match t.fmt? with
  | some .f64 => widen .bf16 .f64 v.toNat
  | some .f32 => widen .bf16 .f32 v.toNat
  | some _ => v.toNat
  | none => wrap t.bits (toInt 16 v.toNat)

/-- A joined immediate as a pattern of a type (R36). -/
def joinedVal (t : Ty) (n : Nat) : Nat :=
  match t with
  | .f64 => widen .f32 .f64 n
  | .i64 => signExt 32 64 n
  | t => n % 2 ^ t.bits

/-! ### Reading -/

/-- Operand o as lane l sees it, as a pattern of type t: Lane and Val of R83. -/
def State.lane (s : State) (e : Env) (x : Args) (t : Ty) (o : Opnd) (l : Nat) : Nat :=
  match o with
  | .zero => 0
  | .vec r p =>
    match p.source l with
    | some m => s.vec e.co e.pa.lwb r.toNat t.wide m % 2 ^ t.bits
    | none => 0
  | .reg n => (e.co.scalar n.toNat).toNat % 2 ^ t.bits
  | .imm v => immVal t v
  | .joined _ => joinedVal t x.joined

/-- A scalar or immediate operand as a pattern of a type. -/
def Env.val (e : Env) (x : Args) (t : Ty) (o : Opnd) : Nat :=
  match o with
  | .reg n => (e.co.scalar n.toNat).toNat % 2 ^ t.bits
  | .imm v => immVal t v
  | .joined _ => joinedVal t x.joined
  | _ => 0

/-- A scalar or immediate operand as a 64-bit unsigned number. -/
def Env.n64 (e : Env) (x : Args) (o : Opnd) : Nat := e.val x .n64 o

/-- Lane l of v_r, or of the pair, by register number. -/
def State.vecLane (s : State) (e : Env) (r : Nat) (wide : Bool) (l : Nat) : Nat := s.vec e.co e.pa.lwb r wide l

/-! ### Writing -/

/-- The lanes for which an instruction with this destination computes a result: the acting lanes of a vector, one of them
for a scalar (R38, R39). -/
def Env.runs (e : Env) (x : Args) : List Nat :=
  match x.d with
  | .vec _ _ => lanesOf (e.acting x)
  | _ => (lanesOf (e.acting x)).take 1

/-- Puts results of type t into a destination of a course whose window base is lwb (R83). -/
def State.putDst (s : State) (cid lwb : Nat) (t : Ty) (d : Opnd) (vals : List (Nat × Nat)) : State :=
  match s.courses.find cid with
  | none => s
  | some c =>
    match d with
    | .vec r _ => s.putVec c lwb r.toNat t.wide (vals.map (fun v => (v.1, t.extend (if t.wide then 64 else 32) v.2)))
    | .reg n =>
      match vals with
      | [] => s
      | v :: _ => s.setCourse cid (c.setScalar n.toNat (BitVec.ofNat 64 (t.extend 64 v.2)))
    | _ => s

/-- Puts results into the destination of the issuing instruction. -/
def State.put (s : State) (e : Env) (t : Ty) (d : Opnd) (vals : List (Nat × Nat)) : State :=
  s.putDst e.cid e.pa.lwb t d vals

/-- Writes a 64-bit value to a scalar of the issuing course. -/
def State.putScalar (s : State) (e : Env) (d : Opnd) (v : Nat) : State := s.setScalar e.cid d.num (BitVec.ofNat 64 v)

/-! ### Member masks (R96) -/

/-- The member mask that a control field names. -/
def Env.members (e : Env) (x : Args) : LaneMask :=
  let ms := bits x.b.ctl 10 6
  if ms = 63 then BitVec.allOnes 64 else e.co.scalar ms

end Sys2Proof.Machine
end

