-- ==== Sys2Proof/Machine/Flags.lean ====
section
/-!
DEFINITION. Flag computations: comparisons and the two predicates of a reduction, the sticky bits of %kst, the entry-mask
term of %sig.
-/

namespace Sys2Proof.Machine

/-- The conditions of setp (R92). -/
inductive Cond where
  | eq | ne | lt | le | gt | ge | un | num
  deriving DecidableEq, Repr

/-- A condition on an ordering. -/
def Cond.onOrder (c : Cond) (o : Ordering) : Bool :=
  match c with
  | .eq => o == .eq
  | .ne => o != .eq
  | .lt => o == .lt
  | .le => o != .gt
  | .gt => o == .gt
  | .ge => o != .lt
  | .un => false
  | .num => true

/-- A condition on two patterns of a type (R92): floats as values with a NaN rule, integers by their signedness. -/
def Cond.holds (c : Cond) (t : Ty) (a b : Nat) : Bool :=
  match t.fmt? with
  | some f =>
    let x := f.decode a
    let y := f.decode b
    if x.isNan || y.isNan then c == .ne || c == .un else c.onOrder (FVal.cmp x y)
  | none => c.onOrder (compare (t.val a) (t.val b))

/-- Sets sticky bits of %kst (R29). -/
def State.stick (s : State) (cid : Nat) (b : BitVec 64) : State :=
  match s.courses.find cid with
  | some c => s.setCourse cid { c with kst := c.kst ||| b }
  | none => s

/-- Sets %kst.Z when no lane contributes (R96, R98). -/
def State.stickZ (s : State) (cid : Nat) (contributors : LaneMask) : State :=
  if contributors = 0 then s.stick cid kstZ else s

/-- Writes the two predicates p and p+1 of a reduction in given lanes: nonempty and exited in members, false elsewhere
(R96, R97). -/
def State.putFlagPair (s : State) (e : Env) (pn : Nat) (lanes members : LaneMask) (nonempty exited : Bool) : State :=
  if pn = 63 then s else
  let on (b : Bool) : LaneMask := if b then members else 0
  (s.setPred e.cid pn lanes (on nonempty)).setPred e.cid (pn + 1) lanes (on exited)

/-- Act of R306: lanes of F with c = 0 or X = 1. -/
def actLanes (F x : LaneMask) (c : BitVec 512) : LaneMask := F &&& (x ||| maskOf (fun l => cOf c l == 0))

/-- A mask folded to 32 bits (R306). -/
def foldMask (m : LaneMask) : BitVec 32 := m.setWidth 32 ^^^ (m >>> 32).setWidth 32

/-- The term a closing region adds to %sig when its entry mask is held (R306). -/
def closeTerm (ent : List (Nat × LaneMask)) (depth : Nat) (F closing : LaneMask) : BitVec 32 :=
  match ent.find? (fun e => e.1 = depth) with
  | some e => foldMask ((e.2 &&& F) ^^^ closing)
  | none => 0

end Sys2Proof.Machine
end

