-- ==== Sys2Proof/Machine/Issue.lean ====
section
/-!
DEFINITION. Issuing an instruction: what it may do, how it completes, the errors it consumes, and how operations start.
-/

namespace Sys2Proof.Machine

/-! ### Results of an instruction and its issue -/

/-- How an instruction that completes issue goes on. -/
structure Adv where
  /-- the code address to go to instead of the next one -/
  go : Option (Nat × Nat) := none
  /-- what the path's next run waits for (R49) -/
  wait : Wait := .nothing
  /-- takes the %sig update (R306) -/
  sig : Bool := true
  /-- the entry-mask term of R306 -/
  xor : BitVec 32 := 0
  /-- the path has left its slot: nothing of it is advanced -/
  gone : Bool := false
  deriving DecidableEq, Repr

/-- What an instruction does. -/
inductive Res where
  /-- completes issue with this state -/
  | done (s : State) (a : Adv)
  /-- raises a trap, with no effect -/
  | trap (t : Trap)
  /-- raises a trap after the home has refused what it was offered (R174, R289) -/
  | refuse (s : State) (t : Trap)
  /-- holds its issue slot, and the turn goes on (R69) -/
  | stall (s : State)
  /-- parks on absent lines (R128) -/
  | park (lines : List Nat)
  /-- leaves its issue slot and is executed anew once what it waits for is over (R160, R216) -/
  | later (w : Wait)

/-- Completes issue and goes to the next instruction. -/
def Res.ok (s : State) : Res := .done s {}

/-- The flag an instruction selects (R41): a header that is L uses FA, another instruction its SEL. -/
def Env.flag (e : Env) (x : Args) : Option (BitVec 4) :=
  match x.h with
  | .header _ _ fa _ => fa
  | .body _ .none => none
  | .body _ .fa => (e.pa.run.map (·.fa)).join
  | .body _ .fb => (e.pa.run.map (·.fb)).join

/-- The course has one live path and an empty path stack (R306). -/
def Course.single (c : Course) : Bool := c.paths.length == 1 && c.stack == 0

/-- %sig after an instruction has completed issue (R306). -/
def sigAfter (before after : Course) (inShim : Bool) (e : Entry) (m : Mod) (a : Adv) : BitVec 32 :=
  if inShim || !a.sig || !before.single || !after.single then after.sig
  else sigUpdate after.sig e.op (e.mods.encode m) ^^^ a.xor

/-- The %sig of a course after the instruction, and its flag raised if it is L (R42). -/
def Course.issued (c before : Course) (inShim : Bool) (e : Entry) (x : Args) (a : Adv) (flag : Option (BitVec 4)) : Course :=
  { c with
    sig := sigAfter before c inShim e x.m a,
    flags := match flag with
      | some n => if e.isL then c.flags.set 0 n.toNat (c.flags.getD n.toNat 0 + 1) else c.flags
      | none => c.flags }

/-- A path after an instruction has completed issue: its code address, its run or the end of the run, what it waits for. -/
def Path.advanced (q : Path) (old : Path) (h : Hint) (ends : Bool) (a : Adv) : Path :=
  let go := a.go.getD (old.ovl, old.idx + 1)
  { q with ovl := go.1, idx := go.2, run := if ends then none else some (nextRun old.run h), wait := a.wait, offer := none,
           gap := q.gap && old.shim.isSome }

/-- Notes the instruction that completes issue in the slot (R80). -/
def State.stamp (s : State) (env : Env) : State :=
  { s with
    slots := s.slots.put env.slot { s.slotOf env.slot with
      issued := some { clk := s.time.clk, cid := env.cid, p := env.p, ovl := env.pa.ovl, idx := env.pa.idx } } }

/-- Completes issue: flag, %sig, code address, run and, at its end, the issue slot. -/
def State.complete (s : State) (env : Env) (e : Entry) (x : Args) (a : Adv) : State :=
  let ends := x.h.bnd || e.isB
  match s.courses.find env.cid with
  | none => s.leaveSlot env.slot
  | some c =>
    let c := c.issued env.co env.pa.shim.isSome e x a (env.flag x)
    let c := if a.gone then c else
      match c.paths.find env.p with
      | some q => { c with paths := c.paths.put env.p (q.advanced env.pa x.h ends a) }
      | none => c
    let s := (s.setCourse env.cid c).stamp env
    if ends || a.gone then s.endRun env.slot env.cid env.p else s

/-! ### Consumed errors (R305) -/

/-- Whether lane l of one of n logical rows from L on is marked. -/
def State.laneBad (s : State) (c : Course) (L n l : Nat) : Bool :=
  (List.range n).any (fun i => (s.rowPoison.getD (c.rowKey (L + i)) 0).getLsbD (l / 2))

/-- Whether the element that lane l reads through a vector operand of n registers is marked. -/
def State.elemBad (s : State) (e : Env) (o : Opnd) (n l : Nat) : Bool :=
  match o with
  | .vec r p =>
    match p.source l with
    | some m => s.laneBad e.co (e.pa.lwb + r.toNat) n m
    | none => false
  | _ => false

/-- Whether one of n scalars from this one on is marked. -/
def Course.scalarBad (c : Course) (o : Opnd) (n : Nat) : Bool :=
  match o with
  | .reg r => (List.range n).any (fun i => c.sPoison.getLsbD (r.toNat + i))
  | _ => false

/-- Whether an operand is a marked predicate. -/
def Course.predBad (c : Course) (o : Opnd) : Bool :=
  match o with
  | .reg r => c.pPoison.getLsbD r.toNat
  | _ => false

/-- The scalars that an instruction's control field names beside its operand fields: the handle of an access on .ea (R130, R175), the
member mask of a reduction or scan (R96, R101). -/
def namedScalars (e : Entry) (x : Args) : List Nat :=
  let v := x.b.ctl
  if 0x100 ≤ e.op.toNat ∧ e.op.toNat ≤ 0x10B then (if bits v 13 3 = 5 then [bits v 0 6] else [])
  else match e.reach with
    | .red | .scan => if bits v 10 6 = 63 then [] else [bits v 10 6]
    | _ => []

/-- The lowest acting lane whose result uses a marked element of a vector source (R305). -/
def State.vecBad (s : State) (env : Env) (e : Entry) (x : Args) : Option Nat :=
  let act := env.acting x
  let n := e.regs x.m.tyD.wide x
  let any (l : Nat) : Bool := s.elemBad env x.d n.1 l || s.elemBad env x.a n.2.1 l || s.elemBad env x.b n.2.2 l
  let members := env.members x
  let contrib (l : Nat) : Bool := act.getLsbD l && members.getLsbD l && s.elemBad env x.a n.2.1 l
  match e.reach with
  | .lane => (lanesOf act).find? any
  | .sel => (lanesOf env.active).find? (fun l =>
      if act.getLsbD l then s.elemBad env x.a n.2.1 l else s.elemBad env x.b n.2.2 l)
  | .perm => (lanesOf act).find? (fun l =>
      s.elemBad env x.b 1 l ||
        (let i := s.lane env x .n32 x.b l
         decide (i < 64) && s.elemBad env x.a n.2.1 i))
  | .red =>
    if x.d = .zero then lanes64.find? contrib
    else (lanesOf act).find? (fun l => if members.getLsbD l then lanes64.any contrib else s.elemBad env x.a n.2.1 l)
  | .scan => (lanesOf act).find? (fun l =>
      if members.getLsbD l then lanes64.any (fun j => decide (j ≤ l) && contrib j) else s.elemBad env x.a n.2.1 l)

/-- The first consumed error among an instruction's guard, predicates, scalars and vector sources (R305). -/
def State.consumed (s : State) (env : Env) (e : Entry) (x : Args) : Option Nat :=
  if s.rowPoison.isEmpty && env.co.sPoison = 0 && env.co.pPoison = 0 then Option.none else
  let act := env.acting x
  let n := e.regs x.m.tyD.wide x
  let isPred (f : FieldSpec) : Bool := f.role == .pred || (f.role == .any && x.b == .zero)
  let isScalar (f : FieldSpec) : Bool := f.role == .scalar || (f.role == .any && x.b != .zero)
  let guard : List Nat := match x.g with
    | .on p _ => if env.co.pPoison.getLsbD p.toNat then (lanesOf env.active).take 1 else []
    | .always => []
  let pred (f : FieldSpec) (o : Opnd) (k : Nat) : List Nat :=
    if isPred f && k != 0 && env.co.predBad o then (lanesOf act).take 1 else []
  let scal (f : FieldSpec) (o : Opnd) (k : Nat) : List Nat :=
    if isScalar f && act != 0 && env.co.scalarBad o k then [0xFF] else []
  let vec := match s.vecBad env e x with
    | some l => [l]
    | none => []
  let named : List Nat := if act != 0 && (namedScalars e x).any (fun r => env.co.sPoison.getLsbD r) then [0xFF] else []
  (guard ++ named ++ pred e.d x.d n.1 ++ pred e.a x.a n.2.1 ++ pred e.b x.b n.2.2 ++ vec
    ++ scal e.d x.d n.1 ++ scal e.a x.a n.2.1 ++ scal e.b x.b n.2.2).min?

/-- A tfence of the course is still to complete, so that a later access waits (R160). -/
def Course.tfencing (c : Course) : Bool :=
  c.fences.any (fun f => match f.kind with
    | .tf _ => true
    | _ => false)

/-- A trap whose cause a translation or the range-lock table decides: PAGE, PRIVHW, POISON, RLOCK. -/
def Trap.ofAccess (t : Trap) : Bool := t.cls == 0x05 || t.cls == 0x06 || t.cls == 0x07 || t.cls == 0x08

/-- The rows of the window of a path, by key, that differ from an unlisted row. -/
def State.windowRows (s : State) (env : Env) : Tab (BitVec 2048) :=
  let keys := (List.range 64).map (fun i => env.co.rowKey (env.pa.lwb + i))
  s.rows.filter (fun r => keys.contains r.1)

/-- An instruction that waits in the access queue: its operands, course, path and rows as they stand now. -/
def State.queued (s : State) (env : Env) (e : Entry) (x : Args) (flag : Option (BitVec 4)) : Op :=
  { cid := some env.cid, ctx := env.co.ctx, path := env.p, ovl := env.pa.ovl, idx := env.pa.idx, flag := flag, lwb := env.pa.lwb,
    kind := .behind e.op x env.slot env.co env.pa (s.windowRows env), pend := [] }

/-- An operation is an instruction that waits in the access queue. -/
def Op.isQueued (o : Op) : Bool :=
  match o.kind with
  | .behind _ _ _ _ _ _ => true
  | _ => false

/-- Numbers that an instruction takes as it joins the access queue: as many as the operations it may start there. -/
def queueNumbers : Nat := 8

/-- An unflagged instruction joins the access queue, so as to act after those of its course that wait there. -/
def State.queueSilent (s : State) (env : Env) (e : Entry) (x : Args) : State :=
  { s with ops := s.ops.put s.nextId (s.queued env e x none), nextId := s.nextId + queueNumbers }

/-- A memory instruction behind a tfence of its course (R160): it completes issue and waits in the access queue with its operands as read
now, or, where a path's next run depends on it, the path waits, without its issue slot; a trap of its operands alone comes at once. -/
def State.behind (s : State) (env : Env) (e : Entry) (x : Args) (r : Res) : State :=
  let wait : State :=
    if e.isL then
      State.complete { s with ops := s.ops.put s.nextId (s.queued env e x (env.flag x)), nextId := s.nextId + queueNumbers } env e x {}
    else (s.leaveSlot env.slot).setPath env.cid env.p { env.pa with wait := .access }
  match r with
  | .trap t => if t.ofAccess then wait else s.trapHere env t
  | _ => wait

/-- ISSUES AN INSTRUCTION: the one operation every instruction's meaning goes through. The path that holds the issue slot runs
the body; a trap abandons the run, an interlock holds the slot, a completed instruction advances the path. -/
def issue (e : Entry) (x : Args) (body : Env → State → Res) (s : State) : Host.Outcome State Fault Refusal :=
  match s.issuing with
  | none => .fault .noIssuingPath
  | some env =>
    let s := s.tick
    match s.consumed env e x with
    | some lane => .next (s.trapHere env (Trap.poison lane 0))
    | none =>
      if e.paged && env.co.tfencing && env.acting x ≠ 0 then .next (s.behind env e x (body env s)) else
      match body env s with
      | .done t a => .next (t.complete env e x a)
      | .trap t => .next (s.trapHere env t)
      | .refuse t tr => .next (t.trapHere env tr)
      | .stall t => .next { t with cur := none }
      | .park l => .next ((s.leaveSlot env.slot).setPath env.cid env.p { env.pa with wait := .lines l })
      | .later w => .next ((s.leaveSlot env.slot).setPath env.cid env.p { env.pa with wait := w })

/-! ### Starting operations -/

/-- A new operation of the issuing path, with the flag it will lower; its number is its place in program order. -/
def State.addOp (s : State) (env : Env) (x : Args) (k : OpKind) : State :=
  { s with
    ops := s.ops.put s.nextId { cid := some env.cid, ctx := env.co.ctx, path := env.p, ovl := env.pa.ovl, idx := env.pa.idx,
                                flag := env.flag x, lwb := env.pa.lwb, kind := k, pend := [] }
    nextId := s.nextId + 1 }

/-- An unflagged operation of the issuing path. -/
def State.addSilent (s : State) (env : Env) (k : OpKind) : State :=
  { s with
    ops := s.ops.put s.nextId { cid := some env.cid, ctx := env.co.ctx, path := env.p, ovl := env.pa.ovl, idx := env.pa.idx,
                                flag := none, lwb := env.pa.lwb, kind := k, pend := [] }
    nextId := s.nextId + 1 }

/-- Offers an operation to its home; the instruction holds its issue slot until the answer (R174, R289). -/
def State.offer (s : State) (env : Env) (x : Args) (k : OpKind) : Res :=
  let id := s.nextId
  .stall ((s.addOp env x k).setPath env.cid env.p { env.pa with offer := some id })

/-- Takes back a refused offer. -/
def State.withdraw (s : State) (env : Env) (id : Nat) : State :=
  ({ s with ops := s.ops.del id }).setPath env.cid env.p { env.pa with offer := none }

/-- Replaces the kind of an operation. -/
def State.setOp (s : State) (id : Nat) (k : OpKind) : State :=
  match s.ops.find id with
  | some o => { s with ops := s.ops.put id { o with kind := k } }
  | none => s

/-- A path with one more late trap, which stands in program order among those that wait. -/
def Path.addLate (q : Path) (t : LateTrap) : Path :=
  { q with late := q.late.filter (fun u => decide (u.place ≤ t.place)) ++ t :: q.late.filter (fun u => decide (t.place < u.place)) }

/-- A late trap of an operation's instruction, raised at its path's next run start (R305, R215, R290). -/
def State.lateTrap (s : State) (op : Nat) (o : Op) (t : Trap) : State :=
  match o.cid with
  | none => s
  | some cid =>
    match s.path cid o.path with
    | some q => s.setPath cid o.path (q.addLate { trap := t, ovl := o.ovl, idx := o.idx, place := op })
    | none => s

/-- No path of the course is in the middle of a run (R43). -/
def State.betweenRuns (s : State) (cid : Nat) : Bool :=
  s.slots.all (fun k => match k.2.busy with | some b => b.1 != cid | none => true)

/-- An operation may write its results: its course, if it has one, is between runs (R43). -/
def State.mayLand (s : State) (o : Op) : Bool :=
  match o.cid with
  | some cid => s.betweenRuns cid
  | none => true

end Sys2Proof.Machine
end

