-- ==== Sys2Proof/Machine/Int.lean ====
section
/-!
DEFINITION. Integer and address instructions (R85, R86): every result is computed exactly on integers and wrapped once.
-/

namespace Sys2Proof.Machine

/-- A step's answer. -/
abbrev Answer := Host.Outcome State Fault Refusal

/-! ### Shapes shared by the arithmetic entries -/

/-- Computes one result per executing lane from the patterns of A, B and D as they stand before it, and puts it (R83). -/
def laneOp (x : Args) (ta tb td : Ty) (f : Nat → Nat → Nat → Nat) (env : Env) (s : State) : Res :=
  .ok (s.put env td x.d ((env.runs x).map (fun l =>
    (l, f (s.lane env x ta x.a l) (s.lane env x tb x.b l) (s.lane env x td x.d l)))))

/-- laneOp with one type for every operand. -/
def patOp (x : Args) (f : Nat → Nat → Nat → Nat → Nat) : Env → State → Res :=
  laneOp x x.m.tyD x.m.tyD x.m.tyD (f x.m.tyD.bits)

/-- Wrap of an exact result on the integers a and b. -/
def intOp (x : Args) (f : Int → Int → Int) : Env → State → Res :=
  let t := x.m.tyD
  patOp x (fun n a b _ => wrap n (f (t.val a) (t.val b)))

/-! ### The helpers of R85 -/

/-- Div of R85. -/
def divR85 (t : Ty) (a b : Int) : Int :=
  if b = 0 then (if t.signed then -1 else t.maxI)
  else if t.signed ∧ a = t.minI ∧ b = -1 then t.minI
  else a.tdiv b

/-- Rem of R85. -/
def remR85 (t : Ty) (a b : Int) : Int :=
  if b = 0 then a else if t.signed ∧ a = t.minI ∧ b = -1 then 0 else a - b * divR85 t a b

/-- Rotate left on n bits. -/
def rotl (n a k : Nat) : Nat := ((a <<< (k % n)) ||| (a >>> (n - k % n))) % 2 ^ n

/-- BitExtract of R85, as an n-bit pattern. -/
def bitExtract (t : Ty) (a b : Nat) : Nat :=
  let pos := bits b 0 8
  let len := bits b 8 8
  if len = 0 ∨ t.bits ≤ pos then 0 else
  let len := min len (t.bits - pos)
  let f := bits a pos len
  if t.signed then signExt len t.bits f else f

/-- BitInsert of R85. -/
def bitInsert (n d a b : Nat) : Nat :=
  let pos := bits b 0 8
  let len := bits b 8 8
  if len = 0 ∨ n ≤ pos then d else setBits d pos (min len (n - pos)) a

/-- The number of 1 bits of the low n bits. -/
def popCount (n a : Nat) : Nat := ((List.range n).filter (nbit a)).length

/-- The number of 0 bits above the highest 1 bit of n bits. -/
def leadingZeros (n a : Nat) : Nat := if a % 2 ^ n = 0 then n else n - 1 - Nat.log2 (a % 2 ^ n)

/-- The low n bits in reverse order. -/
def bitReverse (n a : Nat) : Nat := (List.range n).foldl (fun r i => 2 * r + (if nbit a i then 1 else 0)) 0

/-- Size(T) of R85 in bytes. -/
def sizeOfTy (t : Ty) : Nat := t.bits / 8

/-! ### The instructions -/

/-- ADD (R85). -/
def execAdd (x : Args) (s : State) : Answer := issue Enc.add x (intOp x (fun a b => a + b)) s

/-- SUB (R85). -/
def execSub (x : Args) (s : State) : Answer := issue Enc.sub x (intOp x (fun a b => a - b)) s

/-- ADDS (R85): Sat of R17. -/
def execAdds (x : Args) (s : State) : Answer := issue Enc.adds x (intOp x (fun a b => x.m.tyD.sat (a + b))) s

/-- SUBS (R85). -/
def execSubs (x : Args) (s : State) : Answer := issue Enc.subs x (intOp x (fun a b => x.m.tyD.sat (a - b))) s

/-- MUL (R85). -/
def execMul (x : Args) (s : State) : Answer := issue Enc.mul x (intOp x (fun a b => a * b)) s

/-- MULHI (R85). -/
def execMulhi (x : Args) (s : State) : Answer :=
  issue Enc.mulhi x (intOp x (fun a b => a * b / ((2 ^ x.m.tyD.bits : Nat) : Int))) s

/-- MAD (R85, R86): D is a source. -/
def execMad (x : Args) (s : State) : Answer :=
  let t := x.m.tyD
  issue Enc.mad x (patOp x (fun n a b d => wrap n (t.val a * t.val b + t.val d))) s

/-- NEG (R85). -/
def execNeg (x : Args) (s : State) : Answer := issue Enc.neg x (intOp x (fun a _ => -a)) s

/-- ABS (R85). -/
def execAbs (x : Args) (s : State) : Answer := issue Enc.abs x (intOp x (fun a _ => (a.natAbs : Int))) s

/-- MIN (R85). -/
def execMin (x : Args) (s : State) : Answer := issue Enc.min x (intOp x (fun a b => if a ≤ b then a else b)) s

/-- MAX (R85). -/
def execMax (x : Args) (s : State) : Answer := issue Enc.max x (intOp x (fun a b => if a ≤ b then b else a)) s

/-- DIV (R85). -/
def execDiv (x : Args) (s : State) : Answer := issue Enc.div x (intOp x (divR85 x.m.tyD)) s

/-- REM (R85). -/
def execRem (x : Args) (s : State) : Answer := issue Enc.rem x (intOp x (remR85 x.m.tyD)) s

/-- AND (R85). -/
def execAnd (x : Args) (s : State) : Answer := issue Enc.and x (patOp x (fun _ a b _ => a &&& b)) s

/-- OR (R85). -/
def execOr (x : Args) (s : State) : Answer := issue Enc.or x (patOp x (fun _ a b _ => a ||| b)) s

/-- XOR (R85). -/
def execXor (x : Args) (s : State) : Answer := issue Enc.xor x (patOp x (fun _ a b _ => a ^^^ b)) s

/-- NOT (R85). -/
def execNot (x : Args) (s : State) : Answer := issue Enc.not x (patOp x (fun n a _ _ => 2 ^ n - 1 - a)) s

/-- SHL (R85, R86): the amount is b[7:0]. -/
def execShl (x : Args) (s : State) : Answer :=
  issue Enc.shl x (patOp x (fun n a b _ => (a <<< bits b 0 8) % 2 ^ n)) s

/-- SHR (R85, R86). -/
def execShr (x : Args) (s : State) : Answer :=
  let t := x.m.tyD
  issue Enc.shr x (patOp x (fun n a b _ => wrap n (t.val a / ((2 ^ bits b 0 8 : Nat) : Int)))) s

/-- ROL (R85, R86). -/
def execRol (x : Args) (s : State) : Answer := issue Enc.rol x (patOp x (fun n a b _ => rotl n a (bits b 0 8))) s

/-- BFX (R85). -/
def execBfx (x : Args) (s : State) : Answer := issue Enc.bfx x (patOp x (fun _ a b _ => bitExtract x.m.tyD a b)) s

/-- BFI (R85, R86): D is a source. -/
def execBfi (x : Args) (s : State) : Answer := issue Enc.bfi x (patOp x (fun n a b d => bitInsert n d a b)) s

/-- POPC (R85). -/
def execPopc (x : Args) (s : State) : Answer := issue Enc.popc x (patOp x (fun n a _ _ => popCount n a)) s

/-- CLZ (R85). -/
def execClz (x : Args) (s : State) : Answer := issue Enc.clz x (patOp x (fun n a _ _ => leadingZeros n a)) s

/-- BREV (R85). -/
def execBrev (x : Args) (s : State) : Answer := issue Enc.brev x (patOp x (fun n a _ _ => bitReverse n a)) s

/-- SEL (R85, R86): every active lane takes a where the guard is true and b where it is false. -/
def execSel (x : Args) (s : State) : Answer :=
  let t := x.m.tyD
  issue Enc.sel x (fun env s =>
    let g := env.co.guard x.g
    .ok (s.put env t x.d ((lanesOf env.active).map (fun l =>
      (l, if g.getLsbD l then s.lane env x t x.a l else s.lane env x t x.b l))))) s

/-- MOV (R85, R86). -/
def execMov (x : Args) (s : State) : Answer := issue Enc.mov x (patOp x (fun _ a _ _ => a)) s

/-- LEA (R85, R86): A and D are .n64, B is .i32. -/
def execLea (x : Args) (s : State) : Answer :=
  issue Enc.lea x (laneOp x .n64 .i32 .n64 (fun a b _ => wrap 64 ((a : Int) + toInt 32 b * (sizeOfTy x.m.tyD : Int)))) s

end Sys2Proof.Machine
end

