-- ==== Sys2Proof/Machine/Float.lean ====
section
/-!
DEFINITION. Floating-point arithmetic and conversions (R87 to R91): one exact operation, rounded once.
-/

namespace Sys2Proof.Machine

/-- The rounding mode of a class 001 modifier. -/
def rndOf (x : Args) : Rnd :=
  match x.m with
  | .flt _ r => r
  | _ => .rn

/-- An operation on the values of A, B and D under the modifier's format, encoded with the modifier's mode (R87, R88). -/
def fltOp (x : Args) (f : Fmt → Rnd → FVal → FVal → FVal → FVal) : Env → State → Res :=
  let fm := x.m.fmtD
  let r := rndOf x
  patOp x (fun _ a b d => (f fm r (fm.decode a) (fm.decode b) (fm.decode d)).encode fm r)

/-- FADD (R87, R88). -/
def execFadd (x : Args) (s : State) : Answer := issue Enc.fadd x (fltOp x (fun _ r a b _ => FVal.add r a b)) s

/-- FSUB (R87, R88). -/
def execFsub (x : Args) (s : State) : Answer := issue Enc.fsub x (fltOp x (fun _ r a b _ => FVal.add r a b.negate)) s

/-- FMUL (R87, R88). -/
def execFmul (x : Args) (s : State) : Answer := issue Enc.fmul x (fltOp x (fun _ _ a b _ => FVal.mul a b)) s

/-- FFMA (R87, R88): the exact product is added to d and rounded once. -/
def execFfma (x : Args) (s : State) : Answer :=
  issue Enc.ffma x (fltOp x (fun _ r a b d => FVal.add r (FVal.mul a b) d)) s

/-- FMIN (R89). -/
def execFmin (x : Args) (s : State) : Answer := issue Enc.fmin x (patOp x (fun _ a b _ => fminmax x.m.fmtD false a b)) s

/-- FMAX (R89). -/
def execFmax (x : Args) (s : State) : Answer := issue Enc.fmax x (patOp x (fun _ a b _ => fminmax x.m.fmtD true a b)) s

/-- FNEG (R87, R89): the sign bit is inverted. -/
def execFneg (x : Args) (s : State) : Answer := issue Enc.fneg x (patOp x (fun n a _ _ => a ^^^ 2 ^ (n - 1))) s

/-- FABS (R87, R89): the sign bit is cleared. -/
def execFabs (x : Args) (s : State) : Answer := issue Enc.fabs x (patOp x (fun n a _ _ => a % 2 ^ (n - 1))) s

/-- FDIV (R87, R88). -/
def execFdiv (x : Args) (s : State) : Answer := issue Enc.fdiv x (fltOp x (fun f _ a b _ => FVal.div f a b)) s

/-- FSQRT (R87, R88). -/
def execFsqrt (x : Args) (s : State) : Answer := issue Enc.fsqrt x (fltOp x (fun f _ a _ _ => FVal.sqrt f a)) s

/-- FRCP (R87, R88). -/
def execFrcp (x : Args) (s : State) : Answer := issue Enc.frcp x (fltOp x (fun f _ a _ _ => FVal.rcp f a)) s

/-- FRSQ (R87, R88). -/
def execFrsq (x : Args) (s : State) : Answer := issue Enc.frsq x (fltOp x (fun f _ a _ _ => FVal.rsq f a)) s

/-- The type code in the B field of a conversion; .f32 where it names none. -/
def convTy (x : Args) : Ty := (cvtTy x).getD .f32

/-- The result of cvt: group codes are scaled by the σ and z that D holds (R26, R90), floats go by R24 and R25. -/
def cvtValue (x : Args) (a d : Nat) : Nat :=
  let dst := x.m.fmtD
  let r := rndOf x
  let t := convTy x
  match t.fmt? with
  | some src => convFloat src dst r (nbit x.b.ctl 5) a
  | none => (groupVal (bits d 0 16) a (bits d 16 8)).encode dst r

/-- CVT (R90). -/
def execCvt (x : Args) (s : State) : Answer :=
  issue Enc.cvt x (fun env s =>
    let t := convTy x
    .ok (s.put env x.m.fmtD.ty x.d ((env.runs x).map (fun l =>
      (l, cvtValue x (s.lane env x t x.a l) (s.lane env x .n32 x.d l)))))) s

/-- CVTI (R91): rounds, then saturates. -/
def execCvti (x : Args) (s : State) : Answer :=
  let f := x.m.fmtD
  let t := convTy x
  issue Enc.cvti x (laneOp x f.ty .n32 t (fun a _ _ => wrap t.bits (floatToInt t (rndOf x) (f.decode a)))) s

/-- CVTF (R91). -/
def execCvtf (x : Args) (s : State) : Answer :=
  let f := x.m.fmtD
  let t := convTy x
  issue Enc.cvtf x (laneOp x t .n32 f.ty (fun a _ _ => (FVal.ofInt false (t.val a) 0).encode f (rndOf x))) s

end Sys2Proof.Machine
end

