-- ==== Sys2Proof/Machine/Cross.lean ====
section
/-!
DEFINITION. Predicates and votes, cross-lane instructions, the Kulisch accumulator and the reduction tree (R92 to R103).
-/

namespace Sys2Proof.Machine

/-! ### Predicates and votes (R92 to R94) -/

/-- Writes a predicate in the acting lanes by a function of the lane. -/
def predOp (x : Args) (f : Env → State → Nat → Bool) (env : Env) (s : State) : Res :=
  .ok (s.setPred env.cid x.d.num (env.acting x) (maskOf (fun l => (env.acting x).getLsbD l && f env s l)))

/-- A comparison of A and B under the modifier's type (R92). -/
def setpOp (x : Args) (c : Cond) : Env → State → Res :=
  let t := x.m.tyD
  predOp x (fun env s l => c.holds t (s.lane env x t x.a l) (s.lane env x t x.b l))

/-- SETP.EQ (R92). -/
def execSetpEq (x : Args) (s : State) : Answer := issue Enc.setpEq x (setpOp x .eq) s
/-- SETP.NE (R92). -/
def execSetpNe (x : Args) (s : State) : Answer := issue Enc.setpNe x (setpOp x .ne) s
/-- SETP.LT (R92). -/
def execSetpLt (x : Args) (s : State) : Answer := issue Enc.setpLt x (setpOp x .lt) s
/-- SETP.LE (R92). -/
def execSetpLe (x : Args) (s : State) : Answer := issue Enc.setpLe x (setpOp x .le) s
/-- SETP.GT (R92). -/
def execSetpGt (x : Args) (s : State) : Answer := issue Enc.setpGt x (setpOp x .gt) s
/-- SETP.GE (R92). -/
def execSetpGe (x : Args) (s : State) : Answer := issue Enc.setpGe x (setpOp x .ge) s
/-- SETP.UN (R92). -/
def execSetpUn (x : Args) (s : State) : Answer := issue Enc.setpUn x (setpOp x .un) s
/-- SETP.NUM (R92). -/
def execSetpNum (x : Args) (s : State) : Answer := issue Enc.setpNum x (setpOp x .num) s

/-- Writes a predicate in the acting lanes from the masks of predicates A and B (R93). -/
def maskOp (x : Args) (f : LaneMask → LaneMask → LaneMask) (env : Env) (s : State) : Res :=
  .ok (s.setPred env.cid x.d.num (env.acting x) (f (env.co.pred x.a.num) (env.co.pred x.b.num)))

/-- PAND (R93). -/
def execPand (x : Args) (s : State) : Answer := issue Enc.pand x (maskOp x (fun q r => q &&& r)) s
/-- POR (R93). -/
def execPor (x : Args) (s : State) : Answer := issue Enc.por x (maskOp x (fun q r => q ||| r)) s
/-- PXOR (R93). -/
def execPxor (x : Args) (s : State) : Answer := issue Enc.pxor x (maskOp x (fun q r => q ^^^ r)) s
/-- PNOT (R93). -/
def execPnot (x : Args) (s : State) : Answer := issue Enc.pnot x (maskOp x (fun q _ => ~~~q)) s

/-- PMOV (R93): a predicate, the bits of a scalar, or bit 0 of an immediate. -/
def execPmov (x : Args) (s : State) : Answer :=
  issue Enc.pmov x (fun env s =>
    let v : LaneMask := match x.a, x.b with
      | .imm v, _ => if v.getLsbD 0 then BitVec.allOnes 64 else 0
      | a, .zero => env.co.pred a.num
      | a, _ => env.co.scalar a.num
    .ok (s.setPred env.cid x.d.num (env.acting x) v)) s

/-- A vote: one value for every lane of C (R94). -/
def voteOp (x : Args) (f : LaneMask → LaneMask → Bool) (env : Env) (s : State) : Res :=
  let C := env.acting x
  .ok (s.setPred env.cid x.d.num C (if f C (env.co.pred x.a.num) then C else 0))

/-- VOTE.ANY (R94). -/
def execVoteAny (x : Args) (s : State) : Answer :=
  issue Enc.voteAny x (voteOp x (fun C q => decide (C &&& q ≠ 0))) s
/-- VOTE.ALL (R94). -/
def execVoteAll (x : Args) (s : State) : Answer :=
  issue Enc.voteAll x (voteOp x (fun C q => decide (C &&& q = C))) s
/-- VOTE.UNIFORM (R94). -/
def execVoteUniform (x : Args) (s : State) : Answer :=
  issue Enc.voteUniform x (voteOp x (fun C q => decide (C &&& q = C) || decide (C &&& q = 0))) s

/-- BALLOT (R94): course-level, so it does not execute with C empty (R39). -/
def execBallot (x : Args) (s : State) : Answer :=
  issue Enc.ballot x (fun env s =>
    let C := env.acting x
    if C = 0 then .ok s else .ok (s.putScalar env x.d (C &&& env.co.pred x.a.num).toNat)) s

/-! ### Cross-lane instructions (R95 to R97) -/

/-- PERM (R95): the index is read as .n32 from one register. -/
def execPerm (x : Args) (s : State) : Answer :=
  let t := x.m.tyD
  issue Enc.perm x (fun env s =>
    .ok (s.put env t x.d ((env.runs x).map (fun l =>
      let i := s.lane env x .n32 x.b l
      (l, if i < Config.width then s.lane env x t x.a i else 0))))) s

/-- The combining step of a reduction by its OPR code (R96, R97). -/
def redStep (t : Ty) (opr a b : Nat) : Nat :=
  match opr, t.fmt? with
  | 0, some f => (FVal.add .rn (f.decode a) (f.decode b)).encode f .rn
  | 0, none => wrap t.bits (t.val a + t.val b)
  | 1, some f => fminmax f false a b
  | 1, none => if t.val a ≤ t.val b then a else b
  | 2, some f => fminmax f true a b
  | 2, none => if t.val a ≤ t.val b then b else a
  | 3, _ => a &&& b
  | 4, _ => a ||| b
  | _, _ => a ^^^ b

/-- The identity of a reduction by its OPR code (R96). -/
def redIdentity (t : Ty) (opr : Nat) : Nat :=
  match opr, t.fmt? with
  | 1, some f => f.infBits false
  | 1, none => wrap t.bits t.maxI
  | 2, some f => f.infBits true
  | 2, none => wrap t.bits t.minI
  | 3, _ => 2 ^ t.bits - 1
  | _, _ => 0

/-- lred's log-step reduction over all lanes (R97). -/
def lredTree (f : Nat → Nat → Nat) (v : List Nat) : List Nat :=
  [32, 16, 8, 4, 2, 1].foldl (fun v j => v.zipIdx.map (fun a => f a.1 (v.getD (a.2 ^^^ j) 0))) v

/-- lscan's log-step inclusive scan (R97). -/
def lscanTree (f : Nat → Nat → Nat) (v : List Nat) : List Nat :=
  [1, 2, 4, 8, 16, 32].foldl (fun v j => v.zipIdx.map (fun a => if j ≤ a.2 then f (v.getD (a.2 - j) 0) a.1 else a.1)) v

/-- The contributors of a reduction: members that are active with a true guard (R96). -/
def Env.contributors (e : Env) (x : Args) : LaneMask := e.members x &&& e.acting x

/-- The value every lane brings to a reduction (R96, R97). -/
def redInputs (x : Args) (env : Env) (s : State) : List Nat :=
  let t := x.m.tyD
  let C := env.contributors x
  lanes64.map (fun l => if C.getLsbD l then s.lane env x t x.a l else redIdentity t (bits x.b.ctl 0 4))

/-- Whether the member mask names an exited lane (R96). -/
def Env.exitedMember (e : Env) (x : Args) : Bool := decide (e.members x &&& e.co.exited ≠ 0)

/-- lred and lscan: the tree's results in the acting members, their own input in the other acting lanes (R97). -/
def redOp (x : Args) (tree : (Nat → Nat → Nat) → List Nat → List Nat) (env : Env) (s : State) : Res :=
  let t := x.m.tyD
  let M := env.members x
  let C := env.contributors x
  let out := tree (redStep t (bits x.b.ctl 0 4)) (redInputs x env s)
  let vals := (env.runs x).map (fun l => (l, if M.getLsbD l then out.getD l 0 else s.lane env x t x.a l))
  let s := s.put env t x.d vals
  let s := s.putFlagPair env (bits x.b.ctl 4 6) (env.acting x) M (decide (C ≠ 0)) (env.exitedMember x)
  .ok (s.stickZ env.cid C)

/-- LRED (R97). -/
def execLred (x : Args) (s : State) : Answer := issue Enc.lred x (redOp x lredTree) s
/-- LSCAN (R97). -/
def execLscan (x : Args) (s : State) : Answer := issue Enc.lscan x (redOp x lscanTree) s

/-! ### The Kulisch accumulator (R98, R99) -/

/-- The accumulator of a course with its status. -/
def Course.kul (c : Course) : Kul := { acc := c.acc, st := c.kst }

/-- Stores the accumulator and its status. -/
def State.setKul (s : State) (cid : Nat) (k : Kul) : State :=
  match s.courses.find cid with
  | some c => s.setCourse cid { c with acc := k.acc, kst := k.st }
  | none => s

/-- The lanes whose values enter the accumulator: every lane of C, or one of them when no source is a vector (R98);
DESIGN CHOICE: they are added in ascending order, on which OV can depend (log entry 103). -/
def Env.addends (e : Env) (x : Args) : List Nat :=
  if x.a.isVec || x.b.isVec then lanesOf (e.acting x) else (lanesOf (e.acting x)).take 1

/-- KCLR (R98). -/
def execKclr (x : Args) (s : State) : Answer :=
  issue Enc.kclr x (fun env s => if env.acting x = 0 then .ok s else .ok (s.setKul env.cid { env.co.kul with acc := 0 })) s

/-- KADD (R98). -/
def execKadd (x : Args) (s : State) : Answer :=
  let t := x.m.tyD
  let f := t.fmt?.getD .f64
  issue Enc.kadd x (fun env s =>
    let k := (env.addends x).foldl (fun k l => k.add (f.decode (s.lane env x t x.a l))) env.co.kul
    .ok ((s.setKul env.cid k).stickZ env.cid (env.acting x))) s

/-- KMAC (R98): exact products. -/
def execKmac (x : Args) (s : State) : Answer :=
  let t := x.m.tyD
  let f := t.fmt?.getD .f32
  issue Enc.kmac x (fun env s =>
    let k := (env.addends x).foldl
      (fun k l => k.mac (f.decode (s.lane env x t x.a l)) (f.decode (s.lane env x t x.b l))) env.co.kul
    .ok ((s.setKul env.cid k).stickZ env.cid (env.acting x))) s

/-- KSCAN (R99): exact prefixes in ascending lane order, each rounded once. -/
def execKscan (x : Args) (s : State) : Answer :=
  issue Enc.kscan x (fun env s =>
    let r := (lanesOf (env.acting x)).foldl (fun (a : Kul × List (Nat × Nat)) l =>
      let k := a.1.add (Fmt.f64.decode (s.lane env x .f64 x.a l))
      (k, a.2 ++ [(l, k.readOut .f64 .rn)])) (env.co.kul, [])
    let s := (s.put env .f64 x.d r.2).setKul env.cid r.1
    .ok (s.stickZ env.cid (env.acting x))) s

/-- KRD (R98, R30). -/
def execKrd (x : Args) (s : State) : Answer :=
  issue Enc.krd x (fun env s =>
    let v := env.co.kul.readOut x.m.fmtD (rndOf x)
    .ok (s.put env x.m.fmtD.ty x.d ((env.runs x).map (fun l => (l, v))))) s

/-! ### The reduction tree (R101 to R103) -/

/-- XRED (R101): the reduction is formed at issue and delivered by XRED_COMPLETE. -/
def execXred (x : Args) (s : State) : Answer :=
  issue Enc.xred x (fun env s =>
    let t := x.m.tyD
    let C := env.contributors x
    let v := (lredTree (redStep t (bits x.b.ctl 0 4)) (redInputs x env s)).getD 0 0
    let s := s.stickZ env.cid C
    .ok (s.addOp env x (.xred (BitVec.ofNat 64 (t.extend 64 v)) (decide (C ≠ 0)) (env.exitedMember x)))) s

/-- The earliest xred of a course (R101: they complete in issue order). -/
def State.firstXred (s : State) (cid : Nat) : Option Nat :=
  ((s.opsOf cid).find? (fun o => match o.2.kind with
    | .xred _ _ _ => true
    | _ => false)).map (·.1)

/-- XGET (R102): the run ends, and the next one waits for the sequence number. -/
def execXget (x : Args) (s : State) : Answer :=
  issue Enc.xget x (fun env s =>
    if env.acting x = 0 then .ok s else
    let p := match x.b with
      | .reg n => some n
      | _ => Option.none
    let d := match x.d with
      | .reg n => n
      | _ => 0
    .done s { wait := .xget d (BitVec.ofNat 32 (env.val x .n32 x.a)) p (env.acting x) }) s

/-- XPUT (R103): copies xr without waiting. -/
def execXput (x : Args) (s : State) : Answer :=
  let t := x.m.tyD
  issue Enc.xput x (fun env s =>
    if env.co.xPoison && decide (env.acting x ≠ 0) then .trap (Trap.poison 0xFF 0) else
    .ok (s.put env t x.d ((env.runs x).map (fun l => (l, env.co.xr.toNat % 2 ^ t.bits))))) s

end Sys2Proof.Machine
end

