-- ==== Sys2Proof/Machine/Control.lean ====
section
/-!
DEFINITION. Structured control, branches, calls, paths and their stack (R72 to R79, R106 to R109, R332), special registers
(R67, R68).
-/

namespace Sys2Proof.Machine

/-! ### Structured control (R72, R73) -/

/-- The counters, break and continue bits of the path's frame. -/
structure Ctl where
  c : BitVec 512
  x : LaneMask
  k : LaneMask
  deriving DecidableEq, Repr

/-- The counters of a course. -/
def Course.ctl (c : Course) : Ctl := { c := c.c, x := c.x, k := c.k }

/-- Changes the counters of the lanes of F by a function of the lane's c. -/
def Ctl.counters (t : Ctl) (F : LaneMask) (f : Nat → Nat → Nat) : Ctl :=
  { t with c := cMap t.c (fun l v => if F.getLsbD l then f l v else v) }

/-- Clears the break bit of the lanes of F whose c went from above 0 to 0. -/
def Ctl.clearX (t old : Ctl) (F : LaneMask) : Ctl :=
  { t with x := t.x &&& ~~~(F &&& maskOf (fun l => cOf t.c l == 0 && cOf old.c l != 0)) }

/-- Key of an open region of a path (R306). -/
def regionKey (depth d : Nat) : Nat := depth * 256 + d

/-- Stores counters in the issuing course, and region depth and entry masks in its path. -/
def State.setCtl (s : State) (e : Env) (t : Ctl) (d : Nat) (ent : List (Nat × LaneMask)) : State :=
  match s.courses.find e.cid with
  | none => s
  | some c =>
    match c.paths.find e.p with
    | none => s
    | some q => s.setCourse e.cid { c with c := t.c, x := t.x, k := t.k, paths := c.paths.put e.p { q with d := d, ent := ent } }

/-- The entry masks after a region opens: the innermost 8 are held (R306). -/
def Env.opened (e : Env) : List (Nat × LaneMask) :=
  ((regionKey e.pa.depth (e.pa.d + 1), actLanes e.F e.co.x e.co.c) :: e.pa.ent).take 8

/-- Closes a region: the counters fall by one, d falls, and the entry mask adds its term to %sig (R73, R306). -/
def closeRegion (env : Env) (s : State) : State × BitVec 32 :=
  let old := env.co.ctl
  let t := (old.counters env.F (fun _ v => v - 1)).clearX old env.F
  let key := regionKey env.pa.depth env.pa.d
  let xor := closeTerm env.pa.ent key env.F (actLanes env.F t.x t.c)
  (s.setCtl env t (env.pa.d - 1) (env.pa.ent.filter (fun e => e.1 ≠ key)), xor)

/-- IF (R73). -/
def execIfRegion (x : Args) (s : State) : Answer :=
  issue Enc.ifRegion x (fun env s =>
    if env.pa.d = 255 then .trap Trap.field else
    let g := env.co.guard x.g
    let t := env.co.ctl.counters env.F (fun l v => if 0 < v then v + 1 else if g.getLsbD l then 0 else 1)
    .ok (s.setCtl env t (env.pa.d + 1) env.opened)) s

/-- ELSE (R73). -/
def execElseRegion (x : Args) (s : State) : Answer :=
  issue Enc.elseRegion x (fun env s =>
    if env.pa.d = 0 then .trap Trap.field else
    let t := env.co.ctl.counters env.F (fun l v => if v = 0 then 1 else if v = 1 ∧ !env.co.x.getLsbD l then 0 else v)
    .ok (s.setCtl env t env.pa.d env.pa.ent)) s

/-- ENDIF (R73). -/
def execEndifRegion (x : Args) (s : State) : Answer :=
  issue Enc.endifRegion x (fun env s =>
    if env.pa.d = 0 then .trap Trap.field else
    let r := closeRegion env s
    .done r.1 { xor := r.2 }) s

/-- LOOP (R73). -/
def execLoopRegion (x : Args) (s : State) : Answer :=
  issue Enc.loopRegion x (fun env s =>
    if env.pa.d = 255 then .trap Trap.field else
    let t := env.co.ctl.counters env.F (fun _ v => if 0 < v then v + 1 else 0)
    .ok (s.setCtl env t (env.pa.d + 1) env.opened)) s

/-- The level that break or cont leaves by: lanes that act get c := n and X := 1 (R73). -/
def leaveTo (n : Nat) (env : Env) (x : Args) : Ctl :=
  let A := env.acting x
  let t := env.co.ctl.counters A (fun _ _ => n)
  { t with x := t.x ||| A }

/-- The number in a MOD field. -/
def Mod.number : Mod → Nat
  | .num n => n.toNat
  | _ => 0

/-- BREAK (R73). -/
def execBreakRegion (x : Args) (s : State) : Answer :=
  issue Enc.breakRegion x (fun env s =>
    let n := Mod.number x.m
    if env.pa.d < n then .trap (Trap.illegal Sub.brkpath) else
    .ok (s.setCtl env (leaveTo n env x) env.pa.d env.pa.ent)) s

/-- CONT (R73). -/
def execContRegion (x : Args) (s : State) : Answer :=
  issue Enc.contRegion x (fun env s =>
    let k := x.a.ctl
    if env.pa.d < k then .trap (Trap.illegal Sub.brkpath) else
    let t := leaveTo k env x
    .ok (s.setCtl env { t with k := t.k ||| env.acting x } env.pa.d env.pa.ent)) s

/-- Goes on with k when a transfer of control finds its target; otherwise traps or waits (R74). -/
def transfer (s : State) (env : Env) (t : Nat × Nat) (k : Res) : Res :=
  match s.target env.co.core env.co.ctx t.1 t.2 with
  | .ok => k
  | .wait id => .later (.overlay id)
  | .bad tr => .trap tr

/-- What endloop does with the counters (R73): whether the loop goes round, and the state of its lanes then. -/
def loopBack (env : Env) : Bool × Ctl :=
  let R := env.F &&& env.co.k &&& maskOf (fun l => cOf env.co.c l == 1)
  let t : Ctl := { c := cMap env.co.c (fun l v => if R.getLsbD l then 0 else v),
                   x := env.co.x &&& ~~~R, k := env.co.k &&& ~~~R }
  (decide (env.F &&& maskOf (fun l => cOf t.c l == 0) ≠ 0), t)

/-- ENDLOOP (R73): continuing lanes are revived, and the loop goes round while a lane of F is active. -/
def execEndloopRegion (x : Args) (s : State) : Answer :=
  issue Enc.endloopRegion x (fun env s =>
    let t := (loopBack env).2
    if (loopBack env).1 then
      let dst := (env.pa.ovl, x.a.ctl)
      transfer s env dst (if env.pa.d = 0 then .trap Trap.field else
        .done (s.setCtl env t env.pa.d env.pa.ent) { go := some dst })
    else if env.pa.d = 0 then .trap Trap.field
    else
      let env' := { env with co := { env.co with c := t.c, x := t.x, k := t.k } }
      let r := closeRegion env' s
      .done r.1 { xor := r.2 }) s

/-! ### Branches (R74, R75) -/

/-- br and brx: the path goes to the target when an acting lane exists (R75). -/
def branch (x : Args) (env : Env) (s : State) : Res :=
  if env.acting x = 0 then .ok s else
  let dst := env.targetOf x.a x.b
  transfer s env dst (.done s { go := some dst })

/-- BR (R75). -/
def execBr (x : Args) (s : State) : Answer := issue Enc.br x (branch x) s
/-- BRX (R75). -/
def execBrx (x : Args) (s : State) : Answer := issue Enc.brx x (branch x) s

/-! ### Frame records and the depth vector (R105 to R108) -/

/-- Offset of the frame record of a lane at a depth. -/
def frameOff (k l : Nat) : Nat := 0x2200 + 1024 * k + 16 * l

/-- Offset of a lane's depth-vector entry. -/
def depthOff (l : Nat) : Nat := 0x2000 + 8 * l

/-- A depth-vector entry (R106). -/
def depthEntry (lwb k : Nat) : Nat := (lwb / 4) * 65536 + k

/-- A frame record (R107). -/
structure Frame where
  mask : Nat
  ovl : Nat
  idx : Nat
  d : Nat
  units : Nat
  kind : Nat
  marked : Bool
  mark : Nat
  deriving DecidableEq, Repr

/-- A frame record as a 128-bit number. -/
def Frame.pack (f : Frame) : Nat :=
  f.mask % 2 ^ 64 + 2 ^ 64 * (f.mark % 2 ^ 16 + (if f.marked then 2 ^ 16 else 0) + (f.kind % 4) * 2 ^ 17
    + (f.units % 32) * 2 ^ 19 + (f.d % 256) * 2 ^ 24 + (f.idx % 2 ^ 16) * 2 ^ 32 + (f.ovl % 2 ^ 16) * 2 ^ 48)

/-- The frame record that a 128-bit number holds. -/
def Frame.ofNat (n : Nat) : Frame :=
  let w := n / 2 ^ 64
  { mask := n % 2 ^ 64, ovl := bits w 48 16, idx := bits w 32 16, d := bits w 24 8, units := bits w 19 5,
    kind := bits w 17 2, marked := nbit w 16, mark := bits w 0 16 }

/-- Reads a lane's frame record, with the checks of R132. -/
def State.frameAt (s : State) (c : Course) (k l : Nat) : Except Trap Frame := do
  .ok (Frame.ofNat (← s.privRead c (frameOff k l) 16))

/-- Writes the frame records and depth-vector entries of lanes that enter a frame. -/
def State.enterFrame (s : State) (c : Course) (k lwb : Nat) (f : Frame) (lanes : List Nat) : Except Trap State :=
  lanes.foldlM (fun s l => do
    let s ← s.privWrite c (frameOff k l) 16 f.pack
    s.privWrite c (depthOff l) 8 (depthEntry lwb k)) s

/-- Writes the depth-vector entries of lanes. -/
def State.putDepth (s : State) (c : Course) (k lwb : Nat) (lanes : List Nat) : Except Trap State :=
  lanes.foldlM (fun s l => s.privWrite c (depthOff l) 8 (depthEntry lwb k)) s

/-! ### The path stack (R78, R79) -/

/-- An entry of the path stack (R79). -/
structure PEntry where
  mask : LaneMask
  ovl : Nat
  idx : Nat
  d : Nat
  prio : Nat
  kind : Nat
  wbase : Nat
  out : Nat
  jidx : Option Nat
  deriving DecidableEq, Repr

/-- An entry as a 256-bit number. -/
def PEntry.pack (e : PEntry) : Nat :=
  e.mask.toNat + 2 ^ 64 * (e.out % 128 + (e.wbase % 4096) * 2 ^ 7 + (e.kind % 4) * 2 ^ 19 + (e.prio % 8) * 2 ^ 21
    + (e.d % 256) * 2 ^ 24 + (e.idx % 2 ^ 16) * 2 ^ 32 + (e.ovl % 2 ^ 16) * 2 ^ 48)
  + 2 ^ 128 * ((match e.jidx with | some j => j % 512 | none => 0x1FF) * 2 ^ 55)

/-- The entry that a 256-bit number holds. -/
def PEntry.ofNat (n : Nat) : PEntry :=
  let w := bits n 64 64
  let j := bits n 183 9
  { mask := BitVec.ofNat 64 n, ovl := bits w 48 16, idx := bits w 32 16, d := bits w 24 8, prio := bits w 21 3,
    kind := bits w 19 2, wbase := bits w 7 12, out := bits w 0 7, jidx := if j < 256 then some j else none }

/-- Reads an entry of the path stack. -/
def State.stackEntry (s : State) (c : Course) (i : Nat) : PEntry := PEntry.ofNat (s.privSee c (32 * i) 32)

/-- Writes an entry of the path stack where its page takes it. -/
def State.putEntry (s : State) (c : Course) (i : Nat) (e : PEntry) : State := s.privTry c (32 * i) 32 e.pack

/-- An entry is in use: a ready path with lanes, or a join. -/
def PEntry.used (e : PEntry) : Bool := (e.kind == 0 && e.mask != 0) || e.kind == 1

/-- The stack height after entries at the top have become free. -/
def State.stackTop (s : State) (c : Course) : Nat → Nat
  | 0 => 0
  | n + 1 => if (s.stackEntry c n).used then n + 1 else s.stackTop c n

/-- %wbase of a window (R104). -/
def Course.wbase (c : Course) (lwb : Nat) : Nat := c.segbase + (if c.rows = 0 then 0 else lwb % c.rows)

/-- One group of a split: its lanes, its frame mask, and where it starts. -/
structure Group where
  lanes : LaneMask
  fmask : LaneMask
  ovl : Nat
  idx : Nat
  d : Nat
  lwb : Nat
  depth : Nat
  deriving DecidableEq, Repr

/-- A path that starts with a group of a split (R78 step 4). -/
def Group.start (g : Group) (prio : Nat) (j : Option Nat) : Path :=
  { ovl := g.ovl, idx := g.idx, lanes := g.lanes, fmask := g.fmask, d := g.d, prio := prio, demoted := none, lwb := g.lwb,
    depth := g.depth, jidx := j, run := none, wait := .nothing, late := [], shim := none, ent := [], offer := none, gap := false, stopped := false }

/-- Groups of a split that go to the path stack: all but the first and, if the other slot is empty, the second. -/
def Course.pushed (c : Course) (p : Nat) (l : List Group) : List Group :=
  if (c.paths.find (1 - p)).isSome then l.drop 1 else l.drop 2

/-- Whether the path stack takes the join and the pushed groups of a split (R79). -/
def Course.splitFits (c : Course) (p : Nat) (l : List Group) : Bool := decide (c.stack + 1 + (c.pushed p l).length ≤ 256)

/-- Splits the issuing path (R78): the join record is written, the first group takes the executing slot, the second the other
slot if it is empty, and the rest are pushed in descending order. -/
def splitPath (s : State) (env : Env) (rest : LaneMask) (back : Nat × Nat) (l : List Group) : Except Trap State := do
  match s.courses.find env.cid with
  | none => .ok s
  | some c =>
    let j := c.stack
    let join : PEntry := { mask := rest, ovl := back.1, idx := back.2, d := env.pa.d, prio := env.pa.prio, kind := 1,
                           wbase := c.wbase env.pa.lwb, out := l.length, jidx := env.pa.jidx }
    let push := (c.pushed env.p l).reverse
    let s ← s.privWrite c (32 * j) 32 join.pack
    let s ← push.zipIdx.foldlM (fun s g =>
      s.privWrite c (32 * (j + 1 + g.2)) 32
        { mask := g.1.lanes, ovl := g.1.ovl, idx := g.1.idx, d := g.1.d, prio := env.pa.prio, kind := 0,
          wbase := c.wbase g.1.lwb, out := 0, jidx := some j : PEntry }.pack) s
    let fm := push.zipIdx.foldl (fun t g => Tab.put t (j + 1 + g.2) g.1.fmask) (Tab.put c.stackFm j env.pa.fmask)
    let put (t : Tab Path) (p : Nat) (g : Option Group) : Tab Path := match g with
      | some g => Tab.put t p (g.start env.pa.prio (some j))
      | none => t
    .ok (s.modCourse env.cid (fun c =>
      let paths := put c.paths env.p l.head?
      let paths := if (c.paths.find (1 - env.p)).isSome then paths else put paths (1 - env.p) (l.drop 1).head?
      { c with stack := j + 1 + push.length, stackFm := fm, paths := paths }))

/-- A path arrives at its join (R78): its lanes enter MASK, OUT falls, and at zero the record becomes a ready path. -/
def State.arrive (s : State) (cid j : Nat) (lanes : LaneMask) : State :=
  match s.courses.find cid with
  | none => s
  | some c =>
    let e := s.stackEntry c j
    s.putEntry c j { e with mask := e.mask ||| lanes, out := e.out - 1, kind := if e.out ≤ 1 then 0 else 1 }

/-- The window base that an entry's WBASE names: that of the depth vector where the two agree, else the one in the resident span that
WBASE stands for, since the course follows what it finds (R79, R104). -/
def Course.lwbOf (c : Course) (lwb wbase : Nat) : Nat :=
  if c.wbase lwb = wbase ∨ c.rows = 0 then lwb else c.lo + (wbase + 4096 * c.rows - c.segbase - c.lo % c.rows) % c.rows

/-- A ready entry as a path: depth and LWB come from the depth vector of its frame mask, read in a lane that has not exited (R106), and
WBASE says which window it is. -/
def State.fromStack (s : State) (c : Course) (i : Nat) (e : PEntry) : Path :=
  let fm := (c.stackFm.getD i e.mask) &&& e.mask
  let v := s.privSee c (depthOff (lowLane (if fm &&& ~~~c.exited = 0 then fm else fm &&& ~~~c.exited))) 8
  Group.start { lanes := e.mask, fmask := fm, ovl := e.ovl, idx := e.idx, d := e.d, lwb := c.lwbOf (4 * bits v 16 16) e.wbase, depth := bits v 0 10 }
    e.prio e.jidx

/-- The depth-vector entries of a resumed path's exited lanes become those of its frame (R106): lanes that exited inside a group of the split
left theirs behind. -/
def State.evenDepth (s : State) (c : Course) (q : Path) : State :=
  (lanesOf (q.fmask &&& c.exited)).foldl (fun s l => s.privTry c (depthOff l) 8 (depthEntry q.lwb q.depth)) s

/-- Frees a path slot, which takes the ready entry nearest the top of the stack; a path without living lanes ends at once
and arrives at its own join (R78). A slot that is refilled at once does not become empty, and the sibling's demotion stands (R77, log entry 100). -/
def State.freeSlot : Nat → State → Nat → Nat → State
  | 0, s, cid, p => s.dropPath cid p
  | fuel + 1, s, cid, p =>
    let s := s.dropPath cid p
    match s.courses.find cid with
    | none => s
    | some c =>
      match (List.range c.stack).reverse.find? (fun i => let e := s.stackEntry c i; e.kind == 0 && e.mask != 0) with
      | none =>
        s.setCourse cid { c with
          stack := s.stackTop c c.stack,
          paths := c.paths.map (fun q => (q.1, { q.2 with demoted := Option.none })) }
      | some i =>
        let e := s.stackEntry c i
        let q := s.fromStack c i e
        let s := s.putEntry c i { e with kind := 2 }
        let top := s.stackTop c c.stack
        let s := s.modCourse cid (fun c => { c with stack := top, stackFm := c.stackFm.del i })
        if q.lanes &&& ~~~c.exited = 0 then
          let s := match q.jidx with
            | some j => s.arrive cid j q.lanes
            | none => s
          s.freeSlot fuel cid p
        else (s.evenDepth c q).modCourse cid (fun c => { c with paths := c.paths.put p q })

/-- Ends a path: it arrives at its join, if it has one, and its slot is freed; a join that leaves one path and an empty stack
clears %sig (R78, R306). -/
def State.endPath (s : State) (cid p : Nat) : State :=
  match s.path cid p with
  | none => s
  | some q =>
    let s := match q.jidx with
      | some j => s.arrive cid j q.lanes
      | none => s
    let s := s.freeSlot 520 cid p
    match s.courses.find cid with
    | some c => if q.jidx.isSome && c.single then s.setCourse cid { c with sig := 0 } else s
    | none => s

/-! ### Calls and returns (R75, R108, R332) -/

/-- call, and callv with one target: the checks of R332 in order, then the new frame (R108). -/
def callTo (dst : Nat × Nat) (n : Nat) (env : Env) (s : State) : Res :=
  let q := env.pa
  let lwb := q.lwb + 4 * n
  transfer s env dst (
    if q.depth = 1023 then .trap Trap.field else
    match env.co.windowTrap lwb with
    | some t => .trap t
    | none =>
      let E := env.active
      let f : Frame := { mask := q.fmask.toNat, ovl := q.ovl, idx := q.idx + 1, d := q.d, units := n, kind := 0, marked := false,
                         mark := 0 }
      match s.enterFrame env.co (q.depth + 1) lwb f (lanesOf E) with
      | .error t => .trap t
      | .ok s =>
        .done (s.setPath env.cid env.p { q with fmask := E, d := 0, lwb := lwb, depth := q.depth + 1 }) { go := some dst })

/-- CALL (R75). -/
def execCall (x : Args) (s : State) : Answer :=
  issue Enc.call x (fun env s =>
    if env.acting x = 0 then .ok s else callTo (env.targetOf x.a x.b) (Mod.number x.m) env s) s

/-- The lanes of a list grouped by a key, groups ordered by their lowest lane. -/
def groupBy (key : Nat → Nat) : List Nat → List (Nat × LaneMask)
  | [] => []
  | l :: t =>
    let g := groupBy key t
    let k := key l
    let bit := BitVec.ofNat 64 (2 ^ l)
    match g.find? (fun e => e.1 = k) with
    | some e => (k, e.2 ||| bit) :: g.filter (fun e => e.1 ≠ k)
    | none => (k, bit) :: g

/-- A code address packed as in R56. -/
def unpackCode (v : Nat) : Nat × Nat := (bits v 16 16, bits v 0 16)

/-- callv with two or more targets splits the path (R75, R78, R332). -/
def callSplit (gs : List (Nat × LaneMask)) (n : Nat) (env : Env) (s : State) : Res :=
  let q := env.pa
  let lwb := q.lwb + 4 * n
  let T := gs.foldl (fun m g => m ||| g.2) 0
  let first := gs.findSome? (fun g =>
    match s.target env.co.core env.co.ctx (unpackCode g.1).1 (unpackCode g.1).2 with
    | .ok => Option.none
    | .bad t => some (Target.bad (t.onLane (lowLane g.2)))
    | t => some t)
  match first with
  | some (.bad t) => .trap t
  | some (.wait id) => .later (.overlay id)
  | _ =>
    let l := gs.map (fun g => { lanes := g.2, fmask := g.2, ovl := (unpackCode g.1).1, idx := (unpackCode g.1).2, d := 0,
                                lwb := lwb, depth := q.depth + 1 : Group })
    if q.depth = 1023 ∨ !env.co.splitFits env.p l then .trap Trap.field else
    match env.co.windowTrap lwb with
    | some t => .trap t
    | none =>
      let f : Frame := { mask := q.fmask.toNat, ovl := q.ovl, idx := q.idx + 1, d := q.d, units := n, kind := 2, marked := false,
                         mark := 0 }
      match (do splitPath (← s.enterFrame env.co (q.depth + 1) lwb f (lanesOf T)) env (q.lanes &&& ~~~T) (q.ovl, q.idx + 1) l) with
      | .error t => .trap t
      | .ok s => .done s { go := l.head?.map (fun g => (g.ovl, g.idx)) }

/-- CALLV (R75). -/
def execCallv (x : Args) (s : State) : Answer :=
  issue Enc.callv x (fun env s =>
    let gs := groupBy (fun l => s.lane env x .n32 x.a l) (lanesOf (env.acting x))
    match gs with
    | [] => .ok s
    | [g] =>
      match s.target env.co.core env.co.ctx (unpackCode g.1).1 (unpackCode g.1).2 with
      | .bad t => .trap (t.onLane (lowLane g.2))
      | _ => callTo (unpackCode g.1) (Mod.number x.m) env s
    | gs => callSplit gs (Mod.number x.m) env s) s

/-- Removing frame k closes the region opened in it (R303). -/
def Course.closeAt (c : Course) (k : Nat) : Course := if c.region.depth = k then { c with regpc := noRegion } else c

/-- Clears c, X and K in given lanes. -/
def Course.clearLanes (c : Course) (m : LaneMask) : Course :=
  { c with c := cMap c.c (fun l v => if m.getLsbD l then 0 else v), x := c.x &&& ~~~m, k := c.k &&& ~~~m }

/-- Lanes of a course that are enrolled at a barrier, or will be by an arrival under way. -/
def State.enrolling (s : State) (cid : Nat) (c : Course) (b : Nat) : LaneMask :=
  (s.opsOf cid).foldl (fun m o => match o.2.kind with
    | .arrive k _ todo => if k = b then m ||| maskOf todo.contains else m
    | _ => m) (c.barE.getD b 0)

/-- Exiting lanes leave their crews and their barriers (R223, R231). -/
def State.exitEvents (s : State) (env : Env) (c : Course) (m : LaneMask) : State :=
  let crews := (lanesOf m).filter (fun l => (c.crew.find l).isSome ||
    (s.opsOf env.cid).any (fun o => match o.2.kind with
      | .crew todo _ => todo.any (fun e => e.1 == l)
      | _ => false))
  let s := if crews.isEmpty then s else s.addSilent env (.crew (crews.map (fun l => (l, none))) false)
  (List.range 24).foldl (fun (s : State) b =>
    let l := lanesOf (s.enrolling env.cid c b &&& m)
    if l.isEmpty then s else s.addSilent env (.arrive b 3 l)) s

/-- Marks lanes exited; the path ends if none of its lanes remains (R75). -/
def exitLanes (m : LaneMask) (env : Env) (s : State) : Res :=
  match s.courses.find env.cid with
  | none => .ok s
  | some c =>
    let s := (s.setCourse env.cid { c with exited := c.exited ||| m }).exitEvents env c (m &&& ~~~c.exited)
    if env.pa.lanes &&& ~~~(c.exited ||| m) = 0 then .done (s.endPath env.cid env.p) { gone := true } else .ok s

/-- ret of a frame entered by call: the caller's frame mask, d and window come back (R108, R332). -/
def retCall (r : Frame) (env : Env) (s : State) : Res :=
  let q := env.pa
  let back := (r.ovl, r.idx)
  let lwb := q.lwb - 4 * r.units
  let fm := BitVec.ofNat 64 r.mask &&& q.lanes
  transfer s env back (
    match env.co.windowTrap lwb with
    | some t => .trap t
    | none =>
      match s.putDepth env.co (q.depth - 1) lwb (lanesOf fm) with
      | .error t => .trap t
      | .ok s =>
        match s.courses.find env.cid with
        | none => .ok s
        | some c =>
          let c := (c.clearLanes q.fmask).closeAt q.depth
          let q' := { q with fmask := fm, d := r.d, lwb := lwb, depth := q.depth - 1,
                             ent := q.ent.filter (fun e => e.1 < regionKey q.depth 0) }
          .done (s.setCourse env.cid { c with paths := c.paths.put env.p q' }) { go := some back })

/-- ret of a frame entered by a split: the path arrives at its join (R75, R78). -/
def retSplit (r : Frame) (env : Env) (s : State) : Res :=
  let q := env.pa
  match s.putDepth env.co (q.depth - 1) (q.lwb - 4 * r.units) (lanesOf q.lanes) with
  | .error t => .trap t
  | .ok s =>
    match s.courses.find env.cid with
    | none => .ok s
    | some c =>
      let s := s.setCourse env.cid ((c.clearLanes q.fmask).closeAt q.depth)
      .done (s.endPath env.cid env.p) { gone := true }

/-- A course that resumes a slice: returns into its launch frame exit the lanes (R121). -/
def State.isResumption (s : State) (c : Course) : Bool :=
  match s.kernels.find c.kern with
  | some k => k.graft.isSome
  | none => false

/-- RET (R75, R108, R332). -/
def execRet (x : Args) (s : State) : Answer :=
  issue Enc.ret x (fun env s =>
    if env.acting x = 0 then .ok s else
    let q := env.pa
    let l := lowLane q.fmask
    match (do let r ← s.frameAt env.co q.depth l; let _ ← s.privRead env.co (depthOff l) 8; pure r) with
    | .error t => .trap t
    | .ok r =>
      if q.depth = 0 ∨ r.kind = 1 then
        match s.courses.find env.cid with
        | none => .ok s
        | some c => exitLanes q.fmask env (s.setCourse env.cid (c.clearLanes q.fmask))
      else if r.kind = 2 then retSplit r env s
      else if q.depth = 1 && s.isResumption env.co then
        match s.courses.find env.cid with
        | none => .ok s
        | some c => exitLanes ((BitVec.ofNat 64 r.mask &&& q.lanes) ||| q.fmask) env (s.setCourse env.cid (c.clearLanes q.fmask))
      else retCall r env s) s

/-! ### Priority, yield, exit, nop (R75, R77) -/

/-- PRIO (R75). -/
def execPrio (x : Args) (s : State) : Answer :=
  issue Enc.prio x (fun env s =>
    if env.acting x = 0 then .ok s else
    .ok (s.setPath env.cid env.p { env.pa with prio := Mod.number x.m, demoted := none })) s

/-- YIELD (R75, R77). -/
def execYield (x : Args) (s : State) : Answer :=
  issue Enc.yield x (fun env s =>
    if (env.co.paths.find (1 - env.p)).isSome then .ok (s.setPath env.cid env.p { env.pa with demoted := some 0 }) else .ok s) s

/-- EXIT (R75). -/
def execExit (x : Args) (s : State) : Answer :=
  issue Enc.exit x (fun env s => if env.acting x = 0 then .ok s else exitLanes (env.acting x) env s) s

/-- NOP (R75). -/
def execNop (x : Args) (s : State) : Answer := issue Enc.nop x (fun _ s => .ok s) s

/-! ### Special registers (R67, R68) -/

/-- The crew number that a lane reads; 0xFFFF_FFFF outside a crew (R220). -/
def Course.crewOf (c : Course) (l : Nat) : Nat := c.crewRd.getD l 0xFFFFFFFF

/-- The tile that a B field names, in the bent of the course. -/
def Env.tileKey (e : Env) (o : Opnd) : Nat := 8 * bentOf e.co.core + o.num

/-- A tile; free and clear before anything holds it. -/
def State.tile (s : State) (k : Nat) : Tile := s.tiles.getD k { st := .free, last := none, mst := 0, act := false, step := 0 }

/-- The value of a special register, for lane registers in lane l (R67). -/
def State.special (s : State) (e : Env) (n : Nat) (tile : Opnd) (l : Nat) : Nat :=
  let c := e.co
  match n with
  | 0x00 => Config.width
  | 0x01 => l
  | 0x02 => (c.index * Config.width + l) % 2 ^ 32
  | 0x03 => c.cslot
  | 0x04 => c.core
  | 0x05 => c.core % 48 / 8
  | 0x06 => dieOf c.core
  | 0x07 => s.partOf c.ctx
  | 0x08 => c.crewOf l
  | 0x09 => s.time.ns % 2 ^ 64
  | 0x0A => c.kst.toNat
  | 0x0B => c.sig.toNat
  | 0x0C => let t := s.tile (e.tileKey tile); (if t.act then 2 ^ 31 else 0) + t.step
  | 0x0D => (s.tile (e.tileKey tile)).mst.toNat
  | 0x0E => c.wbase e.pa.lwb
  | 0x0F => c.regpc.toNat
  | 0x10 => e.pa.prio
  | 0x11 => if c.clamped then 1 else 0
  | _ => 0x00020000000003FF

/-- The course holds a tile (R188). -/
def State.holdsTile (s : State) (cid k : Nat) : Bool := (s.tile k).st == .held cid

/-- Whether a special register with its tile operand may be named (R68, R188). -/
def State.specialOk (s : State) (e : Env) (n : Nat) (tile : Opnd) : Bool :=
  !tileSpecial n || s.holdsTile e.cid (e.tileKey tile)

/-- SRD (R67, R68). -/
def execSrd (x : Args) (s : State) : Answer :=
  issue Enc.srd x (fun env s =>
    let n := x.a.num
    if !s.specialOk env n x.b then .trap Trap.field else
    .ok (s.put env (if wideSpecial n then .n64 else .n32) x.d ((env.runs x).map (fun l => (l, s.special env n x.b l))))) s

/-- The write of a value to a special register (R67): W1C registers clear, %sig takes it, the others ignore it. -/
def State.writeSpecial (s : State) (e : Env) (n : Nat) (tile : Opnd) (v : Word) : State :=
  match s.courses.find e.cid with
  | none => s
  | some c =>
    match n with
    | 0x0A => s.setCourse e.cid { c with kst := c.kst &&& ~~~v }
    | 0x0B => s.setCourse e.cid { c with sig := v.setWidth 32 }
    | 0x0D =>
      let k := e.tileKey tile
      { s with tiles := s.tiles.put k { s.tile k with mst := (s.tile k).mst &&& ~~~(v.setWidth 32) } }
    | 0x11 => s.setCourse e.cid { c with clamped := c.clamped && !v.getLsbD 0 }
    | _ => s

/-- SWR (R67, R68): course-level; a write to %sig takes no update of its own (R306). -/
def execSwr (x : Args) (s : State) : Answer :=
  issue Enc.swr x (fun env s =>
    let n := x.d.num
    if !s.specialOk env n x.b then .trap Trap.field else
    if env.acting x = 0 then .ok s else
    .done (s.writeSpecial env n x.b (BitVec.ofNat 64 (env.val x .b64 x.a))) { sig := decide (n ≠ 0x0B) }) s

end Sys2Proof.Machine
end

