-- ==== Sys2Proof/Machine/Record.lean ====
section
/-!
DEFINITION. The course record of the save area (R280): what a claim stores of a course, what a resumption reads back, and what a migrated
context finds there beside it (log entries 112 and 115).
-/

namespace Sys2Proof.Machine

/-! ### The matrix queue (R185, R280; log entry 112) -/

/-- The number of a matrix operation's family and types in a queue entry. -/
def MatKind.code : MatKind → Nat
  | .mma a b => 1 + 16 * a.code.toNat + 512 * b.code.toNat
  | .mmq q => 2 + 16 * q.code.toNat
  | .mmsp a => 3 + 16 * a.code.toNat
  | .mzero => 4
  | .mld t => 5 + 16 * t.code.toNat
  | .mstr t => 6 + 16 * t.code.toNat
  | .wbld => 7
  | .spdg => 8
  | .spsal => 9

/-- The matrix operation that a number stands for. -/
def MatKind.ofCode (n : Nat) : Option MatKind :=
  let a := Ty.ofCode (BitVec.ofNat 5 (n / 16))
  match n % 16 with
  | 1 => a.bind (fun a => (Ty.ofCode (BitVec.ofNat 5 (n / 512))).map (fun b => .mma a b))
  | 2 => a.map .mmq
  | 3 => a.map .mmsp
  | 4 => some .mzero
  | 5 => a.map .mld
  | 6 => a.map .mstr
  | 7 => some .wbld
  | 8 => some .spdg
  | 9 => some .spsal
  | _ => none

/-- The 64 bytes of a queue entry. -/
def Op.matEntry (o : Op) : Nat :=
  match o.kind with
  | .mat m =>
    (m.kind.code * 2 ^ 50 + m.tile % 8 * 2 ^ 47 + m.mods.toNat * 2 ^ 42
      + (match o.flag with
         | some f => f.toNat + 1
         | none => 0) * 2 ^ 37 + o.path % 2 * 2 ^ 36 + o.ovl % 2 ^ 16 * 2 ^ 16 + o.idx % 2 ^ 16)
      + 2 ^ 64 * m.wref.toNat + 2 ^ 128 * m.addr.toNat + 2 ^ 192 * (m.n % 2 ^ 32 * 2 ^ 32 + m.line % 2 ^ 32)
      + 2 ^ 256 * m.sha.toNat + 2 ^ 384 * m.shb.toNat
  | _ => 0

/-- The operation that a queue entry holds: the scales and zero points of an mmq, for which an entry has no room, are left out. -/
def matOfEntry (cid ctx n : Nat) : Option Op :=
  (MatKind.ofCode (bits n 50 14)).map (fun k =>
    let f := bits n 37 5
    { cid := some cid, ctx := ctx, path := bits n 36 1, ovl := bits n 16 16, idx := bits n 0 16,
      flag := if f = 0 then none else some (BitVec.ofNat 4 (f - 1)), lwb := 0, pend := [],
      kind := .mat { kind := k, tile := bits n 47 3, sha := BitVec.ofNat 128 (bits n 256 128), shb := BitVec.ofNat 128 (bits n 384 128),
                     wref := BitVec.ofNat 64 (bits n 64 64), mods := BitVec.ofNat 5 (bits n 42 5), sigma := [], zero := [],
                     addr := BitVec.ofNat 64 (bits n 128 64), n := bits n 224 32, line := bits n 192 32, sparse := none } })

/-! ### The words of a record -/

/-- A nesting counter with its X, K and exited bits as a lane's entry of the record. -/
def laneEntry (c : BitVec 512) (x k : LaneMask) (l : Nat) : Nat :=
  cOf c l + (if x.getLsbD l then 2 ^ 8 else 0) + (if k.getLsbD l then 2 ^ 9 else 0)

/-- A path slot in the layout of R79; a slot without a path is a free entry. -/
def Course.pathEntry (c : Course) (p : Nat) : Nat :=
  match c.paths.find p with
  | some q => PEntry.pack { mask := q.lanes, ovl := q.ovl, idx := q.idx, d := q.d, prio := q.prio, kind := 0,
                            wbase := c.wbase q.lwb, out := 0, jidx := q.jidx }
  | none => PEntry.pack { mask := 0, ovl := 0, idx := 0, d := 0, prio := 0, kind := 2, wbase := 0, out := 0, jidx := none }

/-- The words of a record below its rows, but for header and matrix queue: offset, bytes and value. -/
def Course.bodyWords (c : Course) : List (Nat × Nat × Nat) :=
  let bit (b : Bool) (n : Nat) : Nat := if b then 2 ^ n else 0
  (List.range 64).map (fun i => (0x080 + 8 * i, 8, (c.scalar i).toNat))
  ++ [(0x280, 8, c.xr.toNat), (0x288, 8, c.xseq.toNat + bit c.ne 32 + bit c.ex 33),
      (0x290, 16, (List.range 12).foldl (fun n f => n + c.flags.getD f 0 % 64 * 2 ^ (6 * f)) 0),
      (0x2A0, 8, c.sig.toNat), (0x2A8, 8, c.regpc.toNat), (0x2B0, 16, bit c.clamped 0),
      (0x2C0, 272, c.acc.toNat), (0x3D0, 8, c.kst.toNat),
      (0x400, 272, c.region.acc.toNat), (0x510, 16, c.region.xseq.toNat),
      (0x540, 32, c.pathEntry 0), (0x560, 32, c.pathEntry 1)]
  ++ (List.range 4).map (fun i => (0x580 + 16 * i, 16, (c.shapes.getD i 0).toNat))
  ++ (List.range 4).flatMap (fun i => (List.range 8).map (fun j =>
      (0x5C0 + 64 * i + 8 * j, 8, match c.binds.find i with
        | some b => wordAt b.words j
        | none => 0)))
  ++ (List.range 64).map (fun l => (0x900 + 8 * l, 8,
      (List.range 48).foldl (fun n p => n + bit ((c.pred p).getLsbD l) p) 0))
  ++ (List.range 64).map (fun l => (0xB00 + 2 * l, 2, laneEntry c.c c.x c.k l + bit (c.exited.getLsbD l) 10))
  ++ (List.range 64).map (fun l => (0xB80 + 8 * l, 8,
      (List.range 24).foldl (fun n b => n + bit ((c.barE.getD b 0).getLsbD l) b + bit ((c.barA.getD b 0).getLsbD l) (24 + b)) 0))
  ++ [(0xD80, 8, c.region.lwb / 4 * 2 ^ 48 + c.region.depth % 1024 * 2 ^ 32 + c.region.restarts % 256 * 2 ^ 16
        + c.region.d % 256 * 2 ^ 8 + c.region.prio % 8),
      (0xD88, 8, c.region.fmask.toNat), (0xD90, 48, 0)]
  ++ (let h (p : Nat) : Option Shim := (c.paths.find p).bind (·.shim)
      [(0xDC0, 8, [0, 1].foldl (fun n p => n + (match h p with
          | some v => v.d % 256 * 2 ^ (8 * p)
          | none => 0)) 0),
       (0xDC8, 8, [0, 1].foldl (fun n p => n + bit (h p).isSome p) 0)]
      ++ [0, 1].flatMap (fun p => match h p with
          | some v => (List.range 64).map (fun l => (0xE00 + 128 * p + 2 * l, 2, laneEntry v.c v.x v.k l))
          | none => []))

/-- The entries of a course's matrix queue. -/
def State.queueWords (s : State) (c : Course) : List (Nat × Nat × Nat) :=
  (List.range 8).map (fun i => (0x6C0 + 64 * i, 64, match (c.mq[i]?).bind s.ops.find with
    | some o => o.matEntry
    | none => 0))

/-- Stores the whole course state but for its rows; a block that holds a poisoned register carries the mark (R310). -/
def State.saveBody (s : State) (c : Course) : Option State :=
  (s.recordAt c 0 true).map (fun pa =>
    let s := s.putWords pa (c.headWords (s.courseNode c) ++ c.bodyWords ++ s.queueWords c)
    let s : State := { s with poison := clearPoison s.poison (s.cell pa) 0xF00 }
    let s := (List.range 8).foldl (fun (s : State) i =>
      if bits c.sPoison.toNat (8 * i) 8 ≠ 0 then s.markPoison (pa + 0x080 + 64 * i) 64 else s) s
    let s := if c.pPoison ≠ 0 then s.markPoison (pa + 0x900) 512 else s
    if c.xPoison then s.markPoison (pa + 0x280) 8 else s)

/-! ### Reading a record -/

/-- Marks of registers after a block of the record that holds them has been read: none of a sound block; of a poisoned one those the course
had, or, where it had none, all of them (R310). -/
def marksBack (had block : BitVec 64) (bad : Bool) : BitVec 64 :=
  if !bad then 0 else if had &&& block = 0 then block else had &&& block

/-- A path as a path slot of the record gives it where the course held none: between runs, in the window that WBASE names, at the depth of
its frame mask's depth vector (R79, R106). -/
def State.entryPath (s : State) (c : Course) (e : PEntry) : Path :=
  let v := s.privSee c (depthOff (lowLane e.mask)) 8
  Group.start { lanes := e.mask, fmask := e.mask, ovl := e.ovl, idx := e.idx, d := e.d, lwb := c.lwbOf (4 * bits v 16 16) e.wbase,
                depth := bits v 0 10 } e.prio e.jidx

/-- A path with what its path slot of the record holds; the run it would resume is another one where the code address has changed. -/
def Path.fromEntry (q : Path) (c : Course) (e : PEntry) : Path :=
  { q with
    lanes := e.mask, ovl := e.ovl, idx := e.idx, d := e.d, prio := e.prio, jidx := e.jidx, lwb := c.lwbOf q.lwb e.wbase,
    run := if q.ovl = e.ovl ∧ q.idx = e.idx then q.run else none }

/-- The course as its record gives it back, which is what it resumes with whatever a program has written there (R280). Its capacity, its
matrix queue and what the record has no place for stay as the device holds them; a binding slot that holds a descriptor is bound. -/
def State.readBody (s : State) (c : Course) : Option Course :=
  (s.recordAt c 0 false).map (fun pa =>
    let w (off n : Nat) : Nat := s.peekNat (pa + off) n
    let lane (base l : Nat) : Nat := w (base + 2 * l) 2
    let bad (off n : Nat) : Bool := (s.poisoned (pa + off) n).isSome
    let cs (base : Nat) : BitVec 512 := cMap 0 (fun l _ => bits (lane base l) 0 8)
    let mask (base b : Nat) : LaneMask := maskOf (fun l => nbit (lane base l) b)
    let bar (n : Nat) : LaneMask := maskOf (fun l => nbit (w (0xB80 + 8 * l) 8) n)
    let rg := w 0xD80 8
    let path (p : Nat) : Option (Nat × Path) :=
      let e := PEntry.ofNat (w (0x540 + 32 * p) 32)
      if e.kind ≠ 0 ∨ e.mask = 0 then none else
      let q := match c.paths.find p with
        | some q => q.fromEntry c e
        | none => s.entryPath c e
      let h := q.shim.getD { c := 0, x := 0, k := 0, d := 0, run := none, ent := [] }
      some (p, { q with
        shim := if nbit (w 0xDC8 8) p then
            some { h with c := cs (0xE00 + 128 * p), x := mask (0xE00 + 128 * p) 8, k := mask (0xE00 + 128 * p) 9, d := bits (w 0xDC0 8) (8 * p) 8 }
          else none })
    let bind (i : Nat) : Option (Nat × Binding) :=
      let l := (List.range 8).map (fun j => BitVec.ofNat 64 (w (0x5C0 + 64 * i + 8 * j) 8))
      match c.binds.find i with
      | some b => some (i, { b with words := l })
      | none => if l.all (· == 0) then none else some (i, { words := l, op := 2 ^ 63 + i, live := true })
    { c with
      index := bits (w 0x008 8) 32 32, hw := bits (w 0x008 8) 0 32,
      scal := (List.range 64).foldl (fun (t : Tab (BitVec 64)) i => t.set 0 i (BitVec.ofNat 64 (w (0x080 + 8 * i) 8))) [],
      xr := BitVec.ofNat 64 (w 0x280 8), xseq := BitVec.ofNat 32 (w 0x288 8), ne := nbit (w 0x288 8) 32, ex := nbit (w 0x288 8) 33,
      flags := (List.range 12).foldl (fun (t : Tab Nat) f => t.set 0 f (bits (w 0x290 16) (6 * f) 6)) [],
      sig := BitVec.ofNat 32 (w 0x2A0 8), regpc := BitVec.ofNat 32 (w 0x2A8 8), clamped := nbit (w 0x2B0 8) 0,
      acc := BitVec.ofNat 2176 (w 0x2C0 272), kst := BitVec.ofNat 64 (w 0x3D0 8),
      region := { c.region with
        acc := BitVec.ofNat 2176 (w 0x400 272), xseq := BitVec.ofNat 32 (w 0x510 8),
        lwb := 4 * bits rg 48 16, depth := bits rg 32 10, restarts := bits rg 16 8, d := bits rg 8 8, prio := bits rg 0 3,
        fmask := BitVec.ofNat 64 (w 0xD88 8) },
      paths := [0, 1].filterMap path,
      shapes := (List.range 4).foldl (fun (t : Tab (BitVec 128)) i => t.set 0 i (BitVec.ofNat 128 (w (0x580 + 16 * i) 16))) [],
      binds := [0, 1, 2, 3].filterMap bind,
      preds := (List.range 48).foldl (fun (t : Tab LaneMask) p => t.set 0 p (maskOf (fun l => nbit (w (0x900 + 8 * l) 8) p))) [],
      c := cs 0xB00, x := mask 0xB00 8, k := mask 0xB00 9, exited := mask 0xB00 10,
      barE := (List.range 24).foldl (fun (t : Tab LaneMask) b => t.set 0 b (bar b)) [],
      barA := (List.range 24).foldl (fun (t : Tab LaneMask) b => t.set 0 b (bar (24 + b))) [],
      sPoison := (List.range 8).foldl (fun m i => m ||| marksBack c.sPoison (BitVec.ofNat 64 (0xFF * 2 ^ (8 * i))) (bad (0x080 + 64 * i) 64)) 0,
      pPoison := marksBack c.pPoison (BitVec.ofNat 64 (2 ^ 48 - 1)) (bad 0x900 512),
      xPoison := bad 0x280 8,
      saved := false })

/-- A change of a course's registers: of a course whose slot has been claimed, to its record, so that a result that comes late is what it
resumes with (R278, R280). -/
def State.inRecord (s : State) (cid : Nat) (f : State → State) : State :=
  match s.courses.find cid with
  | none => f s
  | some c =>
    if !c.saved then f s else
    match s.readBody c with
    | none => f s
    | some b =>
      let t := f (s.setCourse cid { b with saved := true })
      match t.courses.find cid with
      | some d => (t.saveBody d).getD t
      | none => t

/-- SPL as the record of a course holds it; the course's own where its page does not give it (R280). -/
def State.recordSpl (s : State) (c : Course) : BitVec 512 :=
  if c.spl = 0 ∧ !c.saved then 0 else
  match s.recordAt c 0x040 false with
  | some pa => BitVec.ofNat 512 (s.peekNat pa 64)
  | none => c.spl

/-! ### What a migrated context finds beside the stated fields (log entry 115) -/

/-- A number or nothing, as one number. -/
def optNat : Option Nat → Nat
  | none => 0
  | some n => n + 1

/-- The number or nothing that a number stands for. -/
def natOpt (n : Nat) : Option Nat := if n = 0 then none else some (n - 1)

/-- A run that a path resumes. -/
def Run.word (r : Option Run) : Nat :=
  match r with
  | none => 0
  | some r => 1 + r.wait.toNat * 2 + optNat (r.fa.map (·.toNat)) * 2 ^ 13 + optNat (r.fb.map (·.toNat)) * 2 ^ 18 + r.len % 2 ^ 32 * 2 ^ 23

/-- The run that a word stands for. -/
def Run.ofWord (n : Nat) : Option Run :=
  if n = 0 then none else
  some { wait := BitVec.ofNat 12 (n / 2), fa := (natOpt (bits n 13 5)).map (BitVec.ofNat 4), fb := (natOpt (bits n 18 5)).map (BitVec.ofNat 4),
         len := bits n 23 32 }

/-- The words of what a path waits for. A wait that ends with the halt or that only this device's state decides is left out: its
instruction is executed anew, or its condition holds at the destination. -/
def Wait.words : Wait → List Nat
  | .xget d e p lanes => [1, d.toNat, e.toNat, optNat (p.map (·.toNat)), lanes.toNat]
  | .bar b _ lanes p freed => [2, b, optNat (p.map (·.toNat)), lanes.toNat, if freed then 1 else 0]
  | .barWake _ lanes ones p => [3, lanes.toNat, ones.toNat, optNat (p.map (·.toNat))]
  | .sig va _ cc v d got => [4, va, cc, v.toNat, optNat (d.map (·.toNat)), match got with
      | none => 0
      | some none => 1
      | some (some _) => 2, match got with
      | some (some w) => w.toNat
      | _ => 0]
  | .gate g v d got => [5, g, v.toNat, optNat (d.map (·.toNat)), optNat (got.map (fun _ => 0)), (got.getD 0).toNat]
  | .remoteGate _ _ name v d got => [6, name, v.toNat, optNat (d.map (·.toNat)), optNat (got.map (fun _ => 0)), (got.getD 0).toNat]
  | .xqroom q limit => [7, q, limit]
  | _ => []

/-- The wait that such words stand for; the place of a bar.wait is after everything that came with the context. -/
def Wait.ofWords (place : Nat) (l : List Nat) : Wait :=
  let w (i : Nat) : Nat := l.getD i 0
  let reg (n : Nat) : Option (BitVec 6) := (natOpt n).map (BitVec.ofNat 6)
  let val (n v : Nat) : Option Word := (natOpt n).map (fun _ => BitVec.ofNat 64 v)
  match w 0 with
  | 1 => .xget (BitVec.ofNat 6 (w 1)) (BitVec.ofNat 32 (w 2)) (reg (w 3)) (BitVec.ofNat 64 (w 4))
  | 2 => .bar (w 1) place (BitVec.ofNat 64 (w 3)) (reg (w 2)) (w 4 == 1)
  | 3 => .barWake 0 (BitVec.ofNat 64 (w 1)) (BitVec.ofNat 64 (w 2)) (reg (w 3))
  | 4 => .sig (w 1) 0 (w 2) (BitVec.ofNat 64 (w 3)) (reg (w 4))
      (if w 5 = 0 then none else if w 5 = 1 then some none else some (some (BitVec.ofNat 64 (w 6))))
  | 5 => .gate (w 1) (BitVec.ofNat 64 (w 2)) (reg (w 3)) (val (w 4) (w 5))
  | 6 => .remoteGate 12 (2 ^ 32) (w 1) (BitVec.ofNat 64 (w 2)) (reg (w 3)) (val (w 4) (w 5))
  | 7 => .xqroom (w 1) (w 2)
  | _ => .nothing

/-- Words at 8-byte places from an offset on. -/
def spread (off n : Nat) (l : List Nat) : List (Nat × Nat × Nat) := (List.range n).map (fun i => (off + 8 * i, 8, l.getD i 0))

/-- Entry masks as words. -/
def entWords (l : List (Nat × LaneMask)) : List Nat := l.flatMap (fun e => [e.1 + 1, e.2.toNat])

/-- Entry masks of 16 words. -/
def entOf (w : Nat → Nat) : List (Nat × LaneMask) :=
  (List.range 8).filterMap (fun i => (natOpt (w (2 * i))).map (fun k => (k, BitVec.ofNat 64 (w (2 * i + 1)))))

/-- A late trap as five words. -/
def LateTrap.words (t : LateTrap) : List Nat :=
  [1 + t.trap.cls.toNat * 2 ^ 8 + t.trap.sub.toNat * 2 ^ 16 + t.trap.lane.toNat * 2 ^ 24 + (if t.trap.stay then 2 ^ 32 else 0),
   t.trap.addr.toNat, t.trap.info.toNat, t.ovl * 2 ^ 16 + t.idx, t.place]

/-- The late traps of a record: as many as its room holds. -/
def lateOf (w : Nat → Nat) : List LateTrap :=
  (List.range 128).filterMap (fun i =>
    let n := w (5 * i)
    if n = 0 then none else
    some { trap := { cls := BitVec.ofNat 8 (n / 2 ^ 8), sub := BitVec.ofNat 8 (n / 2 ^ 16), lane := BitVec.ofNat 8 (n / 2 ^ 24),
                     addr := BitVec.ofNat 64 (w (5 * i + 1)), info := BitVec.ofNat 64 (w (5 * i + 2)), stay := nbit n 32 },
           ovl := w (5 * i + 3) / 2 ^ 16, idx := w (5 * i + 3) % 2 ^ 16, place := w (5 * i + 4) })

/-- What a path holds beside its path slot: offset, bytes and value, from 0x4000 + 0x2000 · p on. -/
def Path.extraWords (q : Path) (p : Nat) : List (Nat × Nat × Nat) :=
  spread (0x4000 + 0x2000 * p) 128
    ([q.fmask.toNat, q.lwb, q.depth, optNat q.demoted, if q.gap then 1 else 0, Run.word q.run, Run.word (q.shim.bind (·.run)), if q.stopped then 1 else 0]
      ++ (List.range 16).map (fun i => (entWords q.ent).getD i 0)
      ++ (List.range 16).map (fun i => (entWords ((q.shim.map (·.ent)).getD [])).getD i 0)
      ++ (List.range 16).map (fun i => q.wait.words.getD i 0))
  ++ spread (0x4400 + 0x2000 * p) 640 (q.late.flatMap LateTrap.words)

/-- A path of a migrated context with what its record holds beside its path slot. -/
def Path.withExtra (q : Path) (place : Nat) (w : Nat → Nat) : Path :=
  { q with
    fmask := BitVec.ofNat 64 (w 0), lwb := w 1, depth := w 2, demoted := natOpt (w 3), gap := w 4 == 1, run := Run.ofWord (w 5),
    shim := q.shim.map (fun h => { h with run := Run.ofWord (w 6), ent := entOf (fun i => w (24 + i)) }),
    ent := entOf (fun i => w (8 + i)), wait := Wait.ofWords place ((List.range 16).map (fun i => w (40 + i))),
    stopped := w 7 == 1, late := lateOf (fun i => w (128 + i)) }

/-- A held barrier arrival as three words: number, mode and flag; the issuing path; the lanes (R230). -/
def Op.arrivalWords (o : Op) : List Nat :=
  match o.kind with
  | .arrive b m todo =>
    [1 + b * 2 ^ 8 + m * 2 ^ 16 + optNat (o.flag.map (·.toNat)) * 2 ^ 24, o.path, todo.foldl (fun n l => n + 2 ^ l) 0]
  | _ => []

/-- What a course holds beside the record's stated fields: its crews, LO, path stack, tiles, held arrivals and, as the time and place of the
save, %tstamp and the package. -/
def State.extraWords (s : State) (c : Course) (cid : Nat) : List (Nat × Nat × Nat) :=
  (List.range 64).map (fun l => (0xF00 + 4 * l, 4, optNat (c.crew.find l)))
  ++ spread 0x1000 16 [if c.started then 1 else 0, s.time.ns, c.lo, c.stack, c.lastPath, c.tilesOut.toNat, c.passed, optNat (c.first.map (·.toNat)),
      if c.drain then 1 else 0, c.xPoison.toNat, c.sPoison.toNat, c.pPoison.toNat, s.pkg.pkgno]
  ++ (List.range 256).map (fun i => (0x2000 + 8 * i, 8, (c.stackFm.getD i 0).toNat))
  ++ c.paths.flatMap (fun q => q.2.extraWords q.1)
  ++ spread 0x8000 256 ((s.opsOf cid).flatMap (fun o => o.2.arrivalWords))

/-- Stores what a migrating course holds beside the stated fields. -/
def State.saveExtra (s : State) (cid : Nat) : Option State :=
  match s.courses.find cid with
  | none => some s
  | some c => (s.recordAt c 0 true).map (fun pa => s.putWords pa (s.extraWords c cid))

/-- A course of a migrated context with what its record holds beside the stated fields; place is the number that bar.waits stand behind. -/
def Course.withExtra (c : Course) (place : Nat) (w : Nat → Nat → Nat) : Course :=
  let x (i : Nat) : Nat := w (0x1000 + 8 * i) 8
  { c with
    crew := (List.range 64).foldl (fun (t : Tab Nat) l => match natOpt (w (0xF00 + 4 * l) 4) with
      | some k => t.put l k
      | none => t) [],
    started := x 0 == 1, lo := x 2, stack := x 3, lastPath := x 4, tilesOut := BitVec.ofNat 8 (x 5), passed := x 6,
    first := (natOpt (x 7)).map (BitVec.ofNat 64), drain := x 8 == 1, sPoison := BitVec.ofNat 64 (x 10), pPoison := BitVec.ofNat 64 (x 11),
    stackFm := (List.range (x 3)).map (fun i => (i, BitVec.ofNat 64 (w (0x2000 + 8 * i) 8))),
    paths := c.paths.map (fun q => (q.1, q.2.withExtra place (fun i => w (0x4000 + 0x2000 * q.1 + 8 * i) 8))) }

/-- The held arrivals of a migrated course. -/
def arrivalsOf (cid ctx : Nat) (w : Nat → Nat → Nat) : List Op :=
  (List.range 85).filterMap (fun i =>
    let v := w (0x8000 + 24 * i) 8
    if v = 0 then none else
    some { cid := some cid, ctx := ctx, path := w (0x8000 + 24 * i + 8) 8, ovl := 0, idx := 0,
           flag := (natOpt (bits v 24 5)).map (BitVec.ofNat 4), lwb := 0, pend := [],
           kind := .arrive (bits v 8 8) (bits v 16 8) (lanesOf (BitVec.ofNat 64 (w (0x8000 + 24 * i + 16) 8))) })

end Sys2Proof.Machine
end

