-- ==== Sys2Proof/Machine/Order.lean ====
section
/-!
DEFINITION. Memory ordering (R155 to R166): when an access of an operation may be performed, when an engine operation may start,
fences, and the range-lock table; and the moves of register rows to and from the spill area.
-/

namespace Sys2Proof.Machine

/-! ### What is outstanding -/

/-- The accesses of an operation that are still to be performed. -/
def Op.todo (o : Op) : List Acc :=
  match o.kind with
  | .mem j => j.todo
  | _ => []

/-- Whether two byte ranges overlap. -/
def overlaps (a n b m : Nat) : Bool := decide (a < b + m) && decide (b < a + n)

/-- A memory operation reads. -/
def MemOp.reads (m : MemOp) : Bool := m != .st

/-- A memory operation writes. -/
def MemOp.writes (m : MemOp) : Bool := m != .ld

/-- A memory instruction that waits behind a tfence, its addresses not yet translated (R160). -/
def Op.isBehind (o : Op) : Bool :=
  match o.kind with
  | .behind code _ _ _ _ _ => decide (code.toNat ≤ 0x10B)
  | _ => false

/-- Whether an operation has accesses left that a class of fence waits for. -/
def Op.owes (o : Op) (loads stores : Bool) : Bool :=
  match o.kind with
  | .mem j => !j.todo.isEmpty && ((loads && j.m.reads) || (stores && j.m.writes))
  | _ => o.isBehind && (loads || stores)

/-- Operations of a course older than a place in program order. -/
def State.older (s : State) (cid place : Nat) : List Op := ((s.opsOf cid).filter (fun o => o.1 < place)).map (·.2)

/-! ### Scopes (R153) -/

/-- An operation of an engine, whose accesses are those of an agent of their own (R152). -/
def Op.isEngine (o : Op) : Bool :=
  match o.kind with
  | .fetch _ _ _ _ | .tmv _ _ | .cp _ _ _ | .wflush _ | .slice _ | .sliceDrop _ | .ovlLd _ _ _ _ _ _ | .mat _ | .ea _ | .xqPush _ _ _ _
  | .xqPop _ _ _ _ | .xqComb _ _ _ _ | .frame _ | .media _ _ _ _ | .storage _ _ _ _ _ _ => true
  | _ => false

/-- The crews of a course's lanes, as membership stands: for a course-level instruction their union (R153). -/
def Course.crewsOf (c : Course) (lanes : LaneMask) : List Nat := (lanesOf lanes).filterMap (fun l => c.crew.find l)

/-- The cores within a scope of a course's lanes (R145, R153): a scope that names agents beyond the package covers every core of it. -/
def State.scopeCores (s : State) (c : Course) (scope : Scope) (lanes : LaneMask) : List Nat :=
  let all := List.range Config.cores
  match scope with
  | .cw | .co => [c.core]
  | .crew => all.filter (fun k => k == c.core || s.courses.any (fun d => d.2.core == k && d.2.crew.any (fun e => (c.crewsOf lanes).contains e.2)))
  | .bay => all.filter (fun k => bayOf k == bayOf c.core)
  | .die => all.filter (fun k => dieOf k == dieOf c.core)
  | .pkg | .part | .sys => all

/-- Whether another course lies within a scope of a course's lanes; only the partition's own agents do (R153). -/
def State.inScope (s : State) (cid : Nat) (c : Course) (scope : Scope) (lanes : LaneMask) (k : Nat) (d : Course) : Bool :=
  k != cid && s.partOf d.ctx == s.partOf c.ctx &&
    (match scope with
     | .cw => false
     | .co => d.core == c.core
     | .crew => d.crew.any (fun e => (c.crewsOf lanes).contains e.2)
     | .bay => bayOf d.core == bayOf c.core
     | .die => dieOf d.core == dieOf c.core
     | .pkg | .part | .sys => true)

/-- Whether some agent beside the executing course lies within a scope, so that the scope's order can be observed: a course, and from
`.co` and `.bay` on an engine; from `.die` on walkers and agents of the fabric always do (R153, R155). -/
def State.observed (s : State) (cid : Nat) (scope : Scope) (lanes : LaneMask) : Bool :=
  match s.courses.find cid with
  | none => true
  | some c =>
    match scope with
    | .cw => false
    | .die | .pkg | .part | .sys => true
    | .crew => s.courses.any (fun d => s.inScope cid c scope lanes d.1 d.2)
    | .co | .bay => s.courses.any (fun d => s.inScope cid c scope lanes d.1 d.2) || s.ops.any (fun o => o.2.isEngine)

/-! ### Fences (R159, R160) -/

/-- Whether a fence standing at a place holds back a later operation that reads or writes as said: some access before the fence
that it covers is outstanding, and an agent within its scope could see the order. -/
def State.fenceHolds (s : State) (cid : Nat) (f : Fence) (reads writes : Bool) : Bool :=
  let old := s.older cid f.place
  match f.kind with
  | .acq => s.observed cid f.scope f.lanes && old.any (·.owes true false)
  | .rel => s.observed cid f.scope f.lanes && writes && old.any (·.owes true true)
  | .ar => s.observed cid f.scope f.lanes && (old.any (·.owes true false) || (writes && old.any (·.owes true true)))
  | .sc => s.observed cid f.scope f.lanes && (reads || writes) && old.any (·.owes true true)
  | .tf _ => old.any (·.owes false true)

/-- Whether some fence holds back operation op of a course. -/
def State.fenced (s : State) (cid op : Nat) (reads writes : Bool) : Bool :=
  match s.courses.find cid with
  | some c => c.fences.any (fun f => decide (f.place ≤ op) && s.fenceHolds cid f reads writes)
  | none => false

/-- A crew operation of the course that later accesses wait for (R222). -/
def Op.isCrew (o : Op) : Bool :=
  match o.kind with
  | .crew _ _ => true
  | _ => false

/-- Whether an earlier operation of the same course holds back an access (R156, R161): acquires and releases that act, SO order, same
bytes; on UN pages the same bytes count only within a lane, unless a fence lies between. An operation that waits behind a tfence holds
back every later access. -/
def heldBy (acts : MemJob → Bool) (fence : Bool) (b : MemJob) (acc : Acc) (o : Op) : Bool :=
  match o.kind with
  | .mem a =>
    !a.todo.isEmpty &&
      ((a.acq && acts a) || (b.rel && acts b) || a.so || b.so ||
        a.todo.any (fun p => overlaps p.pa p.n acc.pa acc.n &&
          (fence || (p.kind != .un && acc.kind != .un) || p.lane == acc.lane)))
  | .crew todo _ => !todo.isEmpty
  | _ => o.isBehind

/-- Whether the qualifiers of a memory operation order anything that an agent within their scope could see (R155). -/
def State.acts (s : State) (cid : Nat) (j : MemJob) : Bool := s.observed cid j.scope j.lanes

/-- Whether an access of operation op may be performed now. -/
def State.accReady (s : State) (op cid : Nat) (b : MemJob) (acc : Acc) : Bool :=
  let fs : List Fence := match s.courses.find cid with
    | some c => c.fences
    | none => []
  !s.fenced cid op b.m.reads b.m.writes &&
    !((s.opsOf cid).any (fun o => decide (o.1 < op) &&
      heldBy (s.acts cid) (fs.any (fun f => decide (o.1 < f.place) && decide (f.place ≤ op))) b acc o.2))

/-- Every earlier access of the course has been performed: what a release waits for (R155). -/
def State.drained (s : State) (cid op : Nat) : Bool := (s.older cid op).all (fun o => o.todo.isEmpty && !o.isCrew && !o.isBehind)

/-! ### Engine operations (R161 to R165) -/

/-- When the locks of an operation were registered, in the order of operations; its own place while it has none (R163). -/
def State.lockedSince (s : State) (op : Nat) : Nat :=
  match s.locks.find? (fun e => e.2.op = op) with
  | some e => e.2.since
  | none => op

/-- Whether an entry of another operation forbids an access of operation op (R165): between two operations that hold entries the one
registered first goes first (log entry 98). -/
def State.forbids (s : State) (op : Nat) (write : Bool) (lo n : Nat) : Bool :=
  let own := s.locks.any (fun e => e.2.op = op)
  s.locks.any (fun e => e.2.op != op && (!own || decide (e.2.since < s.lockedSince op)) && (write || e.2.rw) && decide (e.2.lo < lo + n) &&
    decide (lo < e.2.hi))

/-- Whether a range is free of thread accesses that were checked before the operation's locks stood, and of forbidding entries (R163, R165). -/
def State.rangeFree (s : State) (op : Nat) (write : Bool) (r : Nat × Nat) : Bool :=
  let since := s.lockedSince op
  !(s.ops.any (fun o => decide (o.1 < since) && o.2.todo.any (fun a => overlaps a.pa a.n r.1 r.2))) && !s.forbids op write r.1 r.2

/-- No earlier acquire, fence or crew operation of the course holds back an engine operation (R161, R222). -/
def State.courseReady (s : State) (cid op : Nat) : Bool :=
  !s.fenced cid op true true &&
    (s.older cid op).all (fun a => !a.isCrew && (match a.kind with
      | .mem j => j.todo.isEmpty || !((j.acq && s.acts cid j) || j.so)
      | _ => !a.isBehind))

/-- Whether an engine operation may perform its accesses to the given physical ranges: its locks are registered, no earlier
acquire or fence holds it back, and the ranges are free. -/
def State.engineReady (s : State) (op : Nat) (o : Op) (reads writes : List (Nat × Nat)) : Bool :=
  o.pend.isEmpty && reads.all (s.rangeFree op false) && writes.all (s.rangeFree op true) &&
    (match o.cid with
     | some cid => s.courseReady cid op
     | none => true)

/-- Whether a block that an instruction of the course reads at its issue may be read now (R161, R165, R333). -/
def State.blockReady (s : State) (cid : Nat) (l : List (Nat × Nat)) : Bool :=
  l.all (s.rangeFree s.nextId false) && s.courseReady cid s.nextId

/-- Registers ranges for the newest operation of a course; those that find no free entry stay with it (R163). -/
def State.lockRanges (s : State) (op : Nat) (bind : Bool) (l : List (Nat × Nat × Bool)) : State :=
  match s.ops.find op with
  | none => s
  | some o =>
    let r := s.registerAll op o.cid bind (o.pend ++ l)
    { r.1 with ops := r.1.ops.put op { o with pend := r.2 } }

/-- The ranges that an operation holds in the range-lock table. -/
def State.ownRanges (s : State) (op : Nat) : List (Nat × Nat) :=
  (s.locks.filter (fun e => e.2.op == op)).map (fun e => (e.2.lo, e.2.hi - e.2.lo))

/-- The lock ranges of physical pieces, widened to whole lines. -/
def lockPieces (rw : Bool) (l : List (Nat × Nat)) : List (Nat × Nat × Bool) :=
  l.map (fun p => let r := lineRange p.1 p.2; (r.1, r.2, rw))

/-- RANGE_LOCK_ENTRY_FREE (R163): an operation that waits for an entry registers what it still has to. -/
def execRangeLockEntryFree (op : Nat) (s : State) : Answer :=
  match s.ops.find op with
  | some o =>
    let bind := match o.kind with
      | .fbind _ => true
      | _ => false
    if o.pend.isEmpty then .next s else .next (s.lockRanges op bind [])
  | none => .next s

/-! ### The translation fence and settled fences (R145, R160) -/

/-- Discards the stage-1 items of a context in the translation caches of cores; walks of those cores that are under way begin again, so that
none installs what it read before (R145, R160). -/
def State.dropStage1 (s : State) (ctx : Nat) (cores : BitVec 96) : State :=
  { s with
    tlb := s.tlb.filter (fun i => !(i.ctx == ctx && !i.what.stage2 && cores.getLsbD i.core))
    walks := s.walks.map (fun w => if w.ctx == ctx && cores.getLsbD w.core then s.walkOf w.core w.ctx w.va w.warm else w) }

/-- A fence of a course has nothing left to hold back: no access before it is outstanding, or, for a tfence, no store. -/
def State.fenceOver (s : State) (cid : Nat) (f : Fence) : Bool :=
  match f.kind with
  | .tf _ => !s.fenceHolds cid f true true
  | _ => (s.older cid f.place).all (fun o => o.todo.isEmpty && !o.isBehind)

/-- Removes the fences of a course that hold nothing back any more; a tfence that completes discards stage-1 items. -/
def State.settle (s : State) (cid : Nat) : State :=
  match s.courses.find cid with
  | none => s
  | some c =>
    if c.fences.isEmpty then s else
    let ended := c.fences.filter (s.fenceOver cid)
    let s := s.setCourse cid { c with fences := c.fences.filter (fun f => !s.fenceOver cid f) }
    ended.foldl (fun s f => match f.kind with
      | .tf cores => s.dropStage1 c.ctx cores
      | _ => s) s

/-- A fence of the issuing course takes its place in the access queue (R159, R160). -/
def putFence (k : FenceKind) (scope : Scope) (lanes : LaneMask) (env : Env) (s : State) : State :=
  match s.courses.find env.cid with
  | none => s
  | some c => State.settle (s.setCourse env.cid { c with fences := c.fences ++ [{ place := s.nextId, kind := k, scope := scope, lanes := lanes }] }) env.cid

/-- Scope .sys acts as .part and sets %clamped in a context that is not marked system (R130, R154). -/
def State.clampSys (s : State) (env : Env) (k : Scope) : State :=
  match s.courses.find env.cid with
  | some c => if k = .sys ∧ !s.isSystem env.co.ctx then s.setCourse env.cid { c with clamped := true } else s
  | none => s

/-- The scope of a fence. -/
def Mod.scopeOf : Mod → Scope
  | .scope k => k
  | _ => .cw

/-- A fence instruction: course-level, it acts when its guard is true in some active lane (R159). -/
def fenceOp (k : FenceKind) (x : Args) (env : Env) (s : State) : Res :=
  if env.acting x = 0 then .ok s else .ok ((putFence k (Mod.scopeOf x.m) (env.acting x) env s).clampSys env (Mod.scopeOf x.m))

/-- A set of cores as a mask. -/
def coreMask (l : List Nat) : BitVec 96 := l.foldl (fun m k => m ||| BitVec.ofNat 96 (2 ^ k)) 0

/-- FENCE.ACQ (R159). -/
def execFenceAcq (x : Args) (s : State) : Answer := issue Enc.fenceAcq x (fenceOp .acq x) s
/-- FENCE.REL (R159). -/
def execFenceRel (x : Args) (s : State) : Answer := issue Enc.fenceRel x (fenceOp .rel x) s
/-- FENCE.AR (R159). -/
def execFenceAr (x : Args) (s : State) : Answer := issue Enc.fenceAr x (fenceOp .ar x) s
/-- FENCE.SC (R159). -/
def execFenceSc (x : Args) (s : State) : Answer := issue Enc.fenceSc x (fenceOp .sc x) s
/-- TFENCE (R145). -/
def execTfence (x : Args) (s : State) : Answer :=
  issue Enc.tfence x (fun env s => fenceOp (.tf (coreMask (s.scopeCores env.co (Mod.scopeOf x.m) (env.acting x)))) x env s) s

/-! ### Rows and the spill area (R104, R105) -/

/-- Offset of a logical row in the spill area. -/
def spillOff (L : Nat) : Nat := 0x104000 + 256 * L

/-- A logical row lies in the resident span. -/
def Course.resident (c : Course) (L : Nat) : Bool := decide (c.lo ≤ L) && decide (L < c.lo + c.rows)

/-- The segment row that a logical row is (R104). -/
def Course.segRow (c : Course) (L : Nat) : Nat := if c.rows = 0 then 0 else L % c.rows

/-- A resident row that another course has claimed: it stands in the course's record (R279). -/
def Course.away (c : Course) (L : Nat) : Bool := c.spl.getLsbD (c.segRow L)

/-- Physical place of such a row in the record, if its page takes the access. -/
def State.awayAt (s : State) (c : Course) (L : Nat) (write : Bool) : Option Nat := s.recordAt c (0x10000 + 256 * c.segRow L) write

/-- Writes lanes of a logical row: in the register file when it is resident, or in the record when it has been claimed, in the spill area
otherwise. -/
def State.putLogical (s : State) (c : Course) (L : Nat) (vals : List (Nat × Nat)) : State :=
  if c.resident L then
    if !c.away L then s.putRow (c.rowKey L) vals else
    match s.awayAt c L true with
    | some pa => vals.foldl (fun s v => s.pokeNat (pa + 4 * v.1) 4 (v.2 % 2 ^ 32)) s
    | none => s
  else vals.foldl (fun s v => s.privTry c (spillOff L + 4 * v.1) 4 (v.2 % 2 ^ 32)) s

/-- Pairs of lanes of a row that lie in a 64-byte block of its memory copy. -/
def blockPairs (b : Nat) : BitVec 32 := BitVec.ofNat 32 (0xFF * 2 ^ (8 * b))

/-- The 256 bytes of a logical row, with the marks of its four 64-byte blocks. -/
def State.rowOut (s : State) (c : Course) (L : Nat) : Nat × List Bool :=
  let at_ (pa : Nat) : Nat × List Bool := (s.peekNat pa 256, (List.range 4).map (fun b => (s.poisoned (pa + 64 * b) 64).isSome))
  if c.resident L then
    if c.away L then
      match s.awayAt c L false with
      | some pa => at_ pa
      | none => (0, [false, false, false, false])
    else
    let m := s.rowPoison.getD (c.rowKey L) 0
    ((s.row c L).toNat, (List.range 4).map (fun b => decide (m &&& blockPairs b ≠ 0)))
  else
    match s.translate c.core c.ctx (c.priv + spillOff L) (some true) false with
    | .ok r => at_ r.1
    | .error _ => (0, [false, false, false, false])

/-- Stores the 256 bytes of a row with their marks at a physical place. -/
def State.rowAt (s : State) (pa v : Nat) (marks : List Bool) : State :=
  marks.zipIdx.foldl (fun s b => if b.1 then s.markPoison (pa + 64 * b.2) 64 else s) (s.pokeNat pa 256 v)

/-- Puts 256 bytes with their marks into a resident logical row. -/
def State.rowIn (s : State) (c : Course) (L : Nat) (v : Nat) (marks : List Bool) : State :=
  if c.away L then
    match s.awayAt c L true with
    | some pa => s.rowAt pa v marks
    | none => s
  else
  let key := c.rowKey L
  let m := (marks.zipIdx).foldl (fun (m : BitVec 32) b => if b.1 then m ||| blockPairs b.2 else m) 0
  { s with rows := s.rows.set 0 key (BitVec.ofNat 2048 v), rowPoison := s.rowPoison.set 0 key m }

/-- Stores 256 bytes with their marks at a virtual address of the course's private region, where its page takes them. -/
def State.spillOut (s : State) (c : Course) (L : Nat) (v : Nat) (marks : List Bool) : State :=
  match s.translate c.core c.ctx (c.priv + spillOff L) (some true) true with
  | .error _ => s
  | .ok r => s.rowAt r.1 v marks

/-- Puts results of an operation into its destination, in the window that its path had at issue; those of a course whose capacity has been
claimed meanwhile go to its record (R278, R279). -/
def State.putOp (s : State) (o : Op) (t : Ty) (d : Opnd) (vals : List (Nat × Nat)) : State :=
  match o.cid with
  | none => s
  | some cid =>
    match s.courses.find cid with
    | none => s
    | some c =>
      match d with
      | .vec r _ =>
        let L := o.lwb + r.toNat
        let v := vals.map (fun v => (v.1, t.extend (if t.wide then 64 else 32) v.2))
        let s := s.putLogical c L v
        if t.wide then s.putLogical c (L + 1) (v.map (fun v => (v.1, v.2 >>> 32))) else s
      | d => s.inRecord cid (fun s => s.putDst cid o.lwb t d vals)

/-- XRED_COMPLETE (R101): xr takes the value and its status bits, the sequence number advances, the flag falls. -/
def execXredComplete (op : Nat) (s : State) : Answer :=
  match s.ops.find op with
  | some o =>
    match o.kind, o.cid with
    | .xred v ne ex, some cid =>
      if s.firstXred cid = some op && s.mayLand o then
        .next ((s.inRecord cid (fun s => s.modCourse cid (fun c =>
          { c with xr := v, ne := ne, ex := ex, xseq := c.xseq + 1, xPoison := false }))).finishOp op)
      else .next s
    | _, _ => .next s
  | none => .next s

end Sys2Proof.Machine
end

