-- ==== Sys2Proof/Machine/Frames.lean ====
section
/-!
DEFINITION. Register windows and stack slices (R104 to R124): mark, cut, graft, slice.drop, wflush and their completions.
-/

namespace Sys2Proof.Machine

/-! ### mark (R117) -/

/-- MARK (R116, R117): written in every lane of the frame mask. -/
def execMark (x : Args) (s : State) : Answer :=
  issue Enc.mark x (fun env s =>
    if env.acting x = 0 then .ok s else
    let r := (lanesOf env.pa.fmask).foldlM (fun (s : State) l => do
      let off := frameOff env.pa.depth l + 8
      let w ← s.privRead env.co off 8
      s.privWrite env.co off 8 (setBits w 0 17 (2 ^ 16 + x.a.ctl))) s
    match r with
    | .error t => .trap t
    | .ok s => .ok s) s

/-! ### wflush (R110) -/

/-- The count of the window trap that the path handles in the shim; 0 when none is pending. -/
def State.pendingWindow (s : State) (env : Env) : Int :=
  let t := s.recTrap env.co env.p
  if env.pa.shim.isSome && (t.cls == 0x02 || t.cls == 0x03) then t.info.toInt else 0

/-- The sum of the moves of the course's wflush operations under way. -/
def State.pendingMove (s : State) (cid : Nat) : Int :=
  (s.opsOf cid).foldl (fun n o => match o.2.kind with
    | .wflush k => n + k
    | _ => n) 0

/-- Logical rows that leave a span when LO moves, and rows that enter it (R110). -/
def leaveRows (lo rows new : Int) : List Int :=
  ((List.range rows.toNat).map (fun (i : Nat) => lo + (i : Int))).filter (fun L => L < new ∨ new + rows ≤ L)

/-- The row range, as a byte range of the private region, or the trap of the access (R129). -/
def State.rowsOk (s : State) (c : Course) (rows : List Int) (write : Bool) : Except Trap (List (Nat × Nat)) :=
  rows.mapM (fun L =>
    if L < 0 then .error (Trap.page 1 0xFF ((BitVec.ofInt 64 ((c.priv : Int) + 0x104000 + 256 * L)).toNat) 0) else do
      let pa ← s.privAt c (spillOff L.toNat) 256 write
      .ok (pa, 256))

/-- Joins neighbouring byte ranges. -/
def joinRanges : List (Nat × Nat) → List (Nat × Nat)
  | [] => []
  | r :: l =>
    match joinRanges l with
    | [] => [r]
    | t :: u => if r.1 + r.2 = t.1 then (r.1, r.2 + t.2) :: u else r :: t :: u

/-- WFLUSH (R110): the spill-area range is registered at issue; WFLUSH_COMPLETE moves the rows. -/
def execWflush (x : Args) (s : State) : Answer :=
  issue Enc.wflush x (fun env s =>
    let k := toInt 32 (env.val x .i32 x.a)
    if env.acting x = 0 then .ok (s.addOp env x .nothing) else
    if (env.co.rows : Int) < k.natAbs then .trap Trap.field else
    let k := if k = 0 then s.pendingWindow env else k
    let lo := (env.co.lo : Int) + s.pendingMove env.cid
    let rows : Int := env.co.rows
    let ranges := do
      let a ← s.rowsOk env.co (leaveRows lo rows (lo + k)) true
      let b ← s.rowsOk env.co (leaveRows (lo + k) rows lo) false
      pure (a ++ b)
    match ranges with
    | .error t => .trap t
    | .ok r =>
      let id := s.nextId
      .ok ((s.addOp env x (.wflush k)).lockRanges id false (lockPieces true (joinRanges r)))) s

/-- WFLUSH_COMPLETE (R110): rows leaving the span are stored, rows entering are loaded, LO and the span word move. A row whose page no longer
takes the access ends the operation with its fault, at the path's next run start, and moves nothing (R147). -/
def execWflushComplete (op : Nat) (s : State) : Answer :=
  match s.ops.find op with
  | some o =>
    match o.kind, o.cid with
    | .wflush k, some cid =>
      match s.courses.find cid with
      | none => .next s
      | some c =>
        let lo : Int := c.lo
        let out := leaveRows lo c.rows (lo + k)
        let inn := leaveRows (lo + k) c.rows lo
        let first := (s.opsOf cid).all (fun q => decide (op ≤ q.1) || (match q.2.kind with
          | .wflush _ => false
          | _ => true))
        match (do let a ← s.rowsOk c out true; let b ← s.rowsOk c inn false; pure (a, b)) with
        | .error t => if first && s.mayLand o then .next (((s.unlock op).lateTrap op o t).finishOp op) else .next s
        | .ok (pOut, pIn) =>
        if !(first && s.mayLand o && s.engineReady op o pIn pOut) then .next s else
        let s := out.foldl (fun s L => let r := s.rowOut c L.toNat; s.spillOut c L.toNat r.1 r.2) s
        let data := inn.map (fun L => (L.toNat, s.rowOut c L.toNat))
        let c' := { c with lo := (lo + k).toNat }
        let s := data.foldl (fun s d => s.rowIn c' d.1 d.2.1 d.2.2) s
        let s := match s.courses.find cid with
          | some c => s.setCourse cid { c with lo := (lo + k).toNat }
          | none => s
        let s := s.privTry c 0x102200 8 (lo + k).toNat
        .next ((s.unlock op).finishOp op)
    | _, _ => .next s
  | none => .next s

/-! ### The slice table and area (R113 to R115) -/

/-- States of a slice-table entry (R114). -/
def Slice.live : Nat := 1
/-- R114. -/
def Slice.attached : Nat := 2
/-- R114. -/
def Slice.dropping : Nat := 3

/-- Fields of a slice handle (R113): partition, context, slot, generation. -/
structure Handle where
  part : Nat
  ctx : Nat
  slot : Nat
  gen : Nat
  deriving DecidableEq, Repr

/-- The fields of a handle. -/
def Handle.ofWord (w : Word) : Handle :=
  let n := w.toNat
  { part := bits n 60 4, ctx := bits n 44 16, slot := bits n 20 24, gen := bits n 0 20 }

/-- The handle of the fields. -/
def Handle.toWord (h : Handle) : Word :=
  BitVec.ofNat 64 (h.part * 2 ^ 60 + h.ctx * 2 ^ 44 + h.slot * 2 ^ 20 + h.gen)

/-- VA of a slice-table entry. -/
def State.sliceVa (s : State) (h : Handle) : Nat := s.ctxWord h.ctx 7 + 32 * h.slot

/-- Reads word k of a slice-table entry through the owner's translations. -/
def State.sliceWord (s : State) (core : Nat) (h : Handle) (k : Nat) : Except Trap Nat :=
  let va := s.sliceVa h + 8 * k
  match s.translate core h.ctx va (some true) false with
  | .error e => .error (e.trap 0xFF va)
  | .ok r =>
    match s.poisonedAs va r.1 8 with
    | some u => .error (Trap.poison 0xFF u)
    | none => .ok (s.peekNat r.1 8)

/-- Writes a word of a slice-table entry. -/
def State.putSliceWord (s : State) (core : Nat) (h : Handle) (k v : Nat) : State :=
  match s.translate core h.ctx (s.sliceVa h + 8 * k) (some true) true with
  | .ok r => s.pokeNat r.1 8 v
  | .error _ => s

/-- STATE of an entry's word 1. -/
def sliceState (w : Nat) : Nat := bits w 40 4
/-- GEN of an entry's word 1. -/
def sliceGen (w : Nat) : Nat := bits w 44 20
/-- Word 1 of an entry. -/
def sliceWord1 (gen st : Nat) : Nat := (gen % 2 ^ 20) * 2 ^ 44 + st * 2 ^ 40

/-- Payload bytes of a block; its last 8 bytes name the next one. -/
def blockBytes : Nat := 65528

/-- The next free block after one. -/
def State.nextBlock (s : State) (core ctx va : Nat) : Except Trap Nat :=
  let a := va + blockBytes
  match s.translate core ctx a (some true) true with
  | .error e => .error (e.trap 0xFF a)
  | .ok r => .ok (s.peekNat r.1 8)

/-- Takes n blocks from the free list: the blocks with their physical addresses, and the new head (R114, R118 FULL). -/
def State.takeBlocks (s : State) (core ctx : Nat) : Nat → Nat → Except Trap (List (Nat × Nat) × Nat)
  | 0, head => .ok ([], head)
  | n + 1, head =>
    if head = 0 then .error (Trap.slice 4 0xFF) else do
      let pa ← match s.translate core ctx head (some true) true with
        | .ok r => .ok r.1
        | .error e => .error (e.trap 0xFF head)
      let next ← s.nextBlock core ctx head
      let r ← s.takeBlocks core ctx n next
      .ok ((head, pa) :: r.1, r.2)

/-- The chain of blocks of a slice, at most fuel blocks. -/
def State.blockChain (s : State) (core ctx : Nat) : Nat → Nat → List (Nat × Nat)
  | 0, _ => []
  | fuel + 1, va =>
    if va = 0 then [] else
    match s.translate core ctx va (some true) false, s.nextBlock core ctx va with
    | .ok r, .ok n => (va, r.1) :: s.blockChain core ctx fuel n
    | _, _ => []

/-- The physical pieces of n bytes at an offset of a slice's byte sequence. -/
def slicePieces (blocks : List (Nat × Nat)) : Nat → Nat → Nat → List (Nat × Nat)
  | 0, _, _ => []
  | fuel + 1, off, n =>
    if n = 0 then [] else
    match blocks[off / blockBytes]? with
    | none => []
    | some b =>
      let k := min n (blockBytes - off % blockBytes)
      (b.2 + off % blockBytes, k) :: slicePieces blocks fuel (off + k) (n - k)

/-- Reads a number of n bytes from a slice. -/
def State.sliceNat (s : State) (blocks : List (Nat × Nat)) (off n : Nat) : Nat :=
  leNat (s.peekAll (slicePieces blocks 3 off n))

/-- Stores a number of n bytes into a slice. -/
def State.putSlice (s : State) (blocks : List (Nat × Nat)) (off n v : Nat) (bad : Bool) : State :=
  s.pokeAll (slicePieces blocks 3 off n) (toLe n v) bad

/-- The first FREE entry of the slice table, scanned upward; none left is FULL (R118). -/
def State.freeSlice (s : State) (core ctx part : Nat) : Nat → Nat → Except Trap (Handle × Nat)
  | 0, _ => .error (Trap.slice 4 0xFF)
  | fuel + 1, slot =>
    let h : Handle := { part := part, ctx := ctx, slot := slot, gen := 0 }
    match s.sliceWord core h 1 with
    | .error _ => .error (Trap.slice 4 0xFF)
    | .ok w => if sliceState w = 0 then .ok ({ h with gen := sliceGen w }, w) else s.freeSlice core ctx part fuel (slot + 1)

/-! ### cut (R118) -/

/-- The path base: the highest frame at or below k that a launch or a split made. -/
def State.pathBase (s : State) (c : Course) (l : Nat) : Nat → Except Trap Nat
  | 0 => .ok 0
  | k + 1 => do
    let f ← s.frameAt c (k + 1) l
    if f.kind = 1 ∨ f.kind = 2 then .ok (k + 1) else s.pathBase c l k

/-- The highest frame in [b, k) with the mark. -/
def State.findMark (s : State) (c : Course) (l b id : Nat) : Nat → Except Trap (Option Nat)
  | 0 => .ok none
  | k + 1 =>
    if k < b then .ok none else do
      let f ← s.frameAt c k l
      if f.marked && f.mark == id then .ok (some k) else s.findMark c l b id k

/-- UNITS of frames m+1 to k summed downward from frame k: the window base of frame j is LWB less 4 times the sum over the
frames above it. -/
def State.unitsAbove (s : State) (c : Course) (l j : Nat) : Nat → Except Trap Nat
  | 0 => .ok 0
  | k + 1 =>
    if k + 1 ≤ j then .ok 0 else do
      let f ← s.frameAt c (k + 1) l
      .ok (f.units + (← s.unitsAbove c l j k))

/-- The counters of a lane as a slice keeps them: c, X, K (R115). -/
def cntOf (c : Course) (l : Nat) : Nat :=
  cOf c.c l + (if c.x.getLsbD l then 256 else 0) + (if c.k.getLsbD l then 512 else 0)

/-- What cut finds before it lifts anything. -/
structure CutPlan where
  k : Nat
  m : Nat
  lwb : Nat
  /-- window base of frame m + 1 -/
  base : Nat
  bot : LaneMask
  back : Frame
  nfr : Nat
  nrows : Nat
  deriving DecidableEq, Repr

/-- Finds the mark and the frames to lift (R118). -/
def State.cutPlan (s : State) (c : Course) (q : Path) (id : Nat) : Except Trap CutPlan := do
  let l := lowLane q.fmask
  let b ← s.pathBase c l q.depth
  match ← s.findMark c l b id q.depth with
  | none => .error (Trap.slice 1 0xFF)
  | some m =>
    let up ← s.unitsAbove c l (m + 1) q.depth
    let back ← s.frameAt c (m + 1) l
    let bot ← if m + 1 = q.depth then pure q.fmask else do
      let f ← s.frameAt c (m + 2) l
      pure (BitVec.ofNat 64 f.mask)
    let base := q.lwb - 4 * up
    .ok { k := q.depth, m := m, lwb := q.lwb, base := base, bot := bot, back := back, nfr := q.depth - m,
          nrows := q.lwb + 64 - base }

/-- Lifts the frames above the mark: the entry and blocks, the header, records and rows, and the path's return to the marked
frame (R118). The resumption point of the slice is (ovl, idx). -/
def State.cutRun (s : State) (cid p : Nat) (q : Path) (d : BitVec 6) (id ovl idx : Nat) : Except Trap State := do
  match s.courses.find cid with
  | none => .ok s
  | some c =>
    let pl ← s.cutPlan c q id
    let part := s.partOf c.ctx
    let (h, _) ← s.freeSlice c.core c.ctx part (2 ^ 24) 0
    let bytes := 256 + 1024 * pl.nfr + 256 * pl.nrows
    let head := match s.ctxs.find c.ctx with
      | some x => x.blocks
      | none => 0
    let (blocks, rest) ← s.takeBlocks c.core c.ctx ((bytes + blockBytes - 1) / blockBytes) head
    let recs ← (List.range pl.nfr).mapM (fun j => lanes64.mapM (fun l => s.privRead c (frameOff (pl.m + 1 + j) l) 16))
    let _ ← (List.range pl.nrows).mapM (fun i =>
      if c.resident (pl.base + i) then .ok 0 else s.privAt c (spillOff (pl.base + i)) 256 false)
    let lwb := pl.base - 4 * pl.back.units
    let fm := BitVec.ofNat 64 pl.back.mask &&& q.lanes
    let hdr : List (Nat × Nat × Nat) :=
      [(0, 8, pl.nrows * 2 ^ 32 + pl.nfr * 2 ^ 16 + 2 ^ 8), (8, 8, ovl * 2 ^ 48 + idx * 2 ^ 32 + q.d * 2 ^ 24),
       (16, 8, q.fmask.toNat), (24, 8, pl.bot.toNat), (32, 8, c.priv + spillOff pl.base), (40, 24, pl.lwb - pl.base)]
      ++ lanes64.map (fun l => (64 + 2 * l, 2, cntOf c l)) ++ [(192, 64, 0)]
    let t := hdr.foldl (fun (s : State) w => s.putSlice blocks w.1 w.2.1 w.2.2 false) s
    let t := recs.zipIdx.foldl (fun (t : State) r =>
      r.1.zipIdx.foldl (fun (t : State) w => t.putSlice blocks (256 + 1024 * r.2 + 16 * w.2) 16 w.1 false) t) t
    let t := (List.range pl.nrows).foldl (fun (t : State) i =>
      let r := s.rowOut c (pl.base + i)
      (List.range 4).foldl (fun (t : State) b =>
        t.putSlice blocks (256 + 1024 * pl.nfr + 256 * i + 64 * b) 64 (bits r.1 (512 * b) 512) (r.2.getD b false)) t) t
    let t := (blocks.map (·.1)).zip ((blocks.map (·.1)).drop 1 ++ [0]) |>.foldl (fun (t : State) b =>
      match t.translate c.core c.ctx (b.1 + blockBytes) (some true) true with
      | .ok r => t.pokeNat r.1 8 b.2
      | .error _ => t) t
    let t := (((t.putSliceWord c.core h 0 (blocks.headD (0, 0)).1).putSliceWord c.core h 2 0).putSliceWord c.core h 3 0).putSliceWord
      c.core h 1 (sliceWord1 h.gen Slice.live)
    let t := match t.ctxs.find c.ctx with
      | some x => { t with ctxs := t.ctxs.put c.ctx { x with blocks := rest } }
      | none => t
    let t ← t.putDepth c pl.m lwb (lanesOf fm)
    let q' := { q with fmask := fm, d := pl.back.d, lwb := lwb, depth := pl.m, ovl := pl.back.ovl, idx := pl.back.idx,
                       ent := q.ent.filter (fun e => e.1 < regionKey (pl.m + 1) 0) }
    match s.target c.core c.ctx pl.back.ovl pl.back.idx with
    | .bad tr => .error tr
    | _ =>
      .ok (t.modCourse cid (fun c =>
        let c := (c.setScalar d.toNat h.toWord).clearLanes pl.bot
        let c := if pl.m < c.region.depth ∧ c.region.depth ≤ pl.k then { c with regpc := noRegion } else c
        { c with paths := c.paths.put p q' }))

/-- The slice of free blocks that a cut may take next, as lock ranges (R124). -/
def State.cutRanges (s : State) (c : Course) (pl : CutPlan) : List (Nat × Nat) :=
  let bytes := 256 + 1024 * pl.nfr + 256 * pl.nrows
  let head := match s.ctxs.find c.ctx with
    | some x => x.blocks
    | none => 0
  let blocks := match s.takeBlocks c.core c.ctx ((bytes + blockBytes - 1) / blockBytes) head with
    | .ok r => r.1.map (fun b => (b.2, 65536))
    | .error _ => []
  let spill := (List.range pl.nrows).filterMap (fun i =>
    if c.resident (pl.base + i) then none
    else (s.privAt c (spillOff (pl.base + i)) 256 false).toOption.map (fun a => (a, 256)))
  blocks ++ joinRanges spill

/-- CUT (R116, R118, R124): checked at issue; SLICE_COPY_COMPLETE lifts the frames. -/
def execCut (x : Args) (s : State) : Answer :=
  issue Enc.cut x (fun env s =>
    if env.acting x = 0 then .ok s else
    let d := BitVec.ofNat 6 x.d.num
    match s.cutRun env.cid env.p env.pa d x.a.ctl env.pa.ovl (env.pa.idx + 1), s.cutPlan env.co env.pa x.a.ctl with
    | .ok _, .ok pl =>
      let id := s.nextId
      let t := (s.addSilent env (.slice (.cut d x.a.ctl))).lockRanges id false (lockPieces true (s.cutRanges env.co pl))
      .done t { wait := .copy id env.pa.run }
    | .error t, _ => .trap t
    | _, .error t => .trap t) s

/-! ### graft (R119) -/

/-- The header of a slice, and where its parts lie (R115). -/
structure SliceHead where
  blocks : List (Nat × Nat)
  nrows : Nat
  nfr : Nat
  ovl : Nat
  idx : Nat
  d : Nat
  top : LaneMask
  bot : LaneMask
  src : Nat
  woff : Nat
  deriving DecidableEq, Repr

/-- Reads a slice's header through the owner's translations. -/
def State.sliceHead (s : State) (core : Nat) (h : Handle) (first : Nat) : SliceHead :=
  let b1 := s.blockChain core h.ctx 1 first
  let w (k : Nat) : Nat := s.sliceNat b1 (8 * k) 8
  let nrows := bits (w 0) 32 32
  let nfr := bits (w 0) 16 16
  { blocks := s.blockChain core h.ctx ((256 + 1024 * nfr + 256 * nrows) / blockBytes + 1) first,
    nrows := nrows, nfr := nfr, ovl := bits (w 1) 48 16, idx := bits (w 1) 32 16, d := bits (w 1) 24 8,
    top := BitVec.ofNat 64 (w 2), bot := BitVec.ofNat 64 (w 3), src := w 4, woff := bits (w 5) 0 16 }

/-- Frame record j (1 to NFR) of a slice in a lane. -/
def State.sliceFrame (s : State) (h : SliceHead) (j l : Nat) : Frame :=
  Frame.ofNat (s.sliceNat h.blocks (256 + 1024 * (j - 1) + 16 * l) 16)

/-- A slice table entry names a slice that a graft may copy (R119, R123): XPART, then GONE. A graft under way has read it. -/
def State.openSlice (s : State) (c : Course) (h : Handle) (fresh : Bool) (lane : Nat) : Except Trap SliceHead :=
  if h.part ≠ s.partOf c.ctx then .error (Trap.slice 2 lane) else do
    let w ← s.sliceWord c.core h 1
    let st := sliceState w
    if sliceGen w ≠ h.gen ∨ (fresh = true ∧ st ≠ Slice.live ∧ st ≠ Slice.attached) then .error (Trap.slice 3 lane) else
    .ok (s.sliceHead c.core h (← s.sliceWord c.core h 0))

/-- The VA of a kernel's overlay directory. -/
def State.dirOf (s : State) (kern : Nat) : Nat :=
  match s.kernels.find kern with
  | some k => wordAt k.words 1
  | none => 0

/-- A word of global memory as a context sees it; zero where its page does not give it. -/
def State.see (s : State) (core ctx va n : Nat) : Nat :=
  match s.translate core ctx va none false with
  | .ok r => s.peekNat r.1 n
  | .error _ => 0

/-- The first entry of an overlay directory with this id: image, instructions, frame-descriptor table (R235). -/
def State.dirEntry (s : State) (core ctx dir id : Nat) : Option (Nat × Nat × Nat) :=
  let n := bits (s.see core ctx dir 8) 0 16
  ((List.range n).find? (fun i => bits (s.see core ctx (dir + 8 + 32 * i) 8) 0 16 == id)).map (fun i =>
    let a := dir + 8 + 32 * i
    (s.see core ctx (a + 8) 8, bits (s.see core ctx (a + 16) 8) 0 13, s.see core ctx (a + 24) 8))

/-- PMASK of the frame that resumes at a code address (R111, R112); 0 when it has no descriptor. -/
def State.pmask (s : State) (c : Course) (ovl idx : Nat) : Nat :=
  match s.dirEntry c.core c.ctx (s.dirOf c.kern) ovl with
  | none => 0
  | some (_, _, fdt) =>
    if fdt = 0 then 0 else
    let n := bits (s.see c.core c.ctx fdt 8) 0 32
    match (List.range n).find? (fun i => bits (s.see c.core c.ctx (fdt + 8 + 8 * i) 8) 48 16 == idx) with
    | some i => bits (s.see c.core c.ctx (fdt + 8 + 8 * i) 8) 0 32
    | none => 0

/-- A lane of a logical row, wherever the row is. -/
def State.logicalLane (s : State) (c : Course) (L l : Nat) : Nat :=
  if !c.resident L then s.privSee c (spillOff L + 4 * l) 4
  else if !c.away L then rowLane (s.row c L) l
  else match s.awayAt c L false with
    | some pa => s.peekNat (pa + 4 * l) 4
    | none => 0

/-- Rebase of R119 for one frame whose window begins at a logical row. -/
def State.rebase (s : State) (c : Course) (h : SliceHead) (base lwb pm : Nat) (lanes : List Nat) : State :=
  let dst := c.priv + spillOff base
  ((List.range 32).filter (nbit pm)).foldl (fun (s : State) i =>
    let L := lwb + 2 * i
    lanes.foldl (fun (s : State) l =>
      let p := s.logicalLane c L l + 2 ^ 32 * s.logicalLane c (L + 1) l
      if h.src ≤ p ∧ p < h.src + 256 * h.nrows then
        let v := p - h.src + dst
        (s.putLogical c L [(l, v)]).putLogical c (L + 1) [(l, v >>> 32)]
      else s) s) s

/-- Copies the lanes E of a slice's rows, records, counters and pointers to the grafting course (R119 Enter). -/
def State.graftGroup (s : State) (cid : Nat) (c : Course) (q : Path) (h : SliceHead) (E : LaneMask) (kind ovl idx : Nat) :
    Except Trap State := do
  let lanes := lanesOf E
  let base := q.lwb + 64
  let _ ← (List.range h.nrows).mapM (fun i =>
    if c.resident (base + i) then .ok 0 else s.privAt c (spillOff (base + i)) 256 true)
  let rows (s : State) : State := (List.range h.nrows).foldl (fun (s : State) i =>
    let pcs := slicePieces h.blocks 3 (256 + 1024 * h.nfr + 256 * i) 256
    let v := leNat (s.peekAll pcs)
    let bad := if s.poison.isEmpty then [] else
      lanes.filter (fun l => (s.poisonedAll (slicePieces h.blocks 3 (256 + 1024 * h.nfr + 256 * i + 4 * l) 4)).isSome)
    let s := s.putLogical c (base + i) (lanes.map (fun l => (l, bits v (32 * l) 32)))
    if bad.isEmpty then s
    else if c.resident (base + i) && c.away (base + i) then
      (match s.awayAt c (base + i) true with
       | some pa => bad.foldl (fun (s : State) l => s.markPoison (pa + 4 * l) 4) s
       | none => s)
    else if c.resident (base + i) then
      { s with rowPoison := s.rowPoison.set 0 (c.rowKey (base + i)) ((s.rowPoison.getD (c.rowKey (base + i)) 0) |||
          BitVec.ofNat 32 (bad.foldl (fun m l => m ||| 2 ^ (l / 2)) 0)) }
    else
      match s.privAt c (spillOff (base + i)) 256 true with
      | .ok pa => bad.foldl (fun (s : State) l => s.markPoison (pa + 4 * l) 4) s
      | .error _ => s) s
  let s := rows s
  let low := lowLane h.top
  let unitsTo (j : Nat) : Nat := (List.range (j - 1)).foldl (fun n i => n + (s.sliceFrame h (i + 2) low).units) 0
  let s := (List.range h.nfr).foldl (fun (s : State) i =>
    let j := i + 1
    let at_ := if j = h.nfr then (h.ovl, h.idx) else let f := s.sliceFrame h (j + 1) low; (f.ovl, f.idx)
    s.rebase c h base (base + 4 * unitsTo j) (s.pmask c at_.1 at_.2) lanes) s
  let s ← (List.range h.nfr).foldlM (fun (s : State) i => do
    let j := i + 1
    lanes.foldlM (fun (s : State) l => do
      let f := s.sliceFrame h j l
      let f := { f with mask := (BitVec.ofNat 64 f.mask &&& E).toNat }
      let f := if j = 1 then { f with mask := q.fmask.toNat, ovl := ovl, idx := idx, d := q.d, units := 16, kind := kind } else f
      s.privWrite c (frameOff (q.depth + j) l) 16 f.pack) s) s
  let s ← s.putDepth c (q.depth + h.nfr) (base + h.woff) lanes
  .ok (s.modCourse cid (fun c =>
    let cnt (l : Nat) : Nat := s.sliceNat h.blocks (64 + 2 * l) 2
    { c with c := cMap c.c (fun l v => if E.getLsbD l then bits (cnt l) 0 8 else v),
             x := (c.x &&& ~~~E) ||| (E &&& maskOf (fun l => nbit (cnt l) 8)),
             k := (c.k &&& ~~~E) ||| (E &&& maskOf (fun l => nbit (cnt l) 9)) }))

/-- The checks of one group before anything is copied (R119). -/
def State.graftCheck (s : State) (c : Course) (q : Path) (h : SliceHead) : Except Trap Unit := do
  if 1023 < q.depth + h.nfr then .error Trap.field else
  match c.windowTrap (q.lwb + 64 + h.woff) with
  | some t => .error t
  | none =>
    let low := lowLane h.top
    let ovls := h.ovl :: (List.range h.nfr).map (fun i => (s.sliceFrame h (i + 1) low).ovl)
    if ovls.any (fun o => (s.ovlSlot c.core c.ctx o).isNone) then .error Trap.ovl else
    match s.target c.core c.ctx h.ovl h.idx with
    | .bad t => .error t
    | _ => .ok ()

/-- Sets slices down on the path's stack (R119): the groups with living E enter, and two or more split the path. The answer
is none when no group enters. XPART and GONE of every group come before the other checks of any (log entry 99). -/
def State.graftRun (s : State) (env : Env) (groups : List (Nat × LaneMask)) (fresh : Bool) (ovl idx : Nat) :
    Except Trap (Option State) := do
  let c := env.co
  let q := env.pa
  let heads ← groups.mapM (fun g => do
    let h ← s.openSlice c (Handle.ofWord (BitVec.ofNat 64 g.1)) fresh (lowLane g.2)
    pure (h, g.2 &&& h.bot))
  let live := heads.filter (fun g => g.2 ≠ 0)
  let _ ← live.mapM (fun g => onLane (lowLane g.2) (s.graftCheck c q g.1))
  match live with
  | [] => .ok none
  | [g] =>
    let s ← s.graftGroup env.cid c q g.1 g.2 0 ovl idx
    .ok (some (s.modCourse env.cid (fun c => c.modPath env.p (fun q' => { q' with
      fmask := g.1.top &&& g.2, d := g.1.d, lwb := q.lwb + 64 + g.1.woff, depth := q.depth + g.1.nfr,
      ovl := g.1.ovl, idx := g.1.idx, wait := .nothing }))))
  | l =>
    let gs := l.map (fun g => { lanes := g.2, fmask := g.1.top &&& g.2, ovl := g.1.ovl, idx := g.1.idx, d := g.1.d,
                                lwb := q.lwb + 64 + g.1.woff, depth := q.depth + g.1.nfr : Group })
    if !c.splitFits env.p gs then .error Trap.field else
    let s ← l.foldlM (fun (s : State) g => s.graftGroup env.cid c q g.1 g.2 2 ovl idx) s
    let E := l.foldl (fun m g => m ||| g.2) 0
    .ok (some (← splitPath s env (q.lanes &&& ~~~E) (ovl, idx) gs))

/-- The lock ranges of a graft: the blocks it reads and the spill rows it writes (R124). -/
def State.graftRanges (s : State) (env : Env) (groups : List (Nat × LaneMask)) : List (Nat × Nat) :=
  groups.flatMap (fun g =>
    match s.openSlice env.co (Handle.ofWord (BitVec.ofNat 64 g.1)) true 0 with
    | .ok h =>
      h.blocks.map (fun b => (b.2, 65536)) ++ joinRanges ((List.range h.nrows).filterMap (fun i =>
        if env.co.resident (env.pa.lwb + 64 + i) then none
        else (s.privAt env.co (spillOff (env.pa.lwb + 64 + i)) 256 true).toOption.map (fun a => (a, 256))))
    | .error _ => [])

/-- GRAFT (R116, R119, R124): checked at issue; SLICE_COPY_COMPLETE sets the frames down. -/
def execGraft (x : Args) (s : State) : Answer :=
  issue Enc.graft x (fun env s =>
    let lanes := lanesOf (env.acting x)
    if lanes.isEmpty then .ok s else
    let gs := groupBy (fun l => s.lane env x .n64 x.a l) lanes
    match s.graftRun env gs true env.pa.ovl (env.pa.idx + 1) with
    | .error t => .trap t
    | .ok none => .ok s
    | .ok (some _) =>
      let id := s.nextId
      let t := (s.addSilent env (.slice (.graft (gs.map (fun g => (BitVec.ofNat 64 g.1, g.2)))))).lockRanges id false
        (lockPieces true (s.graftRanges env gs))
      .done t { wait := .copy id env.pa.run }) s

/-- A path whose slice copy failed stands again at its instruction, in the run it had, and takes the trap (R124). -/
def State.copyFailed (s : State) (cid p op : Nat) (o : Op) (run : Option Run) (t : Trap) : State :=
  let s := s.modCourse cid (fun c => c.modPath p (fun q => { q with ovl := o.ovl, idx := o.idx, run := run, wait := .nothing }))
  ((s.unlock op).finishOp op).deliver cid p t o.ovl o.idx false

/-- A resumption course has grafted its slice, which is dropped (R121). -/
def State.graftDone (s : State) (env : Env) : State :=
  match env.co.first with
  | none => s
  | some w =>
    let h := Handle.ofWord w
    let s := s.modCourse env.cid (fun c => { c with first := none })
    (s.putSliceWord env.co.core h 1 (sliceWord1 h.gen Slice.dropping)).addSilent env (.sliceDrop w)

/-- What a slice copy commits for the path that waits for it; a cause that has come up meanwhile is trapped at its instruction. -/
def State.sliceCommit (s : State) (op cid : Nat) (o : Op) (plan : SlicePlan) : State :=
  match s.courses.find cid with
  | none => s
  | some c =>
    match c.paths.find o.path with
    | none => s
    | some q =>
      match q.wait with
      | .copy id run =>
        if id ≠ op then s else
        let env : Env := { slot := c.slot, cid := cid, p := o.path, co := c, pa := q }
        match plan with
        | .cut d m =>
          (match s.cutRun cid o.path { q with wait := .nothing } d m o.ovl (o.idx + 1) with
           | .error t => s.copyFailed cid o.path op o run t
           | .ok t => (t.unlock op).finishOp op)
        | .graft l =>
          (match s.graftRun env (l.map (fun g => (g.1.toNat, g.2))) false o.ovl (o.idx + 1) with
           | .error t => s.copyFailed cid o.path op o run t
           | .ok none => ((s.setPath cid o.path { q with wait := .nothing }).unlock op).finishOp op
           | .ok (some t) => ((t.unlock op).finishOp op).graftDone env)
      | _ => s

/-- SLICE_COPY_COMPLETE (R118, R119, R124): the cut or graft commits as one step, between runs of its course and once its ranges are free. -/
def execSliceCopyComplete (op : Nat) (s : State) : Answer :=
  match s.ops.find op with
  | none => .next s
  | some o =>
    match o.kind, o.cid with
    | .slice plan, some cid =>
      if s.mayLand o && s.engineReady op o [] (s.ownRanges op) then .next (s.inRecord cid (fun s => s.sliceCommit op cid o plan)) else .next s
    | _, _ => .next s

/-! ### slice.drop (R120, R123) -/

/-- The checks of slice.drop and slice.att in the order of R123: XPART, OWNER, GONE, ATT. -/
def State.sliceOwned (s : State) (env : Env) (h : Handle) : Except Trap Unit := do
  if h.part ≠ s.partOf env.co.ctx then .error (Trap.slice 2 0xFF)
  else if h.ctx ≠ env.co.ctx then .error (Trap.slice 6 0xFF)
  else
    let w ← s.sliceWord env.co.core h 1
    if sliceGen w ≠ h.gen ∨ sliceState w = 0 ∨ sliceState w = Slice.dropping then .error (Trap.slice 3 0xFF)
    else if sliceState w = Slice.attached then .error (Trap.slice 5 0xFF)
    else .ok ()

/-- SLICE_DROP (R116, R120). -/
def execSliceDrop (x : Args) (s : State) : Answer :=
  issue Enc.sliceDrop x (fun env s =>
    if env.acting x = 0 then .ok (s.addOp env x .nothing) else
    let w := env.co.scalar x.a.num
    let h := Handle.ofWord w
    match s.sliceOwned env h with
    | .error t => .trap t
    | .ok _ => .ok ((s.putSliceWord env.co.core h 1 (sliceWord1 h.gen Slice.dropping)).addOp env x (.sliceDrop w))) s

/-- The chain of blocks of a slice with the physical places of their links, at most fuel blocks; a link that its page does not give is the
fault of the drop (R147). -/
def State.linkChain (s : State) (core ctx : Nat) : Nat → Nat → Except Trap (List (Nat × Nat))
  | 0, _ => .ok []
  | fuel + 1, va =>
    if va = 0 then .ok [] else
    match s.translate core ctx (va + blockBytes) (some true) true with
    | .error e => .error (e.trap 0xFF (va + blockBytes))
    | .ok r => do
      let rest ← s.linkChain core ctx fuel (s.peekNat r.1 8)
      .ok ((va, r.1) :: rest)

/-- The slice's blocks go back to the free list of its owner, and its entry becomes FREE with the next generation (R120). -/
def State.freeSliceEntry (s : State) (core : Nat) (h : Handle) : Except Trap State := do
  let first ← s.sliceWord core h 0
  match s.ctxs.find h.ctx with
  | none => .ok s
  | some x =>
    let hd := s.sliceHead core h first
    let l ← s.linkChain core h.ctx ((256 + 1024 * hd.nfr + 256 * hd.nrows) / blockBytes + 1) first
    let vas := l.map (·.1)
    let s := ((l.map (·.2)).zip (vas.drop 1 ++ [x.blocks])).foldl (fun (s : State) b => s.pokeNat b.1 8 b.2) s
    let s := { s with ctxs := s.ctxs.put h.ctx { x with blocks := vas.headD x.blocks } }
    .ok ((s.putSliceWord core h 0 0).putSliceWord core h 1 (sliceWord1 (h.gen + 1) 0))

/-- A graft of the slice is still copying (R120). -/
def State.grafting (s : State) (w : Word) : Bool :=
  s.ops.any (fun o => match o.2.kind with
    | .slice (.graft l) => l.any (fun g => g.1 == w)
    | _ => false)

/-- SLICE_DROP_COMPLETE (R120): once every graft that has read the entry has finished, the flag falls at FREE; a fault met on the way is
reported at the path's next run start, the entry staying DROPPING (R147). -/
def execSliceDropComplete (op : Nat) (s : State) : Answer :=
  match s.ops.find op with
  | some o =>
    match o.kind with
    | .sliceDrop w =>
      let core := match o.cid.bind s.courses.find with
        | some c => c.core
        | none => 0
      if s.grafting w then .next s else
      match s.freeSliceEntry core (Handle.ofWord w) with
      | .ok t => .next (t.finishOp op)
      | .error t => .next ((s.lateTrap op o t).finishOp op)
    | _ => .next s
  | none => .next s

end Sys2Proof.Machine
end

