-- ==== Sys2Proof/Machine/Elastic.lean ====
section
/-!
DEFINITION. Elastic arrays (R167 to R183): descriptors, the counted tree, rank resolution, the stages of a structural
operation, and the twelve instructions.
-/

namespace Sys2Proof.Machine

/-! ### Memory by guest-physical address (R168) -/

/-- Physical address of a GPA of a context, by stage 2 only. -/
def State.gpaAt (s : State) (core ctx gpa : Nat) (write : Bool) : Except Trap Nat :=
  match s.stage2 core ctx gpa write with
  | .ok r => .ok r.1
  | .error e => .error (e.trap 0xFF 0)

/-- Reads n bytes at a GPA. -/
def State.gpaRead (s : State) (core ctx gpa n : Nat) : Except Trap Nat := do
  let pa ← s.gpaAt core ctx gpa false
  match s.poisonedAs gpa pa n with
  | some u => .error (Trap.poison 0xFF u)
  | none => .ok (s.peekNat pa n)

/-- Reads n bytes at a GPA; zero where stage 2 does not give them. -/
def State.gpaSee (s : State) (core ctx gpa n : Nat) : Nat :=
  match s.gpaAt core ctx gpa false with
  | .ok pa => s.peekNat pa n
  | .error _ => 0

/-- Writes n bytes at a GPA where stage 2 takes them. -/
def State.gpaPut (s : State) (core ctx gpa n v : Nat) : State :=
  match s.gpaAt core ctx gpa true with
  | .ok pa => s.pokeNat pa n v
  | .error _ => s

/-- Clears the frame at a GPA: every byte reads zero, and no poison mark is left in it. -/
def State.clearFrame (s : State) (core ctx gpa : Nat) : State :=
  match s.gpaAt core ctx gpa true with
  | .error _ => s
  | .ok pa =>
    let b := s.cell (pa / 65536 * 65536)
    { s with mem := s.mem.filter (fun c => decide (c.1 < b) || decide (b + 65536 ≤ c.1)),
             poison := s.poison.filter (fun u => decide (u < b) || decide (b + 65536 ≤ u)) }

/-! ### Descriptors and handles (R167, R168) -/

/-- A descriptor (R168). -/
structure Desc where
  ver : Nat
  esz : Nat
  kind : Nat
  st : Nat
  len : Nat
  depth : Nat
  root : Nat
  seq : Nat
  mnext : Nat
  gen : Nat
  mtab : Nat
  leaf : Nat
  slot : Nat
  deriving DecidableEq, Repr

/-- GPA of an array's descriptor. -/
def State.descAt (s : State) (ctx a : Nat) : Nat := s.ctxWord ctx 3 + 64 * a

/-- The descriptor that 64 bytes hold. -/
def Desc.ofNat (n : Nat) : Desc :=
  let w (k : Nat) : Nat := bits n (64 * k) 64
  { ver := bits (w 0) 56 8, esz := bits (w 0) 52 4, kind := bits (w 0) 50 2, st := bits (w 0) 48 2, len := bits (w 0) 0 48,
    depth := bits (w 1) 60 4, root := bits (w 1) 9 43 * 512, seq := w 2, mnext := bits (w 3) 20 24, gen := bits (w 3) 0 20,
    mtab := w 4, leaf := bits (w 5) 32 32, slot := bits (w 5) 0 17 }

/-- A descriptor as 64 bytes. -/
def Desc.pack (d : Desc) : Nat :=
  let w0 := d.ver * 2 ^ 56 + d.esz * 2 ^ 52 + d.kind * 2 ^ 50 + d.st * 2 ^ 48 + d.len
  let w1 := d.depth * 2 ^ 60 + d.root / 512 * 512
  let w3 := d.mnext % 2 ^ 24 * 2 ^ 20 + d.gen % 2 ^ 20
  let w5 := d.leaf * 2 ^ 32 + d.slot
  w0 + w1 * 2 ^ 64 + d.seq % 2 ^ 64 * 2 ^ 128 + w3 * 2 ^ 192 + d.mtab % 2 ^ 64 * 2 ^ 256 + w5 * 2 ^ 320

/-- Reads a descriptor. -/
def State.desc (s : State) (core ctx a : Nat) : Except Trap Desc := do .ok (Desc.ofNat (← s.gpaRead core ctx (s.descAt ctx a) 64))

/-- Writes a descriptor. -/
def State.putDesc (s : State) (core ctx a : Nat) (d : Desc) : State := s.gpaPut core ctx (s.descAt ctx a) 64 d.pack

/-- The value of OPEN when no leaf is open. -/
def noLeaf : Nat := 0xFFFFFFFF

/-- ARRAY of a handle. -/
def handleArray (h : Word) : Nat := bits h.toNat 24 20

/-- The handle of an array. -/
def makeHandle (part ctx a gen : Nat) : Word := BitVec.ofNat 64 (part * 2 ^ 60 + ctx * 2 ^ 44 + a * 2 ^ 24 + gen)

/-- VER, then HANDLE, for an array named by its number and generation (R181 step 3). A VER of 0 is read as version 1 (log entry 106). -/
def State.liveArray (s : State) (core ctx a gen : Nat) (own : Bool) (lane : Nat) : Except Trap Desc := do
  let d ← s.desc core ctx a
  if 1 < d.ver then .error ((Trap.illegal Sub.ver).onLane lane)
  else if !own || d.st ≠ 1 || d.gen ≠ gen then .error (Trap.peg 2 lane 0)
  else .ok d

/-- The array of a handle, checked (R167, R181). -/
def State.openArray (s : State) (core ctx : Nat) (h : Word) (lane : Nat) : Except Trap Desc :=
  let n := h.toNat
  s.liveArray core ctx (handleArray h) (bits n 0 20) (bits n 60 4 == s.partOf ctx && bits n 44 16 == ctx && bits n 20 4 == 0) lane

/-! ### The counted tree (R171, R173) -/

/-- Entry i of a node: its three words. -/
def State.nodeEntry (s : State) (core ctx node i : Nat) : Except Trap (Nat × Nat × Nat) := do
  let n ← s.gpaRead core ctx (node + 128 + 24 * i) 24
  .ok (bits n 0 64, bits n 64 64, bits n 128 64)

/-- LEVEL and NUSED of a node. -/
def State.nodeHead (s : State) (core ctx node : Nat) : Except Trap (Nat × Nat) := do
  let w ← s.gpaRead core ctx (node + 8) 8
  .ok (bits w 8 4, bits w 0 5)

/-- Resolve of R173 among the entries of a node: the extent of rank r, as (leaf, slot), with the entry's base and extent. -/
def State.resolveAt (s : State) (core ctx : Nat) : Nat → Nat → Nat → Nat → Except Trap (Option (Nat × Nat × Nat × Nat × Nat))
  | 0, _, _, _ => .ok none
  | fuel + 1, node, r, base => do
    let (_, used) ← s.nodeHead core ctx node
    let es ← (List.range (min used 16)).mapM (fun i => s.nodeEntry core ctx node i)
    let pick := es.foldl (fun (acc : Nat × Option (Nat × Nat × Nat)) e =>
      match acc.2 with
      | some _ => acc
      | none =>
        let cnt := bits e.1 0 48
        if bits e.1 62 2 = 2 then acc else if r < acc.1 + cnt then (acc.1, some e) else (acc.1 + cnt, none)) (0, none)
    match pick.2 with
    | none => .ok none
    | some e =>
      if bits e.1 62 2 = 0 then s.resolveAt core ctx fuel (bits e.2.1 9 43 * 512) (r - pick.1) (base + pick.1)
      else
        let leaf := bits e.2.1 32 32
        let start := bits e.2.1 16 16
        .ok (some (leaf, start + (r - pick.1), base + pick.1, start, bits e.1 0 48))

/-- GPA of a leaf-table entry. -/
def State.leafAt (s : State) (ctx leaf : Nat) : Nat := s.ctxWord ctx 4 + 16 * leaf

/-- FRAME of a leaf. -/
def State.leafFrame (s : State) (core ctx leaf : Nat) : Except Trap Nat := do
  .ok (bits (← s.gpaRead core ctx (s.leafAt ctx leaf) 8) 16 36 * 65536)

/-- GEN of a leaf. -/
def State.leafGen (s : State) (core ctx leaf : Nat) : Except Trap Nat := do
  .ok (bits (← s.gpaRead core ctx (s.leafAt ctx leaf) 8) 0 16)

/-- A shoot-down of the array that this core has still to apply. -/
def State.staleRanks (s : State) (core ctx a : Nat) : Bool :=
  s.ops.any (fun o => match o.2.kind with
    | .ea j => o.2.ctx == ctx && j.shoots.any (fun h => h.array == a) &&
        (match j.phase with
         | .committed l _ => l.contains core
         | _ => false)
    | _ => false)

/-- The rank-cache entry of a core that covers a rank (R177). -/
def State.rankHit (s : State) (core ctx a gen r : Nat) : Option RankItem :=
  if s.staleRanks core ctx a then none else
  s.ranks.find? (fun e => e.core == core && e.ctx == ctx && e.array == a && e.gen == gen && decide (e.base ≤ r)
    && decide (r < e.base + e.count))

/-- GPA of the element of a rank: through the rank cache or a walk (R173, R177). -/
def State.elemGpa (s : State) (core ctx a : Nat) (d : Desc) (r : Nat) : Except Trap (Option Nat) :=
  match s.rankHit core ctx a d.gen r with
  | some e => .ok (some (e.frame + (e.start + (r - e.base)) * 2 ^ d.esz))
  | none => do
    match ← s.resolveAt core ctx 13 d.root r 0 with
    | none => .ok none
    | some (leaf, slot, _) => .ok (some ((← s.leafFrame core ctx leaf) + slot * 2 ^ d.esz))

/-- The sequence below a node. -/
def State.treeItems (s : State) (core ctx : Nat) : Nat → Nat → Except Trap (List EItem × List Nat)
  | 0, _ => .ok ([], [])
  | fuel + 1, node => do
    let (_, used) ← s.nodeHead core ctx node
    (List.range (min used 16)).foldlM (fun (acc : List EItem × List Nat) i => do
      let e ← s.nodeEntry core ctx node i
      match bits e.1 62 2 with
      | 0 =>
        let r ← s.treeItems core ctx fuel (bits e.2.1 9 43 * 512)
        pure (acc.1 ++ r.1, acc.2 ++ r.2)
      | 1 => pure (acc.1 ++ [.ext (bits e.2.1 32 32) (bits e.2.1 16 16) (bits e.1 0 48)], acc.2)
      | _ => pure (acc.1 ++ [.mort (bits e.2.1 0 24)], acc.2)) ([], [node])

/-! ### Sequences (R180) -/

/-- Elements of an item. -/
def EItem.count : EItem → Nat
  | .ext _ _ c => c
  | .mort _ => 0

/-- Whether an item is a mortise. -/
def EItem.isMort : EItem → Bool
  | .mort _ => true
  | .ext _ _ _ => false

/-- Elements of a sequence. -/
def itemsLen (l : List EItem) : Nat := l.foldl (fun n e => n + e.count) 0

/-- A sequence cut at place r, after every mortise that stands there. -/
def cutItems : List EItem → Nat → List EItem × List EItem
  | [], _ => ([], [])
  | .mort m :: t, r => let p := cutItems t r; (.mort m :: p.1, p.2)
  | .ext l s c :: t, r =>
    if r = 0 then ([], .ext l s c :: t)
    else if r < c then ([.ext l s r], .ext l (s + r) (c - r) :: t)
    else let p := cutItems t (r - c); (.ext l s c :: p.1, p.2)

/-- Elements r to r + n − 1 removed; the mortises within the span stay, in their order (R180 ea.del). -/
def delItems (l : List EItem) (r n : Nat) : List EItem :=
  let a := cutItems l r
  let b := cutItems a.2 n
  a.1 ++ b.1.filter (·.isMort) ++ b.2

/-- New items just before a mortise (R180 ea.fill). -/
def fillItems (l : List EItem) (m : Nat) (new : List EItem) : List EItem :=
  l.flatMap (fun e => if e = .mort m then new ++ [e] else [e])

/-- The place of a mortise, if it exists. -/
def mortPlace (l : List EItem) (m : Nat) : Option Nat :=
  if l.contains (.mort m) then some (itemsLen (l.takeWhile (fun e => e ≠ .mort m))) else none

/-- Nodes of each level of a tree of n items, level 0 first. -/
def levelSizes : Nat → Nat → List Nat
  | 0, _ => []
  | fuel + 1, n =>
    let k := max 1 ((n + 15) / 16)
    if k = 1 then [1] else k :: levelSizes fuel k

/-! ### The elastic pool (R168) -/

/-- Changes the pool state of a context. -/
def State.modCtx (s : State) (ctx : Nat) (f : Context → Context) : State :=
  match s.ctxs.find ctx with
  | some c => { s with ctxs := s.ctxs.put ctx (f c) }
  | none => s

/-- Takes a frame from the pool; none is FULL (R181). -/
def State.takeFrame (s : State) (core ctx : Nat) : Except Trap (State × Nat) := do
  match s.ctxs.find ctx with
  | none => .error (Trap.peg 6 0xFF 0)
  | some c =>
    if c.pool = 0 then .error (Trap.peg 6 0xFF 0) else do
      let next ← s.gpaRead core ctx c.pool 8
      .ok (s.modCtx ctx (fun c => { c with pool := next }), c.pool)

/-- Gives a frame back to the pool. -/
def State.giveFrame (s : State) (core ctx frame : Nat) : State :=
  match s.ctxs.find ctx with
  | none => s
  | some c => (s.gpaPut core ctx frame 8 c.pool).modCtx ctx (fun c => { c with pool := frame })

/-- Takes n nodes, carved 128 to a frame. -/
def State.takeNodes (s : State) (core ctx : Nat) : Nat → Nat → Except Trap (State × List Nat)
  | _, 0 => .ok (s, [])
  | 0, _ => .error (Trap.peg 6 0xFF 0)
  | fuel + 1, n + 1 => do
    match s.ctxs.find ctx with
    | none => .error (Trap.peg 6 0xFF 0)
    | some c =>
      match c.nodes with
      | x :: t =>
        let r ← (s.modCtx ctx (fun c => { c with nodes := t })).takeNodes core ctx fuel n
        .ok (r.1, x :: r.2)
      | [] =>
        let (s, f) ← s.takeFrame core ctx
        let r ← (s.modCtx ctx (fun c => { c with nodes := (List.range 127).map (fun i => f + 512 * (i + 1)) })).takeNodes
          core ctx fuel n
        .ok (r.1, f :: r.2)

/-- The first leaf number without a frame. -/
def State.freeLeaf (s : State) (core ctx : Nat) : Nat → Nat → Except Trap Nat
  | 0, _ => .error (Trap.peg 6 0xFF 0)
  | fuel + 1, k =>
    match s.leafFrame core ctx k with
    | .error _ => .error (Trap.peg 6 0xFF 0)
    | .ok f => if f = 0 then .ok k else s.freeLeaf core ctx fuel (k + 1)

/-- Takes n new slots of an array, from its OPEN leaf and from fresh leaves (R170): the extents, and OPEN and NEXTSLOT. A leaf that is
filled stays OPEN until the commit. -/
def State.takeSlots (s : State) (core ctx esz : Nat) : Nat → Nat → Nat → Nat → Except Trap (State × List EItem × Nat × Nat)
  | 0, _, leaf, slot => .ok (s, [], leaf, slot)
  | fuel + 1, n, leaf, slot =>
    if n = 0 then .ok (s, [], leaf, slot) else
    let cap := 65536 / 2 ^ esz
    if leaf = noLeaf ∨ cap ≤ slot then do
      let k ← s.freeLeaf core ctx (2 ^ 32) 0
      let (s, f) ← s.takeFrame core ctx
      let gen ← s.leafGen core ctx k
      let s := (s.gpaPut core ctx (s.leafAt ctx k) 8 (f + gen)).gpaPut core ctx (s.leafAt ctx k + 8) 8 0
      let s := s.modCtx ctx (fun c => { c with opens := k :: c.opens.filter (fun x => x ≠ k) })
      let m := min n cap
      let r ← s.takeSlots core ctx esz fuel (n - m) k m
      .ok (r.1, .ext k 0 m :: r.2.1, r.2.2)
    else do
      let m := min n (cap - slot)
      let r ← s.takeSlots core ctx esz fuel (n - m) leaf (slot + m)
      .ok (r.1, .ext leaf slot m :: r.2.1, r.2.2)

/-- Fuel for taking n slots: a piece of the OPEN leaf and whole leaves. -/
def slotFuel (esz n : Nat) : Nat := n / (65536 / 2 ^ esz) + 3

/-- The first FREE entry of the array table; none is FULL. -/
def State.freeArray (s : State) (core ctx : Nat) : Nat → Nat → Except Trap (Nat × Desc)
  | 0, _ => .error (Trap.peg 6 0xFF 0)
  | fuel + 1, a =>
    match s.desc core ctx a with
    | .error _ => .error (Trap.peg 6 0xFF 0)
    | .ok d => if d.st = 0 then .ok (a, d) else s.freeArray core ctx fuel (a + 1)

/-! ### Acceptance (R174, R181) -/

/-- The nodes of a tree of n items: nodes that the commit replaces are used again, the rest are taken from the pool (R174); no frame is
FULL, and then a 13th level is DEPTH (R181). What is left of the replaced nodes is returned. -/
def State.planNodes (s : State) (core ctx n : Nat) (old : List Nat) : Except Trap (State × List Nat × List Nat) := do
  let m := (levelSizes 14 n).foldl (· + ·) 0
  let r ← s.takeNodes core ctx (m + 1) (m - old.length)
  .ok (r.1, old.take m ++ r.2, old.drop m)

/-- A tree of n items needs no 13th level (R171). -/
def depthOk (n : Nat) : Except Trap Unit := if 12 < (levelSizes 14 n).length then .error (Trap.peg 8 0xFF 0) else .ok ()

/-- The tree of an array with new items. -/
def State.planTree (s : State) (core ctx a : Nat) (items : List EItem) (mnext leaf slot : Nat) (old : List Nat) :
    Except Trap (State × EaTree) := do
  let r ← s.planNodes core ctx items.length old
  let _ ← depthOk items.length
  .ok (r.1, { array := a, items := items, nodes := r.2.1, mnext := mnext, leaf := leaf, slot := slot })

/-- Entries of the mortise table in one frame. -/
def mortsPerFrame : Nat := 8192

/-- Takes the mortise-table frames that MNUMs below n need beyond those an array has (R168, R172). -/
def State.takeMortFrames (s : State) (core ctx : Nat) : Nat → Nat → Except Trap (State × List Nat)
  | 0, _ => .ok (s, [])
  | fuel + 1, n =>
    if n = 0 then .ok (s, []) else do
      let (s, f) ← s.takeFrame core ctx
      let r ← (s.clearFrame core ctx f).takeMortFrames core ctx fuel (n - 1)
      .ok (r.1, f :: r.2)

/-- The mortise-table frames of an array beyond the first. -/
def State.mortFrames (s : State) (ctx a : Nat) : List Nat :=
  match s.ctxs.find ctx with
  | some c => c.mpages.getD a []
  | none => []

/-- GPA of the mortise-table entry of an MNUM, given the table's frames in order. -/
def mortEntry (frames : List Nat) (m : Nat) : Option Nat := frames[m / mortsPerFrame]?.map (fun f => f + 8 * (m % mortsPerFrame))

/-- Where new items' bytes lie, and where a fill takes them from. -/
def State.planWrites (s : State) (core ctx esz : Nat) (src : Option Nat) : List EItem → Except Trap (List (Nat × Nat × Option Nat))
  | [] => .ok []
  | .mort _ :: t => s.planWrites core ctx esz src t
  | .ext l st c :: t => do
    let f ← s.leafFrame core ctx l
    let r ← s.planWrites core ctx esz (src.map (fun v => v + c * 2 ^ esz)) t
    .ok ((f + st * 2 ^ esz, c * 2 ^ esz, src) :: r)

/-- A job with its plan made. -/
def EaJob.plan (j : EaJob) (trees : List EaTree) (writes : List (Nat × Nat × Option Nat)) (shoots : List Shoot) (old : List Nat) :
    EaJob := { j with phase := .accepted, trees := trees, writes := writes, shoots := shoots, oldNodes := old }

/-- A course's access to its own private region at or above HW (R129). -/
def Course.hwBad (c : Course) (va n : Nat) : Bool :=
  decide (c.priv ≤ va) && decide (va < c.priv + c.res * 65536) && decide (c.priv + c.hw * 65536 < va + n)

/-- A range of paged memory that an engine of the course will read or write: PAGE, PRIVHW (R132). -/
def State.pagedRange (s : State) (c : Course) (va n : Nat) (write : Bool) (lane : Nat) : Except Trap (List (Nat × Nat)) := do
  let l ← (pieces (n / 65536 + 2) va n).mapM (fun p =>
    match s.translate c.core c.ctx p.1 none write with
    | .ok r => .ok (r.1, p.2)
    | .error e => .error (e.trap lane p.1))
  if n ≠ 0 ∧ c.hwBad va n then .error (Trap.privhw lane va) else .ok l

/-- A range that the device reads and interprets: PAGE, PRIVHW, POISON (R132, R333). -/
def State.pagedRead (s : State) (c : Course) (va n lane : Nat) : Except Trap (List (Nat × Nat)) := do
  let l ← s.pagedRange c va n false lane
  match s.poisonedRun va l with
  | some u => .error (Trap.poison lane u)
  | none => .ok l

/-- Goes on with k once the block that the instruction reads at issue may be read (R333); until then it waits in the access
queue. -/
def awaitBlock (va n : Nat) (env : Env) (s : State) (k : Res) : Res :=
  match s.pagedRange env.co va n false 0xFF with
  | .ok l => if s.blockReady env.cid l then k else .stall s
  | .error _ => k

/-- The checks of one lane of a fill, against the length that the lower lanes leave (R181 step 4): MORT, ALIGN, the source, LEN. -/
def State.fillCheck (s : State) (c : Course) (d : Desc) (items : List EItem) (len : Nat) (f : Nat × Word × Nat × Nat) : Except Trap Nat := do
  let n := f.2.2.2
  let src := f.2.2.1
  if (mortPlace items (bits f.2.1.toNat 20 24)).isNone then .error (Trap.peg 5 f.1 0)
  else if src % 2 ^ d.esz ≠ 0 then .error (Trap.align f.1 src)
  else if n = 0 then .ok len else
  let _ ← s.pagedRead c src (n * 2 ^ d.esz) f.1
  if 2 ^ 48 ≤ len + n then .error (Trap.peg 4 f.1 0) else .ok (len + n)

/-- One lane of a fill set down in the array as the lower lanes leave it (R180). -/
def State.fillLane (s : State) (c : Course) (d : Desc) (acc : EaTree × List (Nat × Nat × Option Nat) × List Shoot)
    (f : Nat × Word × Nat × Nat) : Except Trap (State × EaTree × List (Nat × Nat × Option Nat) × List Shoot) := do
  let t := acc.1
  let m := bits f.2.1.toNat 20 24
  let n := f.2.2.2
  if n = 0 then .ok (s, acc) else
  let (s, ext, leaf, slot) ← onLane f.1 (s.takeSlots c.core c.ctx d.esz (slotFuel d.esz n) n t.leaf t.slot)
  let w ← onLane f.1 (s.planWrites c.core c.ctx d.esz (some f.2.2.1) ext)
  .ok (s, { t with items := fillItems t.items m ext, leaf := leaf, slot := slot }, acc.2.1 ++ w,
       acc.2.2 ++ [{ array := t.array, r := (mortPlace t.items m).getD 0, delta := n, drop := false }])

/-- The array that a mortise reference names, checked (R181). -/
def State.openMort (s : State) (c : Course) (k : Word) (lane : Nat) : Except Trap Desc :=
  s.liveArray c.core c.ctx (bits k.toNat 44 20) (bits k.toNat 0 20) true lane

/-- Acceptance of a structural operation at its home: the checks of R181 in order, and the plan of its commit. -/
def State.acceptEa (s : State) (c : Course) (j : EaJob) : Except Trap (State × EaJob) := do
  let core := c.core
  let ctx := c.ctx
  let part := s.partOf ctx
  match j.o with
  | .new esz kind =>
    let (a, d) ← s.freeArray core ctx (2 ^ 20) 0
    let (s, mt) ← s.takeFrame core ctx
    let (s, t) ← s.planTree core ctx a [] 0 noLeaf 0 []
    let d : Desc := { ver := 1, esz := esz, kind := kind, st := 1, len := 0, depth := 1, root := t.nodes.headD 0, seq := d.seq,
                      mnext := 0, gen := d.gen, mtab := mt, leaf := noLeaf, slot := 0 }
    .ok ((s.clearFrame core ctx mt).putDesc core ctx a d, { j.plan [t] [] [] [] with result := makeHandle part ctx a d.gen })
  | .free h =>
    let d ← s.openArray core ctx h 0xFF
    let (_, old) ← s.treeItems core ctx 13 d.root
    let a := handleArray h
    .ok (s.putDesc core ctx a { d with st := 2 },
      { j.plan [{ array := a, items := [], nodes := [], mnext := 0, leaf := noLeaf, slot := 0 }] []
          [{ array := a, r := 0, delta := 0, drop := true }] old with freed := some a })
  | .ins h r n =>
    let d ← s.openArray core ctx h 0xFF
    if d.len < r then .error (Trap.peg 1 0xFF r) else
    if 2 ^ 48 ≤ d.len + n then .error (Trap.peg 4 0xFF 0) else
    if n = 0 then .ok (s, j.plan [] [] [] []) else
    let a := handleArray h
    let (items, old) ← s.treeItems core ctx 13 d.root
    let (s, ext, leaf, slot) ← s.takeSlots core ctx d.esz (slotFuel d.esz n) n d.leaf d.slot
    let w ← s.planWrites core ctx d.esz none ext
    let p := cutItems items r
    let (s, t) ← s.planTree core ctx a (p.1 ++ ext ++ p.2) d.mnext leaf slot old
    .ok (s, j.plan [t] w [{ array := a, r := r, delta := n, drop := false }] old)
  | .del h r n =>
    let d ← s.openArray core ctx h 0xFF
    if d.len < r + n then .error (Trap.peg 1 0xFF r) else
    if n = 0 then .ok (s, j.plan [] [] [] []) else
    let a := handleArray h
    let (items, old) ← s.treeItems core ctx 13 d.root
    let (s, t) ← s.planTree core ctx a (delItems items r n) d.mnext d.leaf d.slot old
    .ok (s, j.plan [t] [] [{ array := a, r := r, delta := -(n : Int), drop := false }] old)
  | .split h r =>
    let d ← s.openArray core ctx h 0xFF
    if d.len < r then .error (Trap.peg 1 0xFF r) else
    let a := handleArray h
    let (items, old) ← s.treeItems core ctx 13 d.root
    let p := cutItems items r
    if p.2.any (·.isMort) then .error (Trap.peg 5 0xFF 0) else
    let (b, e) ← s.freeArray core ctx (2 ^ 20) 0
    let (s, mt) ← s.takeFrame core ctx
    let (s, t) ← s.planTree core ctx a p.1 d.mnext d.leaf d.slot old
    let (s, u) ← s.planTree core ctx b p.2 0 noLeaf 0 (old.filter (fun k => !t.nodes.contains k))
    let e : Desc := { ver := 1, esz := d.esz, kind := d.kind, st := 1, len := 0, depth := 1, root := u.nodes.headD 0, seq := e.seq,
                      mnext := 0, gen := e.gen, mtab := mt, leaf := noLeaf, slot := 0 }
    .ok ((s.clearFrame core ctx mt).putDesc core ctx b e,
      { j.plan [t, u] [] [{ array := a, r := r, delta := 0, drop := true }] old with result := makeHandle part ctx b e.gen })
  | .cat h g =>
    let d ← s.openArray core ctx h 0xFF
    let e ← s.openArray core ctx g 0xFF
    let a := handleArray h
    let b := handleArray g
    let (items, old) ← s.treeItems core ctx 13 d.root
    let (more, old') ← s.treeItems core ctx 13 e.root
    if 2 ^ 48 ≤ d.len + e.len then .error (Trap.peg 4 0xFF 0) else
    if more.any (·.isMort) then .error (Trap.peg 5 0xFF 0) else
    let all := items ++ more
    let _ ← s.planNodes core ctx all.length (old ++ old')
    if a = b ∨ d.esz ≠ e.esz ∨ d.kind ≠ e.kind then .error (Trap.peg 7 0xFF 0) else
    let (s, t) ← s.planTree core ctx a all d.mnext d.leaf d.slot (old ++ old')
    .ok (s.putDesc core ctx b { e with st := 2 },
      { j.plan [t, { array := b, items := [], nodes := [], mnext := 0, leaf := noLeaf, slot := 0 }] []
          [{ array := b, r := 0, delta := 0, drop := true }] (old ++ old') with freed := some b })
  | .mort h r m =>
    let d ← s.openArray core ctx h 0xFF
    if d.len < r then .error (Trap.peg 1 0xFF r) else
    if 2 ^ 24 < d.mnext + m then .error (Trap.peg 5 0xFF 0) else
    let a := handleArray h
    let (items, old) ← s.treeItems core ctx 13 d.root
    let p := cutItems items r
    let have_ := 1 + (s.mortFrames ctx a).length
    let (s, pages) ← s.takeMortFrames core ctx 2048 ((d.mnext + m + mortsPerFrame - 1) / mortsPerFrame - have_)
    let (s, t) ← s.planTree core ctx a (p.1 ++ (List.range m).map (fun i => EItem.mort (d.mnext + i)) ++ p.2) (d.mnext + m) d.leaf
      d.slot old
    .ok (s, { j.plan [t] [] [] old with result := BitVec.ofNat 64 (a * 2 ^ 44 + d.mnext * 2 ^ 20 + d.gen), pages := pages })
  | .fill l =>
    match l with
    | [] => .ok (s, j.plan [] [] [] [])
    | f :: _ =>
      let d ← s.openMort c f.2.1 f.1
      let arr (k : Word) : Nat × Nat := (bits k.toNat 44 20, bits k.toNat 0 20)
      match l.find? (fun g => arr g.2.1 ≠ arr f.2.1) with
      | some g => .error (Trap.peg 2 g.1 0)
      | none =>
      let (items, old) ← s.treeItems core ctx 13 d.root
      let t : EaTree := { array := (arr f.2.1).1, items := items, nodes := [], mnext := d.mnext, leaf := d.leaf, slot := d.slot }
      let _ ← l.foldlM (fun len g => s.fillCheck c d items len g) d.len
      let (s, t, w, sh) ← l.foldlM (fun (acc : State × EaTree × List (Nat × Nat × Option Nat) × List Shoot) g =>
        acc.1.fillLane c d acc.2 g) (s, t, [], [])
      if l.all (fun g => g.2.2.2 = 0) then .ok (s, j.plan [] [] [] []) else
      let (s, t) ← s.planTree core ctx t.array t.items t.mnext t.leaf t.slot old
      .ok (s, j.plan [t] w sh old)
  | .seal k m =>
    let d ← s.openMort c k 0xFF
    let a := bits k.toNat 44 20
    let m0 := bits k.toNat 20 24
    let (items, old) ← s.treeItems core ctx 13 d.root
    if (List.range m).any (fun i => !items.contains (.mort (m0 + i))) then .error (Trap.peg 5 0xFF 0) else
    let gone (e : EItem) : Bool := match e with
      | .mort x => decide (m0 ≤ x) && decide (x < m0 + m)
      | _ => false
    let (s, t) ← s.planTree core ctx a (items.filter (fun e => !gone e)) d.mnext d.leaf d.slot old
    .ok (s, j.plan [t] [] [] old)
  | .feed k n =>
    let d ← s.openMort c k 0xFF
    let a := bits k.toNat 44 20
    let m := bits k.toNat 20 24
    if d.esz ≠ 8 then .error (Trap.peg 7 0xFF 0) else
    let (items, old) ← s.treeItems core ctx 13 d.root
    match mortPlace items m with
    | none => .error (Trap.peg 5 0xFF 0)
    | some p =>
      if 2 ^ 48 ≤ d.len + n then .error (Trap.peg 4 0xFF 0) else
      let (s, ext, leaf, slot) ← s.takeSlots core ctx d.esz (slotFuel d.esz n) n d.leaf d.slot
      let w ← s.planWrites core ctx d.esz none ext
      let (s, t) ← s.planTree core ctx a (fillItems items m ext) d.mnext leaf slot old
      .ok (s, j.plan [t] w [{ array := a, r := p, delta := n, drop := false }] old)

/-- The arrays that a structural operation names. -/
def EaOp.arrays : EaOp → List Nat
  | .new _ _ => []
  | .free h | .ins h _ _ | .del h _ _ | .split h _ | .mort h _ _ => [handleArray h]
  | .cat h g => [handleArray h, handleArray g]
  | .fill l => l.map (fun f => bits f.2.1.toNat 44 20)
  | .seal k _ | .feed k _ => [bits k.toNat 44 20]

/-- Operations of the context on one of these arrays in some phase. -/
def State.eaOps (s : State) (ctx : Nat) (arrays : List Nat) : List (Nat × EaJob) :=
  s.ops.filterMap (fun o => match o.2.kind with
    | .ea j => if o.2.ctx == ctx && j.o.arrays.any arrays.contains then some (o.1, j) else none
    | _ => none)

/-- Physical lines of the slots an accepted operation writes, and of a fill's sources, as lock ranges (R179). -/
def State.eaRanges (s : State) (c : Course) (j : EaJob) : List (Nat × Nat × Bool) :=
  j.writes.flatMap (fun w =>
    (match s.gpaAt c.core c.ctx w.1 true with
     | .ok pa => lockPieces true [(pa, w.2.1)]
     | .error _ => []) ++
    (match w.2.2 with
     | some v =>
       (match s.pagedRange c v w.2.1 false 0xFF with
        | .ok l => lockPieces false l
        | .error _ => [])
     | none => []))

/-- Entries of the range-lock table still free. -/
def State.freeLocks (s : State) : Nat := Config.lockEntries - s.locks.length

/-- The operation of a node has ended, or has met a trap (R245). -/
def State.nodeEnded (s : State) (node : Option (Nat × Nat)) (bad : Option Trap) : State :=
  match node with
  | none => s
  | some n => { s with nodes := s.nodes.map (fun r => if r.q = n.1 ∧ r.slot = n.2 then
      (match bad with
       | none => { r with done := true }
       | some t => { r with bad := some (2, t.cls.toNat, t.sub.toNat) }) else r) }

/-- The course that issued a structural operation; for a decoder's fill, a bare view of its walker's core: q is the operation's
path, slot its index (R218, R243). -/
def State.eaCourse (s : State) (o : Op) : Option Course :=
  match o.cid with
  | some cid => s.courses.find cid
  | none => some (Course.blank (o.path % 2 * 48) o.ctx)

/-- The media operation of a node. -/
def State.mediaOp (s : State) (q slot : Nat) : Option (Nat × Op) :=
  s.ops.find? (fun o => match o.2.kind with
    | .media a b _ _ => a == q && b == slot
    | _ => false)

/-- EA_ACCEPT (R174, R179): the home takes the operations of an array in arrival order, one at a time, and only when all ranges
can be registered. -/
def execEaAccept (op : Nat) (s : State) : Answer :=
  match s.ops.find op with
  | none => .next s
  | some o =>
    match o.kind, s.eaCourse o with
    | .ea j, some c =>
      if j.phase ≠ .offered then .next s else
      if (s.eaOps o.ctx j.o.arrays).any (fun k => decide (k.1 ≠ op) && (decide (k.1 < op) || decide (k.2.phase ≠ .offered))) then
        .next s
      else
        match s.acceptEa c j with
        | .error t =>
          .next (if o.cid.isNone then ({ s with ops := s.ops.del op }).nodeEnded (some (o.path, o.idx)) (some t)
            else s.setOp op (.ea { j with phase := .refused t }))
        | .ok (t, k) =>
          match j.o.arrays.findSome? (fun a => s.lockAt op (arrayKey o.ctx a) 1 true) with
          | some (n, e) =>
            .next (if o.cid.isNone then s else s.setOp op (.ea { j with phase := .refused (Trap.rlock n e (o.cid.getD 0) 0xFF 0) }))
          | none =>
          let r := t.eaRanges c k
          if t.freeLocks < r.length then .next s else .next ((t.setOp op (.ea k)).lockRanges op false r)
    | _, _ => .next s

/-! ### Commit (R174, R177) -/

/-- The three words of an entry and the elements in it, for an item. -/
def EItem.entry : EItem → Nat × Nat × Nat
  | .ext l st c => (2 ^ 62 + c, l * 2 ^ 32 + st * 2 ^ 16, c)
  | .mort m => (2 ^ 63, m, 0)

/-- Chunks of 16. -/
def chunks {α : Type} : Nat → List α → List (List α)
  | 0, _ => []
  | fuel + 1, l => if l.isEmpty then [] else l.take 16 :: chunks fuel (l.drop 16)

/-- A node as 512 bytes: parent, index in it, array, level, and the entries' first two words. -/
def packNode (parent pidx array level : Nat) (es : List (Nat × Nat × Nat)) : Nat :=
  es.zipIdx.foldl (fun n e => n + (e.1.1 + e.1.2.1 * 2 ^ 64) * 2 ^ (8 * (128 + 24 * e.2)))
    (parent / 512 * 512 + pidx + (array * 2 ^ 44 + level * 2 ^ 8 + es.length) * 2 ^ 64)

/-- Writes the levels of a tree upward: entries of this level, nodes left, and the level's number; the root has no parent. -/
def State.putLevels (s : State) (core ctx array : Nat) : Nat → Nat → List (Nat × Nat × Nat) → List Nat → State
  | 0, _, _, _ => s
  | fuel + 1, level, es, nodes =>
    let gs := if es.isEmpty then [[]] else chunks (es.length + 1) es
    let mine := nodes.take gs.length
    let rest := nodes.drop gs.length
    let root := gs.length == 1
    let s := (mine.zip gs).zipIdx.foldl (fun (s : State) g =>
      s.gpaPut core ctx g.1.1 512
        (packNode (if root then 0 else rest.getD (g.2 / 16) 0) (if root then 0 else g.2 % 16) array level g.1.2)) s
    if root then s else
    let up := (mine.zip gs).map (fun g => (g.2.foldl (fun n e => n + e.2.2) 0, g.1 / 512 * 512))
    s.putLevels core ctx array fuel (level + 1) (up.map (fun u => (u.1, u.2, u.1))) rest

/-- The root of a planned tree and its levels. -/
def EaTree.root (t : EaTree) : Nat × Nat :=
  let sizes := levelSizes 14 t.items.length
  (t.nodes.getD (sizes.foldl (· + ·) 0 - 1) 0, sizes.length)

/-- Where item k of a planned tree stands: node and index. -/
def EaTree.place (t : EaTree) (k : Nat) : Nat × Nat := (t.nodes.getD (k / 16) 0, k % 16)

/-- The chain of a leaf's extents (R171 NEXT, R172 FIRST). -/
def State.leafChain (s : State) (core ctx : Nat) : Nat → Nat → Nat → List (Nat × Nat)
  | 0, _, _ => []
  | fuel + 1, node, i =>
    if node = 0 then [] else
    let w := s.gpaSee core ctx (node + 128 + 24 * i + 16) 8
    (node, i) :: (if nbit w 63 then s.leafChain core ctx fuel (bits w 9 43 * 512) (bits w 0 4) else [])

/-- Leaves that occur in a sequence, each once. -/
def itemLeaves (l : List EItem) : List Nat :=
  (l.filterMap (fun e => match e with
    | .ext k _ _ => some k
    | .mort _ => none)).eraseDups

/-- Elements of a sequence that lie in a leaf. -/
def inLeaf (l : List EItem) (k : Nat) : Nat :=
  l.foldl (fun n e => match e with
    | .ext j _ c => if j = k then n + c else n
    | .mort _ => n) 0

/-- Rewrites a leaf's entry: the chain of its extents and its live elements. -/
def State.putLeaf (s : State) (core ctx k : Nat) (chain : List (Nat × Nat)) (live : Nat) : State :=
  let first := chain.headD (0, 0)
  let s := s.gpaPut core ctx (s.leafAt ctx k + 8) 8 (first.1 / 512 * 2 ^ 21 + first.2 * 2 ^ 17 + live)
  (chain.zip (chain.drop 1 |>.map some |> (· ++ [Option.none]))).foldl (fun (s : State) e =>
    s.gpaPut core ctx (e.1.1 + 128 + 24 * e.1.2 + 16) 8 (match e.2 with
      | some n => 2 ^ 63 + n.1 / 512 * 512 + n.2
      | none => 0)) s

/-- Structure sequence numbers that an operation takes on each array it names: one for each lane of a fill that fills (R174). -/
def EaOp.steps : EaOp → Nat
  | .fill l => (l.filter (fun f => f.2.2.2 ≠ 0)).length
  | _ => 1

/-- Writes one array of a commit: its tree, its mortise table and its descriptor; SEQ moves on by 2 for each sequence number. -/
def State.putTree (s : State) (core ctx : Nat) (t : EaTree) (freed : Bool) (old : List EItem) (steps : Nat) : State :=
  match s.desc core ctx t.array with
  | .error _ => s
  | .ok d =>
    let s := if freed then s else s.putLevels core ctx t.array 14 0 (t.items.map EItem.entry) t.nodes
    let frames := d.mtab :: s.mortFrames ctx t.array
    let put (s : State) (m v : Nat) : State := match mortEntry frames m with
      | some a => s.gpaPut core ctx a 8 v
      | none => s
    let s := old.foldl (fun (s : State) e => match e with
      | .mort m => put s m 0
      | .ext _ _ _ => s) s
    let s := if freed then s else t.items.zipIdx.foldl (fun (s : State) e => match e.1 with
      | .mort m => put s m (2 ^ 63 + (t.place e.2).1 / 512 * 512 + (t.place e.2).2)
      | .ext _ _ _ => s) s
    let r := t.root
    s.putDesc core ctx t.array { d with
      len := itemsLen t.items, root := if freed then d.root else r.1, depth := if freed then d.depth else r.2, seq := d.seq + 2 * steps,
      mnext := t.mnext, leaf := t.leaf, slot := t.slot }

/-- Tree k of an operation's plan is that of an array that it creates. -/
def EaOp.fresh (o : EaOp) (k : Nat) : Bool :=
  match o with
  | .new _ _ => true
  | .split _ _ => k == 1
  | _ => false

/-- The sequence of each array of a plan before the commit, and its OPEN leaf. -/
def State.beforeEa (s : State) (core ctx : Nat) (j : EaJob) : List (List EItem × Nat) :=
  j.trees.zipIdx.map (fun t =>
    if j.o.fresh t.2 then ([], noLeaf) else
    match s.desc core ctx t.1.array with
    | .error _ => ([], noLeaf)
    | .ok d => match s.treeItems core ctx 13 d.root with
      | .ok r => (r.1, d.leaf)
      | .error _ => ([], d.leaf))

/-- Bytes of the new elements before one of the writes of a plan. -/
def newBytes (l : List (Nat × Nat × Option Nat)) (w : Nat × Nat × Option Nat) : Nat :=
  (l.takeWhile (fun v => v != w)).foldl (fun n v => n + v.2.1) 0

/-- Commits a planned operation (R174): new elements are written, then the arrays, the leaf table and the sequence numbers. The
answer names the leaves that the commit touched. -/
def State.commitEa (s : State) (c : Course) (j : EaJob) : State × List Nat :=
  let core := c.core
  let ctx := c.ctx
  let s := s.clearWhole (j.writes.filterMap (fun w => (s.gpaAt core ctx w.1 true).toOption.map (fun pa => (pa, w.2.1))))
  let s := j.writes.foldl (fun (s : State) w =>
    match s.gpaAt core ctx w.1 true with
    | .error _ => s
    | .ok pa =>
      match w.2.2 with
      | none => s.poke pa (if j.data.isEmpty then List.replicate w.2.1 0 else (j.data.drop (newBytes j.writes w)).take w.2.1)
      | some v =>
        match s.pagedRange c v w.2.1 false 0xFF with
        | .ok l => s.writeMarked [(pa, w.2.1)] (s.readMarked l)
        | .error _ => s) s
  let s := match j.trees with
    | t :: _ => if j.pages.isEmpty then s else s.modCtx ctx (fun x => { x with mpages := x.mpages.put t.array (x.mpages.getD t.array [] ++ j.pages) })
    | [] => s
  let was := s.beforeEa core ctx j
  let olds := was.map (·.1)
  let before := olds.flatten
  let after := j.trees.flatMap (·.items)
  let leaves := (itemLeaves before ++ itemLeaves after).eraseDups
  let chains := leaves.map (fun k =>
    let w := s.gpaSee core ctx (s.leafAt ctx k + 8) 8
    let rest := (s.leafChain core ctx 65536 (bits w 21 43 * 512) (bits w 17 4)).filter (fun p => !j.oldNodes.contains p.1)
    let mine := j.trees.flatMap (fun t => t.items.zipIdx.filterMap (fun e => match e.1 with
      | .ext l _ _ => if l = k then some (t.place e.2) else none
      | .mort _ => none))
    (k, rest ++ mine, bits w 0 17 + inLeaf after k - inLeaf before k))
  let s := (j.trees.zip olds).foldl (fun (s : State) t => s.putTree core ctx t.1 (j.freed == some t.1.array) t.2 j.o.steps) s
  let s := chains.foldl (fun (s : State) k => s.putLeaf core ctx k.1 k.2.1 k.2.2) s
  let fresh := (itemLeaves after).filter (fun k => !(itemLeaves before).contains k)
  let closed := ((was.map (·.2)) ++ fresh).filter (fun k => k ≠ noLeaf ∧ !(j.trees.any (fun t => t.leaf = k)))
  (s.modCtx ctx (fun x => { x with opens := x.opens.filter (fun k => !closed.contains k) }), (leaves ++ closed).eraseDups)

/-- EA_COMMIT (R174): an accepted operation takes effect, and the shoot-down goes to every core. -/
def execEaCommit (op : Nat) (s : State) : Answer :=
  match s.ops.find op with
  | none => .next s
  | some o =>
    match o.kind, s.eaCourse o with
    | .ea j, some c =>
      if j.phase ≠ .accepted || !s.engineReady op o [] (s.ownRanges op) then .next s else
      let all := if j.shoots.isEmpty then [] else List.range Config.cores
      let r := s.commitEa c j
      .next (r.1.setOp op (.ea { j with phase := .committed all all, leaves := r.2 }))
    | _, _ => .next s

/-- A rank-cache entry under a shoot-down (R177): kept, shifted or dropped. -/
def RankItem.shot (e : RankItem) (h : Shoot) : Option RankItem :=
  if e.array ≠ h.array then some e
  else if h.drop then (if h.r < e.base + e.count then none else some e)
  else if 0 ≤ h.delta then
    (if h.r ≤ e.base then some { e with base := e.base + h.delta.toNat }
     else if h.r < e.base + e.count then none else some e)
  else
    let n := (-h.delta).toNat
    if h.r + n ≤ e.base then some { e with base := e.base - n }
    else if e.base < h.r + n ∧ h.r < e.base + e.count then none else some e

/-- SHOOTDOWN (R177): a core applies the shoot-down of a commit to its rank cache. -/
def execShootdown (op core : Nat) (s : State) : Answer :=
  match s.ops.find op with
  | none => .next s
  | some o =>
    match o.kind with
    | .ea j =>
      match j.phase with
      | .committed l k =>
        if !l.contains core then .next s else
        let ranks := s.ranks.filterMap (fun e =>
          if e.core == core && e.ctx == o.ctx then j.shoots.foldl (fun e h => e.bind (fun e => e.shot h)) (some e) else some e)
        .next (({ s with ranks := ranks }).setOp op (.ea { j with phase := .committed (l.filter (· ≠ core)) k }))
      | _ => .next s
    | _ => .next s

/-- Accesses of a core that resolved in one of these arrays and have still to be performed (R178). -/
def State.resolving (s : State) (core ctx : Nat) (arrays : List Nat) : Bool :=
  s.ops.any (fun o => o.2.ctx == ctx && (match o.2.kind, o.2.cid.bind s.courses.find with
    | .mem j, some c => !j.todo.isEmpty && c.core == core && (match j.array with
      | some a => arrays.contains a
      | none => false)
    | _, _ => false))

/-- SHOOTDOWN_ACK (R178): a core acknowledges once its accesses through older entries have been performed. -/
def execShootdownAck (op core : Nat) (s : State) : Answer :=
  match s.ops.find op with
  | none => .next s
  | some o =>
    match o.kind with
    | .ea j =>
      match j.phase with
      | .committed l k =>
        if l.contains core || !k.contains core || s.resolving core o.ctx (j.shoots.map (·.array)) then .next s else
        .next (s.setOp op (.ea { j with phase := .committed l (k.filter (· ≠ core)) }))
      | _ => .next s
    | _ => .next s

/-- Returns the leaves of a list that hold no live element and are no array's OPEN leaf (R170). -/
def State.returnLeaves (s : State) (core ctx : Nat) (l : List Nat) : State :=
  l.foldl (fun (s : State) k =>
    let opens := match s.ctxs.find ctx with
      | some c => c.opens
      | none => []
    let w0 := s.gpaSee core ctx (s.leafAt ctx k) 8
    let live := bits (s.gpaSee core ctx (s.leafAt ctx k + 8) 8) 0 17
    let frame := bits w0 16 36 * 65536
    if live = 0 ∧ !opens.contains k ∧ frame ≠ 0 then
      ((s.gpaPut core ctx (s.leafAt ctx k) 8 ((bits w0 0 16 + 1) % 65536)).gpaPut core ctx (s.leafAt ctx k + 8) 8 0).giveFrame core ctx
        frame
    else s) s

/-- The structures of an array go back at the end of its context: nodes, mortise table, and the leaves that its elements stand in (R170, R183). -/
def State.returnArray (s : State) (core ctx a : Nat) (d : Desc) : State :=
  let r := match s.treeItems core ctx 13 d.root with
    | .ok r => r
    | .error _ => ([], [])
  let leaves := (itemLeaves r.1 ++ (if d.leaf = noLeaf then [] else [d.leaf])).eraseDups
  let s := leaves.foldl (fun (s : State) k =>
    let at_ := s.leafAt ctx k
    s.gpaPut core ctx (at_ + 8) 8 (bits (s.gpaSee core ctx (at_ + 8) 8) 0 17 - inLeaf r.1 k)) s
  let s := s.modCtx ctx (fun c => { c with nodes := r.2 ++ c.nodes, opens := c.opens.filter (fun k => k ≠ d.leaf) })
  let s := s.returnLeaves core ctx leaves
  let s := (d.mtab :: s.mortFrames ctx a).foldl (fun (s : State) f => if f = 0 then s else s.giveFrame core ctx f) s
  (s.modCtx ctx (fun c => { c with mpages := c.mpages.del a })).putDesc core ctx a
    { ver := 1, esz := 0, kind := 0, st := 0, len := 0, depth := 0, root := 0, seq := d.seq, mnext := 0, gen := (d.gen + 1) % 2 ^ 20,
      mtab := 0, leaf := 0, slot := 0 }

/-- The frames of free nodes go back to the pool once every node of the context is free. -/
def State.returnNodes (s : State) (core ctx : Nat) : State :=
  match s.ctxs.find ctx with
  | none => s
  | some c =>
    ((c.nodes.map (fun k => k / 65536 * 65536)).eraseDups.foldl (fun (s : State) f => s.giveFrame core ctx f) s).modCtx ctx (fun c => { c with nodes := [] })

/-- An instruction still holds its issue slot for this operation. -/
def State.offering (s : State) (op : Nat) : Bool :=
  s.courses.any (fun c => c.2.paths.any (fun p => p.2.offer == some op))

/-- EA_COMMIT_COMPLETE (R174, R170, R183): nodes and leaf frames left unused go back, a freed entry becomes FREE with the next
generation, the locks are released and the flag falls; a result is written once the course is between runs (R43). -/
def execEaCommitComplete (op : Nat) (s : State) : Answer :=
  match s.ops.find op with
  | none => .next s
  | some o =>
    match o.kind with
    | .ea j =>
      if j.phase ≠ .committed [] [] || s.offering op then .next s else
      let core := match s.eaCourse o with
        | some c => c.core
        | none => 0
      let unused := j.oldNodes.filter (fun k => !j.trees.any (fun t => t.nodes.contains k))
      let s := (s.modCtx o.ctx (fun c => { c with nodes := unused ++ c.nodes })).returnLeaves core o.ctx j.leaves
      let s := match j.freed with
        | none => s
        | some a =>
          match s.desc core o.ctx a with
          | .error _ => s
          | .ok d =>
            let s := (d.mtab :: s.mortFrames o.ctx a).foldl (fun (s : State) f => if f = 0 then s else s.giveFrame core o.ctx f) s
            let s := s.modCtx o.ctx (fun c => { c with mpages := c.mpages.del a })
            s.putDesc core o.ctx a { ver := 1, esz := 0, kind := 0, st := 0, len := 0, depth := 0, root := 0, seq := d.seq, mnext := 0,
                                     gen := (d.gen + 1) % 2 ^ 20, mtab := 0, leaf := 0, slot := 0 }
      let s : State := match o.cid, s.mediaOp o.path o.idx with
        | none, some m => { s with locks := s.locks.map (fun (e : Nat × Lock) => (e.1, if e.2.op = op then { e.2 with op := m.1 } else e.2)) }
        | _, _ => s.unlock op
      if j.d = .zero then .next (s.finishOp op) else .next (s.setOp op (.land .n64 j.d [(0, j.result.toNat)]))
    | _ => .next s

/-! ### The instructions (R180, R181) -/

/-- A structural operation: it is offered to its home, holds its issue slot until the answer, and completes issue at
acceptance (R174). -/
def eaStruct (x : Args) (d : Opnd) (mk : Env → State → Except Trap EaOp) (env : Env) (s : State) : Res :=
  if env.acting x = 0 then .ok (s.addOp env x .nothing) else
  match env.pa.offer with
  | none =>
    (match mk env s with
     | .error t => .trap t
     | .ok o => s.offer env x (.ea { o := o, phase := .offered, d := d, result := 0, trees := [], writes := [], shoots := [],
                                     oldNodes := [], pages := [], leaves := [], freed := none, data := [] }))
  | some id =>
    match s.ops.find id with
    | some o =>
      (match o.kind with
       | .ea j =>
         (match j.phase with
          | .offered => .stall s
          | .refused t => .refuse (s.withdraw env id) t
          | _ => .ok s)
       | _ => .ok s)
    | none => .ok s

/-- The creation block of ea.new and its checks (R169, R181 step 2). A VER of 0 is read as version 1 (log entry 106). -/
def State.creation (s : State) (env : Env) (va : Nat) : Except Trap EaOp :=
  if va % 16 ≠ 0 then .error (Trap.align 0xFF va) else do
  let l ← s.pagedRead env.co va 16 0xFF
  let n := leNat (s.peekAll l)
  let esz := bits n 52 4
  let kind := bits n 50 2
  if 1 < bits n 56 8 then .error (Trap.illegal Sub.ver)
  else if 8 < esz ∨ kind = 3 ∨ bits n 0 50 ≠ 0 ∨ bits n 64 64 ≠ 0 then .error (Trap.peg 7 0xFF 0)
  else .ok (.new esz kind)

/-- EA_NEW (R180, R181). -/
def execEaNew (x : Args) (s : State) : Answer :=
  issue Enc.eaNew x (fun env s =>
    let k := eaStruct x x.d (fun env s => s.creation env (env.n64 x x.a)) env s
    if env.acting x = 0 ∨ env.pa.offer.isSome then k else awaitBlock (env.n64 x x.a) 16 env s k) s

/-- EA_FREE (R180). -/
def execEaFree (x : Args) (s : State) : Answer :=
  issue Enc.eaFree x (eaStruct x .zero (fun env _ => .ok (.free (env.co.scalar x.a.num)))) s

/-- A rank, place or count as a structural instruction reads it: `.n64`, an immediate as `.n32` under R36 (R180). -/
def Env.eaNum (env : Env) (x : Args) (o : Opnd) : Nat :=
  match o with
  | .imm _ => env.val x .n32 o
  | o => env.n64 x o

/-- The same in lane l; a vector count is read as `.n32` (R180). -/
def State.eaLane (s : State) (env : Env) (x : Args) (o : Opnd) (l : Nat) : Nat :=
  match o with
  | .imm _ => s.lane env x .n32 o l
  | o => s.lane env x .n64 o l

/-- EA_INS (R180). -/
def execEaIns (x : Args) (s : State) : Answer :=
  issue Enc.eaIns x (eaStruct x .zero (fun env _ => .ok (.ins (env.co.scalar x.d.num) (env.eaNum x x.a) (env.eaNum x x.b)))) s

/-- EA_DEL (R180). -/
def execEaDel (x : Args) (s : State) : Answer :=
  issue Enc.eaDel x (eaStruct x .zero (fun env _ => .ok (.del (env.co.scalar x.d.num) (env.eaNum x x.a) (env.eaNum x x.b)))) s

/-- EA_SPLIT (R180). -/
def execEaSplit (x : Args) (s : State) : Answer :=
  issue Enc.eaSplit x (eaStruct x x.d (fun env _ => .ok (.split (env.co.scalar x.a.num) (env.eaNum x x.b)))) s

/-- EA_CAT (R180). -/
def execEaCat (x : Args) (s : State) : Answer :=
  issue Enc.eaCat x (eaStruct x .zero (fun env _ => .ok (.cat (env.co.scalar x.d.num) (env.co.scalar x.a.num)))) s

/-- EA_MORT (R180): m outside 1 to 65,536 is FIELD (R181 step 1). -/
def execEaMort (x : Args) (s : State) : Answer :=
  issue Enc.eaMort x (eaStruct x x.d (fun env _ =>
    let m := env.eaNum x x.b
    if m = 0 ∨ 65536 < m then .error Trap.field
    else .ok (.mort (env.co.scalar x.a.num) (env.co.scalar x.d.num).toNat m))) s

/-- The lanes of ea.fill: mortise reference, source address and count in each acting lane. -/
def fillLanes (x : Args) (env : Env) (s : State) : List (Nat × Word × Nat × Nat) :=
  (lanesOf (env.acting x)).map (fun l =>
    (l, BitVec.ofNat 64 (s.lane env x .n64 x.d l), s.lane env x .n64 x.a l,
      if x.b.isVec then s.lane env x .n32 x.b l else s.eaLane env x x.b l))

/-- EA_FILL (R180): one operation per acting lane, accepted together. -/
def execEaFill (x : Args) (s : State) : Answer :=
  issue Enc.eaFill x (eaStruct x .zero (fun env s => .ok (.fill (fillLanes x env s)))) s

/-- EA_SEAL (R180): m = 0 is FIELD (R181 step 1). -/
def execEaSeal (x : Args) (s : State) : Answer :=
  issue Enc.eaSeal x (eaStruct x .zero (fun env _ =>
    let m := env.eaNum x x.b
    if m = 0 then .error Trap.field else .ok (.seal (env.co.scalar x.a.num) m))) s

/-- A walk of an array must wait: the course has accepted operations on it whose commit has not ended (R174, R175), or SEQ is odd
(R174). -/
def State.eaBusy (s : State) (core cid ctx a : Nat) : Bool :=
  s.ops.any (fun o => match o.2.kind with
    | .ea j => o.2.cid == some cid && j.o.arrays.contains a && (match j.phase with
        | .accepted | .committed _ _ => true
        | _ => false)
    | _ => false) ||
  nbit (s.gpaSee core ctx (s.descAt ctx a + 16) 8) 0

/-- A load of the course may not be performed yet: an acquire, a fence that orders loads or a crew operation before it is outstanding, so
that what it observes is not settled (R161, R175 rule 2). -/
def State.loadHeld (s : State) (cid : Nat) : Bool :=
  s.fenced cid s.nextId true false || (s.older cid s.nextId).any (fun o => o.isCrew || o.isBehind || (match o.kind with
    | .mem j => !j.todo.isEmpty && ((j.acq && s.acts cid j) || j.so)
    | _ => false))

/-- A walk of an array waits for the course's own structural operations and for what happens before it (R174, R175). -/
def State.eaWaits (s : State) (core cid ctx a : Nat) : Bool := s.eaBusy core cid ctx a || s.loadHeld cid

/-- ea.rank, ea.peg and ea.len: one walk of the array named by a handle gives every lane's result (R174, R180, R181). -/
def eaRead (x : Args) (f : Env → State → Nat → Desc → Nat → Nat → Except Trap Nat) (env : Env) (s : State) : Res :=
  if env.acting x = 0 then .ok (s.addOp env x .nothing) else
  let h := env.co.scalar x.a.num
  if s.eaWaits env.co.core env.cid env.co.ctx (handleArray h) then .stall s else
  match s.openArray env.co.core env.co.ctx h 0xFF with
  | .error t => .trap t
  | .ok d =>
    match (env.runs x).mapM (fun l => do
      let v ← f env s (handleArray h) d l (if x.d.isVec then l else 0xFF)
      pure (l, v)) with
    | .error t => .trap t
    | .ok vals => .ok (s.addOp env x (.land .n64 x.d vals))

/-- The rank of a slot in a sequence. -/
def rankOf : List EItem → Nat → Nat → Nat → Option Nat
  | [], _, _, _ => none
  | .mort _ :: t, leaf, slot, n => rankOf t leaf slot n
  | .ext l s c :: t, leaf, slot, n =>
    if l = leaf ∧ s ≤ slot ∧ slot < s + c then some (n + (slot - s)) else rankOf t leaf slot (n + c)

/-- EA_RANK (R176, R180): STALE when the peg's generation differs or its slot holds no element of the array. -/
def execEaRank (x : Args) (s : State) : Answer :=
  issue Enc.eaRank x (eaRead x (fun env s _ d l lane => do
    let g := s.lane env x .n64 x.b l
    let leaf := bits g 32 32
    if (s.leafGen env.co.core env.co.ctx leaf).toOption ≠ some (bits g 0 16) then .error (Trap.peg 3 lane 0) else
    let t ← s.treeItems env.co.core env.co.ctx 13 d.root
    match rankOf t.1 leaf (bits g 16 16) 0 with
    | some r => .ok r
    | none => .error (Trap.peg 3 lane 0))) s

/-- EA_PEG (R180). -/
def execEaPeg (x : Args) (s : State) : Answer :=
  issue Enc.eaPeg x (eaRead x (fun env s _ d l lane => do
    let r := s.eaLane env x x.b l
    if d.len ≤ r then .error (Trap.peg 1 lane r) else
    match ← s.resolveAt env.co.core env.co.ctx 13 d.root r 0 with
    | none => .error (Trap.peg 1 lane r)
    | some (leaf, slot, _) =>
      let gen ← s.leafGen env.co.core env.co.ctx leaf
      .ok (leaf * 2 ^ 32 + slot * 2 ^ 16 + gen))) s

/-- EA_LEN (R180). -/
def execEaLen (x : Args) (s : State) : Answer :=
  issue Enc.eaLen x (eaRead x (fun _ _ _ d _ _ => .ok d.len)) s

/-- RANK_WALK (R177): a walk that was not discarded installs an entry in the core's rank cache of 128 entries. -/
def execRankWalk (core : Nat) (handle : Word) (rank : Nat) (s : State) : Answer :=
  let ctx := bits handle.toNat 44 16
  let a := handleArray handle
  match s.openArray core ctx handle 0xFF with
  | .error _ => .next s
  | .ok d =>
    if Config.cores ≤ core || d.len ≤ rank || nbit d.seq 0 || s.staleRanks core ctx a || (s.rankHit core ctx a d.gen rank).isSome then
      .next s
    else
      match s.resolveAt core ctx 13 d.root rank 0 with
      | .ok (some (leaf, _, base, start, count)) =>
        (match s.leafFrame core ctx leaf with
         | .ok f =>
           let mine := (s.ranks.filter (fun e => e.core == core)).take 127
           let others := s.ranks.filter (fun e => e.core != core)
           .next { s with ranks := { core := core, ctx := ctx, array := a, gen := d.gen, base := base, count := count, frame := f,
                                     start := start } :: (mine ++ others) }
         | .error _ => .next s)
      | _ => .next s

end Sys2Proof.Machine
end

