-- ==== Sys2Proof/Machine/Memory.lean ====
section
/-!
DEFINITION. Loads, stores, atomics, park and tile moves (R125 to R140), and the events that perform their accesses.
-/

namespace Sys2Proof.Machine

/-! ### Addresses and checks (R130 to R132) -/

/-- The control field of a memory instruction (R130). -/
structure MemCtl where
  sp : Nat
  ord : Nat
  scope : Nat
  off : Nat
  deriving DecidableEq, Repr

/-- The control field in B (R130). -/
def memCtl (x : Args) : MemCtl :=
  let v := x.b.ctl
  { sp := bits v 13 3, ord := bits v 11 2, scope := bits v 8 3, off := bits v 0 8 }

/-- A scratchpad space. -/
def MemCtl.scratch (c : MemCtl) : Bool := decide (2 ≤ c.sp) && decide (c.sp ≤ 4)

/-- The lanes that access memory; 64 stands for a course-level access (R131). -/
def memLanes (x : Args) (env : Env) : List Nat :=
  match x.d with
  | .vec _ _ => lanesOf (env.acting x)
  | _ => if env.acting x = 0 then [] else [64]

/-- LANE of a trap record for a lane of memLanes. -/
def trapLane (l : Nat) : Nat := if l = 64 then 0xFF else l

/-- The address, scratch offset or rank of a lane (R131), elements being sz bytes. -/
def memAddr (x : Args) (sz : Nat) (env : Env) (s : State) (l : Nat) : Nat :=
  let c := memCtl x
  let w := if c.scratch then 32 else 64
  let base := match x.a with
    | .vec _ _ => s.lane env x (if c.scratch then .n32 else .n64) x.a l
    | a => (env.co.scalar a.num).toNat % 2 ^ w
  let step := match x.a with
    | .vec _ _ => 0
    | _ => if l = 64 then 0 else l
  if c.sp = 5 then (base + step) % 2 ^ 64
  else (BitVec.ofInt w ((base : Int) + (toInt 8 c.off + step) * sz)).toNat

/-- The scratchpad that a space names for a core: its base and the window word of R275. -/
def spaceUnit (sp core : Nat) : Nat × Nat :=
  if sp = 2 then (coreBase core, core) else if sp = 3 then (bayBase (bayOf core), 96 + bayOf core)
  else (dieBase (dieOf core), 108 + dieOf core)

/-- Place of a translation failure in the order of R132. -/
def XErr.order : XErr → Nat
  | .page b _ => if b = Sub.canon then 2 else if b = Sub.space then 4 else 5
  | .poison => 5

/-- Place of a trap of an access on .ea in the order of R132: PAGE and POISON of what a walk reads, or PEG. -/
def eaPlace (t : Trap) : Nat := if t.cls == 0x0C then 7 else 5

/-- A lane's access on .ea: the handle, then the rank (R132 step 7), then the element's place (R173). -/
def eaAccess (env : Env) (s : State) (c : MemCtl) (write : Bool) (sz l va : Nat) : Except (Nat × Trap) Acc :=
  let core := env.co.core
  let ctx := env.co.ctx
  let h := env.co.scalar (c.off % 64)
  let lane := trapLane l
  match s.openArray core ctx h lane with
  | .error t => .error (eaPlace t, t)
  | .ok d =>
    if 2 ^ 48 ≤ va ∨ d.len ≤ va then .error (8, Trap.peg 1 lane va) else
    match s.elemGpa core ctx (handleArray h) d va with
    | .error t => .error (eaPlace t, { t with lane := BitVec.ofNat 8 lane })
    | .ok none => .error (8, Trap.peg 1 lane va)
    | .ok (some gpa) =>
      match s.gpaAt core ctx gpa write with
      | .error t => .error (eaPlace t, { t with lane := BitVec.ofNat 8 lane })
      | .ok pa => .ok { lane := l, pa := pa, n := min sz (65536 - pa % 65536), kind := PageKind.ofCode d.kind, x := 0, y := 0, va := va, ref := gpa }

/-- A lane's access, or the place of its failing check in the order of R132 and the trap. -/
def laneAccess (x : Args) (write : Bool) (sz align : Nat) (env : Env) (s : State) (l : Nat) : Except (Nat × Trap) Acc :=
  let c := memCtl x
  let va := memAddr x sz env s l
  let lane := trapLane l
  if c.sp = 5 then eaAccess env s c write sz l va
  else if va % align ≠ 0 then .error (1, Trap.align lane va)
  else if c.scratch then
    let u := spaceUnit c.sp env.co.core
    let win := s.window env.co.ctx u.2
    if win.2 * 256 ≤ va then .error (3, Trap.page Sub.scr lane va 0)
    else .ok { lane := l, pa := u.1 + win.1 * 256 + va, n := sz, kind := .rc, x := 0, y := 0, va := va, ref := va }
  else
    match s.translate env.co.core env.co.ctx va (some (c.sp == 1)) write with
    | .error e => .error (e.order, e.trap lane va)
    | .ok r =>
      if env.co.hwBad va sz then .error (6, Trap.privhw lane va)
      else .ok { lane := l, pa := r.1, n := sz, kind := r.2, x := 0, y := 0, va := va, ref := va }

/-- The array that a memory instruction accesses, if its space is .ea. -/
def arrayOf (x : Args) (env : Env) : Option Nat :=
  let c := memCtl x
  if c.sp = 5 then some (handleArray (env.co.scalar (c.off % 64))) else none

/-- Step 8 of R132: a range-lock entry that forbids the access; a write to a bound array is forbidden as a whole (R213). -/
def lockCheck (x : Args) (write : Bool) (env : Env) (s : State) (a : Acc) : Except (Nat × Trap) Acc :=
  let here := s.lockAt s.nextId a.pa a.n write
  let whole := match arrayOf x env with
    | some k => if write then s.lockAt s.nextId (arrayKey env.co.ctx k) 1 true else none
    | none => none
  match (here.toList ++ whole.toList).foldl (fun (b : Option (Nat × Lock)) e => match b with
      | some f => if e.1 < f.1 then some e else b
      | none => some e) none with
  | some (k, e) => .error (10, Trap.rlock k e env.cid (trapLane a.lane) a.va)
  | none => .ok a

/-- The first failing check: the smallest place in the order, and among lanes the lowest, the list being ascending. -/
def firstFail : List (Except (Nat × Trap) Acc) → Option (Nat × Trap)
  | [] => none
  | .ok _ :: t => firstFail t
  | .error e :: t =>
    match firstFail t with
    | some f => if f.1 < e.1 then some f else some e
    | none => some e

/-- Checks every lane of a memory instruction (R132): the accesses, or the trap. -/
def checkLanes (x : Args) (write : Bool) (sz align : Nat) (lanes : List Nat) (env : Env) (s : State) : Except Trap (List Acc) :=
  let l := lanes.map (fun k => (laneAccess x write sz align env s k).bind (lockCheck x write env s))
  match firstFail l with
  | some f => .error f.2
  | none => .ok (l.filterMap (·.toOption))

/-- The lines of accesses that have P = 0 (R128). -/
def State.absentLines (s : State) (l : List Acc) : List Nat :=
  (l.filter (fun a => !s.present a.pa)).map (fun a => a.pa / 256)

/-- An access on .ea waits for the course's own structural operations and for what happens before it (R174, R175). -/
def memWaits (x : Args) (env : Env) (s : State) : Bool :=
  match arrayOf x env with
  | some a => s.eaWaits env.co.core env.cid env.co.ctx a
  | none => false

/-! ### Loads, stores and atomics (R133 to R136) -/

/-- The new value of cas in lane l: the register after D's (R134). -/
def nextReg (x : Args) (t : Ty) (env : Env) (s : State) (l : Nat) : Nat :=
  match x.d with
  | .vec r _ => s.vecLane env (r.toNat + (if t.wide then 2 else 1)) t.wide l % 2 ^ t.bits
  | d => (env.co.scalar (d.num + 1)).toNat % 2 ^ t.bits

/-- D as a source in a lane of memLanes. -/
def dValue (x : Args) (t : Ty) (env : Env) (s : State) (l : Nat) : Nat := s.lane env x t x.d l

/-- A load, store or atomic: checks, the park on absent lines, and the operation. -/
def memOp (x : Args) (m : MemOp) (env : Env) (s : State) : Res :=
  let t := x.m.tyD
  let c := memCtl x
  let lanes := memLanes x env
  if lanes.isEmpty then .ok (s.addOp env x .nothing) else
  if memWaits x env s then .stall s else
  let sz := t.bits / 8
  match checkLanes x m.writes sz sz lanes env s with
  | .error tr => .trap tr
  | .ok accs =>
    let lines := s.absentLines accs
    if !lines.isEmpty then .park lines else
    let todo := accs.map (fun a =>
      { a with x := if m = .ld then 0 else dValue x t env s a.lane, y := if m = .cas then nextReg x t env s a.lane else 0 })
    let job : MemJob :=
      { m := m, t := t, d := x.d, acq := nbit c.ord 0, rel := nbit c.ord 1, scope := Scope.ofCode (BitVec.ofNat 3 c.scope),
        lanes := env.acting x, so := accs.any (fun a => a.kind == .so),
        array := arrayOf x env, todo := todo, got := [],
        whole := if m = .st then todo.map (fun a => (a.pa, a.n)) else [], bad := none }
    .ok ((s.addOp env x (.mem job)).clampSys env (Scope.ofCode (BitVec.ofNat 3 c.scope)))

/-- LD (R133). -/
def execLd (x : Args) (s : State) : Answer := issue Enc.ld x (memOp x .ld) s
/-- ST (R133). -/
def execSt (x : Args) (s : State) : Answer := issue Enc.st x (memOp x .st) s
/-- ATOM_ADD (R134). -/
def execAtomAdd (x : Args) (s : State) : Answer := issue Enc.atomAdd x (memOp x .add) s
/-- ATOM_MIN (R134). -/
def execAtomMin (x : Args) (s : State) : Answer := issue Enc.atomMin x (memOp x .min) s
/-- ATOM_MAX (R134). -/
def execAtomMax (x : Args) (s : State) : Answer := issue Enc.atomMax x (memOp x .max) s
/-- ATOM_AND (R134). -/
def execAtomAnd (x : Args) (s : State) : Answer := issue Enc.atomAnd x (memOp x .and) s
/-- ATOM_OR (R134). -/
def execAtomOr (x : Args) (s : State) : Answer := issue Enc.atomOr x (memOp x .or) s
/-- ATOM_XOR (R134). -/
def execAtomXor (x : Args) (s : State) : Answer := issue Enc.atomXor x (memOp x .xor) s
/-- ATOM_XCHG (R134). -/
def execAtomXchg (x : Args) (s : State) : Answer := issue Enc.atomXchg x (memOp x .xchg) s
/-- ATOM_CAS (R134). -/
def execAtomCas (x : Args) (s : State) : Answer := issue Enc.atomCas x (memOp x .cas) s
/-- AMAXP (R135). -/
def execAmaxp (x : Args) (s : State) : Answer := issue Enc.amaxp x (memOp x .amaxp) s

/-! ### Performing accesses -/

/-- Key of R135. -/
def amaxKey (x : Nat) : Nat :=
  let k := bits x 32 32
  (if nbit k 31 then 2 ^ 32 - 1 - k else k + 2 ^ 31) * 2 ^ 32 + bits x 0 32

/-- The value an operation leaves at an address that held m (R133 to R135). -/
def MemOp.newValue (o : MemOp) (t : Ty) (m x y : Nat) : Nat :=
  match o with
  | .ld => m
  | .st | .xchg => x
  | .add => redStep t 0 m x
  | .min => redStep t 1 m x
  | .max => redStep t 2 m x
  | .and => redStep t 3 m x
  | .or => redStep t 4 m x
  | .xor => redStep t 5 m x
  | .cas => if m = x then y else m
  | .amaxp => if amaxKey m < amaxKey x then x else m

/-- Keeps the lowest lane that met poisoned data, with the first block it read. -/
def worse (b : Option (Nat × Nat)) (l u : Nat) : Option (Nat × Nat) :=
  match b with
  | some c => if l < c.1 then some (l, u) else some c
  | none => some (l, u)

/-- Performs one access (R133 to R135). A read of poisoned data gives no value and writes nothing (R132). -/
def performAcc (j : MemJob) (s : State) (a : Acc) : State × MemJob :=
  let j' := { j with todo := j.todo.filter (fun b => b.lane ≠ a.lane) }
  if j.m = .st then
    let u := poisonUnit (s.cell a.pa)
    let near (p : Nat × Nat) : Bool := decide (p.1 / u ≤ (a.pa + a.n - 1) / u) && decide (a.pa / u ≤ (p.1 + p.2 - 1) / u)
    let t := s.pokeNat a.pa a.n a.x
    (if t.poison.isEmpty || j'.todo.any (fun b => near (b.pa, b.n)) then t else t.clearWhole (j.whole.filter near), j') else
  match s.poisonedAs a.ref a.pa a.n with
  | some u => (s, { j' with bad := worse j.bad a.lane u })
  | none =>
    let short := decide (a.n < j.t.bits / 8)
    let f := if short then s.freeWord else (0, s)
    let s := f.2
    let m := s.peekNat a.pa a.n + (if short then 2 ^ (8 * a.n) * (f.1.toNat % 2 ^ (j.t.bits - 8 * a.n)) else 0)
    let s := if j.m = .ld then s else s.pokeNat a.pa a.n (j.m.newValue j.t m a.x a.y)
    (s, { j' with got := j.got ++ [(a.lane, m)] })

/-- The unit in which accesses of an operation are performed: a line for an atomic, 8 bytes for a load or store (R134, R157). -/
def MemOp.unit (m : MemOp) : Nat := if m = .ld ∨ m = .st then 8 else 256

/-- Settles the fences of an operation's course. -/
def State.settleOp (s : State) (o : Op) : State :=
  match o.cid with
  | some cid => s.settle cid
  | none => s

/-- A memory operation whose accesses have all been performed: its results land, or it traps at the next run start. -/
def State.landMem (s : State) (op : Nat) (o : Op) (j : MemJob) : State :=
  let s := match j.bad with
    | some b => s.lateTrap op o (Trap.poison (trapLane b.1) b.2)
    | none => if j.m = MemOp.st then s else s.putOp o j.t j.d j.got
  s.finishOp op

/-- The accesses that a memory operation has in one unit are performed together; when none is left, its results are written between
runs and its flag falls (R42, R43, R133, R134). -/
def State.memStep (s : State) (op : Nat) (o : Op) (j : MemJob) (line : Nat) : State :=
  if j.todo.isEmpty then (if s.mayLand o then s.landMem op o j else s) else
  let group := j.todo.filter (fun a => a.pa / j.m.unit = line)
  let cid := o.cid.getD 0
  if group.isEmpty || !group.all (s.accReady op cid j) then s else
  let r := group.foldl (fun (r : State × MemJob) a => performAcc r.2 r.1 a) (s, j)
  let s := (r.1.setOp op (.mem r.2)).settleOp o
  if r.2.todo.isEmpty && j.m == MemOp.st then s.finishOp op else s

/-! ### park (R137) -/

/-- Periods of the arithmetic clock after which park ends by itself (R137). -/
def parkLimit : Nat := 65536

/-- PARK (R137): a plain load of the word; the path blocks when it holds the expected value. -/
def execPark (x : Args) (s : State) : Answer :=
  issue Enc.park x (fun env s =>
    if env.acting x = 0 then .ok s else
    match checkLanes x false 8 8 [64] env s with
    | .error t => .trap t
    | .ok accs =>
      let lines := s.absentLines accs
      if !lines.isEmpty then .park lines else
      match accs with
      | [] => .ok s
      | a :: _ =>
        let j : MemJob := { m := .ld, t := .n64, d := .zero, acq := false, rel := false, scope := .cw, lanes := env.acting x,
                            so := a.kind == .so, array := none, todo := accs, got := [], whole := [], bad := none }
        if !s.accReady s.nextId env.cid j a then .later .access else
        match s.poisonedAs a.ref a.pa 8 with
        | some u =>
          .ok (s.setPath env.cid env.p (env.pa.addLate { trap := Trap.poison 0xFF u, ovl := env.pa.ovl, idx := env.pa.idx, place := s.nextId }))
        | none =>
          if s.peekNat a.pa 8 = (env.co.scalar x.d.num).toNat then .done s { wait := .park a.va a.pa (s.time.clk + parkLimit) false }
          else .ok s) s

/-- PARK_WAKE (R137): a write to the word has been performed. -/
def execParkWake (cid p : Nat) (s : State) : Answer :=
  match s.path cid p with
  | some q =>
    match q.wait with
    | .park _ _ _ true => .next (s.setPath cid p { q with wait := .nothing })
    | _ => .next s
  | none => .next s

/-- PARK_TIMEOUT (R137). -/
def execParkTimeout (cid p : Nat) (s : State) : Answer :=
  match s.path cid p with
  | some q =>
    match q.wait with
    | .park _ _ limit _ => if limit ≤ s.time.clk then .next (s.setPath cid p { q with wait := .nothing }) else .next s
    | _ => .next s
  | none => .next s

/-! ### Tile moves (R138 to R140) -/

/-- The lines that a scratch address names, by physical address: ALIGN, then SCR (R138). -/
def State.scratchLines (s : State) (ctx : Nat) (a : Word) (n : Nat) : Except Trap Nat :=
  match s.scratch ctx a with
  | none => .error (Trap.page Sub.scr 0xFF a.toNat 0)
  | some (pa, left) => if left < n * 256 then .error (Trap.page Sub.scr 0xFF a.toNat 0) else .ok pa

/-- Clears P on lines at the issue of a move, a zeroing or a copy: moves and copies under way that have still to read one of
them while it is present may read it as it stands (R139, R140). -/
def State.clearLines (s : State) (l : List Nat) : State :=
  let here := l.filter (fun x => !s.absent.contains x)
  if l.isEmpty then s else
  let ops := s.ops.map (fun o => (o.1, match o.2.kind with
    | .tmv false todo => { o.2 with kind := .tmv false (todo.map (fun e =>
        if here.contains e.src && e.wait == .present then { e with wait := .free } else e)) }
    | .cp c en nd => { o.2 with kind := .cp { c with free := c.free ++ here } en nd }
    | _ => o.2))
  State.setAbsent { s with ops := ops } l

/-- Lines arrive: P is set, and later moves that waited for an earlier one's data may read them (R139). -/
def State.arriveLines (s : State) (op : Nat) (l : List Nat) : State :=
  let ops := s.ops.map (fun o => (o.1, if o.1 ≤ op then o.2 else match o.2.kind with
    | .tmv false todo => { o.2 with kind := .tmv false (todo.map (fun e =>
        if l.contains e.src && e.wait == .earlier then { e with wait := .free } else e)) }
    | .cp c en nd => { o.2 with kind := .cp { c with free := c.free ++ c.earlier.filter l.contains,
                                                     earlier := c.earlier.filter (fun x => !l.contains x) } en nd }
    | _ => o.2))
  State.setPresent { s with ops := ops } l

/-- The lines of a move at its issue: a source line that is also a destination line is read as it stood at issue. -/
def moveLines (s : State) (src dst n : Nat) : List MoveLine :=
  (List.range n).map (fun i =>
    let x := src / 256 + i
    let own := decide (dst / 256 ≤ x) && decide (x < dst / 256 + n)
    { i := i, src := x, dst := dst / 256 + i,
      wait := if own then (if s.absent.contains x then .earlier else .free) else .present })

/-- TMV and TZERO (R139): both ranges are checked, P is cleared on the destination, the source is locked against writes. -/
def moveOp (x : Args) (zero : Bool) (env : Env) (s : State) : Res :=
  if env.acting x = 0 then .ok (s.addOp env x .nothing) else
  let n := env.val x .n32 x.b
  if n = 0 ∨ 4096 < n then .trap Trap.field else
  let d := env.co.scalar x.d.num
  let a := env.co.scalar x.a.num
  if bits d.toNat 0 8 ≠ 0 then .trap (Trap.align 0xFF d.toNat) else
  if !zero && bits a.toNat 0 8 ≠ 0 then .trap (Trap.align 0xFF a.toNat) else
  match s.scratchLines env.co.ctx d n with
  | .error t => .trap t
  | .ok dst =>
    let id := s.nextId
    let dl := (List.range n).map (fun i => dst / 256 + i)
    if zero then .ok ((s.clearLines dl).addOp env x (.tmv true (dl.zipIdx.map (fun e => { i := e.2, src := 0, dst := e.1, wait := .free })))) else
    match s.scratchLines env.co.ctx a n with
    | .error t => .trap t
    | .ok src =>
      .ok (((s.clearLines dl).addOp env x (.tmv false (moveLines s src dst n))).lockRanges id false (lockPieces false [(src, n * 256)]))

/-- TMV (R139). -/
def execTmv (x : Args) (s : State) : Answer := issue Enc.tmv x (moveOp x false) s
/-- TZERO (R139). -/
def execTzero (x : Args) (s : State) : Answer := issue Enc.tzero x (moveOp x true) s

/-- Whether a line of a move may be moved now. -/
def State.lineReady (s : State) (op : Nat) (o : Op) (zero : Bool) (todo : List MoveLine) (e : MoveLine) : Bool :=
  s.engineReady op o (if zero then [] else [(e.src * 256, 256)]) [(e.dst * 256, 256)] &&
    (zero || e.wait == .free || (e.wait == .present && !s.absent.contains e.src)) &&
    !(!zero && todo.any (fun f => f.i != e.i && f.src == e.dst))

/-- TMV_LINE_ARRIVAL (R139, R140): line i is written with the source as it stands, or with zeros; Z follows, P is set, and the
last line ends the move. -/
def execTmvLineArrival (op i : Nat) (s : State) : Answer :=
  match s.ops.find op with
  | none => .next s
  | some o =>
    match o.kind with
    | .tmv zero todo =>
      match todo.find? (fun e => e.i = i) with
      | none => .next s
      | some e =>
        if !s.lineReady op o zero todo e then .next s else
        let data := if zero then List.replicate 256 0 else s.peek (e.src * 256) 256
        let bad := !zero && (s.poisoned (e.src * 256) 256).isSome
        let s := (s.pokeFrom (e.dst * 256) data bad).arriveLines op [e.dst]
        let rest := todo.filter (fun f => f.i ≠ i)
        let s := s.setOp op (.tmv zero rest)
        if rest.isEmpty then .next ((s.unlock op).finishOp op) else .next s
    | _ => .next s

end Sys2Proof.Machine
end

