-- ==== Sys2Proof/Machine/Pages.lean ====
section
/-!
DEFINITION. Command blocks of the host register space (R146, R313), page walks with their generations (R144, R148), invalidation
(R147), and the retirement of DRAM frames (R150, R151).
-/

namespace Sys2Proof.Machine

/-! ### Command blocks (R146, R313) -/

/-- The package runs: neither viral nor in reset nor without power (R310, R325, R326). -/
def State.up (s : State) : Bool := !s.pkg.viral && !s.pkg.powerOff && !s.pkg.inReset

/-- Key of the command block at an offset of a page of the host register space. -/
def cmdKey (page off : Nat) : Nat := page * 65536 + off

/-- A command is pending in a block. -/
def State.cmdPending (s : State) (page off : Nat) : Bool :=
  match s.cmds.find (cmdKey page off) with
  | some c => c.pending
  | none => false

/-- Ends the pending command of a block with a STATUS (R146, R284, R296, R316). -/
def State.endCmd (s : State) (page off status : Nat) : State :=
  match s.cmds.find (cmdKey page off) with
  | some c =>
    let w := bits (wordAt c.words 3) 0 32
    { s with cmds := s.cmds.put (cmdKey page off) { words := c.words.take 3 ++ [BitVec.ofNat 64 (status * 2 ^ 32 + w)], pending := false } }
  | none => s

/-- How a command goes on. -/
inductive CmdEnd where
  /-- STATUS 1 -/
  | done (s : State)
  /-- stays pending until an event ends it -/
  | later (s : State)
  /-- STATUS 2 -/
  | refused

/-- What a command writes of a block: CMD, PART, CTX and the other fields of word 0, words 1 and 2 where it uses them, SEQ with STATUS 0. -/
def cmdWords (w0 : Nat) (w1 w2 : Option Nat) (seq : BitVec 32) : List (Option Nat) := [some w0, w1, w2, some seq.toNat]

/-- The fields of word k of the command block at an offset of a page that a write reaches: the others are reserved or read-only, and read
zero or what the device puts there (R6, R146, R284, R296, R316). -/
def blockMask (off k : Nat) : Nat :=
  let span (hi lo : Nat) : Nat := 2 ^ (hi + 1) - 2 ^ lo
  if k = 3 then span 31 0
  else if off = 0x1000 then (if k = 0 then span 63 40 else if k = 1 then span 63 0 else span 31 0)
  else if off = 0x1100 then (if k = 0 then span 63 24 else if k = 1 then span 63 0 else 0)
  else if off = 0x1200 then (if k = 0 then span 63 57 + span 43 32 else if k = 1 then span 63 56 else span 31 0)
  else (if k = 0 then span 63 60 else if k = 1 then span 63 0 else 0)

/-- A command block; zero before its first write. -/
def State.cmd (s : State) (page off : Nat) : Cmd := s.cmds.getD (cmdKey page off) { words := [0, 0, 0, 0], pending := false }

/-- The words of a block after a command has been written: what it does not write stays as stored. -/
def State.cmdStored (s : State) (page off : Nat) (l : List (Option Nat)) : List Word :=
  (List.range 4).map (fun k => match l.getD k none with
    | some v => BitVec.ofNat 64 (v &&& blockMask off k)
    | none => (s.cmd page off).words.getD k 0)

/-- Submits a command through a block (R313): ignored while one is pending and where the page has no such block; refused through a
partition page when the command is the hypervisor's or names another partition. -/
def State.command (s : State) (page off : Nat) (hyper : Bool) (part : Nat) (words : List (Option Nat)) (run : State → CmdEnd) : State :=
  if !s.up || s.cmdPending page off || decide (16 < page) || (decide (page ≠ 0) && decide (0x1200 ≤ off)) then s else
  let s := { s with cmds := s.cmds.put (cmdKey page off) { words := s.cmdStored page off words, pending := true } }
  if decide (page ≠ 0) && (hyper || decide (part + 1 ≠ page)) then s.endCmd page off 2 else
  match run s with
  | .done s => s.endCmd page off 1
  | .later s => s
  | .refused => s.endCmd page off 2

/-! ### Walks (R144, R148) -/

/-- WALK_START (R144, R148): a core's walker begins a walk for an address, recording both generations; where it is warm it takes the
table entries that the core's cache holds. -/
def execWalkStart (core ctx : Nat) (va : WalkFrom) (s : State) : Answer :=
  if (s.ctxs.find ctx).isNone || Config.cores ≤ core || 2 ^ 60 ≤ va.va || !s.up then .next s else
  .next { s with walks := s.walks ++ [s.walkOf core ctx va.va va.warm] }

/-- Removes the i-th walk of a core, which the answer gives. -/
def takeWalk (core : Nat) : Nat → List Walk → Option (Walk × List Walk)
  | _, [] => none
  | i, w :: t =>
    if w.core = core then
      match i with
      | 0 => some (w, t)
      | i + 1 => (takeWalk core i t).map (fun r => (r.1, w :: r.2))
    else (takeWalk core i t).map (fun r => (r.1, w :: r.2))

/-- Two items stand for the same thing in the same core's cache. -/
def TlbItem.same (a b : TlbItem) : Bool :=
  a.core == b.core && a.ctx == b.ctx && a.what.stage2 == b.what.stage2 && a.what.page == b.what.page && a.what.at_ == b.what.at_

/-- WALK_COMPLETE (R148): what the walk read is installed; where a generation has moved on it is discarded, and the walk begins again. -/
def execWalkComplete (core i : Nat) (s : State) : Answer :=
  match takeWalk core i s.walks with
  | none => .next s
  | some (w, rest) =>
    let s := { s with walks := rest }
    match s.ctxs.find w.ctx with
    | none => .next s
    | some c =>
      if c.s1gen ≠ w.s1gen ∨ s.s2gen c.part ≠ w.s2gen then .next { s with walks := rest ++ [s.walkOf w.core w.ctx w.va w.warm] } else
      .next { s with tlb := s.tlb.filter (fun a => !w.items.any a.same) ++ w.items }

/-! ### Invalidation (R146, R147) -/

/-- The range of pages of a range command is well formed: BASE a multiple of 64 KiB, COUNT at least 1. -/
def rangeOk (base : Word) (count : BitVec 32) : Bool := bits base.toNat 0 16 == 0 && count != 0

/-- A page lies in a range of pages. -/
def pageIn (base : Word) (count : BitVec 32) (page : Nat) : Bool :=
  decide (base.toNat / 65536 ≤ page) && decide (page < base.toNat / 65536 + count.toNat)

/-- Starts a stage-1 invalidation: the generation moves on first; the matching pages and the context's table entries are dropped. -/
def State.invalidate1 (s : State) (page part ctx : Nat) (hit : Nat → Bool) : CmdEnd :=
  match s.ctxs.find ctx with
  | none => .refused
  | some c =>
    if c.part ≠ part then .refused else
    .later { s with
      ctxs := s.ctxs.put ctx { c with s1gen := c.s1gen + 1 },
      tlb := s.tlb.filter (fun i => !(i.ctx == ctx && !i.what.stage2 && (!i.what.page || hit i.what.at_))),
      invals := s.invals ++ [{ page := page, part := part, ctx := some ctx, before := s.nextId }] }

/-- Starts a stage-2 invalidation: stage-1 items of the partition go with the stage-2 items, since they were read through
stage 2. -/
def State.invalidate2 (s : State) (page part : Nat) (hit : Nat → Bool) : CmdEnd :=
  match s.parts.find part with
  | none => .refused
  | some p =>
    .later { s with
      parts := s.parts.put part { p with s2gen := p.s2gen + 1 },
      tlb := s.tlb.filter (fun i => !(s.partOf i.ctx == part && (!i.what.stage2 || !i.what.page || hit i.what.at_))),
      invals := s.invals ++ [{ page := page, part := part, ctx := Option.none, before := s.nextId }] }

/-- Word 0 of a translation command. -/
def transWord0 (cmd part ctx : Nat) : Nat := cmd * 2 ^ 60 + part * 2 ^ 56 + ctx * 2 ^ 40

/-- STAGE1_RANGE_INVALIDATE (R146, R147). -/
def execStage1RangeInvalidate (page part ctx : Nat) (base : Word) (count seq : BitVec 32) (s : State) : Answer :=
  .next (s.command page 0x1000 false part (cmdWords (transWord0 1 part ctx) (some base.toNat) (some count.toNat) seq) (fun s =>
    if rangeOk base count then s.invalidate1 page part ctx (pageIn base count) else .refused))

/-- STAGE1_CONTEXT_INVALIDATE (R146, R147). -/
def execStage1ContextInvalidate (page part ctx : Nat) (seq : BitVec 32) (s : State) : Answer :=
  .next (s.command page 0x1000 false part (cmdWords (transWord0 2 part ctx) none none seq) (fun s =>
    s.invalidate1 page part ctx (fun _ => true)))

/-- STAGE2_RANGE_INVALIDATE (R146, R147): the hypervisor's. -/
def execStage2RangeInvalidate (page part : Nat) (base : Word) (count seq : BitVec 32) (s : State) : Answer :=
  .next (s.command page 0x1000 true part (cmdWords (transWord0 3 part 0) (some base.toNat) (some count.toNat) seq) (fun s =>
    if rangeOk base count then s.invalidate2 page part (pageIn base count) else .refused))

/-- STAGE2_PARTITION_INVALIDATE (R146, R147): the hypervisor's. -/
def execStage2PartitionInvalidate (page part : Nat) (seq : BitVec 32) (s : State) : Answer :=
  .next (s.command page 0x1000 true part (cmdWords (transWord0 4 part 0) none none seq) (fun s =>
    s.invalidate2 page part (fun _ => true)))

/-- An operation of the invalidated context or partition, issued before the command, that has accesses to perform (R147). -/
def State.holdsOld (s : State) (v : Inval) : Bool :=
  s.ops.any (fun o => decide (o.1 < v.before) && !o.2.todo.isEmpty &&
    (match v.ctx with
     | some c => o.2.ctx == c
     | none => s.partOf o.2.ctx == v.part))

/-- A walk of the invalidated context or partition that carries an older generation (R148). -/
def State.oldWalk (s : State) (v : Inval) : Bool :=
  s.walks.any (fun w => match s.ctxs.find w.ctx with
    | some c => (match v.ctx with
        | some k => w.ctx == k && w.s1gen != c.s1gen
        | none => c.part == v.part && w.s2gen != s.s2gen c.part)
    | none => false)

/-- What a blocked path watches, translated again: a sig.wait whose word is no longer mapped traps, a park then only times out
(log entry 110). -/
def State.watchAgain (s : State) (c : Course) (q : Path) : Path :=
  match q.wait with
  | .park va pa l hit =>
    if !isDram pa then q else
    match s.translate c.core c.ctx va none false with
    | .ok r => { q with wait := .park va r.1 l hit }
    | .error _ => { q with wait := .park va (2 ^ 63) l hit }
  | .sig va _ cc v d none =>
    match s.translate c.core c.ctx va none false with
    | .ok r => { q with wait := (Wait.sig va r.1 cc v d none).touched s.goodWord r.1 8 }
    | .error e =>
      { q with wait := .nothing }.addLate { trap := e.trap 0xFF va, ovl := q.ovl, idx := q.idx - 1, place := s.nextId }
  | _ => q

/-- A running node's watched word, translated again; a fault of it is the node's (R250). -/
def State.nodeAgain (s : State) (ctx : Nat) (r : NodeRun) : NodeRun :=
  match r.watch with
  | none => r
  | some (va, _, cc, v) =>
    match s.translate (r.q % 2 * 48) ctx va none false with
    | .ok p => ({ r with watch := some (va, p.1, cc, v) }).touched s.goodWord p.1 8
    | .error e => { r with bad := some (2, (e.trap 0xFF va).cls.toNat, (e.trap 0xFF va).sub.toNat) }

/-- Words that a context or a partition watches are read through the tables as they stand (R147). -/
def State.retranslate (s : State) (v : Inval) : State :=
  let hit (ctx : Nat) : Bool := match v.ctx with
    | some c => ctx == c
    | none => s.partOf ctx == v.part
  { s with
    courses := s.courses.map (fun c => (c.1, if hit c.2.ctx then
      { c.2 with paths := c.2.paths.map (fun p => (p.1, s.watchAgain c.2 p.2)) } else c.2))
    nodes := s.nodes.map (fun r => match s.queues.find r.q with
      | some q => if hit q.ctx then s.nodeAgain q.ctx r else r
      | none => r) }

/-- INVALIDATION_ACK (R147): the command of a page's block is acknowledged once nothing holds an old translation; notices that waited for
a page of the ring are written if they can be. -/
def execInvalidationAck (page : Nat) (s : State) : Answer :=
  match s.invals.find? (fun v => v.page = page) with
  | none => .next s
  | some v =>
    if s.holdsOld v || s.oldWalk v then .next s else
    let s := { s with invals := s.invals.filter (fun w => w.page ≠ page) }
    .next (((s.retranslate v).flushNotices v.part).endCmd page 0x1000 1)

/-! ### Frame retirement (R150, R151) -/

/-- The HPA frame that a DRAM frame serves. -/
def State.hpaOf (s : State) (frame : Nat) : Nat :=
  match s.pkg.frameMap.find? (fun e => e.2 = frame) with
  | some e => e.1
  | none => frame

/-- The DRAM frame of an HPA frame. -/
def State.dramOf (s : State) (hpa : Nat) : Nat := (s.pkg.frameMap.find hpa).getD hpa

/-- A frame takes a spare: it is locked against writes by an operation of no course (R150, R164). -/
def State.migrate (s : State) (frame spare : Nat) : State :=
  let id := s.nextId
  let hpa := s.hpaOf frame * 65536
  let s := { s with nextId := id + 1, pkg := { s.pkg with
    frames := s.pkg.frames.put frame (.migrating spare 0), spares := s.pkg.spares.filter (· ≠ spare) } }
  let s := { s with ops := s.ops.put id { cid := Option.none, ctx := 0xFFFF, path := 0, ovl := 0, idx := 0, flag := Option.none,
                                          lwb := 0, kind := .frame frame, pend := [] } }
  s.lockRanges id false [(hpa, hpa + 65536, false)]

/-- Pending frames take the spares there are (R150). -/
def State.takeSpares (s : State) : State :=
  (s.pkg.frames.filter (fun f => f.2 = .pending)).foldl (fun (s : State) f =>
    match s.pkg.spares with
    | sp :: _ => s.migrate f.1 sp
    | [] => s) s

/-- ADD_SPARE_FRAMES (R146, R150): the hypervisor's. -/
def execAddSpareFrames (page : Nat) (base : Word) (count seq : BitVec 32) (s : State) : Answer :=
  .next (s.command page 0x1000 true 0 (cmdWords (transWord0 5 0 0) (some base.toNat) (some count.toNat) seq) (fun s =>
    if rangeOk base count && decide (base.toNat / 65536 + count.toNat ≤ 2 ^ 36) then
      .done (State.takeSpares { s with pkg := { s.pkg with
        spares := s.pkg.spares ++ (List.range count.toNat).map (fun i => base.toNat / 65536 + i) } })
    else .refused))

/-- Frames of a DRAM channel (R8, R151). -/
def channelFrames (ch : Nat) : List Nat := (List.range 65536).map (fun i => ch * 65536 + i)

/-- A frame becomes PENDING, unless it is already past that. -/
def State.retireFrame (s : State) (frame : Nat) : State :=
  match s.pkg.frames.find frame with
  | some _ => s
  | none => State.takeSpares { s with pkg := { s.pkg with frames := s.pkg.frames.put frame .pending } }

/-- Retires a whole channel in service: its enable bit falls, CFG_GEN moves on, its frames become PENDING (R11, R12, R150). -/
def State.retireChannel (s : State) (ch : Nat) : State :=
  if !(if ch < 64 then s.pkg.chLo.getLsbD ch else s.pkg.chHi.getLsbD (ch - 64)) then s else
  let clear (w : BitVec 64) (k : Nat) : BitVec 64 := w &&& ~~~(BitVec.ofNat 64 (2 ^ k))
  let pkg := { s.pkg with
    chLo := if ch < 64 then clear s.pkg.chLo ch else s.pkg.chLo,
    chHi := if ch < 64 then s.pkg.chHi else clear s.pkg.chHi (ch - 64),
    cfgGen := s.pkg.cfgGen + 1 }
  (channelFrames ch).foldl (fun (s : State) f => s.retireFrame f) { s with pkg := pkg }

/-- Lists a retired frame in the bad-frame list, or retires the channel when the list is full (R151). -/
def State.listBad (s : State) (frame reason : Nat) : State :=
  if 16384 ≤ s.pkg.badFrames.length then s.retireChannel (frame / 65536) else
  { s with pkg := { s.pkg with badFrames := s.pkg.badFrames ++ [{ frame := frame, reason := reason, stamp := s.time.ns }] } }

/-- A frame is retired for a reason, unless it is already past that; with a full list its channel is (R150, R151). -/
def State.retireFor (s : State) (frame reason : Nat) : State :=
  if (s.pkg.frames.find frame).isSome then s
  else if s.pkg.badFrames.length ≥ 16384 then s.retireChannel (frame / 65536)
  else (s.listBad frame reason).retireFrame frame

/-- CORRECTED_ERROR (R150, R310): programs see nothing; the frame's count rises, and the 8th since reset retires it. -/
def execCorrectedError (frame : Nat) (s : State) : Answer :=
  if !s.up || decide (2 ^ 23 ≤ frame) then .next s else
  let n := s.pkg.corrected.getD frame 0 + 1
  let t : State := { s with pkg := { s.pkg with corrected := s.pkg.corrected.put frame n } }
  .next (if n = 8 then t.retireFor frame 2 else t)

/-- SCRUB (R310): a frame is read and corrected, which changes nothing that programs see; an error it finds is an event of its own. -/
def execScrub (_frame : Nat) (s : State) : Answer := .next s

/-- FRAME_RETIRE_TRIGGER (R150, R151): reason 1 marks the block uncorrectable, reason 2 is the count of corrected errors, reason 3
retires the frame's channel. -/
def execFrameRetireTrigger (frame reason block : Nat) (s : State) : Answer :=
  if !s.up || decide (2 ^ 23 ≤ frame) || (reason == 2 && decide (s.pkg.corrected.getD frame 0 < 8)) then .next s else
  let s := if reason = 1 then { s with poison := let u := frame * 65536 + block % 65536 / 64 * 64
                                                 if s.poison.contains u then s.poison else u :: s.poison } else s
  .next (if reason = 3 then s.retireChannel (frame / 65536) else s.retireFor frame reason)

/-- The lock operation of a frame under migration. -/
def State.migrationOp (s : State) (frame : Nat) : Option (Nat × Op) :=
  s.ops.find? (fun o => o.2.kind == .frame frame)

/-- Copies bytes from one DRAM frame to another with their poison marks. -/
def State.copyDram (s : State) (src dst n : Nat) : State :=
  let marks := (List.range ((n + 63) / 64)).map (fun b => (dst + 64 * b, s.poison.contains (src + 64 * b)))
  let kept := s.poison.filter (fun u => !(decide (dst ≤ u) && decide (u < dst + n)))
  { s with mem := memWrite s.mem dst (memSpan s.mem src n), poison := kept ++ (marks.filter (·.2)).map (·.1) }

/-- Gives every partition's driver a notice of the package itself (R150, R321). -/
def State.notifyAll (s : State) (n : Notice) : State := s.parts.foldl (fun s p => s.notify p.1 n) s

/-- Where the host physical frame of a spare that has been used up leads: to no DRAM frame (R150). -/
def withdrawn (spare : Nat) : Nat := 2 ^ 23 + spare

/-- A frame's place in the frame map passes to the DRAM frame of a spare, whose own HPA is withdrawn; the frame is RETIRED. -/
def State.switchFrame (s : State) (frame spare : Nat) : State :=
  let m := s.pkg.frameMap
  { s with pkg := { s.pkg with
      frames := s.pkg.frames.put frame .retired
      frameMap := (m.put (s.hpaOf frame) (s.dramOf spare)).put spare (withdrawn spare) } }

/-- MIGRATION_LINE_COPY (R150): the next line goes to the spare's DRAM frame with its poison marks. With the last one the frame is taken
over as it then stands (log entry 111), the frame map is switched, the spare's HPA withdrawn, the lock released and the driver told. -/
def execMigrationLineCopy (frame : Nat) (s : State) : Answer :=
  match s.pkg.frames.find frame, s.migrationOp frame with
  | some (.migrating spare k), some (op, o) =>
    let hpa := s.hpaOf frame
    if !o.pend.isEmpty || !s.rangeFree op false (hpa * 65536 + 256 * k, 256) || !s.up then .next s else
    let dst := s.dramOf spare
    if k < 255 then
      let s := s.copyDram (frame * 65536 + 256 * k) (dst * 65536 + 256 * k) 256
      .next { s with pkg := { s.pkg with frames := s.pkg.frames.put frame (.migrating spare (k + 1)) } }
    else
      let s := (s.copyDram (frame * 65536) (dst * 65536) 65536).switchFrame frame spare
      let s := { (s.unlock op) with ops := s.ops.del op }
      .next (s.notifyAll { stamp := s.time.ns, ctx := 0xFFFF, src := 6 * 2 ^ 13, cls := 0, sub := 0 })
  | _, _ => .next s

end Sys2Proof.Machine
end

