-- ==== Sys2Proof/Machine/Matrix.lean ====
section
/-!
DEFINITION. The bent matrix unit (R184 to R208): shape records, tiles, weight lines, the matrix queues with their sequencer, and the
operations.
-/

namespace Sys2Proof.Machine

/-! ### Courses that run -/

/-- A context is ACTIVE (R285). -/
def State.ctxActive (s : State) (ctx : Nat) : Bool :=
  match s.ctxs.find ctx with
  | some c => c.st == .active
  | none => false

/-- A course is not halted: its slot of the table is current, and no claim, reclaim, retirement, checkpoint or viral state holds
it (R278, R279, R282, R309 to R311). -/
def State.courseLive (s : State) (c : Course) : Bool :=
  s.up && !s.pkg.checkpoint && s.ctxActive c.ctx && c.started && !c.saved && c.reclaimed.isNone && c.moved.isNone

/-- A tile of the course is on its way to the save area (R189). -/
def State.savingTile (s : State) (cid : Nat) (c : Course) : Bool :=
  (List.range 8).any (fun i => (s.tile (8 * bentOf c.core + i)).st == .saving cid)

/-- A course may run, and its matrix queue be served: it is live, and its rows and tiles are in place (R188, R279). -/
def State.awake (s : State) (cid : Nat) (c : Course) : Bool :=
  s.courseLive c && c.spl == 0 && c.tilesOut == 0 && !s.savingTile cid c

/-! ### Places of operands (R186, R191, R193, R194) -/

/-- Rows, columns, element type and the other fields of a shape record (R191). -/
structure Shape where
  base : Nat
  rows : Nat
  cols : Nat
  rstride : Nat
  estride : Nat
  eoff : Nat
  fmt : Nat
  abm : Nat
  deriving DecidableEq, Repr

/-- The fields of a shape record (R191). -/
def Shape.of (r : BitVec 128) : Shape :=
  let n := r.toNat
  { base := bits n 52 12, rows := bits n 45 7, cols := bits n 32 13, rstride := bits n 16 16, estride := bits n 8 8,
    eoff := bits n 112 16, fmt := bits n 107 5, abm := bits n 88 12 }

/-- Byte of element (m, k) in the window (R191). -/
def Shape.byte (h : Shape) (sz m k : Nat) : Nat := h.base * 256 + (h.eoff + m * h.rstride + k * h.estride) * sz

/-- First byte after the last element of a block; 0 for an empty one. -/
def Shape.stop (h : Shape) (sz : Nat) : Nat :=
  if h.rows = 0 ∨ h.cols = 0 then 0 else h.byte sz (h.rows - 1) (h.cols - 1) + sz

/-- A shape record of a course. -/
def Course.shape (c : Course) (n : Nat) : BitVec 128 := c.shapes.getD n 0

/-- Physical base of a course's .core window and its bytes. -/
def State.coreWindow (s : State) (c : Course) : Nat × Nat :=
  let w := s.window c.ctx c.core
  (coreBase c.core + w.1 * 256, w.2 * 256)

/-- First line of a course's weight window and its lines. -/
def State.weightWindow (s : State) (c : Course) : Nat × Nat := s.window c.ctx (110 + bentOf c.core)

/-- Bytes of a type. -/
def Ty.bytes (t : Ty) : Nat := t.bits / 8

/-- Fields of a weight reference (R194). -/
structure WRef where
  layout : Nat
  gsz : Nat
  vs : Nat
  vz : Nat
  sh : Nat
  zb : Nat
  line : Nat
  deriving DecidableEq, Repr

/-- The fields of a weight reference. -/
def WRef.of (w : Word) : WRef :=
  let n := w.toNat
  { layout := bits n 62 2, gsz := bits n 60 2, vs := bits n 54 6, vz := bits n 48 6, sh := bits n 47 1, zb := bits n 45 2,
    line := bits n 0 10 }

/-- Group size; 0 for none. -/
def WRef.group (w : WRef) : Nat := if w.gsz = 0 then 0 else 16 * 2 ^ w.gsz

/-- The type that an operation reads of A and of B, and its kstep (R197). -/
def MatKind.formats : MatKind → Option (Ty × Ty × Nat)
  | .mma a b => some (a, b, match a with
    | .e4m3 | .e5m2 | .i8 => 8
    | .bf16 | .f16 => 4
    | _ => 1)
  | .mmq q => some (.i8, q, if q = .q4g then 16 else 8)
  | .mmsp a => some (a, a, match a with
    | .bf16 | .f16 => 4
    | _ => 8)
  | _ => none

/-- The format a tile has for an operation: FP64, INT32 or FP32 (R186). -/
def MatKind.tileTy : MatKind → Ty
  | .mma .f64 _ => .f64
  | .mma .i8 _ | .mmsp .i8 => .i32
  | .mld t | .mstr t => if t = .f64 then .f64 else if t = .i8 ∨ t = .i32 then .i32 else .f32
  | _ => .f32

/-! ### Checks at issue (R196, R198, R204, R207) -/

/-- The lines of a bitmap of n bits. -/
def bitmapLines (n : Nat) : Nat := (n + 2047) / 2048

/-- Bytes of B that are checked against the weight window: all of dense or group B, the bitmap of compressed B. -/
def weightBytes (layout k : Nat) (b : Ty) : Nat :=
  if layout = 1 then bitmapLines (96 * k) * 256 else (96 * k * b.bits + 7) / 8

/-- Order 2 of R198. -/
def matField (held : Bool) (kind : MatKind) (a b : Ty) (h : Shape) (w : WRef) : Bool :=
  let isQ := match kind with
    | .mmq _ => true
    | _ => false
  let lay := match kind with
    | .mma _ _ => w.layout ≤ 1
    | .mmq _ => w.layout = 2
    | _ => w.layout = 1
  let g := w.group
  let ng := if g = 0 then 0 else h.cols / g
  !held || decide (h.fmt ≠ (Ty.code a).toNat) || decide (a = .f64 ∧ b = .f64 ∧ 32 < h.rows) || !lay || (isQ == decide (w.gsz = 0))
    || (isQ && (decide (h.cols % g ≠ 0) || decide (16 < ng) || decide (64 < w.vs + 3 * ng) || decide (64 < w.vz + 3 * ng)))

/-- Order 3 of R198: a byte of A, of its bitmap or of B lies beyond its window. -/
def State.matScr (s : State) (c : Course) (kind : MatKind) (a b : Ty) (h : Shape) (w : WRef) : Bool :=
  let cw := (s.coreWindow c).2
  let sp := match kind with
    | .mmsp _ => true
    | _ => false
  decide (cw < h.stop (Ty.bytes a)) || (sp && decide (cw < h.abm * 256 + (h.rows * h.cols + 7) / 8))
    || decide ((s.weightWindow c).2 * 256 < w.line * 256 + weightBytes w.layout h.cols b)

/-- A queued operation with nothing but its kind. -/
def Mat.plain (k : MatKind) (tile : Nat) : Mat :=
  { kind := k, tile := tile, sha := 0, shb := 0, wref := 0, mods := 0, sigma := [], zero := [], addr := 0, n := 0, line := 0, sparse := none }

/-- Enters an operation into the course's matrix queue, which holds 8 entries; a full queue holds the issue slot (R185). -/
def enqueue (x : Args) (m : Mat) (locks : List (Nat × Nat × Bool)) (env : Env) (s : State) : Res :=
  if 8 ≤ env.co.mq.length then .stall s else
  let id := s.nextId
  .ok (((s.addOp env x (.mat m)).lockRanges id false locks).modCourse env.cid (fun c => { c with mq := c.mq ++ [id] }))

/-- Half SH or byte ZB of the lanes of 3 · ng registers from v, by 192·g + c (R195). -/
def groupValues (env : Env) (s : State) (v ng : Nat) (pick : Nat → Nat) : List Nat :=
  (List.range ng).flatMap (fun g => (List.range 192).map (fun c => pick (s.vecLane env (v + 3 * g + c / 64) false (c % 64))))

/-- A wbld's queue entry. -/
def Mat.wbld (a : Word) (n line : Nat) : Mat := { Mat.plain .wbld 0 with addr := a, n := n, line := line }

/-- A scale or zero-point register of an mmq is poisoned (R305). -/
def groupBad (env : Env) (s : State) (v ng : Nat) : Bool :=
  (List.range (3 * ng)).any (fun i => s.rowPoison.getD (env.co.rowKey (env.pa.lwb + v + i)) 0 != 0)

/-- mma, mmq and mmsp at issue (R198). -/
def matOp (x : Args) (kind : MatKind) (env : Env) (s : State) : Res :=
  if env.acting x = 0 then .ok (s.addOp env x .nothing) else
  match kind.formats with
  | none => .ok s
  | some (a, b, _) =>
    let wref := env.co.scalar x.b.num
    let w := WRef.of wref
    let sh := env.co.shape x.a.num
    let h := Shape.of sh
    let k := env.tileKey x.d
    if bits wref.toNat 10 35 ≠ 0 then .trap (Trap.illegal Sub.mbz) else
    if matField (s.holdsTile env.cid k) kind a b h w then .trap Trap.field else
    if s.matScr env.co kind a b h w then .trap (Trap.page Sub.scr 0xFF 0 0) else
    let ng := if w.group = 0 then 0 else h.cols / w.group
    if groupBad env s w.vs ng || groupBad env s w.vz ng then .trap (Trap.poison 0xFF 0) else
    enqueue x { Mat.plain kind x.d.num with
      sha := sh, wref := wref, mods := BitVec.ofNat 5 (Mod.number x.m),
      sigma := groupValues env s w.vs ng (fun v => bits v (16 * w.sh) 16),
      zero := groupValues env s w.vz ng (fun v => bits v (8 * w.zb) 8) } [] env s

/-- MMA_E4M3 (R199). -/
def execMmaE4m3 (x : Args) (s : State) : Answer := issue Enc.mmaE4m3 x (matOp x (.mma .e4m3 .e4m3)) s
/-- MMA_E5M2 (R199). -/
def execMmaE5m2 (x : Args) (s : State) : Answer := issue Enc.mmaE5m2 x (matOp x (.mma .e5m2 .e5m2)) s
/-- MMA_I8 (R199). -/
def execMmaI8 (x : Args) (s : State) : Answer := issue Enc.mmaI8 x (matOp x (.mma .i8 .i8)) s
/-- MMA_BF16 (R199). -/
def execMmaBf16 (x : Args) (s : State) : Answer := issue Enc.mmaBf16 x (matOp x (.mma .bf16 .bf16)) s
/-- MMA_F16 (R199). -/
def execMmaF16 (x : Args) (s : State) : Answer := issue Enc.mmaF16 x (matOp x (.mma .f16 .f16)) s
/-- MMA_F32 (R199). -/
def execMmaF32 (x : Args) (s : State) : Answer := issue Enc.mmaF32 x (matOp x (.mma .f32 .f32)) s
/-- MMA_F64 (R199). -/
def execMmaF64 (x : Args) (s : State) : Answer := issue Enc.mmaF64 x (matOp x (.mma .f64 .f64)) s
/-- MMQ_Q4G (R201). -/
def execMmqQ4g (x : Args) (s : State) : Answer := issue Enc.mmqQ4g x (matOp x (.mmq .q4g)) s
/-- MMQ_Q8G (R201). -/
def execMmqQ8g (x : Args) (s : State) : Answer := issue Enc.mmqQ8g x (matOp x (.mmq .q8g)) s
/-- MMSP_E4M3 (R202). -/
def execMmspE4m3 (x : Args) (s : State) : Answer := issue Enc.mmspE4m3 x (matOp x (.mmsp .e4m3)) s
/-- MMSP_E5M2 (R202). -/
def execMmspE5m2 (x : Args) (s : State) : Answer := issue Enc.mmspE5m2 x (matOp x (.mmsp .e5m2)) s
/-- MMSP_I8 (R202). -/
def execMmspI8 (x : Args) (s : State) : Answer := issue Enc.mmspI8 x (matOp x (.mmsp .i8)) s
/-- MMSP_BF16 (R202). -/
def execMmspBf16 (x : Args) (s : State) : Answer := issue Enc.mmspBf16 x (matOp x (.mmsp .bf16)) s
/-- MMSP_F16 (R202). -/
def execMmspF16 (x : Args) (s : State) : Answer := issue Enc.mmspF16 x (matOp x (.mmsp .f16)) s

/-- MSHAPE (R192): the fields are checked, FIELD before MBZ. -/
def execMshape (x : Args) (s : State) : Answer :=
  issue Enc.mshape x (fun env s =>
    if env.acting x = 0 then .ok s else
    let w0 := (env.co.scalar x.a.num).toNat
    let w1 := (env.co.scalar x.b.num).toNat
    let h := Shape.of (BitVec.ofNat 128 (w0 + 2 ^ 64 * w1))
    if h.rows = 0 ∨ 64 < h.rows ∨ h.cols = 0 ∨ 4096 < h.cols ∨ h.estride = 0 ∨ 0x12 ≤ h.fmt then .trap Trap.field else
    if bits w0 0 8 ≠ 0 ∨ bits w1 36 7 ≠ 0 ∨ bits w1 0 24 ≠ 0 then .trap (Trap.illegal Sub.mbz) else
    .ok (s.modCourse env.cid (fun c => { c with shapes := c.shapes.set 0 x.d.num (BitVec.ofNat 128 (w0 + 2 ^ 64 * w1)) }))) s

/-! ### Row-wise ranges of paged and scratch memory -/

/-- Physical pieces of each row of a block of memory: CANON of any row first, then the translation subcodes, then PRIVHW (R132, R196, R204,
R215). -/
def State.rowPieces (s : State) (c : Course) (a : Word) (rows len pitch : Nat) (write : Bool) :
    Except Trap (List (List (Nat × Nat))) :=
  if rows = 0 ∨ len = 0 then .ok [] else
  if isScratchAddr a then
    match s.scratch c.ctx a with
    | none => .error (Trap.page Sub.scr 0xFF a.toNat 0)
    | some (pa, left) =>
      if left < (rows - 1) * pitch + len then .error (Trap.page Sub.scr 0xFF a.toNat 0)
      else .ok ((List.range rows).map (fun m => [(pa + m * pitch, len)]))
  else
  match (List.range rows).find? (fun m => decide (2 ^ 60 < (a.toNat + m * pitch) % 2 ^ 64 + len)) with
  | some m => .error (Trap.page Sub.canon 0xFF (max ((a.toNat + m * pitch) % 2 ^ 64) (2 ^ 60)) 0)
  | none => do
    let l ← (List.range rows).mapM (fun m => (pieces (len / 65536 + 2) ((a.toNat + m * pitch) % 2 ^ 64) len).mapM (fun p =>
      match s.translate c.core c.ctx p.1 none write with
      | .ok r => .ok (r.1, p.2)
      | .error e => .error (e.trap 0xFF p.1)))
    if (List.range rows).any (fun m => c.hwBad (a.toNat + m * pitch) len) then .error (Trap.privhw 0xFF a.toNat) else .ok l

/-- RLOCK of a range at issue: an entry of another operation that forbids the access (R165). -/
def State.lockedTrap (s : State) (cid addr : Nat) (write : Bool) (l : List (Nat × Nat)) : Option Trap :=
  l.findSome? (fun p => (s.lockAt s.nextId p.1 p.2 write).map (fun e => Trap.rlock e.1 e.2 cid 0xFF addr))

/-- WBLD (R196): checked at issue, its source locked against writes; behind a tfence the source is translated and locked when the queue
serves the entry (R160). -/
def execWbld (x : Args) (s : State) : Answer :=
  issue Enc.wbld x (fun env s =>
    if env.acting x = 0 then .ok (s.addOp env x .nothing) else
    let d := env.co.scalar x.d.num
    let a := env.co.scalar x.a.num
    let n := env.val x .n32 x.b
    if n = 0 ∨ 1024 < n then .trap Trap.field else
    if bits d.toNat 10 54 ≠ 0 then .trap (Trap.illegal Sub.mbz) else
    if bits a.toNat 0 8 ≠ 0 then .trap (Trap.align 0xFF a.toNat) else
    if !isScratchAddr a && decide (2 ^ 60 ≤ a.toNat) then .trap (Trap.page Sub.canon 0xFF a.toNat 0) else
    if (s.weightWindow env.co).2 < d.toNat + n then .trap (Trap.page Sub.scr 0xFF d.toNat 0) else
    let entry := Mat.wbld a n d.toNat
    if env.co.tfencing then enqueue x entry [] env s else
    match s.rowPieces env.co a 1 (512 * n) 0 false with
    | .error t => .trap t
    | .ok l =>
      let l := l.flatten
      match s.lockedTrap env.cid a.toNat false l with
      | some t => .trap t
      | none => enqueue x entry (lockPieces false l) env s) s

/-- MZERO (R204). -/
def execMzero (x : Args) (s : State) : Answer :=
  issue Enc.mzero x (fun env s =>
    if env.acting x = 0 then .ok (s.addOp env x .nothing) else
    if !s.holdsTile env.cid (env.tileKey x.d) then .trap Trap.field else
    enqueue x (Mat.plain .mzero x.d.num) [] env s) s

/-- Rows of a tile and bytes of one row in memory for a transfer type (R204). -/
def xferRows (t : Ty) : Nat × Nat := (if t = .f64 then 32 else 64, 192 * Ty.bytes t)

/-- MLD and MSTR at issue (R204); behind a tfence the rows are translated only by the transfer itself (R160). -/
def xferOp (x : Args) (store : Bool) (env : Env) (s : State) : Res :=
  if env.acting x = 0 then .ok (s.addOp env x .nothing) else
  let t := x.m.tyD
  let a := env.co.scalar x.a.num
  let pitch := env.val x .n32 x.b
  if !s.holdsTile env.cid (env.tileKey x.d) then .trap Trap.field else
  if a.toNat % Ty.bytes t ≠ 0 ∨ pitch % Ty.bytes t ≠ 0 then .trap (Trap.align 0xFF a.toNat) else
  let entry := { Mat.plain (if store then .mstr t else .mld t) x.d.num with addr := a, n := pitch }
  if env.co.tfencing then enqueue x entry [] env s else
  match s.rowPieces env.co a (xferRows t).1 (xferRows t).2 pitch store with
  | .error tr => .trap tr
  | .ok _ => enqueue x entry [] env s

/-- MLD (R204). -/
def execMld (x : Args) (s : State) : Answer := issue Enc.mld x (xferOp x false) s
/-- MSTR (R204). -/
def execMstr (x : Args) (s : State) : Answer := issue Enc.mstr x (xferOp x true) s

/-- The counter block of a sparsity step (R206): KSWAP, STEPS, BMLINE, and whether a reserved bit is set. -/
def State.counter (s : State) (pa : Nat) : Nat × Nat × Nat × Bool :=
  let w (k : Nat) : Nat := s.peekNat (pa + 8 * k) 8
  (bits (w 0) 32 16, bits (w 0) 0 32, bits (w 2) 0 12,
   decide (bits (w 0) 48 16 ≠ 0 ∨ bits (w 1) 32 32 ≠ 0 ∨ bits (w 2) 12 52 ≠ 0) || (List.range 5).any (fun k => decide (w (3 + k) ≠ 0)))

/-- SPDG and SPSAL at issue (R207): the counter block is read once it is present and unlocked, KSWAP and BMLINE are those of this reading. -/
def sparsityOp (x : Args) (kind : MatKind) (env : Env) (s : State) : Res :=
  if env.acting x = 0 then .ok (s.addOp env x .nothing) else
  let off := (env.co.scalar x.d.num).toNat
  let wa := Shape.of (env.co.shape x.a.num)
  let wb := Shape.of (env.co.shape x.b.num)
  let win := s.coreWindow env.co
  if wa.fmt ≠ 0x0D ∨ wb.fmt ≠ 0x0D ∨ wa.rows ≠ wb.rows ∨ wa.cols ≠ wb.cols then .trap Trap.field else
  if off % 64 ≠ 0 then .trap (Trap.align 0xFF off) else
  if win.2 < off + 64 then .trap (Trap.page Sub.scr 0xFF off 0) else
  let block := (win.1 + off, 64)
  if !s.present block.1 || !s.blockReady env.cid [block] then .stall s else
  match s.poisonedAll [block] with
  | some _ => .trap (Trap.poison 0xFF (2 * 2 ^ 60 + env.co.core * 2 ^ 52 + off / 256 * 256))
  | none =>
  let k := s.counter block.1
  if 4096 < k.1 ∨ k.2.2.2 = true then .trap Trap.field else
  if win.2 < k.2.2.1 * 256 + (wa.rows * wa.cols + 7) / 8 ∨ win.2 < wa.stop 2 ∨ win.2 < wb.stop 2 then
    .trap (Trap.page Sub.scr 0xFF off 0)
  else enqueue x { Mat.plain kind 0 with sha := env.co.shape x.a.num, shb := env.co.shape x.b.num, addr := BitVec.ofNat 64 k.1, n := off, line := k.2.2.1 }
    [] env s

/-- SPDG (R207). -/
def execSpdg (x : Args) (s : State) : Answer := issue Enc.spdg x (sparsityOp x .spdg) s
/-- SPSAL (R207). -/
def execSpsal (x : Args) (s : State) : Answer := issue Enc.spsal x (sparsityOp x .spsal) s

/-! ### The entry in progress (R185, R208) -/

/-- A bent's sequencer. -/
def State.bent (s : State) (b : Nat) : Bent := s.bents.getD b { last := 63, cur := none, todo := [], done := false }

/-- The course of queue q of a bent (R185). -/
def State.queueCourse (s : State) (b q : Nat) : Option (Nat × Course) :=
  s.courses.find? (fun c => c.2.core == 2 * b + q / 32 && c.2.cslot == q % 32 && !c.2.saved && c.2.moved.isNone)

/-- The operation with its course and queued work. -/
def State.matOf (s : State) (op : Nat) : Option (Op × Nat × Course × Mat) :=
  match s.ops.find op with
  | some o =>
    (match o.kind, o.cid with
     | .mat m, some cid => (s.courses.find cid).map (fun c => (o, cid, c, m))
     | _, _ => none)
  | none => none

/-- The entry in progress may be left: its course is halted, it stands between groups, and it is no load under way (R201, R208). -/
def State.mayLeave (s : State) (b : Nat) (op : Nat) : Bool :=
  match s.matOf op with
  | none => true
  | some (_, _, c, m) =>
    let t := s.tile (8 * b + m.tile)
    !s.courseLive c && !(s.bent b).done && (match m.kind with
      | .wbld => false
      | .mmq q =>
        let g := (WRef.of m.wref).group
        !t.act || (t.step * (if q = .q4g then 16 else 8)) % (if g = 0 then 1 else g) == 0
      | _ => true)

/-! ### Tiles (R188 to R190, R205) -/

/-- Bytes of a tile. -/
def tileBytes : Nat := 49152

/-- Puts a tile's record back. -/
def State.setTile (s : State) (k : Nat) (t : Tile) : State := { s with tiles := s.tiles.put k t }

/-- Data and status of a tile are cleared for another context (R189). -/
def State.clearTile (s : State) (k : Nat) : State :=
  let t := s.tile k
  (s.poke (tileBase (k / 8) (k % 8)) (List.replicate tileBytes 0)).setTile k { t with mst := 0, act := false, step := 0 }

/-- A course takes a FREE tile (R189). -/
def State.takeTile (s : State) (cid ctx k : Nat) : State :=
  let s := if (s.tile k).last = some ctx then s else s.clearTile k
  s.setTile k { s.tile k with st := .held cid, last := some ctx }

/-- The course that holds a tile is halted, its run has ended, and the sequencer is not in the middle of its entry (R189, R201). -/
def State.haltedCourse (s : State) (cid : Nat) : Bool :=
  match s.courses.find cid with
  | some c =>
    !s.courseLive c && s.betweenRuns cid && (match (s.bent (bentOf c.core)).cur with
      | some op => (match s.matOf op with
        | some (_, h, _, _) => h != cid || s.mayLeave (bentOf c.core) op
        | none => true)
      | none => true)
  | none => true

/-- MTALLOC (R188, R189, R205): p says whether the course holds the tile now. -/
def execMtalloc (x : Args) (s : State) : Answer :=
  issue Enc.mtalloc x (fun env s =>
    let act := env.acting x
    if act = 0 then .ok s else
    if !nbit (s.partWord (s.partOf env.co.ctx) 3) x.a.num then .trap Trap.field else
    let k := env.tileKey x.a
    let t := s.tile k
    let ctxOf (cid : Nat) : Nat := match s.courses.find cid with
      | some c => c.ctx
      | none => 0
    let r : State × Bool := match t.st with
      | .free => (s.takeTile env.cid env.co.ctx k, true)
      | .held h =>
        if h = env.cid then (s, true)
        else if ctxOf h ≠ env.co.ctx ∧ s.haltedCourse h then (s.setTile k { t with st := .saving h }, false)
        else (s, false)
      | _ => (s, false)
    .ok (r.1.setPred env.cid x.d.num act (if r.2 then BitVec.allOnes 64 else 0))) s

/-- MTFREE (R189, R205). -/
def execMtfree (x : Args) (s : State) : Answer :=
  issue Enc.mtfree x (fun env s =>
    if env.acting x = 0 then .ok s else
    let k := env.tileKey x.a
    if !s.holdsTile env.cid k then .trap Trap.field else
    .ok ((s.setTile k { s.tile k with st := .releasing env.cid }).drainTiles env.cid)) s

/-- Stores the image of a tile in its owner's save area (R190): none where a page does not take it. -/
def State.saveTile (s : State) (cid k : Nat) : Option State :=
  match s.courses.find cid with
  | none => none
  | some c =>
    let va := s.tileImage c.ctx k
    match (pieces 3 va 49216).mapM (fun p => (s.translate c.core c.ctx p.1 none true).map (fun r => (r.1, p.2))) with
    | .error _ => none
    | .ok l =>
      let t := s.tile k
      let base := tileBase (k / 8) (k % 8)
      let tail := toLe 8 t.mst.toNat ++ toLe 8 ((if t.act then 2 ^ 31 else 0) + t.step)
        ++ toLe 8 (c.ctx * 2 ^ 48 + c.cslot * 2 ^ 43 + (k % 8) * 2 ^ 40) ++ List.replicate 40 0
      let s' := s.pokeAll l (s.peek base tileBytes ++ tail) false
      let marks := (List.range 192).filter (fun i => (s.poisoned (base + 256 * i) 256).isSome)
      let s' := marks.foldl (fun (s : State) i =>
        match s.translate c.core c.ctx (va + 256 * i) none true with
        | .ok r => s.markPoison r.1 256
        | .error _ => s) s'
      some ((s'.setTile k { t with st := .free, last := some c.ctx }).modCourse cid (fun c =>
        { c with tilesOut := c.tilesOut ||| BitVec.ofNat 8 (2 ^ (k % 8)) }))

/-- Restores a tile's image to a FREE tile (R189). -/
def State.loadTile (s : State) (cid k : Nat) : Option State :=
  match s.courses.find cid with
  | none => none
  | some c =>
    let va := s.tileImage c.ctx k
    match (pieces 3 va 49216).mapM (fun p => (s.translate c.core c.ctx p.1 none false).map (fun r => (r.1, p.2))) with
    | .error _ => none
    | .ok l =>
      let bs := s.peekAll l
      let base := tileBase (k / 8) (k % 8)
      let w (i : Nat) : Nat := leNat ((bs.drop (tileBytes + 8 * i)).take 8)
      let s' := s.poke base (bs.take tileBytes)
      let marks := (List.range 192).filter (fun i =>
        match s.translate c.core c.ctx (va + 256 * i) none false with
        | .ok r => (s.poisoned r.1 256).isSome
        | .error _ => false)
      let s' := marks.foldl (fun (s : State) i => s.markPoison (base + 256 * i) 256) s'
      some ((s'.setTile k { st := .held cid, last := (s.tile k).last, mst := BitVec.ofNat 32 (w 0), act := nbit (w 1) 31,
                            step := bits (w 1) 0 20 }).modCourse cid (fun c =>
        { c with tilesOut := c.tilesOut &&& ~~~(BitVec.ofNat 8 (2 ^ (k % 8))) }))

/-- TILE_SAVE_FINISHED (R189, R190): the image is stored and the tile is FREE; a translation fault makes it wait (R280). -/
def execTileSaveFinished (bent tile : Nat) (s : State) : Answer :=
  let k := 8 * bent + tile
  match (s.tile k).st with
  | .saving cid => .next ((s.saveTile cid k).getD s)
  | _ => .next s

/-! ### Elements -/

/-- The pattern of a tile's element, sz bytes (R186). -/
def State.tileElem (s : State) (k sz m n : Nat) : Nat := s.peekNat (tileBase (k / 8) (k % 8) + sz * (192 * m + n)) sz

/-- Stores a tile's element. -/
def State.putElem (s : State) (k sz m n v : Nat) : State :=
  { s with mem := memWrite s.mem (tileBase (k / 8) (k % 8) + sz * (192 * m + n)) (toLe sz v) }

/-- Bit i of a bitmap whose first byte is at a physical address (R194). -/
def State.bitAt (s : State) (pa i : Nat) : Bool := nbit (s.peekNat (pa + i / 8) 1) (i % 8)

/-- Physical address of the first byte of B in a half of the bent. -/
def State.weightAt (s : State) (c : Course) (w : WRef) (half : Nat) : Nat :=
  weightBase (2 * bentOf c.core + half) + ((s.weightWindow c).1 + w.line) * 256

/-- Bit i of a bitmap held as bytes. -/
def bitOf (l : List Byte) (i : Nat) : Bool := (l.getD (i / 8) 0).getLsbD (i % 8)

/-- Bit i of the bitmap of B in a half: as the operation formed it, or as it stands (R194, R202). -/
def State.bBit (s : State) (c : Course) (q : Mat) (half i : Nat) : Bool :=
  match q.sparse with
  | some p => bitOf (if half = 0 then p.b0 else p.b1) i
  | none => s.bitAt (s.weightAt c (WRef.of q.wref) half) i

/-- Bit i of the bitmap of A of a sparse operation; every element of another counts (R202). -/
def State.aBit (s : State) (c : Course) (q : Mat) (i : Nat) : Bool :=
  match q.kind, q.sparse with
  | .mmsp _, some p => bitOf p.a i
  | .mmsp _, none => s.bitAt ((s.coreWindow c).1 + (Shape.of q.sha).abm * 256) i
  | _, _ => true

/-- Marked elements below bit i of a bitmap. -/
def bitsBelow (bit : Nat → Bool) : Nat → Nat
  | 0 => 0
  | i + 1 => bitsBelow bit i + (if bit i then 1 else 0)

/-- Element (k, n) of B (R194): its pattern, whether it lies beyond the weight window (R203), and the bytes read. -/
def State.weightElem (s : State) (c : Course) (q : Mat) (b : Ty) (k n : Nat) : Nat × Bool × List (Nat × Nat) :=
  let w := WRef.of q.wref
  let at_ := s.weightAt c w (n / 96)
  let i := 96 * k + n % 96
  if w.layout = 1 then
    let map := if q.sparse.isSome then [] else [(at_, i / 8 + 1)]
    if !s.bBit c q (n / 96) i then (0, false, map) else
    let sz := Ty.bytes b
    let off := bitmapLines (96 * (Shape.of q.sha).cols) * 256 + bitsBelow (s.bBit c q (n / 96)) i * sz
    if (s.weightWindow c).2 * 256 < w.line * 256 + off + sz then (0, true, map)
    else (s.peekNat (at_ + off) sz, false, (at_ + off, sz) :: map)
  else if b = .q4g then (bits (s.peekNat (at_ + i / 2) 1) (4 * (i % 2)) 4, false, [(at_ + i / 2, 1)])
  else (s.peekNat (at_ + i * Ty.bytes b) (Ty.bytes b), false, [(at_ + i * Ty.bytes b, Ty.bytes b)])

/-- Element (m, k) of A (R191, R202): its pattern, and the bytes read. -/
def State.shapeElem (s : State) (c : Course) (q : Mat) (a : Ty) (m k : Nat) : Nat × List (Nat × Nat) :=
  let h := Shape.of q.sha
  let pa := (s.coreWindow c).1 + h.byte (Ty.bytes a) m k
  if s.aBit c q (m * h.cols + k) then (s.peekNat pa (Ty.bytes a), [(pa, Ty.bytes a)]) else (0, [])

/-! ### Steps (R199 to R202) -/

/-- The bytes of the bitmaps from which a sparse operation forms its live list (R202). -/
def State.bitmapReads (s : State) (c : Course) (m : Mat) : List (Nat × Nat) :=
  let h := Shape.of m.sha
  let w := WRef.of m.wref
  let n := (96 * h.cols + 7) / 8
  [((s.coreWindow c).1 + h.abm * 256, (h.rows * h.cols + 7) / 8), (s.weightAt c w 0, n), (s.weightAt c w 1, n)]

/-- Forms the live list of a sparse operation from its bitmaps (R202). -/
def State.formSparse (s : State) (c : Course) (m : Mat) : Sparse :=
  let h := Shape.of m.sha
  let maps := (s.bitmapReads c m).map (fun r => s.peek r.1 r.2)
  let a := maps.getD 0 []
  let b (n : Nat) : List Byte := maps.getD (1 + n / 96) []
  { live := (List.range h.cols).filter (fun k => (List.range h.rows).any (fun r => bitOf a (r * h.cols + k)) &&
      (List.range 192).any (fun n => bitOf (b n) (96 * k + n % 96))),
    a := a, b0 := b 0, b1 := b 96 }

/-- The k values of an operation in their order: the live list of a sparse one, every k of another (R199, R202). -/
def Mat.ks (m : Mat) : List Nat :=
  match m.sparse with
  | some p => p.live
  | none => List.range (Shape.of m.sha).cols

/-- Steps of an operation on k values (R199). -/
def stepsOf (kstep n : Nat) : Nat := (n + kstep - 1) / kstep

/-- Sticky bits of %mst. -/
def mstSat : BitVec 32 := 1
/-- %mst.INV. -/
def mstInv : BitVec 32 := 2
/-- %mst.NAN. -/
def mstNan : BitVec 32 := 4

/-- A value with its sign changed when neg. -/
def FVal.flip (neg : Bool) (v : FVal) : FVal := if neg then v.negate else v

/-- Whether a value is infinite, and its sign. -/
def FVal.infSign : FVal → Option Bool
  | .inf n => some n
  | _ => none

/-- Sum of a tile element and the products of a step under R200: the pattern and the bits of %mst. -/
def floatStep (f : Fmt) (t : FVal) (pairs : List (FVal × FVal)) (extraNan : Bool) : Nat × BitVec 32 :=
  let prods := pairs.map (fun p => FVal.mul p.1 p.2)
  if t.isNan || extraNan || pairs.any (fun p => p.1.isNan || p.2.isNan) then (f.nan, mstNan)
  else if prods.any (·.isNan) then (f.nan, mstInv)
  else
    let infs := (t :: prods).filterMap FVal.infSign
    if infs.contains true && infs.contains false then (f.nan, mstInv)
    else match infs with
      | n :: _ => (f.infBits n, 0)
      | [] =>
        match prods.foldl (FVal.add .rn) t with
        | .fin n m e => let r := roundOv f .rn n m e; (r.1, if r.2 then mstSat else 0)
        | v => (v.encode f .rn, 0)

/-- One element of an integer step (R199): the pattern and SAT. -/
def intStep (t : Int) (x : Int) : Nat × BitVec 32 :=
  let v := t + x
  let r := Ty.sat .i32 v
  (wrap 32 r, if r = v then 0 else mstSat)

/-- Writes a block of tile elements computed by a function, and gathers %mst bits. -/
def State.mapTile (s : State) (k sz rows : Nat) (f : Nat → Nat → Nat × BitVec 32) : State × BitVec 32 :=
  (List.range rows).foldl (fun (a : State × BitVec 32) m =>
    (List.range 192).foldl (fun (a : State × BitVec 32) n =>
      let r := f m n
      (a.1.putElem k sz m n r.1, a.2 ||| r.2)) a) (s, 0)

/-- The products of element (m, n) over the k values of a step, as values. -/
def State.stepPairs (s : State) (c : Course) (q : Mat) (a b : Ty) (ks : List Nat) (m n : Nat) : List (FVal × FVal) :=
  let dec (t : Ty) (v : Nat) : FVal := match t.fmt? with
    | some f => f.decode v
    | none => FVal.ofInt false (t.val v) 0
  ks.map (fun k => (FVal.flip (q.mods.getLsbD 2) (dec a (s.shapeElem c q a m k).1),
                    FVal.flip (q.mods.getLsbD 1) (dec b (s.weightElem c q b k n).1)))

/-- The integer sum of products of element (m, n) over the k values of a step. -/
def State.stepInt (s : State) (c : Course) (q : Mat) (ks : List Nat) (m n : Nat) : Int :=
  let sg := if q.mods.getLsbD 2 != q.mods.getLsbD 1 then (-1 : Int) else 1
  ks.foldl (fun x k => x + sg * Ty.val .i8 (s.shapeElem c q .i8 m k).1 * Ty.val .i8 (s.weightElem c q .i8 k n).1) 0

/-- Contribution of a group to element (m, n) of an mmq (R201): the scale, the integer factor. -/
def State.groupTerm (s : State) (c : Course) (q : Mat) (b : Ty) (g m n : Nat) : FVal × FVal :=
  let w := WRef.of q.wref
  let ks := (List.range w.group).map (fun i => g * w.group + i)
  let av (k : Nat) : Int := Ty.val .i8 (s.shapeElem c q .i8 m k).1
  let p := ks.foldl (fun (x : Int) k => x + av k * ((s.weightElem c q b k n).1 : Int)) 0
  let rs := ks.foldl (fun (x : Int) k => x + av k) 0
  let z : Int := (q.zero.getD (192 * g + n) 0 : Int)
  (FVal.flip (q.mods.getLsbD 2 != q.mods.getLsbD 1) (Fmt.f16.decode (q.sigma.getD (192 * g + n) 0)), FVal.ofInt false (p - z * rs) 0)

/-- Every byte range of A and B that a step reads. -/
def State.stepReads (s : State) (c : Course) (q : Mat) (a b : Ty) (ks : List Nat) : List (Nat × Nat) :=
  (List.range (Shape.of q.sha).rows).flatMap (fun m => ks.flatMap (fun k => (s.shapeElem c q a m k).2))
    ++ ks.flatMap (fun k => (List.range 192).flatMap (fun n => (s.weightElem c q b k n).2.2))

/-- Every line of byte ranges has P = 1. -/
def State.allPresent (s : State) (l : List (Nat × Nat)) : Bool :=
  s.absent.all (fun a => !l.any (fun r => decide (r.2 ≠ 0) && overlaps (a * 256) 256 r.1 r.2))

/-- The k values of step st. -/
def stepKs (kstep : Nat) (live : List Nat) (st : Nat) : List Nat := (live.drop (st * kstep)).take kstep

/-- Zeros the rows of a new operation whose MOD disables accumulation (R199). -/
def State.zeroRows (s : State) (k sz rows : Nat) : State :=
  s.poke (tileBase (k / 8) (k % 8)) (List.replicate (sz * 192 * rows) 0)

/-- Whether a bitmap-compressed weight of a step lies beyond the window (R203). -/
def State.stepBeyond (s : State) (c : Course) (q : Mat) (b : Ty) (ks : List Nat) : Bool :=
  let w := WRef.of q.wref
  w.layout == 1 && ks.any (fun k => (List.range 192).any (fun n => (s.weightElem c q b k n).2.1))

/-- Takes one step of an operation on its tile (R199 to R202): memory, %mst bits. -/
def State.takeStep (s : State) (c : Course) (q : Mat) (a b : Ty) (kstep st : Nat) (live : List Nat) : State × BitVec 32 :=
  let k := 8 * bentOf c.core + q.tile
  let h := Shape.of q.sha
  let ks := stepKs kstep live st
  match q.kind with
  | .mmq _ =>
    let g := (WRef.of q.wref).group
    if g = 0 ∨ ((st + 1) * kstep) % g ≠ 0 then (s, 0) else
    s.mapTile k 4 h.rows (fun m n =>
      let t := s.groupTerm c q b ((st + 1) * kstep / g - 1) m n
      floatStep .f32 (Fmt.f32.decode (s.tileElem k 4 m n)) [t] false)
  | _ =>
    let ty := q.kind.tileTy
    let inv := if s.stepBeyond c q b ks then mstInv else 0
    let r := match ty.fmt? with
      | some f => s.mapTile k (Ty.bytes ty) h.rows (fun m n =>
          floatStep f (f.decode (s.tileElem k (Ty.bytes ty) m n)) (s.stepPairs c q a b ks m n) false)
      | none => s.mapTile k 4 h.rows (fun m n => intStep (Ty.val .i32 (s.tileElem k 4 m n)) (s.stepInt c q ks m n))
    (r.1, r.2 ||| inv)

/-! ### Transfers and sparsity maintenance (R204, R206, R207) -/

/-- An element of mld as a tile pattern. -/
def loadElem (t : Ty) (v : Nat) : Nat :=
  match t with
  | .f16 => convFloat .f16 .f32 .rn false v
  | .bf16 => convFloat .bf16 .f32 .rn false v
  | .i8 => signExt 8 32 v
  | _ => v

/-- An element of mstr from a tile pattern, and whether it saturated or overflowed. -/
def storeElem (t : Ty) (v : Nat) : Nat × Bool :=
  match t with
  | .f16 | .bf16 =>
    let f := if t = .f16 then Fmt.f16 else Fmt.bf16
    (match Fmt.f32.decode v with
     | .fin n m e => roundOv f .rn n m e
     | w => (w.encode f .rn, false))
  | .i8 => let x := Ty.val .i32 v; (wrap 8 (Ty.sat .i8 x), decide (Ty.sat .i8 x ≠ x))
  | _ => (v, false)

/-- mld (R204): fills a tile from rows of memory. -/
def State.loadRows (s : State) (k : Nat) (t tile : Ty) (rows : List (List (Nat × Nat))) : State :=
  rows.zipIdx.foldl (fun (s : State) r =>
    let bs := s.peekAll r.1
    let row := (List.range 192).flatMap (fun n => toLe (Ty.bytes tile) (loadElem t (leNat ((bs.drop (n * Ty.bytes t)).take (Ty.bytes t)))))
    s.poke (tileBase (k / 8) (k % 8) + Ty.bytes tile * 192 * r.2) row) s

/-- mstr (R204): stores a tile into rows of memory, in ascending order; the answer says whether SAT is set. -/
def State.storeRows (s : State) (k : Nat) (t tile : Ty) (rows : List (List (Nat × Nat))) : State × Bool :=
  rows.zipIdx.foldl (fun (a : State × Bool) r =>
    let es := (List.range 192).map (fun n => storeElem t (s.tileElem k (Ty.bytes tile) r.2 n))
    (a.1.pokeAll r.1 (es.flatMap (fun e => toLe (Ty.bytes t) e.1)) false, a.2 || es.any (·.2))) (s, false)

/-- A key that orders magnitudes: NaN above infinity above finite values. -/
def magLess (a b : FVal) : Bool :=
  match a, b with
  | .nan, _ => false
  | _, .nan => true
  | .inf _, _ => false
  | _, .inf _ => true
  | .fin _ m e, .fin _ n f => FVal.cmp (.fin false m e) (.fin false n f) == .lt

/-- Inserts an index into a list sorted by key, after equal keys. -/
def insertBy (less : FVal → FVal → Bool) (x : Nat × FVal) : List (Nat × FVal) → List (Nat × FVal)
  | [] => [x]
  | y :: t => if less x.2 y.2 then x :: y :: t else y :: insertBy less x t

/-- The first n indices in the order of a key; equal keys keep the lower index first. -/
def firstBy (less : FVal → FVal → Bool) (n : Nat) (l : List (Nat × FVal)) : List Nat :=
  ((l.foldl (fun acc x => insertBy less x acc) []).take n).map (·.1)

/-- One drop-and-grow step (R207), with KSWAP and BMLINE as read at issue. -/
def State.dropGrow (s : State) (c : Course) (q : Mat) : State :=
  let base := (s.coreWindow c).1
  let wt := Shape.of q.sha
  let gr := Shape.of q.shb
  let k := q.addr.toNat
  let bm := base + q.line * 256
  let all := List.range (wt.rows * wt.cols)
  let pos (h : Shape) (i : Nat) : Nat := base + h.byte 2 (i / wt.cols) (i % wt.cols)
  let val (h : Shape) (i : Nat) : FVal := Fmt.bf16.decode (s.peekNat (pos h i) 2)
  let alive := all.filter (s.bitAt bm)
  let dead := all.filter (fun i => !s.bitAt bm i)
  let key (i : Nat) : FVal := match q.kind with
    | .spsal => FVal.mul (val wt i) (val gr i)
    | _ => val wt i
  let drop := firstBy magLess k (alive.map (fun i => (i, key i)))
  let grow := firstBy (fun a b => magLess b a) k (dead.map (fun i => (i, val gr i)))
  let flip (s : State) (i : Nat) : State := s.pokeNat (bm + i / 8) 1 ((s.peekNat (bm + i / 8) 1) ^^^ 2 ^ (i % 8))
  let s := (drop ++ grow).foldl (fun (s : State) i => flip (s.pokeNat (pos wt i) 2 0) i) s
  let s := s.pokeNat (base + q.n) 4 ((s.counter (base + q.n)).2.1 + 1)
  s.pokeNat (base + q.n + 8) 4 (alive.length - drop.length + grow.length)

/-! ### The sequencer (R185, R208) -/

/-- The tile that an operation works on is its course's own (R188). -/
def State.inPlace (s : State) (bent cid op : Nat) : Bool :=
  match s.matOf op with
  | some (_, _, _, m) => !m.kind.onTile || s.ownTile cid (8 * bent + m.tile)
  | none => false

/-- The source of a wbld that waited behind a tfence is translated and locked (R160, R196). -/
def State.lockWbld (s : State) (op : Nat) (c : Course) (m : Mat) : State :=
  if m.kind ≠ .wbld ∨ !(s.ownRanges op).isEmpty then s else
  match s.rowPieces c m.addr 1 (512 * m.n) 0 false with
  | .ok l => s.lockRanges op false (lockPieces false l.flatten)
  | .error _ => s

/-- The head of a queue may be served: its tile is its course's own, and a wbld waits for a tfence before it. -/
def State.headReady (s : State) (bent cid op : Nat) : Bool :=
  s.inPlace bent cid op && (match s.matOf op with
    | some (_, _, _, m) => m.kind != .wbld || s.courseReady cid op
    | none => false)

/-- MATRIX_QUEUE_SERVE (R185): the next queue in round-robin order whose head may be served; a wbld clears P on its lines. -/
def execMatrixQueueServe (bent : Nat) (s : State) : Answer :=
  let b := s.bent bent
  let idle := match b.cur with
    | none => true
    | some op => s.mayLeave bent op
  if !idle || !s.bentOn bent || !s.up then .next s else
  let cand := (List.range 64).findSome? (fun i =>
    let q := (b.last + 1 + i) % 64
    match s.queueCourse bent q with
    | some (h, c) => if s.awake h c then (c.mq.head?.filter (s.headReady bent h)).map (fun op => (q, op)) else none
    | none => none)
  match cand with
  | none => .next { s with bents := s.bents.put bent { b with cur := none, todo := [], done := false } }
  | some (q, op) =>
    match s.matOf op with
    | none => .next s
    | some (_, _, c, m) =>
      let lines := match m.kind with
        | .wbld => (List.range m.n).map (fun i => (s.weightWindow c).1 + m.line + i)
        | _ => []
      let gone := lines.flatMap (fun j => [weightBase (2 * bent) / 256 + j, weightBase (2 * bent + 1) / 256 + j])
      .next ((State.setAbsent { s with bents := s.bents.put bent { last := q, cur := some op, todo := lines, done := false } } gone).lockWbld op c m)

/-- An operation ends: it leaves its queue, its flag falls, the bent is free, a drained tile is FREE. -/
def State.endMat (s : State) (bent op cid : Nat) : State :=
  let b := s.bent bent
  let s := { s with bents := s.bents.put bent { b with cur := none, todo := [], done := false } }
  let s := s.modCourse cid (fun c => { c with mq := c.mq.filter (· ≠ op) })
  ((s.unlock op).finishOp op).drainTiles cid

/-- The address that names a poisoned unit of a core scratchpad window, a line of the weight window by its byte offset, or no
address for a tile (R298, R305). -/
def State.matRef (s : State) (c : Course) (u : Nat) : Nat :=
  let w := s.coreWindow c
  if weightBase 0 ≤ u then (if u < imemBase 0 0 then u - weightBase (bits u 18 7) - (s.weightWindow c).1 * 256 else 0)
  else 2 * 2 ^ 60 + c.core * 2 ^ 52 + (u - w.1)

/-- An operation meets uncorrectable data (R203, R305): it stops, and POISON is raised at its path's next run start. -/
def State.poisonMat (s : State) (bent op cid : Nat) (o : Op) (tile : Option Nat) (u : Nat) : State :=
  let s := match tile with
    | some k => s.setTile k { s.tile k with act := false }
    | none => s
  (s.lateTrap op o (Trap.poison 0xFF u)).endMat bent op cid

/-- A sparse operation forms its live list, once the bitmaps are present and free (R202, R203). -/
def State.formStep (s : State) (bent op : Nat) (o : Op) (cid : Nat) (c : Course) (m : Mat) : State :=
  let l := s.bitmapReads c m
  if !s.allPresent l || !s.engineReady op o (l.filter (fun r => r.1 < weightBase 0)) [] then s else
  match s.poisonedAll l with
  | some u => s.poisonMat bent op cid o (some (8 * bent + m.tile)) (s.matRef c u)
  | none => s.setOp op (.mat { m with sparse := some (s.formSparse c m) })

/-- A step of mma, mmq or mmsp. -/
def State.mulStep (s : State) (bent op : Nat) (o : Op) (cid : Nat) (c : Course) (m : Mat) (a b : Ty) (kstep : Nat) : State :=
  let k := 8 * bent + m.tile
  let t := s.tile k
  let steps := stepsOf kstep m.ks.length
  let st := if t.act then t.step else 0
  let sz := Ty.bytes m.kind.tileTy
  let rows := (Shape.of m.sha).rows
  let fresh := !t.act && m.mods.getLsbD 0
  let reads := if st < steps then s.stepReads c m a b (stepKs kstep m.ks st) else []
  let own := if st < steps && !fresh then [(tileBase bent m.tile, sz * 192 * rows)] else []
  if !s.allPresent reads || !s.engineReady op o (reads.filter (fun r => r.1 < weightBase 0)) [] then s else
  match s.poisonedAll (reads ++ own) with
  | some u => s.poisonMat bent op cid o (some k) (s.matRef c u)
  | none =>
    let s := if fresh then s.zeroRows k sz rows else s
    let r := if st < steps then s.takeStep c m a b kstep st m.ks else (s, 0)
    let n := if st < steps then st + 1 else st
    let s := r.1.setTile k { t with mst := t.mst ||| r.2, step := n, act := decide (n < steps) }
    if n < steps then s else { s with bents := s.bents.put bent { s.bent bent with done := true } }

/-- A whole transfer, zeroing or sparsity step. -/
def State.wholeStep (s : State) (bent op : Nat) (o : Op) (cid : Nat) (c : Course) (m : Mat) : State :=
  let k := 8 * bent + m.tile
  let fin (s : State) : State := { s with bents := s.bents.put bent { s.bent bent with done := true } }
  let tile : Nat × Nat := (tileBase bent m.tile, tileBytes)
  match m.kind with
  | .mzero =>
    fin ((s.poke tile.1 (List.replicate tileBytes 0)).setTile k { s.tile k with act := false, step := 0 })
  | .mld t =>
    (match s.rowPieces c m.addr (xferRows t).1 (xferRows t).2 m.n false with
     | .error _ => s
     | .ok rows =>
       let flat := rows.flatten
       if !s.engineReady op o flat [] || !s.allPresent flat then s else
       match (rows.zipIdx.findSome? (fun r => s.poisonedRun (m.addr.toNat + r.2 * m.n) r.1)) with
       | some u => s.poisonMat bent op cid o none u
       | none => fin (s.loadRows k t m.kind.tileTy rows))
  | .mstr t =>
    (match s.rowPieces c m.addr (xferRows t).1 (xferRows t).2 m.n true with
     | .error _ => s
     | .ok rows =>
       if !s.engineReady op o [] rows.flatten then s else
       match s.poisonedAll [tile] with
       | some _ => s.poisonMat bent op cid o none 0
       | none =>
         let r := s.storeRows k t m.kind.tileTy rows
         fin (r.1.setTile k { s.tile k with mst := (s.tile k).mst ||| (if r.2 then mstSat else 0) }))
  | _ =>
    let win := s.coreWindow c
    let wt := Shape.of m.sha
    let gr := Shape.of m.shb
    let all := [(win.1 + m.n, 64), (win.1 + m.line * 256, (wt.rows * wt.cols + 7) / 8),
                (win.1 + wt.byte 2 0 0, wt.stop 2 - wt.byte 2 0 0), (win.1 + gr.byte 2 0 0, gr.stop 2 - gr.byte 2 0 0)]
    if !s.engineReady op o all all || !s.allPresent all then s else
    match s.poisonedAll all with
    | some u => s.poisonMat bent op cid o none (s.matRef c u)
    | none => fin (s.dropGrow c m)

/-- MATRIX_STEP (R199): the entry in progress takes one step, a sparse one first forming its live list (R202); a halted course's entry only runs on to the end of a group. -/
def execMatrixStep (bent : Nat) (s : State) : Answer :=
  let b := s.bent bent
  match b.cur with
  | none => .next s
  | some op =>
    match s.matOf op with
    | none => .next s
    | some (o, cid, c, m) =>
      if b.done || s.mayLeave bent op || (s.courseLive c && !s.awake cid c) || !s.inPlace bent cid op then .next s else
      match m.kind, m.kind.formats with
      | .wbld, _ => .next s
      | .mmsp _, some (x, y, kstep) =>
        if m.sparse.isNone then .next (s.formStep bent op o cid c m) else .next (s.mulStep bent op o cid c m x y kstep)
      | _, some (x, y, kstep) => .next (s.mulStep bent op o cid c m x y kstep)
      | _, none => .next (s.wholeStep bent op o cid c m)

/-- MATRIX_OP_COMPLETE (R199, R189). -/
def execMatrixOpComplete (bent : Nat) (s : State) : Answer :=
  let b := s.bent bent
  match b.cur with
  | none => .next s
  | some op =>
    match s.matOf op with
    | none => .next s
    | some (_, cid, _, _) => if b.done then .next (s.endMat bent op cid) else .next s

/-- WBLD_LINE_ARRIVAL (R196): line j of both weight buffers takes its source bytes, Z follows and P is set; the last line ends the
load. -/
def execWbldLineArrival (bent j : Nat) (s : State) : Answer :=
  let b := s.bent bent
  match b.cur with
  | none => .next s
  | some op =>
    match s.matOf op with
    | none => .next s
    | some (o, cid, c, m) =>
      if !b.todo.contains j then .next s else
      let i := j - ((s.weightWindow c).1 + m.line)
      let src (k : Nat) : Except Trap (List (Nat × Nat)) :=
        (s.rowPieces c (m.addr + BitVec.ofNat 64 (256 * k)) 1 256 0 false).map (·.flatten)
      match src i, src (m.n + i) with
      | .ok l, .ok r =>
        if !s.engineReady op o (l ++ r) [] || !s.allPresent (l ++ r) then .next s else
        let put (s : State) (half : Nat) (p : List (Nat × Nat)) : State :=
          s.pokeFrom (weightBase (2 * bent + half) + j * 256) (s.peekAll p) (s.poisonedAll p).isSome
        let s := (put (put s 0 l) 1 r).setPresent [weightBase (2 * bent) / 256 + j, weightBase (2 * bent + 1) / 256 + j]
        let todo := b.todo.filter (· ≠ j)
        let s := { s with bents := s.bents.put bent { b with todo := todo } }
        if todo.isEmpty then .next (s.endMat bent op cid) else .next s
      | _, _ => .next s

end Sys2Proof.Machine
end

