-- ==== Sys2Proof/Machine/Fetch.lean ====
section
/-!
DEFINITION. The fetch unit and its bindings (R209 to R213), copy engines (R214, R215) and overlay loading (R216).
-/

namespace Sys2Proof.Machine

/-! ### Handle descriptors (R209) -/

/-- A handle descriptor: the fields of R209. -/
structure FDesc where
  base : Word
  ea : Bool
  layout : Nat
  ty : Ty
  oob : Nat
  res : Nat
  gsz : Nat
  /-- extents of the dimensions in use, and the strides of dimensions 1 on -/
  dims : List Nat
  strides : List Nat
  aux : Word
  deriving DecidableEq, Repr

/-- NV12 or P010. -/
def FDesc.planar (d : FDesc) : Bool := decide (3 ≤ d.layout)

/-- Bytes of an element as R209 aligns it: a code of a group counts as one byte. -/
def FDesc.unit (d : FDesc) : Nat :=
  if d.layout = 4 then 2 else if d.layout = 3 ∨ d.layout = 2 then 1 else Ty.size d.ty

/-- The type in which a value is written (R212). -/
def FDesc.valueTy (d : FDesc) : Ty := if d.planar then .n64 else if d.layout = 2 then .f32 else d.ty

/-- Codes per group record. -/
def FDesc.group (d : FDesc) : Nat := 16 * 2 ^ d.gsz

/-- The fields of a descriptor's words, as they stand. -/
def FDesc.parse (w : List Word) : FDesc :=
  let w1 := wordAt w 1
  let nd := bits w1 53 2 + 1
  { base := w.getD 0 0, ea := nbit w1 63, layout := bits w1 60 3,
    ty := (Ty.ofCode (BitVec.ofNat 5 (bits w1 55 5))).getD .n8,
    oob := bits w1 51 2, res := bits w1 49 2, gsz := bits w1 47 2,
    dims := (List.range nd).map (fun i => bits (wordAt w 2) (16 * i) 16),
    strides := (List.range (nd - 1)).map (fun i => bits (wordAt w (3 + i)) 0 48),
    aux := w.getD 6 0 }

/-- Whether a descriptor is valid (R209). -/
def FDesc.valid (w : List Word) : Bool :=
  let d := FDesc.parse w
  let w1 := wordAt w 1
  let tc := bits w1 55 5
  let nd := d.dims.length
  decide (d.layout ≤ 4) &&
  (if d.layout ≤ 1 then decide (tc ≤ 0x0F) else if d.layout = 2 then decide (tc = 0x10 ∨ tc = 0x11) else decide (tc = 0)) &&
  d.oob != 3 && d.res != 3 &&
  (if d.layout = 2 then d.gsz != 0 else d.gsz == 0) &&
  bits w1 0 47 == 0 &&
  d.dims.all (fun n => n != 0) && bits (wordAt w 2) (16 * nd) 64 == 0 &&
  (List.range 3).all (fun i => bits (wordAt w (3 + i)) 48 16 == 0 && (decide (i + 1 < nd) || bits (wordAt w (3 + i)) 0 48 == 0)) &&
  wordAt w 7 == 0 &&
  !(d.res == 2 && nd == 1) &&
  (!d.planar || nd == 2 || nd == 3) &&
  (d.ea || (bits d.base.toNat 60 4 == 0 && d.base.toNat % d.unit == 0)) &&
  d.strides.all (fun k => k % d.unit == 0) &&
  (if d.layout = 0 then d.aux == 0 else d.aux.toNat % d.unit == 0)

/-- Bytes that the coordinates beyond the first add. -/
def FDesc.rowOff (d : FDesc) (x : List Nat) : Nat :=
  ((x.drop 1).zip d.strides).foldl (fun n e => n + e.1 * e.2) 0

/-- The row index ρ of R210. -/
def FDesc.rowIndex (d : FDesc) (x : List Nat) : Nat :=
  ((x.drop 1).zip (d.dims.drop 1)).reverse.foldl (fun n e => e.1 + e.2 * n) 0

/-- Byte offset of the element at the given coordinates (R210). -/
def FDesc.off (d : FDesc) (x : List Nat) : Nat :=
  let x0 := x.headD 0
  (if d.layout = 2 && d.ty == .q4g then x0 / 2 else x0 * d.unit) + d.rowOff x

/-- Extents of a plane: 0 the elements, 1 and 2 the chroma samples (R211). -/
def FDesc.planeDims (d : FDesc) (plane : Nat) : List Nat :=
  if plane = 0 then d.dims else d.dims.zipIdx.map (fun e => if e.2 < 2 then (e.1 + 1) / 2 else e.1)

/-- Bytes from BASE to the end of the highest element, and from AUX to its end (R212). -/
def FDesc.spans (d : FDesc) : Nat × Nat :=
  let top (l : List Nat) : List Nat := l.map (fun n => n - 1)
  let rows := (d.dims.drop 1).foldl (fun n k => n * k) 1
  let dim0 := d.dims.headD 1
  (d.off (top d.dims) + d.unit,
   if d.layout = 1 then rows * ((dim0 + 63) / 64) * 8
   else if d.layout = 2 then rows * ((dim0 + d.group - 1) / d.group) * 4
   else if d.planar then
     let x := top (d.planeDims 1)
     2 * d.unit * (x.headD 0 + 1) + d.rowOff x
   else 0)

/-! ### Reading through a binding (R210, R211, R213) -/

/-- Place of a trap in the order of R132. -/
def Trap.order (t : Trap) : Nat :=
  if t.cls = 0x06 then (if t.sub = Sub.canon ∨ t.sub = Sub.bound then 2 else if t.sub = Sub.scr then 3 else if t.sub = Sub.space then 4 else 5)
  else if t.cls = 0x07 then 6 else if t.cls = 0x0C then 7 else if t.cls = 0x05 then 8 else 5

/-- Where each of pieces that follow one another begins. -/
def offsets : List (Nat × Nat) → List Nat
  | [] => []
  | p :: t => 0 :: (offsets t).map (fun o => p.2 + o)

/-- Physical pieces of n bytes at an offset from BASE or AUX, checked as a read of R132, orders 2 and 4 to 7; order 8 too where locks is set. -/
def State.fetchSpan (s : State) (cid : Nat) (c : Course) (d : FDesc) (locks aux : Bool) (off n lane : Nat) :
    Except Trap (List (Nat × Nat × Nat)) := do
  let o := (if aux then d.aux.toNat else 0) + off
  let l ← if d.ea then do
      let e ← s.openArray c.core c.ctx d.base lane
      (List.range n).mapM (fun i =>
        let r := (o + i) / 2 ^ e.esz
        if e.len ≤ r then .error (Trap.peg 1 lane r) else do
        match ← s.elemGpa c.core c.ctx (handleArray d.base) e r with
        | none => .error (Trap.peg 1 lane r)
        | some gpa => do
          let gpa := gpa + (o + i) % 2 ^ e.esz
          let pa ← s.gpaAt c.core c.ctx gpa false
          pure ((pa, 1, gpa), r))
    else do
      let va := (if aux then d.aux.toNat else d.base.toNat) + off
      let l ← s.pagedRange c va n false lane
      pure ((l.zip (offsets l)).map (fun p => ((p.1.1, p.1.2, va + p.2), va + p.2)))
  match (if locks then l.findSome? (fun p => (s.lockAt s.nextId p.1.1 p.1.2.1 false).map (fun e => (e, p.2))) else none) with
  | some (e, at_) => .error (Trap.rlock e.1 e.2 cid lane at_)
  | none => .ok (l.map (·.1))

/-- A value read through a binding: its pattern, and the physical pieces it came from with the address that names each. -/
abbrev Fetched := Nat × List (Nat × Nat × Nat)

/-- n bytes read as a number. -/
def State.fetchNat (s : State) (cid : Nat) (c : Course) (d : FDesc) (locks aux : Bool) (off n lane : Nat) : Except Trap Fetched := do
  let l ← s.fetchSpan cid c d locks aux off n lane
  .ok (leNat (s.peekAll (l.map (fun p => (p.1, p.2.1)))), l)

/-- The element of a plane at coordinates within range (R210). -/
def State.fetchElem (s : State) (cid : Nat) (c : Course) (d : FDesc) (locks : Bool) (plane lane : Nat) (x : List Nat) : Except Trap Fetched :=
  let x0 := x.headD 0
  let dim0 := d.dims.headD 1
  if d.planar then do
    let r ← if plane = 0 then s.fetchNat cid c d locks false (d.off x) d.unit lane
      else s.fetchNat cid c d locks true (2 * d.unit * x0 + d.unit * (plane - 1) + d.rowOff x) d.unit lane
    .ok (if d.layout = 4 then bits r.1 6 10 else r.1, r.2)
  else if d.layout = 1 then do
    let b := x0 / 64
    let m ← s.fetchNat cid c d locks true (8 * (d.rowIndex x * ((dim0 + 63) / 64) + b)) 8 lane
    let j := x0 % 64
    if !nbit m.1 j then .ok (0, m.2) else
    let below := ((List.range j).filter (fun i => nbit m.1 i)).length
    let v ← s.fetchNat cid c d locks false (d.off ((64 * b + below) :: x.drop 1)) d.unit lane
    .ok (v.1, m.2 ++ v.2)
  else if d.layout = 2 then do
    let q ← s.fetchNat cid c d locks false (d.off x) 1 lane
    let r ← s.fetchNat cid c d locks true (4 * (d.rowIndex x * ((dim0 + d.group - 1) / d.group) + x0 / d.group)) 4 lane
    let code := if d.ty = .q4g then bits q.1 (4 * (x0 % 2)) 4 else q.1
    .ok ((groupVal (bits r.1 0 16) code (bits r.1 16 8)).encode .f32 .rn, q.2 ++ r.2)
  else s.fetchNat cid c d locks false (d.off x) d.unit lane

/-- Coordinates brought into range, none where an index out of range reads 0 (R211). -/
def FDesc.clip (d : FDesc) (dims : List Nat) (lane : Nat) (idx : List Int) : Except Trap (Option (List Nat)) :=
  let l := idx.zip dims
  if l.all (fun e => decide (0 ≤ e.1) && decide (e.1 < e.2)) then .ok (some (idx.map Int.toNat))
  else if d.oob = 0 then .ok none
  else if d.oob = 1 then .ok (some (l.map (fun e => min e.1.toNat (e.2 - 1))))
  else .error (Trap.page Sub.bound lane 0 0)

/-- The taps of coordinates in 65,536ths of weight (R211). -/
def FDesc.taps (d : FDesc) (c : List Int) : List (List Int × Nat) :=
  if d.res = 0 then [(c, 65536)]
  else if d.res = 1 then [(c.zipIdx.map (fun e => if e.2 < 2 then (e.1 + 128) / 256 else e.1), 65536)]
  else
    let cx := c.getD 0 0
    let cy := c.getD 1 0
    let i := cx / 256
    let j := cy / 256
    let fx := (cx % 256).toNat
    let fy := (cy % 256).toNat
    let rest := c.drop 2
    [(i :: j :: rest, (256 - fx) * (256 - fy)), ((i + 1) :: j :: rest, fx * (256 - fy)),
     (i :: (j + 1) :: rest, (256 - fx) * fy), ((i + 1) :: (j + 1) :: rest, fx * fy)].filter (fun t => t.2 != 0)

/-- The value of bilinear taps (R211): patterns of type t with their weights. -/
def blend (t : Ty) (l : List (Nat × Nat)) : Nat :=
  match t.fmt? with
  | some f =>
    let term (e : Nat × Nat) : FVal := FVal.mul (f.decode e.1) (.fin false e.2 (-16))
    (match l with
     | [] => FVal.fin false 0 0
     | e :: t => t.foldl (fun (a : FVal) e => FVal.add .rn a (term e)) (term e)).encode f .rn
  | none => wrap t.bits ((l.foldl (fun (a : Int) e => a + t.val e.1 * e.2) 0 + 32768) / 65536)

/-- The type of a plane's samples. -/
def FDesc.tapTy (d : FDesc) : Ty := if d.planar then .n16 else d.valueTy

/-- The value of a plane at coordinates (R211). -/
def State.fetchPlane (s : State) (cid : Nat) (c : Course) (d : FDesc) (locks : Bool) (plane lane : Nat) (co : List Int) : Except Trap Fetched := do
  let l ← (d.taps co).mapM (fun t => do
    match ← d.clip (d.planeDims plane) lane t.1 with
    | none => pure ((0, t.2), [])
    | some x => do
      let r ← s.fetchElem cid c d locks plane lane x
      pure ((r.1, t.2), r.2))
  let v := if d.res = 2 then blend d.tapTy (l.map (·.1)) else (l.map (·.1.1)).headD 0
  .ok (v, l.flatMap (·.2))

/-- The value that a lane fetches (R210 to R212); an integer index out of range is that of the whole element, chroma included. -/
def State.fetchLane (s : State) (cid : Nat) (c : Course) (d : FDesc) (locks : Bool) (lane : Nat) (co : List Nat) : Except Trap Fetched := do
  let xs := co.map (fun n => toInt 32 n)
  if !d.planar then s.fetchPlane cid c d locks 0 lane xs else
  if d.res = 0 && d.oob = 0 && !(xs.zip d.dims).all (fun e => decide (0 ≤ e.1) && decide (e.1 < e.2)) then .ok (0, []) else
  let half := xs.zipIdx.map (fun e => if e.2 < 2 then e.1 / 2 else e.1)
  let y ← s.fetchPlane cid c d locks 0 lane xs
  let u ← s.fetchPlane cid c d locks 1 lane half
  let v ← s.fetchPlane cid c d locks 2 lane half
  .ok (y.1 + u.1 * 2 ^ 16 + v.1 * 2 ^ 32, y.2 ++ u.2 ++ v.2)

/-- The first failing lane: the smallest place in the order of R132, the lowest lane among equals. -/
def firstTrap {α : Type} : List (Except Trap α) → Option Trap
  | [] => none
  | .ok _ :: t => firstTrap t
  | .error e :: t =>
    match firstTrap t with
    | some f => if f.order < e.order then some f else some e
    | none => some e

/-! ### fbind, fetch, funbind (R212, R213) -/

/-- Joins pieces that touch. -/
def joinPieces : List (Nat × Nat) → List (Nat × Nat)
  | [] => []
  | p :: t =>
    match joinPieces t with
    | q :: r => if p.1 + p.2 = q.1 then (p.1, p.2 + q.2) :: r else p :: q :: r
    | [] => [p]

/-- The one range from the lowest to the highest byte of pieces (R163, R212, log entry 114). -/
def wholeSpan (l : List (Nat × Nat)) : List (Nat × Nat) :=
  match l with
  | [] => []
  | p :: t =>
    let lo := t.foldl (fun a q => min a q.1) p.1
    [(lo, t.foldl (fun a q => max a (q.1 + q.2)) (p.1 + p.2) - lo)]

/-- The extent of a binding: one physical range, or the whole array (R212); PAGE, PRIVHW and RLOCK as R333 orders them. -/
def State.extent (s : State) (cid : Nat) (c : Course) (d : FDesc) : Except Trap (List (Nat × Nat)) :=
  if d.ea then do
    let _ ← s.openArray c.core c.ctx d.base 0xFF
    .ok [(arrayKey c.ctx (handleArray d.base), 256)]
  else
    let n := d.spans
    let a := s.pagedRange c d.base.toNat n.1 false 0xFF
    let b := if n.2 = 0 then .ok [] else s.pagedRange c d.aux.toNat n.2 false 0xFF
    match a, b with
    | .ok x, .ok y =>
      match s.lockedTrap cid d.base.toNat false (x ++ y) with
      | some t => .error t
      | none => .ok (wholeSpan (x ++ y))
    | .error t, .ok _ => .error t
    | .ok _, .error u => .error u
    | .error t, .error u => .error (if u.order < t.order then u else t)

/-- Releases a slot's binding as by funbind. -/
def State.unbind (s : State) (env : Env) (slot : Nat) : State :=
  match env.co.binds.find slot with
  | none => s
  | some b =>
    (s.modCourse env.cid (fun c => { c with binds := c.binds.del slot })).addSilent env (.funbind b.op)

/-- FBIND (R212, R333). -/
def fbindBody (x : Args) (env : Env) (s : State) : Res :=
  if env.acting x = 0 then .ok (s.addOp env x .nothing) else
  let va := (env.co.scalar x.a.num).toNat
  if va % 64 ≠ 0 then .trap (Trap.align 0xFF va) else
  awaitBlock va 64 env s (
    match s.pagedRead env.co va 64 0xFF with
    | .error t => .trap t
    | .ok l =>
      let n := leNat (s.peekAll l)
      let words := (List.range 8).map (fun i => BitVec.ofNat 64 (bits n (64 * i) 64))
      if !FDesc.valid words then .trap Trap.field else
      match s.extent env.cid env.co (FDesc.parse words) with
      | .error t => .trap t
      | .ok ps =>
        let slot := x.b.ctl
        let s := s.unbind env slot
        let id := s.nextId
        let s := (s.addOp env x (.fbind slot)).modCourse env.cid (fun c =>
          { c with binds := c.binds.put slot { words := words, op := id, live := false } })
        .ok (s.lockRanges id true (lockPieces false ps)))

/-- FBIND (R212, R333). -/
def execFbind (x : Args) (s : State) : Answer := issue Enc.fbind x (fbindBody x) s

/-- An older operation of any course that may still write the array of a binding. -/
def State.arrayBusy (s : State) (op ctx a : Nat) : Bool :=
  s.ops.any (fun o => decide (o.1 < op) && o.2.ctx == ctx && (match o.2.kind with
    | .mem j => j.array == some a && j.m.writes && !j.todo.isEmpty
    | .ea j => j.o.arrays.contains a && (match j.phase with
        | .accepted | .committed _ _ => true
        | _ => false)
    | _ => false))

/-- FBIND_COMPLETE (R163, R212): the entry is in effect, and the flag falls. -/
def execFbindComplete (op : Nat) (s : State) : Answer :=
  match s.ops.find op with
  | none => .next s
  | some o =>
    match o.kind, o.cid.bind s.courses.find with
    | .fbind slot, some c =>
      let d := match c.binds.find slot with
        | some b => if b.op = op then some (FDesc.parse b.words) else none
        | none => none
      let busy := match d with
        | some d => d.ea && s.arrayBusy op o.ctx (handleArray d.base)
        | none => false
      if busy || !s.engineReady op o (s.ownRanges op) [] then .next s else
      let s := s.modCourse (o.cid.getD 0) (fun c => { c with binds := match c.binds.find slot with
        | some b => if b.op = op then c.binds.put slot { b with live := true } else c.binds
        | none => c.binds })
      .next (s.finishOp op)
    | _, _ => .next s

/-- FETCH (R211 to R213): every lane is checked before any is read; elements of an array are resolved as R175 states. -/
def fetchBody (x : Args) (env : Env) (s : State) : Res :=
  let act := lanesOf (env.acting x)
  if act.isEmpty then .ok (s.addOp env x .nothing) else
  match env.co.binds.find x.b.ctl with
  | none => .trap Trap.field
  | some b =>
    let d := FDesc.parse b.words
    let nd := d.dims.length
    if d.valueTy.wide && x.d.num % 2 == 1 then .trap (Trap.illegal Sub.odd) else
    if 64 < x.a.num + nd then .trap Trap.field else
    match act.find? (s.elemBad env x.a nd) with
    | some l => .trap (Trap.poison l 0)
    | none =>
      if d.ea && s.eaWaits env.co.core env.cid env.co.ctx (handleArray d.base) then .stall s else
      let co := act.map (fun l => (l, (List.range nd).map (fun i => s.vecLane env (x.a.num + i) false l)))
      match firstTrap (co.map (fun e => s.fetchLane env.cid env.co d true e.1 e.2)) with
      | some t => .trap t
      | none => .ok (s.addOp env x (.fetch b.op b.words x.d co))

/-- FETCH (R211 to R213). -/
def execFetch (x : Args) (s : State) : Answer := issue Enc.fetch x (fetchBody x) s

/-- A fetch reads its data under its binding's lock, and its results are written between runs (R43, R212, R213); uncorrectable data give
POISON at the next run start. -/
def State.fetchDone (s : State) (op : Nat) (o : Op) (bind : Nat) (words : List Word) (d : Opnd) (l : List (Nat × List Nat)) :
    State :=
  match o.cid, o.cid.bind s.courses.find with
  | some cid, some c =>
    let f := FDesc.parse words
    let r := l.map (fun e => (e.1, s.fetchLane cid c f false e.1 e.2))
    let got := r.filterMap (fun e => match e.2 with
      | .ok v => some (e.1, v)
      | .error _ => none)
    let reads := got.flatMap (fun e => e.2.2.map (fun p => (p.1, p.2.1)))
    if (s.ops.find bind).isSome || !s.mayLand o || !reads.all (s.rangeFree bind false) || !s.courseReady cid op then s else
    match firstTrap (r.map (·.2)), got.findSome? (fun e =>
        (e.2.2.findSome? (fun p => s.poisonedAs p.2.2 p.1 p.2.1)).map (fun u => (e.1, u))) with
    | some t, _ => (s.lateTrap op o t).finishOp op
    | none, some u => (s.lateTrap op o (Trap.poison u.1 u.2)).finishOp op
    | none, none => (s.putOp o f.valueTy d (got.map (fun e => (e.1, e.2.1)))).finishOp op
  | _, _ => s

/-- FUNBIND (R212): an unbound slot is left as it is. -/
def execFunbind (x : Args) (s : State) : Answer :=
  issue Enc.funbind x (fun env s =>
    if env.acting x = 0 then .ok s
    else if (s.opsOf env.cid).any (fun o => o.2.isQueued) then .ok (s.queueSilent env Enc.funbind x)
    else .ok (s.unbind env x.a.ctl)) s

/-- FUNBIND_RELEASE (R212): once the binding is complete and its fetches have read, the entry goes. -/
def execFunbindRelease (op : Nat) (s : State) : Answer :=
  match s.ops.find op with
  | none => .next s
  | some o =>
    match o.kind with
    | .funbind bind =>
      let reading := s.ops.any (fun p => match p.2.kind with
        | .fetch b _ _ _ => b == bind
        | _ => false)
      if reading || (s.ops.find bind).isSome then .next s else .next ((s.unlock bind).finishOp op)
    | _ => .next s

/-! ### Copies (R214, R215) -/

/-- Bytes from the first to the last byte of a row-wise range. -/
def spanOf (rows len pitch : Nat) : Nat := (rows - 1) * pitch + len

/-- What a copy checks of a range at issue: a scratch range whole, of a paged range its first byte (R214, R215). -/
def State.copyCheck (s : State) (core ctx : Nat) (c : Option Course) (a : Word) (n : Nat) (write : Bool) : Option Trap :=
  if isScratchAddr a then
    match s.scratch ctx a with
    | some (_, left) => if n ≤ left then none else some (Trap.page Sub.scr 0xFF a.toNat 0)
    | none => some (Trap.page Sub.scr 0xFF a.toNat 0)
  else
    match s.translate core ctx a.toNat none write with
    | .error e => some (e.trap 0xFF a.toNat)
    | .ok _ =>
      match c with
      | some c => if c.hwBad a.toNat 1 then some (Trap.privhw 0xFF a.toNat) else none
      | none => none

/-- Physical pieces of one row of a copy, or the fault met there. -/
def State.copyPieces (s : State) (core ctx : Nat) (c : Option Course) (a : Word) (n : Nat) (write : Bool) :
    Except Trap (List (Nat × Nat)) :=
  if isScratchAddr a then
    match s.scratch ctx a with
    | some (pa, left) => if n ≤ left then .ok [(pa, n)] else .error (Trap.page Sub.scr 0xFF a.toNat 0)
    | none => .error (Trap.page Sub.scr 0xFF a.toNat 0)
  else do
    let l ← (pieces (n / 65536 + 2) a.toNat n).mapM (fun p =>
      match s.translate core ctx p.1 none write with
      | .ok r => .ok (r.1, p.2)
      | .error e => .error (e.trap 0xFF p.1))
    match c with
    | some c => if c.hwBad a.toNat n then .error (Trap.privhw 0xFF a.toNat) else .ok l
    | none => .ok l

/-- Pieces of every row, in row order. -/
def State.copyRows (s : State) (core ctx : Nat) (c : Option Course) (a : Word) (rows len pitch : Nat) (write : Bool) :
    Except Trap (List (Nat × Nat)) := do
  let l ← (List.range rows).mapM (fun r => s.copyPieces core ctx c (a + BitVec.ofNat 64 (r * pitch)) len write)
  .ok l.flatten

/-- The physical span of a range for the lock table, as far as it translates (R163). -/
def State.copySpan (s : State) (core ctx : Nat) (a : Word) (n : Nat) (write : Bool) : List (Nat × Nat) :=
  if isScratchAddr a then
    match s.scratch ctx a with
    | some (pa, left) => [(pa, min n left)]
    | none => []
  else
    joinPieces ((pieces (n / 65536 + 2) a.toNat n).filterMap (fun p =>
      match s.translate core ctx p.1 none write with
      | .ok r => some (r.1, p.2)
      | .error _ => none))

/-- Scratch lines that physical pieces touch, by line number. -/
def scratchLinesOf (l : List (Nat × Nat)) : List Nat :=
  (l.flatMap (fun p => if isDram p.1 || p.2 = 0 then [] else
    (List.range ((p.1 + p.2 - 1) / 256 - p.1 / 256 + 1)).map (fun i => p.1 / 256 + i))).eraseDups

/-- The descriptor of a copy (R214). -/
def Copy.ofWords (w : List Word) : Copy :=
  { src := w.getD 0 0, dst := w.getD 1 0, rows := bits (wordAt w 2) 32 16, len := bits (wordAt w 2) 0 32,
    spitch := bits (wordAt w 3) 0 32, dpitch := bits (wordAt w 3) 32 32, sig := w.getD 4 0, free := [], earlier := [] }

/-- ILLEGAL causes of a copy descriptor's fields, and ALIGN of SIGVA (R215, R333). -/
def Copy.check (w : List Word) : Option Trap :=
  let c := Copy.ofWords w
  if c.rows = 0 ∨ c.len = 0 then some Trap.field
  else if bits (wordAt w 2) 48 16 ≠ 0 ∨ wordAt w 5 ≠ 0 ∨ wordAt w 6 ≠ 0 ∨ wordAt w 7 ≠ 0 then some (Trap.illegal Sub.mbz)
  else if c.sig.toNat % 8 ≠ 0 then some (Trap.align 0xFF c.sig.toNat)
  else none

/-- The first trap of a copy's two ranges: the earlier check of R132, the destination before the source. -/
def State.copyTrap (s : State) (core ctx : Nat) (co : Option Course) (c : Copy) : Option Trap :=
  let d := s.copyCheck core ctx co c.dst (spanOf c.rows c.len c.dpitch) true
  let a := s.copyCheck core ctx co c.src (spanOf c.rows c.len c.spitch) false
  match d, a with
  | some t, some u => some (if u.order < t.order then u else t)
  | some t, none => some t
  | none, u => u

/-- Starts a copy as operation id, which exists: locks on source and destination, P cleared on destination scratch lines. -/
def State.startCopy (s : State) (id core ctx : Nat) (co : Option Course) (c : Copy) (node : Option (Nat × Nat)) : State :=
  let rows (a : Word) (pitch : Nat) (w : Bool) : List (Nat × Nat) := match s.copyRows core ctx co a c.rows c.len pitch w with
    | .ok l => l
    | .error _ => []
  let src := scratchLinesOf (rows c.src c.spitch false)
  let dst := scratchLinesOf (rows c.dst c.dpitch true)
  let own := src.filter dst.contains
  let c := { c with free := own.filter (fun l => !s.absent.contains l), earlier := own.filter s.absent.contains }
  let s := s.clearLines dst
  (s.setOp id (.cp c false node)).lockRanges id false
    (lockPieces false (s.copySpan core ctx c.src (spanOf c.rows c.len c.spitch) false)
      ++ lockPieces true (s.copySpan core ctx c.dst (spanOf c.rows c.len c.dpitch) true))

/-- Issues a copy. -/
def copyOp (x : Args) (c : Copy) (env : Env) (s : State) : Res :=
  match s.copyTrap env.co.core env.co.ctx (some env.co) c with
  | some t => .trap t
  | none =>
    let id := s.nextId
    .ok ((s.addOp env x (.cp c false none)).startCopy id env.co.core env.co.ctx (some env.co) c none)

/-- CP (R214): one row of n bytes, n read as .n32. -/
def cpBody (x : Args) (env : Env) (s : State) : Res :=
  if env.acting x = 0 then .ok (s.addOp env x .nothing) else
  let n := env.val x .n32 x.b
  if n = 0 then .trap Trap.field else
  copyOp x { src := env.co.scalar x.a.num, dst := env.co.scalar x.d.num, rows := 1, len := n, spitch := 0, dpitch := 0,
             sig := 0, free := [], earlier := [] } env s

/-- CP (R214). -/
def execCp (x : Args) (s : State) : Answer := issue Enc.cp x (cpBody x) s

/-- CP_D (R214, R333). -/
def cpDBody (x : Args) (env : Env) (s : State) : Res :=
  if env.acting x = 0 then .ok (s.addOp env x .nothing) else
  let va := (env.co.scalar x.a.num).toNat
  if va % 64 ≠ 0 then .trap (Trap.align 0xFF va) else
  awaitBlock va 64 env s (
    match s.pagedRead env.co va 64 0xFF with
    | .error t => .trap t
    | .ok l =>
      let n := leNat (s.peekAll l)
      let words := (List.range 8).map (fun i => BitVec.ofNat 64 (bits n (64 * i) 64))
      match Copy.check words with
      | some t => .trap t
      | none => copyOp x (Copy.ofWords words) env s)

/-- CP_D (R214, R333). -/
def execCpD (x : Args) (s : State) : Answer := issue Enc.cpD x (cpDBody x) s

/-- The core whose walker translates for an operation: the course's, or core 0 of the queue walker's die (R243). -/
def State.opCore (s : State) (o : Op) : Nat :=
  match o.cid.bind s.courses.find with
  | some c => c.core
  | none =>
    match o.kind with
    | .cp _ _ (some n) => n.1 % 2 * 48
    | .media q _ _ _ => q % 2 * 48
    | .ea _ => o.path % 2 * 48
    | .storage q _ _ _ _ _ => q % 2 * 48
    | .ovlLd core _ _ _ _ _ => core
    | _ => 0

/-- The operation holds a copy engine of a die. -/
def State.onEngine (s : State) (die : Nat) (o : Op) : Bool :=
  match o.kind with
  | .cp _ true _ => dieOf (s.opCore o) == die
  | _ => false

/-- The queue priority of an operation's node; a course's copy has none. -/
def State.nodePrio (s : State) (o : Op) : Option Nat :=
  match o.kind with
  | .cp _ _ (some n) => (s.queues.find n.1).map (·.prio)
  | .media q _ _ _ => (s.queues.find q).map (·.prio)
  | _ => none

/-- Another waiting copy of the die's queue walkers is to be served before this one (R248). -/
def State.copyBehind (s : State) (op : Nat) (o : Op) : Bool :=
  match s.nodePrio o with
  | none => false
  | some p => s.ops.any (fun q => match q.2.kind with
      | .cp _ false (some _) => dieOf (s.opCore q.2) == dieOf (s.opCore o) && (match s.nodePrio q.2 with
          | some r => decide (p < r) || (decide (p = r) && decide (q.1 < op))
          | none => false)
      | _ => false)

/-- COPY_ENGINE_ACQUIRE (R215, R248). -/
def execCopyEngineAcquire (op : Nat) (s : State) : Answer :=
  match s.ops.find op with
  | none => .next s
  | some o =>
    match o.kind with
    | .cp c false n =>
      let die := dieOf (s.opCore o)
      if Config.copyEngines ≤ (s.ops.filter (fun p => s.onEngine die p.2)).length || s.copyBehind op o then .next s
      else .next (s.setOp op (.cp c true n))
    | _ => .next s

/-- An engine operation ends in a fault: locks go, its flag falls, and the trap stands at its path's next run start or in its node. -/
def State.failOp (s : State) (op : Nat) (o : Op) (t : Trap) : State :=
  let node := match o.kind with
    | .cp _ _ n => n
    | .media q k _ _ => some (q, k)
    | .storage q k _ _ _ _ => some (q, k)
    | _ => none
  (((s.lateTrap op o t).unlock op).finishOp op).nodeEnded node (some t)

/-- Every source line of a copy may be read: present, or one of its own that may be read as it stands (R139, R140, R215). -/
def Copy.linesReady (c : Copy) (s : State) (l : List (Nat × Nat)) : Bool :=
  (scratchLinesOf l).all (fun x => c.free.contains x || (!s.absent.contains x && !c.earlier.contains x))

/-- Decrements the signal object of an engine operation or a retiring kernel (R162, R215, R242). -/
def State.signalDec (s : State) (core ctx : Nat) (sig : Word) : Except Trap State :=
  if sig = 0 then .ok s else
  match s.translate core ctx sig.toNat none true with
  | .error e => .error (e.trap 0xFF sig.toNat)
  | .ok r => .ok (s.pokeNat r.1 8 ((BitVec.ofNat 64 (s.peekNat r.1 8) - 1).toNat))

/-- No entry of another operation forbids the write of a signal object (R165). -/
def State.signalFree (s : State) (op core ctx : Nat) (sig : Word) : Bool :=
  match s.translate core ctx sig.toNat none true with
  | .ok r => sig == 0 || !s.forbids op true r.1 8
  | .error _ => true

/-- CP_COMPLETE (R215): the copy is made, source before destination; P is set, locks go, the flag falls, and the signal is
decremented. -/
def execCpComplete (op : Nat) (s : State) : Answer :=
  match s.ops.find op with
  | none => .next s
  | some o =>
    match o.kind with
    | .cp c true node =>
      let core := s.opCore o
      let co := o.cid.bind s.courses.find
      match s.copyRows core o.ctx co c.src c.rows c.len c.spitch false, s.copyRows core o.ctx co c.dst c.rows c.len c.dpitch true with
      | .ok src, .ok dst =>
        if !c.linesReady s src || !s.engineReady op o src dst || !s.signalFree op core o.ctx c.sig then .next s else
        let s := (s.writeMarked dst (s.readMarked src)).arriveLines op (scratchLinesOf dst)
        (match s.signalDec core o.ctx c.sig with
         | .ok s => .next (((s.unlock op).finishOp op).nodeEnded node none)
         | .error t => .next (s.failOp op o t))
      | _, _ => .next s
    | _ => .next s

/-! ### Overlay loading (R216) -/

/-- Overlay slots of a core that a load of (slot, id) marks: the slot, and others that hold the id for the context (R216). -/
def State.markOvls (s : State) (core ctx slot id op : Nat) : State :=
  { s with ovls := s.ovls.map (fun e =>
      if e.1 = core * 8 + slot ∨ (e.1 / 8 = core ∧ e.1 % 8 ≠ 0 ∧ e.2.id = id ∧ e.2.ctx = ctx) then
        (e.1, { e.2 with mark := e.2.mark ++ [op] }) else e) }

/-- The later loads that mark an overlay which stands in a slot with an id (R216). -/
def State.marksOf (s : State) (core ctx slot id : Nat) : List Nat :=
  (s.ops.filter (fun o => match o.2.kind with
    | .ovlLd k j i _ _ false => k == core && (j == slot || (i == id && o.2.ctx == ctx))
    | _ => false)).map (·.1)

/-- An earlier load of an overlay slot is outstanding: its image comes first. -/
def State.loadsBefore (s : State) (op core slot : Nat) : Bool :=
  s.ops.any (fun o => decide (o.1 < op) && (match o.2.kind with
    | .ovlLd k j _ _ _ _ => k == core && j == slot
    | _ => false))

/-- OVL_LD (R216). -/
def ovlLdBody (x : Args) (env : Env) (s : State) : Res :=
  if env.acting x = 0 then .ok (s.addOp env x .nothing) else
  let d := (env.co.scalar x.d.num).toNat
  let n := env.val x .n32 x.b
  let slot := bits d 16 3
  if slot = 0 ∨ n = 0 ∨ 5461 < n then .trap Trap.field else
  if bits d 19 45 ≠ 0 then .trap (Trap.illegal Sub.mbz) else
  let a := env.co.scalar x.a.num
  if a.toNat % 256 ≠ 0 then .trap (Trap.align 0xFF a.toNat) else
  match s.translate env.co.core env.co.ctx a.toNat none false with
  | .error e => .trap (e.trap 0xFF a.toNat)
  | .ok _ =>
    if env.co.hwBad a.toNat 1 then .trap (Trap.privhw 0xFF a.toNat) else
    let id := s.nextId
    let s := (s.addOp env x (.ovlLd env.co.core slot (bits d 0 16) a.toNat n false)).markOvls env.co.core env.co.ctx slot (bits d 0 16) id
    .ok (s.lockRanges id false (lockPieces false (s.copySpan env.co.core env.co.ctx a (12 * n) false)))

/-- OVL_LD (R216). -/
def execOvlLd (x : Args) (s : State) : Answer := issue Enc.ovlLd x (ovlLdBody x) s

/-- A path of the core is mid-run in an overlay slot. -/
def State.midRun (s : State) (core j : Nat) (v : Ovl) : Bool :=
  s.slots.any (fun k => match k.2.busy with
    | some (cid, p) =>
      (match s.courses.find cid with
       | some c => c.core == core && (j == 0 || c.ctx == v.ctx) && (match c.paths.find p with
           | some q => q.ovl == v.id
           | none => false)
       | none => false)
    | none => false)

/-- Paths that wait for a load of an id go on (R216). -/
def State.wakeOvl (s : State) (core ctx id : Nat) : State :=
  { s with courses := s.courses.map (fun c =>
      if c.2.core = core ∧ c.2.ctx = ctx then
        (c.1, { c.2 with paths := c.2.paths.map (fun p => (p.1, match p.2.wait with
          | .overlay i => if i = id then { p.2 with wait := .nothing } else p.2
          | _ => p.2)) })
      else c) }

/-- OVL_UNLOAD (R216): no path is mid-run in a marked slot, so the old overlays go and the copy begins. -/
def execOvlUnload (op : Nat) (s : State) : Answer :=
  match s.ops.find op with
  | none => .next s
  | some o =>
    match o.kind with
    | .ovlLd core slot id va n false =>
      let mine := s.ovls.filter (fun e => e.2.mark.contains op)
      if s.loadsBefore op core slot || mine.any (fun e => s.midRun core (e.1 % 8) e.2) then .next s else
      .next ({ s with ovls := s.ovls.filter (fun e => !e.2.mark.contains op) }.setOp op (.ovlLd core slot id va n true))
    | _ => .next s

/-- Installs an image in an overlay slot. -/
def State.installOvl (s : State) (core slot id ctx va n : Nat) (data : List Byte) : State :=
  let s := s.poke (imemBase core slot) (data ++ List.replicate (65536 - data.length) 0)
  let o : Ovl := { id := id, ctx := ctx, n := n, image := va, order := s.nextId, loaded := true, mark := s.marksOf core ctx slot id }
  { s with ovls := s.ovls.put (core * 8 + slot) o,
           nextId := s.nextId + 1 }

/-- OVL_LD_COMPLETE (R216, R240, R305): the image is in the slot; poisoned image data end the load. -/
def execOvlLdComplete (op : Nat) (s : State) : Answer :=
  match s.ops.find op with
  | none => .next s
  | some o =>
    match o.kind with
    | .ovlLd core slot id va n true =>
      let co := o.cid.bind s.courses.find
      (match s.copyPieces core o.ctx co (BitVec.ofNat 64 va) (12 * n) false with
       | .error _ => .next s
       | .ok l =>
         if !s.engineReady op o l [] then .next s else
         match s.poisonedRun va l with
         | some u => .next ((s.failOp op o (Trap.poison 0xFF u)).wakeOvl core o.ctx id)
         | none =>
           let s := ((s.unlock op).finishOp op).installOvl core slot id o.ctx va n (s.peekAll l)
           .next (s.wakeOvl core o.ctx id))
    | _ => .next s

/-! ### Faults of engine operations (R147, R196, R215) -/

/-- The fault that an operation's translations meet now, if any. -/
def State.engineFault (s : State) (o : Op) : Option Trap :=
  let core := s.opCore o
  let co := o.cid.bind s.courses.find
  let fault {α : Type} (r : Except Trap α) : Option Trap := match r with
    | .error t => some t
    | .ok _ => none
  match o.kind, co with
  | .cp c true _, _ =>
    (match s.copyRows core o.ctx co c.src c.rows c.len c.spitch false with
     | .error t => some t
     | .ok _ => fault (s.copyRows core o.ctx co c.dst c.rows c.len c.dpitch true))
  | .ovlLd _ _ _ va n true, _ => fault (s.copyPieces core o.ctx co (BitVec.ofNat 64 va) (12 * n) false)
  | .mat m, some c =>
    (match m.kind with
     | .wbld => fault (s.rowPieces c m.addr 1 (512 * m.n) 0 false)
     | .mld t => fault (s.rowPieces c m.addr (xferRows t).1 (xferRows t).2 m.n false)
     | .mstr t => fault (s.rowPieces c m.addr (xferRows t).1 (xferRows t).2 m.n true)
     | _ => none)
  | _, _ => none

/-- The pieces of a row as far as they translate, and whether that is the whole row. -/
def State.leadRow (s : State) (core ctx : Nat) (a : Word) (n : Nat) (write : Bool) : List (Nat × Nat) × Bool :=
  if isScratchAddr a then
    match s.scratch ctx a with
    | some (pa, left) => ([(pa, min n left)], decide (n ≤ left))
    | none => ([], false)
  else
    (pieces (n / 65536 + 2) a.toNat n).foldl (fun (acc : List (Nat × Nat) × Bool) p =>
      if !acc.2 then acc else
      match s.translate core ctx p.1 none write with
      | .ok r => (acc.1 ++ [(r.1, p.2)], true)
      | .error _ => (acc.1, false)) ([], true)

/-- The pieces of a copy's source or destination up to the first byte that does not translate. -/
def State.leadRows (s : State) (core ctx : Nat) (a : Word) (rows len pitch : Nat) (write : Bool) : List (Nat × Nat) :=
  ((List.range rows).foldl (fun (acc : List (Nat × Nat) × Bool) r =>
    if !acc.2 then acc else
    let l := s.leadRow core ctx (a + BitVec.ofNat 64 (r * pitch)) len write
    (acc.1 ++ l.1, l.2)) ([], true)).1

/-- The first k bytes of pieces. -/
def takePieces : Nat → List (Nat × Nat) → List (Nat × Nat)
  | _, [] => []
  | k, p :: l => if k = 0 then [] else (p.1, min k p.2) :: takePieces (k - p.2) l

/-- The pieces of a copy before its fault, source and destination. -/
def State.copyLead (s : State) (core ctx : Nat) (c : Copy) : List (Nat × Nat) × List (Nat × Nat) :=
  (s.leadRows core ctx c.src c.rows c.len c.spitch false, s.leadRows core ctx c.dst c.rows c.len c.dpitch true)

/-- A copy that a fault ends has already written some of the bytes before the fault; how many is a free value (R215). -/
def State.copyBegun (s : State) (core ctx : Nat) (c : Copy) : State :=
  let (src, dst) := s.copyLead core ctx c
  let size (l : List (Nat × Nat)) : Nat := (l.map (·.2)).sum
  let r := s.freeWord
  let k := r.1.toNat % (min (size src) (size dst) + 1)
  r.2.writeMarked (takePieces k dst) (r.2.readMarked (takePieces k src))

/-- ENGINE_FAULT (R147, R196, R215): an operation that has started ends; lines whose data did not arrive are present again, with their old data and what
a copy had already written. -/
def execEngineFault (op : Nat) (s : State) : Answer :=
  match s.ops.find op with
  | none => .next s
  | some o =>
    match s.engineFault o with
    | none => .next s
    | some t =>
      match o.kind, o.cid with
      | .cp c _ _, _ =>
        let core := s.opCore o
        let co := o.cid.bind s.courses.find
        let dst := (List.range c.rows).flatMap (fun r =>
          match s.copyPieces core o.ctx co (c.dst + BitVec.ofNat 64 (r * c.dpitch)) c.len true with
          | .ok l => l
          | .error _ => [])
        let lead := s.copyLead core o.ctx c
        if !c.linesReady s lead.1 || !s.engineReady op o lead.1 lead.2 then .next s else
        .next (((s.copyBegun core o.ctx c).arriveLines op (scratchLinesOf dst)).failOp op o t)
      | .ovlLd k _ id _ _ _, _ => .next ((s.failOp op o t).wakeOvl k o.ctx id)
      | .mat _, some cid =>
        (match s.matOf op with
         | some (_, _, c, _) =>
           let b := bentOf c.core
           if (s.bent b).cur = some op then .next ((((s.dropBent op)).lateTrap op o t).endMat b op cid) else .next s
         | none => .next s)
      | _, _ => .next s

end Sys2Proof.Machine
end

