-- ==== Sys2Proof/Machine/Crews.lean ====
section
/-!
DEFINITION. Crews (R220 to R226): the crew table, joins and leaves at a crew's home, halted members.
-/

namespace Sys2Proof.Machine

/-- An entry of the crew table (R221). -/
structure CrewEnt where
  gen : Nat
  members : Nat
  live : Bool
  hcount : Nat
  /-- cores 0 to 95 -/
  cores : Nat
  deriving DecidableEq, Repr

/-- An entry as 32 bytes. -/
def CrewEnt.pack (e : CrewEnt) : Nat :=
  (e.gen % 2 ^ 32 * 2 ^ 32 + e.members % 2 ^ 18)
    + ((if e.live then 2 ^ 62 else 0) + (if e.hcount = 0 then 0 else 2 ^ 61) + e.hcount % 2 ^ 12) * 2 ^ 64
    + (e.cores % 2 ^ 64) * 2 ^ 128 + (e.cores / 2 ^ 64) % 2 ^ 32 * 2 ^ 192

/-- An entry read from its 32 bytes. -/
def CrewEnt.ofNat (n : Nat) : CrewEnt :=
  { gen := bits n 32 32, members := bits n 0 18, live := bits n 126 2 == 1, hcount := bits n 64 12,
    cores := bits n 128 64 + 2 ^ 64 * bits n 192 32 }

/-- Physical place of a crew's entry, through the translations of a core (R221). -/
def State.crewAt (s : State) (core ctx k : Nat) (write : Bool) : Except Trap Nat :=
  let va := s.ctxWord ctx 6 + 32 * k
  match s.translate core ctx va (some true) write with
  | .error e => .error (e.trap 0xFF va)
  | .ok r => .ok r.1

/-- The entry of a crew, PAGE and POISON being traps for the driver (R224). -/
def State.crewEnt (s : State) (core ctx k : Nat) (write : Bool) : Except Trap CrewEnt := do
  let pa ← s.crewAt core ctx k write
  match s.poisonedAs (s.ctxWord ctx 6 + 32 * k) pa 32 with
  | some u => .error { Trap.poison 0xFF u with stay := true }
  | none => .ok (CrewEnt.ofNat (s.peekNat pa 32))

/-- Changes a crew's entry at its home. -/
def State.modCrew (s : State) (core ctx k : Nat) (f : CrewEnt → CrewEnt) : State :=
  match s.crewAt core ctx k true with
  | .ok pa => s.pokeNat pa 32 (f (CrewEnt.ofNat (s.peekNat pa 32))).pack
  | .error _ => s

/-- Some lane of a course on this core is in crew k. -/
def State.crewOnCore (s : State) (core ctx k : Nat) : Bool :=
  s.courses.any (fun c => c.2.core == core && c.2.ctx == ctx && c.2.crew.any (fun e => e.2 == k))

/-- A course begins or ceases to count as a halted member of crew k (R225). -/
def State.crewCount (s : State) (cid k : Nat) (halt : Bool) : State :=
  match s.courses.find cid with
  | none => s
  | some c => (s.modCrew c.core c.ctx k (fun e => { e with hcount := if halt then e.hcount + 1 else e.hcount - 1 })).modCourse cid
      (fun c => { c with hm := if halt then c.hm ++ [k] else c.hm.filter (· ≠ k) })

/-- Leave of R222. The last lane of a halted course to leave a crew ends its count as a halted member first (R226). -/
def State.crewLeave (s : State) (cid l : Nat) : State :=
  match s.courses.find cid with
  | none => s
  | some c =>
    match c.crew.find l with
    | none => s
    | some k =>
      let s := s.setCourse cid { c with crew := c.crew.del l }
      let s := if c.hm.contains k && !(c.crew.del l).any (fun e => e.2 == k) then s.crewCount cid k false else s
      let here := s.crewOnCore c.core c.ctx k
      s.modCrew c.core c.ctx k (fun e =>
        let m := e.members - 1
        if m = 0 then { e with members := 0, live := false, gen := e.gen + 1, cores := 0 }
        else { e with members := m, cores := if here then e.cores else setBits e.cores c.core 1 0 })

/-- Join of R222. A course halted by a reclaim counts as a halted member of the crew it comes into (R225). -/
def State.crewJoin (s : State) (cid l k : Nat) : State :=
  match s.courses.find cid with
  | none => s
  | some c =>
    if c.crew.find l = some k then s else
    let s := s.crewLeave cid l
    let s := (s.modCrew c.core c.ctx k (fun e => { e with live := true, members := e.members + 1, cores := setBits e.cores c.core 1 1 })).modCourse cid
      (fun c => { c with crew := c.crew.put l k })
    if c.reclaimed.isSome && c.borrowed && !c.hm.contains k then s.crewCount cid k true else s

/-- The crews with a member in a course. -/
def Course.crews (c : Course) : List Nat := (c.crew.map (·.2)).eraseDups

/-- HALTEDMEMBER of a course's crews (R225): raised for each crew with a member in it that does not count it yet, lowered for each that
does. -/
def State.crewHalt (s : State) (cid : Nat) (halt : Bool) : State :=
  match s.courses.find cid with
  | none => s
  | some c => (if halt then c.crews.filter (fun k => !c.hm.contains k) else c.hm).foldl (fun s k => s.crewCount cid k halt) s

/-- Every entry becomes EMPTY when its context ends (R223, R226). -/
def State.endCrews (s : State) (ctx : Nat) : State :=
  (List.range 65535).foldl (fun s k => s.modCrew 0 ctx k (fun e =>
    { e with members := 0, hcount := 0, cores := 0, live := false, gen := if e.live then e.gen + 1 else e.gen })) s

/-- The trap of the entries that an instruction's lanes will change (R224): PAGE before POISON, of the lowest lane (R298). -/
def State.crewCheck (s : State) (c : Course) (l : List (Nat × Option Nat)) : Option Trap :=
  let bad := l.flatMap (fun e => (e.2.toList ++ (c.crew.find e.1).toList).filterMap (fun k =>
    match s.crewEnt c.core c.ctx k true with
    | .error t => some (t.onLane e.1)
    | .ok _ => none))
  (bad.find? (fun t => t.cls == 0x06)).or bad.head?

/-- Starts a crew operation on lanes. -/
def crewOp (x : Args) (l : List (Nat × Option Nat)) (env : Env) (s : State) : Res :=
  match s.crewCheck env.co l with
  | some t => .trap t
  | none => .ok (s.addOp env x (.crew l false))

/-- CREW_JOIN (R222, R224). -/
def execCrewJoin (x : Args) (s : State) : Answer :=
  issue Enc.crewJoin x (fun env s =>
    let l := (lanesOf (env.acting x)).map (fun l => (l, s.lane env x .n32 x.a l))
    match l.find? (fun e => decide (0xFFFF ≤ e.2)) with
    | some e => .trap (Trap.field.onLane e.1)
    | none => crewOp x (l.map (fun e => (e.1, some e.2))) env s) s

/-- CREW_LEAVE (R222). -/
def execCrewLeave (x : Args) (s : State) : Answer :=
  issue Enc.crewLeave x (fun env s => crewOp x ((lanesOf (env.acting x)).map (fun l => (l, none))) env s) s

/-- CREW_INFO (R222, R224): a word of the entry as it stands; 0 for a lane in no crew. -/
def execCrewInfo (x : Args) (s : State) : Answer :=
  issue Enc.crewInfo x (fun env s =>
    let act := env.acting x
    if act = 0 then .ok s else
    let c := env.val x .n32 x.a
    if 0xFFFF ≤ c ∧ c < 0xFFFFFFFF then .trap Trap.field else
    let k := if c = 0xFFFFFFFF then env.co.crewRd.find (lowLane act) else some c
    match k with
    | none => .ok (s.putScalar env x.d 0)
    | some k =>
      match s.crewEnt env.co.core env.co.ctx k false with
      | .error t => .trap t
      | .ok e => .ok (s.putScalar env x.d (bits e.pack (64 * x.b.ctl) 64))) s

/-- CREW_EVENT_APPLY (R221, R222): the lanes of a join or leave are applied in ascending order, after earlier crew operations of the
course; %crew follows at the start of its next run (R43). An entry that has come to fail is reported to the driver, and the event waits
until it has been resolved (R224). -/
def execCrewEventApply (op : Nat) (s : State) : Answer :=
  match s.ops.find op with
  | none => .next s
  | some o =>
    match o.kind, o.cid.bind s.courses.find with
    | .crew todo told, some c =>
      let cid := o.cid.getD 0
      if (s.older cid op).any (·.isCrew) then .next s else
      match s.crewCheck c todo with
      | some t =>
        if told then .next s else
        .next ((s.setOp op (.crew todo true)).notify (s.partOf c.ctx)
          { stamp := s.time.ns, ctx := c.ctx, src := courseSource c.core c.cslot o.path, cls := t.cls, sub := t.sub })
      | none =>
      let s := todo.foldl (fun s e => match e.2 with
        | some k => s.crewJoin cid e.1 k
        | none => s.crewLeave cid e.1) s
      .next (s.finishOp op)
    | _, _ => .next s

end Sys2Proof.Machine
end

