-- ==== Sys2Proof/Machine/Barriers.lean ====
section
/-!
DEFINITION. Barriers (R227 to R234): arrivals and phases at a barrier's home, waits, and the images of halted owners.
-/

namespace Sys2Proof.Machine

/-! ### Barriers and their participants (R227, R228) -/

/-- Key of a barrier number on a core: core · 16 + n for a local barrier, 1,536 + g for a route tag (R227, R280). -/
def barKey (core b : Nat) : Nat := if b < 16 then core * 16 + b else 1536 + (b - 16)

/-- The barrier number of a key. -/
def barNumber (key : Nat) : Nat := if key < 1536 then key % 16 else key - 1536 + 16

/-- Release latency (R227). -/
def barLatency (b : Nat) : Nat := if b < 16 then 4 else 160

/-- The partition grants the barrier number (R227, R273). -/
def State.barGranted (s : State) (ctx b : Nat) : Bool :=
  let w := s.partWord (s.partOf ctx) 6
  if b < 16 then nbit w (48 + b) else decide (b < 24) && nbit w (40 + (b - 16))

/-- The barrier as it stands at its home, if it is bound to the context. -/
def State.ownBar (s : State) (ctx key : Nat) : Option Barrier :=
  match s.barriers.find key with
  | some r => if r.bound && r.ctx == ctx then some r else none
  | none => none

/-- A course may take part in a barrier: of its context and, for a local barrier, on its core. -/
def Course.atBar (c : Course) (ctx key : Nat) : Bool := c.ctx == ctx && (decide (1536 ≤ key) || c.core == key / 16)

/-- Changes every course that may take part in a barrier; one whose slot has been claimed, in its record too (R280). -/
def State.barCourses (s : State) (ctx key : Nat) (f : Nat → Course → Course) : State :=
  (s.courses.filter (fun e => e.2.atBar ctx key && e.2.saved)).foldl (fun s e => s.inRecord e.1 (fun s => s.modCourse e.1 (f e.1)))
    { s with courses := s.courses.map (fun e => if e.2.atBar ctx key && !e.2.saved then (e.1, f e.1 e.2) else e) }

/-- Outstanding arrivals of a course on a barrier number that are older than a place in program order. -/
def State.olderArrivals (s : State) (cid place b : Nat) : List (Nat × List Nat) :=
  (s.opsOf cid).filterMap (fun o => match o.2.kind with
    | .arrive k m todo => if k = b ∧ o.1 < place ∧ todo ≠ [] then some (m, todo) else none
    | .barBind k _ _ _ => if k = b ∧ o.1 < place then some (4, []) else none
    | .barFree k => if k = b ∧ o.1 < place then some (4, []) else none
    | _ => none)

/-- A barrier of the context stands in its save area. -/
def State.barSaved (s : State) (ctx key : Nat) : Bool :=
  match s.ctxs.find ctx with
  | some c => c.barsOut.contains key
  | none => false

/-! ### Release of a phase (R229) -/

/-- A path that the release of a phase frees: it is blocked by a lane that has arrived, and no arrival of its course from before its wait
is still to be applied. -/
def Path.released (q : Path) (b clk : Nat) (E A : LaneMask) (owes : Nat → Bool) : Path :=
  match q.wait with
  | .bar k place lanes p false =>
    if k = b && !owes place && decide (lanes &&& E &&& A ≠ 0) then { q with wait := .barWake (clk + barLatency b) lanes (lanes &&& E) p } else q
  | _ => q

/-- Releases the phase: PHASE moves on, the next phase is armed, A is cleared everywhere, and blocked paths become ready. -/
def State.releasePhase (s : State) (ctx key : Nat) : State :=
  match s.ownBar ctx key with
  | none => s
  | some r =>
    let b := barNumber key
    let s' := s.barCourses ctx key (fun cid c =>
      let owes (place : Nat) : Bool := !(s.olderArrivals cid place b).isEmpty
      { c with paths := c.paths.map (fun p => (p.1, p.2.released b s.time.clk (c.barE.getD b 0) (c.barA.getD b 0) owes)),
               barA := c.barA.set 0 b 0 })
    { s' with barriers := s'.barriers.put key { r with phase := r.phase + 1, pending := r.expect } }

/-- Lowers PENDING by one and releases the phase at 0. -/
def State.countDown (s : State) (ctx key : Nat) : State :=
  match s.ownBar ctx key with
  | none => s
  | some r =>
    let s := { s with barriers := s.barriers.put key { r with pending := r.pending - 1 } }
    if r.pending ≤ 1 then s.releasePhase ctx key else s

/-- Lowers EXPECT by one. -/
def State.dropExpect (s : State) (ctx key : Nat) : State :=
  match s.ownBar ctx key with
  | none => s
  | some r => { s with barriers := s.barriers.put key { r with expect := r.expect - 1 } }

/-! ### Arrivals at the home (R230, R231) -/

/-- The arrival of one lane: the state after it, or none while it is held (R230), as everything is that comes to a SAVED barrier. -/
def State.arriveLane (s : State) (cid b mode l : Nat) : Option State :=
  match s.courses.find cid with
  | none => some s
  | some c =>
    let key := barKey c.core b
    let E := (c.barE.getD b 0).getLsbD l
    let A := (c.barA.getD b 0).getLsbD l
    let bit : LaneMask := BitVec.ofNat 64 (2 ^ l)
    let setE (s : State) (on : Bool) : State := s.inRecord cid (fun s => s.modCourse cid (fun c =>
      { c with barE := c.barE.set 0 b (if on then c.barE.getD b 0 ||| bit else c.barE.getD b 0 &&& ~~~bit) }))
    let setA (s : State) (on : Bool) : State := s.inRecord cid (fun s => s.modCourse cid (fun c =>
      { c with barA := c.barA.set 0 b (if on then c.barA.getD b 0 ||| bit else c.barA.getD b 0 &&& ~~~bit) }))
    match s.ownBar c.ctx key with
    | none => if s.barSaved c.ctx key then none else some s
    | some r =>
      let drained := r.expect == 0
      if mode = 1 then some (setE s true)
      else if mode = 3 then
        let t := setA (setE s false) false
        if !E || drained then some t else
        let t := t.dropExpect c.ctx key
        some (if A then t else t.countDown c.ctx key)
      else if drained then some (setE s (mode = 0))
      else if A then none
      else
        let t := setA (setE s (mode = 0)) true
        let t := if mode = 2 then t.dropExpect c.ctx key else t
        some (t.countDown c.ctx key)

/-- Applies the lanes of an arrival in ascending order; held lanes stay with the operation. -/
def State.arriveAll (s : State) (op cid b mode : Nat) (blocked held : List Nat) : List Nat → State
  | [] => s.setOp op (.arrive b mode held)
  | l :: t =>
    match if blocked.contains l then none else (s.setOp op (.arrive b mode (held ++ t))).arriveLane cid b mode l with
    | some s' => s'.arriveAll op cid b mode blocked held t
    | none => s.arriveAll op cid b mode blocked (held ++ [l]) t

/-- Every lane of an arrival has been applied. -/
def State.arrived (s : State) (op : Nat) : Bool :=
  match s.ops.find op with
  | some o => (match o.kind with
    | .arrive _ _ todo => todo.isEmpty
    | _ => false)
  | none => false

/-- Every operation of the course on the barrier before this place has reached the home: what is left of it is held (R228). -/
def State.reachedHome (s : State) (cid : Nat) (c : Course) (place b : Nat) : Bool :=
  let held := match s.ownBar c.ctx (barKey c.core b) with
    | some r => if r.expect = 0 then 0 else c.barA.getD b 0
    | none => if s.barSaved c.ctx (barKey c.core b) then c.barA.getD b 0 else 0
  (s.olderArrivals cid place b).all (fun o => (o.1 == 0 || o.1 == 2) && o.2.all (fun l => held.getLsbD l))

/-- Cancels the held arrivals of exited lanes (R230). -/
def State.cancelHeld (s : State) (cid b : Nat) (lanes : List Nat) : State :=
  ((s.opsOf cid).filterMap (fun o => match o.2.kind with
    | .arrive k m todo => if k = b ∧ (m = 0 ∨ m = 2) then some (o.1, m, todo) else none
    | _ => none)).foldl (fun s o =>
      let rest := o.2.2.filter (fun l => !lanes.contains l)
      if rest.isEmpty then s.finishOp o.1 else s.setOp o.1 (.arrive b o.2.1 rest)) s

/-- BAR_ARRIVAL_APPLY (R228 to R232): the lanes of an arrival, an enrolment or an exit are applied at the barrier's home; an
arrival is a release, so every earlier access of the course has been performed. -/
def execBarArrivalApply (op : Nat) (s : State) : Answer :=
  match s.ops.find op with
  | none => .next s
  | some o =>
    match o.kind, o.cid.bind s.courses.find with
    | .arrive b mode todo, some c =>
      let cid := o.cid.getD 0
      if !s.reachedHome cid c op b || ((mode = 0 || mode = 2) && !s.drained cid op) then .next s else
      let s := if mode = 3 then s.cancelHeld cid b todo else s
      let blocked := (s.olderArrivals cid op b).flatMap (·.2)
      let t := s.arriveAll op cid b mode (if mode = 3 then [] else blocked) [] todo
      if t.arrived op then .next (t.finishOp op) else .next t
    | _, _ => .next s

/-! ### Binding and freeing (R230, R234) -/

/-- The image of a barrier (R234). -/
def Barrier.image (r : Barrier) : Nat :=
  (r.phase.toNat * 2 ^ 32 + r.expect % 2 ^ 18) + (r.ctx * 2 ^ 48 + r.pending % 2 ^ 18) * 2 ^ 64

/-- A barrier read from its image. -/
def Barrier.ofImage (n : Nat) : Barrier :=
  { bound := true, ctx := bits n 112 16, expect := bits n 0 18, pending := bits n 64 18, phase := BitVec.ofNat 32 (bits n 32 32) }

/-- VA of a barrier's image in the owner's save area (R280). -/
def State.barImageVa (s : State) (ctx key : Nat) : Nat := s.ctxWord ctx 9 + 0x25300000 + 16 * key

/-- Saves the barrier of a halted owner; none where the page does not take it (R234, R280). -/
def State.saveBar (s : State) (core key : Nat) (r : Barrier) : Option State :=
  match s.translate core r.ctx (s.barImageVa r.ctx key) none true with
  | .error _ => none
  | .ok p =>
    let s := s.pokeNat p.1 16 r.image
    some { s with barriers := s.barriers.del key,
                  ctxs := match s.ctxs.find r.ctx with
                    | some c => s.ctxs.put r.ctx { c with barsOut := key :: c.barsOut }
                    | none => s.ctxs }

/-- A context of the partition other than this one that is halted. -/
def State.haltedCtx (s : State) (ctx : Nat) : Bool :=
  match s.ctxs.find ctx with
  | some c => c.st == .halted
  | none => false

/-- A restored barrier's image is cleared, so that no later migration takes it for one that is bound (log entry 86). -/
def State.barImageClear (s : State) (core ctx key : Nat) : State :=
  match s.translate core ctx (s.barImageVa ctx key) none true with
  | .ok p => s.pokeNat p.1 16 0
  | .error _ => s

/-- Brings back a saved barrier when its number is FREE or its holder is halted and saved (R234). -/
def State.restoreBar (s : State) (core ctx key : Nat) : State :=
  let room : Option State := match s.barriers.find key with
    | none => some s
    | some r =>
      if !r.bound then some s
      else if s.haltedCtx r.ctx then s.saveBar core key r else none
  match room with
  | none => s
  | some s =>
    match s.translate core ctx (s.barImageVa ctx key) none false with
    | .error _ => s
    | .ok p =>
      let r := { Barrier.ofImage (s.peekNat p.1 16) with ctx := ctx }
      let s := s.barImageClear core ctx key
      { s with barriers := s.barriers.put key r,
               ctxs := match s.ctxs.find ctx with
                 | some c => s.ctxs.put ctx { c with barsOut := c.barsOut.filter (· ≠ key) }
                 | none => s.ctxs }

/-- Brings back the saved barriers of a context that resumes. -/
def State.restoreBars (s : State) (core ctx : Nat) : State :=
  match s.ctxs.find ctx with
  | some c => c.barsOut.foldl (fun s k => s.restoreBar core ctx k) s
  | none => s

/-- Binds a barrier anew: E and A are cleared in every thread of the context. -/
def State.bindBar (s : State) (ctx key n : Nat) : State :=
  let b := barNumber key
  let s := s.barCourses ctx key (fun _ c => { c with barE := c.barE.set 0 b 0, barA := c.barA.set 0 b 0 })
  { s with barriers := s.barriers.put key { bound := true, ctx := ctx, expect := n, pending := n, phase := 0 } }

/-- Some path waits at a barrier, or some arrival on it is held (R230). -/
def State.barInUse (s : State) (ctx key : Nat) : Bool :=
  let b := barNumber key
  s.courses.any (fun c => c.2.atBar ctx key &&
    (c.2.paths.any (fun p => match p.2.wait with
      | .bar k _ _ _ _ => k == b
      | _ => false) ||
     (s.opsOf c.1).any (fun o => match o.2.kind with
       | .arrive k m todo => k == b && (m == 0 || m == 2) && todo.any (fun l => (c.2.barA.getD b 0).getLsbD l)
       | _ => false)))

/-- What bar.bind does at the home: the state and r; none while the barrier is SAVED or a save of its halted owner meets a translation
fault (R230, R234, R280). -/
def State.barBind (s : State) (core ctx b n : Nat) : Option (State × Bool) :=
  let key := barKey core b
  if s.barSaved ctx key then none else
  match s.barriers.find key with
  | none => some (s.bindBar ctx key n, true)
  | some r =>
    if !r.bound then some (s.bindBar ctx key n, true)
    else if r.ctx = ctx then
      if r.pending = r.expect && !s.barInUse ctx key then
        some ({ s with barriers := s.barriers.put key { r with expect := n, pending := n } }, true)
      else some (s, false)
    else if s.haltedCtx r.ctx && s.partOf r.ctx == s.partOf ctx then
      (s.saveBar core key r).map (fun t => (t.bindBar ctx key n, true))
    else some (s, false)

/-- What bar.free does at the home: waiters go with p := 0, held arrivals complete uncounted (R230). -/
def State.barRelease (s : State) (ctx key : Nat) : State :=
  match s.ownBar ctx key with
  | none => s
  | some _ =>
    let b := barNumber key
    let held := s.ops.filterMap (fun o => match o.2.kind, o.2.cid.bind s.courses.find with
      | .arrive k m todo, some c =>
        if k = b && c.atBar ctx key && (m == 0 || m == 2) && todo.any (fun l => (c.barA.getD b 0).getLsbD l) then some o.1 else none
      | _, _ => none)
    let s := held.foldl State.finishOp s
    let s := s.barCourses ctx key (fun _ c => { c with
      barE := c.barE.set 0 b 0, barA := c.barA.set 0 b 0,
      paths := c.paths.map (fun p => (p.1, match p.2.wait with
        | .bar k place lanes q _ => if k = b then { p.2 with wait := .bar k place lanes q true } else p.2
        | _ => p.2)) })
    { s with barriers := s.barriers.del key }

/-- Tells the driver once that a save or restore for a course meets a translation fault (R280). -/
def State.tellSave (s : State) (cid : Nat) : State :=
  match s.courses.find cid with
  | none => s
  | some c =>
    if c.told then s else
    (s.setCourse cid { c with told := true }).notify (s.partOf c.ctx)
      { stamp := s.time.ns, ctx := c.ctx, src := courseSource c.core c.cslot 0, cls := 0x06, sub := 1 }

/-- Completes a bar.bind or bar.free (R230), after the course's earlier operations on the barrier have reached its home. -/
def State.barOpDone (s : State) (op : Nat) (o : Op) : State :=
  match o.cid, o.cid.bind s.courses.find with
  | some cid, some c =>
    (match o.kind with
     | .barBind b n p lanes =>
       if !s.reachedHome cid c op b || !s.mayLand o then s else
       (match s.barBind c.core c.ctx b n with
        | some r => (r.1.inRecord cid (fun s => s.setPred cid p.toNat lanes (if r.2 then BitVec.allOnes 64 else 0))).finishOp op
        | none => if s.barSaved c.ctx (barKey c.core b) then s else s.tellSave cid)
     | .barFree b =>
       if !s.reachedHome cid c op b || s.barSaved c.ctx (barKey c.core b) then s else (s.barRelease c.ctx (barKey c.core b)).finishOp op
     | _ => s)
  | _, _ => s

/-! ### Instructions (R230) -/

/-- The barrier number that an instruction names, if its partition grants it (R227). -/
def Env.barrier (e : Env) (x : Args) (s : State) : Option Nat :=
  let b := e.val x .n32 x.a
  if s.barGranted e.co.ctx b then some b else none

/-- BAR_BIND (R230). -/
def execBarBind (x : Args) (s : State) : Answer :=
  issue Enc.barBind x (fun env s =>
    let act := env.acting x
    if act = 0 then .ok (s.addOp env x .nothing) else
    let n := env.val x .n32 x.b
    match env.barrier x s with
    | none => .trap Trap.field
    | some b =>
      if n = 0 ∨ (if b < 16 then 2048 else 196608) < n then .trap Trap.field
      else .ok (s.addOp env x (.barBind b n (BitVec.ofNat 6 x.d.num) act))) s

/-- An arrival of a mode: 0 plain, 1 enrol, 2 drop (R230). -/
def arriveOp (x : Args) (mode : Nat) (env : Env) (s : State) : Res :=
  let act := lanesOf (env.acting x)
  if act.isEmpty then .ok (s.addOp env x .nothing) else
  match env.barrier x s with
  | none => .trap Trap.field
  | some b =>
    match s.ownBar env.co.ctx (barKey env.co.core b) with
    | none => .trap Trap.field
    | some _ => .ok (s.addOp env x (.arrive b mode act))

/-- BAR_ARRIVE (R230): the mode is that of its B field. -/
def execBarArrive (x : Args) (s : State) : Answer := issue Enc.barArrive x (arriveOp x 0) s
/-- BAR_ARRIVE_ENROL (R230). -/
def execBarArriveEnrol (x : Args) (s : State) : Answer := issue Enc.barArriveEnrol x (arriveOp x 1) s
/-- BAR_ARRIVE_DROP (R230). -/
def execBarArriveDrop (x : Args) (s : State) : Answer := issue Enc.barArriveDrop x (arriveOp x 2) s

/-- BAR_WAIT (R230): the path's next run waits until no acting lane that is enrolled has arrived. -/
def execBarWait (x : Args) (s : State) : Answer :=
  issue Enc.barWait x (fun env s =>
    let act := env.acting x
    let p : Option (BitVec 6) := match x.d with
      | .reg p => some p
      | _ => none
    if act = 0 then .ok s else
    match env.barrier x s with
    | none => .trap Trap.field
    | some b => .done s { wait := .bar b s.nextId act p false }) s

/-- BAR_FREE (R230). -/
def execBarFree (x : Args) (s : State) : Answer :=
  issue Enc.barFree x (fun env s =>
    if env.acting x = 0 then .ok (s.addOp env x .nothing) else
    match env.barrier x s with
    | none => .trap Trap.field
    | some b => .ok (s.addOp env x (.barFree b))) s

/-! ### Waits (R229, R230, R233) -/

/-- Whether a bar.wait at a place in program order is satisfied now, and the lanes that get p = 1 (R230, R233, R234). -/
def State.barReady (s : State) (cid : Nat) (c : Course) (b place : Nat) (lanes : LaneMask) (freed : Bool) : Option LaneMask :=
  let key := barKey c.core b
  if freed then some 0
  else if s.barSaved c.ctx key || !(s.olderArrivals cid place b).isEmpty then none
  else
    match s.ownBar c.ctx key with
    | none => some 0
    | some r =>
      let E := lanes &&& c.barE.getD b 0
      if r.expect = 0 || decide (E &&& c.barA.getD b 0 = 0) then some E else none

/-- BAR_RELEASE_WAKE (R229): the release latency has passed, and the path is ready. -/
def execBarReleaseWake (cid p : Nat) (s : State) : Answer :=
  match s.path cid p with
  | some q =>
    match q.wait with
    | .barWake t lanes ones d => if t ≤ s.time.clk then .next (s.setPath cid p { q with wait := .barWake 0 lanes ones d }) else .next s
    | _ => .next s
  | none => .next s

end Sys2Proof.Machine
end

