-- ==== Sys2Proof/Machine/Save.lean ====
section
/-!
DEFINITION. Capacity and the save area (R275, R276, R279, R280, R282): who holds a slot or row, claims, and resumption.
-/

namespace Sys2Proof.Machine

/-! ### Rows (R279) -/

/-- Segment row j of a course is stored to its record, with its marks (R279); a course whose launch state is not in place yet has nothing but
zeros there (R240). -/
def State.saveRow (s : State) (cid j : Nat) : Option State :=
  match s.courses.find cid with
  | none => some s
  | some c =>
    match s.recordAt c (0x10000 + 256 * j) true with
    | none => none
    | some pa =>
      let key := c.core * Config.fileRows + (c.segbase + j) % Config.fileRows
      let m := if c.started then s.rowPoison.getD key 0 else 0
      let t := s.rowAt pa (if c.started then (s.rows.getD key 0).toNat else 0) ((List.range 4).map (fun b => decide (m &&& blockPairs b ≠ 0)))
      let c := { c with spl := c.spl ||| BitVec.ofNat 512 (2 ^ j) }
      (t.setCourse cid c).saveHead c

/-- Segment row j of a course comes back from its record. -/
def State.loadRow (s : State) (cid j : Nat) : Option State :=
  match s.courses.find cid with
  | none => some s
  | some c =>
    match s.recordAt c (0x10000 + 256 * j) false with
    | none => none
    | some pa =>
      let key := c.core * Config.fileRows + (c.segbase + j) % Config.fileRows
      let m := (List.range 4).foldl (fun (m : BitVec 32) b => if (s.poisoned (pa + 64 * b) 64).isSome then m ||| blockPairs b else m) 0
      let t := { s with rows := s.rows.set 0 key (BitVec.ofNat 2048 (s.peekNat pa 256)), rowPoison := s.rowPoison.set 0 key m }
      some (t.setCourse cid { c with spl := c.spl &&& ~~~(BitVec.ofNat 512 (2 ^ j)) })

/-- Segment row j of a course whose SPL bit a program has cleared: no record holds it, and what the register file holds there is another
course's, so its value is free (R279, R280). -/
def State.blankRow (s : State) (cid j : Nat) : State :=
  match s.courses.find cid with
  | none => s
  | some c =>
    let r := (List.range 32).foldl (fun (r : State × Nat) i => let f := r.1.freeWord; (f.2, r.2 + f.1.toNat * 2 ^ (64 * i))) (s, 0)
    let key := c.core * Config.fileRows + (c.segbase + j) % Config.fileRows
    State.setCourse { r.1 with rows := r.1.rows.set 0 key (BitVec.ofNat 2048 r.2), rowPoison := r.1.rowPoison.set 0 key 0 } cid
      { c with spl := c.spl &&& ~~~(BitVec.ofNat 512 (2 ^ j)) }

/-- The rows of a course that stand in its record, by the SPL that it holds, come back (R279). -/
def State.rowsBack (s : State) (cid : Nat) (c : Course) : Option State :=
  let spl := s.recordSpl c
  (List.range c.rows).foldlM (fun (s : State) j =>
    if spl.getLsbD j then s.loadRow cid j else if c.spl.getLsbD j then some (s.blankRow cid j) else some s) s

/-! ### Who holds capacity (R276) -/

/-- A course that holds a course slot of a core. -/
def State.slotHolder (s : State) (core k : Nat) : Option (Nat × Course) :=
  s.courses.find? (fun c => c.2.core == core && c.2.cslot == k && !c.2.saved && c.2.moved.isNone)

/-- The course that holds a register row of a core, and the segment row it is. -/
def State.rowHolder (s : State) (core r : Nat) : Option (Nat × Course × Nat) :=
  (s.courses.find? (fun c => c.2.core == core && c.2.moved.isNone && decide (c.2.segbase ≤ r) && decide (r < c.2.segbase + c.2.rows)
    && !c.2.spl.getLsbD (r - c.2.segbase))).map (fun c => (c.1, c.2, r - c.2.segbase))

/-- Virtual device of a context (R274). -/
def State.deviceOf (s : State) (ctx : Nat) : Nat := bits (s.ctxWord ctx 0) 40 4

/-- A course is halted: it would not run though its launch state were in place, and the run it was in has ended (R278). -/
def State.halted (s : State) (cid : Nat) (c : Course) : Bool := !s.courseLive { c with started := true, saved := false } && s.betweenRuns cid

/-- A halted course whose capacity another virtual device's course of the partition may claim (R276), or, halted by a reclaim, one of the
lender (R282). -/
def State.claimable (s : State) (part ctx cid : Nat) (c : Course) : Bool :=
  s.betweenRuns cid &&
  (match c.reclaimed with
   | some k => c.borrowed && k == part
   | none => !c.borrowed && s.partOf c.ctx == part && s.haltedCtx c.ctx && s.deviceOf c.ctx != s.deviceOf ctx)

/-- The partition's slot and row ranges: first and count (R273). -/
def State.slotRange (s : State) (part : Nat) : Nat × Nat := (bits (s.partWord part 2) 59 5, bits (s.partWord part 2) 53 6)
/-- R273. -/
def State.rowRange (s : State) (part : Nat) : Nat × Nat := (bits (s.partWord part 2) 32 12, bits (s.partWord part 2) 16 13)

/-- A number lies in a range. -/
def inRange (r : Nat × Nat) (n : Nat) : Bool := decide (r.1 ≤ n) && decide (n < r.1 + r.2)

/-- Partitions whose top slots and rows this one may borrow (R282). -/
def State.lenders (s : State) (part : Nat) : List Nat :=
  (s.parts.map (·.1)).filter (fun k => k != part && nbit (bits (s.partWord k 7) 32 16) part)

/-- Slots a lender lends, and rows (R282). -/
def State.lentSlots (s : State) (k : Nat) : Nat × Nat :=
  let r := s.slotRange k
  let n := min (bits (s.partWord k 7) 26 6) r.2
  (r.1 + r.2 - n, n)
/-- R282. -/
def State.lentRows (s : State) (k : Nat) : Nat × Nat :=
  let r := s.rowRange k
  let n := min (bits (s.partWord k 7) 8 13) r.2
  (r.1 + r.2 - n, n)

/-- A course slot that its lender has reclaimed stays with the lender until it is given back (R282). -/
def State.slotKept (s : State) (core k : Nat) : Bool :=
  s.courses.any (fun c => c.2.borrowed && c.2.reclaimed.isSome && c.2.core == core && c.2.cslot == k)

/-- A reclaimed row likewise. -/
def State.rowKept (s : State) (core r : Nat) : Bool :=
  s.courses.any (fun c => c.2.borrowed && c.2.reclaimed.isSome && c.2.core == core && decide (c.2.segbase ≤ r) &&
    decide (r < c.2.segbase + c.2.rows))

/-- Whether a course slot may be taken: 0 free, 1 claimable; none otherwise. -/
def State.slotFree (s : State) (part ctx core k : Nat) (lent : Bool) : Option Nat :=
  let own := inRange (s.slotRange part) k
  if own then
    match s.slotHolder core k with
    | none => some 0
    | some h => if s.claimable part ctx h.1 h.2 then some 1 else none
  else if lent && (s.lenders part).any (fun p => inRange (s.lentSlots p) k) && (s.slotHolder core k).isNone && !s.slotKept core k then some 0
  else none

/-- Whether a register row may be taken. -/
def State.rowFree (s : State) (part ctx core r : Nat) (lent : Bool) : Option Nat :=
  let own := inRange (s.rowRange part) r
  if own then
    match s.rowHolder core r with
    | none => some 0
    | some h => if s.claimable part ctx h.1 h.2.1 then some 1 else none
  else if lent && (s.lenders part).any (fun p => inRange (s.lentRows p) r) && (s.rowHolder core r).isNone && !s.rowKept core r then some 0
  else none

/-! ### Claims (R279) -/

/-- Takes a course slot from its holder: the owner's whole state is stored first. -/
def State.claimSlot (s : State) (core k : Nat) : Option State :=
  match s.slotHolder core k with
  | none => some s
  | some (h, c) =>
    let c := { c with saved := true }
    (s.saveBody c).map (fun s => s.setCourse h c)

/-- Takes register rows from whoever holds them. -/
def State.claimRows (s : State) (core : Nat) : List Nat → Option State
  | [] => some s
  | r :: t =>
    match s.rowHolder core r with
    | none => s.claimRows core t
    | some (h, _, j) => (s.saveRow h j).bind (fun s => s.claimRows core t)

/-- The lender's courses that were halted to give capacity back go on once it has been taken (R282). -/
def State.unreclaim (s : State) (ids : List Nat) : State :=
  ids.foldl (fun s h => s.modCourse h (fun c => if c.borrowed then c else { c with reclaimed := none })) s

/-- Takes a course slot and rows on a core; the holders' state is stored first. -/
def State.claim (s : State) (core k base n : Nat) : Option State :=
  let rows := (List.range n).map (fun i => base + i)
  let ids := ((s.slotHolder core k).toList.map (·.1) ++ rows.filterMap (fun r => (s.rowHolder core r).map (·.1))).eraseDups
  ((s.claimSlot core k).bind (fun s => s.claimRows core rows)).map (fun s => s.unreclaim ids)

/-! ### Resumption (R279, R282, R189, R234) -/

/-- The course is to run, but for capacity, rows or tiles that must come back first, or crews that count it as halted. -/
def State.wantsBack (s : State) (cid : Nat) (c : Course) : Bool :=
  s.courseLive { c with started := true, saved := false } &&
    (c.saved || c.spl != 0 || c.tilesOut != 0 || s.savingTile cid c || !c.hm.isEmpty)

/-- Segment rows that stand in the record. -/
def Course.outRows (c : Course) : List Nat := (List.range c.rows).filter (fun j => c.spl.getLsbD j)

/-- Capacity that a resuming course needs is free, or is held by halted courses whose state may be saved (R279). -/
def State.mayTakeBack (s : State) (cid : Nat) (c : Course) : Bool :=
  let ok (h : Nat) (o : Course) : Bool := h == cid || s.halted h o
  (match s.slotHolder c.core c.cslot with
   | some (h, o) => ok h o
   | none => true) &&
  c.outRows.all (fun j => match s.rowHolder c.core (c.segbase + j) with
    | some (h, o, _) => ok h o
    | none => true)

/-- Restores a tile: the image of the halted course that holds it, or of a save under way, is stored first (R189). A tile that may not be
taken yet stays out; none where a page does not take the access. -/
def State.tileBack (s : State) (cid k : Nat) : Option State :=
  match (s.tile k).st with
  | .free => s.loadTile cid k
  | .held h => if h ≠ cid ∧ s.haltedCourse h then (s.saveTile h k).bind (fun s => s.loadTile cid k) else some s
  | .saving h => (s.saveTile h k).bind (fun s => s.loadTile cid k)
  | .releasing _ => some s

/-- The tiles of a course that are out or on their way out. -/
def State.tilesAway (s : State) (cid : Nat) (c : Course) : List Nat :=
  ((List.range 8).map (fun i => 8 * bentOf c.core + i)).filter (fun k => c.tilesOut.getLsbD (k % 8) || (s.tile k).st == .saving cid)

/-- A course stands in the slot or rows that another one has from another partition. -/
def Course.stands (o c : Course) : Bool :=
  o.core == c.core && (o.cslot == c.cslot || (decide (o.segbase < c.segbase + c.rows) && decide (c.segbase < o.segbase + o.rows)))

/-- A lender's course that was halted for a borrowed one goes on once no such course waits for its capacity any more (R282). -/
def State.givenUp (s : State) (c : Course) : Bool :=
  c.reclaimed.isSome && !c.borrowed && !s.courses.any (fun b => b.2.borrowed && b.2.reclaimed.isNone && (b.2.saved || b.2.spl != 0) && c.stands b.2)

/-- Slot, rows and state of a course come back: none where a page does not take the access (R279, R280). -/
def State.capacityBack (s : State) (cid : Nat) (c : Course) : Option State := do
  let t ← if c.saved then s.claimSlot c.core c.cslot else some s
  let t ← t.claimRows c.core (c.outRows.map (fun j => c.segbase + j))
  let t ← t.rowsBack cid c
  let d ← t.courses.find cid
  let d ← if c.saved then t.readBody d else some d
  let t := t.setCourse cid { d with saved := false, spl := 0 }
  if c.spl = 0 then some t else t.saveHead { d with spl := 0 }

/-- RESUMES a course: its slot and rows are taken back, its state and rows restored and its SPL bits cleared in its record, then its
tiles and barriers; its crews no longer count it as halted. Until all of that can be done it stays not ready; the driver hears of a
translation fault. -/
def State.tryResume (s : State) (cid : Nat) : State :=
  match s.courses.find cid with
  | none => s
  | some c0 =>
    let c := if s.givenUp c0 then { c0 with reclaimed := none } else c0
    let s := if s.givenUp c0 then s.setCourse cid c else s
    if !s.wantsBack cid c then (if s.courseLive c then s.restoreBars c.core c.ctx else s)
    else if !s.mayTakeBack cid c then s else
    match s.capacityBack cid c with
    | none => s.tellSave cid
    | some t =>
      let ids := ((s.slotHolder c.core c.cslot).toList.map (·.1)
        ++ c.outRows.filterMap (fun j => (s.rowHolder c.core (c.segbase + j)).map (·.1))).eraseDups
      let t := t.unreclaim (ids.filter (· ≠ cid))
      let t := match (s.tilesAway cid c).foldlM (fun (t : State) k => t.tileBack cid k) t with
        | some t => t.modCourse cid (fun c => { c with told := false })
        | none => t.tellSave cid
      (t.crewHalt cid false).restoreBars c.core c.ctx

/-- The record of a course that is over is marked not valid (R280, log entry 115). -/
def State.clearRecord (s : State) (c : Course) : State :=
  match s.recordAt c 0 true with
  | some pa => if nbit (s.peekNat pa 8) 0 ∧ bits (s.peekNat pa 8) 48 16 = c.ctx then s.pokeNat pa 8 (s.peekNat pa 8 - 1) else s
  | none => s

end Sys2Proof.Machine
end

