-- ==== Sys2Proof/Machine/Kernels.lean ====
section
/-!
DEFINITION. Kernels (R235 to R242): launch, the start of a kernel and its faults, placement on cores, the entry overlay and the launch
state of a course.
-/

namespace Sys2Proof.Machine

/-! ### launch (R236 to R238) -/

/-- The queue is owned by the context: it is ACTIVE or STOPPED and its block names the context (R248). -/
def State.ownsQueue (s : State) (ctx q : Nat) : Bool :=
  decide (q < 32) && (match s.queues.find q with
    | some v => v.st != .off && v.ctx == ctx
    | none => false)

/-- SEGROWS of a launch block: nine bits, though S may be 512 (R104), so that no launch block asks for 512 rows (log entry 104). -/
def launchRows (w : List Word) : Nat := bits (wordAt w 3) 0 9
/-- THREADS of a launch block. -/
def launchThreads (w : List Word) : Nat := bits (wordAt w 2) 0 32
/-- PRIVSZ of a launch block. -/
def launchHw (w : List Word) : Nat := bits (wordAt w 3) 16 16
/-- PRIVRES of a launch block. -/
def launchRes (w : List Word) : Nat := bits (wordAt w 7) 0 32
/-- CREW of a launch block. -/
def launchCrew (w : List Word) : Nat := bits (wordAt w 3) 48 16
/-- PRIO of a launch block. -/
def launchPrio (w : List Word) : Nat := bits (wordAt w 3) 32 3

/-- A launch block that fails the last check of R238. -/
def launchBad (w : List Word) : Bool :=
  bits (wordAt w 0) 32 32 != 0 || bits (wordAt w 2) 32 32 != 0 || bits (wordAt w 3) 35 13 != 0 || bits (wordAt w 3) 9 7 != 0 ||
  bits (wordAt w 7) 32 32 != 0 || launchThreads w == 0 || launchRows w % 4 != 0 || decide (launchRows w < 64) ||
  decide (512 < launchRows w) || decide (launchHw w < 17) || decide (launchRes w < launchHw w) ||
  wordAt w 4 % 8 != 0 || wordAt w 1 % 64 != 0 || wordAt w 6 % 65536 != 0

/-- The n words that a number of 8 · n bytes holds. -/
def wordsOf (v n : Nat) : List Word := (List.range n).map (fun i => BitVec.ofNat 64 (bits v (64 * i) 64))

/-- LAUNCH (R237, R238): the block is read once, at issue; the append is an operation of the course. -/
def launchBody (x : Args) (env : Env) (s : State) : Res :=
  if env.acting x = 0 then .ok (s.addOp env x .nothing) else
  let q := (env.co.scalar x.d.num).toNat
  if !s.ownsQueue env.co.ctx q then .trap Trap.field else
  let va := (env.co.scalar x.a.num).toNat
  if va % 64 ≠ 0 then .trap (Trap.align 0xFF va) else
  awaitBlock va 64 env s (
    match s.pagedRead env.co va 64 0xFF with
    | .error t => .trap t
    | .ok l =>
      let w := wordsOf (leNat (s.peekAll l)) 8
      if launchBad w then .trap Trap.field else .ok (s.addOp env x (.append q 1 w)))

/-- LAUNCH (R237, R238). -/
def execLaunch (x : Args) (s : State) : Answer := issue Enc.launch x (launchBody x) s

/-! ### The start of a kernel (R241, R121, R265) -/

/-- Eight bytes that a walker or cairn reads for a context: none on a translation fault or poisoned data. -/
def State.walkerWord (s : State) (core ctx va : Nat) : Option Nat :=
  match s.translate core ctx va none false with
  | .ok r => if (s.poisoned r.1 8).isSome then none else some (s.peekNat r.1 8)
  | .error _ => none

/-- The words of a 64-byte block that a walker or cairn reads. -/
def State.walkerBlock (s : State) (core ctx va n : Nat) : Option (List Word) :=
  (List.range n).mapM (fun i => (s.walkerWord core ctx (va + 8 * i)).map (BitVec.ofNat 64))

/-- The header word and the entries of an overlay directory can be read (R241). -/
def State.dirReadable (s : State) (core ctx dir : Nat) : Bool :=
  match s.walkerWord core ctx dir with
  | some h => (List.range (4 * bits h 0 16)).all (fun i => (s.walkerWord core ctx (dir + 8 + 8 * i)).isSome)
  | none => false

/-- A start fault (R241): the directory cannot be read or does not give the overlay, the entry lies at or beyond N, or no core in
service has a row quota of S. -/
def State.startFault (s : State) (core ctx : Nat) (w : List Word) (ovl idx : Nat) : Bool :=
  let dir := wordAt w 1
  let quota := bits (s.partWord (s.partOf ctx) 2) 16 13
  !s.dirReadable core ctx dir ||
  (match s.dirEntry core ctx dir ovl with
   | none => true
   | some (image, n, _) => decide (n ≤ idx) || image % 256 != 0 || decide (5461 < n)) ||
  (List.range Config.cores).all (fun c => !s.bentOn (bentOf c) || decide (quota < launchRows w))

/-- Starts a kernel from the words of its launch block (R241): none on a start fault. A kernel that resumes a slice has one course,
whose entry is the slice's resumption point; THREADS of its block is not used (R121). -/
def State.startKernel (s : State) (core ctx : Nat) (w : List Word) (node : Option (Nat × Nat)) (batch : Option Word)
    (graft : Option (Word × SliceHead)) (prio crew : Nat) : Option State :=
  let entry := match graft with
    | some g => g.2.ovl * 65536 + g.2.idx
    | none => bits (wordAt w 0) 0 32
  let w := if graft.isSome then w.set 2 (BitVec.ofNat 64 (setBits (wordAt w 2) 0 32 64)) else w
  if launchBad w || s.startFault core ctx w (entry / 65536) (entry % 65536) then none else
  let threads := match graft with
    | some _ => 64
    | none => launchThreads w
  let k : Kernel :=
    { st := .placing, ctx := ctx, part := s.partOf ctx, words := w.set 0 (BitVec.ofNat 64 entry), prio := prio, crew := crew, next := 0,
      courses := (threads + 63) / 64, live := 0, node := node, told := false, batch := batch, graft := graft.map (·.1) }
  some { s with kernels := s.kernels.put s.nextId k, nextId := s.nextId + 1 }

/-! ### Placement (R239) -/

/-- A place for a course: core, course slot, first row; whether something there must be claimed, and whether it is lent. -/
structure Spot where
  core : Nat
  cslot : Nat
  base : Nat
  claim : Bool
  lent : Bool
  deriving DecidableEq, Repr

/-- Courses that hold course slots of the issue slot of a course slot (R239). -/
def State.crowd (s : State) (core k : Nat) : Nat :=
  (s.courses.filter (fun c => c.2.core == core && c.2.cslot % 4 == k % 4 && !c.2.saved && c.2.moved.isNone)).length

/-- The course slot to take on a core: free before claimable, then the least crowded issue slot, then the lowest. -/
def State.bestSlot (s : State) (part ctx core : Nat) (lent : Bool) : Option (Nat × Bool) :=
  (((List.range Config.courseSlots).filterMap (fun k =>
    (s.slotFree part ctx core k lent).map (fun f => f * 10000 + s.crowd core k * 100 + k))).min?).map (fun m => (m % 100, decide (10000 ≤ m)))

/-- Over every run of n neighbouring rows that may be taken: 10,000 times the rows to claim, plus the first row; the least. -/
def bestRun (n : Nat) : Nat → List (Option Nat) → Option Nat
  | _, [] => none
  | b, x :: t =>
    let w := (x :: t).take n
    let here := if w.length = n ∧ w.all (·.isSome) then some (w.foldl (fun a r => a + r.getD 0) 0 * 10000 + b) else none
    match here, bestRun n (b + 1) t with
    | some a, some c => some (min a c)
    | some a, none => some a
    | none, c => c

/-- The first row to take on a core: free rows before claimable ones, then the fewest claims, then the lowest. -/
def State.bestRows (s : State) (part ctx core n : Nat) (lent : Bool) : Option (Nat × Bool) :=
  let r := if lent then (0, Config.fileRows) else s.rowRange part
  (bestRun n r.1 ((List.range r.2).map (fun i => s.rowFree part ctx core (r.1 + i) lent))).map (fun m =>
    (m % 10000, decide (10000 ≤ m)))

/-- What a core offers a course of n rows. -/
def State.coreSpot (s : State) (part ctx core n : Nat) (lent : Bool) : Option Spot :=
  if !s.bentOn (bentOf core) then none else
  match s.bestSlot part ctx core lent, s.bestRows part ctx core n lent with
  | some k, some b => some { core := core, cslot := k.1, base := b.1, claim := k.2 || b.2, lent := lent }
  | _, _ => none

/-- The core of a bay that takes the course: the lowest that needs no claim, else the lowest. -/
def State.baySpot (s : State) (part ctx bay n : Nat) (lent : Bool) : Option Spot :=
  let l := (List.range 8).filterMap (fun j => s.coreSpot part ctx (8 * bay + j) n lent)
  match l.find? (fun p => !p.claim) with
  | some p => some p
  | none => l.head?

/-- The place of the next course: the first bay in round-robin order, the partition's own ranges before lent ones (R239, R282). -/
def State.findSpot (s : State) (part ctx n : Nat) : Option Spot :=
  let bays := (List.range 12).map (fun i => (s.lastBay + 1 + i) % 12)
  match bays.findSome? (fun b => s.baySpot part ctx b n false) with
  | some p => some p
  | none => if (s.lenders part).isEmpty then none else bays.findSome? (fun b => s.baySpot part ctx b n true)

/-- Where the next course of a kernel would go now. -/
def State.kernelSpot (s : State) (k : Kernel) : Option Spot :=
  if k.st = .placing ∧ k.next < k.courses then s.findSpot k.part k.ctx (launchRows k.words) else none

/-- A kernel that is offered capacity before this one can take some; one whose claim waits for a page holds nobody back (R239, R280). -/
def State.kernelAhead (s : State) (id : Nat) (k : Kernel) : Bool :=
  s.kernels.any (fun e => !e.2.told && (decide (k.prio < e.2.prio) || (decide (k.prio = e.2.prio) && decide (e.1 < id))) && (s.kernelSpot e.2).isSome)

/-! ### The entry overlay (R240) -/

/-- The overlay slot of a core that holds an image for a context. -/
def State.imageSlot (s : State) (core ctx id va : Nat) : Option Nat :=
  (List.range 7).map (· + 1) |>.find? (fun j => match s.ovls.find (core * 8 + j) with
    | some o => o.loaded && o.id == id && o.ctx == ctx && o.image == va && o.mark.isEmpty
    | none => false)

/-- A path of a course on the core has its current or next run in an overlay slot. -/
def State.ovlUsed (s : State) (core j : Nat) : Bool :=
  match s.ovls.find (core * 8 + j) with
  | some o => s.courses.any (fun c => c.2.core == core && c.2.ctx == o.ctx && c.2.moved.isNone && c.2.paths.any (fun p => p.2.ovl == o.id))
  | none => false

/-- Of some slots, the one loaded longest ago. -/
def State.oldestOvl (s : State) (core : Nat) (l : List Nat) : Option Nat :=
  let at_ (j : Nat) : Nat := match s.ovls.find (core * 8 + j) with
    | some o => o.order
    | none => 0
  l.foldl (fun b j => match b with
    | some i => if at_ j < at_ i then some j else some i
    | none => some j) none

/-- The slot the distributor loads into: an empty one, else the oldest that no resident path uses, else the oldest. -/
def State.loadSlot (s : State) (core : Nat) : Nat :=
  let all := (List.range 7).map (· + 1)
  let taken (j : Nat) : Bool := s.ops.any (fun o => match o.2.kind with
    | .ovlLd c k _ _ _ _ => c == core && k == j
    | _ => false)
  let l := match all.filter (fun j => !taken j) with
    | [] => all
    | l => l
  match l.find? (fun j => (s.ovls.find (core * 8 + j)).isNone) with
  | some j => j
  | none =>
    match s.oldestOvl core (l.filter (fun j => !s.ovlUsed core j)) with
    | some j => j
    | none => (s.oldestOvl core l).getD 1

/-- Makes an overlay loaded on a core, or begins its load, as ovl.ld does. -/
def State.ensureOvl (s : State) (core ctx id va n : Nat) : State :=
  if (s.imageSlot core ctx id va).isSome || s.loadingOvl core ctx id then s else
  let slot := s.loadSlot core
  let op := s.nextId
  let s := { s with
    ops := s.ops.put op { cid := none, ctx := ctx, path := 0, ovl := 0, idx := 0, flag := none, lwb := 0,
                          kind := .ovlLd core slot id va n false, pend := [] }
    nextId := op + 1 }
  (s.markOvls core ctx slot id op).lockRanges op false (lockPieces false (s.copySpan core ctx (BitVec.ofNat 64 va) (12 * n) false))

/-- The entry overlay of a kernel as its directory gives it now: id, image, instructions. -/
def State.entryOf (s : State) (core : Nat) (k : Kernel) : Option (Nat × Nat × Nat) :=
  let id := bits (wordAt k.words 0) 16 16
  (s.dirEntry core k.ctx (wordAt k.words 1) id).map (fun e => (id, e.1, e.2.1))

/-! ### A course in its launch state (R121, R240) -/

/-- The lanes of course i of a kernel that live: those below THREADS, or the slice's BOTMASK. -/
def State.liveLanes (s : State) (core : Nat) (k : Kernel) (i : Nat) : LaneMask :=
  match k.graft with
  | none => maskOf (fun l => decide (i * Config.width + l < launchThreads k.words))
  | some w =>
    let h := Handle.ofWord w
    match s.sliceWord core h 0 with
    | .ok first => (s.sliceHead core h first).bot
    | .error _ => 0

/-- A course as its place is given to it; its rows, records and crews follow at its start. -/
def Course.launched (kern : Nat) (k : Kernel) (i : Nat) (p : Spot) (live : LaneMask) : Course :=
  let entry := bits (wordAt k.words 0) 0 32
  let s0 : Tab (BitVec 64) := Tab.set 0 (Tab.set 0 [] 0 (k.words.getD 5 0)) 1 (if k.graft.isSome then 0 else BitVec.ofNat 64 i)
  { Course.blank p.core k.ctx with
    kern := kern, index := i, cslot := p.cslot, segbase := p.base, rows := launchRows k.words, hw := launchHw k.words,
    res := launchRes k.words, priv := wordAt k.words 6 + i * launchRes k.words * 65536, borrowed := p.lent, first := k.graft,
    scal := match k.batch with
      | some h => Tab.set 0 s0 2 h
      | none => s0,
    exited := ~~~live, regpc := if k.graft.isSome then noRegion else BitVec.ofNat 32 entry,
    region := { depth := 0, lwb := 0, fmask := live, d := 0, prio := 0, acc := 0, xseq := 0, restarts := 0 },
    paths := [(0, { ovl := entry / 65536, idx := entry % 65536, lanes := live, fmask := live, d := 0, prio := 0, demoted := none, lwb := 0,
                    depth := 0, jidx := none, run := none, wait := .nothing, late := [], shim := none, ent := [], offer := none, gap := false, stopped := false })] }

/-- Puts a course of a kernel in its place, which has been claimed, and begins the load of its entry overlay. -/
def State.placeCourse (s : State) (kern : Nat) (k : Kernel) (p : Spot) : State :=
  let cid := s.nextId
  let c := Course.launched kern k k.next p (s.liveLanes p.core k k.next)
  let k := { k with next := k.next + 1, live := k.live + 1, told := false }
  let k := if k.next = k.courses then { k with st := .resident } else k
  let s := { s with courses := s.courses.put cid c, kernels := s.kernels.put kern k, nextId := cid + 1, lastBay := bayOf p.core }
  match s.entryOf p.core k with
  | some e => s.ensureOvl p.core k.ctx e.1 e.2.1 e.2.2
  | none => s

/-- The driver hears once that a claim for a kernel meets a translation fault (R280). -/
def State.tellKernel (s : State) (kern : Nat) (k : Kernel) (p : Spot) : State :=
  if k.told then s else
  State.notify { s with kernels := s.kernels.put kern { k with told := true } } k.part
    { stamp := s.time.ns, ctx := k.ctx, src := courseSource p.core p.cslot 0, cls := 0x06, sub := 1 }

/-- PLACEMENT (R239, R279): the next course of a waiting kernel takes its place, unless a kernel ahead of it can take one. -/
def execPlacement (kern : Nat) (s : State) : Answer :=
  match s.kernels.find kern with
  | none => .next s
  | some k =>
    if !s.up || s.kernelAhead kern k then .next s else
    match s.kernelSpot k with
    | none => .next s
    | some p =>
      match s.claim p.core p.cslot p.base (launchRows k.words) with
      | some s => .next (s.placeCourse kern k p)
      | none => .next (s.tellKernel kern k p)

/-- The rows of a course's segment, zero and without marks. -/
def State.zeroSegment (s : State) (c : Course) : State :=
  (List.range c.rows).foldl (fun s j =>
    let key := c.core * Config.fileRows + (c.segbase + j) % Config.fileRows
    { s with rows := s.rows.set 0 key 0, rowPoison := s.rowPoison.set 0 key 0 }) s

/-- The launch words of a private region: depth vector, Record(0) of the living lanes, span word (R105 to R107, R240). -/
def State.launchWords (s : State) (c : Course) (live : LaneMask) : State :=
  let s := lanes64.foldl (fun s l => s.privTry c (depthOff l) 8 0) s
  let s := (lanesOf live).foldl (fun (s : State) l => s.privTry c (frameOff 0 l) 16
    (Frame.pack { mask := 0, ovl := 0, idx := 0, d := 0, units := 0, kind := 1, marked := false, mark := 0 })) s
  s.privTry c 0x102200 8 0

/-- COURSE_START (R240): the entry overlay is loaded, the rows and the private region are in their launch state, and the living lanes
have joined the kernel's crew; until then the course waits, and a load that has failed is begun again. -/
def execCourseStart (cid : Nat) (s : State) : Answer :=
  match s.courses.find cid with
  | none => .next s
  | some c =>
    match s.kernels.find c.kern with
    | none => .next s
    | some k =>
      if !s.up || c.started || c.moved.isSome || c.saved || c.spl ≠ 0 then .next s else
      match s.entryOf c.core k with
      | none => .next s
      | some e =>
        if (s.imageSlot c.core k.ctx e.1 e.2.1).isNone then .next (s.ensureOvl c.core k.ctx e.1 e.2.1 e.2.2) else
        let live := ~~~c.exited
        let joins := if k.crew < 65535 then (lanesOf live).map (fun l => (l, some k.crew)) else []
        if (s.crewCheck c joins).isSome then .next s else
        let s := ((s.zeroSegment c).launchWords c live).modCourse cid (fun c => { c with started := true })
        .next (joins.foldl (fun s e => s.crewJoin cid e.1 k.crew) s)

end Sys2Proof.Machine
end

