-- ==== Sys2Proof/Machine/Queues.lean ====
section
/-!
DEFINITION. Queues, task graphs and signal objects (R243 to R253): the ring in memory, arrivals, the walker, the kinds of nodes, media
decode and storage writes (R217 to R219), attached slices (R121), and the signal instructions.
-/

namespace Sys2Proof.Machine

/-! ### Signal instructions (R252) -/

/-- The access to a signal object, with its checks in the order of R132. -/
def State.signalAcc (s : State) (env : Env) (va : Nat) (write : Bool) : Except Trap Acc :=
  if va % 8 ≠ 0 then .error (Trap.align 0xFF va) else
  match s.translate env.co.core env.co.ctx va none write with
  | .error e => .error (e.trap 0xFF va)
  | .ok r =>
    if env.co.hwBad va 8 then .error (Trap.privhw 0xFF va) else
    match s.lockAt s.nextId r.1 8 write with
    | some (k, e) => .error (Trap.rlock k e env.cid 0xFF va)
    | none => .ok { lane := 64, pa := r.1, n := 8, kind := r.2, x := 0, y := 0, va := va, ref := va }

/-- sig.dec and sig.set: an atomic that is a release, on a 64-bit word. -/
def signalOp (x : Args) (m : MemOp) (v : Word) (env : Env) (s : State) : Res :=
  if env.acting x = 0 then .ok (s.addOp env x .nothing) else
  match s.signalAcc env (env.co.scalar x.a.num).toNat true with
  | .error t => .trap t
  | .ok a =>
    .ok (s.addOp env x (.mem { m := m, t := .n64, d := x.d, acq := false, rel := true, scope := .pkg, lanes := env.acting x,
                               so := a.kind == .so, array := none, todo := [{ a with x := v.toNat }], got := [], whole := [], bad := none }))

/-- SIG_DEC (R252). -/
def execSigDec (x : Args) (s : State) : Answer :=
  issue Enc.sigDec x (fun env s => signalOp x .add (-(BitVec.ofNat 64 (env.val x .i64 x.b))) env s) s

/-- SIG_SET (R252). -/
def execSigSet (x : Args) (s : State) : Answer :=
  issue Enc.sigSet x (fun env s => signalOp x .xchg (BitVec.ofNat 64 (env.val x .i64 x.b)) env s) s

/-- SIG_WAIT (R252): the word is read at issue, and again at each write to it. -/
def execSigWait (x : Args) (s : State) : Answer :=
  issue Enc.sigWait x (fun env s =>
    if env.acting x = 0 then .ok s else
    match s.signalAcc env (env.co.scalar x.a.num).toNat false with
    | .error t => .trap t
    | .ok a =>
      let j : MemJob := { m := .ld, t := .n64, d := .zero, acq := true, rel := false, scope := .pkg, lanes := env.acting x,
                          so := a.kind == .so, array := none, todo := [a], got := [], whole := [], bad := none }
      if !s.accReady s.nextId env.cid j a then .later .access else
      match s.poisonedAs a.va a.pa 8 with
      | some u =>
        .ok (s.setPath env.cid env.p (env.pa.addLate { trap := Trap.poison 0xFF u, ovl := env.pa.ovl, idx := env.pa.idx, place := s.nextId }))
      | none =>
        let cc := Mod.number x.m
        let v : Word := BitVec.ofNat 64 (env.val x .i64 x.b)
        let m : Word := BitVec.ofNat 64 (s.peekNat a.pa 8)
        let d := match x.d with
          | .reg n => some n
          | _ => none
        .done s { wait := .sig a.va a.pa cc v d (if ccHolds cc m v then some (some m) else none) }) s

/-! ### The ring (R243, R244) -/

/-- The core whose translations the walker of a queue uses: the first of its die (R243). -/
def queueCore (q : Nat) : Nat := q % 2 * 48

/-- No node. -/
def noNode : Nat := 0xFFFF

/-- VA of word k of a node. -/
def Queue.nodeVa (v : Queue) (slot k : Nat) : Nat := v.ring + 128 * slot + 8 * k

/-- Word k of a node; zero where the ring's page does not give it. -/
def State.nodeWord (s : State) (q : Nat) (v : Queue) (slot k : Nat) : Nat := s.see (queueCore q) v.ctx (v.nodeVa slot k) 8

/-- Stores a word that a walker writes for a context, where its page takes it. -/
def State.walkerPut (s : State) (core ctx va n : Nat) : State :=
  match s.translate core ctx va none true with
  | .ok r => s.pokeNat r.1 8 n
  | .error _ => s

/-- Stores word k of a node. -/
def State.putNode (s : State) (q : Nat) (v : Queue) (slot k n : Nat) : State := s.walkerPut (queueCore q) v.ctx (v.nodeVa slot k) n

/-- STATE of word 0 of a node: 0 FREE, 1 WAITING, 2 READY, 3 RUNNING, 4 COMPLETE, 5 SKIPPED, 6 FAULTED. -/
def nodeState (w0 : Nat) : Nat := bits w0 57 3

/-- The state of a node. -/
def State.nodeSt (s : State) (q : Nat) (v : Queue) (slot : Nat) : Nat := nodeState (s.nodeWord q v slot 0)

/-- Sets the state of a node. -/
def State.setNode (s : State) (q : Nat) (v : Queue) (slot st : Nat) : State :=
  s.putNode q v slot 0 (setBits (s.nodeWord q v slot 0) 57 3 st)

/-- SUCC0, SUCC1 and ASUCC of a node. -/
def State.succs (s : State) (q : Nat) (v : Queue) (slot : Nat) : Nat × Nat × Nat :=
  let w0 := s.nodeWord q v slot 0
  (bits w0 16 16, bits w0 0 16, bits (s.nodeWord q v slot 3) 0 16)

/-- Nodes of a queue that are RUNNING. -/
def State.runs (s : State) (q : Nat) : List NodeRun := s.nodes.filter (fun r => r.q == q)

/-- Replaces what is known of a RUNNING node. -/
def State.modNode (s : State) (q slot : Nat) (f : NodeRun → NodeRun) : State :=
  { s with nodes := s.nodes.map (fun r => if r.q = q ∧ r.slot = slot then f r else r) }

/-- Writes the read-only fields of a queue block: STATE, HEAD and TAIL, FNODE. -/
def State.syncQueue (s : State) (q : Nat) : State :=
  match s.queues.find q with
  | none => s
  | some v =>
    let core := queueCore q
    let va := v.block.toNat
    let st := match v.st with
      | .off => 0
      | .active => 1
      | .stopped => 2
    let w1 := s.see core v.ctx (va + 8) 8
    ((s.walkerPut core v.ctx (va + 8) (setBits w1 39 2 st)).walkerPut core v.ctx (va + 16) (v.head * 2 ^ 16 + v.tail)).walkerPut core v.ctx
      (va + 24) v.fnode

/-- HEAD advances over COMPLETE and SKIPPED nodes, whose slots become FREE (R248). In a STOPPED queue it stays before the node whose fault
stopped it, which may have been rewritten to COMPLETE and then has its arrivals still to send (R250). -/
def State.advanceHead : Nat → State → Nat → State
  | 0, s, _ => s
  | n + 1, s, q =>
    match s.queues.find q with
    | none => s
    | some v =>
      let st := s.nodeSt q v v.head
      if v.used = 0 ∨ (st ≠ 4 ∧ st ≠ 5) ∨ (v.st = .stopped ∧ v.head = v.fnode) then s else
      let s := s.setNode q v v.head 0
      State.advanceHead n { s with queues := s.queues.put q { v with head := (v.head + 1) % v.nslot, used := v.used - 1 } } q

/-- Brings a queue up to date after a step of its walker: HEAD, a disable that waited for the last RUNNING node, the queue block. -/
def State.settleQueue (s : State) (q : Nat) : State :=
  match s.queues.find q with
  | none => s
  | some v =>
    let s := s.advanceHead v.used q
    let s := match s.queues.find q with
      | some v =>
        if v.closing && (s.runs q).isEmpty then { s with queues := s.queues.put q { v with st := .off, closing := false } } else s
      | none => s
    s.syncQueue q

/-- A queue of an ending or leaving context is OFF, and its block says so (R243, R250). -/
def State.queueOff (s : State) (q : Nat) : State :=
  match s.queues.find q with
  | none => s
  | some v =>
    let s := State.syncQueue { s with queues := s.queues.put q { v with st := .off } } q
    { s with queues := s.queues.del q }

/-- A queue stops with its context's migration (R250, R283). -/
def State.queueStop (s : State) (q : Nat) : State :=
  match s.queues.find q with
  | none => s
  | some v => if v.st = .active then State.syncQueue { s with queues := s.queues.put q { v with st := .stopped } } q else s

/-! ### Arrivals (R246, R247) -/

/-- A word that a walker reads and acts on: PAGE and POISON are its traps (R245). -/
def State.walkerRead (s : State) (core ctx va : Nat) : Except Trap Nat :=
  match s.translate core ctx va none false with
  | .error e => .error (e.trap 0xFF va)
  | .ok r =>
    match s.poisonedAs va r.1 8 with
    | some u => .error (Trap.poison 0xFF u)
    | none => .ok (s.peekNat r.1 8)

/-- The fault of a node whose operation traps (R245): FCODE 2. -/
def Trap.node (t : Trap) : Nat × Nat × Nat := (2, t.cls.toNat, t.sub.toNat)

/-- Re-arms slots w + 1 to BODYEND of a WHILE node w (R247, R251). -/
def State.rearm (s : State) (q : Nat) (v : Queue) (w : Nat) : State :=
  let stop := bits (s.nodeWord q v w 2) 48 16 % v.nslot
  (List.range ((stop + v.nslot - w) % v.nslot)).foldl (fun (s : State) i =>
    let j := (w + 1 + i) % v.nslot
    let w0 := s.nodeWord q v j 0
    if nodeState w0 = 3 ∨ nodeState w0 = 6 then s else
    s.putNode q v j 0 (setBits (setBits (setBits w0 57 3 1) 56 1 0) 32 8 (bits w0 40 8))) s

/-- A turn of a RUNNING WHILE node (R247): the condition word is read; non-zero starts an iteration, and the answer says that SUCC0 is
to get its arrival. -/
def State.whileTurn (s : State) (q : Nat) (v : Queue) (w : Nat) : State × Bool :=
  match s.walkerRead (queueCore q) v.ctx (s.nodeWord q v w 8) with
  | .error t => (s.modNode q w (fun r => { r with bad := some t.node }), false)
  | .ok 0 => (s.modNode q w (fun r => { r with done := true }), false)
  | .ok _ =>
    let w2 := s.nodeWord q v w 2
    ((s.putNode q v w 2 (setBits w2 0 32 ((bits w2 0 32 + 1) % 2 ^ 32))).rearm q v w, true)

/-- A slot lies in the body of a WHILE node. -/
def State.inBody (s : State) (q : Nat) (v : Queue) (w j : Nat) : Bool :=
  let stop := bits (s.nodeWord q v w 2) 48 16 % v.nslot
  decide (0 < (j + v.nslot - w) % v.nslot) && decide ((j + v.nslot - w) % v.nslot ≤ (stop + v.nslot - w) % v.nslot)

/-- An arrival of node src at a node, completing or skipping (R246): PREDLEFT falls, and the last arrival makes the node READY or
SKIPPED; a SKIPPED node sends skipping arrivals; an arrival from its body gives a RUNNING WHILE node its next turn (R247). -/
def State.arriveNode : Nat → State → Nat → Nat → Nat → Bool → State
  | 0, s, _, _, _, _ => s
  | fuel + 1, s, q, src, slot, live =>
    match s.queues.find q with
    | none => s
    | some v =>
      if v.nslot ≤ slot then s else
      let w0 := s.nodeWord q v slot 0
      if nodeState w0 = 3 ∧ bits w0 60 4 = 6 ∧ s.inBody q v slot src then
        let r := s.whileTurn q v slot
        if r.2 then r.1.arriveNode fuel q slot (bits w0 16 16) true else r.1
      else if nodeState w0 ≠ 1 then s else
      let left := bits w0 32 8 - 1
      let lives := nbit w0 56 || live
      let st := if left ≠ 0 then 1 else if lives then 2 else 5
      let s := s.putNode q v slot 0 (setBits (setBits (setBits w0 57 3 st) 56 1 (if lives then 1 else 0)) 32 8 left)
      if st = 5 then
        let k := s.succs q v slot
        [k.1, k.2.1, k.2.2].foldl (fun s j => s.arriveNode fuel q slot j false) s
      else s

/-- How deep arrivals may follow one another: the largest ring. -/
def arrivalFuel : Nat := 32770

/-- The arrivals that a COMPLETE node sends (R246, R247). -/
def State.sendArrivals (s : State) (q slot : Nat) (cond : Bool) : State :=
  match s.queues.find q with
  | none => s
  | some v =>
    let k := s.succs q v slot
    let kind := bits (s.nodeWord q v slot 0) 60 4
    let l := if kind = 5 then [(k.1, cond), (k.2.1, !cond), (k.2.2, true)]
      else if kind = 6 then [(k.2.1, true), (k.2.2, true)]
      else [(k.1, true), (k.2.1, true), (k.2.2, true)]
    l.foldl (fun s j => s.arriveNode arrivalFuel q slot j.1 j.2) s

/-! ### Starting a node (R245, R248) -/

/-- The peer window that holds a range of offsets for a partition (R317). -/
def State.peerWindow (s : State) (part off n : Nat) : Option Nat :=
  let w := off / 2 ^ 32
  let reg := s.pkg.peerEn.getD w (0, false)
  if w < 16 ∧ off + n ≤ (w + 1) * 2 ^ 32 ∧ reg.1 = part ∧ reg.2 then some w else none

/-- A node is not valid (R245, R317): FCODE 3. -/
def State.nodeInvalid (s : State) (q : Nat) (v : Queue) (slot : Nat) : Bool :=
  let w (k : Nat) : Nat := s.nodeWord q v slot k
  let kind := bits (w 0) 60 4
  let k := s.succs q v slot
  let away (j : Nat) : Bool := j != noNode && decide (v.nslot ≤ j)
  let addrs : List Nat := match kind with
    | 1 => [w 9, w 12, w 14]
    | 2 => [w 8, w 9, w 12]
    | 3 | 4 | 5 | 6 => [w 8]
    | 7 => [w 9, w 10]
    | 8 => [w 8]
    | 9 => [w 8]
    | _ => []
  let reserved : Bool := match kind with
    | 1 => bits (w 8) 32 32 != 0 || bits (w 10) 32 32 != 0 || bits (w 11) 35 13 != 0 || bits (w 11) 9 7 != 0 || bits (w 15) 32 32 != 0
    | 2 => bits (w 10) 48 16 != 0 || w 13 != 0 || w 14 != 0 || w 15 != 0
    | 4 => decide (5 < bits (w 10) 0 3)
    | 8 => !([1, 2, 3].contains (bits (w 12) 0 4))
    | 9 => (s.peerWindow v.part (w 10) (w 9)).isNone
    | _ => false
  decide (9 < kind) || bits (w 0) 48 8 != 0 || bits (w 2) 32 16 != 0 || bits (w 3) 16 24 != 0 || w 4 != 0 || w 5 != 0 || w 6 != 0 ||
    w 7 != 0 || away k.1 || away k.2.1 || away k.2.2 || addrs.any (fun a => a % 8 != 0) || reserved

/-- The slice of a SLICE node whose signal has reached zero is launched (R121). -/
def State.launchSlice (s : State) (q slot : Nat) : State :=
  match s.queues.find q with
  | none => s
  | some v =>
    let core := queueCore q
    let w : Word := BitVec.ofNat 64 (s.nodeWord q v slot 8)
    let h := Handle.ofWord w
    let gone := s.modNode q slot (fun r => { r with bad := some (Trap.slice 3 0xFF).node })
    let bad := s.modNode q slot (fun r => { r with bad := some (1, 0, 0) })
    match s.sliceWord core h 1, s.sliceWord core h 0 with
    | .ok w1, .ok first =>
      if sliceState w1 ≠ Slice.attached ∨ sliceGen w1 ≠ h.gen ∨ h.ctx ≠ v.ctx then gone else
      let va := s.nodeWord q v slot 10
      if va % 64 ≠ 0 then bad else
      (match s.walkerBlock core v.ctx va 8 with
       | none => bad
       | some b =>
         match s.startKernel core v.ctx b (some (q, slot)) none (some (w, s.sliceHead core h first)) (launchPrio b) (launchCrew b) with
         | none => bad
         | some t => t.modNode q slot (fun r => { r with kern := some s.nextId }))
    | _, _ => gone

/-- The word that a walker's step on a node reads or writes, and whether it writes: the step waits while a lock forbids it (R165). -/
def State.nodeWaits (s : State) (q : Nat) (v : Queue) (slot : Nat) : Bool :=
  let at_ (k : Nat) (write : Bool) : Bool :=
    match s.translate (queueCore q) v.ctx (s.nodeWord q v slot k) none write with
    | .ok r => !s.rangeFree s.nextId write (r.1, 8)
    | .error _ => false
  match bits (s.nodeWord q v slot 0) 60 4 with
  | 3 => at_ 8 true
  | 4 | 5 | 6 => at_ 8 false
  | 7 => at_ 9 false
  | _ => false

/-- A new operation of a queue's walker. -/
def State.walkerOp (s : State) (ctx : Nat) (k : OpKind) : State :=
  { s with
    ops := s.ops.put s.nextId { cid := none, ctx := ctx, path := 0, ovl := 0, idx := 0, flag := none, lwb := 0, kind := k, pend := [] }
    nextId := s.nextId + 1 }

/-- Watches a signal for a node: done at once if the comparison holds (R252). -/
def State.watchSignal (s : State) (q slot core ctx va cc : Nat) (v : Word) : State :=
  match s.translate core ctx va none false with
  | .error e => s.modNode q slot (fun r => { r with bad := some (e.trap 0xFF va).node })
  | .ok p =>
    match s.poisonedAs va p.1 8 with
    | some u => s.modNode q slot (fun r => { r with bad := some (Trap.poison 0xFF u).node })
    | none => s.modNode q slot (fun r =>
        { r with watch := some (va, p.1, cc, v), done := ccHolds cc (BitVec.ofNat 64 (s.peekNat p.1 8)) v })

/-- A COPY node starts, as cp.d does (R245). -/
def State.startCopyNode (s : State) (q slot : Nat) (v : Queue) (w : List Word) : State :=
  let core := queueCore q
  let fail (t : Trap) : State := s.modNode q slot (fun r => { r with bad := some t.node })
  match Copy.check w with
  | some t => fail t
  | none =>
    let c := Copy.ofWords w
    match s.copyTrap core v.ctx none c with
    | some t => fail t
    | none =>
      let id := s.nextId
      ((s.walkerOp v.ctx (.cp c false (some (q, slot)))).startCopy id core v.ctx none c (some (q, slot))).modNode q slot
        (fun r => { r with op := some id })

/-- A MEDIA node starts (R218): its bitstream and its array are named; a decoder is taken when there is one. -/
def State.startMedia (s : State) (q slot : Nat) (v : Queue) (w : List Word) : State :=
  let core := queueCore q
  let fail (t : Trap) : State := s.modNode q slot (fun r => { r with bad := some t.node })
  let k := w.getD 3 0
  match s.translate core v.ctx (wordAt w 0) none false, s.openArray core v.ctx (w.getD 2 0) 0xFF,
      s.liveArray core v.ctx (bits k.toNat 44 20) (bits k.toNat 0 20) true 0xFF with
  | .error e, _, _ => fail (e.trap 0xFF (wordAt w 0))
  | _, .error t, _ => fail t
  | _, _, .error t => fail t
  | .ok _, .ok d, .ok _ =>
    if handleArray (w.getD 2 0) ≠ bits k.toNat 44 20 then fail (Trap.peg 2 0xFF 0)
    else if d.esz ≠ 8 then fail (Trap.peg 7 0xFF 0)
    else (s.walkerOp v.ctx (.media q slot false false)).modNode q slot (fun r => { r with op := some s.nextId })

/-- A STORAGE node arms its range: the destination is registered in mode RW (R219). -/
def State.startStorage (s : State) (q slot : Nat) (v : Queue) (w : List Word) : State :=
  let core := queueCore q
  let dst := w.getD 0 0
  let n := wordAt w 1
  match s.translate core v.ctx dst.toNat none true with
  | .error e => s.modNode q slot (fun r => { r with bad := some (e.trap 0xFF dst.toNat).node })
  | .ok _ =>
    if n = 0 then s.modNode q slot (fun r => { r with done := true }) else
    let id := s.nextId
    ((s.walkerOp v.ctx (.storage q slot dst n (wordAt w 2) 0)).lockRanges id false
      (lockPieces true (s.copySpan core v.ctx dst n true))).modNode q slot (fun r => { r with op := some id })

/-- What a node does when it starts (R245). -/
def State.runNode (s : State) (q slot : Nat) (v : Queue) : State :=
  let core := queueCore q
  let w := (List.range 8).map (fun i => BitVec.ofNat 64 (s.nodeWord q v slot (8 + i)))
  let fail (f : Nat × Nat × Nat) : State := s.modNode q slot (fun r => { r with bad := some f })
  if s.nodeInvalid q v slot then fail (3, 0, 0) else
  match bits (s.nodeWord q v slot 0) 60 4 with
  | 0 => s.modNode q slot (fun r => { r with done := true })
  | 1 =>
    (match s.startKernel core v.ctx w (some (q, slot)) none none (launchPrio w) (launchCrew w) with
     | none => fail (1, 0, 0)
     | some t => t.modNode q slot (fun r => { r with kern := some s.nextId }))
  | 2 => s.startCopyNode q slot v w
  | 3 =>
    (match s.walkerRead core v.ctx (wordAt w 0), s.translate core v.ctx (wordAt w 0) none true with
     | .ok m, .ok r =>
       (s.pokeNat r.1 8 (BitVec.ofNat 64 m - w.getD 1 0).toNat).modNode q slot (fun r => { r with done := true })
     | .error t, _ => fail t.node
     | _, .error e => fail (e.trap 0xFF (wordAt w 0)).node)
  | 4 => s.watchSignal q slot core v.ctx (wordAt w 0) (bits (wordAt w 2) 0 3) (w.getD 1 0)
  | 5 =>
    (match s.walkerRead core v.ctx (wordAt w 0) with
     | .error t => fail t.node
     | .ok n => s.modNode q slot (fun r => { r with done := true, cond := n != 0 }))
  | 6 =>
    let r := s.whileTurn q v slot
    if r.2 then r.1.arriveNode arrivalFuel q slot (s.succs q v slot).1 true else r.1
  | 7 =>
    let t := s.watchSignal q slot core v.ctx (wordAt w 1) 3 0
    if t.nodes.any (fun r => r.q == q && r.slot == slot && r.done) then t.launchSlice q slot else t
  | 8 => s.startMedia q slot v w
  | _ => s.startStorage q slot v w

/-- The first READY node from HEAD to TAIL in ring order (R248). -/
def State.firstReady (s : State) (q : Nat) (v : Queue) : Option Nat :=
  ((List.range v.used).map (fun i => (v.head + i) % v.nslot)).find? (fun j => s.nodeSt q v j == 2)

/-- NODE_START (R248, R251): the first READY node of an ACTIVE queue starts, while fewer than 64 are RUNNING. -/
def execNodeStart (q slot : Nat) (s : State) : Answer :=
  match s.queues.find q with
  | none => .next s
  | some v =>
    if !s.up || v.st ≠ .active || v.closing || decide (64 ≤ (s.runs q).length) || s.firstReady q v ≠ some slot || s.nodeWaits q v slot then
      .next s
    else
      let s := s.setNode q v slot 3
      let r : NodeRun :=
        { q := q, slot := slot, kern := none, op := none, watch := none, done := false, cond := false, bad := none }
      let s : State := { s with nodes := s.nodes ++ [r] }
      .next ((s.runNode q slot v).settleQueue q)

/-! ### The end of a node (R246, R250) -/

/-- Every course of a kernel has been placed and stands in its launch state, or has ended. -/
def State.launchedAll (s : State) (kern : Nat) : Bool :=
  match s.kernels.find kern with
  | some k => k.st != .placing && !s.courses.any (fun c => c.2.kern == kern && !c.2.started)
  | none => false

/-- A RUNNING node's operation has ended (R245). -/
def State.nodeOver (s : State) (r : NodeRun) (kind : Nat) : Bool :=
  r.bad.isNone &&
  (match kind with
   | 1 => (match r.kern.bind s.kernels.find with
       | some k => k.st == .retired
       | none => false)
   | 7 => (match r.kern with
       | some k => s.launchedAll k
       | none => false)
   | 8 => (match s.mediaOp r.q r.slot with
       | some (_, o) => (match o.kind with
           | .media _ _ _ last => last && !s.ops.any (fun p => p.2.cid.isNone && p.2.path == r.q && p.2.idx == r.slot && (match p.2.kind with
               | .ea _ => true
               | _ => false))
           | _ => false)
       | none => false)
   | _ => r.done)

/-- Takes a node off the list of RUNNING nodes: its media or storage operation goes, and TDONE is written (R244). -/
def State.leaveRun (s : State) (q : Nat) (v : Queue) (r : NodeRun) : State :=
  let s : State := match r.op with
    | some id => { (s.unlock id) with ops := (s.unlock id).ops.del id }
    | none => s
  ({ s with nodes := s.nodes.filter (fun t => !(t.q == q && t.slot == r.slot)) }).putNode q v r.slot 1 s.time.ns

/-- NODE_COMPLETE (R246): the node leaves RUNNING as COMPLETE and sends its arrivals. -/
def execNodeComplete (q slot : Nat) (s : State) : Answer :=
  match s.queues.find q, s.nodes.find? (fun r => r.q == q && r.slot == slot) with
  | some v, some r =>
    if !s.nodeOver r (bits (s.nodeWord q v slot 0) 60 4) then .next s else
    let s := (s.leaveRun q v r).setNode q v slot 4
    .next ((s.sendArrivals q slot r.cond).settleQueue q)
  | _, _ => .next s

/-- NODE_FAULT (R250): the node becomes FAULTED, an ACTIVE queue STOPPED, and the driver is notified. -/
def execNodeFault (q slot : Nat) (s : State) : Answer :=
  match s.queues.find q, s.nodes.find? (fun r => r.q == q && r.slot == slot) with
  | some v, some r =>
    (match r.bad with
     | none => .next s
     | some (f, c, u) =>
       let s := ((s.leaveRun q v r).setNode q v slot 6).putNode q v slot 3
         (f * 2 ^ 56 + c * 2 ^ 48 + u * 2 ^ 40 + bits (s.nodeWord q v slot 3) 0 16)
       let w : Queue := if v.st = .active then { v with st := .stopped, fnode := slot } else v
       let s : State := { s with queues := s.queues.put q w }
       .next ((s.settleQueue q).notify v.part
         { stamp := s.time.ns, ctx := v.ctx, src := 2 * 2 ^ 13 + q, cls := BitVec.ofNat 8 c, sub := BitVec.ofNat 8 u }))
  | _, _ => .next s

/-- SIGNAL_WRITE_REEVAL (R252, R121): paths and nodes that watch the word are evaluated against it, and a SLICE node whose signal has
reached zero launches its course. -/
def execSignalWriteReeval (pa : Nat) (s : State) : Answer :=
  let rd := s.goodWord
  let seen (p : Path) : Path := match p.wait with
    | .sig _ _ _ _ _ _ => { p with wait := p.wait.touched rd pa 1 }
    | _ => p
  let s : State := { s with
    courses := s.courses.map (fun (c : Nat × Course) => (c.1, { c.2 with paths := c.2.paths.map (fun (p : Nat × Path) => (p.1, seen p.2)) }))
    nodes := s.nodes.map (fun (r : NodeRun) => r.touched rd pa 1) }
  let ready (r : NodeRun) : Bool := r.done && r.kern.isNone && r.bad.isNone &&
    (match r.watch, s.queues.find r.q with
    | some (_, a, _, _), some v => a == pa && bits (s.nodeWord r.q v r.slot 0) 60 4 == 7
    | _, _ => false)
  .next ((s.nodes.filter ready).foldl (fun (s : State) (r : NodeRun) => s.launchSlice r.q r.slot) s)

/-! ### Appends (R237, R248) -/

/-- A new node at the slot after TAIL becomes TAIL: the old tail's ASUCC names it, and it is READY at once when the old tail is done. -/
def State.linkTail (s : State) (q slot : Nat) : State :=
  match s.queues.find q with
  | none => s
  | some v =>
    let st := s.nodeSt q v v.tail
    let done := v.tail = noNode ∨ st = 0 ∨ st = 4 ∨ st = 5
    let s := if v.tail = noNode then s else s.putNode q v v.tail 3 (setBits (s.nodeWord q v v.tail 3) 0 16 slot)
    let s := if done then
      s.putNode q v slot 0 (setBits (setBits (setBits (s.nodeWord q v slot 0) 57 3 2) 56 1 1) 32 8 0) else s
    ({ s with queues := s.queues.put q { v with tail := slot, used := v.used + 1 } }).settleQueue q

/-- An append of a launch or of slice.att, once the slot after TAIL is FREE; the flag falls (R237). -/
def State.appendDone (s : State) (op : Nat) (o : Op) (q kind : Nat) (words : List Word) : State :=
  match s.queues.find q with
  | none => s
  | some v =>
    let slot := (v.tail + 1) % v.nslot
    if v.st = .off ∨ v.ctx ≠ o.ctx ∨ v.nslot ≤ v.used ∨ s.nodeSt q v slot ≠ 0 then s else
    let s := [(0, kind * 2 ^ 60 + 2 ^ 57 + 2 ^ 40 + 2 ^ 32 + 0xFFFFFFFF), (1, 0), (2, 0), (3, noNode), (4, 0), (5, 0), (6, 0), (7, 0)].foldl
      (fun (s : State) w => s.putNode q v slot w.1 w.2) s
    let s := (List.range 8).foldl (fun (s : State) i => s.putNode q v slot (8 + i) (wordAt words i)) s
    (s.linkTail q slot).finishOp op

/-- SLICE_ATT (R121, R123): the entry becomes ATTACHED, and a SLICE node is appended. -/
def execSliceAtt (x : Args) (s : State) : Answer :=
  issue Enc.sliceAtt x (fun env s =>
    if env.acting x = 0 then .ok (s.addOp env x .nothing) else
    let d := (env.co.scalar x.d.num).toNat
    let q := bits d 0 5
    if !s.ownsQueue env.co.ctx q then .trap Trap.field else
    if nbit d 5 then .trap (Trap.illegal Sub.mbz) else
    let w := env.co.scalar x.a.num
    let sig := env.co.scalar x.b.num
    let h := Handle.ofWord w
    match s.sliceOwned env h with
    | .error t => .trap t
    | .ok _ =>
      let core := env.co.core
      let s := ((s.putSliceWord core h 2 sig.toNat).putSliceWord core h 3 q).putSliceWord core h 1 (sliceWord1 h.gen Slice.attached)
      .ok (s.addOp env x (.append q 7 [w, sig, BitVec.ofNat 64 (d / 64 * 64)]))) s

/-! ### The driver's registers (R248, R250, R314) -/

/-- A queue register of a partition page: a queue that another partition owns is left alone (R314). -/
def State.queuePage (s : State) (page q : Nat) : Bool :=
  s.up && decide (1 ≤ page) && decide (page ≤ 16) && decide (q < 32) && (match s.queues.find q with
    | some v => v.st == .off || v.part + 1 == page
    | none => true)

/-- The context of a partition whose address space holds a queue block at this address that names it. -/
def State.blockOwner (s : State) (part q va : Nat) : Option (Nat × List Word) :=
  ((s.ctxs.filter (fun c => c.2.part == part && (c.2.st == .active || c.2.st == .halted))).filterMap (fun c =>
    (s.walkerBlock (queueCore q) c.1 va 4).map (fun w => (c.1, w)))).find? (fun r =>
      bits (wordAt r.2 1) 48 16 == r.1 && bits (wordAt r.2 1) 44 4 == part)

/-- QBLOCK of a queue register as written (R314). -/
def State.setQblock (s : State) (q : Nat) (v : Word) : State := { s with qblocks := s.qblocks.set 0 q v }

/-- A ring size that R243 allows. -/
def ringSize (n : Nat) : Bool := (List.range 15).any (fun i => n == 2 ^ (i + 1))

/-- QUEUE_ENABLE (R250, R248, R314): QBLOCK takes the address; a queue that it enables begins with HEAD is 0, TAIL stands before the first FREE slot, and nodes with PREDS 0 become READY. -/
def execQueueEnable (page q : Nat) (va : Word) (s : State) : Answer :=
  if !s.queuePage page q || va == 0 then .next s else
  let s := s.setQblock q va
  if va.toNat % 64 != 0 then .next s else
  match s.queues.find q, s.blockOwner (page - 1) q va.toNat with
  | v, some (ctx, w) =>
    let nslot := bits (wordAt w 1) 0 16
    let off := match v with
      | some v => v.st == .off
      | none => true
    if !off || !ringSize nslot || wordAt w 0 % 128 != 0 then .next s else
    let v : Queue := { st := .active, block := va, ring := wordAt w 0, ctx := ctx, part := page - 1, prio := bits (wordAt w 1) 41 3,
                       nslot := nslot, head := 0, tail := noNode, used := 0, fnode := noNode, closing := false }
    let used := ((List.range nslot).find? (fun j => s.nodeSt q v j == 0)).getD nslot
    let v := { v with used := used, tail := if used = 0 then noNode else used - 1 }
    let s := (List.range used).foldl (fun (s : State) j =>
      let w0 := s.nodeWord q v j 0
      if nodeState w0 = 1 ∧ bits w0 40 8 = 0 then s.setNode q v j 2 else s) s
    .next (({ s with queues := s.queues.put q v }).settleQueue q)
  | _, none => .next s

/-- QUEUE_DISABLE (R250, R314): QBLOCK is 0, and the queue OFF once no node is RUNNING. -/
def execQueueDisable (page q : Nat) (s : State) : Answer :=
  if !s.queuePage page q then .next s else
  let s := s.setQblock q 0
  match s.queues.find q with
  | some v =>
    if v.st == .off then .next s else .next (State.settleQueue { s with queues := s.queues.put q { v with closing := true } } q)
  | none => .next s

/-- QUEUE_RESUME (R250): a STOPPED queue is ACTIVE again; a faulted node that the driver rewrote to COMPLETE sends its arrivals. -/
def execQueueResume (page q : Nat) (s : State) : Answer :=
  match s.queues.find q with
  | some v =>
    if !s.queuePage page q || v.st ≠ .stopped then .next s else
    let s := { s with queues := s.queues.put q { v with st := .active } }
    let cond := match s.walkerRead (queueCore q) v.ctx (s.nodeWord q v v.fnode 8) with
      | .ok n => n != 0
      | .error _ => false
    let s := if v.fnode < v.nslot ∧ s.nodeSt q v v.fnode = 4 then s.sendArrivals q v.fnode cond else s
    .next (s.settleQueue q)
  | none => .next s

/-- BELL (R248): the node that the host has written at the slot after TAIL becomes the new TAIL. -/
def execBell (page q tail : Nat) (s : State) : Answer :=
  match s.queues.find q with
  | some v =>
    if !s.queuePage page q || v.st == .off || decide (v.nslot ≤ v.used) || tail ≠ (v.tail + 1) % v.nslot || s.nodeSt q v tail == 0 then
      .next s
    else .next (s.linkTail q tail)
  | none => .next s

/-! ### Storage and media (R217 to R219) -/

/-- The part of a peer write at BAR offset off that lands in an armed range: where in the write, its destination and length. -/
def landing (off n dst count base : Nat) : Option (Nat × Nat × Nat) :=
  let a := max off base
  let b := min (off + n) (base + count)
  if a < b then some (a - off, dst + (a - base), b - a) else none

/-- The armed ranges that a peer write meets: operation, node, skipped bytes, destination and length. -/
def State.armed (s : State) (off n : Nat) : List (Nat × Op × Nat × Nat × Nat) :=
  s.ops.filterMap (fun o => match o.2.kind with
    | .storage _ _ dst count base _ => (landing off n dst.toNat count base).map (fun l => (o.1, o.2, l.1, l.2.1, l.2.2))
    | _ => none)

/-- Bytes of a peer write land in one armed range; the last of the count completes the node's operation. -/
def State.landStorage (s : State) (op : Nat) (o : Op) (skip dst n : Nat) (data : List Byte × List Bool) : State :=
  match o.kind with
  | .storage q slot d count base got =>
    (match s.copyPieces (queueCore q) o.ctx none (BitVec.ofNat 64 dst) n true with
     | .error t => s.nodeEnded (some (q, slot)) (some t)
     | .ok l =>
       let s := s.writeMarked l ((data.1.drop skip).take n, (data.2.drop skip).take n)
       let s := s.setOp op (.storage q slot d count base (got + n))
       if got + n < count then s else s.nodeEnded (some (q, slot)) none)
  | _ => s

/-- PEER_WRITE (R219, R317): bytes in armed ranges land there; a write that meets none of them in some part is discarded in that part
and counted by its window. A write that a lock forbids waits. Bytes that come with an error mark the blocks they land in (R310). -/
def execPeerWrite (off : Nat) (bytes : List Byte × List Bool) (s : State) : Answer :=
  let n := bytes.1.length
  if !s.up || n == 0 || decide (2 ^ 36 < off + n) then .next s else
  let w := off / 2 ^ 32
  let l := if (s.pkg.peerEn.getD w (0, false)).2 then s.armed off n else []
  let ready (a : Nat × Op × Nat × Nat × Nat) : Bool :=
    match a.2.1.kind with
    | .storage q _ _ _ _ _ =>
      (match s.copyPieces (queueCore q) a.2.1.ctx none (BitVec.ofNat 64 a.2.2.2.1) a.2.2.2.2 true with
       | .ok ps => s.engineReady a.1 a.2.1 [] ps
       | .error _ => true)
    | _ => true
  if !l.all ready then .next s else
  let whole := (List.range n).all (fun i => l.any (fun a => decide (a.2.2.1 ≤ i) && decide (i < a.2.2.1 + a.2.2.2.2)))
  let s := l.foldl (fun (s : State) a => match s.ops.find a.1 with
    | some o => s.landStorage a.1 o a.2.2.1 a.2.2.2.1 a.2.2.2.2 bytes
    | none => s) s
  .next (if whole then s else
    { s with pkg := { s.pkg with peerErr := s.pkg.peerErr.put w ((s.pkg.peerErr.getD w 0 + 1) % 2 ^ 32) } })

/-- A media operation may take a decoder of its die: one of the 16 is free, and no other waits ahead of it (R217, R248). -/
def State.decoderFree (s : State) (op q : Nat) : Bool :=
  let prio (k : Nat) : Nat := match s.queues.find k with
    | some v => v.prio
    | none => 0
  let busy := (s.ops.filter (fun o => match o.2.kind with
    | .media k _ true _ => k % 2 == q % 2
    | _ => false)).length
  decide (busy < 16) && !s.ops.any (fun o => match o.2.kind with
    | .media k _ false _ => k % 2 == q % 2 && (decide (prio q < prio k) || (decide (prio q = prio k) && decide (o.1 < op)))
    | _ => false)

/-- One row of a picture as bytes (R218): w samples of 8 bits, or of 10 bits at the top of 16, as far as they are given; zeros fill the row up
to its pitch. -/
def pictureRow (ten : Bool) (w pitch : Nat) (l : List Nat) : List Byte :=
  let b := (l.take w).flatMap (fun v => if ten then toLe 2 (v % 2 ^ 10 * 2 ^ 6) else toLe 1 v)
  b ++ List.replicate (pitch - b.length) 0

/-- The row pitch of a picture: the least multiple of 256 bytes that its rows fit in (log entry 116). -/
def picturePitch (ten : Bool) (width : Nat) : Nat := ((width + width % 2) * (if ten then 2 else 1) + 255) / 256 * 256

/-- A frame as NV12, or with ten bits as P010 (R218): the luma rows, then the rows of chroma pairs; rows beyond what has been decoded are
zero. -/
def pictureBytes (ten : Bool) (width height : Nat) (luma chroma : List Nat) : List Byte :=
  let pitch := picturePitch ten width
  let cw := width + width % 2
  (List.range height).flatMap (fun i => pictureRow ten width pitch (luma.drop (width * i)))
    ++ (List.range ((height + 1) / 2)).flatMap (fun i => pictureRow ten cw pitch (chroma.drop (cw * i)))

/-- The bitstream of a media node has a poisoned block: the decoder reports an error (R310). -/
def State.badBitstream (s : State) (q slot : Nat) (v : Queue) : Bool :=
  match s.range (queueCore q) v.ctx (BitVec.ofNat 64 (s.nodeWord q v slot 8)) (s.nodeWord q v slot 9) false with
  | .ok l => (s.poisonedAll l).isSome
  | .error _ => false

/-- DECODE_FRAME (R218): a frame, whose samples come from outside since the codec standards are no part of the spec, is given to its array
as one fill before the node's mortise. At the last frame, and at an error, the decoder writes its status, whose values the spec does not
give. -/
def execDecodeFrame (q slot : Nat) (frame : Picture) (err last : Bool) (s : State) : Answer :=
  match s.mediaOp q slot, s.queues.find q with
  | some (op, o), some v =>
    (match o.kind with
     | .media _ _ busy false =>
       if !s.up || !(busy || s.decoderFree op q) then .next s else
       let err := err || s.badBitstream q slot v
       let k : Word := BitVec.ofNat 64 (s.nodeWord q v slot 11)
       let data := pictureBytes frame.ten frame.width frame.height frame.luma frame.chroma
       let n := data.length / 256
       let s := s.setOp op (.media q slot true last)
       let s := if n = 0 then s else
         let job : EaJob := { o := .feed k n, phase := .offered, d := .zero, result := 0, trees := [], writes := [], shoots := [],
                              oldNodes := [], pages := [], leaves := [], freed := none, data := data }
         { s with
           ops := s.ops.put s.nextId { cid := none, ctx := v.ctx, path := q, ovl := 0, idx := slot, flag := none, lwb := 0, kind := .ea job,
                                       pend := [] }
           nextId := s.nextId + 1 }
       if err || last then
         let f := s.freeWord
         .next (f.2.putNode q v slot 13 f.1.toNat)
       else .next s
     | _ => .next s)
  | _, _ => .next s

end Sys2Proof.Machine
end

