-- ==== Sys2Proof/Machine/Experts.lean ====
section
/-!
DEFINITION. Messages to other packages (R320), expert queues (R254 to R271) and the retirement of courses (R241, R242).
-/

namespace Sys2Proof.Machine

/-! ### Messages to other packages (R320) -/

/-- A fabric link. -/
def State.link (s : State) (n : Nat) : Link := s.links.getD n Link.reset

/-- The link that the route table names toward a package (R313). -/
def State.routeTo (s : State) (pkg : Nat) : Option Nat :=
  match s.pkg.routes.find pkg with
  | some n => if n < 12 then some n else none
  | none => none

/-- The replay queues have room for one more message on each of the listed links. -/
def State.replayRoom (s : State) (l : List Nat) : Bool :=
  l.all (fun n => decide ((s.link n).queue.length + l.count n ≤ Config.replayDepth))

/-- Puts a message into a link's replay queue; its sequence number is the link's next. -/
def State.send (s : State) (n dest : Nat) (k : MsgKind) : State :=
  let l := s.link n
  let m : Msg := { seq := l.nextSeq, dest := dest, kind := k, retry := none, since := s.time.ns }
  { s with links := s.links.put n { l with nextSeq := (l.nextSeq + 1) % 2 ^ 32, queue := l.queue ++ [m] } }

/-- Changes a queued message. -/
def State.modMsg (s : State) (n seq : Nat) (f : Msg → Msg) : State :=
  let l := s.link n
  { s with links := s.links.put n { l with queue := l.queue.map (fun m => if m.seq = seq then f m else m) } }

/-- A queued message. -/
def State.msg (s : State) (n seq : Nat) : Option Msg := (s.link n).queue.find? (fun m => m.seq == seq)

/-- Takes a message off a replay queue. -/
def State.dropMsg (s : State) (n seq : Nat) : State :=
  let l := s.link n
  { s with links := s.links.put n { l with queue := l.queue.filter (fun m => m.seq != seq) } }

/-- Answers a message of another package; a final answer is kept, so that a resent message is applied once (R320). -/
def State.answer (s : State) (n seq : Nat) (r : Reply) : State :=
  let l := s.link n
  let old := match s.out with
    | .replies t => t
    | _ => []
  { s with
    links := if r = .retryLater then s.links else s.links.put n { l with seen := l.seen.filter (fun e => e.1 != seq) ++ [(seq, r)] }
    out := .replies (old ++ [(n, seq, r)]) }

/-- Two sequence numbers are so far apart that neither can stand for a resent message of the other's time: the numbers have come round
(R320, log entry 117). -/
def seqFar (a b : Nat) : Bool := decide (2 ^ 30 ≤ (a + 2 ^ 32 - b) % 2 ^ 32) && decide (2 ^ 30 ≤ (b + 2 ^ 32 - a) % 2 ^ 32)

/-- A link that forgets the numbers far from one it receives. -/
def Link.forget (l : Link) (seq : Nat) : Link := { l with seen := l.seen.filter (fun e => !seqFar e.1 seq) }

/-- Runs the receipt of a message: only on a link that is UP, and once for each sequence number (R320). -/
def State.receive (s : State) (n seq : Nat) (f : State → State) : State :=
  let l := s.link n
  if !s.up || l.st ≠ .up then s else
  match l.seen.find? (fun e => e.1 == seq) with
  | some e => { s with out := .replies [(n, seq, e.2)] }
  | none => f { s with out := .none, links := if l.seen.isEmpty then s.links else s.links.put n (l.forget seq) }

/-! ### Queues (R254, R255) -/

/-- Size of a row. -/
def XQ.rowSize (x : XQ) : Nat := 16 * (bits (wordAt x.cfg 0) 29 6 + 1)
/-- Size of an output row. -/
def XQ.outSize (x : XQ) : Nat := 16 * (bits (wordAt x.cfg 0) 23 6 + 1)
/-- KMAX. -/
def XQ.kmax (x : XQ) : Nat := bits (wordAt x.cfg 0) 19 4 + 1
/-- BCAP. -/
def XQ.bcap (x : XQ) : Nat := bits (wordAt x.cfg 0) 44 9
/-- F. -/
def XQ.fill (x : XQ) : Nat := bits (wordAt x.cfg 0) 35 9
/-- PRIO. -/
def XQ.prio (x : XQ) : Nat := bits (wordAt x.cfg 0) 53 3
/-- LAYER. -/
def XQ.layer (x : XQ) : Nat := bits (wordAt x.cfg 0) 0 16
/-- AGE. -/
def XQ.age (x : XQ) : Nat := bits (wordAt x.cfg 2) 0 32
/-- RROWS. -/
def XQ.rrows (x : XQ) : Nat := bits (wordAt x.cfg 3) 32 16
/-- RBASE. -/
def XQ.rbase (x : XQ) : Nat := bits (wordAt x.cfg 3) 0 32
/-- SPILLN. -/
def XQ.spilln (x : XQ) : Nat := bits (wordAt x.cfg 5) 0 32
/-- NTOK. -/
def XQ.ntok (x : XQ) : Nat := bits (wordAt x.cfg 7) 0 32

/-- The occupancy (R259). -/
def XQ.occ (x : XQ) : Nat := x.rows.length + (x.out.map (fun b => b.rows.length)).sum

/-- Places of the ring and spill region in use. -/
def XQ.places (x : XQ) : List Nat := (x.rows ++ x.out.flatMap (·.rows)).map (·.loc)

/-- HEADTS; 0 without a row. -/
def XQ.headTs (x : XQ) : Nat := match x.rows with
  | r :: _ => r.stamp
  | [] => 0

/-- The core whose walker translates for the cairn of a queue (R254). -/
def xqCore (q : Nat) : Nat := q / 512 % 2 * 48

/-- The device number of a context's package (R254, R273). -/
def State.devNo (s : State) (ctx : Nat) : Nat := bits (s.partWord (s.partOf ctx) 1) 8 12

/-- The queue is granted to a partition (R254, R273). -/
def State.xqGranted (s : State) (part q : Nat) : Bool :=
  let w := s.partWord part 6
  decide (q < 1024) && decide (bits w 30 10 ≤ q) && decide (q < bits w 30 10 + bits w 19 11)

/-- Physical pieces of a paged range, by the tables of a context alone. -/
def State.pagedSpan (s : State) (core ctx va n : Nat) (write : Bool) : Except Trap (List (Nat × Nat)) :=
  (pieces (n / 65536 + 2) va n).mapM (fun p =>
    match s.translate core ctx p.1 none write with
    | .ok r => .ok (r.1, p.2)
    | .error e => .error (e.trap 0xFF p.1))

/-- Where a row, or its tag, stands: the ring in the die store, then the spill region (R255). -/
def State.xqPlace (s : State) (q : Nat) (x : XQ) (loc : Nat) (tag write : Bool) : Except Trap (List (Nat × Nat)) :=
  let n := x.rowSize
  if loc < x.rrows then
    let base := dieBase (q / 512) + (s.window x.ctx (108 + q / 512)).1 * 256 + x.rbase
    .ok [if tag then (base + x.rrows * n + 8 * loc, 8) else (base + loc * n, n)]
  else
    let va := wordAt x.cfg 4 + 2 ^ 29 + (loc - x.rrows) * (8 + n)
    s.pagedSpan (xqCore q) x.ctx (if tag then va else va + 8) (if tag then 8 else n) write

/-- A configuration of the queue waits to be applied: a later push is not accepted before it (R260). -/
def State.xqPending (s : State) (q : Nat) : Bool :=
  s.ops.any (fun o => match o.2.kind with
    | .xqCfg r _ => r == q
    | _ => false)

/-! ### Configuration (R255, R260) -/

/-- The first failing check of a configuration block, and ALIGN of the addresses it holds (R255, R333). -/
def xqCheck (w : List Word) : Option Trap :=
  let x : XQ := { cfg := w, ctx := 0, dup := 0, fired := 0, cref := 0, serial := 0, rows := [], out := [], expiry := none }
  let off (a n : Nat) : List Trap := if a % n = 0 then [] else [Trap.align 0xFF a]
  if 1 < bits (wordAt w 0) 56 8 then some (Trap.illegal Sub.ver)
  else if bits (wordAt w 0) 56 8 = 0 ∨ x.bcap = 0 ∨ 256 < x.bcap ∨ x.fill = 0 ∨ x.bcap < x.fill ∨ x.age = 0 ∨ x.rrows < x.bcap ∨ x.ntok = 0 then
    some Trap.field
  else if bits (wordAt w 0) 16 3 ≠ 0 ∨ bits (wordAt w 2) 32 32 ≠ 0 ∨ bits (wordAt w 3) 48 16 ≠ 0 ∨ bits (wordAt w 5) 32 32 ≠ 0
      ∨ bits (wordAt w 7) 32 32 ≠ 0 then some (Trap.illegal Sub.mbz)
  else (off (wordAt w 1) 64 ++ off x.rbase 256 ++ off (wordAt w 4) 65536 ++ off (wordAt w 6) 256).head?

/-- The ring and its tags leave the context's window of the queue's die store (R255, R333 order 6). -/
def State.ringOut (s : State) (ctx q : Nat) (w : List Word) : Option Trap :=
  let n := 16 * (bits (wordAt w 0) 29 6 + 1) + 8
  let base := bits (wordAt w 3) 0 32
  if (s.window ctx (108 + q / 512)).2 * 256 < base + bits (wordAt w 3) 32 16 * n then some (Trap.page Sub.scr 0xFF base 0) else none

/-- The queue belongs to another context, or will by a configuration that waits (R260). -/
def State.xqForeign (s : State) (ctx q : Nat) : Bool :=
  (match s.xqs.find q with
   | some x => x.ctx != ctx
   | none => false) ||
  s.ops.any (fun o => o.2.ctx != ctx && (match o.2.kind with
    | .xqCfg r _ => r == q
    | _ => false))

/-- XQ_CFG (R260, R263, R333). -/
def xqCfgBody (x : Args) (env : Env) (s : State) : Res :=
  if env.acting x = 0 then .ok (s.addOp env x .nothing) else
  let q := env.val x .n32 x.b
  let ctx := env.co.ctx
  if !s.xqGranted (s.partOf ctx) q || s.xqForeign ctx q then .trap Trap.field else
  let va := (env.co.scalar x.a.num).toNat
  if va % 64 ≠ 0 then .trap (Trap.align 0xFF va) else
  awaitBlock va 64 env s (
    match s.pagedRead env.co va 64 0xFF with
    | .error t => .trap t
    | .ok l =>
      let w := wordsOf (leNat (s.peekAll l)) 8
      match xqCheck w, s.ringOut ctx q w with
      | some t, _ => .trap t
      | none, some t => .trap t
      | none, none => .ok (s.addOp env x (.xqCfg q w)))

/-- XQ_CFG (R260, R263, R333). -/
def execXqCfg (x : Args) (s : State) : Answer := issue Enc.xqCfg x (xqCfgBody x) s

/-- Zeroes n bytes that lie in one frame of DRAM or in one on-chip store, as a store of zeros would. -/
def State.zeroSpan (s : State) (pa n : Nat) : State :=
  let base := s.cell pa
  let t := { s with mem := s.mem.filter (fun c => !(decide (base ≤ c.1) && decide (c.1 < base + n))), poison := clearPoison s.poison base n }
  let rd := t.goodWord
  { t with
    courses := t.courses.map (fun (c : Nat × Course) =>
      (c.1, { c.2 with paths := c.2.paths.map (fun (p : Nat × Path) => (p.1, { p.2 with wait := p.2.wait.touched rd pa n })) }))
    nodes := t.nodes.map (fun (r : NodeRun) => r.touched rd pa n) }

/-- Clears the duplicate bitmap of a queue, page by page, where its pages are mapped writable (R255, R260). -/
def State.clearBitmap (s : State) (q ctx spill : Nat) : State :=
  (List.range 8192).foldl (fun (s : State) i =>
    match s.translate (xqCore q) ctx (spill + 65536 * i) none true with
    | .ok r => s.zeroSpan r.1 65536
    | .error _ => s) s

/-- XQ_CFG_APPLY (R260): once the queue holds no row and no outstanding batch the oldest waiting configuration applies. -/
def execXqCfgApply (op : Nat) (s : State) : Answer :=
  match s.ops.find op with
  | none => .next s
  | some o =>
    match o.kind with
    | .xqCfg q w =>
      let first := !s.ops.any (fun p => decide (p.1 < op) && (match p.2.kind with
        | .xqCfg r _ => r == q
        | _ => false))
      let (idle, serial) : Bool × BitVec 16 := match s.xqs.find q with
        | some x => (x.rows.isEmpty && x.out.isEmpty, x.serial)
        | none => (true, 0)
      if !first || !idle then .next s else
      let s := s.clearBitmap q o.ctx (wordAt w 4)
      let x : XQ :=
        { cfg := w, ctx := o.ctx, dup := 0, fired := 0, cref := 0, serial := serial, rows := [], out := [], expiry := none }
      .next ({ s with xqs := s.xqs.put q x }.finishOp op)
    | _ => .next s

/-! ### Accept (R261) -/

/-- What the cairn answers a row. -/
inductive XAnswer where
  | off
  | dup
  | spill
  | page (t : Trap)
  | place (loc : Nat)
  deriving DecidableEq, Repr

/-- Accept(l, q) of R261. -/
def State.xqAccept (s : State) (q : Nat) (tag : Word) : State × XAnswer :=
  match s.xqs.find q with
  | none => (s, .off)
  | some x =>
    let t := bits tag.toNat 32 32
    let va := wordAt x.cfg 4 + t / 8
    match s.translate (xqCore q) x.ctx va none false with
    | .error e => (s, .page (e.trap 0xFF va))
    | .ok r =>
      let b := s.peekNat r.1 1
      if nbit b (t % 8) then ({ s with xqs := s.xqs.put q { x with dup := x.dup + 1 } }, .dup)
      else if x.rrows + x.spilln ≤ x.occ then (s, .spill)
      else
        let loc := ((List.range (x.occ + 1)).find? (fun i => !x.places.contains i)).getD 0
        match s.translate (xqCore q) x.ctx va none true, s.xqPlace q x loc true true, s.xqPlace q x loc false true with
        | .ok _, .ok _, .ok _ =>
          let r' : XRow := { loc := loc, stamp := s.time.ns }
          let x : XQ := { x with rows := x.rows ++ [r'], expiry := if x.rows.isEmpty then none else x.expiry }
          (({ s with xqs := s.xqs.put q x }).pokeNat r.1 1 (b + 2 ^ (t % 8)), .place loc)
        | .error e, _, _ => (s, .page (e.trap 0xFF va))
        | _, .error t, _ => (s, .page t)
        | _, _, .error t => (s, .page t)

/-- NEED of an XQSPILL (R263): of the rows (queue, tag) of an instruction, those that would take a place in queue q. -/
def State.xqNeed (s : State) (q : Nat) (l : List (Nat × Word)) : Nat :=
  match s.xqs.find q with
  | none => 0
  | some x =>
    let toks := ((l.filter (fun e => e.1 == q)).map (fun e => bits e.2.toNat 32 32)).eraseDups
    (toks.filter (fun t => match s.translate (xqCore q) x.ctx (wordAt x.cfg 4 + t / 8) none false with
      | .ok r => !nbit (s.peekNat r.1 1) (t % 8)
      | .error _ => true)).length

/-! ### Push (R258, R261, R263) -/

/-- A row that a lane pushes: its tag, its source, its queue, and the link to its package when that is another one. -/
structure PushRow where
  lane : Nat
  tag : Word
  src : Word
  word : Nat
  q : Nat
  dev : Nat
  link : Option Nat
  deriving DecidableEq, Repr

/-- The row of a lane, as its operands give it (R256, R258). -/
def State.pushRow (s : State) (env : Env) (x : Args) (own l : Nat) : PushRow :=
  let w := s.lane env x .n32 x.b l
  let t := s.lane env x .n64 x.d l
  let dev := bits w 20 12
  { lane := l, tag := BitVec.ofNat 64 (t / 2 ^ 28 * 2 ^ 28 + own * 2 ^ 16), src := BitVec.ofNat 64 (s.lane env x .n64 x.a l), word := w,
    q := bits w 0 10, dev := dev, link := if dev = own then none else s.routeTo dev }

/-- The size of the row, which its destination's configuration gives; of another package's queue it is a free value (log entry 52). -/
def State.pushSize (s : State) (r : PushRow) : Nat :=
  match r.link, s.xqs.find r.q with
  | none, some x => x.rowSize
  | _, _ => 16 * ((Config.freeValue s.free).toNat % 64 + 1)

/-- Pieces of a range that an expert-queue instruction will move: PAGE, PRIVHW and RLOCK (R132, R263). -/
def State.xqRange (s : State) (env : Env) (a : Word) (n : Nat) (write : Bool) : Except Trap (List (Nat × Nat)) := do
  let l ← s.copyPieces env.co.core env.co.ctx (some env.co) a n write
  match l.findSome? (fun p => s.lockAt s.nextId p.1 p.2 write) with
  | some (k, e) => .error (Trap.rlock k e env.cid 0xFF a.toNat)
  | none => .ok l

/-- The first failing check of a push before acceptance (R263): FIELD, ALIGN, then its sources; the lowest lane of the first. -/
def State.pushTrap (s : State) (env : Env) (own : Nat) (l : List PushRow) : Option Trap :=
  let part := s.partOf env.co.ctx
  match l.find? (fun r => bits r.word 10 10 != 0 || (if r.dev = own then !s.xqGranted part r.q else r.link.isNone)),
    l.find? (fun r => r.src.toNat % 16 != 0) with
  | some r, _ => some (Trap.field.onLane r.lane)
  | none, some r => some (Trap.align r.lane r.src.toNat)
  | none, none =>
    (firstTrap (l.map (fun r =>
      if r.link.isNone && (s.xqs.find r.q).isNone then .ok [] else
      match s.xqRange env r.src (s.pushSize r) false with
      | .ok p => .ok p
      | .error t => .error (t.onLane r.lane))))

/-- Acceptance of the rows for this package, in ascending lane order, or the refusal of the lowest lane (R261). -/
def State.acceptRows (s : State) :
    List PushRow → Except Trap (State × List (Nat × Word × Word × Nat × Nat) × LaneMask)
  | [] => .ok (s, [], 0)
  | r :: t =>
    if r.link.isSome then s.acceptRows t else
    let lane := BitVec.ofNat 64 (2 ^ r.lane)
    match s.xqAccept r.q r.tag with
    | (_, .off) => .error (Trap.field.onLane r.lane)
    | (_, .spill) => .error { cls := 0x0B, sub := 0, lane := BitVec.ofNat 8 r.lane, info := BitVec.ofNat 64 r.q }
    | (_, .page t) => .error (t.onLane r.lane)
    | (s, .dup) => (s.acceptRows t).map (fun e => (e.1, e.2.1, e.2.2 ||| lane))
    | (s, .place loc) => (s.acceptRows t).map (fun e => (e.1, (r.lane, r.tag, r.src, r.q, loc) :: e.2.1, e.2.2))

/-- Reserves a replay row for each row that goes to another package; a remote row's place is 1,024 plus its link, and its sequence
number. -/
def State.sendRows (s : State) (op : Nat) :
    List PushRow → State × List (Nat × Word × Word × Nat × Nat) × List (Nat × Nat × Nat)
  | [] => (s, [], [])
  | r :: t =>
    match r.link with
    | none => s.sendRows op t
    | some n =>
      let seq := (s.link n).nextSeq
      let u := s.send n r.dev (.push op r.lane r.dev r.q r.tag (List.replicate (s.pushSize r) 0) [])
      let e := u.sendRows op t
      (e.1, (r.lane, r.tag, r.src, 1024 + n, seq) :: e.2.1, (r.lane, n, seq) :: e.2.2)

/-- XQ_PUSH (R258, R261, R263). -/
def xqPushBody (x : Args) (env : Env) (s : State) : Res :=
  let act := lanesOf (env.acting x)
  if act.isEmpty then .ok (s.addOp env x .nothing) else
  let own := s.devNo env.co.ctx
  let l := act.map (s.pushRow env x own)
  match s.pushTrap env own l with
  | some t => .trap t
  | none =>
    if !s.drained env.cid s.nextId || l.any (fun r => r.link.isNone && s.xqPending r.q) then .stall s else
    match s.acceptRows l with
    | .error t =>
      .trap (if t.cls = 0x0B then { t with info := t.info + BitVec.ofNat 64 (2 ^ 16 * s.xqNeed (t.info.toNat % 1024)
        ((l.filter (fun r => r.link.isNone)).map (fun r => (r.q, r.tag)))) } else t)
    | .ok (t, here, dups) =>
      if !s.replayRoom (l.filterMap (·.link)) then .stall s else
      let id := t.nextId
      let p : BitVec 6 := match x.g with
        | .on p _ => p
        | .always => 0
      let e := t.sendRows id l
      let srcs := l.filterMap (fun r =>
        if (here ++ e.2.1).any (fun h => h.1 == r.lane) then
          (match s.copyPieces env.co.core env.co.ctx (some env.co) r.src (s.pushSize r) false with
           | .ok p => some p
           | .error _ => none)
        else none)
      let t := if l.any (fun r => r.link.isSome) then { e.1 with free := s.free + 1 } else e.1
      .ok ((t.addOp env x (.xqPush p (here ++ e.2.1) dups e.2.2)).lockRanges id false (lockPieces false srcs.flatten))

/-- XQ_PUSH (R258, R261, R263). -/
def execXqPush (x : Args) (s : State) : Answer := issue Enc.xqPush x (xqPushBody x) s

/-! ### Transfer of pushed rows (R261) -/

/-- The pieces of a check that passed. -/
def passed (r : Except Trap (List (Nat × Nat))) : List (Nat × Nat) := match r with
  | .ok l => l
  | .error _ => []

/-- The pieces of a source as far as it translates, and the fault met after them. -/
def State.copyPrefix (s : State) (core ctx : Nat) (co : Option Course) (a : Word) (n : Nat) : List (Nat × Nat) × Option Trap :=
  match s.copyPieces core ctx co a n false with
  | .ok l => (l, none)
  | .error t =>
    if isScratchAddr a then ([], some t) else
    let l := (pieces (n / 65536 + 2) a.toNat n).map (fun p => (s.copyPieces core ctx co (BitVec.ofNat 64 p.1) p.2 false))
    ((l.takeWhile (fun r => match r with
      | .ok _ => true
      | .error _ => false)).flatMap (fun r => match r with
      | .ok l => l
      | .error _ => []), some t)

/-- The bytes and marks of pieces, filled up with zeros to n bytes. -/
def State.readFill (s : State) (l : List (Nat × Nat)) (n : Nat) : List Byte × List Bool :=
  let d := s.readMarked l
  (d.1 ++ List.replicate (n - d.1.length) 0, d.2)

/-- The size of a row under transfer: its message's, or its queue's while the queue holds its place. -/
def State.transferSize (s : State) (q loc : Nat) : Option Nat :=
  if 1024 ≤ q then
    match s.msg (q - 1024) loc with
    | some m => (match m.kind with
      | .push _ _ _ _ _ row _ => some row.length
      | _ => none)
    | none => none
  else
    match s.xqs.find q with
    | some x => if x.places.contains loc then some x.rowSize else none
    | none => none

/-- Stores marked bytes at a paged range of a cairn, page by page; the first page that does not take them is the fault (R261). -/
def State.putPaged (s : State) (core ctx va : Nat) (d : List Byte × List Bool) : State × Option Trap :=
  ((pieces (d.1.length / 65536 + 2) va d.1.length).foldl (fun (a : (State × Option Trap) × Nat) p =>
    ((match a.1.1.translate core ctx p.1 none true with
      | .ok r => (a.1.1.writeMarked [(r.1, p.2)] ((d.1.drop a.2).take p.2, (d.2.drop a.2).take p.2), a.1.2)
      | .error e => (a.1.1, some (a.1.2.getD (e.trap 0xFF p.1)))), a.2 + p.2)) ((s, none), 0)).1

/-- Physical places of a row and its tag, as far as their pages take a write. -/
def State.xRowPlaces (s : State) (q loc : Nat) : List (Nat × Nat) :=
  match s.xqs.find q with
  | none => []
  | some x => passed (s.xqPlace q x loc false true) ++ passed (s.xqPlace q x loc true true)

/-- Puts a row and its tag, with the row's marks, into their place: a ring or spill row, or a message of the replay queue (R261, R310). -/
def State.putXRow (s : State) (q loc : Nat) (tag : Word) (d : List Byte × List Bool) : State × Option Trap :=
  if 1024 ≤ q then
    (s.modMsg (q - 1024) loc (fun m => { m with kind := match m.kind with
      | .push op lane dev k tag _ _ => .push op lane dev k tag d.1 d.2
      | k => k }), none)
  else
    match s.xqs.find q with
    | none => (s, none)
    | some x =>
      if loc < x.rrows then
        ((s.writeMarked (passed (s.xqPlace q x loc false true)) d).pokeAll (passed (s.xqPlace q x loc true true)) (toLe 8 tag.toNat) false, none)
      else
        let va := wordAt x.cfg 4 + 2 ^ 29 + (loc - x.rrows) * (8 + x.rowSize)
        let r := s.putPaged (xqCore q) x.ctx (va + 8) d
        let t := r.1.putPaged (xqCore q) x.ctx va (toLe 8 tag.toNat, [])
        (t.1, r.2.or t.2)

/-- A step of a push: the rows are copied into their places and the lock is released; once every lane is resolved, the guard predicate
is cleared in the duplicate lanes and the flag falls. -/
def State.pushStep (s : State) (op : Nat) (o : Op) (p : BitVec 6) (todo : List (Nat × Word × Word × Nat × Nat)) (dups : LaneMask)
    (remote : List (Nat × Nat × Nat)) : State :=
  match o.cid, o.cid.bind s.courses.find with
  | some cid, some c =>
    if todo.isEmpty then
      if remote.isEmpty && s.mayLand o then (s.inRecord cid (fun s => s.setPred cid p.toNat dups 0)).finishOp op else s
    else
      let rows := todo.filterMap (fun e => (s.transferSize e.2.2.2.1 e.2.2.2.2).map (fun n =>
        (e, n, s.copyPrefix c.core c.ctx (some c) e.2.2.1 n)))
      let reads := rows.flatMap (fun r => r.2.2.1)
      let writes := rows.flatMap (fun r => s.xRowPlaces r.1.2.2.2.1 r.1.2.2.2.2)
      if !s.engineReady op o reads writes || !(scratchLinesOf reads).all (fun x => !s.absent.contains x) then s else
      let r := rows.foldl (fun (a : State × Option Trap) r =>
        let e := r.1
        let t := a.1.putXRow e.2.2.2.1 e.2.2.2.2 e.2.1 (a.1.readFill r.2.2.1 r.2.1)
        let bad : Option Trap := match r.2.2.2 with
          | some b => some (b.onLane e.1)
          | none => t.2.map (fun b => b.onLane e.1)
        (t.1, match a.2 with
          | some b => some b
          | none => bad)) (s, none)
      let t := (r.1.unlock op).setOp op (.xqPush p [] dups remote)
      match r.2 with
      | some b => t.lateTrap op o b
      | none => t
  | _, _ => s

/-- A row of the listed places of a queue is still under transfer. -/
def State.rowsMoving (s : State) (q : Nat) (locs : List Nat) : Bool :=
  s.ops.any (fun o => match o.2.kind with
    | .xqPush _ todo _ _ => todo.any (fun e => e.2.2.2.1 == q && locs.contains e.2.2.2.2)
    | _ => false)

/-- The final reply to a pushed row (R267): a row not accepted leaves its lane's guard predicate cleared. -/
def State.pushReplied (s : State) (op n seq : Nat) (r : Reply) : State :=
  match s.ops.find op with
  | none => s
  | some o =>
    match o.kind with
    | .xqPush p todo dups remote =>
      let mine := remote.filter (fun e => e.2.1 == n && e.2.2 == seq)
      let lost : LaneMask := if r = .accept then 0 else mine.foldl (fun m e => m ||| BitVec.ofNat 64 (2 ^ e.1)) 0
      s.setOp op (.xqPush p todo (dups ||| lost) (remote.filter (fun e => !(e.2.1 == n && e.2.2 == seq))))
    | _ => s

/-! ### Batches (R259, R262, R263) -/

/-- The outstanding batch that a handle names, if it is the context's. -/
def State.batchOf (s : State) (ctx : Nat) (h : Word) : Option (Nat × XQ × Batch) :=
  let q := bits h.toNat 54 10
  match s.xqs.find q with
  | some x => if x.ctx = ctx then (x.out.find? (fun b => b.handle == h)).map (fun b => (q, x, b)) else none
  | none => none

/-- A batch is done: its rows and tags are released. -/
def State.batchDone (s : State) (q : Nat) (h : Word) : State :=
  match s.xqs.find q with
  | some x => { s with xqs := s.xqs.put q { x with out := x.out.filter (fun b => b.handle != h) } }
  | none => s

/-- An absent tag destination: no tag address is odd. -/
def noTags : Word := BitVec.allOnes 64

/-- Two results of checks in the order of R132. -/
def earlier (a b : Option Trap) : Option Trap :=
  match a, b with
  | some t, some u => some (if u.order < t.order then u else t)
  | some t, none => some t
  | none, u => u

/-- The trap of a check, if it failed. -/
def failed {α : Type} (r : Except Trap α) : Option Trap := match r with
  | .ok _ => none
  | .error t => some t

/-- XQ_POP (R262, R263). -/
def xqPopBody (x : Args) (env : Env) (s : State) : Res :=
  if env.acting x = 0 then .ok (s.addOp env x .nothing) else
  match s.batchOf env.co.ctx (env.co.scalar x.a.num) with
  | none => .trap Trap.field
  | some (q, v, b) =>
    let d := env.co.scalar x.d.num
    let t := if x.b = .zero then noTags else env.co.scalar x.b.num
    if d.toNat % 16 ≠ 0 then .trap (Trap.align 0xFF d.toNat) else
    if x.b ≠ .zero ∧ t.toNat % 8 ≠ 0 then .trap (Trap.align 0xFF t.toNat) else
    let n := b.rows.length
    let rows := s.xqRange env d (n * v.rowSize) true
    let tags := if x.b = .zero then .ok [] else s.xqRange env t (8 * n) true
    match earlier (failed rows) (failed tags) with
    | some e => .trap e
    | none =>
      let l := passed rows ++ passed tags
      let id := s.nextId
      .ok (((s.addOp env x (.xqPop q (b.rows.map (·.loc)) d t)).clearLines (scratchLinesOf l)).lockRanges id false (lockPieces true l))

/-- XQ_POP (R262, R263). -/
def execXqPop (x : Args) (s : State) : Answer := issue Enc.xqPop x (xqPopBody x) s

/-- The end of a pop: rows and tags of the batch stand at their destinations (R262, R215). -/
def State.popStep (s : State) (op : Nat) (o : Op) (q : Nat) (locs : List Nat) (d t : Word) : State :=
  match o.cid.bind s.courses.find, s.xqs.find q with
  | some c, some x =>
    let n := x.rowSize
    let rows := s.copyPieces c.core c.ctx (some c) d (locs.length * n) true
    let tags := if t = noTags then .ok [] else s.copyPieces c.core c.ctx (some c) t (8 * locs.length) true
    let l := passed rows ++ passed tags
    let src := earlier (locs.findSome? (fun j => failed (s.xqPlace q x j false false))) (locs.findSome? (fun j => failed (s.xqPlace q x j true false)))
    match earlier (failed rows) (earlier (failed tags) src) with
    | some e => (s.arriveLines op (scratchLinesOf l)).failOp op o e
    | none =>
      if s.rowsMoving q locs || !s.engineReady op o [] l then s else
      let w := s.writeMarked (passed rows) (s.readMarked (locs.flatMap (fun j => passed (s.xqPlace q x j false false))))
      let w := w.writeMarked (passed tags) (s.readMarked (locs.flatMap (fun j => passed (s.xqPlace q x j true false))))
      ((w.arriveLines op (scratchLinesOf l)).unlock op).finishOp op
  | _, _ => (s.unlock op).finishOp op

/-- The tags of a batch's rows, or the fault of reading them. -/
def State.batchTags (s : State) (q : Nat) (x : XQ) (b : Batch) : Except Trap (List Word) :=
  b.rows.mapM (fun r => (s.xqPlace q x r.loc true false).map (fun l => BitVec.ofNat 64 (leNat (s.peekAll l))))

/-- Virtual address of a combine slot (R255). -/
def XQ.slotVa (x : XQ) (tag : Word) : Nat :=
  wordAt x.cfg 6 + (bits tag.toNat 32 32 * x.kmax + bits tag.toNat 28 4) * x.outSize

/-- Output rows that another package refuses are counted in CREF, which saturates (R262, R268). -/
def State.refuseComb (s : State) (q : Nat) : State :=
  match s.xqs.find q with
  | some x => { s with xqs := s.xqs.put q { x with cref := min (x.cref + 1) (2 ^ 20 - 1) } }
  | none => s

/-- Reserves a replay row for each output row of another package; a row without a route is refused at once. -/
def State.sendComb (s : State) (op q own : Nat) (x : XQ) : List (Nat × Word) → State × List (Nat × Word) × List (Nat × Nat)
  | [] => (s, [], [])
  | (i, tag) :: t =>
    let dev := bits tag.toNat 16 12
    if dev = own then
      let e := s.sendComb op q own x t
      (e.1, (i, tag) :: e.2.1, e.2.2)
    else match s.routeTo dev with
      | none => (s.refuseComb q).sendComb op q own x t
      | some n =>
        let seq := (s.link n).nextSeq
        let e := (s.send n dev (.comb op i q x.layer tag x.kmax (bits (wordAt x.cfg 0) 23 6) (List.replicate x.outSize 0) [])).sendComb op q own x t
        (e.1, (i, tag) :: e.2.1, (n, seq) :: e.2.2)

/-- XQ_COMB (R262, R263, R268). -/
def xqCombBody (x : Args) (env : Env) (s : State) : Res :=
  if env.acting x = 0 then .ok (s.addOp env x .nothing) else
  match s.batchOf env.co.ctx (env.co.scalar x.a.num) with
  | none => .trap Trap.field
  | some (q, v, b) =>
    if s.rowsMoving q (b.rows.map (·.loc)) then .stall s else
    match s.batchTags q v b with
    | .error t => .trap t
    | .ok tags =>
      if tags.any (fun g => decide (v.ntok ≤ bits g.toNat 32 32) || decide (v.kmax ≤ bits g.toNat 28 4)) then .trap Trap.field else
      let d := env.co.scalar x.d.num
      if d.toNat % 16 ≠ 0 then .trap (Trap.align 0xFF d.toNat) else
      let own := s.devNo env.co.ctx
      let here := tags.filter (fun g => bits g.toNat 16 12 == own)
      let src := s.xqRange env d (tags.length * v.outSize) false
      let dst := here.findSome? (fun g => failed (s.xqRange env (BitVec.ofNat 64 (v.slotVa g)) v.outSize true))
      match earlier (failed src) dst with
      | some e => .trap e
      | none =>
        if !s.replayRoom ((tags.filter (fun g => bits g.toNat 16 12 != own)).filterMap (fun g => s.routeTo (bits g.toNat 16 12))) then
          .stall s
        else
        let id := s.nextId
        let e := s.sendComb id q own v (tags.zipIdx.map (fun g => (g.2, g.1)))
        .ok (e.1.addOp env x (.xqComb q d e.2.1 e.2.2))

/-- XQ_COMB (R262, R263, R268). -/
def execXqComb (x : Args) (s : State) : Answer := issue Enc.xqComb x (xqCombBody x) s

/-- The final reply to an output row (R268). -/
def State.combReplied (s : State) (op n seq : Nat) (r : Reply) : State :=
  match s.ops.find op with
  | none => s
  | some o =>
    match o.kind with
    | .xqComb q d todo remote =>
      let s := s.setOp op (.xqComb q d todo (remote.filter (fun e => !(e.1 == n && e.2 == seq))))
      if r = .accept then s else s.refuseComb q
    | _ => s

/-- Fills the message of an output row with its bytes and their marks (R310). -/
def State.fillComb (s : State) (op row : Nat) (remote : List (Nat × Nat)) (data : List Byte × List Bool) : State :=
  remote.foldl (fun (s : State) e => s.modMsg e.1 e.2 (fun m => { m with kind := match m.kind with
    | .comb o i q l t k u b c => if o = op ∧ i = row then .comb o i q l t k u data.1 data.2 else .comb o i q l t k u b c
    | k => k })) s

/-- A step of a comb: every row is written into its slot or its message; the flag falls once every remote row has its reply. -/
def State.combStep (s : State) (op : Nat) (o : Op) (q : Nat) (d : Word) (todo : List (Nat × Word)) (remote : List (Nat × Nat)) : State :=
  match o.cid.bind s.courses.find, s.xqs.find q with
  | some c, some x =>
    if todo.isEmpty then (if remote.isEmpty then s.finishOp op else s) else
    let own := s.devNo o.ctx
    let n := x.outSize
    let at_ (i : Nat) : Except Trap (List (Nat × Nat)) :=
      s.copyPieces c.core c.ctx (some c) (d + BitVec.ofNat 64 (i * n)) n false
    let slot (g : Word) : Except Trap (List (Nat × Nat)) := s.pagedSpan (xqCore q) x.ctx (x.slotVa g) n true
    let here := todo.filter (fun e => bits e.2.toNat 16 12 == own)
    let bad := earlier (todo.findSome? (fun e => failed (at_ e.1))) (here.findSome? (fun e => failed (slot e.2)))
    let reads := todo.flatMap (fun e => passed (at_ e.1))
    if !s.engineReady op o reads (here.flatMap (fun e => passed (slot e.2))) || !(scratchLinesOf reads).all (fun l => !s.absent.contains l) then s
    else
      let w := todo.foldl (fun (w : State) e =>
        if bits e.2.toNat 16 12 = own then w.writeMarked (passed (slot e.2)) (s.readMarked (passed (at_ e.1)))
        else w.fillComb op e.1 remote (s.readMarked (passed (at_ e.1)))) s
      let w := w.setOp op (.xqComb q d [] remote)
      match bad with
      | some t => w.lateTrap op o t
      | none => w
  | _, _ => s.finishOp op

/-- XQ_DONE (R262): it takes effect at the cairn after the course's earlier operations on the batch. -/
def execXqDone (x : Args) (s : State) : Answer :=
  issue Enc.xqDone x (fun env s =>
    if env.acting x = 0 then .ok (s.addOp env x .nothing) else
    let h := env.co.scalar x.a.num
    match s.batchOf env.co.ctx h with
    | none => .trap Trap.field
    | some (q, _, b) =>
      if (s.opsOf env.cid).any (fun o => match o.2.kind with
        | .xqPop r locs _ _ => r == q && locs == b.rows.map (·.loc)
        | .xqComb r _ todo _ => r == q && !todo.isEmpty
        | _ => false) then .stall s
      else .ok ((s.batchDone q h).addOp env x .nothing)) s

/-- Word k of a queue's status (R262). -/
def State.xqStatus (s : State) (ctx q k : Nat) : Nat :=
  match s.xqs.find q with
  | none => if k = 3 then s.devNo ctx else 0
  | some x =>
    let n := x.rows.length
    let st := if n = 0 then 1 else if x.fill ≤ n ∨ x.age ≤ s.time.ns - x.headTs then 3 else 2
    match k with
    | 0 => st * 2 ^ 62 + x.layer * 2 ^ 32 + n
    | 1 => x.dup.toNat * 2 ^ 32 + x.fired.toNat
    | 2 => x.headTs
    | _ => x.occ * 2 ^ 32 + x.cref * 2 ^ 12 + s.devNo ctx

/-- XQ_STAT (R262): a snapshot at the cairn. -/
def execXqStat (x : Args) (s : State) : Answer :=
  issue Enc.xqStat x (fun env s =>
    if env.acting x = 0 then .ok (s.addOp env x .nothing) else
    let q := env.val x .n32 x.a
    if !s.xqGranted (s.partOf env.co.ctx) q then .trap Trap.field else
    .ok (s.addOp env x (.land .n64 x.d [(64, s.xqStatus env.co.ctx q x.b.ctl)]))) s

/-! ### Firing (R264, R265) -/

/-- The crew is taken for a batch whose courses have not all joined it. -/
def State.crewTaken (s : State) (ctx k : Nat) : Bool :=
  s.kernels.any (fun e => e.2.ctx == ctx && e.2.batch.isSome && e.2.crew == k &&
    (e.2.st == .placing || s.courses.any (fun c => c.2.kern == e.1 && !c.2.started)))

/-- The highest-numbered EMPTY crew of a context: STATE of its entry says so, as the device follows what it finds (R221, R265). -/
def State.emptyCrew (s : State) (core ctx : Nat) : Option Nat :=
  ((List.range 65535).map (fun i => 65534 - i)).find? (fun k => match s.crewEnt core ctx k false with
    | .ok e => !e.live && !s.crewTaken ctx k
    | .error _ => false)

/-- The distributor holds an earlier batch of the queue unplaced, whether or not its handle is still outstanding (R264). -/
def State.unplaced (s : State) (q : Nat) (x : XQ) : Bool :=
  s.kernels.any (fun k => k.2.ctx == x.ctx && k.2.st == .placing && (match k.2.batch with
    | some h => bits h.toNat 54 10 == q
    | none => false))

/-- A batch's kernel cannot start: the batch is done at once, and the driver is notified (R265). -/
def State.fireFault (s : State) (q : Nat) (x : XQ) (h : Word) (k : Kernel) : State :=
  let s : State := { s with kernels := s.kernels.put s.nextId k, nextId := s.nextId + 1 }
  (s.batchDone q h).notify (s.partOf x.ctx)
    { stamp := s.time.ns, ctx := x.ctx, src := 3 * 2 ^ 13 + q / 512, cls := 0, sub := 0 }

/-- The rows that a queue holds at a selection round: those stamped no later than it (R264). -/
def XQ.rowsAt (x : XQ) (round : Nat) : List XRow := x.rows.filter (fun r => decide (r.stamp ≤ 40 * round))

/-- Fires a queue at a round with the crew taken (R265). -/
def State.fire (s : State) (q : Nat) (x : XQ) (round crew : Nat) : State :=
  let rows := (x.rowsAt round).take x.bcap
  let h : Word := BitVec.ofNat 64 (q * 2 ^ 54 + x.serial.toNat * 2 ^ 32 + crew * 2 ^ 16 + rows.length)
  let b : Batch := { handle := h, rows := rows, kern := s.nextId }
  let x : XQ := { x with rows := x.rows.drop rows.length, out := x.out ++ [b],
                         fired := x.fired + 1, serial := x.serial + 1, expiry := none }
  let s : State := { s with xqs := s.xqs.put q x }
  let dead (w : List Word) : Kernel :=
    { st := .faulted, ctx := x.ctx, part := s.partOf x.ctx, words := w, prio := x.prio, crew := crew, next := 0, courses := 0, live := 0,
      node := none, told := false, batch := some h, graft := none }
  match s.walkerBlock (xqCore q) x.ctx (wordAt x.cfg 1) 8 with
  | none => s.fireFault q x h (dead [])
  | some w =>
    match s.startKernel (xqCore q) x.ctx w none (some h) none x.prio crew with
    | some t => t
    | none => s.fireFault q x h (dead w)

/-- A queue under selection may be fired now: no earlier batch is unplaced, an EMPTY crew is there, and its context is not leaving. -/
def State.fireCrew (s : State) (q : Nat) (x : XQ) : Option Nat :=
  let live := match s.ctxs.find x.ctx with
    | some c => c.st == .active || c.st == .halted
    | none => false
  if s.unplaced q x || !live then none else s.emptyCrew (xqCore q) x.ctx

/-- The queues of a die that a round considers, each with its place in the order of R264. -/
def State.candidates (s : State) (die round : Nat) : List (Nat × List Nat) :=
  s.xqs.filterMap (fun e =>
    let x := e.2
    let n := (x.rowsAt round).length
    if e.1 / 512 ≠ die ∨ n = 0 then none
    else if x.age ≤ 40 * round - x.headTs then some (e.1, [0, x.expiry.getD round, 7 - x.prio, x.headTs, e.1])
    else if x.fill ≤ n then some (e.1, [1, 0, 7 - x.prio, x.headTs, e.1])
    else none)

/-- Lists of numbers in the order of their first difference. -/
def listBefore : List Nat → List Nat → Bool
  | a :: s, b :: t => decide (a < b) || (a == b && listBefore s t)
  | _, _ => false

/-- Puts an element before the first one that its key precedes. -/
def insertKey (e : Nat × List Nat) : List (Nat × List Nat) → List (Nat × List Nat)
  | [] => [e]
  | f :: t => if listBefore e.2 f.2 then e :: f :: t else f :: insertKey e t

/-- The last multiple of 40 ns that has passed. -/
def State.roundNow (s : State) : Nat := s.time.ns / 40

/-- The round of a cairn that comes next, if some queue of its die holds a row: a round that finds no row changes nothing, so the rounds
from the oldest row's stamp on count, one after the other (R264). -/
def State.nextRound (s : State) (die : Nat) : Option Nat :=
  (((s.xqs.filter (fun e => e.1 / 512 == die)).flatMap (fun e => e.2.rows.map (·.stamp))).min?).map (fun t =>
    max (s.lastRound.getD die 0 + 1) ((t + 39) / 40))

/-- A cairn's next round is due. -/
def State.roundDue (s : State) (die : Nat) : Bool :=
  s.up && (match s.nextRound die with
    | some r => decide (r ≤ s.roundNow)
    | none => false)

/-- SELECTION_ROUND (R264): of the queues considered at the next round, in their order, up to 64 are fired. -/
def execSelectionRound (die : Nat) (s : State) : Answer :=
  let round := (s.nextRound die).getD 0
  if decide (2 ≤ die) || !s.roundDue die then .next s else
  let s : State := { s with lastRound := s.lastRound.put die round }
  let l := (s.candidates die round).foldl (fun l e => insertKey e l) []
  let s : State := { s with xqs := s.xqs.map (fun (e : Nat × XQ) =>
    if l.any (fun c => c.1 == e.1 && c.2.headD 1 == 0) && e.2.expiry.isNone then (e.1, { e.2 with expiry := some round }) else e) }
  .next ((l.foldl (fun (a : State × Nat) e =>
    if 64 ≤ a.2 then a else
    match a.1.xqs.find e.1 with
    | some x =>
      (match a.1.fireCrew e.1 x with
       | some k => (a.1.fire e.1 x round k, a.2 + 1)
       | none => a)
    | none => a) (s, 0)).1)

/-! ### Rows from other packages (R267, R268, R283) -/

/-- The owner of a queue is leaving the package, or a configuration waits: a remote push is told to come again (R260, R283). -/
def State.xqClosed (s : State) (q : Nat) : Bool :=
  s.xqPending q || (match s.xqs.find q with
    | some x => (match s.ctxs.find x.ctx with
      | some c => c.st == .migrating
      | none => false)
    | none => false)

/-- The queue is granted to a partition whose device number is the one a row is sent to. -/
def State.xqAt (s : State) (dev q : Nat) : Bool :=
  s.parts.any (fun p => bits (wordAt p.2.block 1) 8 12 == dev && s.xqGranted p.1 q)

/-- REMOTE_PUSH (R267): the row comes with its marks (R310); while a lock forbids its place the message waits (R165). -/
def execRemotePush (link seq dev queue : Nat) (tag : Word) (row : List Byte × List Bool) (s0 : State) : Answer :=
  .next (s0.receive link seq (fun s =>
    if s.pkg.checkpoint then s.answer link seq .retryLater
    else if !s.xqAt dev queue then s.answer link seq .refused
    else if s.xqClosed queue then s.answer link seq .retryLater
    else match s.xqAccept queue tag with
      | (s, .off) => s.answer link seq .refused
      | (s, .dup) => s.answer link seq .duplicate
      | (s, .spill) => s.answer link seq .retryLater
      | (s, .page _) => s.answer link seq .retryLater
      | (s, .place loc) =>
        if !(s.xRowPlaces queue loc).all (s.rangeFree s.nextId true) then s0 else
        let n := (s.transferSize queue loc).getD 0
        (s.putXRow queue loc tag ((row.1 ++ List.replicate (n - row.1.length) 0).take n, row.2)).1.answer link seq .accept))

/-- COMBINE_MESSAGE (R268): a slot whose page faults has the message come again; while a lock forbids the slot's bytes the message waits
(R165); the row comes with its marks (R310). -/
def execCombineMessage (link seq queue layer : Nat) (tag : Word) (kmax outu : Nat) (row : List Byte × List Bool) (s0 : State) : Answer :=
  .next (s0.receive link seq (fun s =>
    match s.xqs.find queue with
    | none => s.answer link seq .refused
    | some x =>
      if x.layer ≠ layer ∨ bits (wordAt x.cfg 0) 23 6 ≠ outu ∨ x.kmax ≠ kmax ∨ x.ntok ≤ bits tag.toNat 32 32 then s.answer link seq .refused
      else match s.pagedSpan (xqCore queue) x.ctx (x.slotVa tag) x.outSize true with
        | .error _ => s.answer link seq .retryLater
        | .ok l =>
          if !l.all (s.rangeFree s.nextId true) then s0
          else (s.writeMarked l ((row.1 ++ List.replicate (x.outSize - row.1.length) 0).take x.outSize, row.2)).answer link seq .accept))

/-! ### Retirement (R241, R242, R265) -/

/-- Releases what a course holds: its tiles, its bindings, its slot and rows. -/
def State.releaseCourse (s : State) (cid : Nat) (c : Course) : State :=
  let s := c.binds.foldl (fun (s : State) b => s.unlock b.2.op) s
  { s with
    tiles := s.tiles.map (fun (e : Nat × Tile) =>
      if e.2.st = .held cid ∨ e.2.st = .releasing cid ∨ e.2.st = .saving cid then (e.1, { e.2 with st := .free, last := some c.ctx }) else e)
    courses := s.courses.del cid }

/-- The outstanding batch of a kernel is done when the kernel ends (R265). -/
def State.batchEnds (s : State) (k : Kernel) : State :=
  match k.batch with
  | some h => s.batchDone (bits h.toNat 54 10) h
  | none => s

/-- The last course of a kernel has retired: SIGVA is decremented, and its batch is done (R241, R242, R265). -/
def State.kernelRetire (s : State) (kern : Nat) (k : Kernel) (core : Nat) : State :=
  let s : State := { s with kernels := s.kernels.put kern { k with st := .retired } }
  let s := match s.signalDec core k.ctx (k.words.getD 4 0) with
    | .ok t => t
    | .error _ => s
  s.batchEnds k

/-- Every lane of a course has exited and its work has drained (R241). -/
def State.courseOver (s : State) (cid : Nat) (c : Course) : Bool :=
  c.started && c.exited == BitVec.allOnes 64 && c.flags.isEmpty && c.mq.isEmpty && (s.opsOf cid).isEmpty && !c.drain &&
  s.betweenRuns cid && c.hm.isEmpty

/-- The decrement of a kernel's SIGVA waits while a lock forbids it (R165): it comes with the last course. -/
def State.mayRetire (s : State) (c : Course) : Bool :=
  match s.kernels.find c.kern with
  | some k => !(decide (k.st = .resident) && decide (k.live ≤ 1)) || s.signalFree s.nextId c.core k.ctx (k.words.getD 4 0)
  | none => true

/-- COURSE_RETIRE (R241): the course releases its resources; with the last one of a RESIDENT kernel the kernel retires. -/
def execCourseRetire (cid : Nat) (s : State) : Answer :=
  match s.courses.find cid with
  | none => .next s
  | some c =>
    if !s.courseOver cid c || c.moved.isSome || !s.mayRetire c then .next s else
    let s := (s.clearRecord c).releaseCourse cid c
    match s.kernels.find c.kern with
    | none => .next s
    | some k =>
      let k := { k with live := k.live - 1 }
      let s : State := { s with kernels := s.kernels.put c.kern k }
      if k.st = .resident ∧ k.live = 0 then .next (s.kernelRetire c.kern k c.core) else .next s

end Sys2Proof.Machine
end

