-- ==== Sys2Proof/Machine/Gates.lean ====
section
/-!
DEFINITION. Gates (R287 to R296): the table, admission, signals and waits, messages of other packages, and the hypervisor's commands.
-/

namespace Sys2Proof.Machine

/-! ### Access-list entries and the table (R287, R288) -/

/-- REFILL of an access-list entry. -/
def aclRefill (e : Nat) : Nat := bits e 28 16
/-- BURST of an access-list entry. -/
def aclBurst (e : Nat) : Nat := bits e 20 8
/-- TOKENS of an access-list entry. -/
def aclTokens (e : Nat) : Nat := bits e 12 8
/-- An access-list entry with its TOKENS replaced. -/
def aclPut (e n : Nat) : Nat := setBits e 12 8 n

/-- HPA of word k of a gate's entry; of the header for gate −1, which is entry 0 of the table (log entry 9). -/
def gateAddr (row k : Nat) : Nat := Config.gateTableBase.toNat % 2 ^ 52 + 128 * row + 8 * k

/-- Word i of a gate's access list. -/
def Gate.entry (g : Gate) (i : Nat) : Nat := wordAt g.acl i

/-- A gate with the TOKENS of entry i replaced. -/
def Gate.setTokens (g : Gate) (i n : Nat) : Gate := { g with acl := g.acl.set i (BitVec.ofNat 64 (aclPut (g.entry i) n)) }

/-- Code of a gate's STATE. -/
def GState.code : GState → Nat
  | .retired => 0
  | .active => 1
  | .migrating => 2
  | .frozen => 3

/-- Writes a gate's VALUE, STATE, MPART, NWAIT and TOKENS into its entry of the table. -/
def State.mirror (s : State) (n : Nat) (g : Gate) : State :=
  let row := n + 1
  let s := s.pokeNat (gateAddr row 0) 8 g.value.toNat
  let s := s.pokeNat (gateAddr row 1) 8 (g.st.code * 2 ^ 62 + (if g.st = .migrating then g.mpart else 0) * 2 ^ 58 + g.nwait % 2 ^ 16)
  (List.range 8).foldl (fun (s : State) i =>
    let w := s.peekNat (gateAddr row (8 + i)) 8
    if aclTokens w = aclTokens (g.entry i) then s else s.pokeNat (gateAddr row (8 + i)) 8 (aclPut w (aclTokens (g.entry i)))) s

/-- Puts a gate back, in the home and in the table. -/
def State.putGate (s : State) (n : Nat) (g : Gate) : State := ({ s with gates := s.gates.put n g }).mirror n g

/-- A gate whose table is enabled and which is not RETIRED. -/
def State.gate (s : State) (n : Nat) : Option Gate :=
  if !s.pkg.gateOn then none else
  match s.gates.find n with
  | some g => if g.st = .retired then none else some g
  | none => none

/-- A right of an access-list entry, by its bit: SIGNAL 46, WAIT 45, READ 44. -/
abbrev Right := Nat

/-- Admit(g, right) for an agent of a partition of a package: the access-list entry, or the subcode of GATE (R290). -/
def State.aclRow (s : State) (n pkg part : Nat) (right : Right) : Except (BitVec 8) (Gate × Nat) :=
  match s.gate n with
  | none => .error 3
  | some g =>
    match (List.range 8).find? (fun i => nbit (g.entry i) 63 && bits (g.entry i) 51 12 == pkg && bits (g.entry i) 47 4 == part) with
    | none => .error 1
    | some i => if nbit (g.entry i) right then .ok (g, i) else .error 1

/-! ### Waiters (R290, R292, R294) -/

/-- The gate's name in this package (R289). -/
def State.gateName (s : State) (n : Nat) : Nat := s.pkg.pkgno * 2 ^ 16 + n

/-- The sequence number of a waiter that came with its context: none (R294). -/
def noSeq : Nat := 2 ^ 32

/-- The gate is MIGRATING and the partition is entry MPART's: its waiters are remote waiters (R294, R295). -/
def State.partMoves (s : State) (g : Gate) (part : Nat) : Bool :=
  let e := g.entry g.mpart
  g.st == .migrating && bits e 51 12 == s.pkg.pkgno && bits e 47 4 == part

/-- The gate's answer to an operation of another package: it travels back as a message (R289, R320). -/
def State.gateReply (s : State) (b : Nat × Nat) (r : Reply) : State :=
  s.send b.1 (s.link b.1).peer (.reply b.2 r)

/-- VALUE for a remote waiter: by the number of its operation, or by the gate where its context brought it (R289, R294). -/
def State.tellWaiter (s : State) (n : Nat) (b : Nat × Nat) (v : Option Word) : State :=
  s.gateReply b (if b.2 = noSeq then .gateValue n v else match v with
    | some w => .gate w
    | none => .gateTrap 3)

/-- A wait after VALUE of gate n has reached v. -/
def Wait.gateHit (w : Wait) (n : Nat) (v : Word) : Wait :=
  match w with
  | .gate m x d none => if m = n ∧ x ≤ v then .gate m x d (some v) else .gate m x d none
  | w => w

/-- A path after VALUE of gate n has reached v. -/
def Path.gateHit (q : Path) (n : Nat) (v : Word) : Path := { q with wait := q.wait.gateHit n v }

/-- Local paths that wait for a gate whose VALUE has reached theirs go on at their next run; the migrating partition's stay (R294). -/
def State.wakeGate (s : State) (n : Nat) (g : Gate) : State :=
  { s with courses := s.courses.map (fun (c : Nat × Course) =>
      if s.partMoves g (s.partOf c.2.ctx) then c else
      (c.1, { c.2 with paths := c.2.paths.map (fun (p : Nat × Path) => (p.1, p.2.gateHit n g.value)) })) }

/-- A remote waiter has its answer: VALUE has reached its threshold, and it does not belong to the migrating partition (R290, R294). -/
def Gate.meets (g : Gate) (w : GWaiter) : Bool :=
  w.back.isSome && decide (w.v ≤ g.value) && !(g.st == .migrating && w.acl == g.mpart)

/-- VALUE has changed: every waiter is evaluated against it; satisfied waiters of other packages get their answer (R290). -/
def State.gateValue (s : State) (n : Nat) (g : Gate) : State :=
  let met := g.remote.filter g.meets
  let g' := { g with remote := g.remote.filter (fun r => !g.meets r), nwait := g.nwait - met.length }
  let s := (s.putGate n g').wakeGate n g'
  met.foldl (fun (s : State) r => match r.back with
    | some b => s.tellWaiter n b (some g.value)
    | none => s) s

/-- A waiter record is freed (R290). -/
def State.leaveGate (s : State) (n : Nat) (v : Word) : State :=
  match s.gates.find n with
  | none => s
  | some g =>
    s.putGate n { g with
      nwait := g.nwait - 1
      remote := match g.remote.find? (fun r => r.back.isNone && r.v == v) with
        | some r => g.remote.erase r
        | none => g.remote }

/-- The waiter records of a course's paths are freed as the paths go away; a remote waiter's stays when its context migrates (R294). -/
def State.dropWaits (s : State) (cid : Nat) (moves : Bool) : State :=
  match s.courses.find cid with
  | none => s
  | some c => (c.paths.map (·.2.wait)).foldl (fun (s : State) w => match w with
      | .gate n v _ got =>
        if moves && got.isNone && ((s.gates.find n).map (fun g => s.partMoves g (s.partOf c.ctx))).getD false then s else s.leaveGate n v
      | _ => s) s

/-- The gate unit of a gate has a free waiter record (R290). -/
def State.waiterRoom (s : State) (n : Nat) : Bool :=
  decide (((s.gates.filter (fun g => g.1 % 2 == n % 2)).map (fun g => g.2.nwait)).sum < Config.gateWaiters)

/-! ### Signals (R290) -/

/-- A signal of access-list entry i can be applied now. -/
def Gate.open (g : Gate) (i : Nat) : Bool := g.st != .frozen && (aclRefill (g.entry i) == 0 || aclTokens (g.entry i) != 0)

/-- Applies a signal of entry i: a token is spent when the entry is limited, and VALUE grows. -/
def State.applySignal (s : State) (n : Nat) (g : Gate) (i : Nat) (k : Word) : State :=
  let g := if aclRefill (g.entry i) = 0 then g else g.setTokens i (aclTokens (g.entry i) - 1)
  s.gateValue n { g with value := g.value + k }

/-- A deferred signal's issuer hears that it was applied, or dropped with a subcode of GATE. -/
def State.sigOver (s : State) (n : Nat) (d : Deferred) (bad : Option (BitVec 8)) : State :=
  match d.who with
  | .op id =>
    (match s.ops.find id, bad with
     | some o, some b => (s.lateTrap id o (Trap.gate b (s.gateName n))).finishOp id
     | _, _ => s.finishOp id)
  | .msg link seq => s.gateReply (link, seq) (match bad with
      | some b => .gateTrap b
      | none => .gate ((s.gates.find n).map (·.value) |>.getD 0))

/-- A gate without a deferred signal. -/
def Gate.without (g : Gate) (d : Deferred) : Gate := { g with deferred := g.deferred.filter (fun e => e.id != d.id) }

/-- At a moment, applies the deferred signals of a gate that can be applied, in arrival order, and drops those whose 10 µs are over; one
entry's signals keep their order (R290). -/
def State.applyDeferred (s : State) (n moment : Nat) : List Deferred → List Nat → State
  | [], _ => s
  | d :: t, shut =>
    match s.gate n with
    | none => s
    | some g =>
      if d.limit < moment then ((s.putGate n (g.without d)).sigOver n d (some 2)).applyDeferred n moment t shut
      else if shut.contains d.acl || !g.open d.acl then s.applyDeferred n moment t (d.acl :: shut)
      else ((s.applySignal n (g.without d) d.acl d.n).sigOver n d none).applyDeferred n moment t shut

/-- Applies what can be applied of a gate's deferred signals at a moment. -/
def State.settleGate (s : State) (n moment : Nat) : State :=
  match s.gate n with
  | some g => s.applyDeferred n moment g.deferred []
  | none => s

/-! ### Tokens (R288) -/

/-- Key of an access-list entry's tick. -/
def tickKey (n i : Nat) : Nat := n * 8 + i

/-- Ticks of an access-list entry that have passed since the last one applied. -/
def State.ticksDue (s : State) (n i : Nat) (g : Gate) : Nat := s.time.ns / aclRefill (g.entry i) - s.lastTick.getD (tickKey n i) 0

/-- k ticks of an entry at once: each adds a token below BURST, none is stored at BURST. -/
def State.addTicks (s : State) (n i : Nat) (g : Gate) (k : Nat) : State :=
  let e := g.entry i
  let t := aclTokens e
  let s := { s with lastTick := s.lastTick.put (tickKey n i) (s.lastTick.getD (tickKey n i) 0 + k) }
  if k = 0 ∨ aclBurst e ≤ t then s else s.putGate n (g.setTokens i (min (aclBurst e) (t + k)))

/-- Brings an entry's ticks up to now: one by one while a tick lets a deferred signal of the entry be applied, the rest at once. -/
def State.catchUp (s : State) (n i : Nat) : Nat → State
  | 0 => match s.gate n with
    | some g => s.addTicks n i g (s.ticksDue n i g)
    | none => s
  | f + 1 => match s.gate n with
    | none => s
    | some g =>
      let k := s.ticksDue n i g
      if k = 0 then s
      else if g.st = .frozen ∨ !g.deferred.any (fun d => d.acl == i) then s.addTicks n i g k
      else
        let s := s.addTicks n i g 1
        (s.settleGate n (s.lastTick.getD (tickKey n i) 0 * aclRefill (g.entry i))).catchUp n i f

/-- Every entry of a gate brought up to now. -/
def State.refreshGate (s : State) (n : Nat) : State :=
  match s.gate n with
  | none => s
  | some g => (List.range 8).foldl (fun (s : State) i => if aclRefill (g.entry i) = 0 then s else s.catchUp n i g.deferred.length) s

/-- A signal at its home after admission: applied, or deferred behind the entry's other deferred signals. -/
def State.signalAt (s : State) (n : Nat) (g : Gate) (i : Nat) (k : Word) (who : GWho) : State × Bool :=
  if g.open i && !g.deferred.any (fun d => d.acl == i) then (s.applySignal n g i k, true)
  else
    let d : Deferred := { id := s.nextId, who := who, n := k, acl := i, limit := s.time.ns + 10000 }
    (({ s with nextId := match who with
        | .op _ => s.nextId
        | .msg _ _ => s.nextId + 1 }).putGate n { g with deferred := g.deferred ++ [d] }, false)

/-! ### The instructions (R289, R290) -/

/-- An operation on another package's gate: it is sent, and the instruction holds its issue slot until the first reply. With a
reply, k says how the instruction completes. -/
def gateAway (pkg g name : Nat) (o : GateOp) (x : Args) (env : Env) (s : State) (k : Nat → Reply → State → Res) : Res :=
  match env.pa.offer with
  | none =>
    (match s.routeTo pkg with
     | none => .trap (Trap.gate 3 name)
     | some n =>
       if !s.replayRoom [n] then .stall s else
       let seq := (s.link n).nextSeq
       let id := s.nextId
       let kind := OpKind.gateRemote n seq name o x.d none
       let s := s.send n pkg (.gate g (s.partOf env.co.ctx) o)
       let s := match o with
         | .wait _ => s.addSilent env kind
         | _ => s.addOp env x kind
       .stall (s.setPath env.cid env.p { env.pa with offer := some id }))
  | some id =>
    match s.ops.find id with
    | none => .refuse (s.withdraw env id) (Trap.gate 3 name)
    | some p =>
      match p.kind with
      | .gateRemote _ _ _ _ _ none => .stall s
      | .gateRemote _ _ _ _ _ (some (.gateTrap b)) => .refuse (s.withdraw env id) (Trap.gate b name)
      | .gateRemote _ _ _ _ _ (some .refused) => .refuse (s.withdraw env id) (Trap.gate 3 name)
      | .gateRemote _ _ _ _ _ (some r) => k id r s
      | _ => .stall s

/-- The package and gate of a gate name, or FIELD (R289, R290). -/
def Env.gateName (e : Env) (x : Args) (s : State) : Option (Nat × Nat × Nat) :=
  match x.a with
  | .imm v => if v.toNat / 4096 = 0 then some (s.pkg.pkgno, v.toNat, s.gateName v.toNat) else none
  | o =>
    let n := e.val x .n32 o
    if bits n 28 4 ≠ 0 ∨ bits n 12 4 ≠ 0 then none else some (bits n 16 12, bits n 0 12, n)

/-- GATE_SIG (R290, R292): a release, so it is offered once the course's earlier accesses have been performed. -/
def execGateSig (x : Args) (s : State) : Answer :=
  issue Enc.gateSig x (fun env s =>
    if env.acting x = 0 then .ok (s.addOp env x .nothing) else
    match env.gateName x s with
    | none => .trap Trap.field
    | some (pkg, g, name) =>
      let n := env.n64 x x.b
      if n = 0 ∨ 2 ^ 32 ≤ n then .trap Trap.field else
      if env.pa.offer.isNone && !s.drained env.cid s.nextId then .stall s else
      if pkg ≠ s.pkg.pkgno then
        gateAway pkg g name (.sig (BitVec.ofNat 64 n)) x env s (fun id r s => .ok (match r with
          | .gate _ => s.setOp id .nothing
          | _ => s))
      else
      let s := s.refreshGate g
      match s.aclRow g pkg (s.partOf env.co.ctx) 46 with
      | .error b => .trap (Trap.gate b name)
      | .ok (v, i) =>
        let id := s.nextId
        let r := s.signalAt g v i (BitVec.ofNat 64 n) (.op id)
        .ok (r.1.addOp env x (if r.2 then .nothing else .gateSig g))) s

/-- GATE_WAIT (R290, R292): the run ends, and the next starts once VALUE has reached v. -/
def execGateWait (x : Args) (s : State) : Answer :=
  issue Enc.gateWait x (fun env s =>
    if env.acting x = 0 then .ok s else
    match env.gateName x s with
    | none => .trap Trap.field
    | some (pkg, g, name) =>
      let v : Word := BitVec.ofNat 64 (env.n64 x x.b)
      let d : Option (BitVec 6) := match x.d with
        | .reg r => some r
        | _ => none
      if pkg ≠ s.pkg.pkgno then
        gateAway pkg g name (.wait v) x env s (fun id r s =>
          let link := match (s.ops.find id).map (·.kind) with
            | some (.gateRemote n seq _ _ _ _) => (n, seq)
            | _ => (0, 0)
          .done { s with ops := s.ops.del id } { wait := .remoteGate link.1 link.2 name v d (match r with
            | .gate m => some m
            | _ => none) })
      else
      match s.aclRow g pkg (s.partOf env.co.ctx) 45 with
      | .error b => .trap (Trap.gate b name)
      | .ok (t, _) =>
        if !s.waiterRoom g then .stall s else
        let away := s.partMoves t (s.partOf env.co.ctx)
        let w : GWaiter := { back := none, v := v, acl := t.mpart }
        .done (s.putGate g { t with nwait := t.nwait + 1, remote := if away then t.remote ++ [w] else t.remote })
          { wait := .gate g v d (if v ≤ t.value ∧ !away then some t.value else none) }) s

/-- GATE_RD (R290). -/
def execGateRd (x : Args) (s : State) : Answer :=
  issue Enc.gateRd x (fun env s =>
    if env.acting x = 0 then .ok (s.addOp env x .nothing) else
    match env.gateName x s with
    | none => .trap Trap.field
    | some (pkg, g, name) =>
      if pkg ≠ s.pkg.pkgno then
        gateAway pkg g name .rd x env s (fun id r s => match r with
          | .gate v => .ok (s.setOp id (.land .n64 x.d [(64, v.toNat)]))
          | _ => .stall s)
      else
      match s.aclRow g pkg (s.partOf env.co.ctx) 44 with
      | .error b => .trap (Trap.gate b name)
      | .ok (t, _) => .ok (s.addOp env x (.land .n64 x.d [(64, t.value.toNat)]))) s

/-! ### Operations of other packages (R289, R290) -/

/-- A gate operation of another package has come: its message ends as accepted, and a copy of it as a duplicate (R320). -/
def State.gateGot (s : State) (link seq : Nat) : State :=
  let s := s.answer link seq .duplicate
  { s with out := .replies [(link, seq, .accept)] }

/-- GATE_MESSAGE (R289): the operation is applied at its home by the same rules, and the answer goes back as a message; a wait that
finds no waiter record, or an answer without a place in the replay queue, comes again. -/
def execGateMessage (link seq gate pkg part : Nat) (op : GateOp) (s : State) : Answer :=
  .next (s.receive link seq (fun s =>
    if !s.replayRoom [link] then s.answer link seq .retryLater else
    match op with
    | .sig k =>
      let s := (s.refreshGate gate).gateGot link seq
      (match s.aclRow gate pkg part 46 with
       | .error b => s.gateReply (link, seq) (.gateTrap b)
       | .ok (g, i) =>
         let r := s.signalAt gate g i k (.msg link seq)
         r.1.gateReply (link, seq) (if r.2 then .gate (g.value + k) else .accept))
    | .wait v =>
      (match s.aclRow gate pkg part 45 with
       | .error b => (s.gateGot link seq).gateReply (link, seq) (.gateTrap b)
       | .ok (g, i) =>
         if !s.waiterRoom gate then s.answer link seq .retryLater else
         let w : GWaiter := { back := some (link, seq), v := v, acl := i }
         let s := s.gateGot link seq
         if v ≤ g.value ∧ !(g.st == .migrating && i == g.mpart) then s.gateReply (link, seq) (.gate g.value)
         else (s.putGate gate { g with nwait := g.nwait + 1, remote := g.remote ++ [w] }).gateReply (link, seq) .accept)
    | .rd =>
      let s := s.gateGot link seq
      (match s.aclRow gate pkg part 44 with
       | .error b => s.gateReply (link, seq) (.gateTrap b)
       | .ok (g, _) => s.gateReply (link, seq) (.gate g.value))))

/-- GONE at a path's next run start, which names the gate.wait before it (R290, R295). -/
def Path.gateGone (q : Path) (name now : Nat) (sub : BitVec 8) : Path :=
  q.addLate { trap := Trap.gate sub name, ovl := q.ovl, idx := q.idx - 1, place := now }

/-- A path that waits for the answer to an operation sent to another package, with what the answer makes of it (R290, R295). -/
def Path.gateAnswer (q : Path) (link seq now : Nat) (r : Reply) : Path :=
  match q.wait with
  | .remoteGate n k name v d none =>
    if n = link ∧ k = seq then
      (match r with
       | .gate w => { q with wait := .remoteGate n k name v d (some w) }
       | .gateTrap b => Path.gateGone { q with wait := .nothing } name now b
       | .refused => Path.gateGone { q with wait := .nothing } name now 3
       | _ => q)
    else q
  | _ => q

/-- A path that came with its context and waits for a gate, once VALUE comes from the gate's home; none: the gate is RETIRED (R294). -/
def Path.gateNews (q : Path) (gate now : Nat) (v : Option Word) : Path :=
  match q.wait, v with
  | .remoteGate n k name w d none, some x =>
    if k = noSeq ∧ name = gate ∧ w ≤ x then { q with wait := .remoteGate n k name w d (some x) } else q
  | .remoteGate _ k name _ _ none, none => if k = noSeq ∧ name = gate then Path.gateGone { q with wait := .nothing } name now 3 else q
  | _, _ => q

/-- Changes every path of the machine. -/
def State.mapPaths (s : State) (f : Path → Path) : State :=
  { s with courses := s.courses.map (fun (c : Nat × Course) =>
      (c.1, { c.2 with paths := c.2.paths.map (fun (p : Nat × Path) => (p.1, f p.2)) })) }

/-- VALUE of another package's gate comes from its home (R294): it is kept, and every waiter that migrated is re-evaluated. -/
def State.gateNews (s : State) (pkg gate : Nat) (v : Option Word) : State :=
  let name := pkg * 2 ^ 16 + gate
  let s := { s with gateVals := match v with
    | some w => s.gateVals.put name w
    | none => s.gateVals.del name }
  s.mapPaths (fun q => q.gateNews name s.nextId v)

/-- A reply reaches a gate operation sent to another package: the instruction that holds its slot for it, the deferred signal, or the
waiting path (R289, R290). -/
def State.gateReplied (s : State) (link seq : Nat) (r : Reply) : State :=
  let s := match s.ops.find? (fun o => match o.2.kind with
      | .gateRemote n k _ _ _ _ => n == link && k == seq
      | _ => false) with
    | none => s
    | some (id, o) =>
      if s.offering id then
        (match o.kind with
         | .gateRemote n k name g d _ => s.setOp id (.gateRemote n k name g d (some r))
         | _ => s)
      else
        match o.kind, r with
        | .gateRemote _ _ _ _ _ _, .gate _ => s.finishOp id
        | .gateRemote _ _ name _ _ _, .gateTrap b => (s.lateTrap id o (Trap.gate b name)).finishOp id
        | .gateRemote _ _ name _ _ _, .refused => (s.lateTrap id o (Trap.gate 3 name)).finishOp id
        | _, _ => s
  s.mapPaths (fun q => q.gateAnswer link seq s.nextId r)

/-! ### Tokens and deadlines (R288, R290) -/

/-- GATE_TOKEN_REFILL (R288): the ticks of an access-list entry up to now, each with the deferred signals that it lets be applied. -/
def execGateTokenRefill (gate i : Nat) (s : State) : Answer :=
  match s.gate gate with
  | none => .next s
  | some g => if !s.up || decide (8 ≤ i) || aclRefill (g.entry i) = 0 then .next s else .next (s.catchUp gate i g.deferred.length)

/-- GATE_DEFER_TIMEOUT (R290): a signal not applied within 10 µs of admission is dropped with RATE. -/
def execGateDeferTimeout (op : Nat) (s : State) : Answer :=
  if !s.up then .next s else
  .next (s.gates.foldl (fun (s : State) e => match e.2.deferred.find? (fun d => d.id == op && decide (d.limit < s.time.ns)) with
    | none => s
    | some d =>
      let t := s.refreshGate e.1
      match t.gates.find e.1 with
      | none => t
      | some g => if g.deferred.any (fun x => x.id == op) then ((t.putGate e.1 (g.without d)).sigOver e.1 d (some 2)).settleGate e.1 t.time.ns else t) s)

/-! ### Commands (R287, R295, R296) -/

/-- Reads a gate's access list; TOKENS come from full buckets, or are kept as far as BURST allows. -/
def State.readAcl (s : State) (n : Nat) (old : Option Gate) : List Word :=
  (List.range 8).map (fun i =>
    let w := s.peekNat (gateAddr (n + 1) (8 + i)) 8
    BitVec.ofNat 64 (aclPut w (match old with
      | none => aclBurst w
      | some g => min (aclTokens (g.entry i)) (aclBurst w))))

/-- The ticks of a gate's entries count from now: a REFILL that has been read takes effect at its next multiple (R288). -/
def State.restartTicks (s : State) (n : Nat) (acl : List Word) : State :=
  (List.range 8).foldl (fun (s : State) i =>
    { s with lastTick := s.lastTick.put (n * 8 + i) (s.time.ns / aclRefill (wordAt acl i)) }) s

/-- Submits a gate command; none is served while the table is not enabled, but for activate (R287, R313). -/
def State.gateCommand (s : State) (page cmd gate : Nat) (w0 : Nat) (w1 : Option Nat) (seq : BitVec 32) (run : State → CmdEnd) : State :=
  s.command page 0x1200 true 0 (cmdWords (cmd * 2 ^ 60 + w0 + gate % 4096 * 2 ^ 32) w1 none seq)
    (fun s => if cmd ≠ 1 && !s.pkg.gateOn then .refused else run s)

/-- ACTIVATE (R287, R295). -/
def execActivate (page gate ver : Nat) (seq : BitVec 32) (s : State) : Answer :=
  let n := gate % 4096
  .next (s.gateCommand page 1 gate 0 (some (ver % 256 * 2 ^ 56)) seq (fun s =>
    let head := bits (s.peekNat (gateAddr 0 0) 8) 56 8
    if !s.pkg.gateOn && (head ≠ 1 || ver ≠ head) then .refused else
    let s := if s.pkg.gateOn then s else { s with gates := [], pkg := { s.pkg with gateOn := true } }
    match s.gate n with
    | some _ => .done s
    | none =>
      let acl := s.readAcl n none
      .done ((s.restartTicks n acl).putGate n
        { st := .active, value := 0, acl := acl, mpart := 0, freezeAfter := false, nwait := 0, deferred := [], remote := [] })))

/-- FREEZE (R295). -/
def execFreeze (page gate : Nat) (seq : BitVec 32) (s : State) : Answer :=
  let n := gate % 4096
  .next (s.gateCommand page 2 gate 0 none seq (fun s =>
    match s.gate n with
    | none => .done s
    | some g =>
      match g.st with
      | .active => .done (s.putGate n { g with st := .frozen })
      | .migrating => .done (s.putGate n { g with freezeAfter := true })
      | _ => .done s))

/-- A gate goes on with its entry read again, and deferred signals are applied in arrival order. -/
def State.goOn (s : State) (n : Nat) (g : Gate) (st : GState) : State :=
  let acl := s.readAcl n (some g)
  ((s.restartTicks n acl).putGate n { g with st := st, acl := acl, mpart := 0, freezeAfter := false }).settleGate n s.time.ns

/-- THAW (R295). -/
def execThaw (page gate : Nat) (seq : BitVec 32) (s : State) : Answer :=
  let n := gate % 4096
  .next (s.gateCommand page 3 gate 0 none seq (fun s =>
    let s := s.refreshGate n
    match s.gate n with
    | none => .done s
    | some g => if g.st = .frozen then .done (s.goOn n g .active) else .done s))

/-- A path once its gate is RETIRED: an unsatisfied wait raises GONE at the run start after its gate.wait (R295). -/
def Path.retired (q : Path) (n name now : Nat) : Path :=
  match q.wait with
  | .gate m _ _ none => if m = n then Path.gateGone { q with wait := .nothing } name now 3 else q
  | _ => q

/-- Waiter records of a gate whose paths have their value and have not yet run (R290). -/
def State.gateReady (s : State) (n : Nat) : Nat :=
  (s.courses.map (fun (c : Nat × Course) => (c.2.paths.filter (fun (p : Nat × Path) => match p.2.wait with
    | .gate m _ _ (some _) => m == n
    | _ => false)).length)).sum

/-- RETIRE (R295): deferred signals are dropped with RATE, waiters released with GONE. -/
def execRetire (page gate : Nat) (seq : BitVec 32) (s : State) : Answer :=
  let n := gate % 4096
  .next (s.gateCommand page 4 gate 0 none seq (fun s =>
    let s := s.refreshGate n
    match s.gate n with
    | none => .done s
    | some g =>
      if g.st = .migrating then .refused else
      let s := g.deferred.foldl (fun (s : State) d => s.sigOver n d (some 2)) s
      let s := g.remote.foldl (fun (s : State) r => match r.back with
        | some b => s.tellWaiter n b none
        | none => s) s
      let s := s.putGate n { g with st := .retired, nwait := s.gateReady n, deferred := [], remote := [] }
      .done (s.mapPaths (fun q => q.retired n (s.gateName n) s.nextId))))

/-- The thresholds of a partition's local waiters for a gate. -/
def State.waitersOf (s : State) (n part : Nat) : List Word :=
  s.courses.flatMap (fun (c : Nat × Course) => if s.partOf c.2.ctx ≠ part then [] else
    c.2.paths.filterMap (fun (p : Nat × Path) => match p.2.wait with
      | .gate m v _ none => if m = n then some v else none
      | _ => none))

/-- BEGIN_MIGRATION (R294, R295): the waiters of entry MPART become remote waiters. -/
def execBeginMigration (page gate acli : Nat) (seq : BitVec 32) (s : State) : Answer :=
  let n := gate % 4096
  let i := acli % 8
  .next (s.gateCommand page 5 gate (i * 2 ^ 57) none seq (fun s =>
    match s.gate n with
    | none => .done s
    | some g =>
      if g.st ≠ .active then .refused else
      let own := if bits (g.entry i) 51 12 = s.pkg.pkgno then s.waitersOf n (bits (g.entry i) 47 4) else []
      let kept := g.remote.filter (fun r => r.back.isSome)
      .done (s.putGate n { g with st := .migrating, mpart := i, remote := kept ++ own.map (fun v => { back := none, v := v, acl := i }) })))

/-- The remote waiters of the entry that has migrated hear from the home: VALUE goes to the destination package, which re-evaluates them;
where that is this package, its paths are evaluated again (R294, R295). -/
def State.redeliver (s : State) (n i : Nat) : State :=
  match s.gate n with
  | none => s
  | some g =>
    let pkg := bits (g.entry i) 51 12
    if pkg = s.pkg.pkgno then
      let g := { g with remote := g.remote.map (fun r => if r.acl = i then { r with back := none } else r) }
      (s.putGate n g).wakeGate n g
    else
      match s.routeTo pkg with
      | none =>
        let kept := g.remote.filter (fun r => r.acl != i)
        s.putGate n { g with remote := kept, nwait := g.nwait - (g.remote.length - kept.length) }
      | some k =>
        let moved := g.remote.filter (fun r => r.acl == i)
        let s := if moved.any (fun r => !decide (r.v ≤ g.value)) then s.tellWaiter n (k, noSeq) (some g.value) else s
        s.gateValue n { g with remote := g.remote.map (fun r => if r.acl = i then { r with back := some (k, noSeq) } else r) }

/-- END_MIGRATION (R294, R295). -/
def execEndMigration (page gate : Nat) (seq : BitVec 32) (s : State) : Answer :=
  let n := gate % 4096
  .next (s.gateCommand page 6 gate 0 none seq (fun s =>
    let s := s.refreshGate n
    match s.gate n with
    | none => .done s
    | some g =>
      match g.st with
      | .active => .done s
      | .migrating => .done ((s.goOn n g (if g.freezeAfter then .frozen else .active)).redeliver n g.mpart)
      | _ => .refused))

end Sys2Proof.Machine
end

