-- ==== Sys2Proof/Machine/Contexts.lean ====
section
/-!
DEFINITION. Partitions, contexts and the slot table (R272 to R286): commands, slot boundaries, lending, region flush, migration, and
the retirement of a bent (R12, R309).
-/

namespace Sys2Proof.Machine

/-! ### Partition blocks (R273, R284) -/

/-- Word 0 of a context command (R284). -/
def ctxWord0 (cmd part ctx crew : Nat) : Nat := cmd * 2 ^ 60 + part % 16 * 2 ^ 56 + ctx % 2 ^ 16 * 2 ^ 40 + crew % 2 ^ 16 * 2 ^ 24

/-- The n words at a host physical address, if they lie in DRAM and none is poisoned. -/
def State.hostBlock (s : State) (addr n : Nat) : Option (List Word) :=
  if addr % 128 ≠ 0 ∨ 2 ^ 52 ≤ addr + 8 * n then none else
  match s.poisoned addr (8 * n) with
  | some _ => none
  | none => some (wordsOf (s.peekNat addr (8 * n)) n)

/-- The ranges of a partition block: first and count (R273). -/
def blockRanges (w : List Word) : List (Nat × Nat) :=
  let f (k lo n : Nat) : Nat := bits (wordAt w k) lo n
  [(f 2 59 5, f 2 53 6), (f 2 32 12, f 2 16 13), (f 3 52 12, f 3 32 13), (f 3 22 10, f 3 10 11), (f 4 48 16, f 4 31 17), (f 5 45 19, f 5 25 20),
   (f 6 30 10, f 6 19 11)]

/-- What each range lies in: course slots, rows, core-store, weight, bay-store and die-store lines, expert queues. -/
def rangeLimits : List Nat := [32, 4096, 4096, 1024, 65536, 393216, 1024]

/-- The masks of a partition block: tiles, local barriers, route tags. -/
def blockMasks (w : List Word) : List Nat := [bits (wordAt w 3) 0 8, bits (wordAt w 6) 48 16, bits (wordAt w 6) 40 8]

/-- A partition block leaves a field out of its range. -/
def blockBad (part : Nat) (w : List Word) : Bool :=
  let period := bits (wordAt w 7) 48 16
  bits (wordAt w 0) 60 4 != part ||
  ((blockRanges w).zip rangeLimits).any (fun r => decide (r.2 < r.1.1 + r.1.2)) ||
  period % 8 != 0 || decide (period < 64) || decide (65528 < period) ||
  decide (bits (wordAt w 2) 53 6 < bits (wordAt w 7) 26 6) || decide (bits (wordAt w 2) 16 13 < bits (wordAt w 7) 8 13)

/-- Two ranges, or two masks, of different partitions overlap. -/
def blocksOverlap (a b : List Word) : Bool :=
  ((blockRanges a).zip (blockRanges b)).any (fun r =>
    r.1.2 != 0 && r.2.2 != 0 && decide (r.1.1 < r.2.1 + r.2.2) && decide (r.2.1 < r.1.1 + r.1.2)) ||
  ((blockMasks a).zip (blockMasks b)).any (fun m => m.1 &&& m.2 != 0)

/-- A course of the partition, a borrowed one too, holds a slot or row outside the ranges of a block; what has been claimed from a course it
holds no longer (R284). -/
def State.heldOutside (s : State) (part : Nat) (w : List Word) : Bool :=
  let slots := (bits (wordAt w 2) 59 5, bits (wordAt w 2) 53 6)
  let rows := (bits (wordAt w 2) 32 12, bits (wordAt w 2) 16 13)
  s.courses.any (fun c => s.partOf c.2.ctx == part && c.2.moved.isNone &&
    ((!c.2.saved && !inRange slots c.2.cslot) ||
      (List.range c.2.rows).any (fun j => !c.2.spl.getLsbD j && !inRange rows (c.2.segbase + j))))

/-! ### The slot table (R277, R278) -/

/-- Π of a block, in ns. -/
def slotPeriod (w : List Word) : Nat := bits (wordAt w 7) 48 16 * 1000

/-- The slot that is current at a time. -/
def slotAt (w : List Word) (t : Nat) : Nat := if slotPeriod w = 0 then 0 else t % slotPeriod w / (slotPeriod w / 64)

/-- The virtual device of a slot; 15 when idle. -/
def slotDevice (w : List Word) (i : Nat) : Nat := bits (wordAt w (9 + i / 16)) (4 * (i % 16)) 4

/-- The next multiple of Π after a time. -/
def nextPeriod (w : List Word) (t : Nat) : Nat := if slotPeriod w = 0 then t else (t / slotPeriod w + 1) * slotPeriod w

/-- The next slot boundary after a time, or the next multiple of Π / 64 when the table has none (R282). -/
def nextBoundary (w : List Word) (t : Nat) : Nat :=
  let u := slotPeriod w / 64
  if u = 0 then t else
  let k := ((List.range 64).find? (fun i => slotDevice w ((t / u + i + 1) % 64) != slotDevice w ((t / u + i) % 64))).getD 0
  (t / u + k + 1) * u

/-- Parked paths of halted courses go on when they resume (R137, R278). -/
def State.unpark (s : State) (halted : Nat × Course → Bool) : State :=
  { s with courses := s.courses.map (fun (c : Nat × Course) => if !halted c then c else
      (c.1, { c.2 with paths := c.2.paths.map (fun (p : Nat × Path) => (p.1, match p.2.wait with
        | .park _ _ _ _ => { p.2 with wait := .nothing }
        | _ => p.2)) })) }

/-- Applies the slot that is current: contexts of its virtual device are ACTIVE, the partition's others HALTED. -/
def State.applySlot (s : State) (part : Nat) : State :=
  match s.parts.find part with
  | none => s
  | some p =>
    let i := slotAt p.block s.time.ns
    let own (c : Context) : Bool := bits (wordAt c.block 0) 40 4 == slotDevice p.block i
    let s := { s with
      parts := s.parts.put part { p with slot := i }
      ctxs := s.ctxs.map (fun (c : Nat × Context) =>
        if c.2.part == part && (c.2.st == CState.active || c.2.st == CState.halted) then (c.1, { c.2 with st := if own c.2 then .active else .halted }) else c) }
    s.unpark (fun c => s.partOf c.2.ctx == part && s.haltedCtx c.2.ctx)

/-- SLOT_BOUNDARY (R278). -/
def execSlotBoundary (part : Nat) (s : State) : Answer :=
  match s.parts.find part with
  | none => .next s
  | some p => if !s.up || slotAt p.block s.time.ns = p.slot then .next s else .next (s.applySlot part)

/-- A block that has been accepted is in force. -/
def State.setBlock (s : State) (part : Nat) (w : List Word) : State :=
  match s.parts.find part with
  | some p => { s with parts := s.parts.put part { p with block := w, next := none } }.applySlot part
  | none =>
    let p : Partition := { block := w, next := none, s2gen := 0, slot := 0, reclaimAt := none, returnAt := none, ringBase := 0,
                           ringLog := 0, prod := 0, cons := 0, notices := [] }
    { s with parts := s.parts.put part p }.applySlot part

/-- LOAD_PARTITION_BLOCK (R273, R284). -/
def execLoadPartitionBlock (page part : Nat) (addr : Word) (seq : BitVec 32) (s : State) : Answer :=
  let part := part % 16
  .next (s.command page 0x1100 true part (cmdWords (ctxWord0 1 part 0 0) (some addr.toNat) none seq) (fun s =>
    match s.hostBlock addr.toNat 16 with
    | none => .refused
    | some w =>
      let others := (s.parts.filter (fun p => p.1 != part)).flatMap (fun p => p.2.block :: (match p.2.next with
        | some n => [n.1]
        | none => []))
      if blockBad part w || others.any (fun b => !b.isEmpty && blocksOverlap w b) || s.heldOutside part w then .refused else
      match s.parts.find part with
      | some p =>
        if p.block.isEmpty then .done (s.setBlock part w)
        else .done { s with parts := s.parts.put part { p with next := some (w, nextPeriod p.block s.time.ns) } }
      | none => .done (s.setBlock part w)))

/-- PARTITION_LOAD_EFFECT (R284). -/
def execPartitionLoadEffect (part : Nat) (s : State) : Answer :=
  match s.parts.find part with
  | none => .next s
  | some p =>
    match p.next with
    | some (w, due) => if !s.up || s.time.ns < due then .next s else .next (s.setBlock part w)
    | none => .next s

/-! ### Enable (R274, R275, R285) -/

/-- The n words of a GPA block of a partition, if its page is mapped and none is poisoned. -/
def State.guestBlock (s : State) (part addr n : Nat) : Option (List Word) :=
  if addr % 128 ≠ 0 then none else
  match (s.walk2 none part addr false).2 with
  | .error _ => none
  | .ok l =>
    let pa := l.frame * 65536 + addr % 65536
    match s.poisoned pa (8 * n) with
    | some _ => none
    | none => some (wordsOf (s.peekNat pa (8 * n)) n)

/-- The partition's range that a window word lies in (R275). -/
def windowRange (w : List Word) (k : Nat) : Nat × Nat :=
  let i := if k < 96 then 2 else if k < 108 then 4 else if k < 110 then 5 else 3
  (blockRanges w).getD i (0, 0)

/-- The windows of a window table's words, or none where a word is refused: a reserved bit, or a range that leaves the partition's. -/
def windowsOf (block : List Word) (words : List Nat) : Option (Tab (Nat × Nat)) :=
  words.zipIdx.foldlM (fun (t : Tab (Nat × Nat)) e =>
    let base := bits e.1 32 21
    let n := bits e.1 0 21
    let r := windowRange block e.2
    if bits e.1 53 11 ≠ 0 ∨ bits e.1 21 11 ≠ 0 then none
    else if n ≠ 0 ∧ (base < r.1 ∨ r.1 + r.2 < base + n) then none
    else some (t.set (0, 0) e.2 (base, n))) []

/-- Windows of two contexts overlap in some store (R275). -/
def windowsOverlap (a b : Tab (Nat × Nat)) : Bool :=
  a.any (fun e => match b.find e.1 with
    | some w => e.2.2 != 0 && w.2 != 0 && decide (e.2.1 < w.1 + w.2) && decide (w.1 < e.2.1 + e.2.2)
    | none => false)

/-- A context's first state. -/
def Context.fresh (part order : Nat) (w : List Word) : Context :=
  { st := .halted, part := part, block := w, wins := [], s1gen := 0, pool := wordAt w 5, nodes := [], opens := [], mpages := [], barsOut := [],
    blocks := wordAt w 8, after := 0, order := order }

/-- The context number, partition and virtual device of a block, and the alignments of its fields, are as the command and R274 say. -/
def ctxBlockOk (part ctx : Nat) (w : List Word) : Bool :=
  bits (wordAt w 0) 48 16 == ctx && bits (wordAt w 0) 44 4 == part && decide (bits (wordAt w 0) 40 4 < 15) &&
  wordAt w 9 % 65536 == 0 && wordAt w 10 % 8 == 0

/-- Enables a context from its block (R285): none where it is refused. The lines of its windows stay as they are: a line is zeroed when the
last context that has it ends (R126, log entry 105). -/
def State.enableCtx (s : State) (part ctx addr : Nat) : Option State :=
  if (s.ctxs.find ctx).isSome then none else
  match s.parts.find part, s.guestBlock part addr 16 with
  | some p, some w =>
    if p.block.isEmpty || !ctxBlockOk part ctx w then none else
    let c := Context.fresh part s.nextId w
    let t : State := { s with ctxs := s.ctxs.put ctx c, nextId := s.nextId + 1 }
    (match (List.range 158).mapM (fun i => t.walkerWord 0 ctx (wordAt w 10 + 8 * i)) with
     | none => none
     | some words =>
       match windowsOf p.block words with
       | none => none
       | some wins =>
         let clash := s.ctxs.any (fun e => e.2.part == part && bits (wordAt e.2.block 0) 40 4 != bits (wordAt w 0) 40 4 &&
           windowsOverlap wins e.2.wins)
         if clash then none else
         let st : CState := if slotDevice p.block p.slot = bits (wordAt w 0) 40 4 then .active else .halted
         some { t with ctxs := t.ctxs.put ctx { c with wins := wins, st := st } })
  | _, _ => none

/-- ENABLE (R285). -/
def execEnable (page part ctx : Nat) (addr : Word) (seq : BitVec 32) (s : State) : Answer :=
  let part := part % 16
  let ctx := ctx % 2 ^ 16
  .next (s.command page 0x1100 false part (cmdWords (ctxWord0 2 part ctx 0) (some addr.toNat) none seq) (fun s =>
    match s.enableCtx part ctx addr.toNat with
    | some t => .done t
    | none => .refused))

/-! ### The end of a context (R285) -/

/-- An operation that is the context's. -/
def Op.inCtx (o : Op) (ctx : Nat) : Bool :=
  o.ctx == ctx && (match o.kind with
    | .frame _ => false
    | _ => true)

/-- Frees the issue slots that courses of a context hold. -/
def State.freeSlots (s : State) (ctx : Nat) : State :=
  s.slots.foldl (fun (s : State) e => match e.2.busy with
    | some (cid, _) => (match s.courses.find cid with
      | some c => if c.ctx = ctx then s.leaveSlot e.1 else s
      | none => s)
    | none => s) s

/-- Takes everything a context runs off the device: courses, operations with their locks, running nodes, queues and kernels. Queues of an
ended context become OFF; those of one that migrates stand STOPPED in the memory that goes with it (R250, R283, R285). -/
def State.takeOff (s : State) (ctx : Nat) (moves : Bool) : State :=
  let mine := (s.courses.filter (fun c => c.2.ctx == ctx)).map (·.1)
  let s := (s.freeSlots ctx)
  let s := mine.foldl (fun (s : State) cid => let s := s.dropWaits cid moves; if moves then s else s.dropMats cid) s
  let gone := (s.ops.filter (fun o => o.2.inCtx ctx)).map (·.1)
  let s := gone.foldl (fun (s : State) id => s.dropBent id) s
  let nodes := s.nodes.filter (fun r => match s.queues.find r.q with
    | some v => v.ctx != ctx
    | none => true)
  let s := if moves then s else ((s.queues.filter (fun q => q.2.ctx == ctx)).map (·.1)).foldl State.queueOff s
  let binds := (s.courses.filter (fun c => c.2.ctx == ctx)).flatMap (fun c => c.2.binds.map (fun b => b.2.op))
  { s with
    ops := s.ops.filter (fun o => !o.2.inCtx ctx)
    locks := s.locks.filter (fun l => !(gone.contains l.2.op || binds.contains l.2.op))
    courses := s.courses.filter (fun c => c.2.ctx != ctx)
    kernels := s.kernels.map (fun (k : Nat × Kernel) =>
      if k.2.ctx = ctx ∧ (k.2.st = .placing ∨ k.2.st = .resident) then (k.1, { k.2 with st := .aborted }) else k)
    nodes := nodes
    queues := s.queues.filter (fun q => q.2.ctx != ctx)
    xqs := s.xqs.filter (fun q => q.2.ctx != ctx) }

/-- END (R285): the context's courses are abandoned, its operations cancelled, its kernels ABORTED and its queues OFF. -/
def execEndContext (page part ctx : Nat) (seq : BitVec 32) (s : State) : Answer :=
  let part := part % 16
  let ctx := ctx % 2 ^ 16
  .next (s.command page 0x1100 false part (cmdWords (ctxWord0 3 part ctx 0) none none seq) (fun s =>
    match s.ctxs.find ctx with
    | none => .refused
    | some c =>
      if c.part ≠ part then .refused else
      let s := if c.st = .migrating then s.endCmd 0 0x1100 2 else s
      .done ({ s with ctxs := s.ctxs.put ctx { c with st := .ending } }.takeOff ctx false)))

/-- Every array of a context becomes FREE and its leaves, nodes and mortise tables go back, as far as the array table can be read (R183). -/
def State.freeArrays (core ctx : Nat) : Nat → Nat → State → State
  | 0, _, s => s
  | n + 1, a, s =>
    match s.desc core ctx a with
    | .error _ => s
    | .ok d => State.freeArrays core ctx n (a + 1) (if d.st = 0 then s else s.returnArray core ctx a d)

/-- Every slice of a context becomes FREE, as far as its table can be read (R122). -/
def State.freeSlices (core ctx : Nat) : Nat → Nat → State → State
  | 0, _, s => s
  | n + 1, k, s =>
    let h : Handle := { part := s.partOf ctx, ctx := ctx, slot := k, gen := 0 }
    match s.sliceWord core h 1 with
    | .error _ => s
    | .ok w =>
      State.freeSlices core ctx n (k + 1) (if sliceState w = 0 then s
        else (s.putSliceWord core h 0 0).putSliceWord core h 1 (sliceWord1 (sliceGen w + 1) 0))

/-- First byte and bytes of a window, by the word of R275 that describes it; a weight window has one part in each core of the bent. -/
def windowSpans (k first n : Nat) : List (Nat × Nat) :=
  if k < 96 then [(coreBase k + 256 * first, 256 * n)]
  else if k < 108 then [(bayBase (k - 96) + 256 * first, 256 * n)]
  else if k < 110 then [(dieBase (k - 108) + 256 * first, 256 * n)]
  else [(weightBase (2 * (k - 110)) + 256 * first, 256 * n), (weightBase (2 * (k - 110) + 1) + 256 * first, 256 * n)]

/-- The lines of a context's windows that no other context holds become zero (R126, R285). -/
def State.zeroWindows (s : State) (ctx : Nat) : State :=
  match s.ctxs.find ctx with
  | none => s
  | some c =>
    let lines := c.wins.flatMap (fun e =>
      ((List.range e.2.2).map (fun i => e.2.1 + i)).filter (fun i =>
        !s.ctxs.any (fun o => o.1 != ctx && (match o.2.wins.find e.1 with
          | some w => decide (w.1 ≤ i) && decide (i < w.1 + w.2)
          | none => false))) |>.flatMap (fun i => windowSpans e.1 i 1))
    let s := lines.foldl (fun (s : State) p => s.zeroSpan p.1 p.2) s
    s.setPresent (lines.map (fun p => p.1 / 256))

/-- Nothing of the context is left on the device: caches, samplers and barriers go, the tiles that its courses held, or that nobody has taken
since, are zeroed and FREE (R189, R285), and its windows are zeroed. -/
def State.forgetCtx (s : State) (ctx : Nat) : State :=
  let s := s.zeroWindows ctx
  let tiles := s.tiles.filter (fun t => (match t.2.st with
    | .free => t.2.last == some ctx
    | .held cid | .releasing cid | .saving cid => (s.courses.find cid).isNone))
  let s := tiles.foldl (fun (s : State) t => (s.clearTile t.1).setTile t.1 { s.tile t.1 with st := .free, last := none, mst := 0, act := false, step := 0 }) s
  { s with
    tlb := s.tlb.filter (fun i => i.ctx != ctx)
    walks := s.walks.filter (fun w => w.ctx != ctx)
    ranks := s.ranks.filter (fun r => r.ctx != ctx)
    ovls := s.ovls.filter (fun o => o.1 % 8 == 0 || o.2.ctx != ctx)
    barriers := s.barriers.filter (fun b => !(b.2.bound && b.2.ctx == ctx))
    samplers := s.samplers.filter (fun m => m.2.ctx != ctx)
    ctxs := s.ctxs.del ctx }

/-- CONTEXT_END_COMPLETE (R285): the last course and operation have ended, and every object of the context is free again. -/
def execContextEndComplete (ctx : Nat) (s : State) : Answer :=
  match s.ctxs.find ctx with
  | none => .next s
  | some c =>
    if c.st ≠ .ending || s.courses.any (fun e => e.2.ctx == ctx) || s.ops.any (fun o => o.2.inCtx ctx) then .next s else
    .next (((State.freeSlices 0 ctx (2 ^ 24) 0 ((State.freeArrays 0 ctx (2 ^ 20) 0 s).returnNodes 0 ctx)).endCrews ctx).forgetCtx ctx)

/-! ### Region flush (R281, R304) -/

/-- A course holds a member of a crew. -/
def Course.memberOf (c : Course) (ctx crew : Nat) : Bool := c.ctx == ctx && c.crew.any (fun e => e.2 == crew)

/-- Flushes a course for a crew: it halts, and goes back to its region, if one is open, once its operations have completed. A course that
a flush already holds is reset once. -/
def State.flushCourse (s : State) (crew cid : Nat) (c : Course) : State :=
  if c.flushed.contains crew then s else
  let s := s.modCourse cid (fun c => { c with flushed := c.flushed ++ [crew] })
  if !c.flushed.isEmpty then s
  else s.inRecord cid (fun s => match s.courses.find cid with
    | some c => if c.regpc = noRegion then s.dropMats cid else s.restart cid
    | none => s)

/-- FLUSH_CREW (R281). -/
def execFlushCrew (page part ctx crew : Nat) (seq : BitVec 32) (s : State) : Answer :=
  let part := part % 16
  let ctx := ctx % 2 ^ 16
  .next (s.command page 0x1100 false part (cmdWords (ctxWord0 4 part ctx crew) none none seq) (fun s =>
    if (s.ctxs.find ctx).isNone || s.partOf ctx ≠ part then .refused else
    .done ((s.courses.filter (fun c => c.2.memberOf ctx (crew % 2 ^ 16))).foldl (fun (s : State) c => s.flushCourse (crew % 2 ^ 16) c.1 c.2) s)))

/-- RESTART_CREW (R281): the courses that a flush of the crew holds go on, whatever members they still have. -/
def execRestartCrew (page part ctx crew : Nat) (seq : BitVec 32) (s : State) : Answer :=
  let part := part % 16
  let ctx := ctx % 2 ^ 16
  .next (s.command page 0x1100 false part (cmdWords (ctxWord0 5 part ctx crew) none none seq) (fun s =>
    if (s.ctxs.find ctx).isNone || s.partOf ctx ≠ part then .refused else
    .done { s with courses := s.courses.map (fun (c : Nat × Course) =>
      if c.2.ctx = ctx then (c.1, { c.2 with flushed := c.2.flushed.erase (crew % 2 ^ 16) }) else c) }))

/-! ### Lending (R225, R282) -/

/-- The course holds a slot or a row that lies in the partition's own ranges. -/
def State.holdsOf (s : State) (part : Nat) (c : Course) : Bool :=
  let rows := s.rowRange part
  (!c.saved && inRange (s.slotRange part) c.cslot) || (List.range c.rows).any (fun j => !c.spl.getLsbD j && inRange rows (c.segbase + j))

/-- A borrowed course in capacity of the partition. -/
def State.borrowedOf (s : State) (part : Nat) (c : Course) : Bool :=
  c.borrowed && c.moved.isNone && s.partOf c.ctx != part && s.holdsOf part c

/-- A lender's course that is to resume needs what a borrowed course holds. -/
def State.resumeNeeds (s : State) (part cid : Nat) : Bool :=
  s.courses.any (fun e => s.partOf e.2.ctx == part && !e.2.borrowed && s.wantsBack e.1 e.2 &&
    ((s.slotHolder e.2.core e.2.cslot).any (fun h => h.1 == cid) ||
      e.2.outRows.any (fun j => (s.rowHolder e.2.core (e.2.segbase + j)).any (fun h => h.1 == cid))))

/-- A lender's placement needs what a borrowed course holds: it finds a place only where that course stands. -/
def State.placeNeeds (s : State) (part cid : Nat) (c : Course) : Bool :=
  let t : State := { s with courses := s.courses.map (fun (e : Nat × Course) =>
    if s.borrowedOf part e.2 then (e.1, { e.2 with reclaimed := some part }) else e) }
  s.kernels.any (fun k => k.2.part == part && (s.kernelSpot k.2).isNone && (match t.kernelSpot k.2 with
    | some p => p.core == c.core && (p.cslot == c.cslot || (decide (p.base < c.segbase + c.rows) && decide (c.segbase < p.base + launchRows k.2.words)))
    | none => false)) && (t.courses.find cid).isSome

/-- The lender needs the capacity of a borrowed course (R282). -/
def State.reclaimNeeded (s : State) (part cid : Nat) (c : Course) : Bool :=
  s.borrowedOf part c && c.reclaimed.isNone && (s.resumeNeeds part cid || s.placeNeeds part cid c)

/-- RECLAIM (R282): the need sets the moment; at that moment the borrowed course halts, its crews count it, and the lender's courses
that stood back for it may go on. -/
def execReclaim (part cid : Nat) (s : State) : Answer :=
  match s.parts.find part, s.courses.find cid with
  | some p, some c =>
    if !s.up || !s.reclaimNeeded part cid c then .next s else
    (match p.reclaimAt with
     | none => .next { s with parts := s.parts.put part { p with reclaimAt := some (nextBoundary p.block s.time.ns) } }
     | some due =>
       if s.time.ns < due then .next s else
       let s := ((s.setCourse cid { c with reclaimed := some part }).crewHalt cid true).unpark (fun o => o.1 == cid)
       .next { s with
         parts := s.parts.put part { p with reclaimAt := none, returnAt := some (p.returnAt.getD (nextPeriod p.block s.time.ns)) }
         courses := s.courses.map (fun (e : Nat × Course) =>
           if s.partOf e.2.ctx = part ∧ !e.2.borrowed then (e.1, { e.2 with reclaimed := none }) else e) })
  | _, _ => .next s

/-- LEND_RETURN (R282): the courses that this lender reclaimed may resume in their capacity, and its courses that hold it halt in place,
which ends their parks (R137). -/
def execLendReturn (part : Nat) (s : State) : Answer :=
  match s.parts.find part with
  | none => .next s
  | some p =>
    match p.returnAt with
    | none => .next s
    | some due =>
      if !s.up || s.time.ns < due then .next s else
      let back := s.courses.filter (fun e => e.2.borrowed && e.2.reclaimed == some part)
      let halts (e : Nat × Course) : Bool := s.partOf e.2.ctx == part && !e.2.borrowed && back.any (fun b => e.2.stands b.2)
      .next (State.unpark { s with
        parts := s.parts.put part { p with returnAt := none }
        courses := s.courses.map (fun (e : Nat × Course) =>
          if back.any (fun b => b.1 == e.1) then (e.1, { e.2 with reclaimed := none })
          else if halts e then (e.1, { e.2 with reclaimed := some part })
          else e) } halts)

/-! ### Migration (R283) -/

/-- MIGRATE_OUT (R283): the context halts and its queues stop; the command is answered once it is FREE. -/
def execMigrateOut (page part ctx : Nat) (seq : BitVec 32) (s : State) : Answer :=
  let part := part % 16
  let ctx := ctx % 2 ^ 16
  .next (s.command page 0x1100 true part (cmdWords (ctxWord0 6 part ctx 0) none none seq) (fun s =>
    match s.ctxs.find ctx with
    | none => .refused
    | some c =>
      if c.part ≠ part || !(c.st == .active || c.st == .halted) then .refused else
      let s := { s with ctxs := s.ctxs.put ctx { c with st := .migrating } }
      .later ((((s.queues.filter (fun q => q.2.ctx == ctx)).map (·.1)).foldl State.queueStop s).unpark (fun o => o.2.ctx == ctx))))

/-- Every row of a course and its state stand in its record. -/
def State.saveCourse (s : State) (cid : Nat) : Option State :=
  match s.courses.find cid with
  | none => some s
  | some c =>
    (((List.range c.rows).filter (fun j => !c.spl.getLsbD j)).foldlM (fun (s : State) j => s.saveRow cid j) s).bind (fun s =>
      match s.courses.find cid with
      | none => some s
      | some c => if c.saved then some s else (s.saveBody { c with saved := true }).map (fun s => s.setCourse cid { c with saved := true }))

/-- Every tile that a course holds is saved; none has an operation in progress. -/
def State.saveTiles (s : State) (cid : Nat) : Option State :=
  (s.tiles.filter (fun t => t.2.st == .held cid || t.2.st == .saving cid)).foldlM (fun (s : State) t => s.saveTile cid t.1) s

/-- The sampler state of a context on a core, as four words (log entry 118). -/
def Sampler.words (m : Sampler) (clk : Nat) : List Nat :=
  [m.base, m.prod.toNat + m.cons.toNat * 2 ^ 32, m.drop % 2 ^ 32 + m.period % 2 ^ 16 * 2 ^ 32 + (if m.on then 2 ^ 62 else 0) + 2 ^ 63,
   (m.next - clk) % 2 ^ 32 + m.last % 32 * 2 ^ 32 + Nat.log2 m.cap % 64 * 2 ^ 40 + (if m.cap = 0 then 2 ^ 63 else 0)]

/-- The sampler that such words hold, if they hold one. -/
def Sampler.ofWords (ctx clk : Nat) (w : List Nat) : Option Sampler :=
  let d := w.getD 2 0
  let e := w.getD 3 0
  if !nbit d 63 then none else
  some { ctx := ctx, on := nbit d 62, period := bits d 32 16, base := w.getD 0 0, cap := if nbit e 63 then 0 else 2 ^ bits e 40 6,
         prod := BitVec.ofNat 32 (w.getD 1 0), cons := BitVec.ofNat 32 (w.getD 1 0 / 2 ^ 32), drop := bits d 0 32,
         next := clk + bits e 0 32, last := bits e 32 5 }

/-- VA of the sampler state of a core in the save area (R280). -/
def State.samplerVa (s : State) (ctx core : Nat) : Nat := s.ctxWord ctx 9 + 0x25308000 + 32 * core

/-- The sampler states of a context go to its save area: zeros for a core where it has none. -/
def State.saveSamplers (s : State) (part ctx : Nat) : State :=
  (List.range 96).foldl (fun (s : State) core =>
    match s.translate core ctx (s.samplerVa ctx core) none true with
    | .error _ => s
    | .ok r =>
      let w := match s.samplers.find (core * 16 + part) with
        | some m => if m.ctx = ctx then m.words s.time.clk else []
        | none => []
      (List.range 4).foldl (fun (s : State) i => s.pokeNat (r.1 + 8 * i) 8 (w.getD i 0)) s) s

/-- The sampler states of a migrated context come back, but where another context's sampler is on (R80). -/
def State.arriveSamplers (s : State) (part ctx : Nat) : State :=
  (List.range 96).foldl (fun (s : State) core =>
    match s.translate core ctx (s.samplerVa ctx core) none false with
    | .error _ => s
    | .ok r =>
      match Sampler.ofWords ctx s.time.clk ((List.range 4).map (fun i => s.peekNat (r.1 + 8 * i) 8)) with
      | none => s
      | some m =>
        if ((s.samplers.find (core * 16 + part)).map (·.on)).getD false then s
        else { s with samplers := s.samplers.put (core * 16 + part) m }) s

/-- Records of the save area that no course of the context stands behind are marked not valid. -/
def State.clearRecords (s : State) (ctx : Nat) : State :=
  (List.range 3072).foldl (fun (s : State) i =>
    let c := { Course.blank (i / 32) ctx with cslot := i % 32 }
    if s.courses.any (fun e => e.2.ctx == ctx && e.2.core == i / 32 && e.2.cslot == i % 32) then s else
    match s.recordAt c 0 true with
    | some pa => if nbit (s.peekNat pa 8) 0 then s.pokeNat pa 8 0 else s
    | none => s) s

/-- Saves everything a migrating context holds, where every page takes it. -/
def State.saveCtx (s : State) (ctx : Nat) : Option State :=
  let mine := (s.courses.filter (fun c => c.2.ctx == ctx)).map (·.1)
  (mine.foldlM (fun (s : State) cid => ((s.saveTiles cid).bind (fun s => s.saveCourse cid)).bind (fun s => s.saveExtra cid)) s).bind (fun s =>
    ((s.barriers.filter (fun b => b.2.bound && b.2.ctx == ctx)).foldlM (fun (s : State) b =>
      s.saveBar (if b.1 < 1536 then b.1 / 16 else 0) b.1 b.2) s).map (fun s =>
        (s.saveSamplers (s.partOf ctx) ctx).clearRecords ctx))

/-- A barrier arrival that the home holds: applying it now changes nothing (R230). -/
def State.heldArrival (s : State) (id : Nat) (o : Op) : Bool :=
  match o.kind, execBarArrivalApply id s with
  | .arrive _ _ _, .next t => t.ops.find id == some o
  | _, _ => false

/-- An operation of a halted course that does not complete of itself and goes with the course: a queued matrix entry, or a held arrival. -/
def State.goesAlong (s : State) (id : Nat) (o : Op) : Bool := o.isMat || s.heldArrival id o

/-- MIGRATE_OUT_SAVE_FINISHED (R283): once the context is halted and its operations and running nodes have ended, its state is saved,
queued matrix entries and held arrivals with it, and it is FREE here. -/
def execMigrateOutSaveFinished (ctx : Nat) (s : State) : Answer :=
  match s.ctxs.find ctx with
  | none => .next s
  | some c =>
    let mine := s.courses.filter (fun e => e.2.ctx == ctx)
    if !s.up || c.st ≠ .migrating || s.ops.any (fun o => o.2.inCtx ctx && !s.goesAlong o.1 o.2) ||
        mine.any (fun e => !s.haltedCourse e.1) then .next s else
    match s.saveCtx ctx with
    | some t => .next (((t.takeOff ctx true).forgetCtx ctx).endCmd 0 0x1100 1)
    | none => .next (mine.foldl (fun (s : State) e => s.tellSave e.1) s)

/-- A course as it arrives with its context: what its record gives, the number of its kernel's node, and the place of the record. -/
structure Arrival where
  course : Course
  node : Nat
  pa : Nat
  deriving DecidableEq, Repr

/-- The course that a valid record of the context holds; its rows and registers follow once more at its resumption (R279, R280). -/
def State.recordCourse (s : State) (ctx core k : Nat) : Option Arrival :=
  let c := { Course.blank core ctx with cslot := k }
  match s.recordAt c 0 false with
  | none => none
  | some pa =>
    let w0 := s.peekNat pa 8
    if !nbit w0 0 || bits w0 48 16 ≠ ctx then none else
    let c := { c with segbase := bits w0 32 12, rows := bits w0 16 10, spl := BitVec.ofNat 512 (s.peekNat (pa + 0x40) 64) }
    (s.readBody c).map (fun c => { course := c, node := s.peekNat (pa + 16) 8, pa := pa })

/-- The saved courses of a migrated context; a record outside the partition's ranges is none of them. -/
def State.recordCourses (s : State) (part ctx : Nat) : Option (List Arrival) :=
  let l := (List.range 3072).filterMap (fun i => s.recordCourse ctx (i / 32) (i % 32))
  let rows := s.rowRange part
  if l.all (fun e => s.bentOn (bentOf e.course.core) && inRange (s.slotRange part) e.course.cslot && decide (rows.1 ≤ e.course.segbase) &&
    decide (e.course.segbase + e.course.rows ≤ rows.1 + rows.2)) then some l else none

/-- A kernel that has come with its courses: its launch block is read again from its node once its queue is enabled. -/
def Kernel.arrived (ctx part q slot live : Nat) : Kernel :=
  { st := .resident, ctx := ctx, part := part, words := [], prio := 0, crew := 65535, next := live, courses := live, live := live,
    node := some (q, slot), told := false, batch := none, graft := none }

/-- The scales and zero points of a queued mmq that has arrived: a queue entry holds none, so free values (log entry 112). -/
def State.freeGroups (s : State) (m : Mat) : State × Mat :=
  match m.kind with
  | .mmq _ =>
    let w := WRef.of m.wref
    let n := if w.group = 0 then 0 else 192 * ((Shape.of m.sha).cols / w.group)
    let r := (List.range n).foldl (fun (r : State × List Nat × List Nat) _ =>
      let f := r.1.freeWord
      (f.2, bits f.1.toNat 0 16 :: r.2.1, bits f.1.toNat 16 8 :: r.2.2)) (s, [], [])
    (r.1, { m with sigma := r.2.1, zero := r.2.2 })
  | _ => (s, m)

/-- An operation that has come with its course. -/
def State.arriveOp (s : State) (o : Op) : State :=
  let r := match o.kind with
    | .mat m => let f := s.freeGroups m; (f.1, { o with kind := .mat f.2 })
    | _ => (s, o)
  { r.1 with ops := r.1.ops.put r.1.nextId r.2, nextId := r.1.nextId + 1 }

/-- A binding that has come with its course: its lock is registered anew (R212). -/
def State.arriveBind (s : State) (cid slot : Nat) : State :=
  match s.courses.find cid with
  | none => s
  | some c =>
    match c.binds.find slot with
    | none => s
    | some b =>
      let id := s.nextId
      let o : Op := { cid := some cid, ctx := c.ctx, path := 0, ovl := 0, idx := 0, flag := none, lwb := 0, pend := [], kind := .fbind slot }
      let s := s.setCourse cid { c with binds := c.binds.put slot { b with op := id, live := false } }
      State.lockRanges { s with ops := s.ops.put id o, nextId := id + 1 } id true (lockPieces false (match s.extent cid c (FDesc.parse b.words) with
        | .ok l => l
        | .error _ => []))

/-- A wait for another package's gate, by the name that came with it: the home keeps the record and will send VALUE (R294). -/
def State.waitAway (s : State) (name : Nat) (v : Word) (d : Option (BitVec 6)) : Wait :=
  .remoteGate ((s.routeTo (name / 2 ^ 16)).getD 12) noSeq name v d (match s.gateVals.find name with
    | some x => if v ≤ x then some x else none
    | none => none)

/-- A path that waits for a gate of this package again: the record that the gate has kept for it is its record now; without one it takes
one (R290, R294). -/
def State.waitHere (s : State) (cid p n : Nat) (q : Path) (v : Word) (d : Option (BitVec 6)) : State :=
  match s.courses.find cid, s.gate n with
  | some c, some g =>
    let away := s.partMoves g (s.partOf c.ctx)
    let s := s.setPath cid p { q with wait := .gate n v d (if v ≤ g.value ∧ !away then some g.value else none) }
    match g.remote.find? (fun r => r.back.isNone && r.v == v && decide (r.acl < 8)) with
    | some r => s.putGate n { g with remote := { r with acl := 8 } :: g.remote.erase r }
    | none => s.putGate n { g with nwait := g.nwait + 1 }
  | _, _ => s.setPath cid p (Path.gateGone { q with wait := .nothing } (s.gateName n) s.nextId 3)

/-- What a path waits for once it has come from the package from_: the words of sig.wait are translated here, and a gate is here or away. -/
def State.arriveWait (s : State) (from_ cid p : Nat) : State :=
  match s.courses.find cid with
  | none => s
  | some c =>
    match c.paths.find p with
    | none => s
    | some q =>
      let byName (name : Nat) (v : Word) (d : Option (BitVec 6)) : State :=
        if name / 2 ^ 16 = s.pkg.pkgno then s.waitHere cid p (name % 2 ^ 12) q v d else s.setPath cid p { q with wait := s.waitAway name v d }
      match q.wait with
      | .gate n v d none => byName (from_ * 2 ^ 16 + n) v d
      | .gate n v d (some x) => s.setPath cid p { q with wait := .remoteGate 12 noSeq (from_ * 2 ^ 16 + n) v d (some x) }
      | .remoteGate _ _ name v d none => byName name v d
      | .sig _ _ _ _ _ none => s.setPath cid p (s.watchAgain c q)
      | _ => s

/-- Puts an arrived course on the device: it stands saved in its record; what it has beside the record's stated fields, its queue entries,
held arrivals, bindings and waits come with it. -/
def State.arriveCourse (s : State) (kern : Nat) (e : Arrival) : State :=
  let cid := s.nextId
  let ctx := e.course.ctx
  let w (off n : Nat) : Nat := s.peekNat (e.pa + off) n
  let arr := arrivalsOf cid ctx w
  let mats := (List.range 8).filterMap (fun i => matOfEntry cid ctx (w (0x6C0 + 64 * i) 64))
  let first := cid + 1
  let place := first + arr.length + mats.length + 4
  let c := { e.course.withExtra place w with kern := kern, saved := true, mq := (List.range mats.length).map (fun i => first + arr.length + i) }
  let s := State.setCourse { s with nextId := first } cid c
  let s := (arr ++ mats).foldl State.arriveOp s
  let s := [0, 1, 2, 3].foldl (fun (s : State) i => s.arriveBind cid i) s
  let s : State := { s with nextId := place + 1 }
  [0, 1].foldl (fun (s : State) p => s.arriveWait (w 0x1060 8) cid p) s

/-- Puts the courses of one node, with their kernel, on the device. -/
def State.arriveKernel (s : State) (part ctx : Nat) (node : Nat) (l : List Arrival) : State :=
  let kern := s.nextId
  let s : State := { s with
    kernels := s.kernels.put kern (Kernel.arrived ctx part (bits node 16 5) (bits node 0 16) l.length), nextId := s.nextId + 1 }
  l.foldl (fun (s : State) e => s.arriveCourse kern e) s

/-- Barriers of a migrated context whose images hold its number come back as SAVED. -/
def State.arriveBars (s : State) (ctx : Nat) : List Nat :=
  (List.range 1544).filter (fun key =>
    match s.translate 0 ctx (s.barImageVa ctx key) none false with
    | .ok r => bits (s.peekNat (r.1 + 8) 8) 48 16 == ctx && s.peekNat (r.1) 16 != 0
    | .error _ => false)

/-- MIGRATE_IN (R283): the context is enabled, and each course stands saved in its record; the first run waits until %tstamp exceeds the
latest time-stamp saved with the context (log entry 115). -/
def execMigrateIn (page part ctx : Nat) (addr : Word) (seq : BitVec 32) (s : State) : Answer :=
  let part := part % 16
  let ctx := ctx % 2 ^ 16
  .next (s.command page 0x1100 true part (cmdWords (ctxWord0 7 part ctx 0) (some addr.toNat) none seq) (fun s =>
    match s.enableCtx part ctx addr.toNat with
    | none => .refused
    | some t =>
      match t.recordCourses part ctx with
      | none => .refused
      | some l =>
        let after := l.foldl (fun m e => max m (t.peekNat (e.pa + 0x1008) 8)) 0
        let t := (t.modCtx ctx (fun c => { c with after := after, barsOut := t.arriveBars ctx })).arriveSamplers part ctx
        .done ((l.map (·.node)).eraseDups.foldl (fun (t : State) n => t.arriveKernel part ctx n (l.filter (fun e => e.node == n))) t)))

/-- A kernel that came with a migrated context gets its launch block from its node, once its queue is enabled again. -/
def State.adopt (s : State) (kern : Nat) : State :=
  match s.kernels.find kern with
  | none => s
  | some k =>
    match k.words, k.node with
    | [], some (q, slot) =>
      (match s.queues.find q with
       | none => s
       | some v =>
         if v.ctx ≠ k.ctx || v.nslot ≤ slot then s else
         match s.walkerBlock (queueCore q) k.ctx (s.nodeWord q v slot 8) 8 with
         | none => s
         | some w =>
           let r : NodeRun := { q := q, slot := slot, kern := some kern, op := none, watch := none, done := false, cond := false, bad := none }
           { s with
             kernels := s.kernels.put kern { k with words := w, prio := launchPrio w, crew := launchCrew w }
             nodes := if s.nodes.any (fun t => t.q == q && t.slot == slot) then s.nodes else s.nodes ++ [r]
             courses := s.courses.map (fun (c : Nat × Course) => if c.2.kern = kern then
               (c.1, { c.2 with res := launchRes w, priv := wordAt w 6 + c.2.index * launchRes w * 65536 }) else c) })
    | _, _ => s

/-- A migrated course still waits for its kernel's launch block. -/
def State.orphan (s : State) (c : Course) : Bool :=
  match s.kernels.find c.kern with
  | some k => k.words.isEmpty
  | none => false

/-! ### Retired bents (R12, R308, R309) -/

/-- A bent leaves service: its courses stop, their matrix entries are discarded, and they wait for another core. -/
def State.retireBent (s : State) (bent : Nat) : State :=
  if !s.bentOn bent || 48 ≤ bent then s else
  let s : State := { s with pkg := { s.pkg with bentEn := s.pkg.bentEn &&& ~~~(BitVec.ofNat 48 (2 ^ bent)), cfgGen := s.pkg.cfgGen + 1 } }
  let l := s.courses.filter (fun c => bentOf c.2.core == bent && c.2.moved.isNone)
  let s := l.foldl (fun (s : State) c => (s.dropMats c.1).modCourse c.1 (fun c => { c with moved := some c.core })) s
  s.unpark (fun c => c.2.moved.isSome)

/-- BENT_RETIRE (R12). -/
def execBentRetire (bent : Nat) (s : State) : Answer := .next (s.retireBent bent)

/-- The image of a tile moves from one place of the save area to another. -/
def State.moveImage (s : State) (c : Course) (old new : Nat) : Option State :=
  let span (k : Nat) (write : Bool) : Option (List (Nat × Nat)) :=
    (pieces 3 (s.tileImage c.ctx k) 49216).mapM (fun p => match s.translate c.core c.ctx p.1 none write with
      | .ok r => some (r.1, p.2)
      | .error _ => none)
  match span old false, span new true with
  | some a, some b => some (s.writeMarked b (s.readMarked a))
  | _, _ => none

/-- The rows and state of a moved course come back from its record at its old place into its new one. No overlay is loaded there for it: its
next run finds those that its context's programs have loaded on that core (log entry 107). -/
def State.restoreMoved (s : State) (cid : Nat) (old : Course) (p : Spot) : Option State :=
  (s.readBody old).bind (fun c =>
    let c := { c with core := p.core, cslot := p.cslot, segbase := p.base, borrowed := p.lent, moved := none, saved := false, spl := 0 }
    let rows := (List.range old.rows).mapM (fun j => (s.recordAt old (0x10000 + 256 * j) false).map (fun pa => (j, pa)))
    let tiles := (List.range 8).filter (fun i => old.tilesOut.getLsbD i)
    match rows with
    | none => none
    | some l =>
      let s := l.foldl (fun (s : State) e =>
        s.rowIn { c with lo := 0 } e.1 (s.peekNat e.2 256) ((List.range 4).map (fun b => (s.poisoned (e.2 + 64 * b) 64).isSome))) s
      (tiles.foldlM (fun (s : State) i => s.moveImage c (8 * bentOf old.core + i) (8 * bentOf c.core + i)) s).map (fun s =>
        let s := match s.recordAt old 0 true with
          | some pa => s.pokeNat pa 8 (old.header - 1)
          | none => s
        let s := s.setCourse cid c
        c.crews.foldl (fun (s : State) k =>
          let stay := s.crewOnCore old.core c.ctx k
          s.modCrew c.core c.ctx k (fun e =>
            { e with cores := setBits (if stay then e.cores else setBits e.cores old.core 1 0) c.core 1 1 })) s))

/-- A moved course goes on (R309): with a region open it restarts there, once if a restart was due already; otherwise MOVED is
delivered at the resumption point of its lowest path that awaits no driver, beside what the path waits for there. Where every path awaits
the driver for another trap, MOVED follows at the lowest path's next run start. -/
def State.movedOn (s : State) (cid from_ : Nat) : State :=
  match s.courses.find cid with
  | none => s
  | some c =>
    if c.drain then s
    else if c.regpc ≠ noRegion then s.restart cid else
    match c.paths.filter (fun q => !q.2.stopped), c.paths with
    | (p, q) :: _, _ => s.deliver cid p (Trap.sig 2 from_) q.ovl q.idx false
    | [], (p, q) :: _ => s.setPath cid p (q.addLate { trap := Trap.sig 2 from_, ovl := q.ovl, idx := q.idx, place := s.nextId })
    | [], [] => s

/-- COURSE_RELOCATE (R12, R309): a stopped course of a retired bent is saved; a saved one is placed and restored on another core. -/
def execCourseRelocate (cid : Nat) (s : State) : Answer :=
  match s.courses.find cid with
  | none => .next s
  | some c =>
    match c.moved with
    | none => .next s
    | some from_ =>
      if !s.up || !s.betweenRuns cid || (s.opsOf cid).any (fun o => !s.heldArrival o.1 o.2) then .next s else
      if !c.saved then
        (match (s.saveTiles cid).bind (fun s => s.saveCourse cid) with
         | some t => .next t
         | none => .next (s.tellSave cid))
      else
        match s.findSpot (s.partOf c.ctx) c.ctx c.rows with
        | none => .next s
        | some p =>
          match (s.claim p.core p.cslot p.base c.rows).bind (fun s => s.restoreMoved cid c p) with
          | some t => .next (({ t with lastBay := bayOf p.core }).movedOn cid from_)
          | none => .next (s.tellSave cid)

end Sys2Proof.Machine
end

