-- ==== Sys2Proof/Machine/Traps.lean ====
section
/-!
DEFINITION. Traps on demand, the return from the shim, the driver's reply, idempotent regions, signatures and the sampler's commands
(R80 to R82, R298 to R308, R330, R331).
-/

namespace Sys2Proof.Machine

/-! ### Traps on demand (R302) -/

/-- TRAP (R302). -/
def execTrap (x : Args) (s : State) : Answer :=
  issue Enc.trap x (fun env s => if env.acting x = 0 then .ok s else .trap (Trap.user (BitVec.ofNat 8 x.a.ctl))) s

/-- DBG (R302). -/
def execDbg (x : Args) (s : State) : Answer :=
  issue Enc.dbg x (fun env s => if env.acting x = 0 then .ok s else .trap (Trap.user 0xFF)) s

/-- ILLEGAL_ENCODING (R51): the issuing path's word raises ILLEGAL with no effect. -/
def execIllegalEncoding (sub : BitVec 8) (s : State) : Answer :=
  match s.issuing with
  | none => .fault .noIssuingPath
  | some env => .next (s.tick.trapHere env (Trap.illegal sub))

/-! ### The return from the shim (R300) -/

/-- Rows that an expert queue can hold at all; 0 of one that is OFF. -/
def State.xqRoom (s : State) (q : Nat) : Nat :=
  match s.xqs.find q with
  | some x => x.rrows + x.spilln
  | none => 0

/-- What a path waits for after a retry: the condition of the trap's cause (R300). -/
def State.retryWait (s : State) (t : Trap) : Wait :=
  if t.cls = 0x05 ∧ t.sub = 1 then
    (match s.locks.find t.info.toNat with
     | some l => .rlock t.info.toNat l.op
     | none => .wflush)
  else if t.cls = 0x0B then
    (let q := bits t.info.toNat 0 10
     let need := bits t.info.toNat 16 7
     .xqroom q (s.xqRoom q - need))
  else .wflush

/-- An XQSPILL whose need no emptying of the queue meets (R263, R300). -/
def State.hopeless (s : State) (t : Trap) : Bool :=
  t.cls == 0x0B && decide (s.xqRoom (bits t.info.toNat 0 10) < bits t.info.toNat 16 7)

/-- TRAPRET (R300). -/
def execTrapret (x : Args) (s : State) : Answer :=
  issue Enc.trapret x (fun env s =>
    if env.pa.shim.isNone then .trap Trap.field else
    if env.acting x = 0 then .ok s else
    let k := x.a.ctl
    let t := s.recTrap env.co env.p
    let fin : Adv := { gone := true, sig := false }
    if k = 2 ∨ (k = 0 ∧ s.hopeless t) then .done ((s.leaveShim env.cid env.p false).stopForDriver env.cid env.p t) fin else
    let w := if k = 0 then s.retryWait t else .wflush
    .done ((s.leaveShim env.cid env.p (k = 1)).modCourse env.cid (fun c => c.modPath env.p (fun q => { q with wait := w }))) fin) s

/-! ### The driver's reply (R301, R315) -/

/-- Which course and path a RESUME write names, where that path awaits the driver and its notice stands in the ring. -/
def State.resumable (s : State) (part ctx core k p : Nat) : Option (Nat × Course × Path) :=
  match s.courses.find? (fun c => c.2.ctx == ctx && c.2.core == core && c.2.cslot == k && s.partOf ctx == part && c.2.moved.isNone) with
  | none => none
  | some (cid, c) =>
    match c.paths.find p, s.parts.find part with
    | some q, some v =>
      if q.stopped ∧ !v.notices.any (fun n => n.ctx == ctx && n.src == courseSource core k p) then some (cid, c, q) else none
    | _, _ => none

/-- What the driver may have changed in memory: the span word, the depth vector and the path stack, and after a PRIVHW the HW in the course
record's header (R79, R105, R106, R129). -/
def State.reread (s : State) (c : Course) (q : Path) (t : Trap) : Course × Path :=
  let see (off : Nat) : Option Nat :=
    match s.translate c.core c.ctx (c.priv + off) (some true) false with
    | .ok r => some (s.peekNat r.1 8)
    | .error _ => none
  let lo := match see 0x102200 with
    | some v => bits v 0 32
    | none => c.lo
  let hw := match s.recordAt c 0 false with
    | some pa => if t.cls = 0x07 then bits (s.peekNat (pa + 8) 8) 0 32 else c.hw
    | none => c.hw
  let q := match see (depthOff (lowLane (q.fmask &&& ~~~c.exited))) with
    | some v => if q.shim.isSome then q else { q with lwb := 4 * bits v 16 16, depth := bits v 0 10 }
    | none => q
  ({ c with lo := lo, hw := hw, stack := s.stackTop c 256 }, q)

/-- MOVED stands in the words that a trap inside the shim fills (R299, R309). -/
def State.shimMoved (s : State) (c : Course) (p : Nat) : Bool :=
  let w := s.recWord c p 12
  Trap.moved { cls := BitVec.ofNat 8 (bits w 56 8), sub := BitVec.ofNat 8 (bits w 48 8), lane := 0, addr := 0, info := 0 }

/-- The path goes on as ACTION says: retried, or after the instruction (R301); after MOVED at its resumption point, where what it waited
for stands as before (R309). -/
def State.replied (s : State) (c : Course) (p : Nat) (q : Path) (after : Bool) : Path :=
  let q := { q with stopped := false }
  if q.shim.isSome then (if after && !s.shimMoved c p then s.pastInstr c q else q) else s.resumed c p q after

/-- Carries out a driver's ACTION for a path that awaits it. -/
def State.takeAction (s : State) (cid p : Nat) (c : Course) (q : Path) : State :=
  let action := bits (s.recWord c p 3) 60 2
  let t := s.recTrap c p
  let r := s.reread c q (if q.shim.isSome then { t with cls := BitVec.ofNat 8 (bits (s.recWord c p 12) 56 8) } else t)
  let s := s.setCourse cid { r.1 with paths := r.1.paths.put p r.2 }
  if action = 0 ∨ action = 1 then s.setPath cid p (s.replied r.1 p r.2 (action = 1))
  else if action = 2 ∧ q.shim.isNone ∧ (t.toShim ∨ t.cls = 0x0F) ∧ s.hasShim c.core then (s.setPath cid p { r.2 with stopped := false }).enterShim cid p t
  else
    match s.ctxs.find c.ctx with
    | some x => { s with ctxs := s.ctxs.put c.ctx { x with st := .ending } }.takeOff c.ctx false
    | none => s

/-- A record of s56 to s63 that the shim's return can read back is written when the driver sends a path into the shim (R299). -/
def State.shimRecord (s : State) (c : Course) (p : Nat) : State :=
  s.recWrite c p ((List.range 8).map (fun i => (4 + i, (c.scalar (56 + i)).toNat)))

/-- RESUME (R301, R315): the path that awaits the driver goes on as its record's ACTION says. A course whose state stands in its record
is read from it, and its state goes back there. -/
def execResume (page ctx core cslot p : Nat) (s : State) : Answer :=
  if page = 0 ∨ !s.up then .next s else
  match s.resumable (page - 1) ctx core cslot p with
  | none => .next s
  | some (cid, c, q) =>
    if c.saved && (s.recordAt c 0 true).isNone then .next (s.tellSave cid) else
    .next (s.inRecord cid (fun s => match s.courses.find cid with
      | none => s
      | some b =>
        let q := (b.paths.find p).getD q
        (if bits (s.recWord b p 3) 60 2 = 2 then s.shimRecord b p else s).takeAction cid p b q))

/-! ### Idempotent regions and signatures (R303, R306 to R308) -/

/-- REGION (R303). -/
def execRegion (x : Args) (s : State) : Answer :=
  issue Enc.region x (fun env s =>
    if env.acting x = 0 then .ok s else
    if !env.co.single || maskOf (fun l => cOf env.co.c l != 0) &&& env.pa.fmask != 0 then .trap Trap.field else
    let q := env.pa
    .done (s.modCourse env.cid (fun c => { c with
      regpc := BitVec.ofNat 32 (q.ovl * 65536 + (q.idx + 1) % 65536), sig := 0,
      region := { depth := q.depth, lwb := q.lwb, fmask := q.fmask, d := q.d, prio := q.prio, acc := c.acc, xseq := c.xseq,
                  restarts := 0 } })) { sig := false }) s

/-- A SIG mismatch of a core: the second one since reset retires its bent (R308). -/
def State.mismatch (s : State) (core : Nat) : State :=
  let n := s.sigCount.getD core 0 + 1
  let t : State := { s with sigCount := s.sigCount.put core n }
  if n = 2 then t.retireBent (bentOf core) else t

/-- SIGCHK (R306, R307). -/
def execSigchk (x : Args) (s : State) : Answer :=
  issue Enc.sigchk x (fun env s =>
    if env.acting x = 0 ∨ !env.co.single ∨ env.pa.shim.isSome then .ok s
    else if env.co.sig.toNat = x.joined then .done (s.modCourse env.cid (fun c => { c with sig := 0 })) { sig := false }
    else .refuse (s.mismatch env.co.core) (Trap.sig 1 env.co.sig.toNat)) s

/-! ### The sampler's commands (R80 to R82, R330, R331) -/

/-- Key of the sampler that a core keeps for a partition (R80). -/
def samplerKey (core part : Nat) : Nat := core * 16 + part

/-- A sampler; off, with no buffer, before its first command. -/
def State.sampler (s : State) (core part ctx : Nat) : Sampler :=
  s.samplers.getD (samplerKey core part)
    { ctx := ctx, on := false, period := 16, base := 0, cap := 0, prod := 0, cons := 0, drop := 0, next := 0, last := 31 }

/-- The sampler of the issuing course's core and partition. -/
def Env.sampler (e : Env) (s : State) : Sampler := s.sampler e.co.core (s.partOf e.co.ctx) e.co.ctx

/-- Changes that sampler. -/
def State.putSampler (s : State) (e : Env) (m : Sampler) : State :=
  { s with samplers := s.samplers.put (samplerKey e.co.core (s.partOf e.co.ctx)) m }

/-- PROF_OFF (R82): a sample due in this clk is still taken, unless the sampler's context is halted, and none after it (R80, R331). -/
def execProfOff (x : Args) (s : State) : Answer :=
  issue Enc.profOff x (fun env s =>
    if env.acting x = 0 then .ok s else
    let m := env.sampler s
    .ok (s.putSampler env { m with on := false, next := if m.on ∧ m.next ≤ s.time.clk ∧ s.ctxActive m.ctx then s.time.clk else 0 })) s

/-- PROF_ON (R82): a 16-bit immediate is read unsigned (log entry 101). -/
def execProfOn (x : Args) (s : State) : Answer :=
  issue Enc.profOn x (fun env s =>
    if env.acting x = 0 then .ok s else
    let n := min 65535 (max 16 (match x.a with
      | .imm v => v.toNat
      | o => env.n64 x o))
    .ok (s.putSampler env { env.sampler s with on := true, period := n, next := s.time.clk + n })) s

/-- PROF_BUF (R82, R330): the sampler becomes the issuing context's (R80). -/
def execProfBuf (x : Args) (s : State) : Answer :=
  issue Enc.profBuf x (fun env s =>
    if env.acting x = 0 then .ok s else
    let base := env.n64 x x.a
    if base % 64 ≠ 0 then .trap (Trap.align 0xFF base) else
    .ok (s.putSampler env { env.sampler s with
      ctx := env.co.ctx, base := base, cap := 2 ^ x.b.ctl, prod := 0, cons := 0, drop := 0, last := 31 })) s

/-- PROF_RDP (R82). -/
def execProfRdp (x : Args) (s : State) : Answer :=
  issue Enc.profRdp x (fun env s =>
    if env.acting x = 0 then .ok s else .ok (s.putScalar env x.d (env.sampler s).prod.toNat)) s

/-- PROF_CONS (R82). -/
def execProfCons (x : Args) (s : State) : Answer :=
  issue Enc.profCons x (fun env s =>
    if env.acting x = 0 then .ok s else
    .ok (s.putSampler env { env.sampler s with cons := BitVec.ofNat 32 (env.n64 x x.a) })) s

/-- PROF_DROP (R82): the count is read and cleared. -/
def execProfDrop (x : Args) (s : State) : Answer :=
  issue Enc.profDrop x (fun env s =>
    if env.acting x = 0 then .ok s else
    let m := env.sampler s
    .ok ((s.putScalar env x.d m.drop).putSampler env { m with drop := 0 })) s

end Sys2Proof.Machine
end

