-- ==== Sys2Proof/Machine/Links.lean ====
section
/-!
DEFINITION. Fabric links (R318 to R320, R322, R323): training, lanes, the replay queues and their replies, and the time input.
-/

namespace Sys2Proof.Machine

/-! ### Link state (R11, R318, R319) -/

/-- Replaces a link. -/
def State.putLink (s : State) (n : Nat) (l : Link) : State := { s with links := s.links.put n l }

/-- LINK_W of a link takes a code; a change counts in CFG_GEN (R11). -/
def State.setLinkW (s : State) (n code : Nat) : State :=
  let w := BitVec.ofNat 48 (setBits s.pkg.linkW.toNat (4 * n) 4 code)
  if w = s.pkg.linkW then s else { s with pkg := { s.pkg with linkW := w, cfgGen := s.pkg.cfgGen + 1 } }

/-- Lanes of a map that work on both sides: those that training finds, by the lane maps exchanged, and that this side has not excluded. -/
def Link.lanes (l : Link) (map : BitVec 8) : Nat := ((List.range 8).filter (fun i => map.getLsbD i && !l.excluded.getLsbD i)).length

/-- The widest working width of 8, 4, 2 or 1; 0 without a lane (R318). -/
def Link.widest (l : Link) (map : BitVec 8) : Nat :=
  let n := l.lanes map
  if 8 ≤ n then 8 else if 4 ≤ n then 4 else if 2 ≤ n then 2 else n

/-- A link enters TRAINING; the trainings since the last read saturate. -/
def Link.train (l : Link) : Link :=
  { l with st := .training, retrain := min 65535 (l.retrain + 1), width := 0, retryAt := none, crc := [] }

/-- The link status register (R319). -/
def Link.status (l : Link) : Nat :=
  (match l.st with
   | .down => 0
   | .training => 1
   | .up => 2) * 2 ^ 62 + l.ver % 256 * 2 ^ 44 + l.peer % 4096 * 2 ^ 32 + l.retrain % 65536 * 2 ^ 16 + l.width % 16

/-! ### Messages that move to another link (R320) -/

/-- Numbers of a message, before and after it moves. -/
def renumber (a b c : Nat × Nat) : Nat × Nat := if c = a then b else c

/-- An operation after a message it waits for has moved. -/
def OpKind.relink (k : OpKind) (a b : Nat × Nat) : OpKind :=
  match k with
  | .gateRemote n q name o d r => let t := renumber a b (n, q); .gateRemote t.1 t.2 name o d r
  | .xqPush p todo dups remote => .xqPush p todo dups (remote.map (fun e => (e.1, renumber a b e.2)))
  | .xqComb q d todo remote => .xqComb q d todo (remote.map (renumber a b))
  | k => k

/-- A path after a message it waits for has moved. -/
def Path.relink (q : Path) (a b : Nat × Nat) : Path :=
  match q.wait with
  | .remoteGate n k name v d got => let t := renumber a b (n, k); { q with wait := .remoteGate t.1 t.2 name v d got }
  | _ => q

/-- A message moves from one link's replay queue to another's. -/
def State.moveMsg (s : State) (n k : Nat) (m : Msg) : State :=
  let b := (k, (s.link k).nextSeq)
  let s := ((s.dropMsg n m.seq).send k m.dest m.kind)
  { s with
    ops := s.ops.map (fun (o : Nat × Op) => (o.1, { o.2 with kind := o.2.kind.relink (n, m.seq) b }))
    courses := s.courses.map (fun (c : Nat × Course) =>
      (c.1, { c.2 with paths := c.2.paths.map (fun (p : Nat × Path) => (p.1, p.2.relink (n, m.seq) b)) })) }

/-- The UP link with room that the route table names for a message of a DOWN link; none for messages toward a viral package (R323). -/
def State.wayOut (s : State) (n : Nat) (m : Msg) : Option Nat :=
  if (s.link n).viral && (s.link n).peer == m.dest then none else
  match s.routeTo m.dest with
  | some k => if k ≠ n ∧ (s.link k).st = .up ∧ s.replayRoom [k] then some k else none
  | none => none

/-- Messages of DOWN links move to UP links that the route table names (R320). -/
def State.reroute (s : State) : State :=
  (s.links.filter (fun l => l.2.st == LState.down)).foldl (fun (s : State) l => l.2.queue.foldl (fun (s : State) m =>
    match s.wayOut l.1 m with
    | some k => s.moveMsg l.1 k m
    | none => s) s) s

/-- A link goes DOWN; LINK_W reads down. The time without a route counts from the first time since it was last UP. -/
def State.linkDown (s : State) (n : Nat) (l : Link) : State :=
  ((s.putLink n { l with st := .down, width := 0, downAt := some (l.downAt.getD s.time.ns) }).setLinkW n 0).reroute

/-! ### Training (R318) -/

/-- LINK_POWER_UP (R318): power-up or reset starts training. -/
def execLinkPowerUp (link : Nat) (s : State) : Answer :=
  if !s.up || decide (12 ≤ link) then .next s else
  .next (s.putLink link { (s.link link).train with excluded := 0, viral := false })

/-- TRAINING_SUCCEEDS (R15, R318): both sides have a version in common, and package number and lane map of the peer are known; the widest
working width is taken. -/
def execTrainingSucceeds (link peer : Nat) (ver : Training) (s : State) : Answer :=
  let l := s.link link
  let w := l.widest ver.lanes
  if !s.up || decide (12 ≤ link) || l.st ≠ .training || ver.ver = 0 || w = 0 then .next s else
  .next ((s.putLink link { l with st := .up, ver := 1, peer := peer % 4096, width := w, retryAt := none, downAt := none }).setLinkW link w).reroute

/-- TRAINING_FAILS (R15, R318): no training, or no common version; it is tried again after 1 ms. -/
def execTrainingFails (link : Nat) (s : State) : Answer :=
  let l := s.link link
  if !s.up || decide (12 ≤ link) || l.st ≠ .training then .next s else
  .next (s.linkDown link { l with retryAt := some (s.time.ns + 1000000) })

/-- TRAINING_RETRY (R318). -/
def execTrainingRetry (link : Nat) (s : State) : Answer :=
  let l := s.link link
  match l.retryAt with
  | some t => if !s.up || l.st ≠ .down || s.time.ns < t then .next s else .next (s.putLink link l.train)
  | none => .next s

/-! ### Lane errors (R318) -/

/-- The CRC failures of a lane in the last millisecond. -/
def Link.failures (l : Link) (lane now : Nat) : List Nat := (l.crc.getD lane []).filter (fun t => decide (now < t + 1000000))

/-- FLIT_CRC_FAILURE (R318): the flit is sent again within the link, unseen by programs; the lane's failures are counted. -/
def execFlitCrcFailure (link lane : Nat) (s : State) : Answer :=
  let l := s.link link
  if !s.up || l.st ≠ .up || decide (8 ≤ lane) || l.excluded.getLsbD lane then .next s else
  .next (s.putLink link { l with crc := l.crc.put lane (l.failures lane s.time.ns ++ [s.time.ns]) })

/-- LANE_ERROR_THRESHOLD (R12, R318): a lane with 16 failures in 1 ms is excluded and the link trains again. -/
def execLaneErrorThreshold (link lane : Nat) (s : State) : Answer :=
  let l := s.link link
  if !s.up || l.st ≠ .up || decide (8 ≤ lane) || decide ((l.failures lane s.time.ns).length < 16) then .next s else
  .next (s.putLink link { l.train with excluded := l.excluded ||| BitVec.ofNat 8 (2 ^ lane) })

/-- VIRAL_FLIT_RECEIVED (R318, R323): the link goes DOWN, for good until a reset; the package itself does not become viral. -/
def execViralFlitReceived (link : Nat) (s : State) : Answer :=
  let l := s.link link
  if !s.up || decide (12 ≤ link) then .next s else
  match l.st with
  | .down => .next (s.putLink link { l with retryAt := none, viral := true })
  | _ => .next (s.linkDown link { l with viral := true, retryAt := none })

/-! ### Replies (R320) -/

/-- A reply ends a message for whoever sent it. -/
def State.replied1 (s : State) (n seq : Nat) (k : MsgKind) (r : Reply) : State :=
  match k with
  | .push op _ _ _ _ _ _ => s.pushReplied op n seq r
  | .comb op _ _ _ _ _ _ _ _ => s.combReplied op n seq r
  | .gate _ _ _ => if r = .accept ∨ r = .duplicate then s else s.gateReplied n seq r
  | .reply _ _ => s

/-- LINK_REPLY (R320): accept, duplicate, refused or a gate's answer ends the message; retry-later keeps it for 2 µs (R267). Once a gate
operation's message has ended, the home's answers to it come as messages of the home's own: its admission, its value or its refusal, by
the link and number that the operation was sent under; and VALUE of a gate whose migration has ended, by the gate (R289, R294, log
entry 119). -/
def execLinkReply (link seq : Nat) (r : Reply) (s : State) : Answer :=
  if !s.up then .next s else
  match r with
  | .gateValue gate v => .next (if (s.link link).st = .up then s.gateNews (s.link link).peer gate v else s)
  | r =>
    match s.msg link seq with
    | some m =>
      if (s.link link).st ≠ .up then .next s
      else if r = .retryLater then .next (s.modMsg link seq (fun m => { m with retry := some (s.time.ns + 2000) }))
      else .next ((s.dropMsg link seq).replied1 link seq m.kind r)
    | none => .next (if r = .retryLater ∨ r = .duplicate then s else s.gateReplied link seq r)

/-- REPLAY_RETRY (R267, R320): the message is sent again, behind later ones. -/
def execReplayRetry (link seq : Nat) (s : State) : Answer :=
  match s.msg link seq with
  | none => .next s
  | some m =>
    match m.retry with
    | none => .next s
    | some t =>
      let l := s.link link
      if !s.up || l.st ≠ .up || s.time.ns < t then .next s else
      .next (s.putLink link { l with queue := l.queue.filter (fun k => k.seq != seq) ++ [{ m with retry := none }] })

/-- A link is DOWN and has not been UP for 10 ms, counted from a time at the earliest. -/
def State.routeless (s : State) (n since : Nat) : Bool :=
  let l := s.link n
  l.st == LState.down && decide (max (l.downAt.getD 0) since + 10000000 ≤ s.time.ns)

/-- Another UP link leads toward the peer of a link (R320, R323). -/
def State.otherWay (s : State) (n : Nat) : Bool :=
  !(s.link n).viral && (match s.routeTo (s.link n).peer with
    | some k => k != n && (s.link k).st == .up
    | none => false)

/-- Waiter records of a package that cannot be reached are dropped, and NWAIT falls (R290). -/
def State.dropRemote (s : State) (n seq : Nat) : State :=
  s.gates.foldl (fun (s : State) e =>
    let l := e.2.remote.filter (fun r => r.back == some (n, seq))
    if l.isEmpty then s else
    s.putGate e.1 { e.2 with remote := e.2.remote.filter (fun r => r.back != some (n, seq)), nwait := e.2.nwait - l.length }) s

/-- ROUTE_TIMEOUT (R290, R320): after 10 ms without a route a message ends as refused, a gate's waiting path or deferred signal gets
GONE, and a waiter record of the other side is dropped. -/
def execRouteTimeout (link seq : Nat) (s : State) : Answer :=
  if !s.up || decide (12 ≤ link) then .next s else
  match s.msg link seq with
  | some m => if s.routeless link m.since then .next ((s.dropMsg link seq).replied1 link seq m.kind .refused) else .next s
  | none => if s.routeless link 0 && !s.otherWay link then .next ((s.gateReplied link seq .refused).dropRemote link seq) else .next s

/-! ### Time (R322) -/

/-- A signed number held within a bound. -/
def clampInt (v b : Int) : Int := max (-b) (min v b)

/-- TIME_SYNC (R322): the rate changes by at most 200 ppm; an offset above 1 ms ahead of the counter is a forward step; a counter that
is ahead is only slowed. -/
def execTimeSync (off ppm : Int) (s : State) : Answer :=
  let rate := clampInt ppm 200
  if off < 0 then .next { s with time := { s.time with ppm := min rate 0 } }
  else if 1000000 < off then .next { s with time := { s.time with ppm := rate, ns := s.time.ns + off.toNat } }
  else .next { s with time := { s.time with ppm := rate } }

end Sys2Proof.Machine
end

