-- ==== Sys2Proof/Machine/Host.lean ====
section
/-!
DEFINITION. The host port (R312 to R317): accesses over CXL.mem, the whole-memory checkpoint (R311), and the registers: writes, reads, the
fault ring's counter, and counters that reading clears.
-/

namespace Sys2Proof.Machine

/-! ### CXL.mem (R312) -/

/-- DRAM of the package in bytes (R8). -/
def dramBytes : Nat := 2 ^ 39

/-- A range of host physical addresses lies in an HDM-DB window over package DRAM (R312). -/
def State.inHdm (s : State) (hpa n : Nat) : Bool := s.pkg.hdm.any (fun w => decide (w.2.1 ≤ hpa) && decide (hpa + n ≤ w.2.1 + w.2.2))

/-- HOST_CXL_MEM_ACCESS (R165, R310 to R312): an access inside one 64-byte block of an HDM-DB window; outside the windows the device answers
for no memory. It waits on range locks, and a write
waits for a checkpoint; in the viral state a read is answered with poison. -/
def execHostCxlMemAccess (write : Bool) (hpa n : Nat) (bytes : List Byte) (s : State) : Answer :=
  let n := if write then bytes.length else n
  if s.pkg.powerOff || s.pkg.inReset || n = 0 || decide (64 < hpa % 64 + n) || decide (dramBytes < hpa + n) || !s.inHdm hpa n
  then .next { s with out := .none }
  else if (s.lockAt s.nextId hpa n write).isSome || (write && s.pkg.checkpoint) then .next { s with out := .none }
  else if write then .next { s.poke hpa bytes with out := .none }
  else if s.pkg.viral || (s.poisoned hpa n).isSome then .next { s with out := .poison }
  else .next { s with out := .bytes (s.peek hpa n) }

/-! ### The checkpoint (R311, R316) -/

/-- ARM (R316): a safe tier outside the package's DRAM, at a multiple of 512 GiB. -/
def execArm (page : Nat) (base : Word) (seq : BitVec 32) (s : State) : Answer :=
  .next (s.command page 0x1300 true 0 (cmdWords (1 * 2 ^ 60) (some base.toNat) none seq) (fun s =>
    if base.toNat % dramBytes ≠ 0 ∨ base = 0 ∨ 2 ^ 52 ≤ base.toNat then .refused else .done { s with pkg := { s.pkg with tier := some base } }))

/-- DISARM (R316). -/
def execDisarm (page : Nat) (seq : BitVec 32) (s : State) : Answer :=
  .next (s.command page 0x1300 true 0 (cmdWords (3 * 2 ^ 60) none none seq) (fun s => .done { s with pkg := { s.pkg with tier := none } }))

/-- START (R311, R316): every course halts as at a slice end. It is served in the viral state too, to a tier armed before. -/
def execStartCheckpoint (page : Nat) (seq : BitVec 32) (s : State) : Answer :=
  let run (s : State) : CmdEnd :=
    match s.pkg.tier with
    | none => .refused
    | some _ =>
      let t : State := { s with pkg := { s.pkg with checkpoint := true } }
      .later (t.unpark (fun _ => true))
  let words := cmdWords (2 * 2 ^ 60) none none seq
  if !s.pkg.viral || s.pkg.powerOff then .next (s.command page 0x1300 true 0 words run)
  else if page ≠ 0 || s.cmdPending 0 0x1300 then .next s
  else
    let s : State := { s with cmds := s.cmds.put (cmdKey 0 0x1300) { words := s.cmdStored 0 0x1300 words, pending := true } }
    match run s with
    | .later t => .next t
    | _ => .next (s.endCmd 0 0x1300 2)

/-- The host physical address that a DRAM cell serves, if its frame is in service under one. -/
def State.hpaOfCell (s : State) (k : Nat) : Option Nat :=
  match s.pkg.frameMap.find? (fun e => e.2 = k / 65536) with
  | some e => some (e.1 * 65536 + k % 65536)
  | none => if (s.pkg.frameMap.find (k / 65536)).isSome then none else some k

/-- Copies every DRAM byte and every poison mark to the safe tier (R311). -/
def State.copyOut (s : State) (base : Nat) : State :=
  let cells := (s.mem.filter (fun c => c.1 < dramBytes)).filterMap (fun c => (s.hpaOfCell c.1).map (fun h => (base + h, c.2)))
  let marks := (s.poison.filter (fun u => u < dramBytes)).filterMap (fun u => (s.hpaOfCell u).map (fun h => base + h))
  let rest := s.mem.filter (fun c => c.1 < base) ++ s.mem.filter (fun c => base + dramBytes ≤ c.1)
  { s with
    mem := cells.foldl (fun m c => memWrite m c.1 [c.2]) rest
    poison := s.poison.filter (fun u => decide (u < base) || decide (base + dramBytes ≤ u)) ++ marks }

/-- Operations that a checkpoint waits for: those of courses and the copies of nodes (R311). -/
def Op.mustEnd (o : Op) : Bool :=
  o.cid.isSome || (match o.kind with
    | .cp _ _ _ => true
    | _ => false)

/-- Everything a checkpoint waits for has come to rest: every course has halted, with the step or group that its sequencer was in, and every
operation has ended but for queued matrix entries and held arrivals, which wait for their courses. -/
def State.atRest (s : State) : Bool :=
  s.courses.all (fun c => s.haltedCourse c.1) && s.ops.all (fun o => !o.2.mustEnd || s.goesAlong o.1 o.2)

/-- CHECKPOINT_COMPLETE (R311): the image holds one instant of DRAM; courses resume. -/
def execCheckpointComplete (s : State) : Answer :=
  match s.pkg.tier with
  | some base =>
    if !s.pkg.checkpoint || !(s.pkg.viral || s.atRest) || s.pkg.powerOff || s.pkg.inReset then .next s else
    let t := s.copyOut base.toNat
    .next (State.endCmd { t with pkg := { t.pkg with checkpoint := false } } 0 0x1300 1)
  | none => .next s

/-! ### Registers (R313 to R317) -/

/-- A partition before its first block has been loaded. -/
def Partition.none : Partition :=
  { block := [], next := Option.none, s2gen := 0, slot := 0, reclaimAt := Option.none, returnAt := Option.none, ringBase := 0, ringLog := 0,
    prod := 0, cons := 0, notices := [] }

/-- Changes a partition's ring registers; waiting notices enter the ring as room allows (R315). -/
def State.ring (s : State) (part : Nat) (f : Partition → Partition) : State :=
  State.flushNotices { s with parts := s.parts.put part (f (s.parts.getD part Partition.none)) } part

/-- The command blocks of a page and how many command codes each knows (R146, R284, R296, R316). -/
def commandCodes (page off : Nat) : Nat :=
  if off = 0x1000 then 5 else if off = 0x1100 then 7 else if page ≠ 0 then 0 else if off = 0x1200 then 6 else if off = 0x1300 then 3 else 0

/-- CONS (R315): entries have been consumed, and waiting notices are written. -/
def execCons (page : Nat) (v : BitVec 32) (s : State) : Answer :=
  if !s.up || page = 0 || decide (16 < page) then .next s else .next (s.ring (page - 1) (fun p => { p with cons := v }))

/-- The command that a write of word 0 submits, with words 1 to 3 as they are stored (R313). -/
def State.submit (s : State) (page off w0 : Nat) : Answer :=
  let w (k : Nat) : Word := (s.cmd page off).words.getD k 0
  let seq : BitVec 32 := (w 3).setWidth 32
  let count : BitVec 32 := (w 2).setWidth 32
  let part := bits w0 56 4
  let ctx := bits w0 40 16
  let crew := bits w0 24 16
  let gate := bits w0 32 12
  match off, bits w0 60 4 with
  | 0x1000, 1 => execStage1RangeInvalidate page part ctx (w 1) count seq s
  | 0x1000, 2 => execStage1ContextInvalidate page part ctx seq s
  | 0x1000, 3 => execStage2RangeInvalidate page part (w 1) count seq s
  | 0x1000, 4 => execStage2PartitionInvalidate page part seq s
  | 0x1000, 5 => execAddSpareFrames page (w 1) count seq s
  | 0x1100, 1 => execLoadPartitionBlock page part (w 1) seq s
  | 0x1100, 2 => execEnable page part ctx (w 1) seq s
  | 0x1100, 3 => execEndContext page part ctx seq s
  | 0x1100, 4 => execFlushCrew page part ctx crew seq s
  | 0x1100, 5 => execRestartCrew page part ctx crew seq s
  | 0x1100, 6 => execMigrateOut page part ctx seq s
  | 0x1100, 7 => execMigrateIn page part ctx (w 1) seq s
  | 0x1200, 1 => execActivate page gate (bits (w 1).toNat 56 8) seq s
  | 0x1200, 2 => execFreeze page gate seq s
  | 0x1200, 3 => execThaw page gate seq s
  | 0x1200, 4 => execRetire page gate seq s
  | 0x1200, 5 => execBeginMigration page gate (bits w0 57 3) seq s
  | 0x1200, 6 => execEndMigration page gate seq s
  | 0x1300, 1 => execArm page (w 1) seq s
  | 0x1300, 2 => execStartCheckpoint page seq s
  | 0x1300, 3 => execDisarm page seq s
  | _, _ => .next (s.command page off false (page - 1) [some w0, none, none, some seq.toNat] (fun _ => .refused))

/-- A write of word k of a command block: words 1 to 3 are kept but for their reserved and read-only fields, word 0 submits a command. -/
def State.blockWrite (s : State) (page off k : Nat) (v : Word) : Answer :=
  if k = 0 then s.submit page off v.toNat else
  let c := s.cmd page off
  let m := BitVec.ofNat 64 (blockMask off k)
  .next { s with cmds := s.cmds.put (cmdKey page off) { c with words := c.words.set k ((c.words.getD k 0 &&& ~~~m) ||| (v &&& m)) } }

/-- A write of 8 bytes of the hypervisor page. -/
def State.hyperWrite (s : State) (off : Nat) (v : Word) : State :=
  if off = 0x1400 then { s with pkg := { s.pkg with pkgno := bits v.toNat 0 12 } }
  else if 0x2000 ≤ off ∧ off < 0x2100 then
    (if off % 16 = 0 then
       { s with pkg := { s.pkg with peerEn := s.pkg.peerEn.put ((off - 0x2000) / 16) (bits v.toNat 60 4, v.getLsbD 0) } }
     else s)
  else if 0x8000 ≤ off ∧ off < 0x9000 then
    { s with pkg := { s.pkg with
        routes := (List.range 8).foldl (fun t i => Tab.set 0xFF t (off - 0x8000 + i) (bits v.toNat (8 * i) 8)) s.pkg.routes } }.reroute
  else s

/-- A write of 8 bytes of a partition page: queue registers, and the fault ring. -/
def State.partWrite (s : State) (page off : Nat) (v : Word) : Answer :=
  let part := page - 1
  if 0x2000 ≤ off ∧ off < 0x2200 then
    (let q := (off - 0x2000) / 16
     if off % 16 = 8 then execBell page q (bits v.toNat 0 16) s
     else if v = 0 then execQueueDisable page q s else execQueueEnable page q v s)
  else if off = 0x3000 then .next (s.ring part (fun p => { p with ringBase := v }))
  else if off = 0x3008 then .next (s.ring part (fun p => { p with ringLog := bits v.toNat 0 5 }))
  else if off = 0x3018 then execCons page (v.setWidth 32) s
  else if off = 0x3100 then execResume page (bits v.toNat 0 16) (bits v.toNat 16 7) (bits v.toNat 23 5) (bits v.toNat 28 1) s
  else .next s

/-- The page of the model's host interface that stands for the CXL configuration registers (log entry 71): HDM-DB window i has its first
byte at 16i and its bytes at 16i + 8, and the revision of the vendor capability is at 0x1000. -/
def cxlPage : Nat := 17

/-- A write of the CXL configuration registers: 8 HDM-DB windows. -/
def State.cxlWrite (s : State) (off : Nat) (v : Word) : State :=
  if 128 ≤ off then s else
  let i := off / 16
  let w := s.pkg.hdm.getD i (0, 0)
  { s with pkg := { s.pkg with hdm := s.pkg.hdm.put i (if off % 16 = 0 then (v.toNat, w.2) else (w.1, v.toNat)) } }

/-- REGISTER_WRITE (R313): a write of 8 bytes of the host register space; a read-only or undefined register ignores it. -/
def execRegisterWrite (page off : Nat) (v : Word) (s : State) : Answer :=
  if !s.up || decide (17 < page) || decide (off % 8 ≠ 0) || decide (65536 ≤ off) then .next s else
  let block := off / 32 * 32
  if page = cxlPage then .next (s.cxlWrite off v)
  else if commandCodes page block ≠ 0 then s.blockWrite page block (off % 32 / 8) v
  else if page = 0 then .next (s.hyperWrite off v)
  else s.partWrite page off v

/-- The bytes of the configuration block (R11). -/
def Package.configBlock (p : Package) : List Byte :=
  toLe 8 p.bentEn.toNat ++ toLe 8 p.chLo.toNat ++ toLe 8 p.chHi.toNat ++ toLe 8 p.linkW.toNat ++ toLe 8 p.cfgGen.toNat

/-- What a read of 8 bytes of the hypervisor page gives. -/
def State.hyperRead (s : State) (off : Nat) : Nat :=
  if off = 0x1400 then s.pkg.pkgno
  else if 0x2000 ≤ off ∧ off < 0x2100 then
    (let i := (off - 0x2000) / 16
     let w := s.pkg.peerEn.getD i (0, false)
     if off % 16 = 0 then w.1 * 2 ^ 60 + (if w.2 then 1 else 0) else s.pkg.peerErr.getD i 0 % 2 ^ 32)
  else if 0x3000 ≤ off ∧ off < 0x3060 then (s.link ((off - 0x3000) / 8)).status
  else if 0x8000 ≤ off ∧ off < 0x9000 then
    (List.range 8).foldl (fun n i => n + s.pkg.routes.getD (off - 0x8000 + i) 0xFF % 256 * 2 ^ (8 * i)) 0
  else 0

/-- What a read of 8 bytes of a partition page gives. -/
def State.partRead (s : State) (part off : Nat) : Nat :=
  let p := s.parts.getD part Partition.none
  if 0x2000 ≤ off ∧ off < 0x2200 then
    (if off % 16 = 0 then (s.qblocks.getD ((off - 0x2000) / 16) 0).toNat else 0)
  else if off = 0x3000 then p.ringBase.toNat
  else if off = 0x3008 then p.ringLog
  else if off = 0x3010 then p.prod.toNat
  else if off = 0x3018 then p.cons.toNat
  else 0

/-- What a read of 8 bytes of the host register space gives (R313); an undefined offset reads as zero. The read of a counter that reading
clears is an event of its own besides. -/
def State.hostRead (s : State) (page off : Nat) : Word :=
  let block := off / 32 * 32
  BitVec.ofNat 64 (
    if 17 < page ∨ off % 8 ≠ 0 ∨ 65536 ≤ off then 0
    else if page = cxlPage then
      (let w := s.pkg.hdm.getD (off / 16) (0, 0)
       if off = 0x1000 then Config.dvsecRevision else if 128 ≤ off then 0 else if off % 16 = 0 then w.1 else w.2)
    else if off < 40 then leNat ((s.pkg.configBlock.drop off).take 8)
    else if commandCodes page block ≠ 0 then ((s.cmd page block).words.getD (off % 32 / 8) 0).toNat
    else if page = 0 then s.hyperRead off
    else s.partRead (page - 1) off)

/-- ERRCNT (R6, R317): reading returns the count and clears it; error records stay readable in the viral state (R310). -/
def execErrcnt (w : Nat) (s : State) : Answer :=
  if s.pkg.powerOff || s.pkg.inReset || decide (16 ≤ w) then .next s else
  .next { s with pkg := { s.pkg with peerErr := s.pkg.peerErr.set 0 w 0 }, out := .word (BitVec.ofNat 64 (s.pkg.peerErr.getD w 0)) }

/-- RETRAIN (R6, R319): reading a link's status register clears its RETRAIN count. -/
def execRetrain (link : Nat) (s : State) : Answer :=
  if s.pkg.powerOff || s.pkg.inReset || decide (12 ≤ link) then .next s else
  let l := s.link link
  .next { s.putLink link { l with retrain := 0 } with out := .word (BitVec.ofNat 64 l.status) }

end Sys2Proof.Machine
end

