-- ==== Sys2Proof/Machine/Sha.lean ====
section
/-!
DEFINITION. SHA-384 (R326, R329), which the spec names and does not define: the function of FIPS 180-4 (log entry 121).
-/

namespace Sys2Proof.Sha

/-- The first 64 bits of the fractional parts of the cube roots of the first 80 primes. -/
def roundKeys : List Nat :=
  [0x428A2F98D728AE22, 0x7137449123EF65CD, 0xB5C0FBCFEC4D3B2F, 0xE9B5DBA58189DBBC,
     0x3956C25BF348B538, 0x59F111F1B605D019, 0x923F82A4AF194F9B, 0xAB1C5ED5DA6D8118]
  ++ [0xD807AA98A3030242, 0x12835B0145706FBE, 0x243185BE4EE4B28C, 0x550C7DC3D5FFB4E2,
     0x72BE5D74F27B896F, 0x80DEB1FE3B1696B1, 0x9BDC06A725C71235, 0xC19BF174CF692694]
  ++ [0xE49B69C19EF14AD2, 0xEFBE4786384F25E3, 0x0FC19DC68B8CD5B5, 0x240CA1CC77AC9C65,
     0x2DE92C6F592B0275, 0x4A7484AA6EA6E483, 0x5CB0A9DCBD41FBD4, 0x76F988DA831153B5]
  ++ [0x983E5152EE66DFAB, 0xA831C66D2DB43210, 0xB00327C898FB213F, 0xBF597FC7BEEF0EE4,
     0xC6E00BF33DA88FC2, 0xD5A79147930AA725, 0x06CA6351E003826F, 0x142929670A0E6E70]
  ++ [0x27B70A8546D22FFC, 0x2E1B21385C26C926, 0x4D2C6DFC5AC42AED, 0x53380D139D95B3DF,
     0x650A73548BAF63DE, 0x766A0ABB3C77B2A8, 0x81C2C92E47EDAEE6, 0x92722C851482353B]
  ++ [0xA2BFE8A14CF10364, 0xA81A664BBC423001, 0xC24B8B70D0F89791, 0xC76C51A30654BE30,
     0xD192E819D6EF5218, 0xD69906245565A910, 0xF40E35855771202A, 0x106AA07032BBD1B8]
  ++ [0x19A4C116B8D2D0C8, 0x1E376C085141AB53, 0x2748774CDF8EEB99, 0x34B0BCB5E19B48A8,
     0x391C0CB3C5C95A63, 0x4ED8AA4AE3418ACB, 0x5B9CCA4F7763E373, 0x682E6FF3D6B2B8A3]
  ++ [0x748F82EE5DEFB2FC, 0x78A5636F43172F60, 0x84C87814A1F0AB72, 0x8CC702081A6439EC,
     0x90BEFFFA23631E28, 0xA4506CEBDE82BDE9, 0xBEF9A3F7B2C67915, 0xC67178F2E372532B]
  ++ [0xCA273ECEEA26619C, 0xD186B8C721C0C207, 0xEADA7DD6CDE0EB1E, 0xF57D4F7FEE6ED178,
     0x06F067AA72176FBA, 0x0A637DC5A2C898A6, 0x113F9804BEF90DAE, 0x1B710B35131C471B]
  ++ [0x28DB77F523047D84, 0x32CAAB7B40C72493, 0x3C9EBE0A15C9BEBC, 0x431D67C49C100D4C,
     0x4CC5D4BECB3E42B6, 0x597F299CFC657E2A, 0x5FCB6FAB3AD6FAEC, 0x6C44198C4A475817]

/-- The first 64 bits of the fractional parts of the square roots of the ninth to sixteenth primes. -/
def start : List Word :=
  [0xCBBB9D5DC1059ED8, 0x629A292A367CD507, 0x9159015A3070DD17, 0x152FECD8F70E5939,
   0x67332667FFC00B31, 0x8EB44A8768581511, 0xDB0C2E0D64F98FA7, 0x47B5481DBEFA4FA4]

/-- A word rotated right by three distances and combined by exclusive or. -/
def rot3 (w : Word) (a b c : Nat) : Word := w.rotateRight a ^^^ w.rotateRight b ^^^ w.rotateRight c

/-- The message schedule, newest word first, after n more words. -/
def schedule : Nat → List Word → List Word
  | 0, l => l
  | n + 1, l =>
    let s (k : Nat) : Word := l.getD k 0
    let s0 := (s 14).rotateRight 1 ^^^ (s 14).rotateRight 8 ^^^ (s 14 >>> 7)
    let s1 := (s 1).rotateRight 19 ^^^ (s 1).rotateRight 61 ^^^ (s 1 >>> 6)
    schedule n ((s 15 + s0 + s 6 + s1) :: l)

/-- The working variables a to h. -/
structure Vars where
  a : Word
  b : Word
  c : Word
  d : Word
  e : Word
  f : Word
  g : Word
  h : Word
  deriving DecidableEq, Repr

/-- One round. -/
def round (v : Vars) (k w : Word) : Vars :=
  let t1 := v.h + rot3 v.e 14 18 41 + ((v.e &&& v.f) ^^^ (~~~v.e &&& v.g)) + k + w
  let t2 := rot3 v.a 28 34 39 + ((v.a &&& v.b) ^^^ (v.a &&& v.c) ^^^ (v.b &&& v.c))
  { a := t1 + t2, b := v.a, c := v.b, d := v.c, e := v.d + t1, f := v.e, g := v.f, h := v.g }

/-- The bytes of a number, most significant first. -/
def toBe : Nat → Nat → List Byte
  | 0, _ => []
  | n + 1, v => BitVec.ofNat 8 (v / 2 ^ (8 * n)) :: toBe n v

/-- The number that bytes give, most significant first. -/
def beNat (l : List Byte) : Nat := l.foldl (fun n b => n * 256 + b.toNat) 0

/-- The hash value after a block of 128 bytes. -/
def block (hs : List Word) (l : List Byte) : List Word :=
  let m := (List.range 16).map (fun i => BitVec.ofNat 64 (beNat ((l.drop (8 * i)).take 8)))
  let ws := (schedule 64 m.reverse).reverse
  let x (i : Nat) : Word := hs.getD i 0
  let v := (roundKeys.zip ws).foldl (fun v e => round v (BitVec.ofNat 64 e.1) e.2)
    { a := x 0, b := x 1, c := x 2, d := x 3, e := x 4, f := x 5, g := x 6, h := x 7 }
  [x 0 + v.a, x 1 + v.b, x 2 + v.c, x 3 + v.d, x 4 + v.e, x 5 + v.f, x 6 + v.g, x 7 + v.h]

/-- The hash value after n blocks. -/
def blocks : Nat → List Word → List Byte → List Word
  | 0, hs, _ => hs
  | n + 1, hs, l => blocks n (block hs l) (l.drop 128)

/-- A message with its padding and its length in bits. -/
def padded (l : List Byte) : List Byte :=
  let n := l.length
  l ++ 0x80 :: List.replicate ((239 - n % 128) % 128) 0 ++ toBe 16 (8 * n)

/-- The 48 bytes of the digest. -/
def digest (l : List Byte) : List Byte :=
  let p := padded l
  ((blocks (p.length / 128) start p).flatMap (fun w => toBe 8 w.toNat)).take 48

end Sys2Proof.Sha

namespace Sys2Proof

/-- The SHA-384 digest of a byte string, its first byte in bits 7 to 0. -/
def sha384 (l : List Byte) : BitVec 384 :=
  (Sha.digest l).foldr (fun b n => n * 256 + b.setWidth 384) 0

end Sys2Proof
end

