-- ==== Sys2Proof/Machine/Platform.lean ====
section
/-!
DEFINITION. The viral state and the ways out of it (R310, R323), power and clock (R325), boot and firmware (R326, R327), identity and
attestation (R328, R329).
-/

namespace Sys2Proof.Machine

/-! ### The viral state (R310, R318, R323) -/

/-- A link that has sent its viral indication is DOWN until a reset. -/
def Link.goneViral (l : Link) (now : Nat) : Link :=
  { l with st := .down, width := 0, viral := true, retryAt := none, downAt := some (l.downAt.getD now) }

/-- The package becomes viral: courses halt, operations are cancelled with their locks, and every UP link sends the indication. -/
def State.enterViral (s : State) : State :=
  if s.pkg.viral then s else
  let up := (List.range 12).filter (fun n => (s.link n).st == LState.up)
  let s := (List.range 12).foldl (fun (s : State) n => (s.putLink n ((s.link n).goneViral s.time.ns)).setLinkW n 0) s
  { s with
    pkg := { s.pkg with viral := true }
    ops := []
    locks := s.locks.filter (fun l => l.2.bind)
    out := .viral up }

/-- VIRAL_STATE (R310). -/
def execViralState (s : State) : Answer :=
  if s.pkg.powerOff || s.pkg.inReset then .next s else .next s.enterViral

/-! ### Boot (R326, R327) -/

/-- The digest of an image and its version. -/
def Firmware.digest (f : Firmware) : BitVec 384 := sha384 (f.image ++ toLe 8 f.version)

/-- The check of a slot: its signature verifies, and its version is not below the rollback counter. -/
def Package.firmwareOk (p : Package) (f : Firmware) : Bool := Config.firmwareSigOk f.digest f.sig && decide (p.rollback ≤ f.version)

/-- The slot that boots: the active one, or else the other. -/
def Package.bootSlot (p : Package) : Option Firmware :=
  (if p.activeB then [p.fwB, p.fwA] else [p.fwA, p.fwB]).find? p.firmwareOk

/-- The sustained power of a form in watts (R1, R324). -/
def Form.sustained (f : Form) : Nat :=
  match f with
  | .olm96P => 2800
  | .olm96M => 3000

/-- What outlasts a reset: the package's form, and what flash keeps: the configuration block, the firmware slots and counter, the bad-frame
list with its frames' places and the spares handed over (R1, R11, R151, R326). A frame that was waiting or being copied waits again. -/
def Package.kept (p : Package) : Package :=
  { Package.reset with
    form := p.form, untrained := p.untrained, powerCap := p.form.sustained, spares := p.spares, bentEn := p.bentEn, chLo := p.chLo, chHi := p.chHi, linkW := p.linkW, cfgGen := p.cfgGen, fwA := p.fwA, fwB := p.fwB,
    activeB := p.activeB, rollback := p.rollback, badFrames := p.badFrames, frameMap := p.frameMap,
    frames := p.frames.map (fun f => (f.1, match f.2 with
      | .retired => .retired
      | _ => .pending)) }

/-- A place outside the package's DRAM and stores: memory of the host. -/
def hostOwned (a : Nat) : Bool := decide (dramBytes ≤ a) && isDram a

/-- The machine after a reset, before its boot: the state after power-up, but for flash, host memory and the running of time. -/
def State.afterReset (s : State) : State :=
  { State.reset with
    mem := s.mem.filter (fun c => hostOwned c.1), poison := s.poison.filter hostOwned, pkg := s.pkg.kept,
    time := { s.time with frac := 0, mhz := 1600, ppm := 0 }, lastRound := s.lastRound, nextId := s.nextId, agenda := s.agenda,
    pace := s.pace, free := s.free }

/-- DRAM training (R12, R326): the channels of a stack that fails leave service. -/
def State.retireStacks (s : State) (failed : BitVec 8) : State :=
  (List.range 128).foldl (fun (s : State) ch => if failed.getLsbD (ch / 16) then s.retireChannel ch else s) s

/-- Retired frames that have no place yet take the spares there are, before any access (R151). -/
def State.mapRetired (s : State) : State :=
  (s.pkg.frames.filter (fun f => f.2 ≠ .retired)).foldl (fun (s : State) f =>
    match s.pkg.spares with
    | sp :: t => State.switchFrame { s with pkg := { s.pkg with spares := t } } f.1 sp
    | [] => s) s

/-- BOOTS the package (R326): the chosen slot is measured and runs, the rollback counter rises to its version; the firmware trains DRAM, maps
retired frames to spares and trains the links, and measures the configuration block. With no good slot the package stays in reset and the
management controller reports it. -/
def State.boot (s : State) (failed : BitVec 8) : State :=
  let t := s.afterReset
  match t.pkg.bootSlot with
  | none => { t with out := .bootFailed }
  | some f =>
    let r := State.retireStacks { t with pkg := { t.pkg with spares := [], inReset := false } } failed
    let r := State.mapRetired { r with pkg := { r.pkg with spares := t.pkg.spares } }
    { r with
      pkg := { r.pkg with meas0 := f.digest, meas1 := sha384 r.pkg.configBlock, rollback := max r.pkg.rollback f.version }
      links := (List.range 12).map (fun n => (n, Link.reset.train)) }

/-- RESET_BOOT (R326): a reset, with the stacks whose training fails. -/
def execResetBoot (s : State) : Answer := .next (s.boot s.pkg.untrained)

/-- CXL_RESET (R310, R326): leaves the viral state; the package is in reset until its boot. -/
def execCxlReset (s : State) : Answer := .next s.afterReset

/-- FIRMWARE_UPDATE (R327): the inactive slot is written, and marked active if it passes the check; what runs does not change. -/
def execFirmwareUpdate (image : List Byte) (version : Nat) (sig : BitVec 768) (s : State) : Answer :=
  let f : Firmware := { image := image, version := version % 2 ^ 64, sig := sig }
  let p := s.pkg
  let q := if p.activeB then { p with fwA := f } else { p with fwB := f }
  .next { s with pkg := if p.firmwareOk f then { q with activeB := !p.activeB } else q }

/-! ### Power and clock (R324, R325) -/

/-- POWER_CAP_SET (R324, R325): from 1,000 W to the sustained power of the package's form (log entry 108). -/
def execPowerCapSet (watts : Nat) (s : State) : Answer :=
  if 1000 ≤ watts ∧ watts ≤ s.pkg.form.sustained then .next { s with pkg := { s.pkg with powerCap := watts } } else .next s

/-- The clock takes a new frequency; the part of a nanosecond that has passed stays the same time. -/
def Time.clock (t : Time) (mhz : Nat) : Time := { t with mhz := mhz, frac := if t.mhz = 0 then 0 else t.frac * mhz / t.mhz }

/-- CLOCK_STEP (R325): by 100 MHz, from 800 to 1,600 MHz. -/
def execClockStep (mhz : Nat) (s : State) : Answer :=
  if mhz % 100 = 0 ∧ 800 ≤ mhz ∧ mhz ≤ 1600 ∧ (mhz = s.time.mhz + 100 ∨ mhz + 100 = s.time.mhz) then
    .next { s with time := s.time.clock mhz }
  else .next s

/-- The package becomes viral and loses its power until a reset (R325). -/
def State.trip (s : State) : State := let t := s.enterViral; { t with pkg := { t.pkg with powerOff := true } }

/-- JUNCTION_TRIP (R325). -/
def execJunctionTrip (s : State) : Answer := .next s.trip

/-- INPUT_UNDERVOLTAGE (R325). -/
def execInputUndervoltage (s : State) : Answer := .next s.trip

/-! ### Identity and attestation (R328, R329) -/

/-- The management controller can answer for a running firmware. -/
def State.attests (s : State) : Bool := !s.pkg.powerOff && !s.pkg.inReset

/-- CERTIFICATE_REQUEST (R328): the public identity key and its signature. -/
def execCertificateRequest (s : State) : Answer :=
  if !s.attests then .next { s with out := .none } else
  let key := Config.identityKey s.pkg.meas0
  .next { s with out := .bytes (toLe 96 key.toNat ++ toLe 96 (Config.certSign key).toNat) }

/-- The signed part of an attestation report (R329). -/
def State.report (s : State) (nonce : BitVec 384) : List Byte :=
  toLe 8 (2 ^ 56) ++ toLe 48 nonce.toNat ++ toLe 8 (s.time.ns % 2 ^ 64) ++ toLe 48 s.pkg.meas0.toNat ++ toLe 48 s.pkg.meas1.toNat
    ++ toLe 8 s.pkg.cfgGen.toNat

/-- ATTESTATION_REQUEST (R329). -/
def execAttestationRequest (nonce : BitVec 384) (s : State) : Answer :=
  if !s.attests then .next { s with out := .none } else
  let r := s.report nonce
  .next { s with out := .bytes (r ++ toLe 96 (Config.identitySign s.pkg.meas0 (sha384 r)).toNat) }

end Sys2Proof.Machine
end

