-- ==== Sys2Proof/Machine/Queued.lean ====
section
/-!
DEFINITION. The access queue behind a tfence (R160): an instruction that waits there acts once the fence has completed, with the operands it
read at issue.
-/

namespace Sys2Proof.Machine

/-- What a flagged instruction of the access queue does, by its OP; none for an OP that never waits there. -/
def queuedBody (code : BitVec 9) (x : Args) : Option (Env → State → Res) :=
  if code = Enc.ld.op then some (memOp x .ld)
  else if code = Enc.st.op then some (memOp x .st)
  else if code = Enc.atomAdd.op then some (memOp x .add)
  else if code = Enc.atomMin.op then some (memOp x .min)
  else if code = Enc.atomMax.op then some (memOp x .max)
  else if code = Enc.atomAnd.op then some (memOp x .and)
  else if code = Enc.atomOr.op then some (memOp x .or)
  else if code = Enc.atomXor.op then some (memOp x .xor)
  else if code = Enc.atomXchg.op then some (memOp x .xchg)
  else if code = Enc.atomCas.op then some (memOp x .cas)
  else if code = Enc.amaxp.op then some (memOp x .amaxp)
  else if code = Enc.cp.op then some (if x.d == .zero then cpDBody x else cpBody x)
  else if code = Enc.fbind.op then some (fbindBody x)
  else if code = Enc.fetch.op then some (fetchBody x)
  else if code = Enc.ovlLd.op then some (ovlLdBody x)
  else if code = Enc.xqCfg.op then some (xqCfgBody x)
  else if code = Enc.xqPush.op then some (xqPushBody x)
  else if code = Enc.xqPop.op then some (xqPopBody x)
  else if code = Enc.xqComb.op then some (xqCombBody x)
  else if code = Enc.sigDec.op then some (fun env => signalOp x .add (-(BitVec.ofNat 64 (env.val x .i64 x.b))) env)
  else if code = Enc.sigSet.op then some (fun env => signalOp x .xchg (BitVec.ofNat 64 (env.val x .i64 x.b)) env)
  else if code = Enc.launch.op then some (launchBody x)
  else if code = Enc.funbind.op then some (fun env s => .ok (s.unbind env x.a.ctl))
  else none

/-- The course as it stands, with the operands that an instruction of the access queue read at its issue. -/
def Course.asRead (c co : Course) : Course :=
  { c with scal := co.scal, preds := co.preds, c := co.c, x := co.x, k := co.k, exited := co.exited, crew := co.crew, xr := co.xr,
           shapes := co.shapes }

/-- The rows of a window: those of the register file replaced by what another table has for the window of a course. -/
def windowFrom (rows src : Tab (BitVec 2048)) (c d : Course) (lwb : Nat) : Tab (BitVec 2048) :=
  (List.range 64).foldl (fun t i => t.set 0 (c.rowKey (lwb + i)) (src.getD (d.rowKey (lwb + i)) 0)) rows

/-- No tfence and no instruction of the course that stand before this one in the access queue are left. -/
def State.queueHead (s : State) (cid : Nat) (c : Course) (op : Nat) : Bool :=
  !c.fences.any (fun f => decide (f.place < op) && (match f.kind with
    | .tf _ => true
    | _ => false)) &&
  !(s.opsOf cid).any (fun o => decide (o.1 < op) && o.2.isQueued)

/-- AN INSTRUCTION OF THE ACCESS QUEUE ACTS (R160): it starts its operation in its own place in program order; a trap is raised at the
path's next run start and the instruction has no effect (log entry 120). -/
def State.leaveQueue (s : State) (op : Nat) (o : Op) (code : BitVec 9) (x : Args) (slot : Nat) (co : Course) (pa : Path)
    (rows : Tab (BitVec 2048)) : State :=
  match o.cid with
  | none => s
  | some cid =>
    match s.courses.find cid, queuedBody code x with
    | some c, some body =>
      if !s.queueHead cid c op then s else
      let env : Env := { slot := slot, cid := cid, p := o.path, co := c.asRead co, pa := pa }
      (match body env { s with rows := windowFrom s.rows rows c co pa.lwb, ops := s.ops.del op, nextId := op } with
       | .done t _ => { t with rows := windowFrom t.rows s.rows c c pa.lwb, nextId := max t.nextId s.nextId }
       | .trap tr => (s.lateTrap op o tr).finishOp op
       | .refuse _ tr => (s.lateTrap op o tr).finishOp op
       | _ => s)
    | _, _ => s

end Sys2Proof.Machine
end

