-- ==== Sys2Proof/Machine/Sched.lean ====
section
/-!
DEFINITION. Readiness and arbitration (R42, R49, R70, R71, R77, R109, R121, R305), the start of a run, the completion of long-latency
operations (R42, R43), and samples (R80, R81).
-/

namespace Sys2Proof.Machine

/-! ### Readiness (R42, R49, R70) -/

/-- The flag conditions of a header: every flag of WAIT is clear, and FA and FB count at most 39 (R42). -/
def Course.flagsOk (c : Course) (wait : BitVec 12) (l : List (Option (BitVec 4))) : Bool :=
  (List.range 12).all (fun n => !wait.getLsbD n || c.flags.getD n 0 == 0) &&
  l.all (fun f => match f with
    | some n => decide (c.flags.getD n.toNat 0 ≤ 39)
    | none => true)

/-- The flag conditions hold of the header at the path's code address, or of the run it resumes (R44); a path without a header there
starts, and traps. -/
def State.headerOk (s : State) (c : Course) (q : Path) : Bool :=
  match q.run with
  | some r => c.flagsOk r.wait [r.fa, r.fb]
  | none =>
    match s.ovlSlot c.core c.ctx q.ovl with
    | none => true
    | some (j, o) =>
      if o.n ≤ q.idx then true else
      match (parseHint .header (Raw.ofWord (s.word c.core j q.idx)).h).1 with
      | .header _ w fa fb => c.flagsOk w [fa, fb]
      | .body _ _ => true

/-- No wflush of the course is under way (R110, R300). -/
def State.flushDone (s : State) (cid : Nat) : Bool :=
  !(s.opsOf cid).any (fun o => match o.2.kind with
    | .wflush _ => true
    | _ => false)

/-- What a path waits for has come about. -/
def State.waitDone (s : State) (cid : Nat) (c : Course) (q : Path) : Bool :=
  match q.wait with
  | .nothing => true
  | .lines l => l.all (fun n => !s.absent.contains n)
  | .xget _ e _ _ => decide ((c.xseq - e).toNat < 2 ^ 31)
  | .park _ _ _ _ => false
  | .access => !c.tfencing
  | .bar b place lanes _ freed => (s.barReady cid c b place lanes freed).isSome
  | .barWake t _ _ _ => t == 0
  | .sig _ _ _ _ _ got => got.isSome
  | .gate _ _ _ got => got.isSome
  | .remoteGate _ _ _ _ _ got => got.isSome
  | .copy _ _ => false
  | .wflush => s.flushDone cid
  | .rlock entry op => s.flushDone cid && (match s.locks.find entry with
      | some l => l.op != op
      | none => true)
  | .xqroom q limit => s.flushDone cid && (match s.xqs.find q with
      | some x => decide (x.occ ≤ limit)
      | none => true)
  | .overlay id => !s.loadingOvl c.core c.ctx id

/-- A path waits for nothing: neither for the driver nor for what it blocked on. -/
def State.waitOver (s : State) (cid : Nat) (c : Course) (q : Path) : Bool := !q.stopped && s.waitDone cid c q

/-- A course may issue: it is live and in place, none of a flush, a restart or a missing launch block holds it, and a migrated context's
first run has its time (R283). -/
def State.mayRun (s : State) (cid : Nat) (c : Course) : Bool :=
  s.awake cid c && c.flushed.isEmpty && !c.drain && !s.orphan c && (match s.ctxs.find c.ctx with
    | some x => x.after == 0 || decide (x.after < s.time.ns)
    | none => false)

/-- A path is ready (R70). -/
def State.pathReady (s : State) (cid : Nat) (c : Course) (q : Path) : Bool := s.mayRun cid c && s.waitOver cid c q && s.headerOk c q

/-- The class of a path (R70, R77). -/
def Path.cls (q : Path) : Int := if q.demoted.isSome then -1 else q.prio

/-- The path of a list with the highest class; of equal ones, the one that did not run last (R70). -/
def Course.best (c : Course) (l : Tab Path) : Option (Nat × Path) :=
  l.foldl (fun (b : Option (Nat × Path)) e => match b with
    | none => some e
    | some b => if b.2.cls < e.2.cls ∨ (b.2.cls = e.2.cls ∧ b.1 = c.lastPath) then some e else some b) none

/-- A course's best ready path. -/
def State.bestReady (s : State) (cid : Nat) (c : Course) : Option (Nat × Path) := c.best (c.paths.filter (fun q => s.pathReady cid c q.2))

/-! ### Arbitration (R70) -/

/-- A contender: course number, course, path number, path. -/
structure Contender where
  cid : Nat
  co : Course
  p : Nat
  pa : Path
  deriving DecidableEq, Repr

/-- The ready courses of an issue slot, each with its best ready path. -/
def State.contenders (s : State) (k : Nat) : List Contender :=
  (s.courses.filter (fun c => c.2.slot == k)).filterMap (fun c =>
    (s.bestReady c.1 c.2).map (fun q => { cid := c.1, co := c.2, p := q.1, pa := q.2 }))

/-- How far a course slot lies behind the last winner in round-robin order. -/
def turn (last k : Nat) : Nat := (k + 31 - last) % 32

/-- The contender that wins: the one forced earliest, or the highest class in round-robin order. -/
def winner (last : Nat) (l : List Contender) : Option Contender :=
  let better (a b : Contender) : Bool :=
    match a.co.forced, b.co.forced with
    | some x, some y => decide (x < y) || (x == y && decide (a.co.cslot < b.co.cslot))
    | some _, none => true
    | none, some _ => false
    | none, none => decide (b.pa.cls < a.pa.cls) || (a.pa.cls == b.pa.cls && decide (turn last a.co.cslot < turn last b.co.cslot))
  l.foldl (fun (w : Option Contender) a => match w with
    | none => some a
    | some b => if better a b then some a else some b) none

/-- A course that has been passed over once more; the 24th time makes it forced. -/
def Course.passOver (c : Course) (clk : Nat) : Course :=
  { c with passed := c.passed + 1, forced := if c.passed + 1 = 24 then some clk else c.forced }

/-! ### The start of a run (R49, R102, R109, R121, R230, R252, R290, R305) -/

/-- Writes a predicate in the lanes of a wait. -/
def Course.waitPred (c : Course) (p : Option (BitVec 6)) (lanes v : LaneMask) : Course :=
  match p with
  | some n => c.setPred n.toNat lanes v
  | none => c

/-- Writes the value of a wait. -/
def Course.waitScalar (c : Course) (d : Option (BitVec 6)) (v : Word) : Course :=
  match d with
  | some n => c.setScalar n.toNat v
  | none => c

/-- What a wait writes just before the path's next run; a poisoned xr is consumed there instead (R305). -/
def State.settleWait (s : State) (cid p : Nat) : State :=
  match s.courses.find cid with
  | none => s
  | some c =>
    match c.paths.find p with
    | none => s
    | some q =>
      let s := s.setPath cid p { q with wait := .nothing }
      match q.wait with
      | .xget d _ e lanes =>
        if c.xPoison then
          s.setPath cid p (Path.addLate { q with wait := .nothing }
            { trap := Trap.poison 0xFF 0, ovl := q.ovl, idx := q.idx - 1, place := s.nextId })
        else
          s.modCourse cid (fun c =>
            let all (b : Bool) : LaneMask := if b then BitVec.allOnes 64 else 0
            let c' := c.setScalar d.toNat c.xr
            ((c'.waitPred e lanes (all c.ne)).waitPred (e.map (· + 1)) lanes (all c.ex)))
      | .bar b place lanes e freed => s.modCourse cid (fun c => c.waitPred e lanes ((s.barReady cid c b place lanes freed).getD 0))
      | .barWake _ lanes ones e => s.modCourse cid (fun c => c.waitPred e lanes ones)
      | .sig _ _ _ _ d (some (some v)) => s.modCourse cid (fun c => c.waitScalar d v)
      | .sig va _ _ _ _ (some none) =>
        s.setPath cid p (Path.addLate { q with wait := .nothing }
          { trap := Trap.poison 0xFF (va / 64 * 64), ovl := q.ovl, idx := q.idx - 1, place := s.nextId })
      | .gate n v d (some w) => (s.modCourse cid (fun c => c.waitScalar d w)).leaveGate n v
      | .remoteGate _ _ _ _ d (some v) => s.modCourse cid (fun c => c.waitScalar d v)
      | _ => s

/-- Late traps that go with the first: POISON of one run start is one trap, of its earliest instruction (R305). -/
def lateRest (t : LateTrap) (l : List LateTrap) : List LateTrap :=
  if t.trap.cls = 0x08 then l.filter (fun u => u.trap.cls != 0x08) else l

/-- A resumption course grafts its slice before anything else (R121). -/
def State.graftFirst (s : State) (env : Env) (h : Word) : State :=
  let gs := [(h.toNat, env.F)]
  match s.graftRun env gs true env.pa.ovl env.pa.idx with
  | .error t => s.trapHere env t
  | .ok none => (s.leaveSlot env.slot).graftDone env
  | .ok (some _) =>
    let id := s.nextId
    let t := (s.addSilent env (.slice (.graft [(h, env.F)]))).lockRanges id false (lockPieces true (s.graftRanges env gs))
    (t.leaveSlot env.slot).modCourse env.cid (fun c => c.modPath env.p (fun q => { q with wait := .copy id none }))

/-- Starts the run of the path that has won the slot: the results of its wait are written; a late trap of an earlier instruction or a
window that is not resident is raised before it issues. -/
def State.startRun (s : State) (k cid p : Nat) : State :=
  let s := (s.settleWait cid p).modCourse cid (fun c => { c with crewRd := c.crew })
  match s.courses.find cid with
  | none => s.leaveSlot k
  | some c =>
    match c.paths.find p with
    | none => s.leaveSlot k
    | some q =>
      let env : Env := { slot := k, cid := cid, p := p, co := c, pa := q }
      match q.late, q.run with
      | t :: l, none =>
        let s := (s.leaveSlot k).setPath cid p { q with late := lateRest t l }
        s.deliver cid p t.trap t.ovl t.idx true
      | _, _ =>
        match c.first with
        | some h => s.graftFirst env h
        | none =>
          match (if q.shim.isSome || q.gap then none else c.windowTrap q.lwb) with
          | some t => (s.leaveSlot k).deliver cid p t q.ovl q.idx false
          | none => s

/-- A restart whose outstanding operations have completed: the course stands in its region again (R304). -/
def State.settleDrain (s : State) (cid : Nat) : State :=
  match s.courses.find cid with
  | none => s
  | some c =>
    if !c.drain || !(s.opsOf cid).isEmpty || !s.betweenRuns cid || !s.courseLive c then s else
    (s.dropWaits cid false).modCourse cid (fun c => if c.regpc = noRegion then { c with drain := false } else c.resumeRegion)

/-- Courses of a slot that are to run get their capacity back and end a restart. -/
def State.wakeSlot (s : State) (k : Nat) : State :=
  (s.courses.filter (fun c => c.2.slot == k)).foldl (fun (s : State) c =>
    let s := s.adopt c.2.kern
    match s.courses.find c.1 with
    | some d => (if s.ctxActive d.ctx then s.tryResume c.1 else s).settleDrain c.1
    | none => s) s

/-- ARBITRATES an issue slot: its winner starts a run, and every other ready course has been passed over. -/
def State.arbitrate (s : State) (k : Nat) : State :=
  let s := s.wakeSlot k
  let v := s.slotOf k
  match winner v.last (s.contenders k) with
  | none => s
  | some w =>
    let others := ((s.contenders k).filter (fun a => a.cid != w.cid)).map (·.cid)
    let s := others.foldl (fun (s : State) cid => s.modCourse cid (fun c => c.passOver s.time.clk)) s
    let s := s.modCourse w.cid (fun c => { c with passed := 0, forced := none })
    let s : State := { s with slots := s.slots.put k { s.slotOf k with busy := some (w.cid, w.p), last := w.co.cslot }, cur := some k }
    s.startRun k w.cid w.p

/-- RUN_ARBITRATION (R70): the turn goes to the issue slot; an idle one arbitrates. -/
def execRunArbitration (core islot : Nat) (s : State) : Answer :=
  if !s.up || decide (96 ≤ core) || decide (4 ≤ islot) then .next s else
  let k := core * 4 + islot
  if (s.slotOf k).busy.isSome then .next { s with cur := some k } else .next (s.arbitrate k)

/-! ### Completion of long-latency operations (R42, R43) -/

/-- LONG_LATENCY_COMPLETE (R42, R43): the next part of an operation is performed, or its results are written and its flag falls. -/
def execLongLatencyComplete (op line : Nat) (s : State) : Answer :=
  match s.ops.find op with
  | none => .next s
  | some o =>
    if !s.up then .next s else
    match o.kind with
    | .nothing => .next (s.finishOp op)
    | .land t d l => if s.mayLand o then .next ((s.putOp o t d l).finishOp op) else .next s
    | .mem j => .next (s.memStep op o j line)
    | .fetch bind words d l => .next (s.fetchDone op o bind words d l)
    | .barBind _ _ _ _ => .next (s.barOpDone op o)
    | .barFree _ => .next (s.barOpDone op o)
    | .append q kind words => .next (s.appendDone op o q kind words)
    | .xqPush p todo dups remote => .next (s.pushStep op o p todo dups remote)
    | .xqPop q locs d t => .next (s.popStep op o q locs d t)
    | .xqComb q d todo remote => .next (s.combStep op o q d todo remote)
    | .behind code x slot co pa rows => .next (s.leaveQueue op o code x slot co pa rows)
    | _ => .next s

/-! ### Samples (R80, R81) -/

/-- A sampler has a sample to take: its period has passed, or, where it has been turned off, passes in this very clk (R331). -/
def State.sampleDue (s : State) (m : Sampler) : Bool :=
  decide (m.next ≠ 0) && (if m.on then decide (m.next ≤ s.time.clk) else decide (m.next = s.time.clk)) && s.ctxActive m.ctx && s.up

/-- The instruction of a course that issued in this clk (R80). -/
def State.issuedNow (s : State) (cid : Nat) (c : Course) : Option Issued :=
  (s.slotOf c.slot).issued.filter (fun i => i.clk == s.time.clk && i.cid == cid)

/-- The reason that a sample finds for a path of a course that issues nothing in this clk (R80). -/
def State.reason (s : State) (cid : Nat) (c : Course) (p : Nat) (q : Path) : Nat :=
  if (s.slotOf c.slot).busy = some (cid, p) then 1
  else if s.pathReady cid c q then 2
  else if s.mayRun cid c && s.waitOver cid c q then 3
  else if !s.waitDone cid c q then 4
  else if q.stopped then 5
  else 6

/-- The path that a sample of a course reports, with its reason: the first reason that applies, and of equal ones the path that the next
arbitration would choose. A course that issues in this clk is reported with the instruction that issues. -/
def State.samplePath (s : State) (cid : Nat) (c : Course) : Option (Nat × Path × Nat) :=
  match s.issuedNow cid c with
  | some i => ((c.paths.find i.p).or (c.paths.head?.map (·.2))).map (fun q => (i.p, { q with ovl := i.ovl, idx := i.idx }, 0))
  | none =>
  let l := c.paths.map (fun q => (q.1, q.2, s.reason cid c q.1 q.2))
  match (l.map (fun e => e.2.2)).min? with
  | none => none
  | some r => (c.best ((l.filter (fun e => e.2.2 == r)).map (fun e => (e.1, e.2.1)))).map (fun q => (q.1, q.2, r))

/-- The next resident course of a sampler's context on its core, after the last one sampled (R80, R330). -/
def State.nextSampled (s : State) (core : Nat) (m : Sampler) : Option (Nat × Course) :=
  let l := s.courses.filter (fun c => c.2.ctx == m.ctx && c.2.core == core && c.2.started && !c.2.saved && c.2.moved.isNone)
  l.foldl (fun (b : Option (Nat × Course)) c => match b with
    | none => some c
    | some b => if turn m.last c.2.cslot < turn m.last b.2.cslot then some c else some b) none

/-- A sample record (R81). -/
def State.sampleWords (s : State) (part : Nat) (c : Course) (p : Nat) (q : Path) (r : Nat) : Nat :=
  s.time.ns % 2 ^ 64 + 2 ^ 64 * (q.ovl % 2 ^ 16 * 2 ^ 48 + q.idx % 2 ^ 16 * 2 ^ 32 + c.core * 2 ^ 25 + c.cslot * 2 ^ 20 + p * 2 ^ 19
    + r * 2 ^ 16 + q.prio % 8 * 2 ^ 13 + (if q.demoted.isSome then 2 ^ 12 else 0) + part * 2 ^ 8)

/-- A sampler after it has written, or dropped, one record. -/
def State.putRecord (s : State) (core : Nat) (m : Sampler) (v : Nat) : State × Sampler :=
  let lost := { m with drop := min (2 ^ 32 - 1) (m.drop + 1) }
  if m.cap ≤ (m.prod - m.cons).toNat then (s, lost) else
  match s.translate core m.ctx (m.base + 16 * (m.prod.toNat % m.cap)) (some false) true with
  | .error _ => (s, lost)
  | .ok r => (s.pokeNat r.1 16 v, { m with prod := m.prod + 1 })

/-- SAMPLE (R80, R81): one resident course is examined, and one record written or dropped. -/
def execSample (core part : Nat) (s : State) : Answer :=
  match s.samplers.find (samplerKey core part) with
  | none => .next s
  | some m =>
    if !s.sampleDue m then .next s else
    let next := if !m.on then 0 else if m.next + m.period ≤ s.time.clk then s.time.clk + m.period else m.next + m.period
    let r : State × Sampler :=
      match s.nextSampled core m with
      | none => (s, m)
      | some (cid, c) =>
        match s.samplePath cid c with
        | none => (s, m)
        | some (p, q, r) => s.putRecord core { m with last := c.cslot } (s.sampleWords part c p q r)
    .next { r.1 with samplers := r.1.samplers.put (samplerKey core part) { r.2 with next := next } }

end Sys2Proof.Machine
end

