-- ==== Sys2Proof/Machine/Front.lean ====
section
/-!
DEFINITION. What a step of the machine takes up: the instruction at a path's code address (R34, R40, R51, R216, R305), and the order in
which the model lets events come about when none is given (log entry 4).
-/

namespace Sys2Proof.Machine

/-! ### Fetching -/

/-- What a path finds at its code address. -/
inductive Found where
  | run (i : Instr)
  /-- a word that breaks an encoding rule, with its subcode -/
  | bad (sub : BitVec 8)
  /-- no word: the state after what that brings about -/
  | stop (s : State)

/-- Reads the image of an overlay slot into instruction memory again; without its page the slot is empty (R305). -/
def State.reloadOvl (s : State) (core ctx j : Nat) (o : Ovl) : State :=
  let src := (pieces 3 o.image (12 * o.n)).mapM (fun p => match s.translate core ctx p.1 none false with
    | .ok r => some (r.1, p.2)
    | .error _ => none)
  match src with
  | some l =>
    let b := imemBase core j
    State.poke { s with poison := s.poison.filter (fun u => decide (u < b) || decide (b + 65536 ≤ u)) } b (s.peekAll l)
  | none => { s with ovls := s.ovls.del (core * 8 + j) }

/-- An uncorrectable error in instruction memory restarts every course of the core (R305). -/
def State.imemError (s : State) (env : Env) (j : Nat) (o : Ovl) : State :=
  let core := env.co.core
  let s := s.reloadOvl core env.co.ctx j o
  (s.courses.filter (fun c => c.2.core == core && c.2.started && c.2.moved.isNone)).foldl (fun (s : State) c =>
    let s := match (s.slotOf c.2.slot).busy with
      | some (cid, _) => if cid = c.1 then s.leaveSlot c.2.slot else s
      | none => s
    match (if c.1 = env.cid then c.2.paths.find? (fun p => p.1 == env.p) else c.2.paths.head?) with
    | some (p, q) => s.deliver c.1 p (Trap.poison 0xFF 0) q.ovl q.idx false
    | none => s) s

/-- The code addresses that the transfer of control of a word would go to, read before any other check of the word: those of an acting
`br`, `brx`, `call` or `callv`, and that of an `endloop` that goes round (R73, R75). -/
def State.wordTargets (s : State) (env : Env) (w : BitVec 96) : List (Nat × Nat) :=
  let r := Raw.ofWord w
  let x : Args := { g := parseGuard r.g, h := .body false .none, m := .none, d := .zero,
                    a := (parseOpnd false { z := true, v := true, r := true, i := true, j := true } r.a).1,
                    b := (parseOpnd false { z := true, j := true } r.b).1 }
  let flat := match x.a, x.b with
    | .imm _, .zero => true
    | .joined _, .joined _ => true
    | .reg _, .zero => true
    | _, _ => false
  if r.op = Enc.br.op ∨ r.op = Enc.brx.op ∨ r.op = Enc.call.op then
    (if flat && env.acting x ≠ 0 then [env.targetOf x.a x.b] else [])
  else if r.op = Enc.callv.op then
    (match x.a with
     | .vec _ _ => (lanesOf (env.acting x)).map (fun l => unpackCode (s.lane env x .n32 x.a l))
     | _ => [])
  else if r.op = Enc.endloopRegion.op then
    (match x.a with
     | .imm v => if (loopBack env).1 then [(env.pa.ovl, v.toNat)] else []
     | _ => [])
  else []

/-- A word that breaks an encoding rule and would transfer control to an instruction that is no run start: RUNSTART comes before any
other check of the word (R51). -/
def State.offStart (s : State) (env : Env) (w : BitVec 96) : Bool :=
  (s.wordTargets env w).any (fun t => s.target env.co.core env.co.ctx t.1 t.2 == .bad (Trap.illegal Sub.runstart))

/-- FETCHES the word at the issuing path's code address and decodes it at its place in the run. -/
def State.fetch (s : State) (env : Env) : Found :=
  let c := env.co
  let q := env.pa
  let head := q.run.isNone
  if head && s.loadingOvl c.core c.ctx q.ovl then
    .stop ((s.leaveSlot env.slot).setPath env.cid env.p { q with wait := .overlay q.ovl })
  else
    match s.ovlSlot c.core c.ctx q.ovl with
    | none => .stop (s.tick.trapHere env Trap.ovl)
    | some (j, o) =>
      if o.n ≤ q.idx || (head && !o.mark.isEmpty) then .stop (s.tick.trapHere env Trap.ovl)
      else if (s.poisoned (imemBase c.core j + 12 * q.idx) 12).isSome then .stop (s.tick.imemError env j o)
      else if (match q.run with
        | some r => decide (24 ≤ r.len)
        | none => false) then .bad Sub.runlen
      else
        let w := s.word c.core j q.idx
        match decode (runCtx q.run) w with
        | .ok i => .run i
        | .error sub => .bad (if s.offStart env w then Sub.runstart else sub)

/-- The home that the issuing instruction waits for has still to answer: the event of its answer (R174). -/
def State.homeEvent (s : State) (env : Env) : Option Instr :=
  match env.pa.offer with
  | none => none
  | some id =>
    match s.ops.find id with
    | some o =>
      (match o.kind with
       | .ea j => if j.phase = .offered then some (.eaAccept id) else none
       | _ => none)
    | none => none

/-! ### Events in the order the model tries them (log entry 4) -/

/-- Events of an operation under way. -/
def opEvents (id : Nat) (o : Op) : List Instr :=
  List.append (if o.pend.isEmpty then [] else [Instr.rangeLockEntryFree id])
  (match o.kind with
   | .mem j => if j.todo.isEmpty then [Instr.longLatencyComplete id 0] else ((j.todo.map (fun a => a.pa / j.m.unit)).eraseDups.map (Instr.longLatencyComplete id))
   | .nothing | .land _ _ _ | .fetch _ _ _ _ | .barBind _ _ _ _ | .barFree _ | .append _ _ _ | .xqPush _ _ _ _ | .xqPop _ _ _ _ | .xqComb _ _ _ _
   | .behind _ _ _ _ _ _ =>
     [Instr.longLatencyComplete id 0]
   | .xred _ _ _ => [Instr.xredComplete id]
   | .tmv _ todo => todo.map (fun l => Instr.tmvLineArrival id l.i)
   | .cp _ _ _ => [Instr.copyEngineAcquire id, Instr.engineFault id, Instr.cpComplete id]
   | .wflush _ => [Instr.wflushComplete id]
   | .slice _ => [Instr.sliceCopyComplete id]
   | .sliceDrop _ => [Instr.sliceDropComplete id]
   | .ovlLd _ _ _ _ _ _ => [Instr.ovlUnload id, Instr.engineFault id, Instr.ovlLdComplete id]
   | .fbind _ => [Instr.fbindComplete id]
   | .funbind _ => [Instr.funbindRelease id]
   | .mat _ => [Instr.engineFault id]
   | .ea j =>
     (match j.phase with
      | .offered => [Instr.eaAccept id]
      | .refused _ => []
      | .accepted => [Instr.eaCommit id]
      | .committed a k => List.flatten [a.map (Instr.shootdown id), k.map (Instr.shootdownAck id), [Instr.eaCommitComplete id]])
   | .crew _ _ => [Instr.crewEventApply id]
   | .arrive _ _ _ => [Instr.barArrivalApply id]
   | .gateSig _ => []
   | .gateRemote n seq _ _ _ _ => [Instr.routeTimeout n seq]
   | .xqCfg _ _ => [Instr.xqCfgApply id]
   | .frame f => [Instr.migrationLineCopy f]
   | .media _ _ _ _ | .storage _ _ _ _ _ _ => [])

/-- Events of a bent. -/
def State.bentEvents (s : State) (b : Nat) : List Instr :=
  List.append ((s.bent b).todo.map (Instr.wbldLineArrival b)) [Instr.matrixStep b, Instr.matrixOpComplete b, Instr.matrixQueueServe b]

/-- Bents that have something to do. -/
def State.busyBents (s : State) : List Nat :=
  ((s.bents.map (·.1)) ++ (s.courses.filter (fun c => !c.2.mq.isEmpty)).map (fun c => bentOf c.2.core)).eraseDups

/-- Events of a course. -/
def State.courseEvents (s : State) (cid : Nat) (c : Course) : List Instr :=
  List.flatten
    [c.paths.flatMap (fun p => match p.2.wait with
       | .park _ _ _ _ => [Instr.parkWake cid p.1, Instr.parkTimeout cid p.1]
       | .barWake _ _ _ _ => [Instr.barReleaseWake cid p.1]
       | .remoteGate n k _ _ _ _ => [Instr.routeTimeout n k]
       | _ => []),
     [if c.started then Instr.courseRetire cid else Instr.courseStart cid],
     (if c.moved.isSome then [Instr.courseRelocate cid] else []),
     (s.lenders (s.partOf c.ctx)).map (fun part => Instr.reclaim part cid),
     [Instr.reclaim (s.partOf c.ctx) cid]]

/-- Events of a queue: its nodes from HEAD to TAIL, and the nodes that run. -/
def queueEvents (q : Nat) (v : Queue) : List Instr :=
  (List.range v.used).map (fun i => Instr.nodeStart q (if v.nslot = 0 then 0 else (v.head + i) % v.nslot))

/-- Events of a link. -/
def linkEvents (n : Nat) (l : Link) : List Instr :=
  List.flatten [[Instr.trainingRetry n], (List.range 8).map (Instr.laneErrorThreshold n),
    l.queue.flatMap (fun m => [Instr.replayRetry n m.seq, Instr.routeTimeout n m.seq])]

/-- Events of a partition and of a context. -/
def partEvents (part : Nat) : List Instr := [Instr.slotBoundary part, Instr.partitionLoadEffect part, Instr.lendReturn part]

/-- The issue slots in which something could go on, the first one taken in turn with the clock. -/
def State.slotTurns (s : State) : List Nat :=
  let l := (s.courses.map (fun c => c.2.slot)).eraseDups
  let k := if l.isEmpty then 0 else s.time.clk % l.length
  l.drop k ++ l.take k

/-- Events of a context that ends or migrates. -/
def ctxEvents (ctx : Nat) (c : Context) : List Instr :=
  match c.st with
  | .ending => [Instr.contextEndComplete ctx]
  | .migrating => [Instr.migrateOutSaveFinished ctx]
  | _ => []

/-- Events of a gate. -/
def gateEvents (g : Nat) (v : Gate) : List Instr :=
  List.flatten [(List.range 8).map (Instr.gateTokenRefill g), v.deferred.map (fun d => Instr.gateDeferTimeout d.id),
    v.remote.filterMap (fun r => r.back.map (fun b => Instr.routeTimeout b.1 b.2))]

/-- Events of a node that runs. -/
def nodeEvents (r : NodeRun) : List Instr :=
  List.append (match r.watch with
    | some w => [Instr.signalWriteReeval w.2.1]
    | none => []) [Instr.nodeFault r.q r.slot, Instr.nodeComplete r.q r.slot]

/-- Tiles that are being saved. -/
def State.tileEvents (s : State) : List Instr :=
  (s.tiles.filter (fun t => match t.2.st with
    | .saving _ => true
    | _ => false)).map (fun t => Instr.tileSaveFinished (t.1 / 8) (t.1 % 8))

/-- Selection rounds that are due (R264). -/
def State.roundEvents (s : State) : List Instr :=
  ([0, 1].filter s.roundDue).map Instr.selectionRound

/-- Events that could come about by the machine's own doing, in the order in which the model tries them. -/
def State.candidateEvents (s : State) : List Instr :=
  List.flatten
    [s.samplers.map (fun m => Instr.sample (m.1 / 16) (m.1 % 16)),
     s.parts.flatMap (fun p => partEvents p.1),
     s.ctxs.flatMap (fun c => ctxEvents c.1 c.2),
     (s.walks.map (·.core)).eraseDups.map (fun c => Instr.walkComplete c 0),
     s.invals.map (fun v => Instr.invalidationAck v.page),
     s.links.flatMap (fun l => linkEvents l.1 l.2),
     s.gates.flatMap (fun g => gateEvents g.1 g.2),
     s.ops.flatMap (fun o => opEvents o.1 o.2),
     s.busyBents.flatMap (fun b => s.bentEvents b),
     s.tileEvents,
     s.courses.flatMap (fun c => s.courseEvents c.1 c.2),
     s.nodes.flatMap nodeEvents,
     s.queues.flatMap (fun q => queueEvents q.1 q.2),
     (s.kernels.filter (fun k => k.2.st == KState.placing)).map (fun k => Instr.placement k.1),
     s.roundEvents,
     (if s.pkg.checkpoint then [Instr.checkpointComplete] else []),
     s.slotTurns.map (fun k => Instr.runArbitration (k / 4) (k % 4))]

/-- What the clock makes due before anything else of that clk: the sample of a sampler (R80, R331), or a selection round (R264). -/
def State.dueSampler (s : State) : Option Instr :=
  ((s.samplers.find? (fun m => s.sampleDue m.2)).map (fun m => Instr.sample (m.1 / 16) (m.1 % 16))).or s.roundEvents.head?

/-- The next thing that the machine takes up, when no event is given from outside: an event, an instruction, a word that is none, or
nothing (log entry 4). -/
inductive Turn where
  | event (e : Instr)
  | instr (i : Instr)
  | bad (sub : BitVec 8)
  | stop (s : State)
  /-- no path issues: an event that the machine can take, or time passes -/
  | idle

/-- What comes next: a due sample or selection round, then the path that has the turn, unless its home has still to answer. -/
def State.nextTurn (s : State) : Turn :=
  match s.dueSampler with
  | some e => .event e
  | none =>
    match (if s.up then s.issuing else none) with
    | none => .idle
    | some env =>
      match s.homeEvent env with
      | some e => .event e
      | none =>
        match s.fetch env with
        | .run i => .instr i
        | .bad sub => .bad sub
        | .stop t => .stop t

/-! ### A word to run next -/

/-- The course, context and overlay that a word placed from outside runs in: course 0 in course slot 0 of core 0, in context 0, alone in
overlay 1. -/
def wordCourse : Course :=
  { Course.blank 0 0 with
    rows := 64, hw := 17, res := 17, started := true, regpc := 0x10000,
    region := { depth := 0, lwb := 0, fmask := BitVec.allOnes 64, d := 0, prio := 0, acc := 0, xseq := 0, restarts := 0 },
    paths := [(0, { ovl := 1, idx := 0, lanes := BitVec.allOnes 64, fmask := BitVec.allOnes 64, d := 0, prio := 0, demoted := none, lwb := 0,
                    depth := 0, jidx := none, run := none, wait := .nothing, late := [], shim := none, ent := [], offer := none, gap := false, stopped := false })] }

/-- The state with a word placed where its next instruction is fetched: the word stands for a loaded program whose header has won issue
slot 0. -/
def State.placeWord (s : State) (w : BitVec 96) : State :=
  let b := imemBase 0 1
  { s with
    mem := memWrite s.mem b (wordBytes w)
    poison := s.poison.filter (fun u => decide (u < b) || decide (b + 65536 ≤ u))
    courses := s.courses.put 0 wordCourse
    slots := s.slots.put 0 { busy := some (0, 0), last := 0, issued := none }
    ovls := Tab.put (s.ovls.filter (fun o => !(decide (o.1 < 8) && o.2.id == 1))) 1
      { id := 1, ctx := 0, n := 1, image := 0, order := s.nextId, loaded := true, mark := [] }
    ops := s.ops.filter (fun o => match o.2.kind with
      | .ovlLd 0 _ 1 _ _ _ => false
      | _ => true)
    ctxs := match s.ctxs.find 0 with
      | some c => s.ctxs.put 0 { c with st := .active }
      | none => s.ctxs.put 0 { Context.fresh 0 s.nextId [] with st := .active }
    parts := match s.parts.find 0 with
      | some _ => s.parts
      | none => s.parts.put 0 Partition.none
    samplers := s.samplers.filter (fun m => decide (s.time.clk < m.2.next))
    lastRound := (s.lastRound.put 0 s.roundNow).put 1 s.roundNow
    pkg := { s.pkg with viral := false, powerOff := false, inReset := false }
    agenda := []
    cur := some 0 }

end Sys2Proof.Machine
end

