-- ==== Sys2Proof/Machine/Dispatch.lean ====
section
/-!
DEFINITION. The meaning of every instruction and machine event, one arm each.
-/

namespace Sys2Proof.Machine

def exec (i : Instr) (s : State) : Host.Outcome State Fault Refusal :=
  match i with
  | .add x => Sys2Proof.Machine.execAdd x s
  | .sub x => Sys2Proof.Machine.execSub x s
  | .adds x => Sys2Proof.Machine.execAdds x s
  | .subs x => Sys2Proof.Machine.execSubs x s
  | .mul x => Sys2Proof.Machine.execMul x s
  | .mulhi x => Sys2Proof.Machine.execMulhi x s
  | .mad x => Sys2Proof.Machine.execMad x s
  | .neg x => Sys2Proof.Machine.execNeg x s
  | .abs x => Sys2Proof.Machine.execAbs x s
  | .min x => Sys2Proof.Machine.execMin x s
  | .max x => Sys2Proof.Machine.execMax x s
  | .div x => Sys2Proof.Machine.execDiv x s
  | .rem x => Sys2Proof.Machine.execRem x s
  | .and x => Sys2Proof.Machine.execAnd x s
  | .or x => Sys2Proof.Machine.execOr x s
  | .xor x => Sys2Proof.Machine.execXor x s
  | .not x => Sys2Proof.Machine.execNot x s
  | .shl x => Sys2Proof.Machine.execShl x s
  | .shr x => Sys2Proof.Machine.execShr x s
  | .rol x => Sys2Proof.Machine.execRol x s
  | .bfx x => Sys2Proof.Machine.execBfx x s
  | .bfi x => Sys2Proof.Machine.execBfi x s
  | .popc x => Sys2Proof.Machine.execPopc x s
  | .clz x => Sys2Proof.Machine.execClz x s
  | .brev x => Sys2Proof.Machine.execBrev x s
  | .sel x => Sys2Proof.Machine.execSel x s
  | .mov x => Sys2Proof.Machine.execMov x s
  | .lea x => Sys2Proof.Machine.execLea x s
  | .fadd x => Sys2Proof.Machine.execFadd x s
  | .fsub x => Sys2Proof.Machine.execFsub x s
  | .fmul x => Sys2Proof.Machine.execFmul x s
  | .ffma x => Sys2Proof.Machine.execFfma x s
  | .fmin x => Sys2Proof.Machine.execFmin x s
  | .fmax x => Sys2Proof.Machine.execFmax x s
  | .fneg x => Sys2Proof.Machine.execFneg x s
  | .fabs x => Sys2Proof.Machine.execFabs x s
  | .fdiv x => Sys2Proof.Machine.execFdiv x s
  | .fsqrt x => Sys2Proof.Machine.execFsqrt x s
  | .frcp x => Sys2Proof.Machine.execFrcp x s
  | .frsq x => Sys2Proof.Machine.execFrsq x s
  | .cvt x => Sys2Proof.Machine.execCvt x s
  | .cvti x => Sys2Proof.Machine.execCvti x s
  | .cvtf x => Sys2Proof.Machine.execCvtf x s
  | .setpEq x => Sys2Proof.Machine.execSetpEq x s
  | .setpNe x => Sys2Proof.Machine.execSetpNe x s
  | .setpLt x => Sys2Proof.Machine.execSetpLt x s
  | .setpLe x => Sys2Proof.Machine.execSetpLe x s
  | .setpGt x => Sys2Proof.Machine.execSetpGt x s
  | .setpGe x => Sys2Proof.Machine.execSetpGe x s
  | .setpUn x => Sys2Proof.Machine.execSetpUn x s
  | .setpNum x => Sys2Proof.Machine.execSetpNum x s
  | .pand x => Sys2Proof.Machine.execPand x s
  | .por x => Sys2Proof.Machine.execPor x s
  | .pxor x => Sys2Proof.Machine.execPxor x s
  | .pnot x => Sys2Proof.Machine.execPnot x s
  | .voteAny x => Sys2Proof.Machine.execVoteAny x s
  | .voteAll x => Sys2Proof.Machine.execVoteAll x s
  | .voteUniform x => Sys2Proof.Machine.execVoteUniform x s
  | .ballot x => Sys2Proof.Machine.execBallot x s
  | .pmov x => Sys2Proof.Machine.execPmov x s
  | .perm x => Sys2Proof.Machine.execPerm x s
  | .lred x => Sys2Proof.Machine.execLred x s
  | .lscan x => Sys2Proof.Machine.execLscan x s
  | .kclr x => Sys2Proof.Machine.execKclr x s
  | .kadd x => Sys2Proof.Machine.execKadd x s
  | .kmac x => Sys2Proof.Machine.execKmac x s
  | .kscan x => Sys2Proof.Machine.execKscan x s
  | .krd x => Sys2Proof.Machine.execKrd x s
  | .xred x => Sys2Proof.Machine.execXred x s
  | .xget x => Sys2Proof.Machine.execXget x s
  | .xput x => Sys2Proof.Machine.execXput x s
  | .br x => Sys2Proof.Machine.execBr x s
  | .brx x => Sys2Proof.Machine.execBrx x s
  | .call x => Sys2Proof.Machine.execCall x s
  | .callv x => Sys2Proof.Machine.execCallv x s
  | .ret x => Sys2Proof.Machine.execRet x s
  | .ifRegion x => Sys2Proof.Machine.execIfRegion x s
  | .elseRegion x => Sys2Proof.Machine.execElseRegion x s
  | .endifRegion x => Sys2Proof.Machine.execEndifRegion x s
  | .loopRegion x => Sys2Proof.Machine.execLoopRegion x s
  | .breakRegion x => Sys2Proof.Machine.execBreakRegion x s
  | .contRegion x => Sys2Proof.Machine.execContRegion x s
  | .endloopRegion x => Sys2Proof.Machine.execEndloopRegion x s
  | .prio x => Sys2Proof.Machine.execPrio x s
  | .yield x => Sys2Proof.Machine.execYield x s
  | .exit x => Sys2Proof.Machine.execExit x s
  | .nop x => Sys2Proof.Machine.execNop x s
  | .mark x => Sys2Proof.Machine.execMark x s
  | .cut x => Sys2Proof.Machine.execCut x s
  | .graft x => Sys2Proof.Machine.execGraft x s
  | .sliceDrop x => Sys2Proof.Machine.execSliceDrop x s
  | .sliceAtt x => Sys2Proof.Machine.execSliceAtt x s
  | .wflush x => Sys2Proof.Machine.execWflush x s
  | .ld x => Sys2Proof.Machine.execLd x s
  | .st x => Sys2Proof.Machine.execSt x s
  | .atomAdd x => Sys2Proof.Machine.execAtomAdd x s
  | .atomMin x => Sys2Proof.Machine.execAtomMin x s
  | .atomMax x => Sys2Proof.Machine.execAtomMax x s
  | .atomAnd x => Sys2Proof.Machine.execAtomAnd x s
  | .atomOr x => Sys2Proof.Machine.execAtomOr x s
  | .atomXor x => Sys2Proof.Machine.execAtomXor x s
  | .atomXchg x => Sys2Proof.Machine.execAtomXchg x s
  | .atomCas x => Sys2Proof.Machine.execAtomCas x s
  | .amaxp x => Sys2Proof.Machine.execAmaxp x s
  | .park x => Sys2Proof.Machine.execPark x s
  | .fenceAcq x => Sys2Proof.Machine.execFenceAcq x s
  | .fenceRel x => Sys2Proof.Machine.execFenceRel x s
  | .fenceAr x => Sys2Proof.Machine.execFenceAr x s
  | .fenceSc x => Sys2Proof.Machine.execFenceSc x s
  | .tfence x => Sys2Proof.Machine.execTfence x s
  | .tmv x => Sys2Proof.Machine.execTmv x s
  | .cp x => Sys2Proof.Machine.execCp x s
  | .cpD x => Sys2Proof.Machine.execCpD x s
  | .fbind x => Sys2Proof.Machine.execFbind x s
  | .fetch x => Sys2Proof.Machine.execFetch x s
  | .ovlLd x => Sys2Proof.Machine.execOvlLd x s
  | .wbld x => Sys2Proof.Machine.execWbld x s
  | .funbind x => Sys2Proof.Machine.execFunbind x s
  | .tzero x => Sys2Proof.Machine.execTzero x s
  | .mmaE4m3 x => Sys2Proof.Machine.execMmaE4m3 x s
  | .mmaE5m2 x => Sys2Proof.Machine.execMmaE5m2 x s
  | .mmaI8 x => Sys2Proof.Machine.execMmaI8 x s
  | .mmaBf16 x => Sys2Proof.Machine.execMmaBf16 x s
  | .mmaF16 x => Sys2Proof.Machine.execMmaF16 x s
  | .mmaF32 x => Sys2Proof.Machine.execMmaF32 x s
  | .mmaF64 x => Sys2Proof.Machine.execMmaF64 x s
  | .mmqQ4g x => Sys2Proof.Machine.execMmqQ4g x s
  | .mmqQ8g x => Sys2Proof.Machine.execMmqQ8g x s
  | .mmspE4m3 x => Sys2Proof.Machine.execMmspE4m3 x s
  | .mmspE5m2 x => Sys2Proof.Machine.execMmspE5m2 x s
  | .mmspI8 x => Sys2Proof.Machine.execMmspI8 x s
  | .mmspBf16 x => Sys2Proof.Machine.execMmspBf16 x s
  | .mmspF16 x => Sys2Proof.Machine.execMmspF16 x s
  | .mzero x => Sys2Proof.Machine.execMzero x s
  | .mld x => Sys2Proof.Machine.execMld x s
  | .mstr x => Sys2Proof.Machine.execMstr x s
  | .mshape x => Sys2Proof.Machine.execMshape x s
  | .spdg x => Sys2Proof.Machine.execSpdg x s
  | .spsal x => Sys2Proof.Machine.execSpsal x s
  | .mtalloc x => Sys2Proof.Machine.execMtalloc x s
  | .mtfree x => Sys2Proof.Machine.execMtfree x s
  | .eaNew x => Sys2Proof.Machine.execEaNew x s
  | .eaFree x => Sys2Proof.Machine.execEaFree x s
  | .eaIns x => Sys2Proof.Machine.execEaIns x s
  | .eaDel x => Sys2Proof.Machine.execEaDel x s
  | .eaSplit x => Sys2Proof.Machine.execEaSplit x s
  | .eaCat x => Sys2Proof.Machine.execEaCat x s
  | .eaMort x => Sys2Proof.Machine.execEaMort x s
  | .eaFill x => Sys2Proof.Machine.execEaFill x s
  | .eaSeal x => Sys2Proof.Machine.execEaSeal x s
  | .eaRank x => Sys2Proof.Machine.execEaRank x s
  | .eaPeg x => Sys2Proof.Machine.execEaPeg x s
  | .eaLen x => Sys2Proof.Machine.execEaLen x s
  | .xqCfg x => Sys2Proof.Machine.execXqCfg x s
  | .xqPush x => Sys2Proof.Machine.execXqPush x s
  | .xqPop x => Sys2Proof.Machine.execXqPop x s
  | .xqComb x => Sys2Proof.Machine.execXqComb x s
  | .xqDone x => Sys2Proof.Machine.execXqDone x s
  | .xqStat x => Sys2Proof.Machine.execXqStat x s
  | .crewJoin x => Sys2Proof.Machine.execCrewJoin x s
  | .crewLeave x => Sys2Proof.Machine.execCrewLeave x s
  | .crewInfo x => Sys2Proof.Machine.execCrewInfo x s
  | .barBind x => Sys2Proof.Machine.execBarBind x s
  | .barArrive x => Sys2Proof.Machine.execBarArrive x s
  | .barArriveEnrol x => Sys2Proof.Machine.execBarArriveEnrol x s
  | .barArriveDrop x => Sys2Proof.Machine.execBarArriveDrop x s
  | .barWait x => Sys2Proof.Machine.execBarWait x s
  | .barFree x => Sys2Proof.Machine.execBarFree x s
  | .sigDec x => Sys2Proof.Machine.execSigDec x s
  | .sigWait x => Sys2Proof.Machine.execSigWait x s
  | .sigSet x => Sys2Proof.Machine.execSigSet x s
  | .gateSig x => Sys2Proof.Machine.execGateSig x s
  | .gateWait x => Sys2Proof.Machine.execGateWait x s
  | .gateRd x => Sys2Proof.Machine.execGateRd x s
  | .srd x => Sys2Proof.Machine.execSrd x s
  | .swr x => Sys2Proof.Machine.execSwr x s
  | .trap x => Sys2Proof.Machine.execTrap x s
  | .trapret x => Sys2Proof.Machine.execTrapret x s
  | .region x => Sys2Proof.Machine.execRegion x s
  | .sigchk x => Sys2Proof.Machine.execSigchk x s
  | .launch x => Sys2Proof.Machine.execLaunch x s
  | .profOff x => Sys2Proof.Machine.execProfOff x s
  | .profOn x => Sys2Proof.Machine.execProfOn x s
  | .profBuf x => Sys2Proof.Machine.execProfBuf x s
  | .profRdp x => Sys2Proof.Machine.execProfRdp x s
  | .profCons x => Sys2Proof.Machine.execProfCons x s
  | .profDrop x => Sys2Proof.Machine.execProfDrop x s
  | .dbg x => Sys2Proof.Machine.execDbg x s
  | .runArbitration core islot => Sys2Proof.Machine.execRunArbitration core islot s
  | .longLatencyComplete op line => Sys2Proof.Machine.execLongLatencyComplete op line s
  | .sample core part => Sys2Proof.Machine.execSample core part s
  | .parkWake cid p => Sys2Proof.Machine.execParkWake cid p s
  | .parkTimeout cid p => Sys2Proof.Machine.execParkTimeout cid p s
  | .tmvLineArrival op n => Sys2Proof.Machine.execTmvLineArrival op n s
  | .copyEngineAcquire op => Sys2Proof.Machine.execCopyEngineAcquire op s
  | .cpComplete op => Sys2Proof.Machine.execCpComplete op s
  | .engineFault op => Sys2Proof.Machine.execEngineFault op s
  | .rangeLockEntryFree op => Sys2Proof.Machine.execRangeLockEntryFree op s
  | .wbldLineArrival bent j => Sys2Proof.Machine.execWbldLineArrival bent j s
  | .ovlUnload op => Sys2Proof.Machine.execOvlUnload op s
  | .ovlLdComplete op => Sys2Proof.Machine.execOvlLdComplete op s
  | .fbindComplete op => Sys2Proof.Machine.execFbindComplete op s
  | .funbindRelease op => Sys2Proof.Machine.execFunbindRelease op s
  | .wflushComplete op => Sys2Proof.Machine.execWflushComplete op s
  | .sliceCopyComplete op => Sys2Proof.Machine.execSliceCopyComplete op s
  | .sliceDropComplete op => Sys2Proof.Machine.execSliceDropComplete op s
  | .matrixQueueServe bent => Sys2Proof.Machine.execMatrixQueueServe bent s
  | .matrixStep bent => Sys2Proof.Machine.execMatrixStep bent s
  | .matrixOpComplete bent => Sys2Proof.Machine.execMatrixOpComplete bent s
  | .tileSaveFinished bent tile => Sys2Proof.Machine.execTileSaveFinished bent tile s
  | .eaAccept op => Sys2Proof.Machine.execEaAccept op s
  | .eaCommit op => Sys2Proof.Machine.execEaCommit op s
  | .shootdown op core => Sys2Proof.Machine.execShootdown op core s
  | .shootdownAck op core => Sys2Proof.Machine.execShootdownAck op core s
  | .eaCommitComplete op => Sys2Proof.Machine.execEaCommitComplete op s
  | .walkComplete core n => Sys2Proof.Machine.execWalkComplete core n s
  | .crewEventApply op => Sys2Proof.Machine.execCrewEventApply op s
  | .barArrivalApply op => Sys2Proof.Machine.execBarArrivalApply op s
  | .barReleaseWake cid p => Sys2Proof.Machine.execBarReleaseWake cid p s
  | .signalWriteReeval pa => Sys2Proof.Machine.execSignalWriteReeval pa s
  | .xredComplete op => Sys2Proof.Machine.execXredComplete op s
  | .nodeStart q slot => Sys2Proof.Machine.execNodeStart q slot s
  | .nodeComplete q slot => Sys2Proof.Machine.execNodeComplete q slot s
  | .nodeFault q slot => Sys2Proof.Machine.execNodeFault q slot s
  | .placement kern => Sys2Proof.Machine.execPlacement kern s
  | .courseStart cid => Sys2Proof.Machine.execCourseStart cid s
  | .courseRetire cid => Sys2Proof.Machine.execCourseRetire cid s
  | .xqCfgApply op => Sys2Proof.Machine.execXqCfgApply op s
  | .selectionRound die => Sys2Proof.Machine.execSelectionRound die s
  | .replayRetry link seq => Sys2Proof.Machine.execReplayRetry link seq s
  | .routeTimeout link seq => Sys2Proof.Machine.execRouteTimeout link seq s
  | .gateTokenRefill gate n => Sys2Proof.Machine.execGateTokenRefill gate n s
  | .gateDeferTimeout op => Sys2Proof.Machine.execGateDeferTimeout op s
  | .slotBoundary part => Sys2Proof.Machine.execSlotBoundary part s
  | .reclaim part cid => Sys2Proof.Machine.execReclaim part cid s
  | .lendReturn part => Sys2Proof.Machine.execLendReturn part s
  | .partitionLoadEffect part => Sys2Proof.Machine.execPartitionLoadEffect part s
  | .courseRelocate cid => Sys2Proof.Machine.execCourseRelocate cid s
  | .invalidationAck page => Sys2Proof.Machine.execInvalidationAck page s
  | .contextEndComplete ctx => Sys2Proof.Machine.execContextEndComplete ctx s
  | .migrateOutSaveFinished ctx => Sys2Proof.Machine.execMigrateOutSaveFinished ctx s
  | .migrationLineCopy frame => Sys2Proof.Machine.execMigrationLineCopy frame s
  | .trainingRetry link => Sys2Proof.Machine.execTrainingRetry link s
  | .laneErrorThreshold link lane => Sys2Proof.Machine.execLaneErrorThreshold link lane s
  | .rankWalk core handle rank => Sys2Proof.Machine.execRankWalk core handle rank s
  | .walkStart core ctx va => Sys2Proof.Machine.execWalkStart core ctx va s
  | .remotePush link seq dev queue tag row => Sys2Proof.Machine.execRemotePush link seq dev queue tag row s
  | .combineMessage link seq queue layer tag kmax outu row => Sys2Proof.Machine.execCombineMessage link seq queue layer tag kmax outu row s
  | .linkReply link seq r => Sys2Proof.Machine.execLinkReply link seq r s
  | .gateMessage link seq gate pkg part op => Sys2Proof.Machine.execGateMessage link seq gate pkg part op s
  | .bentRetire bent => Sys2Proof.Machine.execBentRetire bent s
  | .queueEnable page q va => Sys2Proof.Machine.execQueueEnable page q va s
  | .queueDisable page q => Sys2Proof.Machine.execQueueDisable page q s
  | .bell page q tail => Sys2Proof.Machine.execBell page q tail s
  | .resume page ctx core cslot p => Sys2Proof.Machine.execResume page ctx core cslot p s
  | .cons page v => Sys2Proof.Machine.execCons page v s
  | .stage1RangeInvalidate page part ctx base count seq => Sys2Proof.Machine.execStage1RangeInvalidate page part ctx base count seq s
  | .stage1ContextInvalidate page part ctx seq => Sys2Proof.Machine.execStage1ContextInvalidate page part ctx seq s
  | .stage2RangeInvalidate page part base count seq => Sys2Proof.Machine.execStage2RangeInvalidate page part base count seq s
  | .stage2PartitionInvalidate page part seq => Sys2Proof.Machine.execStage2PartitionInvalidate page part seq s
  | .addSpareFrames page base count seq => Sys2Proof.Machine.execAddSpareFrames page base count seq s
  | .loadPartitionBlock page part addr seq => Sys2Proof.Machine.execLoadPartitionBlock page part addr seq s
  | .enable page part ctx addr seq => Sys2Proof.Machine.execEnable page part ctx addr seq s
  | .endContext page part ctx seq => Sys2Proof.Machine.execEndContext page part ctx seq s
  | .flushCrew page part ctx crew seq => Sys2Proof.Machine.execFlushCrew page part ctx crew seq s
  | .restartCrew page part ctx crew seq => Sys2Proof.Machine.execRestartCrew page part ctx crew seq s
  | .migrateOut page part ctx seq => Sys2Proof.Machine.execMigrateOut page part ctx seq s
  | .migrateIn page part ctx addr seq => Sys2Proof.Machine.execMigrateIn page part ctx addr seq s
  | .activate page gate ver seq => Sys2Proof.Machine.execActivate page gate ver seq s
  | .freeze page gate seq => Sys2Proof.Machine.execFreeze page gate seq s
  | .thaw page gate seq => Sys2Proof.Machine.execThaw page gate seq s
  | .retire page gate seq => Sys2Proof.Machine.execRetire page gate seq s
  | .beginMigration page gate acli seq => Sys2Proof.Machine.execBeginMigration page gate acli seq s
  | .endMigration page gate seq => Sys2Proof.Machine.execEndMigration page gate seq s
  | .arm page base seq => Sys2Proof.Machine.execArm page base seq s
  | .startCheckpoint page seq => Sys2Proof.Machine.execStartCheckpoint page seq s
  | .disarm page seq => Sys2Proof.Machine.execDisarm page seq s
  | .checkpointComplete => Sys2Proof.Machine.execCheckpointComplete s
  | .errcnt w => Sys2Proof.Machine.execErrcnt w s
  | .retrain link => Sys2Proof.Machine.execRetrain link s
  | .registerWrite page off v => Sys2Proof.Machine.execRegisterWrite page off v s
  | .peerWrite off bytes => Sys2Proof.Machine.execPeerWrite off bytes s
  | .hostCxlMemAccess write hpa n bytes => Sys2Proof.Machine.execHostCxlMemAccess write hpa n bytes s
  | .decodeFrame q slot frame err last => Sys2Proof.Machine.execDecodeFrame q slot frame err last s
  | .frameRetireTrigger frame reason block => Sys2Proof.Machine.execFrameRetireTrigger frame reason block s
  | .illegalEncoding sub => Sys2Proof.Machine.execIllegalEncoding sub s
  | .correctedError frame => Sys2Proof.Machine.execCorrectedError frame s
  | .scrub frame => Sys2Proof.Machine.execScrub frame s
  | .viralState => Sys2Proof.Machine.execViralState s
  | .cxlReset => Sys2Proof.Machine.execCxlReset s
  | .linkPowerUp link => Sys2Proof.Machine.execLinkPowerUp link s
  | .trainingSucceeds link peer ver => Sys2Proof.Machine.execTrainingSucceeds link peer ver s
  | .trainingFails link => Sys2Proof.Machine.execTrainingFails link s
  | .flitCrcFailure link lane => Sys2Proof.Machine.execFlitCrcFailure link lane s
  | .viralFlitReceived link => Sys2Proof.Machine.execViralFlitReceived link s
  | .timeSync off ppm => Sys2Proof.Machine.execTimeSync off ppm s
  | .powerCapSet watts => Sys2Proof.Machine.execPowerCapSet watts s
  | .clockStep mhz => Sys2Proof.Machine.execClockStep mhz s
  | .junctionTrip => Sys2Proof.Machine.execJunctionTrip s
  | .inputUndervoltage => Sys2Proof.Machine.execInputUndervoltage s
  | .resetBoot => Sys2Proof.Machine.execResetBoot s
  | .firmwareUpdate image version sig => Sys2Proof.Machine.execFirmwareUpdate image version sig s
  | .certificateRequest => Sys2Proof.Machine.execCertificateRequest s
  | .attestationRequest nonce => Sys2Proof.Machine.execAttestationRequest nonce s
  | .queueResume page q => Sys2Proof.Machine.execQueueResume page q s

end Sys2Proof.Machine
end

