-- ==== Sys2Proof/Machine/Step.lean ====
section
/-!
DEFINITION. One step of the machine: the next event of the agenda; or a due sample; or the instruction of the path whose turn it is; or
an event that the machine can take; or the passing of time (log entries 4 and 5).
-/

namespace Sys2Proof.Machine

/-- An event that the machine can take now: it changes the state, or stops. -/
def State.takes (s : State) (e : Instr) : Bool :=
  match exec e s with
  | .next t => t != s
  | _ => true

/-- One step. -/
def step (s : State) : Host.Outcome State Fault Refusal :=
  match s.agenda with
  | e :: l => exec e { s with agenda := l }
  | [] =>
    match s.nextTurn with
    | .event e => exec e s
    | .instr i => exec i s
    | .bad sub => execIllegalEncoding sub s
    | .stop t => .next t
    | .idle =>
      match s.candidateEvents.find? s.takes with
      | some e => exec e s
      | none => .next s.tick

/-- The state with an instruction placed where the next step fetches it: the bits w, the first byte lowest, zeros above. -/
def State.withFetchWord (s : State) (nbits w : Nat) : State := s.placeWord (BitVec.ofNat 96 (w % 2 ^ nbits))

end Sys2Proof.Machine
end

