-- ==== Sys2Proof/Safety.lean ====
section
/-!
DEFINITION. What counts as a safe run: the terms in which claims speak of steps and of states that a run may stand in.
-/

namespace Sys2Proof.Machine

/-- A step answers a next state. -/
def State.goesOn (s : State) : Prop := ∃ t, step s = .next t

/-- A state that a run from another one reaches. -/
inductive Reaches : State → State → Prop where
  | here (s : State) : Reaches s s
  | step (s t u : State) : step s = .next t → Reaches t u → Reaches s u

/-- A run from a state is safe: it never stops with a fault or a refusal. -/
def State.safe (s : State) : Prop := ∀ t, Reaches s t → t.goesOn

/-- The issuing path executes an instruction of entry e with arguments x, and consumes no uncorrectable error in it (R305); no tfence of its
course holds back what it accesses (R160). -/
def Ready (s : State) (env : Env) (e : Entry) (x : Args) : Prop :=
  s.issuing = some env ∧ s.tick.consumed env e x = none ∧ (e.paged = true → env.acting x ≠ 0 → env.co.tfencing = false)

/-- A tfence of its course that has not completed holds back what the instruction accesses (R160). -/
def HeldBack (s : State) (env : Env) (e : Entry) (x : Args) : Prop :=
  s.issuing = some env ∧ s.tick.consumed env e x = none ∧ e.paged = true ∧ env.acting x ≠ 0 ∧ env.co.tfencing = true

/-- A state in which the machine is up, with an operation under way in it. -/
def State.hasOp (s : State) (op : Nat) (o : Op) : Prop := s.up = true ∧ s.ops.find op = some o

/-! ### What an instruction's destination holds, and what the instruction leaves alone -/

/-- What lane l of a destination of type ty holds, as the unsigned value of its container (R16, R83). -/
def State.held (s : State) (env : Env) (ty : Ty) (d : Opnd) (l : Nat) : Nat :=
  match s.courses.find env.cid with
  | none => 0
  | some c =>
    match d with
    | .vec r _ => s.vec c env.pa.lwb r.toNat ty.wide l
    | .reg n => (c.scalar n.toNat).toNat
    | _ => 0

/-- The destination D took the values v of type ty: a vector in the lanes that act, a scalar from the lowest of them when
there is one; the other lanes of D are as before (R38, R39, R83). -/
def Wrote (s t : State) (env : Env) (x : Args) (ty : Ty) (v : Nat → Nat) : Prop :=
  match x.d with
  | .vec _ _ => ∀ l, l < 64 → t.held env ty x.d l =
      if (env.acting x).getLsbD l then ty.extend (if ty.wide then 64 else 32) (v l) else s.held env ty x.d l
  | .reg _ => t.held env ty x.d 0 =
      if env.acting x = 0 then s.held env ty x.d 0 else ty.extend 64 (v (lowLane (env.acting x)))
  | _ => True

/-- The physical rows that a destination of type ty lies in. -/
def destRows (env : Env) (ty : Ty) (d : Opnd) : List Nat :=
  match d with
  | .vec r _ => env.co.rowKey (env.pa.lwb + r.toNat) :: (if ty.wide then [env.co.rowKey (env.pa.lwb + r.toNat + 1)] else [])
  | _ => []

/-- A register-only instruction leaves everything but its destination alone: every byte of memory, every row but the
destination's, every other course, every scalar but the destination, and every other register of the course. What may also
change is what issuing changes: %sig (R306), the paths' code addresses and runs, the issue slot, and time. -/
def RegisterFrame (s t : State) (env : Env) (ty : Ty) (d : Opnd) : Prop :=
  t = { s with rows := t.rows, rowPoison := t.rowPoison, courses := t.courses, slots := t.slots, cur := t.cur, time := t.time,
               pace := t.pace } ∧
  (∀ a, memByte t.mem a = memByte s.mem a) ∧
  (∀ key, key ∉ destRows env ty d → t.rows.getD key 0 = s.rows.getD key 0) ∧
  (∀ k, k ≠ env.cid → t.courses.find k = s.courses.find k) ∧
  ∃ c, t.courses.find env.cid = some c ∧
    c = { env.co with scal := c.scal, sPoison := c.sPoison, sig := c.sig, paths := c.paths, lastPath := c.lastPath } ∧
    ∀ n : Nat, (∀ m : BitVec 6, d = .reg m → n ≠ m.toNat) → c.scalar n = env.co.scalar n

/-- A predicate-only instruction leaves everything but lanes of predicate p alone. -/
def PredicateFrame (s t : State) (env : Env) (p : Nat) : Prop :=
  t = { s with courses := t.courses, slots := t.slots, cur := t.cur, time := t.time, pace := t.pace } ∧
  (∀ a, memByte t.mem a = memByte s.mem a) ∧
  (∀ k, k ≠ env.cid → t.courses.find k = s.courses.find k) ∧
  ∃ c, t.courses.find env.cid = some c ∧
    c = { env.co with preds := c.preds, pPoison := c.pPoison, sig := c.sig, paths := c.paths, lastPath := c.lastPath } ∧
    ∀ n, n ≠ p → c.pred n = env.co.pred n

/-- Predicate p took the truth values v in the lanes that act, and is as before in the others (R39, R92). -/
def WrotePred (t : State) (env : Env) (x : Args) (p : Nat) (v : Nat → Bool) : Prop :=
  ∃ c, t.courses.find env.cid = some c ∧
    ∀ l, l < 64 → (c.pred p).getLsbD l = if (env.acting x).getLsbD l then v l else (env.co.pred p).getLsbD l

/-- Operand o of the issuing instruction in lane l, as a bit vector of type ty (R83). -/
def State.bitsOf (s : State) (env : Env) (x : Args) (ty : Ty) (o : Opnd) (l : Nat) : BitVec ty.bits :=
  BitVec.ofNat ty.bits (s.lane env x ty o l)

/-- A result of an element type from the patterns of A, B and D. -/
abbrev LaneFun := (t : Ty) → BitVec t.bits → BitVec t.bits → BitVec t.bits → BitVec t.bits

/-- The instruction k, well formed and executed by a path whose course has rows (R104), completes: in each acting lane D takes f
of the lane's A, B and old D under the modifier's type, and nothing else changes. -/
def LaneRule (k : Args → Instr) (e : Entry) (f : LaneFun) : Prop :=
  ∀ (s : State) (env : Env) (x : Args), Ready s env e x → e.broken x = [] → 2 ≤ env.co.rows → env.co.rows ≤ 4096 →
    let t := x.m.tyD
    ∃ u, exec (k x) s = .next u ∧
      Wrote s u env x t (fun l => (f t (s.bitsOf env x t x.a l) (s.bitsOf env x t x.b l) (s.bitsOf env x t x.d l)).toNat) ∧
      RegisterFrame s u env t x.d

/-- As LaneRule, for an instruction whose operands have the types ta, tb and td, and a value on natural-number patterns. -/
def PatRule (k : Args → Instr) (e : Entry) (ta tb td : Args → Ty) (f : Args → Nat → Nat → Nat → Nat) : Prop :=
  ∀ (s : State) (env : Env) (x : Args), Ready s env e x → 2 ≤ env.co.rows → env.co.rows ≤ 4096 →
    ∃ u, exec (k x) s = .next u ∧
      Wrote s u env x (td x)
        (fun l => f x (s.lane env x (ta x) x.a l) (s.lane env x (tb x) x.b l) (s.lane env x (td x) x.d l)) ∧
      RegisterFrame s u env (td x) x.d

/-- The instruction k, executed by a ready path, completes: predicate D takes f in each acting lane, and nothing else
changes. -/
def PredRule (k : Args → Instr) (e : Entry) (f : State → Env → Args → Nat → Bool) : Prop :=
  ∀ (s : State) (env : Env) (x : Args), Ready s env e x →
    ∃ u, exec (k x) s = .next u ∧ WrotePred u env x x.d.num (f s env x) ∧ PredicateFrame s u env x.d.num

/-- The value of an integer type's pattern (R17). -/
def intOf (t : Ty) (a : BitVec t.bits) : Int := if t.signed then a.toInt else a.toNat

/-- The course and the path that issued, as a state holds them. -/
def Holds (u : State) (env : Env) (c : Course) (q : Path) : Prop :=
  u.courses.find env.cid = some c ∧ c.paths.find env.p = some q

/-- After a structured-control instruction: every lane's nesting counter, the break and continue bits, and the region depth of
the path (R72, R73). -/
def CtlAfter (u : State) (env : Env) (counter : Nat → Nat) (brk cnt : LaneMask) (d : Nat) : Prop :=
  ∃ c q, Holds u env c q ∧ (∀ l, l < 64 → cOf c.c l = counter l % 256) ∧ c.x = brk ∧ c.k = cnt ∧ q.d = d

/-- A command may be submitted through a block of a page of the host register space: the machine is up, no command is pending there, and a partition's page
has the block and names the partition (R313). -/
def State.accepts (s : State) (page off : Nat) (hyper : Bool) (part : Nat) : Prop :=
  s.up = true ∧ s.cmdPending page off = false ∧ page ≤ 16 ∧ (page = 0 ∨ (off < 0x1200 ∧ hyper = false ∧ part + 1 = page))

/-- The state with a command's words in its block, pending. -/
def State.submitted (s : State) (page off : Nat) (words : List (Option Nat)) : State :=
  { s with cmds := s.cmds.put (cmdKey page off) { words := s.cmdStored page off words, pending := true } }

/-- A range passes what a copy checks of it at issue: a scratch range lies whole in its window; the first byte of a paged one translates, and no higher
privilege keeps it back (R214, R215). -/
def State.copyRange (s : State) (env : Env) (a : Word) (n : Nat) (write : Bool) : Prop :=
  if isScratchAddr a then ∃ r, s.scratch env.co.ctx a = some r ∧ n ≤ r.2
  else (s.translate env.co.core env.co.ctx a.toNat none write).isOk = true ∧ env.co.hwBad a.toNat 1 = false

/-- Words of an aligned 64-byte block that an instruction reads at issue may be read: its address is a multiple of 64, it translates, no operation holds it, and
it is not poisoned (R333). -/
def State.blockOpen (s : State) (env : Env) (va : Nat) : Prop :=
  va % 64 = 0 ∧ (s.pagedRange env.co va 64 false 0xFF).isOk = true ∧ s.blockReady env.cid ((s.pagedRange env.co va 64 false 0xFF).toOption.getD []) = true ∧
  (s.pagedRead env.co va 64 0xFF).isOk = true

/-- The eight words of such a block. -/
def State.blockWords (s : State) (env : Env) (va : Nat) : List Word :=
  (List.range 8).map (fun i => BitVec.ofNat 64 (bits (leNat (s.peekAll ((s.pagedRead env.co va 64 0xFF).toOption.getD []))) (64 * i) 64))

/-- Memory is in its canonical form. -/
def State.memOk (s : State) : Prop := Memory.wf s.mem = true

/-- The elements of an elastic array's sequence in rank order, each by its leaf and its slot there (R166, R171). -/
def itemElems (l : List EItem) : List (Nat × Nat) :=
  l.flatMap (fun e => match e with
    | .ext leaf s c => (List.range c).map (fun i => (leaf, s + i))
    | .mort _ => [])

/-- The mortises of an elastic array's sequence, in their order. -/
def itemMorts (l : List EItem) : List EItem := l.filter (·.isMort)

end Sys2Proof.Machine
end

