-- ==== Sys2Proof/Certificates/Slice0/Obligations.lean ====
section
/-!
DEFINITION. The statements of this row for its provers, each formalising rules of the spec or what follows from them.
-/

open Sys2Proof Sys2Proof.Machine

/-- R33 to R51: the encoder and the decoder agree. A well-formed instruction's word, at a place of a run that its hint field can stand at, decodes to that
instruction with every operand, modifier, guard and hint it has. -/
def Obligations.DecodeEncode : Prop :=
  ∀ (i : Instr) (e : Entry) (x : Args) (ctx : RunCtx), i.parts = some (e, x) → i.wf = true → ctx.admits x.h = true → decode ctx (encode i) = .ok i

/-- R33 to R51: a word has one meaning. Whatever word decodes to an instruction at some place of a run, that instruction is well formed, its hint can
stand there, and its word is the word that was read: no bit of the encoding is dropped. -/
def Obligations.EncodeDecode : Prop :=
  ∀ (i : Instr) (ctx : RunCtx) (w : BitVec 96), decode ctx w = .ok i → encode i = w ∧ i.encodable = true ∧ ∀ e x, i.parts = some (e, x) → ctx.admits x.h = true

/-- An invariant of every step (the guide's canonical form; R16, R125 and R157 give the bytes): whatever a step does, an instruction, a machine event, or
the passing of time, a state whose memory is in canonical form (addresses strictly rising, no cell that equals what an unlisted address reads as) goes
over only into such states. That reset has the form is stated in ResetState. -/
def Obligations.MemoryStaysCanonical : Prop :=
  ∀ (s t : State), s.memOk → step s = .next t → t.memOk

/-- R6, R8, R70, R151, R239 and R319: the machine right after reset, as far as the spec gives values. Memory keeps its canonical form and lists nothing;
no context, course, kernel or operation exists; an issue slot s counts course slot 28 + s as its last winner, the distributors count bay 11 as last
used; a link is DOWN without a version; the arrival counts of the lanes, the lock table and the translation cache are empty; tiles and barriers are
free. That memory reads as zero where nothing is listed is the model's choice (log entry 1); the empty tables follow from nothing having been created. -/
def Obligations.ResetState : Prop :=
  let s := Machine.State.reset
  s.memOk ∧ s.mem = [] ∧ s.pkg.inReset = true ∧ s.up = false ∧ s.ctxs = [] ∧ s.courses = [] ∧ s.kernels = [] ∧ s.ops = [] ∧ s.locks = [] ∧ s.tlb = [] ∧ s.barriers = [] ∧
    (∀ core i, i < 4 → (s.slotOf (4 * core + i)).last = 28 + i ∧ (s.slotOf (4 * core + i)).busy = none) ∧ s.lastBay = 11 ∧
    (∀ n, (s.link n).st = .down ∧ (s.link n).ver = 0 ∧ (s.link n).width = 0) ∧ (∀ k, (s.tile k).st = .free ∧ (s.tile k).act = false) ∧ s.pkg.tier = none

/-- R33 to R51: words that the spec writes out decode to the instructions they stand for, one of each class: `?!p3 fadd.f32 v6, v6, v7.rot(+1)` as a
header with WAIT f2 and FA f0, `add.i32 v8, v8.bfly(W/2), 100` after it, `?p0 lred.add.i32 v4, v2, s4, p6`, `?p1 br top`, `tfence.pkg`, `mmsp` with
FA, `crew.join s5` and `sigchk 0x12345678`; the all-ones word breaks rule OP. -/
def Obligations.DecodeWords : Prop :=
  let v (r : BitVec 6) : Opnd := .vec r Pat.plain
  let one : Hint := .header true 0 none none
  decode .header 0x20121830000C00039020040F = .ok (.fadd { g := .on 3 true, h := .header false 4 (some 0) none, m := .flt .f32 .rn, d := v 6, a := v 6, b := .vec 7 { kind := .rot, rel := false, neg := false, amt := 1 } }) ∧
  decode (.body true false) 0x0009F8400010E0C00C900000 = .ok (.add { g := .always, h := .body true .none, m := .ty .i32, d := v 8, a := .vec 8 { kind := .bfly, rel := true, neg := false, amt := 1 }, b := .imm 100 }) ∧
  decode .header 0x48880020000400420C1000FF = .ok (.lred { g := .on 0 false, h := one, m := .ty .i32, d := v 4, a := v 2, b := .imm 0x1060 }) ∧
  decode (.body false false) 0x600008000100080000100000 = .ok (.br { g := .on 1 false, h := .body true .none, m := .none, d := .zero, a := .imm 0x10, b := .zero }) ∧
  decode .header 0x8695F80000000000001000FF = .ok (.tfence { g := .always, h := one, m := .scope .pkg, d := .zero, a := .zero, b := .zero }) ∧
  decode (.body true false) 0xAE81FA280080002300040000 = .ok (.mmspBf16 { g := .always, h := .body false .fa, m := .num 0, d := .reg 5, a := .reg 0, b := .reg 6 }) ∧
  decode .header 0xCC01F800008A0000001000FF = .ok (.crewJoin { g := .always, h := one, m := .none, d := .zero, a := .reg 5, b := .zero }) ∧
  decode .header 0xE281F80001891A6ACF1000FF = .ok (.sigchk { g := .always, h := one, m := .none, d := .zero, a := .joined 0x1234, b := .joined 0x5678 }) ∧
  decode .header 0xFFFFFFFFFFFFFFFFFFFFFFFF = .error 3

/-- R34, R40, R41, R51 and R305: a step runs the decoded instruction. With no event given from outside, no sample due, and a path issuing whose home has
answered, the step reads the word at the path's code address; a word that decodes is executed, one that breaks a rule is taken as ILLEGAL, with
RUNSTART where it would transfer control to an instruction that is no run start. An event of the agenda is taken first, and a due sample or selection
round before any instruction. That an event of the agenda comes first, then a due sample, then an issuing path, is the model's choice of order (log
entry 4). -/
def Obligations.StepRunsDecoded : Prop :=
  (∀ (s : State) (e : Instr) (l : List Instr), s.agenda = e :: l → step s = exec e { s with agenda := l }) ∧
  (∀ (s : State) (m : Instr), s.agenda = [] → s.dueSampler = some m → step s = exec m s) ∧
  (∀ (s : State) (env : Env) (j : Nat) (o : Ovl), s.agenda = [] → s.dueSampler = none → s.up = true → s.issuing = some env → s.homeEvent env = none →
    s.ovlSlot env.co.core env.co.ctx env.pa.ovl = some (j, o) →
    (env.pa.run = none → s.loadingOvl env.co.core env.co.ctx env.pa.ovl = false ∧ o.mark = []) → env.pa.idx < o.n →
    s.poisoned (imemBase env.co.core j + 12 * env.pa.idx) 12 = none → (∀ r, env.pa.run = some r → r.len < 24) →
    (∀ i, decode (runCtx env.pa.run) (s.word env.co.core j env.pa.idx) = .ok i → step s = exec i s) ∧
    (∀ sub, decode (runCtx env.pa.run) (s.word env.co.core j env.pa.idx) = .error sub →
      step s = exec (.illegalEncoding (if s.offStart env (s.word env.co.core j env.pa.idx) then 0x02 else sub)) s)) ∧
  (∀ (s : State) (env : Env), s.agenda = [] → s.dueSampler = none → s.up = true → s.issuing = some env → s.homeEvent env = none →
    (env.pa.run = none → s.loadingOvl env.co.core env.co.ctx env.pa.ovl = false) →
    ((∀ r, env.pa.run = some r → r.len < 24) → s.ovlSlot env.co.core env.co.ctx env.pa.ovl = none →
      step s = .next (s.tick.trapHere env Trap.ovl)) ∧
    (∀ j o, (∀ r, env.pa.run = some r → r.len < 24) → s.ovlSlot env.co.core env.co.ctx env.pa.ovl = some (j, o) → o.n ≤ env.pa.idx →
      step s = .next (s.tick.trapHere env Trap.ovl)) ∧
    (∀ j o r, s.ovlSlot env.co.core env.co.ctx env.pa.ovl = some (j, o) → env.pa.idx < o.n → s.poisoned (imemBase env.co.core j + 12 * env.pa.idx) 12 = none →
      env.pa.run = some r → 24 ≤ r.len → step s = exec (.illegalEncoding 0x01) s))

/-- R40 and R44: completing an instruction moves its path to the next code address or the one it goes to, keeps its lanes, frame and window, and ends the
run exactly at a boundary bit or an instruction marked B; a run that goes on counts one more instruction. -/
def Obligations.CompletingAdvances : Prop :=
  ∀ (s : State) (env : Env) (e : Entry) (x : Args) (a : Adv) (c : Course) (q : Path),
    s.courses.find env.cid = some c → c.paths.find env.p = some q → a.gone = false →
    ∃ c' q', Holds (s.complete env e x a) env c' q' ∧
      (q'.ovl, q'.idx) = a.go.getD (env.pa.ovl, env.pa.idx + 1) ∧
      q'.run = (if x.h.bnd || e.isB then none else some (nextRun env.pa.run x.h)) ∧ q'.wait = a.wait ∧
      q'.lanes = q.lanes ∧ q'.fmask = q.fmask ∧ q'.d = q.d ∧ q'.lwb = q.lwb ∧ q'.depth = q.depth ∧ q'.prio = q.prio ∧
      c'.scal = c.scal ∧ c'.preds = c.preds ∧ c'.exited = c.exited

/-- R85: every integer and bitwise entry completes with its value in the acting lanes, and touches nothing else. The value of each is written here on bit
vectors of the element type's width. -/
def Obligations.IntegerLaneResults : Prop :=
  ∀ r ∈ ([
    (Instr.add, Enc.add, fun _ a b _ => a + b),
    (Instr.sub, Enc.sub, fun _ a b _ => a - b),
    (Instr.adds, Enc.adds, fun t a b _ => BitVec.ofInt t.bits (max t.minI (min t.maxI (intOf t a + intOf t b)))),
    (Instr.subs, Enc.subs, fun t a b _ => BitVec.ofInt t.bits (max t.minI (min t.maxI (intOf t a - intOf t b)))),
    (Instr.mul, Enc.mul, fun _ a b _ => a * b),
    (Instr.mulhi, Enc.mulhi, fun t a b _ => BitVec.ofInt t.bits (intOf t a * intOf t b / 2 ^ t.bits)),
    (Instr.mad, Enc.mad, fun _ a b d => a * b + d),
    (Instr.neg, Enc.neg, fun _ a _ _ => -a),
    (Instr.abs, Enc.abs, fun t a _ _ => if t.signed && a.msb then -a else a),
    (Instr.min, Enc.min, fun t a b _ => if (if t.signed then a.sle b else a.ule b) then a else b),
    (Instr.max, Enc.max, fun t a b _ => if (if t.signed then a.sle b else a.ule b) then b else a),
    (Instr.div, Enc.div, fun t a b _ => if b = 0 then BitVec.allOnes t.bits else if t.signed then a.sdiv b else a / b),
    (Instr.rem, Enc.rem, fun t a b _ => if b = 0 then a else if t.signed then a.srem b else a % b),
    (Instr.and, Enc.and, fun _ a b _ => a &&& b),
    (Instr.or, Enc.or, fun _ a b _ => a ||| b),
    (Instr.xor, Enc.xor, fun _ a b _ => a ^^^ b),
    (Instr.not, Enc.not, fun _ a _ _ => ~~~a)] : List ((Args → Instr) × Entry × LaneFun)),
  LaneRule r.1 r.2.1 r.2.2

/-- R85: shifts, rotation, bit fields, counts and reversal complete with their value in the acting lanes. The amount of a shift is b[7:0]; a field that
starts at or above the width is empty, and one that leaves the width is cut (R85). -/
def Obligations.BitFieldLaneResults : Prop :=
  ∀ r ∈ ([
    (Instr.shl, Enc.shl, fun _ a b _ => a <<< (b.toNat % 256)),
    (Instr.shr, Enc.shr, fun t a b _ => if t.signed then a.sshiftRight (b.toNat % 256) else a >>> (b.toNat % 256)),
    (Instr.rol, Enc.rol, fun _ a b _ => a.rotateLeft (b.toNat % 256)),
    (Instr.bfx, Enc.bfx, fun t a b _ =>
      let pos := b.toNat % 256
      let len := min (b.toNat / 256 % 256) (t.bits - pos)
      if t.signed then ((a >>> pos).setWidth len).signExtend t.bits else ((a >>> pos).setWidth len).setWidth t.bits),
    (Instr.bfi, Enc.bfi, fun t a b d =>
      let pos := b.toNat % 256
      let len := min (b.toNat / 256 % 256) (t.bits - pos)
      let mask := ((BitVec.allOnes len).setWidth t.bits) <<< pos
      (d &&& ~~~mask) ||| ((a <<< pos) &&& mask)),
    (Instr.popc, Enc.popc, fun t a _ _ => BitVec.ofNat t.bits ((List.range t.bits).countP (fun i => a.getLsbD i))),
    (Instr.clz, Enc.clz, fun t a _ _ => BitVec.ofNat t.bits (((List.range t.bits).find? (fun i => a.getMsbD i)).getD t.bits)),
    (Instr.brev, Enc.brev, fun _ a _ _ => a.reverse),
    (Instr.mov, Enc.mov, fun _ a _ _ => a)] : List ((Args → Instr) × Entry × LaneFun)),
  LaneRule r.1 r.2.1 r.2.2

/-- R85 and R86: sel takes a or b by the guard in every active lane, and lea adds b, sign-extended and scaled by the element size, to the address a. -/
def Obligations.SelectAndAddress : Prop :=
  (∀ (s : State) (env : Env) (x : Args), Ready s env Enc.sel x → 2 ≤ env.co.rows → env.co.rows ≤ 4096 → x.d.isVec = true →
    ∃ u, exec (.sel x) s = .next u ∧
      Wrote s u env { x with g := .always } x.m.tyD
        (fun l => if (env.co.guard x.g).getLsbD l then s.lane env x x.m.tyD x.a l else s.lane env x x.m.tyD x.b l) ∧
      RegisterFrame s u env x.m.tyD x.d) ∧
  PatRule Instr.lea Enc.lea (fun _ => .n64) (fun _ => .i32) (fun _ => .n64) (fun x a b _ =>
    (BitVec.ofNat 64 a + (BitVec.ofNat 32 b).signExtend 64 * BitVec.ofNat 64 (x.m.tyD.bits / 8)).toNat)

/-- R87 to R91: every floating-point entry completes with its value in the acting lanes: one exact operation on the values of its operands, rounded once
into the destination's format. -/
def Obligations.FloatLaneResults : Prop :=
  (∀ r ∈ ([
    (Instr.fadd, Enc.fadd, fun _ m a b _ => FVal.add m a b),
    (Instr.fsub, Enc.fsub, fun _ m a b _ => FVal.add m a b.negate),
    (Instr.fmul, Enc.fmul, fun _ _ a b _ => FVal.mul a b),
    (Instr.ffma, Enc.ffma, fun _ m a b d => FVal.add m (FVal.mul a b) d),
    (Instr.fdiv, Enc.fdiv, fun f _ a b _ => FVal.div f a b),
    (Instr.fsqrt, Enc.fsqrt, fun f _ a _ _ => FVal.sqrt f a),
    (Instr.frcp, Enc.frcp, fun f _ a _ _ => FVal.rcp f a),
    (Instr.frsq, Enc.frsq, fun f _ a _ _ => FVal.rsq f a)]
      : List ((Args → Instr) × Entry × (Fmt → Rnd → FVal → FVal → FVal → FVal))),
    PatRule r.1 r.2.1 (·.m.tyD) (·.m.tyD) (·.m.tyD) (fun x a b d =>
      let f := x.m.fmtD
      (r.2.2 f (rndOf x) (f.decode a) (f.decode b) (f.decode d)).encode f (rndOf x))) ∧
  PatRule Instr.fmin Enc.fmin (·.m.tyD) (·.m.tyD) (·.m.tyD) (fun x a b _ => fminmax x.m.fmtD false a b) ∧
  PatRule Instr.fmax Enc.fmax (·.m.tyD) (·.m.tyD) (·.m.tyD) (fun x a b _ => fminmax x.m.fmtD true a b) ∧
  PatRule Instr.fneg Enc.fneg (·.m.tyD) (·.m.tyD) (·.m.tyD) (fun x a _ _ => a ^^^ 2 ^ (x.m.tyD.bits - 1)) ∧
  PatRule Instr.fabs Enc.fabs (·.m.tyD) (·.m.tyD) (·.m.tyD) (fun x a _ _ => a % 2 ^ (x.m.tyD.bits - 1)) ∧
  PatRule Instr.cvti Enc.cvti (·.m.fmtD.ty) (fun _ => .n32) convTy (fun x a _ _ =>
    (BitVec.ofInt (convTy x).bits (floatToInt (convTy x) (rndOf x) (x.m.fmtD.decode a))).toNat) ∧
  PatRule Instr.cvtf Enc.cvtf convTy (fun _ => .n32) (·.m.fmtD.ty) (fun x a _ _ =>
    (FVal.ofInt false (intOf (convTy x) (BitVec.ofNat (convTy x).bits a)) 0).encode x.m.fmtD (rndOf x)) ∧
  (∀ (s : State) (env : Env) (x : Args), Ready s env Enc.cvt x → 2 ≤ env.co.rows → env.co.rows ≤ 4096 →
    ∃ u, exec (.cvt x) s = .next u ∧
      Wrote s u env x x.m.fmtD.ty (fun l =>
        let a := s.lane env x (convTy x) x.a l
        let d := s.lane env x .n32 x.d l
        match (convTy x).fmt? with
        | some src => convFloat src x.m.fmtD (rndOf x) (nbit x.b.ctl 5) a
        | none => (groupVal (d % 65536) a (d / 65536 % 256)).encode x.m.fmtD (rndOf x)) ∧
      RegisterFrame s u env x.m.fmtD.ty x.d)

/-- R92 to R94: comparisons, predicate logic and votes complete with their truth value in the acting lanes of predicate D. -/
def Obligations.PredicateResults : Prop :=
  (∀ r ∈ ([
    (Instr.setpEq, Enc.setpEq, Cond.eq, fun a b => decide (a = b)),
    (Instr.setpNe, Enc.setpNe, Cond.ne, fun a b => decide (a ≠ b)),
    (Instr.setpLt, Enc.setpLt, Cond.lt, fun a b => decide (a < b)),
    (Instr.setpLe, Enc.setpLe, Cond.le, fun a b => decide (a ≤ b)),
    (Instr.setpGt, Enc.setpGt, Cond.gt, fun a b => decide (b < a)),
    (Instr.setpGe, Enc.setpGe, Cond.ge, fun a b => decide (b ≤ a)),
    (Instr.setpUn, Enc.setpUn, Cond.un, fun _ _ => false),
    (Instr.setpNum, Enc.setpNum, Cond.num, fun _ _ => true)] : List ((Args → Instr) × Entry × Cond × (Int → Int → Bool))),
    PredRule r.1 r.2.1 (fun s env x l =>
      let t := x.m.tyD
      match t.fmt? with
      | none => r.2.2.2 (intOf t (s.bitsOf env x t x.a l)) (intOf t (s.bitsOf env x t x.b l))
      | some f =>
        let a := f.decode (s.lane env x t x.a l)
        let b := f.decode (s.lane env x t x.b l)
        if a.isNan || b.isNan then r.2.2.1 == .ne || r.2.2.1 == .un else r.2.2.1.onOrder (FVal.cmp a b))) ∧
  (∀ r ∈ ([
    (Instr.pand, Enc.pand, fun q r => q && r),
    (Instr.por, Enc.por, fun q r => q || r),
    (Instr.pxor, Enc.pxor, fun q r => q ^^ r),
    (Instr.pnot, Enc.pnot, fun q _ => !q)] : List ((Args → Instr) × Entry × (Bool → Bool → Bool))),
    PredRule r.1 r.2.1 (fun _ env x l => decide (l < 64) && r.2.2 ((env.co.pred x.a.num).getLsbD l) ((env.co.pred x.b.num).getLsbD l))) ∧
  PredRule Instr.pmov Enc.pmov (fun _ env x l =>
    match x.a, x.b with
    | .imm v, _ => decide (l < 64) && v.getLsbD 0
    | a, .zero => (env.co.pred a.num).getLsbD l
    | a, _ => (env.co.scalar a.num).getLsbD l) ∧
  (∀ r ∈ ([
    (Instr.voteAny, Enc.voteAny, fun C q => (lanesOf C).any (fun l => q.getLsbD l)),
    (Instr.voteAll, Enc.voteAll, fun C q => (lanesOf C).all (fun l => q.getLsbD l)),
    (Instr.voteUniform, Enc.voteUniform, fun C q =>
      (lanesOf C).all (fun l => q.getLsbD l) || (lanesOf C).all (fun l => !q.getLsbD l))]
      : List ((Args → Instr) × Entry × (LaneMask → LaneMask → Bool))),
    PredRule r.1 r.2.1 (fun _ env x l =>
      decide (l < 64) && ((env.acting x).getLsbD l && r.2.2 (env.acting x) (env.co.pred x.a.num)))) ∧
  (∀ (s : State) (env : Env) (x : Args) (n : BitVec 6), Ready s env Enc.ballot x → x.d = .reg n →
    ∃ u, exec (.ballot x) s = .next u ∧
      Wrote s u env x .b64 (fun _ => (env.acting x &&& env.co.pred x.a.num).toNat) ∧ RegisterFrame s u env .b64 x.d)

/-- R95: perm gathers the value of lane b of A, b read as an unsigned 32-bit index, and 0 where the index is 64 or more. -/
def Obligations.PermGathers : Prop :=
  ∀ (s : State) (env : Env) (x : Args), Ready s env Enc.perm x → 2 ≤ env.co.rows → env.co.rows ≤ 4096 →
    ∃ u, exec (.perm x) s = .next u ∧
      Wrote s u env x x.m.tyD (fun l =>
        if s.lane env x .n32 x.b l < 64 then s.lane env x x.m.tyD x.a (s.lane env x .n32 x.b l) else 0) ∧
      RegisterFrame s u env x.m.tyD x.d

/-- R96 and R97: lred and lscan complete. The contributors are the acting members; each acting member gets the tree's result for its lane and every other
acting lane its own input; the predicate pair says whether anyone contributed and whether the member mask names an exited lane; without a contributor
%kst.Z is set. R101 to R103: xred forms its reduction at issue and starts an operation; when it completes, xr takes the value with its two status
bits, its sequence number advances, and the operation is gone. xget ends the run and waits for a sequence number; xput copies xr. -/
def Obligations.ReductionResults : Prop :=
  (∀ r ∈ ([(Instr.lred, Enc.lred, lredTree), (Instr.lscan, Enc.lscan, lscanTree)]
      : List ((Args → Instr) × Entry × ((Nat → Nat → Nat) → List Nat → List Nat))),
    ∀ (s : State) (env : Env) (x : Args), Ready s env r.2.1 x →
      let ty := x.m.tyD
      let members := if bits x.b.ctl 10 6 = 63 then BitVec.allOnes 64 else env.co.scalar (bits x.b.ctl 10 6)
      let C := members &&& env.acting x
      let out := r.2.2 (redStep ty (bits x.b.ctl 0 4))
        (lanes64.map (fun l => if C.getLsbD l then s.lane env x ty x.a l else redIdentity ty (bits x.b.ctl 0 4)))
      let vals := (env.runs x).map (fun l => (l, if members.getLsbD l then out.getD l 0 else s.lane env x ty x.a l))
      exec (r.1 x) s = .next
        ((((s.tick.put env ty x.d vals).putFlagPair env (bits x.b.ctl 4 6) (env.acting x) members (decide (C ≠ 0))
            (decide (members &&& env.co.exited ≠ 0))).stickZ env.cid C).complete env r.2.1 x {})) ∧
  ((∀ (s : State) (env : Env) (x : Args), Ready s env Enc.xred x →
    let ty := x.m.tyD
    let C := env.contributors x
    let v := (lredTree (redStep ty (bits x.b.ctl 0 4)) (redInputs x env s)).getD 0 0
    exec (.xred x) s = .next (((s.tick.stickZ env.cid C).addOp env x
      (.xred (BitVec.ofNat 64 (ty.extend 64 v)) (decide (C ≠ 0)) (env.exitedMember x))).complete env Enc.xred x {})) ∧
  (∀ (s : State) (op cid : Nat) (o : Op) (c : Course) (v : Word) (ne ex : Bool), s.ops.find op = some o → o.cid = some cid →
    o.kind = .xred v ne ex → s.firstXred cid = some op → s.mayLand o = true → s.courses.find cid = some c →
    exec (.xredComplete op) s = .next ((s.inRecord cid (fun s => s.modCourse cid (fun c =>
      { c with xr := v, ne := ne, ex := ex, xseq := c.xseq + 1, xPoison := false }))).finishOp op) ∧
    (c.saved = false → exec (.xredComplete op) s = .next
      ((s.setCourse cid { c with xr := v, ne := ne, ex := ex, xseq := c.xseq + 1, xPoison := false }).finishOp op))) ∧
  (∀ (s : State) (env : Env) (x : Args) (d : BitVec 6) (p : Option (BitVec 6)), Ready s env Enc.xget x → env.acting x ≠ 0 →
    x.d = .reg d → x.b = (match p with | some n => .reg n | none => .zero) →
    exec (.xget x) s = .next (s.tick.complete env Enc.xget x
      { wait := .xget d (BitVec.ofNat 32 (env.val x .n32 x.a)) p (env.acting x) })) ∧
  (∀ (s : State) (env : Env) (x : Args), Ready s env Enc.xput x → env.co.xPoison = false → 2 ≤ env.co.rows → env.co.rows ≤ 4096 →
    ∃ u, exec (.xput x) s = .next u ∧
      Wrote s u env x x.m.tyD (fun _ => env.co.xr.toNat % 2 ^ x.m.tyD.bits) ∧ RegisterFrame s u env x.m.tyD x.d))

/-- R97: the log-step reduction of an associative and commutative step gives every lane the combination of all 64 inputs. R97: the log-step scan of an
associative step gives lane l the combination of the inputs of lanes 0 to l, in order. -/
def Obligations.LogStepTrees : Prop :=
  (∀ (f : Nat → Nat → Nat), (∀ a b, f a b = f b a) → (∀ a b c, f (f a b) c = f a (f b c)) →
    ∀ (g : Nat → Nat) (l : Nat), l < 64 →
      (lredTree f ((List.range 64).map g)).getD l 0 = (List.range 63).foldl (fun a i => f a (g (i + 1))) (g 0)) ∧
  (∀ (f : Nat → Nat → Nat), (∀ a b c, f (f a b) c = f a (f b c)) →
    ∀ (g : Nat → Nat) (l : Nat), l < 64 →
      (lscanTree f ((List.range 64).map g)).getD l 0 = (List.range l).foldl (fun a i => f a (g (i + 1))) (g 0))

/-- R98, R99 and R30: the Kulisch entries complete. kclr zeroes the accumulator and keeps %kst; kadd and kmac add the values and exact products of the
lanes that act, ascending (once, when no source is a vector); kscan returns each exact prefix rounded once; krd reads the accumulator out under its
status and leaves it. The order in which lanes add is the model's choice (log entry 103). -/
def Obligations.KulischResults : Prop :=
  ∀ (s : State) (env : Env) (x : Args),
    let k := env.co.kul
    let f := x.m.tyD.fmt?.getD .f64
    (Ready s env Enc.kclr x → env.acting x ≠ 0 →
      exec (.kclr x) s = .next ((s.tick.setKul env.cid { acc := 0, st := env.co.kst }).complete env Enc.kclr x {})) ∧
    (Ready s env Enc.kadd x → exec (.kadd x) s = .next
      (((s.tick.setKul env.cid ((env.addends x).foldl (fun k l => k.add (f.decode (s.lane env x x.m.tyD x.a l))) k)).stickZ
        env.cid (env.acting x)).complete env Enc.kadd x {})) ∧
    (Ready s env Enc.kmac x → exec (.kmac x) s = .next
      (((s.tick.setKul env.cid ((env.addends x).foldl (fun k l =>
        let fm := x.m.tyD.fmt?.getD .f32
        k.mac (fm.decode (s.lane env x x.m.tyD x.a l)) (fm.decode (s.lane env x x.m.tyD x.b l))) k)).stickZ
        env.cid (env.acting x)).complete env Enc.kmac x {})) ∧
    (Ready s env Enc.kscan x → exec (.kscan x) s = .next
      ((((s.tick.put env .f64 x.d
        ((lanesOf (env.acting x)).foldl (fun (a : Kul × List (Nat × Nat)) l =>
          let k := a.1.add (Fmt.f64.decode (s.lane env x .f64 x.a l))
          (k, a.2 ++ [(l, k.readOut .f64 .rn)])) (k, [])).2).setKul env.cid
        ((lanesOf (env.acting x)).foldl (fun k l => k.add (Fmt.f64.decode (s.lane env x .f64 x.a l))) k)).stickZ
        env.cid (env.acting x)).complete env Enc.kscan x {})) ∧
    (Ready s env Enc.krd x → 2 ≤ env.co.rows → env.co.rows ≤ 4096 →
      ∃ u, exec (.krd x) s = .next u ∧
        Wrote s u env x x.m.fmtD.ty (fun _ => k.readOut x.m.fmtD (rndOf x)) ∧ RegisterFrame s u env x.m.fmtD.ty x.d)

/-- R98: adding a finite value to the accumulator is exact: while the sum stays in range, the accumulator's integer moves by the value in units of 2^-1074
and no sticky bit changes. -/
def Obligations.KulischAddIsExact : Prop :=
  ∀ (f : Fmt) (n : Nat) (k : Kul) (neg : Bool) (m : Nat) (e : Int), f.decode n = .fin neg m e →
    let v : Int := (if neg then -1 else 1) * m * 2 ^ (e + 1074).toNat
    0 ≤ k.acc.toInt + v + 2 ^ 2175 → k.acc.toInt + v < 2 ^ 2175 →
      (k.add (f.decode n)).acc.toInt = k.acc.toInt + v ∧ (k.add (f.decode n)).st = k.st

/-- R72 and R73: the structured-control instructions complete inside the depths the spec allows. if opens a region: a lane of F that was parked goes one
deeper, and one that was active parks where its guard is false. else swaps the active lanes of F and those parked at level 1 without a break bit.
endif and loop close and open a level. break and cont park the acting lanes for n levels and set X (and K for cont). R73: endloop revives the
continuing lanes of F, and goes round to its target while a lane of F is active; otherwise it closes the loop as endif closes a region and goes on. -/
def Obligations.StructuredControl : Prop :=
  (∀ (s : State) (env : Env) (x : Args),
    let c := fun l => cOf env.co.c l
    let inF := fun l => env.F.getLsbD l
    let acts := fun l => (env.acting x).getLsbD l
    (Ready s env Enc.ifRegion x → env.pa.d ≠ 255 → ∃ u, exec (.ifRegion x) s = .next u ∧
      CtlAfter u env (fun l => if inF l then (if 0 < c l then c l + 1 else if (env.co.guard x.g).getLsbD l then 0 else 1) else c l)
        env.co.x env.co.k (env.pa.d + 1)) ∧
    (Ready s env Enc.elseRegion x → env.pa.d ≠ 0 → ∃ u, exec (.elseRegion x) s = .next u ∧
      CtlAfter u env (fun l => if inF l then (if c l = 0 then 1 else if c l = 1 ∧ !env.co.x.getLsbD l then 0 else c l) else c l)
        env.co.x env.co.k env.pa.d) ∧
    (Ready s env Enc.endifRegion x → env.pa.d ≠ 0 → ∃ u, exec (.endifRegion x) s = .next u ∧
      CtlAfter u env (fun l => if inF l then c l - 1 else c l)
        (env.co.x &&& ~~~(maskOf (fun l => inF l && c l == 1))) env.co.k (env.pa.d - 1)) ∧
    (Ready s env Enc.loopRegion x → env.pa.d ≠ 255 → ∃ u, exec (.loopRegion x) s = .next u ∧
      CtlAfter u env (fun l => if inF l ∧ 0 < c l then c l + 1 else c l) env.co.x env.co.k (env.pa.d + 1)) ∧
    (∀ n : BitVec 5, Ready s env Enc.breakRegion x → x.m = .num n → n.toNat ≤ env.pa.d → ∃ u, exec (.breakRegion x) s = .next u ∧
      CtlAfter u env (fun l => if acts l then n.toNat else c l) (env.co.x ||| env.acting x) env.co.k env.pa.d) ∧
    (∀ n : BitVec 16, Ready s env Enc.contRegion x → x.a = .imm n → n.toNat ≤ env.pa.d → ∃ u, exec (.contRegion x) s = .next u ∧
      CtlAfter u env (fun l => if acts l then n.toNat else c l) (env.co.x ||| env.acting x) (env.co.k ||| env.acting x) env.pa.d)) ∧
  (∀ (s : State) (env : Env) (x : Args), Ready s env Enc.endloopRegion x → env.pa.d ≠ 0 →
    let c := fun l => cOf env.co.c l
    let back := maskOf (fun l => env.F.getLsbD l && (env.co.k.getLsbD l && c l == 1))
    let c2 := fun l => if back.getLsbD l then 0 else c l
    ((∃ l, l < 64 ∧ env.F.getLsbD l = true ∧ c2 l = 0) → s.target env.co.core env.co.ctx env.pa.ovl x.a.ctl = .ok →
      ∃ u q, exec (.endloopRegion x) s = .next u ∧ CtlAfter u env c2 (env.co.x &&& ~~~back) (env.co.k &&& ~~~back) env.pa.d ∧
        u.path env.cid env.p = some q ∧ (q.ovl, q.idx) = (env.pa.ovl, x.a.ctl)) ∧
    ((∀ l, l < 64 → env.F.getLsbD l = true → c2 l ≠ 0) →
      ∃ u q, exec (.endloopRegion x) s = .next u ∧
        CtlAfter u env (fun l => if env.F.getLsbD l then c2 l - 1 else c2 l)
          ((env.co.x &&& ~~~back) &&& ~~~(maskOf (fun l => env.F.getLsbD l && c2 l == 1))) (env.co.k &&& ~~~back) (env.pa.d - 1) ∧
        u.path env.cid env.p = some q ∧ (q.ovl, q.idx) = (env.pa.ovl, env.pa.idx + 1)))

/-- R74 and R75: a taken br or brx completes at its target when the target is a run start of a resident overlay; with no acting lane it goes on; another
target is its trap; nop goes on. -/
def Obligations.BranchesComplete : Prop :=
  (∀ r ∈ ([(Instr.br, Enc.br), (Instr.brx, Enc.brx)] : List ((Args → Instr) × Entry)),
    ∀ (s : State) (env : Env) (x : Args), Ready s env r.2 x →
      (env.acting x = 0 → exec (r.1 x) s = .next (s.tick.complete env r.2 x {})) ∧
      (env.acting x ≠ 0 → s.target env.co.core env.co.ctx (env.targetOf x.a x.b).1 (env.targetOf x.a x.b).2 = .ok →
        exec (r.1 x) s = .next (s.tick.complete env r.2 x { go := some (env.targetOf x.a x.b) })) ∧
      (∀ tr, env.acting x ≠ 0 → s.target env.co.core env.co.ctx (env.targetOf x.a x.b).1 (env.targetOf x.a x.b).2 = .bad tr →
        exec (r.1 x) s = .next (s.tick.trapHere env tr))) ∧
  (∀ (s : State) (env : Env) (x : Args), Ready s env Enc.nop x →
    exec (.nop x) s = .next (s.tick.complete env Enc.nop x {}))

/-- R77: a path demoted by `yield` has class −1, and its `%prio` otherwise. The demotion ends when the sibling has completed 64 runs, when the sibling's
slot becomes empty, and when the path executes `prio`; a path taken from the path stack starts undemoted. -/
def Obligations.YieldDemotion : Prop :=
  (∀ (q : Path), (q.demoted ≠ none → q.cls = -1) ∧ (q.demoted = none → q.cls = q.prio)) ∧
  (∀ (s : State) (env : Env) (x : Args), Ready s env Enc.yield x → ∃ u q, exec (.yield x) s = .next u ∧ u.path env.cid env.p = some q ∧
    q.demoted = if (env.co.paths.find (1 - env.p)).isSome then some 0 else env.pa.demoted) ∧
  (∀ (c : Course) (p : Nat) (q : Path), c.paths.find (1 - p) = some q → q.demoted = some 0 →
    (∀ k, k < 64 → ((Nat.iterate (fun (c : Course) => c.runDone p) k c).paths.find (1 - p)).map (·.demoted) = some (some k)) ∧
    ((Nat.iterate (fun (c : Course) => c.runDone p) 64 c).paths.find (1 - p)).map (·.demoted) = some none) ∧
  (∀ (s : State) (cid p fuel : Nat) (c u : Course), (s.dropPath cid p).courses.find cid = some c →
    (∀ i, i < c.stack → ((s.dropPath cid p).stackEntry c i).kind ≠ 0 ∨ ((s.dropPath cid p).stackEntry c i).mask = 0) →
    (s.freeSlot (fuel + 1) cid p).courses.find cid = some u → ∀ e ∈ u.paths, e.2.demoted = none) ∧
  (∀ (s : State) (env : Env) (x : Args) (n : BitVec 5), Ready s env Enc.prio x → x.m = .num n → env.acting x ≠ 0 →
    ∃ u q, exec (.prio x) s = .next u ∧ u.path env.cid env.p = some q ∧ q.prio = n.toNat ∧ q.demoted = none ∧ q.cls = n.toNat) ∧
  (∀ (s : State) (c : Course) (i : Nat) (e : PEntry), (s.fromStack c i e).demoted = none)

/-- R75, R78, R108 and R332: a call whose target is good, whose depth is below 1,023 and whose window stays resident writes the frame records of the
active lanes and enters the frame, n units up. callv does the same for one target. -/
def Obligations.CallsEnterFrames : Prop :=
  (∀ (s t : State) (env : Env) (x : Args) (n : BitVec 5), Ready s env Enc.call x → env.acting x ≠ 0 → x.m = .num n →
    let dst := env.targetOf x.a x.b
    let lwb := env.pa.lwb + 4 * n.toNat
    s.target env.co.core env.co.ctx dst.1 dst.2 = .ok → env.pa.depth ≠ 1023 → env.co.windowTrap lwb = none →
    s.tick.enterFrame env.co (env.pa.depth + 1) lwb
      { mask := env.pa.fmask.toNat, ovl := env.pa.ovl, idx := env.pa.idx + 1, d := env.pa.d, units := n.toNat, kind := 0,
        marked := false, mark := 0 } (lanesOf env.active) = .ok t →
    exec (.call x) s = .next ((t.setPath env.cid env.p
      { env.pa with fmask := env.active, d := 0, lwb := lwb, depth := env.pa.depth + 1 }).complete env Enc.call x { go := some dst })) ∧
  (∀ (s t : State) (env : Env) (x : Args) (n : BitVec 5) (v : Nat) (m : LaneMask), Ready s env Enc.callv x → x.m = .num n →
    groupBy (fun l => s.lane env x .n32 x.a l) (lanesOf (env.acting x)) = [(v, m)] →
    let dst := (v / 65536 % 65536, v % 65536)
    let lwb := env.pa.lwb + 4 * n.toNat
    s.target env.co.core env.co.ctx dst.1 dst.2 = .ok → env.pa.depth ≠ 1023 → env.co.windowTrap lwb = none →
    s.tick.enterFrame env.co (env.pa.depth + 1) lwb
      { mask := env.pa.fmask.toNat, ovl := env.pa.ovl, idx := env.pa.idx + 1, d := env.pa.d, units := n.toNat, kind := 0,
        marked := false, mark := 0 } (lanesOf env.active) = .ok t →
    exec (.callv x) s = .next ((t.setPath env.cid env.p
      { env.pa with fmask := env.active, d := 0, lwb := lwb, depth := env.pa.depth + 1 }).complete env Enc.callv x { go := some dst }))

/-- R75, R108 and R332: ret of a frame entered by call gives back the caller's frame mask, region depth, window and code address, and clears the counters
of the lanes it returns; ret of the launch frame exits its lanes. -/
def Obligations.ReturnsLeaveFrames : Prop :=
  (∀ (s t : State) (env : Env) (x : Args) (r : Frame) (w : Nat) (c : Course), Ready s env Enc.ret x → env.acting x ≠ 0 →
    s.tick.frameAt env.co env.pa.depth (lowLane env.pa.fmask) = .ok r →
    s.tick.privRead env.co (depthOff (lowLane env.pa.fmask)) 8 = .ok w →
    env.pa.depth ≠ 0 → r.kind = 0 → s.isResumption env.co = false →
    s.target env.co.core env.co.ctx r.ovl r.idx = .ok → env.co.windowTrap (env.pa.lwb - 4 * r.units) = none →
    s.tick.putDepth env.co (env.pa.depth - 1) (env.pa.lwb - 4 * r.units)
      (lanesOf (BitVec.ofNat 64 r.mask &&& env.pa.lanes)) = .ok t →
    t.courses.find env.cid = some c →
    let c' := (c.clearLanes env.pa.fmask).closeAt env.pa.depth
    let q' : Path := { env.pa with fmask := BitVec.ofNat 64 r.mask &&& env.pa.lanes, d := r.d, lwb := env.pa.lwb - 4 * r.units,
                                   depth := env.pa.depth - 1,
                                   ent := env.pa.ent.filter (fun e => e.1 < regionKey env.pa.depth 0) }
    exec (.ret x) s = .next ((t.setCourse env.cid { c' with paths := c'.paths.put env.p q' }).complete env Enc.ret x
      { go := some (r.ovl, r.idx) })) ∧
  (∀ (s : State) (env : Env) (x : Args) (r : Frame) (w : Nat), Ready s env Enc.ret x → env.acting x ≠ 0 →
    s.tick.frameAt env.co 0 (lowLane env.pa.fmask) = .ok r → s.tick.privRead env.co (depthOff (lowLane env.pa.fmask)) 8 = .ok w →
    env.pa.depth = 0 → env.pa.lanes &&& ~~~(env.co.exited ||| env.pa.fmask) ≠ 0 →
    let c := env.co.clearLanes env.pa.fmask
    exec (.ret x) s = .next ((((s.tick.setCourse env.cid c).setCourse env.cid
      { c with exited := env.co.exited ||| env.pa.fmask }).exitEvents env c
        (env.pa.fmask &&& ~~~env.co.exited)).complete env Enc.ret x {}))

/-- R75: exit marks the acting lanes exited; while the path has living lanes it goes on, and when none is left the path ends. -/
def Obligations.ExitMarksLanes : Prop :=
  ∀ (s : State) (env : Env) (x : Args), Ready s env Enc.exit x → env.acting x ≠ 0 →
    let m := env.acting x
    let t := (s.tick.setCourse env.cid { env.co with exited := env.co.exited ||| m }).exitEvents env env.co (m &&& ~~~env.co.exited)
    (env.pa.lanes &&& ~~~(env.co.exited ||| m) ≠ 0 → exec (.exit x) s = .next (t.complete env Enc.exit x {})) ∧
    (env.pa.lanes &&& ~~~(env.co.exited ||| m) = 0 →
      exec (.exit x) s = .next ((t.endPath env.cid env.p).complete env Enc.exit x { gone := true }))

/-- R67 and R68: srd reads a special register that may be named into the acting lanes; swr writes one: %kst, %mst and %clamped are cleared by the ones
written, %sig takes the value and no update of its own. -/
def Obligations.SpecialRegisters : Prop :=
  (∀ (s : State) (env : Env) (x : Args), Ready s env Enc.srd x → 2 ≤ env.co.rows → env.co.rows ≤ 4096 →
    s.specialOk env x.a.num x.b = true →
    ∃ u, exec (.srd x) s = .next u ∧
      Wrote s u env x (if wideSpecial x.a.num then .n64 else .n32) (fun l => s.tick.special env x.a.num x.b l) ∧
      RegisterFrame s u env (if wideSpecial x.a.num then .n64 else .n32) x.d) ∧
  (∀ (s : State) (env : Env) (x : Args), Ready s env Enc.swr x → s.specialOk env x.d.num x.b = true → env.acting x ≠ 0 →
    let v : Word := BitVec.ofNat 64 (env.val x .b64 x.a)
    (x.d.num = 0x0A → ∃ u c, exec (.swr x) s = .next u ∧ u.courses.find env.cid = some c ∧ c.kst = env.co.kst &&& ~~~v) ∧
    (x.d.num = 0x0B → ∃ u c, exec (.swr x) s = .next u ∧ u.courses.find env.cid = some c ∧ c.sig = v.setWidth 32) ∧
    (x.d.num = 0x0D → ∃ u, exec (.swr x) s = .next u ∧
      (u.tile (env.tileKey x.b)).mst = (s.tile (env.tileKey x.b)).mst &&& ~~~(v.setWidth 32)) ∧
    (x.d.num = 0x11 → ∃ u c, exec (.swr x) s = .next u ∧ u.courses.find env.cid = some c ∧
      c.clamped = (env.co.clamped && !v.getLsbD 0))) ∧
  (∀ (s : State) (env : Env) (x : Args), Ready s env Enc.swr x → s.specialOk env x.d.num x.b = false →
    exec (.swr x) s = .next (s.tick.trapHere env Trap.field))

/-- R110 and R113 to R124: windows and stack slices; each instruction here completes on the states that its rule's checks admit, and leaves what is
stated. mark writes its id in every lane of the frame mask's records; wflush, whose moves stay within the rows and whose rows' pages take the
accesses, registers the spill rows it moves and starts an operation, which stores the rows that leave the span, loads those that enter it and moves
LO; cut and graft, where no cause of R118 or R119 exists, start a copy, and commit as one step when it completes; a slice that its context owns and
that is LIVE becomes DROPPING at once, and FREE with the next generation when no graft still reads it. When windows are checked, and rows below 0,
follow readings of the spec, and the order of checks over several groups is the model's choice (log entries 29, 80 and 99). -/
def Obligations.WindowsAndSlices : Prop :=
  (∀ (s : State) (env : Env) (x : Args), Ready s env Enc.mark x → env.acting x ≠ 0 →
    let off (l : Nat) : Nat := frameOff env.pa.depth l + 8
    let all := (lanesOf env.pa.fmask).foldlM (m := Except Trap) (fun (s : State) l => do
      let w ← s.privRead env.co (off l) 8
      s.privWrite env.co (off l) 8 (setBits w 0 17 (2 ^ 16 + x.a.ctl))) s.tick
    (all.isOk = true → ∃ t, all = .ok t ∧ exec (.mark x) s = .next (t.complete env Enc.mark x {})) ∧
    (∀ l a b, lanesOf env.pa.fmask = [l] → s.tick.privAt env.co (off l) 8 false = .ok a → s.tick.poisonedAs (env.co.priv + off l) a 8 = none →
      s.tick.privAt env.co (off l) 8 true = .ok b →
      exec (.mark x) s = .next ((s.tick.pokeNat b 8 (setBits (s.tick.peekNat a 8) 0 17 (2 ^ 16 + x.a.ctl))).complete env Enc.mark x {}))) ∧
  (∀ (s : State) (env : Env) (x : Args), Ready s env Enc.wflush x → env.acting x ≠ 0 →
    let k0 := toInt 32 (env.val x .i32 x.a)
    let k := if k0 = 0 then s.tick.pendingWindow env else k0
    let lo := (env.co.lo : Int) + s.tick.pendingMove env.cid
    let out := leaveRows lo env.co.rows (lo + k)
    let inn := leaveRows (lo + k) env.co.rows lo
    let at_ (w : Bool) (L : Int) : Nat × Nat := ((s.tick.privAt env.co (spillOff L.toNat) 256 w).toOption.getD 0, 256)
    (k0.natAbs : Int) ≤ env.co.rows →
    (∀ L ∈ out, 0 ≤ L ∧ (s.tick.privAt env.co (spillOff L.toNat) 256 true).isOk = true) →
    (∀ L ∈ inn, 0 ≤ L ∧ (s.tick.privAt env.co (spillOff L.toNat) 256 false).isOk = true) →
    exec (.wflush x) s = .next (((s.tick.addOp env x (.wflush k)).lockRanges s.nextId false
      (lockPieces true (joinRanges (out.map (at_ true) ++ inn.map (at_ false))))).complete env Enc.wflush x {})) ∧
  (∀ (s : State) (op cid : Nat) (o : Op) (c : Course) (k : Int), s.ops.find op = some o → o.kind = .wflush k → o.cid = some cid →
    s.courses.find cid = some c →
    let out := leaveRows c.lo c.rows (c.lo + k)
    let inn := leaveRows (c.lo + k) c.rows c.lo
    let at_ (w : Bool) (L : Int) : Nat × Nat := ((s.privAt c (spillOff L.toNat) 256 w).toOption.getD 0, 256)
    (∀ L ∈ out, 0 ≤ L ∧ (s.privAt c (spillOff L.toNat) 256 true).isOk = true) →
    (∀ L ∈ inn, 0 ≤ L ∧ (s.privAt c (spillOff L.toNat) 256 false).isOk = true) →
    (∀ q ∈ s.opsOf cid, q.1 < op → ∀ j, q.2.kind ≠ .wflush j) → s.mayLand o = true →
    s.engineReady op o (inn.map (at_ false)) (out.map (at_ true)) = true →
    let s1 := out.foldl (fun s L => s.spillOut c L.toNat (s.rowOut c L.toNat).1 (s.rowOut c L.toNat).2) s
    let s2 := (inn.map (fun L => (L.toNat, s1.rowOut c L.toNat))).foldl (fun s d => s.rowIn { c with lo := (c.lo + k).toNat } d.1 d.2.1 d.2.2) s1
    let s3 := match s2.courses.find cid with | some d => s2.setCourse cid { d with lo := ((c.lo : Int) + k).toNat } | none => s2
    exec (.wflushComplete op) s = .next (((s3.privTry c 0x102200 8 (c.lo + k).toNat).unlock op).finishOp op)) ∧
  (∀ (s : State) (env : Env) (x : Args), Ready s env Enc.cut x → env.acting x ≠ 0 →
    (s.tick.cutRun env.cid env.p env.pa (BitVec.ofNat 6 x.d.num) x.a.ctl env.pa.ovl (env.pa.idx + 1)).isOk = true →
    ∃ pl, s.tick.cutPlan env.co env.pa x.a.ctl = .ok pl ∧
      exec (.cut x) s = .next (((s.tick.addSilent env (.slice (.cut (BitVec.ofNat 6 x.d.num) x.a.ctl))).lockRanges s.nextId false
        (lockPieces true (s.tick.cutRanges env.co pl))).complete env Enc.cut x { wait := .copy s.nextId env.pa.run })) ∧
  (∀ (s : State) (env : Env) (x : Args), Ready s env Enc.graft x → env.acting x ≠ 0 →
    let gs := groupBy (fun l => s.lane env x .n64 x.a l) (lanesOf (env.acting x))
    let r := s.tick.graftRun env gs true env.pa.ovl (env.pa.idx + 1)
    (r.toOption.join.isSome = true →
      exec (.graft x) s = .next (((s.tick.addSilent env (.slice (.graft (gs.map (fun g => (BitVec.ofNat 64 g.1, g.2)))))).lockRanges s.nextId false
        (lockPieces true (s.tick.graftRanges env gs))).complete env Enc.graft x { wait := .copy s.nextId env.pa.run })) ∧
    (r = .ok none → exec (.graft x) s = .next (s.tick.complete env Enc.graft x {}))) ∧
  (∀ (s : State) (op cid : Nat) (o : Op) (c : Course) (q : Path) (run : Option Run), s.ops.find op = some o → o.cid = some cid →
    s.courses.find cid = some c → c.saved = false → c.paths.find o.path = some q → q.wait = .copy op run →
    s.mayLand o = true → s.engineReady op o [] (s.ownRanges op) = true →
    (∀ (d : BitVec 6) (m : Nat), o.kind = .slice (.cut d m) →
      let r := s.cutRun cid o.path { q with wait := .nothing } d m o.ovl (o.idx + 1)
      r.isOk = true → ∃ t, r = .ok t ∧ exec (.sliceCopyComplete op) s = .next ((t.unlock op).finishOp op)) ∧
    (∀ (l : List (Word × LaneMask)), o.kind = .slice (.graft l) →
      let env : Env := { slot := c.slot, cid := cid, p := o.path, co := c, pa := q }
      let r := s.graftRun env (l.map (fun g => (g.1.toNat, g.2))) false o.ovl (o.idx + 1)
      r.toOption.join.isSome = true → ∃ t, r = .ok (some t) ∧ exec (.sliceCopyComplete op) s = .next (((t.unlock op).finishOp op).graftDone env))) ∧
  (∀ (s : State) (env : Env) (x : Args) (v : Nat), Ready s env Enc.sliceDrop x → env.acting x ≠ 0 →
    let w := env.co.scalar x.a.num
    let h := Handle.ofWord w
    h.part = s.partOf env.co.ctx → h.ctx = env.co.ctx → s.tick.sliceWord env.co.core h 1 = .ok v → sliceGen v = h.gen → sliceState v = 1 →
    exec (.sliceDrop x) s = .next (((s.tick.putSliceWord env.co.core h 1 (sliceWord1 h.gen 3)).addOp env x
      (.sliceDrop w)).complete env Enc.sliceDrop x {})) ∧
  (∀ (s : State) (op : Nat) (o : Op) (w : Word) (cid : Nat) (c : Course), s.ops.find op = some o → o.kind = .sliceDrop w → o.cid = some cid →
    s.courses.find cid = some c → s.grafting w = false → (s.freeSliceEntry c.core (Handle.ofWord w)).isOk = true →
    ∃ t, s.freeSliceEntry c.core (Handle.ofWord w) = .ok t ∧ exec (.sliceDropComplete op) s = .next (t.finishOp op))

/-- R130 to R135: a load, store or atomic whose lanes pass every check of R132 and whose lines are all present completes issue and starts one operation,
which carries the accesses with their operand values; with no acting lane it starts an operation that does nothing. A check that fails raises its
trap, and absent lines park the path (R128). -/
def Obligations.MemoryInstructionsStart : Prop :=
  ∀ r ∈ ([(Instr.ld, Enc.ld, MemOp.ld), (Instr.st, Enc.st, MemOp.st), (Instr.atomAdd, Enc.atomAdd, MemOp.add),
    (Instr.atomMin, Enc.atomMin, MemOp.min), (Instr.atomMax, Enc.atomMax, MemOp.max), (Instr.atomAnd, Enc.atomAnd, MemOp.and),
    (Instr.atomOr, Enc.atomOr, MemOp.or), (Instr.atomXor, Enc.atomXor, MemOp.xor), (Instr.atomXchg, Enc.atomXchg, MemOp.xchg),
    (Instr.atomCas, Enc.atomCas, MemOp.cas), (Instr.amaxp, Enc.amaxp, MemOp.amaxp)] : List ((Args → Instr) × Entry × MemOp)),
    ∀ (s : State) (env : Env) (x : Args), Ready s env r.2.1 x →
      let ty := x.m.tyD
      let checked := checkLanes x r.2.2.writes (ty.bits / 8) (ty.bits / 8) (memLanes x env) env s.tick
      (memLanes x env = [] → exec (r.1 x) s = .next ((s.tick.addOp env x .nothing).complete env r.2.1 x {})) ∧
      (∀ accs, memLanes x env ≠ [] → memWaits x env s.tick = false → checked = .ok accs → s.tick.absentLines accs = [] →
        ∃ j : MemJob, exec (r.1 x) s = .next
            (((s.tick.addOp env x (.mem j)).clampSys env (Scope.ofCode (BitVec.ofNat 3 (bits x.b.ctl 8 3)))).complete env r.2.1 x {}) ∧
          j.m = r.2.2 ∧ j.t = ty ∧ j.d = x.d ∧ j.got = [] ∧ j.bad = none ∧
          j.acq = nbit (bits x.b.ctl 11 2) 0 ∧ j.rel = nbit (bits x.b.ctl 11 2) 1 ∧
          j.todo.map (fun a => (a.lane, a.pa, a.n)) = accs.map (fun a => (a.lane, a.pa, a.n)) ∧
          (r.2.2 ≠ .ld → ∀ a ∈ j.todo, a.x = s.lane env x ty x.d a.lane)) ∧
      (∀ tr, memLanes x env ≠ [] → memWaits x env s.tick = false → checked = .error tr →
        exec (r.1 x) s = .next (s.tick.trapHere env tr)) ∧
      (∀ accs, memLanes x env ≠ [] → memWaits x env s.tick = false → checked = .ok accs → s.tick.absentLines accs ≠ [] →
        exec (r.1 x) s = .next ((s.tick.leaveSlot env.slot).setPath env.cid env.p
          { env.pa with wait := .lines (s.tick.absentLines accs) }))

/-- R133 to R135: what one access of a memory operation does, the word not being poisoned. A store leaves its operand; any other operation returns what
the address held, and an atomic leaves the new value its entry defines (amaxp by the order of R135). -/
def Obligations.AccessesReturnAndLeave : Prop :=
  ∀ (s : State) (j : MemJob) (a : Acc), s.poison = [] → j.t.bits / 8 ≤ a.n →
    let old := s.peekNat a.pa a.n
    (j.m = .st → (performAcc j s a).1.mem = s.store a.pa (toLe a.n a.x)) ∧
    (j.m = .ld → (performAcc j s a).1 = s ∧ (performAcc j s a).2.got = j.got ++ [(a.lane, old)]) ∧
    (j.m ≠ .st → j.m ≠ .ld →
      (performAcc j s a).2.got = j.got ++ [(a.lane, old)] ∧
      (performAcc j s a).1.mem = s.store a.pa (toLe a.n
        (match j.m with
         | .add => redStep j.t 0 old a.x
         | .min => redStep j.t 1 old a.x
         | .max => redStep j.t 2 old a.x
         | .and => old &&& a.x
         | .or => old ||| a.x
         | .xor => old ^^^ a.x
         | .cas => if old = a.x then a.y else old
         | .amaxp => if amaxKey old < amaxKey a.x then a.x else old
         | _ => a.x)))

/-- R157 and R16: after a store of one byte, the cell of its address holds the byte and every other byte of memory is as before; a store of several bytes,
no frame being retired, leaves byte i of the value at the i-th address and every byte outside as it was. R137: park reads its word once its checks
pass, and blocks the path while the word equals the expected value; a write to the word and the time-out each let it go on. R145, R153, R159, R160 and
R163: each fence completes issue and takes its place, with its scope and lanes, behind the operations issued before it; a fence that holds nothing
back has settled at once. An instruction that accesses memory behind a tfence that has not completed completes issue, with its flag raised, and waits
in the access queue with its operands as read; one that its operands alone make trap traps at once. An operation that waited for entries of the range-
lock table registers what it still has to. How far a scope acts is the model's choice (log entry 7). -/
def Obligations.StoresAndOrder : Prop :=
  ((∀ (s : State) (pa : Nat) (b : Byte),
    memByte (s.poke pa [b]).mem (s.cell pa) = b ∧ ∀ a, a ≠ s.cell pa → memByte (s.poke pa [b]).mem a = memByte s.mem a) ∧
  (∀ (s : State) (pa : Nat) (l : List Byte), s.pkg.frameMap = [] →
    (∀ i, i < l.length → memByte (s.poke pa l).mem (pa + i) = l.getD i 0) ∧
    ∀ a, (a < pa ∨ pa + l.length ≤ a) → memByte (s.poke pa l).mem a = memByte s.mem a)) ∧
  ((∀ (s : State) (env : Env) (x : Args) (a : Acc), Ready s env Enc.park x → env.acting x ≠ 0 →
    checkLanes x false 8 8 [64] env s.tick = .ok [a] → s.tick.absentLines [a] = [] → s.poison = [] →
    s.tick.accReady s.nextId env.cid { m := .ld, t := .n64, d := .zero, acq := false, rel := false, scope := .cw, lanes := env.acting x, so := a.kind == .so, array := none, todo := [a], got := [], whole := [], bad := none } a = true →
    exec (.park x) s = .next (s.tick.complete env Enc.park x
      { wait := if s.peekNat a.pa 8 = (env.co.scalar x.d.num).toNat then .park a.va a.pa (s.tick.time.clk + 65536) false else .nothing })) ∧
  (∀ (s : State) (cid p : Nat) (q : Path) (va pa limit : Nat), s.path cid p = some q → q.wait = .park va pa limit true →
    exec (.parkWake cid p) s = .next (s.setPath cid p { q with wait := .nothing })) ∧
  (∀ (s : State) (cid p : Nat) (q : Path) (va pa limit : Nat) (hit : Bool), s.path cid p = some q → q.wait = .park va pa limit hit →
    limit ≤ s.time.clk → exec (.parkTimeout cid p) s = .next (s.setPath cid p { q with wait := .nothing }))) ∧
  ((∀ r ∈ ([(Instr.fenceAcq, Enc.fenceAcq, fun _ _ _ => FenceKind.acq), (Instr.fenceRel, Enc.fenceRel, fun _ _ _ => FenceKind.rel),
    (Instr.fenceAr, Enc.fenceAr, fun _ _ _ => FenceKind.ar), (Instr.fenceSc, Enc.fenceSc, fun _ _ _ => FenceKind.sc),
    (Instr.tfence, Enc.tfence, fun s env x => FenceKind.tf (coreMask (s.scopeCores env.co (Mod.scopeOf x.m) (env.acting x))))] :
      List ((Args → Instr) × Entry × (State → Env → Args → FenceKind))),
    ∀ (s : State) (env : Env) (x : Args), Ready s env r.2.1 x → env.acting x ≠ 0 →
      let f : Fence := { place := s.nextId, kind := r.2.2 s.tick env x, scope := Mod.scopeOf x.m, lanes := env.acting x }
      exec (r.1 x) s = .next ((((s.tick.setCourse env.cid { env.co with fences := env.co.fences ++ [f] }).settle
        env.cid).clampSys env (Mod.scopeOf x.m)).complete env r.2.1 x {})) ∧
  (∀ r ∈ ([(Instr.ld, Enc.ld, fun x => memOp x .ld), (Instr.st, Enc.st, fun x => memOp x .st), (Instr.atomAdd, Enc.atomAdd, fun x => memOp x .add),
    (Instr.atomMin, Enc.atomMin, fun x => memOp x .min), (Instr.atomMax, Enc.atomMax, fun x => memOp x .max),
    (Instr.atomAnd, Enc.atomAnd, fun x => memOp x .and), (Instr.atomOr, Enc.atomOr, fun x => memOp x .or), (Instr.atomXor, Enc.atomXor, fun x => memOp x .xor),
    (Instr.atomXchg, Enc.atomXchg, fun x => memOp x .xchg), (Instr.atomCas, Enc.atomCas, fun x => memOp x .cas), (Instr.amaxp, Enc.amaxp, fun x => memOp x .amaxp),
    (Instr.cp, Enc.cp, cpBody), (Instr.cpD, Enc.cpD, cpDBody), (Instr.fbind, Enc.fbind, fbindBody), (Instr.fetch, Enc.fetch, fetchBody),
    (Instr.ovlLd, Enc.ovlLd, ovlLdBody), (Instr.xqCfg, Enc.xqCfg, xqCfgBody), (Instr.xqPush, Enc.xqPush, xqPushBody), (Instr.xqPop, Enc.xqPop, xqPopBody),
    (Instr.xqComb, Enc.xqComb, xqCombBody), (Instr.launch, Enc.launch, launchBody)] : List ((Args → Instr) × Entry × (Args → Env → State → Res))),
    ∀ (s : State) (env : Env) (x : Args), HeldBack s env r.2.1 x →
      (∀ t, r.2.2 x env s.tick = .trap t → t.ofAccess = false → exec (r.1 x) s = .next (s.tick.trapHere env t)) ∧
      ((∀ t, r.2.2 x env s.tick = .trap t → t.ofAccess = true) →
        exec (r.1 x) s = .next (State.complete { s.tick with ops := s.ops.put s.nextId (s.tick.queued env r.2.1 x (env.flag x)), nextId := s.nextId + 8 }
          env r.2.1 x {}))) ∧
  (∀ (s : State) (op : Nat) (o : Op), s.ops.find op = some o → o.pend ≠ [] → (∀ k, o.kind ≠ .fbind k) →
    exec (.rangeLockEntryFree op) s = .next (s.lockRanges op false [])))

/-- R138 to R140: tmv and tzero, of 1 to 4,096 lines at line boundaries inside their windows, clear P on the destination lines and start one operation;
tmv locks its source against writes. A line arrives with the data of its source as it stands, or zeros, and sets P; the last one ends the operation. -/
def Obligations.ScratchMoves : Prop :=
  (∀ (s : State) (env : Env) (x : Args) (dst : Nat), Ready s env Enc.tzero x → env.acting x ≠ 0 →
    let n := env.val x .n32 x.b
    let lines := (List.range n).map (fun i => dst / 256 + i)
    1 ≤ n → n ≤ 4096 → bits (env.co.scalar x.d.num).toNat 0 8 = 0 →
    s.tick.scratchLines env.co.ctx (env.co.scalar x.d.num) n = .ok dst →
    exec (.tzero x) s = .next (((s.tick.clearLines lines).addOp env x
      (.tmv true (lines.zipIdx.map (fun e => { i := e.2, src := 0, dst := e.1, wait := .free })))).complete env Enc.tzero x {})) ∧
  (∀ (s : State) (env : Env) (x : Args) (src dst : Nat), Ready s env Enc.tmv x → env.acting x ≠ 0 →
    let n := env.val x .n32 x.b
    let lines := (List.range n).map (fun i => dst / 256 + i)
    1 ≤ n → n ≤ 4096 → bits (env.co.scalar x.d.num).toNat 0 8 = 0 → bits (env.co.scalar x.a.num).toNat 0 8 = 0 →
    s.tick.scratchLines env.co.ctx (env.co.scalar x.d.num) n = .ok dst →
    s.tick.scratchLines env.co.ctx (env.co.scalar x.a.num) n = .ok src →
    exec (.tmv x) s = .next ((((s.tick.clearLines lines).addOp env x (.tmv false (moveLines s.tick src dst n))).lockRanges s.nextId
      false (lockPieces false [(src, n * 256)])).complete env Enc.tmv x {})) ∧
  (∀ (s : State) (op i : Nat) (o : Op) (zero : Bool) (todo : List MoveLine) (e : MoveLine), s.ops.find op = some o →
    o.kind = .tmv zero todo → todo.find? (fun e => e.i = i) = some e → s.lineReady op o zero todo e = true →
    let data := if zero then List.replicate 256 (0 : Byte) else s.peek (e.src * 256) 256
    let rest := todo.filter (fun f => f.i ≠ i)
    let t := ((s.pokeFrom (e.dst * 256) data (!zero && (s.poisoned (e.src * 256) 256).isSome)).arriveLines op [e.dst]).setOp op (.tmv zero rest)
    exec (.tmvLineArrival op i) s = .next (if rest.isEmpty then (t.unlock op).finishOp op else t))

/-- R144 and R146 to R148: walks and invalidation. A walk records both generations when it reads the tables; it installs what it found if neither has
moved on, and otherwise what it read is discarded and it begins again. A range or whole invalidation moves the generation on, drops the items it
names, and stays pending; it is acknowledged once no older access or walk holds an old translation, and what paths and nodes watch is translated anew.
Acknowledgement waits follow log entry 26, and waits whose word is no longer mapped log entry 110. R150, R151 and R310: retirement of DRAM frames.
Corrected errors are counted, and the eighth since reset retires the frame; a retired frame is listed and waits for a spare; added spares are taken at
once; lines are copied one by one with their marks; with the last one the frame's bytes all stand in the spare's DRAM frame, the frame map serves the
address from there, the spare's own address is withdrawn, and every driver is told. The copy of the last line, the withdrawal of the spare and the
notice follow log entry 111. -/
def Obligations.WalksAndFrames : Prop :=
  ((∀ (s : State) (core ctx va : Nat) (warm : Bool) (c : Context), s.up = true → core < 96 → va < 2 ^ 60 → s.ctxs.find ctx = some c →
    ∃ w : Walk, exec (.walkStart core ctx ⟨va, warm⟩) s = .next { s with walks := s.walks ++ [w] } ∧ w.core = core ∧ w.ctx = ctx ∧ w.va = va ∧ w.warm = warm ∧
      w.s1gen = c.s1gen ∧ w.s2gen = s.s2gen c.part ∧ ∀ i ∈ w.items, i.core = core ∧ i.ctx = ctx ∧ i.s1gen = c.s1gen ∧ i.s2gen = s.s2gen c.part) ∧
  (∀ (s : State) (core i : Nat) (w : Walk) (rest : List Walk) (c : Context), takeWalk core i s.walks = some (w, rest) → s.ctxs.find w.ctx = some c →
    (w.s1gen = c.s1gen → w.s2gen = s.s2gen c.part → ∃ t, exec (.walkComplete core i) s = .next t ∧ t = { s with walks := rest, tlb := t.tlb } ∧ (∀ j ∈ w.items, j ∈ t.tlb) ∧
      ∀ j ∈ t.tlb, j ∈ w.items ∨ (j ∈ s.tlb ∧ ∀ k ∈ w.items, j.same k = false)) ∧
    (w.s1gen ≠ c.s1gen ∨ w.s2gen ≠ s.s2gen c.part → exec (.walkComplete core i) s = .next { s with walks := rest ++ [s.walkOf w.core w.ctx w.va w.warm] })) ∧
  (∀ (s : State) (page part ctx : Nat) (base : Word) (count seq : BitVec 32) (c : Context), s.accepts page 0x1000 false part → s.ctxs.find ctx = some c → c.part = part →
    let sub (cmd : Nat) (w1 w2 : Option Nat) : State := s.submitted page 0x1000 (cmdWords (transWord0 cmd part ctx) w1 w2 seq)
    let after (t : State) (hit : Nat → Bool) : State := { t with ctxs := s.ctxs.put ctx { c with s1gen := c.s1gen + 1 }, tlb := s.tlb.filter (fun i => !(i.ctx == ctx && !i.what.stage2 && (!i.what.page || hit i.what.at_))), invals := s.invals ++ [{ page := page, part := part, ctx := some ctx, before := s.nextId }] }
    (base.toNat % 65536 = 0 → count ≠ 0 → exec (.stage1RangeInvalidate page part ctx base count seq) s =
      .next (after (sub 1 (some base.toNat) (some count.toNat)) (fun p => decide (base.toNat / 65536 ≤ p) && decide (p < base.toNat / 65536 + count.toNat)))) ∧
    (base.toNat % 65536 ≠ 0 ∨ count = 0 → exec (.stage1RangeInvalidate page part ctx base count seq) s = .next ((sub 1 (some base.toNat) (some count.toNat)).endCmd page 0x1000 2)) ∧
    exec (.stage1ContextInvalidate page part ctx seq) s = .next (after (sub 2 none none) (fun _ => true))) ∧
  (∀ (s : State) (part : Nat) (base : Word) (count seq : BitVec 32) (p : Partition), s.accepts 0 0x1000 true part → s.parts.find part = some p →
    let after (t : State) (hit : Nat → Bool) : State := { t with parts := s.parts.put part { p with s2gen := p.s2gen + 1 }, tlb := s.tlb.filter (fun i => !(s.partOf i.ctx == part && (!i.what.stage2 || !i.what.page || hit i.what.at_))), invals := s.invals ++ [{ page := 0, part := part, ctx := Option.none, before := s.nextId }] }
    (base.toNat % 65536 = 0 → count ≠ 0 → exec (.stage2RangeInvalidate 0 part base count seq) s = .next (after (s.submitted 0 0x1000 (cmdWords (transWord0 3 part 0) (some base.toNat) (some count.toNat) seq))
      (fun p => decide (base.toNat / 65536 ≤ p) && decide (p < base.toNat / 65536 + count.toNat)))) ∧
    exec (.stage2PartitionInvalidate 0 part seq) s = .next (after (s.submitted 0 0x1000 (cmdWords (transWord0 4 part 0) none none seq)) (fun _ => true))) ∧
  (∀ (s : State) (page : Nat) (v : Inval), s.invals.find? (fun v => v.page = page) = some v →
    (s.holdsOld v = true ∨ s.oldWalk v = true → exec (.invalidationAck page) s = .next s) ∧
    (s.holdsOld v = false → s.oldWalk v = false → exec (.invalidationAck page) s =
      .next (((State.retranslate { s with invals := s.invals.filter (fun w => w.page ≠ page) } v).flushNotices v.part).endCmd page 0x1000 1)))) ∧
  ((∀ (s : State) (frame : Nat), s.up = true → frame < 2 ^ 23 →
    let n := s.pkg.corrected.getD frame 0 + 1
    let t : State := { s with pkg := { s.pkg with corrected := s.pkg.corrected.put frame n } }
    (n ≠ 8 → exec (.correctedError frame) s = .next t) ∧
    (n = 8 → exec (.correctedError frame) s = .next (t.retireFor frame 2)) ∧
    (exec (.scrub frame) s = .next s)) ∧
  (∀ (s : State) (frame block : Nat), s.up = true → frame < 2 ^ 23 →
    exec (.frameRetireTrigger frame 3 block) s = .next (s.retireChannel (frame / 65536)) ∧
    (∃ t : State, exec (.frameRetireTrigger frame 1 block) s = .next (t.retireFor frame 1) ∧ t = { s with poison := t.poison } ∧ frame * 65536 + block % 65536 / 64 * 64 ∈ t.poison) ∧
    (s.pkg.corrected.getD frame 0 < 8 → exec (.frameRetireTrigger frame 2 block) s = .next s) ∧
    (8 ≤ s.pkg.corrected.getD frame 0 → exec (.frameRetireTrigger frame 2 block) s = .next (s.retireFor frame 2))) ∧
  (∀ (s : State) (frame reason : Nat), s.pkg.frames.find frame = none → s.pkg.badFrames.length < 16384 → s.pkg.spares = [] →
    s.retireFor frame reason = { s with pkg := { s.pkg with frames := s.pkg.frames.put frame .pending, badFrames := s.pkg.badFrames ++ [{ frame := frame, reason := reason, stamp := s.time.ns }] } }) ∧
  (∀ (s : State) (base : Word) (count seq : BitVec 32), s.accepts 0 0x1000 true 0 →
    let sub := s.submitted 0 0x1000 (cmdWords (transWord0 5 0 0) (some base.toNat) (some count.toNat) seq)
    (base.toNat % 65536 = 0 → count ≠ 0 → base.toNat / 65536 + count.toNat ≤ 2 ^ 36 →
      exec (.addSpareFrames 0 base count seq) s = .next ((State.takeSpares { sub with pkg := { s.pkg with spares := s.pkg.spares ++ (List.range count.toNat).map (fun i => base.toNat / 65536 + i) } }).endCmd 0 0x1000 1)) ∧
    (base.toNat % 65536 ≠ 0 ∨ count = 0 → exec (.addSpareFrames 0 base count seq) s = .next (sub.endCmd 0 0x1000 2))) ∧
  (∀ (s : State) (frame spare k op : Nat) (o : Op), s.up = true → s.pkg.frames.find frame = some (.migrating spare k) → s.migrationOp frame = some (op, o) → o.pend = [] →
    s.rangeFree op false (s.hpaOf frame * 65536 + 256 * k, 256) = true → s.memOk →
    let src := frame * 65536
    let dst := s.dramOf spare * 65536
    (k < 255 → ∃ t, exec (.migrationLineCopy frame) s = .next t ∧ (∀ i, i < 256 → memByte t.mem (dst + 256 * k + i) = memByte s.mem (src + 256 * k + i)) ∧
      (∀ a, a < dst + 256 * k ∨ dst + 256 * k + 256 ≤ a → memByte t.mem a = memByte s.mem a) ∧
      t = { s with mem := t.mem, poison := t.poison, pkg := { s.pkg with frames := s.pkg.frames.put frame (.migrating spare (k + 1)) } }) ∧
    (255 ≤ k → ∃ t : State, exec (.migrationLineCopy frame) s = .next (t.notifyAll { stamp := s.time.ns, ctx := 0xFFFF, src := 0xC000, cls := 0, sub := 0 }) ∧
      (∀ i, i < 65536 → memByte t.mem (dst + i) = memByte s.mem (src + i)) ∧ (∀ a, a < dst ∨ dst + 65536 ≤ a → memByte t.mem a = memByte s.mem a) ∧
      t.pkg = { s.pkg with frames := s.pkg.frames.put frame .retired,
                           frameMap := (s.pkg.frameMap.put (s.hpaOf frame) (s.dramOf spare)).put spare (2 ^ 23 + spare) } ∧
      t.ops.find op = none ∧ ∀ e ∈ t.locks, e.2.op ≠ op)))

/-- R214 and R215: a copy. cp copies n bytes as one row, cp.d what its descriptor says. An empty copy is FIELD; one whose ranges pass their checks
completes: the copy holds its locks and has cleared P on its destination lines; otherwise the first check that fails gives its trap. It waits for one
of its die's copy engines; when it completes, the destination holds what the source held, its lines are present, its locks and its flag are gone, and
its signal object is one less. A translation that faults ends it, with what was copied before. Which copy an engine takes first is the model's choice
(log entry 37). -/
def Obligations.Copies : Prop :=
  (∀ (s : State) (env : Env) (x : Args), env.acting x ≠ 0 →
    (Ready s env Enc.cp x →
      let n := env.val x .n32 x.b
      let src := env.co.scalar x.a.num
      let dst := env.co.scalar x.d.num
      let c : Copy := { src := src, dst := dst, rows := 1, len := n, spitch := 0, dpitch := 0, sig := 0, free := [], earlier := [] }
      (n = 0 → exec (.cp x) s = .next (s.tick.trapHere env Trap.field)) ∧
      (n ≠ 0 → s.tick.copyRange env dst n true → s.tick.copyRange env src n false → exec (.cp x) s = .next
        (((s.tick.addOp env x (.cp c false none)).startCopy s.nextId env.co.core env.co.ctx (some env.co) c none).complete env Enc.cp x {})) ∧
      (n ≠ 0 → ¬ (s.tick.copyRange env dst n true ∧ s.tick.copyRange env src n false) →
        ∃ t, s.tick.copyTrap env.co.core env.co.ctx (some env.co) c = some t ∧ exec (.cp x) s = .next (s.tick.trapHere env t))) ∧
    (Ready s env Enc.cpD x →
      let va := (env.co.scalar x.a.num).toNat
      let words := s.tick.blockWords env va
      let c := Copy.ofWords words
      s.tick.blockOpen env va → Copy.check words = none →
      s.tick.copyRange env c.dst (spanOf c.rows c.len c.dpitch) true → s.tick.copyRange env c.src (spanOf c.rows c.len c.spitch) false →
      exec (.cpD x) s = .next (((s.tick.addOp env x (.cp c false none)).startCopy s.nextId env.co.core env.co.ctx (some env.co) c none).complete env Enc.cpD x {}))) ∧
  (∀ (s : State) (op : Nat) (o : Op) (c : Copy) (node : Option (Nat × Nat)), s.ops.find op = some o →
    (o.kind = .cp c false node → (s.ops.filter (fun p => s.onEngine (dieOf (s.opCore o)) p.2)).length < Config.copyEngines → s.copyBehind op o = false →
      exec (.copyEngineAcquire op) s = .next (s.setOp op (.cp c true node))) ∧
    (o.kind = .cp c true node →
      let core := s.opCore o
      let co := o.cid.bind s.courses.find
      let from_ := s.copyRows core o.ctx co c.src c.rows c.len c.spitch false
      let into := s.copyRows core o.ctx co c.dst c.rows c.len c.dpitch true
      let src := from_.toOption.getD []
      let dst := into.toOption.getD []
      let t := (s.writeMarked dst (s.readMarked src)).arriveLines op (scratchLinesOf dst)
      from_.isOk = true → into.isOk = true → c.linesReady s src = true → s.engineReady op o src dst = true →
      (c.sig = 0 → exec (.cpComplete op) s = .next (((t.unlock op).finishOp op).nodeEnded node none)) ∧
      (∀ pa, c.sig ≠ 0 → s.signalFree op core o.ctx c.sig = true → t.translate core o.ctx c.sig.toNat none true = .ok pa →
        exec (.cpComplete op) s = .next ((((t.pokeNat pa.1 8 (BitVec.ofNat 64 (t.peekNat pa.1 8) - 1).toNat).unlock op).finishOp op).nodeEnded node none))) ∧
    (∀ core slot id va n, (s.engineFault o).isSome = true → o.kind = .ovlLd core slot id va n true →
      ∃ t, s.engineFault o = some t ∧ exec (.engineFault op) s = .next ((s.failOp op o t).wakeOvl core o.ctx id)) ∧
    (o.kind = .cp c true node → (s.engineFault o).isSome = true →
      let core := s.opCore o
      let lead := s.copyLead core o.ctx c
      let dst := (List.range c.rows).flatMap (fun r => (s.copyPieces core o.ctx (o.cid.bind s.courses.find) (c.dst + BitVec.ofNat 64 (r * c.dpitch)) c.len true).toOption.getD [])
      c.linesReady s lead.1 = true → s.engineReady op o lead.1 lead.2 = true →
      ∃ t, s.engineFault o = some t ∧ exec (.engineFault op) s = .next (((s.copyBegun core o.ctx c).arriveLines op (scratchLinesOf dst)).failOp op o t)))

/-- R209 to R213 and R333: bindings. fbind of a valid descriptor releases what its slot held, enters the descriptor, not yet in effect, and locks its
extent, one range, against writes; fetch of a bound slot checks every lane before any is read, and starts one operation; funbind gives the binding up.
The binding comes into effect at its completion, and goes once its fetches have read. The lock entry of a binding follows a reading of the spec (log
entry 114). R216: overlay loading. ovl.ld of 1 to 5,461 instructions into slots 1 to 7 from a 256-byte boundary completes, marks the slot and every
other slot of the core that holds the id for the context, and starts the load. Once no path is in the middle of a run in a marked slot, the old
overlays go; when the load completes, the slot holds the image, zeros after it, and the paths that waited for the id go on. -/
def Obligations.BindingsAndOverlays : Prop :=
  ((∀ (s : State) (env : Env) (x : Args), env.acting x ≠ 0 →
    (Ready s env Enc.fbind x →
      let va := (env.co.scalar x.a.num).toNat
      let words := s.tick.blockWords env va
      let ext := s.tick.extent env.cid env.co (FDesc.parse words)
      s.tick.blockOpen env va →
      (FDesc.valid words = false → exec (.fbind x) s = .next (s.tick.trapHere env Trap.field)) ∧
      (FDesc.valid words = true → ext.isOk = true →
        let t := s.tick.unbind env x.b.ctl
        exec (.fbind x) s = .next ((((t.addOp env x (.fbind x.b.ctl)).modCourse env.cid (fun c =>
          { c with binds := c.binds.put x.b.ctl { words := words, op := t.nextId, live := false } })).lockRanges t.nextId true (lockPieces false (ext.toOption.getD []))).complete env Enc.fbind x {}))) ∧
    (Ready s env Enc.fetch x →
      (env.co.binds.find x.b.ctl = none → exec (.fetch x) s = .next (s.tick.trapHere env Trap.field)) ∧
      (∀ b, env.co.binds.find x.b.ctl = some b →
        let d := FDesc.parse b.words
        let co := (lanesOf (env.acting x)).map (fun l => (l, (List.range d.dims.length).map (fun i => s.tick.vecLane env (x.a.num + i) false l)))
        let r := firstTrap (co.map (fun e => s.tick.fetchLane env.cid env.co d true e.1 e.2))
        (d.valueTy.wide = true → x.d.num % 2 = 0) → x.a.num + d.dims.length ≤ 64 →
        (lanesOf (env.acting x)).find? (s.tick.elemBad env x.a d.dims.length) = none →
        (d.ea = true → s.tick.eaWaits env.co.core env.cid env.co.ctx (handleArray d.base) = false) →
        (∀ t, r = some t → exec (.fetch x) s = .next (s.tick.trapHere env t)) ∧
        (r = none → exec (.fetch x) s = .next ((s.tick.addOp env x (.fetch b.op b.words x.d co)).complete env Enc.fetch x {})))) ∧
    (Ready s env Enc.funbind x → (s.tick.opsOf env.cid).any (fun o => o.2.isQueued) = false →
      (env.co.binds.find x.a.ctl = none → exec (.funbind x) s = .next (s.tick.complete env Enc.funbind x {})) ∧
      (∀ b, env.co.binds.find x.a.ctl = some b → exec (.funbind x) s = .next
        (((s.tick.setCourse env.cid { env.co with binds := env.co.binds.del x.a.ctl }).addSilent env (.funbind b.op)).complete env Enc.funbind x {}))) ∧
    (Ready s env Enc.funbind x → (s.tick.opsOf env.cid).any (fun o => o.2.isQueued) = true →
      exec (.funbind x) s = .next ((s.tick.queueSilent env Enc.funbind x).complete env Enc.funbind x {}))) ∧
  (∀ (s : State) (op : Nat) (o : Op) (cid : Nat) (c : Course) (slot : Nat) (b : Binding), s.ops.find op = some o → o.cid = some cid →
    s.courses.find cid = some c → o.kind = .fbind slot → c.binds.find slot = some b → b.op = op → (FDesc.parse b.words).ea = false →
    s.engineReady op o (s.ownRanges op) [] = true →
    exec (.fbindComplete op) s = .next ((s.setCourse cid { c with binds := c.binds.put slot { b with live := true } }).finishOp op)) ∧
  (∀ (s : State) (op bind : Nat) (o : Op), s.ops.find op = some o → o.kind = .funbind bind → s.ops.find bind = none →
    (∀ p ∈ s.ops, ∀ w d l, p.2.kind ≠ .fetch bind w d l) →
    exec (.funbindRelease op) s = .next ((s.unlock bind).finishOp op))) ∧
  ((∀ (s : State) (env : Env) (x : Args), Ready s env Enc.ovlLd x → env.acting x ≠ 0 →
    let d := (env.co.scalar x.d.num).toNat
    let a := env.co.scalar x.a.num
    let n := env.val x .n32 x.b
    let slot := bits d 16 3
    (slot = 0 ∨ n = 0 ∨ 5461 < n → exec (.ovlLd x) s = .next (s.tick.trapHere env Trap.field)) ∧
    (slot ≠ 0 → 1 ≤ n → n ≤ 5461 → bits d 19 45 = 0 → a.toNat % 256 = 0 → (s.tick.translate env.co.core env.co.ctx a.toNat none false).isOk = true →
      env.co.hwBad a.toNat 1 = false →
      let t := (s.tick.addOp env x (.ovlLd env.co.core slot (bits d 0 16) a.toNat n false)).markOvls env.co.core env.co.ctx slot (bits d 0 16) s.nextId
      exec (.ovlLd x) s = .next ((t.lockRanges s.nextId false (lockPieces false (t.copySpan env.co.core env.co.ctx a (12 * n) false))).complete env Enc.ovlLd x {}))) ∧
  (∀ (s : State) (op core slot id va n : Nat) (o : Op), s.ops.find op = some o →
    (o.kind = .ovlLd core slot id va n false → s.loadsBefore op core slot = false → (∀ e ∈ s.ovls, op ∈ e.2.mark → s.midRun core (e.1 % 8) e.2 = false) →
      exec (.ovlUnload op) s = .next ({ s with ovls := s.ovls.filter (fun e => !e.2.mark.contains op) }.setOp op (.ovlLd core slot id va n true))) ∧
    (o.kind = .ovlLd core slot id va n true →
      let image := s.copyPieces core o.ctx (o.cid.bind s.courses.find) (BitVec.ofNat 64 va) (12 * n) false
      let l := image.toOption.getD []
      image.isOk = true → s.engineReady op o l [] = true →
      (∀ u, s.poisonedRun va l = some u → exec (.ovlLdComplete op) s = .next ((s.failOp op o (Trap.poison 0xFF u)).wakeOvl core o.ctx id)) ∧
      (s.poisonedRun va l = none →
        let t := ((s.unlock op).finishOp op).installOvl core slot id o.ctx va n (s.peekAll l)
        exec (.ovlLdComplete op) s = .next (t.wakeOvl core o.ctx id) ∧
        (∃ e : Ovl, t.ovls.find (core * 8 + slot) = some e ∧ e.id = id ∧ e.ctx = o.ctx ∧ e.n = n ∧ e.image = va ∧ e.loaded = true) ∧
        t.mem = ((s.unlock op).finishOp op).store (imemBase core slot) (s.peekAll l ++ List.replicate (65536 - (s.peekAll l).length) 0)))))

/-- R174, R175, R180 and R181: the instructions on elastic arrays. A structural operation is offered to its array's home and holds its issue slot; at
acceptance it completes issue, a refusal is its trap. ea.rank, ea.peg and ea.len give every acting lane's result by one walk of the array as it
stands, once the course's own operations on it have ended and nothing before them still holds back the course's loads. R180 and R181: ea.new offers
the creation block it has read: a block at a multiple of 16 whose version is 0 or 1, whose element size and kind exist and whose reserved bits are
zero. -/
def Obligations.ElasticInstructions : Prop :=
  ((∀ r ∈ ([(Instr.eaNew, Enc.eaNew, fun (x : Args) => x.d), (Instr.eaFree, Enc.eaFree, fun _ => .zero), (Instr.eaIns, Enc.eaIns, fun _ => .zero), (Instr.eaDel, Enc.eaDel, fun _ => .zero),
    (Instr.eaSplit, Enc.eaSplit, fun (x : Args) => x.d), (Instr.eaCat, Enc.eaCat, fun _ => .zero), (Instr.eaMort, Enc.eaMort, fun (x : Args) => x.d), (Instr.eaFill, Enc.eaFill, fun _ => .zero),
    (Instr.eaSeal, Enc.eaSeal, fun _ => .zero)] : List ((Args → Instr) × Entry × (Args → Opnd))),
    ∀ (s : State) (env : Env) (x : Args) (id : Nat) (o : Op) (j : EaJob), Ready s env r.2.1 x → env.acting x ≠ 0 → env.pa.offer = some id → s.ops.find id = some o → o.kind = .ea j →
      (j.phase = .offered → exec (r.1 x) s = .next { s.tick with cur := none }) ∧
      (j.phase = .accepted ∨ (∃ l k, j.phase = .committed l k) → exec (r.1 x) s = .next (s.tick.complete env r.2.1 x {})) ∧
      (∀ t, j.phase = .refused t → exec (r.1 x) s = .next ((s.tick.withdraw env id).trapHere env t))) ∧
  (∀ (s : State) (env : Env) (x : Args), env.acting x ≠ 0 → env.pa.offer = none →
    let offered (d : Opnd) (o : EaOp) : State := { (s.tick.addOp env x (.ea { o := o, phase := .offered, d := d, result := 0, trees := [], writes := [], shoots := [], oldNodes := [], pages := [], leaves := [], freed := none, data := [] })).setPath env.cid env.p { env.pa with offer := some s.nextId } with cur := none }
    (Ready s env Enc.eaFree x → exec (.eaFree x) s = .next (offered .zero (.free (env.co.scalar x.a.num)))) ∧
    (Ready s env Enc.eaIns x → exec (.eaIns x) s = .next (offered .zero (.ins (env.co.scalar x.d.num) (env.eaNum x x.a) (env.eaNum x x.b)))) ∧
    (Ready s env Enc.eaDel x → exec (.eaDel x) s = .next (offered .zero (.del (env.co.scalar x.d.num) (env.eaNum x x.a) (env.eaNum x x.b)))) ∧
    (Ready s env Enc.eaSplit x → exec (.eaSplit x) s = .next (offered x.d (.split (env.co.scalar x.a.num) (env.eaNum x x.b)))) ∧
    (Ready s env Enc.eaCat x → exec (.eaCat x) s = .next (offered .zero (.cat (env.co.scalar x.d.num) (env.co.scalar x.a.num)))) ∧
    (Ready s env Enc.eaFill x → exec (.eaFill x) s = .next (offered .zero (.fill (fillLanes x env s.tick)))) ∧
    (Ready s env Enc.eaMort x → 1 ≤ env.eaNum x x.b → env.eaNum x x.b ≤ 65536 →
      exec (.eaMort x) s = .next (offered x.d (.mort (env.co.scalar x.a.num) (env.co.scalar x.d.num).toNat (env.eaNum x x.b)))) ∧
    (Ready s env Enc.eaSeal x → (env.eaNum x x.b = 0 → exec (.eaSeal x) s = .next (s.tick.trapHere env Trap.field)) ∧
      (env.eaNum x x.b ≠ 0 → exec (.eaSeal x) s = .next (offered .zero (.seal (env.co.scalar x.a.num) (env.eaNum x x.b)))))) ∧
  (∀ (s : State) (env : Env) (x : Args) (d : Desc), env.acting x ≠ 0 → s.tick.openArray env.co.core env.co.ctx (env.co.scalar x.a.num) 0xFF = .ok d →
    s.tick.eaWaits env.co.core env.cid env.co.ctx (handleArray (env.co.scalar x.a.num)) = false →
    (Ready s env Enc.eaLen x → exec (.eaLen x) s = .next ((s.tick.addOp env x (.land .n64 x.d ((env.runs x).map (fun l => (l, d.len))))).complete env Enc.eaLen x {})) ∧
    (∀ (items : List EItem) (nodes : List Nat) (rk : Nat → Nat), Ready s env Enc.eaRank x → s.tick.treeItems env.co.core env.co.ctx 13 d.root = .ok (items, nodes) →
      (∀ l ∈ env.runs x,
        let g := s.tick.lane env x .n64 x.b l
        (s.tick.leafGen env.co.core env.co.ctx (bits g 32 32)).toOption = some (bits g 0 16) ∧ rankOf items (bits g 32 32) (bits g 16 16) 0 = some (rk l)) →
      exec (.eaRank x) s = .next ((s.tick.addOp env x (.land .n64 x.d ((env.runs x).map (fun l => (l, rk l))))).complete env Enc.eaRank x {})) ∧
    (∀ (pg : Nat → Nat), Ready s env Enc.eaPeg x →
      (∀ l ∈ env.runs x,
        let r := s.tick.eaLane env x x.b l
        r < d.len ∧ ∃ leaf slot rest gen, s.tick.resolveAt env.co.core env.co.ctx 13 d.root r 0 = .ok (some (leaf, slot, rest)) ∧
          s.tick.leafGen env.co.core env.co.ctx leaf = .ok gen ∧ pg l = leaf * 2 ^ 32 + slot * 2 ^ 16 + gen) →
      exec (.eaPeg x) s = .next ((s.tick.addOp env x (.land .n64 x.d ((env.runs x).map (fun l => (l, pg l))))).complete env Enc.eaPeg x {})))) ∧
  (∀ (s : State) (env : Env) (x : Args), Ready s env Enc.eaNew x → env.acting x ≠ 0 → env.pa.offer = none →
    let va := env.n64 x x.a
    let at_ := s.tick.pagedRange env.co va 16 false 0xFF
    let block := s.tick.pagedRead env.co va 16 0xFF
    at_.isOk = true → s.tick.blockReady env.cid (at_.toOption.getD []) = true → block.isOk = true →
    let n := leNat (s.tick.peekAll (block.toOption.getD []))
    (va % 16 ≠ 0 → exec (.eaNew x) s = .next (s.tick.trapHere env (Trap.align 0xFF va))) ∧
    (va % 16 = 0 → 1 < bits n 56 8 → exec (.eaNew x) s = .next (s.tick.trapHere env (Trap.illegal Sub.ver))) ∧
    (va % 16 = 0 → bits n 56 8 ≤ 1 → (8 < bits n 52 4 ∨ bits n 50 2 = 3 ∨ bits n 0 50 ≠ 0 ∨ bits n 64 64 ≠ 0) → exec (.eaNew x) s = .next (s.tick.trapHere env (Trap.peg 7 0xFF 0))) ∧
    (va % 16 = 0 → bits n 56 8 ≤ 1 → bits n 52 4 ≤ 8 → bits n 50 2 ≠ 3 → bits n 0 50 = 0 → bits n 64 64 = 0 →
      exec (.eaNew x) s = .next { (s.tick.addOp env x (.ea { o := .new (bits n 52 4) (bits n 50 2), phase := .offered, d := x.d, result := 0, trees := [], writes := [], shoots := [], oldNodes := [], pages := [], leaves := [], freed := none, data := [] })).setPath env.cid env.p { env.pa with offer := some s.nextId } with cur := none }))

/-- R166, R174, R176 and R180: what an edit makes of an array's sequence. Removing elements r to r + n − 1 leaves every other element in its order and
every mortise; an insertion at a place or before a mortise puts the new elements there; the rank found for a peg is the place of its slot in the
sequence. The shape of the tree is the model's choice (log entry 20), and no clause rests on it. -/
def Obligations.SequencesEdit : Prop :=
  ∀ (l : List EItem) (r n : Nat) (new : List EItem),
    (r ≤ (itemElems l).length → itemElems (cutItems l r).1 = (itemElems l).take r ∧ itemElems (cutItems l r).2 = (itemElems l).drop r) ∧
    (r + n ≤ (itemElems l).length → itemElems (delItems l r n) = (itemElems l).take r ++ (itemElems l).drop (r + n) ∧ itemMorts (delItems l r n) = itemMorts l) ∧
    (r ≤ (itemElems l).length → itemElems ((cutItems l r).1 ++ new ++ (cutItems l r).2) = (itemElems l).take r ++ itemElems new ++ (itemElems l).drop r) ∧
    (∀ m p, (itemMorts l).Nodup → mortPlace l m = some p → itemElems (fillItems l m new) = (itemElems l).take p ++ itemElems new ++ (itemElems l).drop p) ∧
    (∀ leaf slot k, rankOf l leaf slot 0 = some k → (itemElems l)[k]? = some (leaf, slot)) ∧
    (itemsLen l = (itemElems l).length)

/-- R174, R177 to R179 and R183: what becomes of an offered operation. Its home accepts it when no other operation of the array is before it and the lock
table has room; a failed check refuses it. An accepted operation commits once its ranges are free, and every core applies the shoot-down to its rank
cache and acknowledges; then the nodes that no tree uses go back, the locks are released and the flag falls. When a home accepts is a reading of the
spec, and the order of waiting locks a choice (log entries 16 and 22). -/
def Obligations.ElasticEvents : Prop :=
  (∀ (s : State) (op cid : Nat) (o : Op) (c : Course) (j : EaJob), s.ops.find op = some o → o.kind = .ea j → o.cid = some cid → s.courses.find cid = some c →
    (∀ t, j.phase = .offered → (∀ k ∈ s.eaOps o.ctx j.o.arrays, k.1 = op ∨ (op < k.1 ∧ k.2.phase = .offered)) → s.acceptEa c j = .error t →
      exec (.eaAccept op) s = .next (s.setOp op (.ea { j with phase := .refused t }))) ∧
    (j.phase = .offered → (∀ k ∈ s.eaOps o.ctx j.o.arrays, k.1 = op ∨ (op < k.1 ∧ k.2.phase = .offered)) → (s.acceptEa c j).isOk = true → s.locks = [] →
      let r := (s.acceptEa c j).toOption.getD (s, j)
      (r.1.eaRanges c r.2).length ≤ r.1.freeLocks → exec (.eaAccept op) s = .next ((r.1.setOp op (.ea r.2)).lockRanges op false (r.1.eaRanges c r.2))) ∧
    (∀ h r n d items old t u, j.o = .del h r n → s.openArray c.core c.ctx h 0xFF = .ok d → n ≠ 0 → s.treeItems c.core c.ctx 13 d.root = .ok (items, old) →
      s.planTree c.core c.ctx (handleArray h) (delItems items r n) d.mnext d.leaf d.slot old = .ok (t, u) →
      s.acceptEa c j = (if d.len < r + n then .error (Trap.peg 1 0xFF r) else
        .ok (t, { j with phase := .accepted, trees := [u], writes := [], shoots := [{ array := handleArray h, r := r, delta := -(n : Int), drop := false }], oldNodes := old }))) ∧
    (j.phase = .accepted → s.engineReady op o [] (s.ownRanges op) = true →
      let cores := if j.shoots.isEmpty then [] else List.range 96
      let r := s.commitEa c j
      exec (.eaCommit op) s = .next (r.1.setOp op (.ea { j with phase := .committed cores cores, leaves := r.2 }))) ∧
    (∀ core l k, j.phase = .committed l k → core ∈ l →
      exec (.shootdown op core) s = .next ({ s with ranks := s.ranks.filterMap (fun (e : RankItem) => if e.core == core && e.ctx == o.ctx then j.shoots.foldl (fun e h => e.bind (fun e => e.shot h)) (some e) else some e) }.setOp op (.ea { j with phase := .committed (l.filter (· ≠ core)) k }))) ∧
    (∀ core l k, j.phase = .committed l k → core ∉ l → core ∈ k →
      (s.resolving core o.ctx (j.shoots.map (·.array)) = true → exec (.shootdownAck op core) s = .next s) ∧
      (s.resolving core o.ctx (j.shoots.map (·.array)) = false →
        exec (.shootdownAck op core) s = .next (s.setOp op (.ea { j with phase := .committed l (k.filter (· ≠ core)) })))) ∧
    (j.phase = .committed [] [] → s.offering op = false → j.freed = none →
      let t := ((s.modCtx o.ctx (fun c => { c with nodes := j.oldNodes.filter (fun k => !j.trees.any (fun t => t.nodes.contains k)) ++ c.nodes })).returnLeaves c.core o.ctx j.leaves).unlock op
      (j.d = .zero → exec (.eaCommitComplete op) s = .next (t.finishOp op)) ∧
      (j.d ≠ .zero → exec (.eaCommitComplete op) s = .next (t.setOp op (.land .n64 j.d [(0, j.result.toNat)]))))) ∧
  (∀ (s : State) (core rank : Nat) (handle : Word) (d : Desc) (leaf slot base start count f : Nat), core < 96 →
    let ctx := bits handle.toNat 44 16
    let a := handleArray handle
    s.openArray core ctx handle 0xFF = .ok d → rank < d.len → nbit d.seq 0 = false → s.staleRanks core ctx a = false → s.rankHit core ctx a d.gen rank = none →
    s.resolveAt core ctx 13 d.root rank 0 = .ok (some (leaf, slot, base, start, count)) → s.leafFrame core ctx leaf = .ok f →
    exec (.rankWalk core handle rank) s = .next { s with ranks := { core := core, ctx := ctx, array := a, gen := d.gen, base := base, count := count, frame := f, start := start } ::
      ((s.ranks.filter (fun e => e.core == core)).take 127 ++ s.ranks.filter (fun e => e.core != core)) })

/-- R185, R191 to R198, R204, R205 and R207: the instructions of the bent matrix unit. An operation that passes its checks enters its course's matrix
queue with what it reads at issue, and the instruction completes; with 8 entries queued it keeps its issue slot. A field that fails is FIELD. mshape
leaves a shape record; mtalloc says in p whether the course holds the tile now, and mtfree gives it up. -/
def Obligations.MatrixInstructions : Prop :=
  ∀ (s : State) (env : Env) (x : Args), env.acting x ≠ 0 →
    let queued (m : Mat) (locks : List (Nat × Nat × Bool)) : State :=
      (((s.tick.addOp env x (.mat m)).lockRanges s.nextId false locks).modCourse env.cid (fun c => { c with mq := c.mq ++ [s.nextId] }))
    let key := env.tileKey x.d
    let off := (env.co.scalar x.d.num).toNat
    let a := env.co.scalar x.a.num
    let n := env.val x .n32 x.b
    (∀ r ∈ ([(Instr.mmaE4m3, Enc.mmaE4m3, MatKind.mma .e4m3 .e4m3), (Instr.mmaE5m2, Enc.mmaE5m2, MatKind.mma .e5m2 .e5m2), (Instr.mmaI8, Enc.mmaI8, MatKind.mma .i8 .i8),
      (Instr.mmaBf16, Enc.mmaBf16, MatKind.mma .bf16 .bf16), (Instr.mmaF16, Enc.mmaF16, MatKind.mma .f16 .f16), (Instr.mmaF32, Enc.mmaF32, MatKind.mma .f32 .f32),
      (Instr.mmaF64, Enc.mmaF64, MatKind.mma .f64 .f64), (Instr.mmqQ4g, Enc.mmqQ4g, MatKind.mmq .q4g), (Instr.mmqQ8g, Enc.mmqQ8g, MatKind.mmq .q8g),
      (Instr.mmspE4m3, Enc.mmspE4m3, MatKind.mmsp .e4m3), (Instr.mmspE5m2, Enc.mmspE5m2, MatKind.mmsp .e5m2), (Instr.mmspI8, Enc.mmspI8, MatKind.mmsp .i8),
      (Instr.mmspBf16, Enc.mmspBf16, MatKind.mmsp .bf16), (Instr.mmspF16, Enc.mmspF16, MatKind.mmsp .f16)] : List ((Args → Instr) × Entry × MatKind)),
      ∀ ta tb kstep, Ready s env r.2.1 x → r.2.2.formats = some (ta, tb, kstep) → bits (env.co.scalar x.b.num).toNat 10 35 = 0 →
        let w := WRef.of (env.co.scalar x.b.num)
        let h := Shape.of (env.co.shape x.a.num)
        let ng := if w.group = 0 then 0 else h.cols / w.group
        let bad := matField (s.tick.holdsTile env.cid key) r.2.2 ta tb h w
        (bad = true → exec (r.1 x) s = .next (s.tick.trapHere env Trap.field)) ∧
        (bad = false → s.tick.matScr env.co r.2.2 ta tb h w = true → exec (r.1 x) s = .next (s.tick.trapHere env (Trap.page Sub.scr 0xFF 0 0))) ∧
        (bad = false → s.tick.matScr env.co r.2.2 ta tb h w = false → groupBad env s.tick w.vs ng = false → groupBad env s.tick w.vz ng = false →
          (8 ≤ env.co.mq.length → exec (r.1 x) s = .next { s.tick with cur := none }) ∧
          (env.co.mq.length < 8 → exec (r.1 x) s = .next ((queued { Mat.plain r.2.2 x.d.num with
            sha := env.co.shape x.a.num, wref := env.co.scalar x.b.num, mods := BitVec.ofNat 5 (Mod.number x.m),
            sigma := groupValues env s.tick w.vs ng (fun v => bits v (16 * w.sh) 16),
            zero := groupValues env s.tick w.vz ng (fun v => bits v (8 * w.zb) 8) } []).complete env r.2.1 x {})))) ∧
    (Ready s env Enc.wbld x → 1 ≤ n → n ≤ 1024 → bits off 10 54 = 0 → bits a.toNat 0 8 = 0 → isScratchAddr a = true ∨ a.toNat < 2 ^ 60 →
      off + n ≤ (s.tick.weightWindow env.co).2 → env.co.mq.length < 8 →
      let src := s.tick.rowPieces env.co a 1 (512 * n) 0 false
      let entry : Mat := { Mat.plain .wbld 0 with addr := a, n := n, line := off }
      (env.co.tfencing = false → src.isOk = true → s.tick.lockedTrap env.cid a.toNat false (src.toOption.getD []).flatten = none →
        exec (.wbld x) s = .next ((queued entry (lockPieces false (src.toOption.getD []).flatten)).complete env Enc.wbld x {})) ∧
      (env.co.tfencing = true → exec (.wbld x) s = .next ((queued entry []).complete env Enc.wbld x {}))) ∧
    (Ready s env Enc.mzero x → (s.tick.holdsTile env.cid key = false → exec (.mzero x) s = .next (s.tick.trapHere env Trap.field)) ∧
      (s.tick.holdsTile env.cid key = true → env.co.mq.length < 8 → exec (.mzero x) s = .next ((queued (Mat.plain .mzero x.d.num) []).complete env Enc.mzero x {}))) ∧
    (∀ r ∈ ([(Instr.mld, Enc.mld, false), (Instr.mstr, Enc.mstr, true)] : List ((Args → Instr) × Entry × Bool)), Ready s env r.2.1 x →
      s.tick.holdsTile env.cid key = true → a.toNat % Ty.bytes x.m.tyD = 0 → n % Ty.bytes x.m.tyD = 0 →
      (env.co.tfencing = false → (s.tick.rowPieces env.co a (xferRows x.m.tyD).1 (xferRows x.m.tyD).2 n r.2.2).isOk = true) → env.co.mq.length < 8 →
      exec (r.1 x) s = .next ((queued { Mat.plain (if r.2.2 then .mstr x.m.tyD else .mld x.m.tyD) x.d.num with addr := a, n := n } []).complete env r.2.1 x {})) ∧
    (∀ r ∈ ([(Instr.spdg, Enc.spdg, MatKind.spdg), (Instr.spsal, Enc.spsal, MatKind.spsal)] : List ((Args → Instr) × Entry × MatKind)), Ready s env r.2.1 x →
      let wa := Shape.of (env.co.shape x.a.num)
      let wb := Shape.of (env.co.shape x.b.num)
      let win := s.tick.coreWindow env.co
      let k := s.tick.counter (win.1 + off)
      wa.fmt = 0x0D → wb.fmt = 0x0D → wa.rows = wb.rows → wa.cols = wb.cols → off % 64 = 0 → off + 64 ≤ win.2 → s.tick.present (win.1 + off) = true →
      s.tick.blockReady env.cid [(win.1 + off, 64)] = true → s.tick.poisonedAll [(win.1 + off, 64)] = none → k.1 ≤ 4096 → k.2.2.2 = false →
      k.2.2.1 * 256 + (wa.rows * wa.cols + 7) / 8 ≤ win.2 → wa.stop 2 ≤ win.2 → wb.stop 2 ≤ win.2 → env.co.mq.length < 8 →
      exec (r.1 x) s = .next ((queued { Mat.plain r.2.2 0 with sha := env.co.shape x.a.num, shb := env.co.shape x.b.num, addr := BitVec.ofNat 64 k.1, n := off, line := k.2.2.1 } []).complete env r.2.1 x {})) ∧
    (Ready s env Enc.mshape x →
      let w1 := (env.co.scalar x.b.num).toNat
      let r : BitVec 128 := BitVec.ofNat 128 (a.toNat + 2 ^ 64 * w1)
      let h := Shape.of r
      1 ≤ h.rows → h.rows ≤ 64 → 1 ≤ h.cols → h.cols ≤ 4096 → h.estride ≠ 0 → h.fmt < 0x12 → bits a.toNat 0 8 = 0 → bits w1 36 7 = 0 → bits w1 0 24 = 0 →
      exec (.mshape x) s = .next ((s.tick.setCourse env.cid { env.co with shapes := env.co.shapes.set 0 x.d.num r }).complete env Enc.mshape x {})) ∧
    (Ready s env Enc.mtalloc x → nbit (s.tick.partWord (s.tick.partOf env.co.ctx) 3) x.a.num = true →
      let k := env.tileKey x.a
      ((s.tile k).st = .free → exec (.mtalloc x) s = .next (((s.tick.takeTile env.cid env.co.ctx k).setPred env.cid x.d.num (env.acting x) (BitVec.allOnes 64)).complete env Enc.mtalloc x {})) ∧
      ((s.tile k).st = .held env.cid → exec (.mtalloc x) s = .next ((s.tick.setPred env.cid x.d.num (env.acting x) (BitVec.allOnes 64)).complete env Enc.mtalloc x {})) ∧
      (∀ cid c, cid ≠ env.cid → (s.tile k).st = .held cid → s.courses.find cid = some c → c.ctx = env.co.ctx →
        exec (.mtalloc x) s = .next ((s.tick.setPred env.cid x.d.num (env.acting x) 0).complete env Enc.mtalloc x {}))) ∧
    (Ready s env Enc.mtfree x → s.tick.holdsTile env.cid (env.tileKey x.a) = true →
      exec (.mtfree x) s = .next (((s.tick.setTile (env.tileKey x.a) { s.tile (env.tileKey x.a) with st := .releasing env.cid }).drainTiles env.cid).complete env Enc.mtfree x {}))

/-- R185, R189, R190, R196, R203 and R208: the bent's sequencer serves the next queue in round-robin order whose head may be served; a multiply operation
takes a step once the lines it reads are present and free, a sparse one having formed its live list first; a zeroing leaves zeros; the entry that has
taken its last step leaves its queue; a weight line arrives in both buffers; a tile image is stored, and its tile is FREE. -/
def Obligations.MatrixUnit : Prop :=
  ∀ (s : State) (bent op cid : Nat) (o : Op) (c : Course) (m : Mat), s.matOf op = some (o, cid, c, m) →
    let b := s.bent bent
    let k := 8 * bent + m.tile
    (b.cur = none → s.bentOn bent = true → s.up = true → s.queueCourse bent ((b.last + 1) % 64) = some (cid, c) → s.awake cid c = true → c.mq.head? = some op → s.headReady bent cid op = true →
      (m.kind ≠ .wbld → exec (.matrixQueueServe bent) s = .next ({ s with bents := s.bents.put bent { last := (b.last + 1) % 64, cur := some op, todo := [], done := false } }.setAbsent [])) ∧
      (m.kind = .wbld →
        let lines := (List.range m.n).map (fun i => (s.weightWindow c).1 + m.line + i)
        exec (.matrixQueueServe bent) s = .next (({ s with bents := s.bents.put bent { last := (b.last + 1) % 64, cur := some op, todo := lines, done := false } }.setAbsent
          (lines.flatMap (fun j => [weightBase (2 * bent) / 256 + j, weightBase (2 * bent + 1) / 256 + j]))).lockWbld op c m))) ∧
    (b.cur = some op → b.done = false → s.mayLeave bent op = false → (s.courseLive c = true → s.awake cid c = true) → s.inPlace bent cid op = true →
      (m.kind = .mzero → exec (.matrixStep bent) s = .next (
        let t := (s.poke (tileBase bent m.tile) (List.replicate tileBytes 0)).setTile k { s.tile k with act := false, step := 0 }
        { t with bents := t.bents.put bent { t.bent bent with done := true } })) ∧
      (∀ ta tb kstep, m.kind.formats = some (ta, tb, kstep) →
        let maps := s.bitmapReads c m
        let steps := stepsOf kstep m.ks.length
        let t := s.tile k
        let st := if t.act then t.step else 0
        let sz := Ty.bytes m.kind.tileTy
        let rows := (Shape.of m.sha).rows
        let fresh := !t.act && m.mods.getLsbD 0
        let reads := s.stepReads c m ta tb (stepKs kstep m.ks st)
        let own := if fresh then [] else [(tileBase bent m.tile, sz * 192 * rows)]
        (∀ a, m.kind = .mmsp a → m.sparse = none → s.allPresent maps = true → s.engineReady op o (maps.filter (fun r => r.1 < weightBase 0)) [] = true →
          s.poisonedAll maps = none → exec (.matrixStep bent) s = .next (s.setOp op (.mat { m with sparse := some (s.formSparse c m) }))) ∧
        ((∀ a, m.kind = .mmsp a → m.sparse ≠ none) → st < steps → s.allPresent reads = false → exec (.matrixStep bent) s = .next s) ∧
        ((∀ a, m.kind = .mmsp a → m.sparse ≠ none) → st < steps → s.allPresent reads = true → s.engineReady op o (reads.filter (fun r => r.1 < weightBase 0)) [] = true →
          s.poisonedAll (reads ++ own) = none →
          let s0 := if fresh then s.zeroRows k sz rows else s
          let r := s0.takeStep c m ta tb kstep st m.ks
          let u := r.1.setTile k { t with mst := t.mst ||| r.2, step := st + 1, act := decide (st + 1 < steps) }
          exec (.matrixStep bent) s = .next (if st + 1 < steps then u else { u with bents := u.bents.put bent { u.bent bent with done := true } })))) ∧
    (b.cur = some op → b.done = true → exec (.matrixOpComplete bent) s = .next (s.endMat bent op cid)) ∧
    (∀ j, b.cur = some op → j ∈ b.todo →
      let i := j - ((s.weightWindow c).1 + m.line)
      let from0 := s.rowPieces c (m.addr + BitVec.ofNat 64 (256 * i)) 1 256 0 false
      let from1 := s.rowPieces c (m.addr + BitVec.ofNat 64 (256 * (m.n + i))) 1 256 0 false
      let l := (from0.toOption.getD []).flatten
      let r := (from1.toOption.getD []).flatten
      from0.isOk = true → from1.isOk = true → s.engineReady op o (l ++ r) [] = true → s.allPresent (l ++ r) = true →
      let t := s.pokeFrom (weightBase (2 * bent) + j * 256) (s.peekAll l) (s.poisonedAll l).isSome
      let t := (t.pokeFrom (weightBase (2 * bent + 1) + j * 256) (t.peekAll r) (t.poisonedAll r).isSome).setPresent [weightBase (2 * bent) / 256 + j, weightBase (2 * bent + 1) / 256 + j]
      let rest := b.todo.filter (· ≠ j)
      let t : State := { t with bents := t.bents.put bent { b with todo := rest } }
      exec (.wbldLineArrival bent j) s = .next (if rest.isEmpty then t.endMat bent op cid else t)) ∧
    (∀ tile, (s.tile (8 * bent + tile)).st = .saving cid → (s.saveTile cid (8 * bent + tile)).isSome = true →
      ∃ t, s.saveTile cid (8 * bent + tile) = some t ∧ exec (.tileSaveFinished bent tile) s = .next t)

/-- R199 to R201: what one step leaves in the tile. In canonical memory, element (m, n) of the rows of A is the saturated sum of the old element and the
step's products for INT32 tiles; for FP32 and FP64 tiles it is the single rounding of R200, and for mmq the group's contribution where the step ends a
group. Every byte outside those rows is as it was. The order in which products enter a step, and the sign of a zero that a scale gives, are the
model's choices (log entries 34 and 102). -/
def Obligations.MatrixStepValues : Prop :=
  ∀ (s : State) (c : Course) (q : Mat) (a b : Ty) (kstep st : Nat) (live : List Nat), s.memOk → q.tile < 8 →
    let k := 8 * bentOf c.core + q.tile
    let rows := (Shape.of q.sha).rows
    let ks := stepKs kstep live st
    let t := (s.takeStep c q a b kstep st live).1
    (∀ n, n < tileBase (bentOf c.core) q.tile ∨ tileBase (bentOf c.core) q.tile + 8 * 192 * rows ≤ n → memByte t.mem n = memByte s.mem n) ∧
    (∀ m n, m < rows → n < 192 →
      (q.kind = .mma .i8 .i8 ∨ q.kind = .mmsp .i8 →
        t.tileElem k 4 m n = (Ty.sat .i32 (Ty.val .i32 (s.tileElem k 4 m n) + s.stepInt c q ks m n) % 2 ^ 32).toNat) ∧
      (∀ f x y, q.kind = .mma x y ∨ q.kind = .mmsp x → q.kind.tileTy.fmt? = some f →
        let sz := Ty.bytes q.kind.tileTy
        t.tileElem k sz m n = (floatStep f (f.decode (s.tileElem k sz m n)) (s.stepPairs c q a b ks m n) false).1 % 2 ^ (8 * sz)) ∧
      (∀ y, q.kind = .mmq y →
        let g := (WRef.of q.wref).group
        (g ≠ 0 → (st + 1) * kstep % g = 0 → t.tileElem k 4 m n =
          (floatStep .f32 (Fmt.f32.decode (s.tileElem k 4 m n)) [s.groupTerm c q b ((st + 1) * kstep / g - 1) m n] false).1 % 2 ^ 32) ∧
        (g = 0 ∨ (st + 1) * kstep % g ≠ 0 → t = s)))

/-- R220 to R224: crew.join and crew.leave start one operation for the acting lanes once the entries they change can be written; a crew number of 0xFFFF
or above takes ILLEGAL FIELD. crew.info reads a word of the entry of the named crew, or of the lowest acting lane's, and 0 for a lane in none. An
operation applies its lanes in ascending order after the course's earlier crew operations; while an entry cannot be written, the driver is told once
and the operation waits. When %crew shows an operation, and an entry that goes bad, are readings of the spec (log entries 83 and 124). R221 and R222:
the entry of a crew as its 32 bytes; a lane in no crew, of a course that no reclaim has halted uncounted, that joins crew k is a member of it, and the
entry counts one more member, is live and names the lane's core. -/
def Obligations.CrewInstructions : Prop :=
  ((∀ (s : State) (env : Env) (x : Args), Ready s env Enc.crewJoin x →
    let l := (lanesOf (env.acting x)).map (fun l => (l, s.lane env x .n32 x.a l))
    ((∀ e ∈ l, e.2 < 0xFFFF) → s.tick.crewCheck env.co (l.map (fun e => (e.1, some e.2))) = none →
      exec (.crewJoin x) s = .next ((s.tick.addOp env x (.crew (l.map (fun e => (e.1, some e.2))) false)).complete env Enc.crewJoin x {})) ∧
    (∀ e, l.find? (fun e => decide (0xFFFF ≤ e.2)) = some e → exec (.crewJoin x) s = .next (s.tick.trapHere env ((Trap.illegal Sub.field).onLane e.1)))) ∧
  (∀ (s : State) (env : Env) (x : Args), Ready s env Enc.crewLeave x →
    let l := (lanesOf (env.acting x)).map (fun l => (l, (none : Option Nat)))
    s.tick.crewCheck env.co l = none →
      exec (.crewLeave x) s = .next ((s.tick.addOp env x (.crew l false)).complete env Enc.crewLeave x {})) ∧
  (∀ (s : State) (env : Env) (x : Args), Ready s env Enc.crewInfo x → env.acting x ≠ 0 →
    let c := env.val x .n32 x.a
    (∀ k, (c < 0xFFFF ∧ k = c) ∨ (c = 0xFFFFFFFF ∧ env.co.crewRd.find (lowLane (env.acting x)) = some k) →
      (s.tick.crewEnt env.co.core env.co.ctx k false).isOk = true →
      ∃ e, s.tick.crewEnt env.co.core env.co.ctx k false = .ok e ∧ exec (.crewInfo x) s = .next ((s.tick.putScalar env x.d (bits e.pack (64 * x.b.ctl) 64)).complete env Enc.crewInfo x {})) ∧
    (c = 0xFFFFFFFF → env.co.crewRd.find (lowLane (env.acting x)) = none →
      exec (.crewInfo x) s = .next ((s.tick.putScalar env x.d 0).complete env Enc.crewInfo x {}))) ∧
  (∀ (s : State) (op cid : Nat) (o : Op) (c : Course) (todo : List (Nat × Option Nat)) (told : Bool), s.ops.find op = some o → o.kind = .crew todo told →
    o.cid = some cid → s.courses.find cid = some c → (s.older cid op).any (fun e => e.isCrew) = false →
    (s.crewCheck c todo = none → exec (.crewEventApply op) s = .next ((todo.foldl (fun s e => match e.2 with
      | some k => s.crewJoin cid e.1 k
      | none => s.crewLeave cid e.1) s).finishOp op)) ∧
    (∀ t, s.crewCheck c todo = some t → exec (.crewEventApply op) s = .next (if told then s else (s.setOp op (.crew todo true)).notify (s.partOf c.ctx)
      { stamp := s.time.ns, ctx := c.ctx, src := courseSource c.core c.cslot o.path, cls := t.cls, sub := t.sub })))) ∧
  ((∀ e : CrewEnt, e.gen < 2 ^ 32 → e.members < 2 ^ 18 → e.hcount < 2 ^ 12 → e.cores < 2 ^ 96 → CrewEnt.ofNat e.pack = e) ∧
  (∀ (s : State) (cid l k pa : Nat) (c : Course), s.courses.find cid = some c → c.crew.find l = none → s.pkg.frameMap = [] → (c.reclaimed = none ∨ c.borrowed = false ∨ c.hm.contains k = true) →
    s.crewAt c.core c.ctx k true = .ok pa → c.core < 96 → s.memOk →
    let e := CrewEnt.ofNat (s.peekNat pa 32)
    let t := s.crewJoin cid l k
    e.members + 1 < 2 ^ 18 →
    (∃ d, t.courses.find cid = some d ∧ d.crew.find l = some k) ∧
    CrewEnt.ofNat (t.peekNat pa 32) = { e with live := true, members := e.members + 1, cores := setBits e.cores c.core 1 1 }))

/-- R227, R228 and R230: the barrier instructions, on a number that the partition grants. Binding, arriving and freeing start an operation at the
barrier's home; waiting names what the path's next run waits for. R228 to R231: an arrival is applied at the barrier's home once the course's earlier
operations on the number have reached it and, for a plain or dropping one, its earlier accesses are performed. The arrival that brings PENDING to 0
releases the phase: PHASE moves on, PENDING is EXPECT again, and A is clear in every course that takes part and has its slot; an earlier one only
lowers PENDING. A released path is ready after the release latency. -/
def Obligations.BarrierInstructions : Prop :=
  (∀ (s : State) (env : Env) (x : Args), env.acting x ≠ 0 →
    let b := env.val x .n32 x.a
    (s.barGranted env.co.ctx b = true →
      (Ready s env Enc.barBind x → 1 ≤ env.val x .n32 x.b → env.val x .n32 x.b ≤ (if b < 16 then 2048 else 196608) →
        exec (.barBind x) s = .next ((s.tick.addOp env x (.barBind b (env.val x .n32 x.b) (BitVec.ofNat 6 x.d.num) (env.acting x))).complete env
          Enc.barBind x {})) ∧
      (∀ r, s.ownBar env.co.ctx (barKey env.co.core b) = some r →
        (Ready s env Enc.barArrive x → exec (.barArrive x) s =
          .next ((s.tick.addOp env x (.arrive b 0 (lanesOf (env.acting x)))).complete env Enc.barArrive x {})) ∧
        (Ready s env Enc.barArriveEnrol x → exec (.barArriveEnrol x) s =
          .next ((s.tick.addOp env x (.arrive b 1 (lanesOf (env.acting x)))).complete env Enc.barArriveEnrol x {})) ∧
        (Ready s env Enc.barArriveDrop x → exec (.barArriveDrop x) s =
          .next ((s.tick.addOp env x (.arrive b 2 (lanesOf (env.acting x)))).complete env Enc.barArriveDrop x {}))) ∧
      (Ready s env Enc.barWait x → exec (.barWait x) s = .next (s.tick.complete env Enc.barWait x
        { wait := .bar b s.nextId (env.acting x) (match x.d with | .reg p => some p | _ => none) false })) ∧
      (Ready s env Enc.barFree x → exec (.barFree x) s = .next ((s.tick.addOp env x (.barFree b)).complete env Enc.barFree x {}))) ∧
    (s.barGranted env.co.ctx b = false →
      (Ready s env Enc.barBind x → exec (.barBind x) s = .next (s.tick.trapHere env (Trap.illegal Sub.field))) ∧
      (Ready s env Enc.barArrive x → exec (.barArrive x) s = .next (s.tick.trapHere env (Trap.illegal Sub.field))) ∧
      (Ready s env Enc.barWait x → exec (.barWait x) s = .next (s.tick.trapHere env (Trap.illegal Sub.field))) ∧
      (Ready s env Enc.barFree x → exec (.barFree x) s = .next (s.tick.trapHere env (Trap.illegal Sub.field))))) ∧
  ((∀ (s : State) (op cid b mode : Nat) (o : Op) (c : Course) (todo : List Nat), s.ops.find op = some o → o.kind = .arrive b mode todo →
    o.cid = some cid → s.courses.find cid = some c → s.reachedHome cid c op b = true → mode ≠ 3 → (mode = 1 ∨ s.drained cid op = true) →
    let t := s.arriveAll op cid b mode ((s.olderArrivals cid op b).flatMap (·.2)) [] todo
    exec (.barArrivalApply op) s = .next (if t.arrived op then t.finishOp op else t)) ∧
  (∀ (s : State) (ctx key : Nat) (r : Barrier), s.ownBar ctx key = some r →
    let t := s.countDown ctx key
    (1 < r.pending → t.ownBar ctx key = some { r with pending := r.pending - 1 } ∧ t.courses = s.courses) ∧
    (r.pending ≤ 1 → t.ownBar ctx key = some { r with phase := r.phase + 1, pending := r.expect } ∧
      ∀ cid c, s.courses.find cid = some c → c.atBar ctx key = true → c.saved = false →
        ∃ d, t.courses.find cid = some d ∧ d.barA.getD (barNumber key) 0 = 0 ∧ d.barE = c.barE)) ∧
  (∀ (s : State) (cid p t : Nat) (lanes ones : LaneMask) (d : Option (BitVec 6)) (q : Path), s.path cid p = some q →
    q.wait = .barWake t lanes ones d → t ≤ s.time.clk →
    exec (.barReleaseWake cid p) s = .next (s.setPath cid p { q with wait := .barWake 0 lanes ones d })))

/-- R236 to R241, R42, R43, R70 and R80: how kernels, runs and operations come to go on. When flags clear, and when conditions of waits are looked at, are
the model's choices (log entries 68 and 92). What a claim that faults does, and how an instruction of the access queue acts, are readings of the spec
(log entries 15, 120 and 123). -/
def Obligations.KernelsAndRuns : Prop :=
  -- launch reads its block at issue and appends a node to a queue of its context
  (∀ (s : State) (env : Env) (x : Args), Ready s env Enc.launch x → env.acting x ≠ 0 →
    let q := (env.co.scalar x.d.num).toNat
    let va := (env.co.scalar x.a.num).toNat
    let w := s.tick.blockWords env va
    s.ownsQueue env.co.ctx q = true → s.tick.blockOpen env va → launchBad w = false →
    exec (.launch x) s = .next ((s.tick.addOp env x (.append q 1 w)).complete env Enc.launch x {})) ∧
  -- the next course of a kernel takes the place that is found for it
  (∀ (s : State) (kern : Nat) (k : Kernel) (p : Spot), s.up = true → s.kernels.find kern = some k → s.kernelAhead kern k = false →
    s.kernelSpot k = some p → (s.claim p.core p.cslot p.base (launchRows k.words)).isSome = true →
    exec (.placement kern) s = .next (((s.claim p.core p.cslot p.base (launchRows k.words)).getD s).placeCourse kern k p)) ∧
  -- a claim whose saving faults leaves the place as it is, and the driver is told once for the kernel
  (∀ (s : State) (kern : Nat) (k : Kernel) (p : Spot), s.up = true → s.kernels.find kern = some k → s.kernelAhead kern k = false →
    s.kernelSpot k = some p → s.claim p.core p.cslot p.base (launchRows k.words) = none → exec (.placement kern) s = .next (s.tellKernel kern k p)) ∧
  -- a course whose entry overlay is loaded starts, in its launch state, with no crew to join
  (∀ (s : State) (cid j : Nat) (c : Course) (k : Kernel) (e : Nat × Nat × Nat), s.up = true → s.courses.find cid = some c →
    s.kernels.find c.kern = some k → c.started = false → c.moved = none → c.saved = false → c.spl = 0 → s.entryOf c.core k = some e →
    s.imageSlot c.core k.ctx e.1 e.2.1 = some j → 65535 ≤ k.crew → s.crewCheck c [] = none →
    exec (.courseStart cid) s = .next (((s.zeroSegment c).launchWords c (~~~c.exited)).modCourse cid (fun c => { c with started := true }))) ∧
  -- an issue slot that holds a run gets the turn; an idle one arbitrates, and its winner starts a run
  (∀ (s : State) (core i : Nat) (b : Nat × Nat), s.up = true → core < 96 → i < 4 → (s.slotOf (core * 4 + i)).busy = some b →
    exec (.runArbitration core i) s = .next { s with cur := some (core * 4 + i) }) ∧
  (∀ (s : State) (core i : Nat) (w : Contender), s.up = true → core < 96 → i < 4 → (s.slotOf (core * 4 + i)).busy = none →
    let k := core * 4 + i
    let t := s.wakeSlot k
    winner (t.slotOf k).last (t.contenders k) = some w →
    let u := (((t.contenders k).filter (fun a => a.cid != w.cid)).map (·.cid)).foldl
      (fun (s : State) cid => s.modCourse cid (fun c => c.passOver s.time.clk)) t
    let v := u.modCourse w.cid (fun c => { c with passed := 0, forced := none })
    exec (.runArbitration core i) s = .next (State.startRun
      { v with slots := v.slots.put k { v.slotOf k with busy := some (w.cid, w.p), last := w.co.cslot }, cur := some k } k w.cid w.p)) ∧
  -- an operation with nothing to do ends; one whose results are ready lands between runs
  (∀ (s : State) (op line : Nat) (o : Op), s.hasOp op o → o.kind = .nothing →
    exec (.longLatencyComplete op line) s = .next (s.finishOp op)) ∧
  (∀ (s : State) (op line : Nat) (o : Op) (t : Ty) (d : Opnd) (l : List (Nat × Nat)), s.hasOp op o → o.kind = .land t d l → s.mayLand o = true →
    exec (.longLatencyComplete op line) s = .next ((s.putOp o t d l).finishOp op)) ∧
  (∀ (s : State) (op line : Nat) (o : Op) (j : MemJob), s.hasOp op o → o.kind = .mem j → j.todo = [] → s.mayLand o = true →
    exec (.longLatencyComplete op line) s = .next (s.landMem op o j)) ∧
  -- an instruction of the access queue that comes to its head acts in its own place in program order, with the operands it read at issue
  (∀ (s : State) (op line cid slot : Nat) (o : Op) (c co : Course) (pa : Path) (code : BitVec 9) (x : Args) (rows : Tab (BitVec 2048)) (body : Env → State → Res),
    s.hasOp op o → o.kind = .behind code x slot co pa rows → o.cid = some cid → s.courses.find cid = some c → queuedBody code x = some body → s.queueHead cid c op = true →
    let u : State := { s with rows := windowFrom s.rows rows c co pa.lwb, ops := s.ops.del op, nextId := op }
    let r := body { slot := slot, cid := cid, p := o.path, co := c.asRead co, pa := pa } u
    (∀ t a, r = .done t a → exec (.longLatencyComplete op line) s =
      .next { t with rows := windowFrom t.rows s.rows c c pa.lwb, nextId := max t.nextId s.nextId }) ∧
    (∀ tr, r = .trap tr → exec (.longLatencyComplete op line) s = .next ((s.lateTrap op o tr).finishOp op))) ∧
  -- a due sample examines a course and puts a record
  (∀ (s : State) (core part cid p r : Nat) (m : Sampler) (c : Course) (q : Path), s.samplers.find (core * 16 + part) = some m →
    s.sampleDue m = true → s.nextSampled core m = some (cid, c) → s.samplePath cid c = some (p, q, r) → m.on = true → s.time.clk < m.next + m.period →
    let w := s.putRecord core { m with last := c.cslot } (s.sampleWords part c p q r)
    exec (.sample core part) s = .next
      { w.1 with samplers := w.1.samplers.put (core * 16 + part) { w.2 with next := m.next + m.period } })

/-- R70 and R77: the path that wins an issue slot. Where some contender is forced, a contender forced earliest wins; otherwise no contender has a higher
class than the winner (a demoted path counts as class −1), and of equal ones the winner comes first in round-robin order after the last winner's
course slot. An issue slot with a contender has a winner. -/
def Obligations.ArbitrationPicksTheWinner : Prop :=
  ∀ (last : Nat) (l : List Contender), (l ≠ [] → ∃ w, winner last l = some w) ∧
    ∀ w, winner last l = some w → w ∈ l ∧ ∀ a ∈ l,
      (∀ x, a.co.forced = some x → ∃ y, w.co.forced = some y ∧ y ≤ x) ∧
      (w.co.forced = none → a.pa.cls ≤ w.pa.cls ∧
        (a.pa.cls = w.pa.cls → (w.co.cslot + 31 - last) % 32 ≤ (a.co.cslot + 31 - last) % 32))

/-- R80 to R82, R330 and R331: the sampler's commands act on the sampler of the core and partition where a lane acts. How prof.on reads a large immediate
is the model's choice (log entry 101). -/
def Obligations.SamplerCommands : Prop :=
  ∀ (s : State) (env : Env) (x : Args), env.acting x ≠ 0 →
    let m := env.sampler s
    let goesTo (e : Entry) (t : State) : Host.Outcome State Fault Refusal := .next (t.complete env e x {})
    let put (m : Sampler) : State := s.tick.putSampler env m
    (Ready s env Enc.profOff x → exec (.profOff x) s = goesTo Enc.profOff
      (put { m with on := false, next := if m.on = true ∧ m.next ≤ s.tick.time.clk ∧ s.ctxActive m.ctx = true then s.tick.time.clk else 0 })) ∧
    (Ready s env Enc.profOn x →
      let n := min 65535 (max 16 (match x.a with | .imm v => v.toNat | o => env.n64 x o))
      exec (.profOn x) s = goesTo Enc.profOn (put { m with on := true, period := n, next := s.tick.time.clk + n })) ∧
    (Ready s env Enc.profBuf x → env.n64 x x.a % 64 = 0 → exec (.profBuf x) s = goesTo Enc.profBuf
      (put { m with ctx := env.co.ctx, base := env.n64 x x.a, cap := 2 ^ x.b.ctl, prod := 0, cons := 0, drop := 0, last := 31 })) ∧
    (Ready s env Enc.profBuf x → env.n64 x x.a % 64 ≠ 0 → exec (.profBuf x) s =
      .next (s.tick.trapHere env (Trap.align 0xFF (env.n64 x x.a)))) ∧
    (Ready s env Enc.profRdp x → exec (.profRdp x) s = goesTo Enc.profRdp (s.tick.putScalar env x.d m.prod.toNat)) ∧
    (Ready s env Enc.profCons x → exec (.profCons x) s = goesTo Enc.profCons (put { m with cons := BitVec.ofNat 32 (env.n64 x x.a) })) ∧
    (Ready s env Enc.profDrop x → exec (.profDrop x) s = goesTo Enc.profDrop
      ((s.tick.putScalar env x.d m.drop).putSampler env { m with drop := 0 }))

/-- R80 and R81: what a sample finds and where its record goes. A course of which a path issues in the sampled clk is reported as ISSUED with that
instruction; a path that holds the slot otherwise as INTLK, a ready one as NOTSEL, one whose header's flags alone hold it as FLAG, one that waits as
SCHED, another one that awaits the driver as TRAP and the rest as HALT. A record is dropped, and counted as dropped, when the buffer is full. Samples
around a halt follow log entry 79. -/
def Obligations.SamplesAndRecords : Prop :=
  (∀ (s : State) (cid : Nat) (c : Course) (q : Path) (i : Issued), (s.slotOf c.slot).issued = some i → i.clk = s.time.clk → i.cid = cid →
    c.paths.find i.p = some q → s.samplePath cid c = some (i.p, { q with ovl := i.ovl, idx := i.idx }, 0)) ∧
  (∀ (s : State) (cid p : Nat) (c : Course) (q : Path),
    let holds := (s.slotOf c.slot).busy = some (cid, p)
    let free := s.mayRun cid c = true ∧ s.waitOver cid c q = true
    (holds → s.reason cid c p q = 1) ∧
    (¬ holds → free → s.headerOk c q = true → s.reason cid c p q = 2) ∧
    (¬ holds → free → s.headerOk c q = false → s.reason cid c p q = 3) ∧
    (¬ holds → s.waitDone cid c q = false → s.reason cid c p q = 4) ∧
    (¬ holds → s.waitDone cid c q = true → q.stopped = true → s.reason cid c p q = 5) ∧
    (¬ holds → s.waitOver cid c q = true → s.mayRun cid c = false → s.reason cid c p q = 6)) ∧
  (∀ (s : State) (core v : Nat) (m : Sampler), m.cap ≤ (m.prod - m.cons).toNat →
    s.putRecord core m v = (s, { m with drop := min (2 ^ 32 - 1) (m.drop + 1) })) ∧
  (∀ (s : State) (core v : Nat) (m : Sampler) (pa : Nat × PageKind), (m.prod - m.cons).toNat < m.cap →
    s.translate core m.ctx (m.base + 16 * (m.prod.toNat % m.cap)) (some false) true = .ok pa →
    s.putRecord core m v = (s.pokeNat pa.1 16 v, { m with prod := m.prod + 1 }))

/-- R252 and R121: signal objects. sig.dec subtracts n and sig.set leaves v, each as one atomic that is a release; sig.wait reads the word, unless an
earlier access holds it back, and names what the path's next run waits for; a word with an error is reported when its data arrive. slice.att makes the
entry ATTACHED and appends a SLICE node. A write to a watched word re-evaluates the paths that wait for it: the one whose comparison holds keeps the
value read, and an error in the word ends the wait too. -/
def Obligations.SignalInstructions : Prop :=
  (∀ (s : State) (env : Env) (x : Args), env.acting x ≠ 0 →
    let v : Word := BitVec.ofNat 64 (env.val x .i64 x.b)
    let va := (env.co.scalar x.a.num).toNat
    let job (a : Acc) (m : MemOp) (n : Word) : OpKind := .mem { m := m, t := .n64, d := x.d, acq := false, rel := true, scope := .pkg, lanes := env.acting x, so := a.kind == .so, array := none, todo := [{ a with x := n.toNat }], got := [], whole := [], bad := none }
    let read (a : Acc) : MemJob := { m := .ld, t := .n64, d := .zero, acq := true, rel := false, scope := .pkg, lanes := env.acting x, so := a.kind == .so, array := none, todo := [a], got := [], whole := [], bad := none }
    (Ready s env Enc.sigDec x → (s.tick.signalAcc env va true).isOk = true →
      ∃ a, s.tick.signalAcc env va true = .ok a ∧ exec (.sigDec x) s = .next ((s.tick.addOp env x (job a .add (-v))).complete env Enc.sigDec x {})) ∧
    (Ready s env Enc.sigSet x → (s.tick.signalAcc env va true).isOk = true →
      ∃ a, s.tick.signalAcc env va true = .ok a ∧ exec (.sigSet x) s = .next ((s.tick.addOp env x (job a .xchg v)).complete env Enc.sigSet x {})) ∧
    (Ready s env Enc.sigWait x → (s.tick.signalAcc env va false).isOk = true →
      ∃ a, s.tick.signalAcc env va false = .ok a ∧
        let m : Word := BitVec.ofNat 64 (s.peekNat a.pa 8)
        let d : Option (BitVec 6) := match x.d with | .reg n => some n | _ => none
        (s.tick.accReady s.nextId env.cid (read a) a = true → s.poisonedAs a.va a.pa 8 = none →
          exec (.sigWait x) s = .next (s.tick.complete env Enc.sigWait x
            { wait := .sig a.va a.pa (Mod.number x.m) v d (if ccHolds (Mod.number x.m) m v then some (some m) else none) })) ∧
        (∀ u, s.tick.accReady s.nextId env.cid (read a) a = true → s.poisonedAs a.va a.pa 8 = some u →
          exec (.sigWait x) s = .next ((s.tick.setPath env.cid env.p (env.pa.addLate { trap := Trap.poison 0xFF u, ovl := env.pa.ovl, idx := env.pa.idx, place := s.nextId })).complete env Enc.sigWait x {}))) ∧
    (∀ t, Ready s env Enc.sigDec x → s.tick.signalAcc env va true = .error t → exec (.sigDec x) s = .next (s.tick.trapHere env t))) ∧
  (∀ (s : State) (env : Env) (x : Args), Ready s env Enc.sliceAtt x → env.acting x ≠ 0 →
    let d := (env.co.scalar x.d.num).toNat
    let w := env.co.scalar x.a.num
    let sig := env.co.scalar x.b.num
    let h := Handle.ofWord w
    s.tick.ownsQueue env.co.ctx (bits d 0 5) = true → nbit d 5 = false → s.tick.sliceOwned env h = .ok () →
    exec (.sliceAtt x) s = .next (((((s.tick.putSliceWord env.co.core h 2 sig.toNat).putSliceWord env.co.core h 3 (bits d 0 5)).putSliceWord env.co.core h 1
      (sliceWord1 h.gen Slice.attached)).addOp env x (.append (bits d 0 5) 7 [w, sig, BitVec.ofNat 64 (d / 64 * 64)])).complete env Enc.sliceAtt x {})) ∧
  (∀ (s : State) (pa va cid p cc : Nat) (c : Course) (q : Path) (v : Word) (d : Option (BitVec 6)), s.nodes = [] → s.courses.find cid = some c →
    c.paths.find p = some q → q.wait = .sig va pa cc v d none →
    let m : Word := BitVec.ofNat 64 (s.peekNat pa 8)
    ∃ t, exec (.signalWriteReeval pa) s = .next t ∧ t.mem = s.mem ∧
      t.path cid p = some { q with wait := .sig va pa cc v d (if (s.poisoned pa 8).isSome then some none else if ccHolds cc m v then some (some m) else none) })

/-- R244 to R251: the queue walker. The first READY node of an ACTIVE queue with fewer than 64 RUNNING nodes starts; when its operation has ended it
becomes COMPLETE and sends its arrivals; a fault makes it FAULTED, stops an ACTIVE queue and notifies the driver. An arrival at a WAITING node lowers
PREDLEFT, and the last one makes it READY if a completing arrival came, SKIPPED otherwise. Fault codes of nodes follow log entries 42 to 45. R248,
R250, R314 and R217 to R219: what comes to queues from outside. The driver enables a queue with a block of its own partition, disables it (QBLOCK is
0), resumes a STOPPED one, and rings its doorbell for the node after TAIL; a peer's write lands in the armed ranges it meets with its marks, and what
meets none is counted and discarded; a decoded frame is given to the node's array as rows of 256 bytes, and the last one, or one with an error, ends
the node. What a queue needs at enable is a reading of the spec, and the pitch of a picture the model's choice (log entries 41 and 116). -/
def Obligations.QueuesAndNodes : Prop :=
  ((∀ (s : State) (q slot : Nat) (v : Queue), s.up = true → s.queues.find q = some v →
    (v.st = .active → v.closing = false → (s.runs q).length < 64 → s.firstReady q v = some slot → s.nodeWaits q v slot = false →
      let run : NodeRun := { q := q, slot := slot, kern := none, op := none, watch := none, done := false, cond := false, bad := none }
      let t := s.setNode q v slot 3
      let u : State := { t with nodes := t.nodes ++ [run] }
      exec (.nodeStart q slot) s = .next ((u.runNode q slot v).settleQueue q)) ∧
    (∀ r, s.nodes.find? (fun r => r.q == q && r.slot == slot) = some r → r.bad = none → r.done = true →
      bits (s.nodeWord q v slot 0) 60 4 ≠ 1 → bits (s.nodeWord q v slot 0) 60 4 ≠ 7 → bits (s.nodeWord q v slot 0) 60 4 ≠ 8 →
      exec (.nodeComplete q slot) s = .next ((((s.leaveRun q v r).setNode q v slot 4).sendArrivals q slot r.cond).settleQueue q)) ∧
    (∀ r f c u, s.nodes.find? (fun r => r.q == q && r.slot == slot) = some r → r.bad = some (f, c, u) → v.st = .active →
      let t := ((s.leaveRun q v r).setNode q v slot 6).putNode q v slot 3 (f * 2 ^ 56 + c * 2 ^ 48 + u * 2 ^ 40 + bits (s.nodeWord q v slot 3) 0 16)
      exec (.nodeFault q slot) s = .next (({ t with queues := t.queues.put q { v with st := .stopped, fnode := slot } }.settleQueue q).notify v.part
        { stamp := t.time.ns, ctx := v.ctx, src := 2 * 2 ^ 13 + q, cls := BitVec.ofNat 8 c, sub := BitVec.ofNat 8 u }))) ∧
  (∀ (s : State) (q slot src fuel : Nat) (v : Queue) (live : Bool), s.queues.find q = some v →
    let w0 := s.nodeWord q v slot 0
    let lives := nbit w0 56 || live
    let after (st : Nat) : State := s.putNode q v slot 0 (setBits (setBits (setBits w0 57 3 st) 56 1 (if lives then 1 else 0)) 32 8 (bits w0 32 8 - 1))
    (v.nslot ≤ slot → s.arriveNode (fuel + 1) q src slot live = s) ∧
    (slot < v.nslot → nodeState w0 = 3 → bits w0 60 4 = 6 → s.inBody q v slot src = true →
      s.arriveNode (fuel + 1) q src slot live = if (s.whileTurn q v slot).2 then (s.whileTurn q v slot).1.arriveNode fuel q slot (bits w0 16 16) true else (s.whileTurn q v slot).1) ∧
    (slot < v.nslot → nodeState w0 ≠ 1 → ¬ (nodeState w0 = 3 ∧ bits w0 60 4 = 6 ∧ s.inBody q v slot src = true) → s.arriveNode (fuel + 1) q src slot live = s) ∧
    (slot < v.nslot → nodeState w0 = 1 → 2 ≤ bits w0 32 8 → s.arriveNode (fuel + 1) q src slot live = after 1) ∧
    (slot < v.nslot → nodeState w0 = 1 → bits w0 32 8 = 1 → lives = true → s.arriveNode (fuel + 1) q src slot live = after 2) ∧
    (slot < v.nslot → nodeState w0 = 1 → bits w0 32 8 = 1 → lives = false →
      s.arriveNode (fuel + 1) q src slot live = [((after 5).succs q v slot).1, ((after 5).succs q v slot).2.1, ((after 5).succs q v slot).2.2].foldl
        (fun s j => s.arriveNode fuel q slot j false) (after 5)))) ∧
  ((∀ (s : State) (page q : Nat), s.queuePage page q = true →
    (∀ ctx w (va : Word), va ≠ 0 →
      let u := s.setQblock q va
      s.queues.find q = none → va.toNat % 64 = 0 → u.blockOwner (page - 1) q va.toNat = some (ctx, w) →
      ringSize (bits (wordAt w 1) 0 16) = true → wordAt w 0 % 128 = 0 →
      ∃ v : Queue, v.st = .active ∧ v.block = va ∧ v.ring = wordAt w 0 ∧ v.ctx = ctx ∧ v.part = page - 1 ∧ v.prio = bits (wordAt w 1) 41 3 ∧
        v.nslot = bits (wordAt w 1) 0 16 ∧ v.head = 0 ∧ v.fnode = 0xFFFF ∧ v.closing = false ∧ v.used ≤ v.nslot ∧
        v.tail = (if v.used = 0 then 0xFFFF else v.used - 1) ∧ (∀ j, j < v.used → u.nodeSt q v j ≠ 0) ∧ (v.used < v.nslot → u.nodeSt q v v.used = 0) ∧
        let t := (List.range v.used).foldl (fun (s : State) j =>
          let w0 := s.nodeWord q v j 0
          if nodeState w0 = 1 ∧ bits w0 40 8 = 0 then s.setNode q v j 2 else s) u
        exec (.queueEnable page q va) s = .next ({ t with queues := t.queues.put q v }.settleQueue q)) ∧
    (∀ v, s.queues.find q = some v →
      (v.st ≠ .off → exec (.queueDisable page q) s = .next (({ s.setQblock q 0 with queues := s.queues.put q { v with closing := true } }).settleQueue q)) ∧
      (v.st = .stopped → v.fnode < v.nslot → { s with queues := s.queues.put q { v with st := .active } }.nodeSt q v v.fnode = 2 →
        exec (.queueResume page q) s = .next ({ s with queues := s.queues.put q { v with st := .active } }.settleQueue q)) ∧
      (v.st ≠ .off → v.used < v.nslot → s.nodeSt q v ((v.tail + 1) % v.nslot) ≠ 0 →
        exec (.bell page q ((v.tail + 1) % v.nslot)) s = .next (s.linkTail q ((v.tail + 1) % v.nslot))) ∧
      (∀ tail, tail ≠ (v.tail + 1) % v.nslot → exec (.bell page q tail) s = .next s))) ∧
  (∀ (s : State) (off : Nat) (bytes : List Byte) (marks : List Bool), s.up = true → bytes ≠ [] → off + bytes.length ≤ 2 ^ 36 →
    ((s.pkg.peerEn.getD (off / 2 ^ 32) (0, false)).2 = false ∨ s.armed off bytes.length = [] →
      exec (.peerWrite off (bytes, marks)) s = .next { s with pkg := { s.pkg with peerErr := s.pkg.peerErr.put (off / 2 ^ 32) ((s.pkg.peerErr.getD (off / 2 ^ 32) 0 + 1) % 2 ^ 32) } }) ∧
    (∀ op o q slot d count base got ps, (s.pkg.peerEn.getD (off / 2 ^ 32) (0, false)).2 = true →
      s.armed off bytes.length = [(op, o, 0, d.toNat + (off - base), bytes.length)] → s.ops.find op = some o → o.kind = .storage q slot d count base got →
      s.copyPieces (queueCore q) o.ctx none (BitVec.ofNat 64 (d.toNat + (off - base))) bytes.length true = .ok ps → s.engineReady op o [] ps = true →
      let t := (s.writeMarked ps (bytes, marks.take bytes.length)).setOp op (.storage q slot d count base (got + bytes.length))
      exec (.peerWrite off (bytes, marks)) s = .next (if got + bytes.length < count then t else t.nodeEnded (some (q, slot)) none))) ∧
  (∀ (s : State) (q slot op : Nat) (o : Op) (v : Queue), s.up = true → s.mediaOp q slot = some (op, o) → s.queues.find q = some v →
    ∀ ten width height luma chroma err last, ∀ busy, o.kind = .media q slot busy false → busy = true ∨ s.decoderFree op q = true →
    let frame := pictureBytes ten width height luma chroma
    let t := s.setOp op (.media q slot true last)
    let u : State := if frame.length / 256 = 0 then t else
      { t with ops := t.ops.put t.nextId { cid := none, ctx := v.ctx, path := q, ovl := 0, idx := slot, flag := none, lwb := 0, pend := [], kind := .ea { o := .feed (BitVec.ofNat 64 (s.nodeWord q v slot 11)) (frame.length / 256), phase := .offered, d := .zero, result := 0, trees := [], writes := [], shoots := [], oldNodes := [], pages := [], leaves := [], freed := none, data := frame } }, nextId := t.nextId + 1 }
    frame.length % 256 = 0 ∧
    exec (.decodeFrame q slot ⟨ten, width, height, luma, chroma⟩ err last) s = .next
      (if (err || s.badBitstream q slot v) || last then u.freeWord.2.putNode q v slot 13 u.freeWord.1.toNat else u)))

/-- R254 to R271: expert queues. xq.cfg of a valid block starts an operation that applies once the queue holds no row and no batch; xq.push of rows that
pass its checks and are accepted starts one that copies them and then clears the guard in duplicate lanes, a row for another package travelling as a
message; xq.pop, xq.comb, xq.done and xq.stat act on an outstanding batch or give the queue's status. Acceptance, checks and waits follow readings of
the spec (log entries 46 to 50). -/
def Obligations.ExpertQueueInstructions : Prop :=
  ∀ (s : State) (env : Env) (x : Args), env.acting x ≠ 0 →
    let ctx := env.co.ctx
    let a := env.co.scalar x.a.num
    let d := env.co.scalar x.d.num
    (Ready s env Enc.xqCfg x →
      let q := env.val x .n32 x.b
      let w := s.tick.blockWords env a.toNat
      s.tick.xqGranted (s.tick.partOf ctx) q = true → s.tick.xqForeign ctx q = false → s.tick.blockOpen env a.toNat →
      (∀ t, xqCheck w = some t → exec (.xqCfg x) s = .next (s.tick.trapHere env t)) ∧
      (∀ t, xqCheck w = none → s.tick.ringOut ctx q w = some t → exec (.xqCfg x) s = .next (s.tick.trapHere env t)) ∧
      (xqCheck w = none → s.tick.ringOut ctx q w = none → exec (.xqCfg x) s = .next ((s.tick.addOp env x (.xqCfg q w)).complete env Enc.xqCfg x {}))) ∧
    (Ready s env Enc.xqPush x →
      let own := s.tick.devNo ctx
      let l := (lanesOf (env.acting x)).map (s.tick.pushRow env x own)
      (∀ t, s.tick.pushTrap env own l = some t → exec (.xqPush x) s = .next (s.tick.trapHere env t)) ∧
      (s.tick.pushTrap env own l = none → s.tick.drained env.cid s.nextId = true → (∀ r ∈ l, r.link = none → s.tick.xqPending r.q = false) →
        (s.tick.acceptRows l).isOk = true → s.tick.replayRoom (l.filterMap (·.link)) = true →
        ∃ t here dups srcs, s.tick.acceptRows l = .ok (t, here, dups) ∧
          let e := t.sendRows t.nextId l
          let u : State := if l.any (fun r => r.link.isSome) then { e.1 with free := s.free + 1 } else e.1
          exec (.xqPush x) s = .next (((u.addOp env x (.xqPush (match x.g with | .on p _ => p | .always => 0) (here ++ e.2.1) dups e.2.2)).lockRanges t.nextId false
            (lockPieces false srcs)).complete env Enc.xqPush x {}))) ∧
    (∀ q v b, s.tick.batchOf ctx a = some (q, v, b) → d.toNat % 16 = 0 → Ready s env Enc.xqPop x →
      let t := if x.b = .zero then noTags else env.co.scalar x.b.num
      let rows := s.tick.xqRange env d (b.rows.length * v.rowSize) true
      let tags := if x.b = .zero then .ok [] else s.tick.xqRange env t (8 * b.rows.length) true
      (x.b ≠ .zero → t.toNat % 8 = 0) → rows.isOk = true → tags.isOk = true →
      let l := passed rows ++ passed tags
      exec (.xqPop x) s = .next ((((s.tick.addOp env x (.xqPop q (b.rows.map (·.loc)) d t)).clearLines (scratchLinesOf l)).lockRanges s.nextId false
        (lockPieces true l)).complete env Enc.xqPop x {})) ∧
    (∀ q v b, s.tick.batchOf ctx a = some (q, v, b) → d.toNat % 16 = 0 → Ready s env Enc.xqComb x →
      let own := s.tick.devNo ctx
      let tags := (s.tick.batchTags q v b).toOption.getD []
      s.tick.rowsMoving q (b.rows.map (·.loc)) = false → (s.tick.batchTags q v b).isOk = true →
      (∀ g ∈ tags, bits g.toNat 32 32 < v.ntok ∧ bits g.toNat 28 4 < v.kmax) → (s.tick.xqRange env d (tags.length * v.outSize) false).isOk = true →
      (∀ g ∈ tags, bits g.toNat 16 12 = own → (s.tick.xqRange env (BitVec.ofNat 64 (v.slotVa g)) v.outSize true).isOk = true) →
      s.tick.replayRoom ((tags.filter (fun g => bits g.toNat 16 12 != own)).filterMap (fun g => s.tick.routeTo (bits g.toNat 16 12))) = true →
      let e := s.tick.sendComb s.nextId q own v (tags.zipIdx.map (fun g => (g.2, g.1)))
      exec (.xqComb x) s = .next ((e.1.addOp env x (.xqComb q d e.2.1 e.2.2)).complete env Enc.xqComb x {})) ∧
    (∀ q v b, s.tick.batchOf ctx a = some (q, v, b) → Ready s env Enc.xqDone x →
      (∀ o ∈ s.tick.opsOf env.cid, (∀ d t, o.2.kind ≠ .xqPop q (b.rows.map (·.loc)) d t) ∧ (∀ d todo r, todo ≠ [] → o.2.kind ≠ .xqComb q d todo r)) →
      exec (.xqDone x) s = .next (((s.tick.batchDone q a).addOp env x .nothing).complete env Enc.xqDone x {}) ∧
      ((s.tick.batchDone q a).xqs.find q = some { v with out := v.out.filter (fun b => b.handle != a) })) ∧
    (s.tick.batchOf ctx a = none → (Ready s env Enc.xqPop x → exec (.xqPop x) s = .next (s.tick.trapHere env Trap.field)) ∧
      (Ready s env Enc.xqComb x → exec (.xqComb x) s = .next (s.tick.trapHere env Trap.field)) ∧
      (Ready s env Enc.xqDone x → exec (.xqDone x) s = .next (s.tick.trapHere env Trap.field))) ∧
    (Ready s env Enc.xqStat x →
      let q := env.val x .n32 x.a
      (s.tick.xqGranted (s.tick.partOf ctx) q = false → exec (.xqStat x) s = .next (s.tick.trapHere env Trap.field)) ∧
      (s.tick.xqGranted (s.tick.partOf ctx) q = true →
        exec (.xqStat x) s = .next ((s.tick.addOp env x (.land .n64 x.d [(64, s.tick.xqStatus ctx q x.b.ctl)])).complete env Enc.xqStat x {})))

/-- R241, R242, R259 to R261, R264, R267 and R268: what comes to expert queues by itself. The cairn's answer to a row: OFF without a queue, a duplicate is
counted, a full queue spills, else the row takes a place and its token bit is set. A waiting configuration applies to an idle queue. A round that is
due fires the queues it considers, each with an EMPTY crew; with none it only passes. A row or an output row of another package is answered, and lands
with its marks; a course whose lanes have exited and whose work has drained retires. When rounds take place, and messages that meet a busy home, are
the model's choices (log entries 51 and 52). -/
def Obligations.ExpertQueueEvents : Prop :=
  (∀ (s : State) (q : Nat) (tag : Word),
    (s.xqs.find q = none → s.xqAccept q tag = (s, .off)) ∧
    (∀ x r, s.xqs.find q = some x →
      let t := bits tag.toNat 32 32
      s.translate (xqCore q) x.ctx (wordAt x.cfg 4 + t / 8) none false = .ok r →
      (nbit (s.peekNat r.1 1) (t % 8) = true → s.xqAccept q tag = ({ s with xqs := s.xqs.put q { x with dup := x.dup + 1 } }, .dup)) ∧
      (nbit (s.peekNat r.1 1) (t % 8) = false → x.rrows + x.spilln ≤ x.occ → s.xqAccept q tag = (s, .spill)) ∧
      (∀ u loc, s.xqAccept q tag = (u, .place loc) → loc ∉ x.places ∧ x.occ < x.rrows + x.spilln ∧ ∃ y, u.xqs.find q = some y ∧ y.occ = x.occ + 1))) ∧
  (∀ (s : State) (op q : Nat) (o : Op) (w : List Word) (x : XQ), s.ops.find op = some o → o.kind = .xqCfg q w → s.xqs.find q = some x → x.rows = [] → x.out = [] →
    (∀ p ∈ s.ops, p.1 < op → ∀ v, p.2.kind ≠ .xqCfg q v) →
    exec (.xqCfgApply op) s = .next ({ s.clearBitmap q o.ctx (wordAt w 4) with xqs := (s.clearBitmap q o.ctx (wordAt w 4)).xqs.put q { cfg := w, ctx := o.ctx, dup := 0, fired := 0, cref := 0, serial := x.serial, rows := [], out := [], expiry := none } }.finishOp op)) ∧
  (∀ (s : State) (die : Nat), die < 2 →
    (s.roundDue die = false → exec (.selectionRound die) s = .next s) ∧
    (s.roundDue die = true →
      let round := (s.nextRound die).getD 0
      let t : State := { s with lastRound := s.lastRound.put die round }
      (t.candidates die round = [] → exec (.selectionRound die) s = .next t) ∧
      (∀ q key, t.candidates die round = [(q, key)] →
        let u : State := { t with xqs := t.xqs.map (fun (e : Nat × XQ) => if q = e.1 ∧ key.headD 1 = 0 ∧ e.2.expiry = none then (e.1, { e.2 with expiry := some round }) else e) }
        ∀ x, u.xqs.find q = some x →
          exec (.selectionRound die) s = .next (match u.fireCrew q x with | some k => u.fire q x round k | none => u)))) ∧
  (∀ (s : State) (link seq dev queue : Nat) (tag : Word) (row : List Byte) (marks : List Bool), s.up = true → (s.link link).st = .up → (s.link link).seen.find? (fun e => e.1 == seq) = none →
    let t : State := { s with out := .none, links := if (s.link link).seen.isEmpty then s.links else s.links.put link ((s.link link).forget seq) }
    (s.pkg.checkpoint = true → exec (.remotePush link seq dev queue tag (row, marks)) s = .next (t.answer link seq .retryLater)) ∧
    (s.pkg.checkpoint = false → s.xqAt dev queue = false → exec (.remotePush link seq dev queue tag (row, marks)) s = .next (t.answer link seq .refused)) ∧
    (∀ u loc, s.pkg.checkpoint = false → s.xqAt dev queue = true → s.xqClosed queue = false → t.xqAccept queue tag = (u, .place loc) →
      let n := (u.transferSize queue loc).getD 0
      ((u.xRowPlaces queue loc).all (u.rangeFree u.nextId true) = true →
        exec (.remotePush link seq dev queue tag (row, marks)) s = .next ((u.putXRow queue loc tag ((row ++ List.replicate (n - row.length) 0).take n, marks)).1.answer link seq .accept)) ∧
      ((u.xRowPlaces queue loc).all (u.rangeFree u.nextId true) = false → exec (.remotePush link seq dev queue tag (row, marks)) s = .next s)) ∧
    (∀ layer kmax outu, (s.xqs.find queue = none → exec (.combineMessage link seq queue layer tag kmax outu (row, marks)) s = .next (t.answer link seq .refused)) ∧
      (∀ x, s.xqs.find queue = some x → x.layer = layer → bits (wordAt x.cfg 0) 23 6 = outu → x.kmax = kmax → bits tag.toNat 32 32 < x.ntok →
        let slot := t.pagedSpan (xqCore queue) x.ctx (x.slotVa tag) x.outSize true
        (slot.isOk = false → exec (.combineMessage link seq queue layer tag kmax outu (row, marks)) s = .next (t.answer link seq .retryLater)) ∧
        (slot.isOk = true → (∀ p ∈ passed slot, t.rangeFree t.nextId true p = true) → exec (.combineMessage link seq queue layer tag kmax outu (row, marks)) s =
          .next ((t.writeMarked (passed slot) ((row ++ List.replicate (x.outSize - row.length) 0).take x.outSize, marks)).answer link seq .accept))))) ∧
  (∀ (s : State) (cid : Nat) (c : Course) (k : Kernel), s.courses.find cid = some c → s.courseOver cid c = true → c.moved = none → s.mayRetire c = true →
    let t := (s.clearRecord c).releaseCourse cid c
    t.kernels.find c.kern = some k →
    let t : State := { t with kernels := t.kernels.put c.kern { k with live := k.live - 1 } }
    (k.st ≠ .resident ∨ k.live ≠ 1 ∧ k.live ≠ 0 → exec (.courseRetire cid) s = .next t) ∧
    (k.st = .resident → k.live = 1 → exec (.courseRetire cid) s = .next (t.kernelRetire c.kern { k with live := 0 } c.core)))

/-- R146, R6 and R313: a command block. A command submitted while one is pending, or while the package is not up, is ignored; one that is the
hypervisor's, or names another partition, is refused through a partition's page; an accepted one is performed and answered. A write reaches the fields
of the words it names and leaves the others; the answer is STATUS in the upper half of word 3, over the command's SEQ. The status of a command that
the spec does not name as refused is the model's choice (log entry 18), and refusals of blocks are a reading (log entry 57). R287, R294 and R295: the
hypervisor's gate commands, on the package's own page. Activate enables the table where its header and the command name version 1; while the table is
not enabled the other commands are refused. Freeze, thaw, retire, begin and end migration act as the state of the gate says, after its tokens have
been brought up to now; what a gate's end or migration leaves to its waiters is told to them. That they go by the hypervisor's table at the base
register, and what they refuse, are the model's choices (log entries 9, 18 and 56). -/
def Obligations.CommandsAndGates : Prop :=
  (∀ (s : State) (page off part : Nat) (hyper : Bool) (w0 : Nat) (w1 w2 : Option Nat) (seq : BitVec 32) (run : State → CmdEnd),
    let words := cmdWords w0 w1 w2 seq
    let answered (t : State) (status : Nat) : Prop := ∃ b : Cmd, t.cmds.find (page * 65536 + off) = some b ∧ b.pending = false ∧
      b.words = (s.cmdStored page off words).take 3 ++ [BitVec.ofNat 64 (status * 2 ^ 32 + seq.toNat)]
    (∀ k, k < 4 → (s.cmdStored page off words).getD k 0 = match words.getD k none with
      | some v => BitVec.ofNat 64 (v &&& blockMask off k)
      | none => (s.cmd page off).words.getD k 0) ∧
    (s.cmdPending page off = true ∨ s.up = false → s.command page off hyper part words run = s) ∧
    (s.up = true → s.cmdPending page off = false → page ≠ 0 → page ≤ 16 → off < 0x1200 → (hyper = true ∨ part + 1 ≠ page) →
      answered (s.command page off hyper part words run) 2 ∧ (s.command page off hyper part words run).mem = s.mem) ∧
    (∀ t, s.accepts page off hyper part → run (s.submitted page off words) = .done t → t.cmds = (s.submitted page off words).cmds →
      answered (s.command page off hyper part words run) 1 ∧ (s.command page off hyper part words run).mem = t.mem) ∧
    (s.accepts page off hyper part → run (s.submitted page off words) = .refused → answered (s.command page off hyper part words run) 2)) ∧
  (∀ (s : State) (gate : Nat) (seq : BitVec 32), s.accepts 0 0x1200 true 0 →
    let n := gate % 4096
    let sub (cmd w0 : Nat) (w1 : Option Nat) : State := s.submitted 0 0x1200 (cmdWords (cmd * 2 ^ 60 + w0 + gate % 4096 * 2 ^ 32) w1 none seq)
    let head := bits (s.peekNat (gateAddr 0 0) 8) 56 8
    (∀ ver,
      let t := sub 1 0 (some (ver % 256 * 2 ^ 56))
      let u : State := if s.pkg.gateOn then t else { t with gates := [], pkg := { t.pkg with gateOn := true } }
      (s.pkg.gateOn = true ∨ (head = 1 ∧ ver = 1) → u.gate n = none →
        exec (.activate 0 gate ver seq) s = .next (((u.restartTicks n (u.readAcl n none)).putGate n
          { st := .active, value := 0, acl := u.readAcl n none, mpart := 0, freezeAfter := false, nwait := 0, deferred := [], remote := [] }).endCmd 0 0x1200 1)) ∧
      (s.pkg.gateOn = true → u.gate n ≠ none → exec (.activate 0 gate ver seq) s = .next (t.endCmd 0 0x1200 1)) ∧
      (s.pkg.gateOn = false → head ≠ 1 ∨ ver ≠ 1 → exec (.activate 0 gate ver seq) s = .next (t.endCmd 0 0x1200 2))) ∧
    (s.pkg.gateOn = false →
      exec (.freeze 0 gate seq) s = .next ((sub 2 0 none).endCmd 0 0x1200 2) ∧ exec (.thaw 0 gate seq) s = .next ((sub 3 0 none).endCmd 0 0x1200 2) ∧
      exec (.retire 0 gate seq) s = .next ((sub 4 0 none).endCmd 0 0x1200 2) ∧ exec (.endMigration 0 gate seq) s = .next ((sub 6 0 none).endCmd 0 0x1200 2) ∧
      ∀ i, exec (.beginMigration 0 gate i seq) s = .next ((sub 5 (i % 8 * 2 ^ 57) none).endCmd 0 0x1200 2)) ∧
    (∀ g, s.pkg.gateOn = true → s.gate n = some g →
      (g.st = .active → exec (.freeze 0 gate seq) s = .next (((sub 2 0 none).putGate n { g with st := .frozen }).endCmd 0 0x1200 1)) ∧
      (g.st = .migrating → exec (.freeze 0 gate seq) s = .next (((sub 2 0 none).putGate n { g with freezeAfter := true }).endCmd 0 0x1200 1)) ∧
      (∀ i, g.st = .active →
        let own := if bits (wordAt g.acl (i % 8)) 51 12 = s.pkg.pkgno then s.waitersOf n (bits (wordAt g.acl (i % 8)) 47 4) else []
        exec (.beginMigration 0 gate i seq) s = .next (((sub 5 (i % 8 * 2 ^ 57) none).putGate n
          { g with st := .migrating, mpart := i % 8, remote := g.remote.filter (fun r => r.back.isSome) ++ own.map (fun v => { back := none, v := v, acl := i % 8 }) }).endCmd 0 0x1200 1)) ∧
      (∀ i, g.st ≠ .active → exec (.beginMigration 0 gate i seq) s = .next ((sub 5 (i % 8 * 2 ^ 57) none).endCmd 0 0x1200 2))) ∧
    (s.pkg.gateOn = true →
      (∀ g, let t := (sub 3 0 none).refreshGate n
        t.gate n = some g → g.st = .frozen → exec (.thaw 0 gate seq) s = .next ((t.goOn n g .active).endCmd 0 0x1200 1)) ∧
      (∀ g, let t := (sub 4 0 none).refreshGate n
        t.gate n = some g →
        (g.st = .migrating → exec (.retire 0 gate seq) s = .next ((sub 4 0 none).endCmd 0 0x1200 2)) ∧
        (g.st ≠ .migrating → exec (.retire 0 gate seq) s =
          .next (let u := g.remote.foldl (fun (s : State) r => match r.back with
                   | some b => s.tellWaiter n b none
                   | none => s) (g.deferred.foldl (fun (s : State) d => s.sigOver n d (some 2)) t)
                 let w := u.putGate n { g with st := .retired, nwait := u.gateReady n, deferred := [], remote := [] }
                 (w.mapPaths (fun q => q.retired n (w.gateName n) w.nextId)).endCmd 0 0x1200 1))) ∧
      (∀ g, let t := (sub 6 0 none).refreshGate n
        t.gate n = some g → g.st = .migrating → exec (.endMigration 0 gate seq) s =
          .next (((t.goOn n g (if g.freezeAfter then .frozen else .active)).redeliver n g.mpart).endCmd 0 0x1200 1))))

/-- R289 to R292: the gate instructions. On a gate of this package gate.sig, once the course's earlier accesses have been performed, is applied or
deferred and starts an operation; gate.wait takes a waiter record and names what the next run waits for; gate.rd starts an operation that returns
VALUE. On another package's gate they send their operation there, hold the issue slot, and complete with the home's answer. An agent without the right
takes GATE with the subcode of its refusal. The messages between the gates of two packages are the model's choice (log entry 119). -/
def Obligations.GateInstructions : Prop :=
  ∀ (s : State) (env : Env) (x : Args) (pkg g name : Nat), env.acting x ≠ 0 → env.gateName x s = some (pkg, g, name) →
    let part := s.partOf env.co.ctx
    let v : Word := BitVec.ofNat 64 (env.n64 x x.b)
    let d : Option (BitVec 6) := match x.d with | .reg r => some r | _ => none
    let trap (b : BitVec 8) : Trap := { cls := 0x0A, sub := b, lane := 0xFF, addr := 0, info := BitVec.ofNat 64 name }
    let sigOk : Prop := 1 ≤ env.n64 x x.b ∧ env.n64 x x.b < 2 ^ 32
    (pkg = s.pkg.pkgno →
      (Ready s env Enc.gateSig x → sigOk → s.tick.drained env.cid s.nextId = true →
        let u := s.tick.refreshGate g
        (∀ t i, u.aclRow g pkg (u.partOf env.co.ctx) 46 = .ok (t, i) →
          let r := u.signalAt g t i v (.op u.nextId)
          exec (.gateSig x) s = .next ((r.1.addOp env x (if r.2 then .nothing else .gateSig g)).complete env Enc.gateSig x {})) ∧
        (∀ b, u.aclRow g pkg (u.partOf env.co.ctx) 46 = .error b → exec (.gateSig x) s = .next (s.tick.trapHere env (trap b)))) ∧
      (Ready s env Enc.gateWait x →
        (∀ t i, s.aclRow g pkg part 45 = .ok (t, i) → s.waiterRoom g = true →
          let away := s.partMoves t part
          exec (.gateWait x) s = .next ((s.tick.putGate g { t with nwait := t.nwait + 1, remote := if away then t.remote ++ [{ back := none, v := v, acl := t.mpart }] else t.remote }).complete env Enc.gateWait x
            { wait := .gate g v d (if v ≤ t.value ∧ away = false then some t.value else none) })) ∧
        (∀ b, s.aclRow g pkg part 45 = .error b → exec (.gateWait x) s = .next (s.tick.trapHere env (trap b)))) ∧
      (Ready s env Enc.gateRd x →
        (∀ t i, s.aclRow g pkg part 44 = .ok (t, i) → exec (.gateRd x) s = .next ((s.tick.addOp env x (.land .n64 x.d [(64, t.value.toNat)])).complete env Enc.gateRd x {})) ∧
        (∀ b, s.aclRow g pkg part 44 = .error b → exec (.gateRd x) s = .next (s.tick.trapHere env (trap b))))) ∧
    (pkg ≠ s.pkg.pkgno →
      (Ready s env Enc.gateRd x → env.pa.offer = none →
        (s.tick.routeTo pkg = none → exec (.gateRd x) s = .next (s.tick.trapHere env (trap 3))) ∧
        (∀ n, s.tick.routeTo pkg = some n → s.tick.replayRoom [n] = true →
          let t := s.tick.send n pkg (.gate g part .rd)
          exec (.gateRd x) s = .next { (t.addOp env x (.gateRemote n (s.link n).nextSeq name .rd x.d none)).setPath env.cid env.p { env.pa with offer := some s.nextId } with cur := none })) ∧
      (∀ id p n seq o dst, env.pa.offer = some id → s.ops.find id = some p →
        (∀ m, p.kind = .gateRemote n seq name o dst (some (.gate m)) →
          (Ready s env Enc.gateSig x → sigOk → exec (.gateSig x) s = .next ((s.tick.setOp id .nothing).complete env Enc.gateSig x {})) ∧
          (Ready s env Enc.gateWait x → exec (.gateWait x) s = .next ({ s.tick with ops := s.ops.del id }.complete env Enc.gateWait x { wait := .remoteGate n seq name v d (some m) })) ∧
          (Ready s env Enc.gateRd x → exec (.gateRd x) s = .next ((s.tick.setOp id (.land .n64 x.d [(64, m.toNat)])).complete env Enc.gateRd x {}))) ∧
        (p.kind = .gateRemote n seq name o dst (some .accept) → Ready s env Enc.gateWait x →
          exec (.gateWait x) s = .next ({ s.tick with ops := s.ops.del id }.complete env Enc.gateWait x { wait := .remoteGate n seq name v d none })) ∧
        (∀ b, p.kind = .gateRemote n seq name o dst (some (.gateTrap b)) → Ready s env Enc.gateRd x →
          exec (.gateRd x) s = .next ((s.tick.withdraw env id).trapHere env (trap b)))))

/-- R288 to R290 and R294: who may use a gate, and what a signal does at its home. The first access-list entry that is valid and names the package and
partition gives the rights; without one DENY; without a gate GONE. A signal to a gate that is not FROZEN, through an entry that has a token or needs
none and has no signal deferred, adds its count to VALUE and spends the token; otherwise it waits, until it can be applied or its 10 µs are over and
it is dropped with RATE. R288 to R290: what comes to a gate by itself: the tokens of REFILL's ticks that have passed, none of them stored at BURST;
the end of a deferred signal's time; and the operations of other packages, each taken once and answered by a message. How ticks and deferred signals
are held and ordered, and the messages between packages, are the model's choices (log entries 54, 55 and 119). -/
def Obligations.GateSignals : Prop :=
  ((∀ (s : State) (n pkg part right : Nat),
    (s.gate n = none → s.aclRow n pkg part right = .error 3) ∧
    (∀ g, s.gate n = some g → (∀ i, i < 8 → ¬ (nbit (wordAt g.acl i) 63 = true ∧ bits (wordAt g.acl i) 51 12 = pkg ∧ bits (wordAt g.acl i) 47 4 = part)) →
      s.aclRow n pkg part right = .error 1) ∧
    (∀ g i, s.aclRow n pkg part right = .ok (g, i) → s.gate n = some g ∧ i < 8 ∧ nbit (wordAt g.acl i) 63 = true ∧
      bits (wordAt g.acl i) 51 12 = pkg ∧ bits (wordAt g.acl i) 47 4 = part ∧ nbit (wordAt g.acl i) right = true)) ∧
  (∀ (s : State) (n i : Nat) (g : Gate) (k : Word) (who : GWho),
    let limited := bits (wordAt g.acl i) 28 16 ≠ 0
    let tokens := bits (wordAt g.acl i) 12 8
    let d : Deferred := { id := s.nextId, who := who, n := k, acl := i, limit := s.time.ns + 10000 }
    (g.st ≠ .frozen → (limited → tokens ≠ 0) → (∀ e ∈ g.deferred, e.acl ≠ i) →
      s.signalAt n g i k who = ((s.gateValue n { (if limited then g.setTokens i (tokens - 1) else g) with value := g.value + k }), true)) ∧
    (g.st = .frozen ∨ (limited ∧ tokens = 0) ∨ (∃ e ∈ g.deferred, e.acl = i) → s.signalAt n g i k who =
      (({ s with nextId := match who with | .op _ => s.nextId | .msg _ _ => s.nextId + 1 }).putGate n { g with deferred := g.deferred ++ [d] }, false)) ∧
    (∀ e moment, s.gate n = some g → g.deferred = [e] →
      let shut := g.st = .frozen ∨ (bits (wordAt g.acl e.acl) 28 16 ≠ 0 ∧ bits (wordAt g.acl e.acl) 12 8 = 0)
      (e.limit < moment → s.settleGate n moment = (s.putGate n { g with deferred := [] }).sigOver n e (some 2)) ∧
      (moment ≤ e.limit → shut → s.settleGate n moment = s) ∧
      (moment ≤ e.limit → ¬ shut → s.settleGate n moment = (s.applySignal n { g with deferred := [] } e.acl e.n).sigOver n e none)))) ∧
  ((∀ (s : State) (gate i : Nat) (g : Gate), s.up = true → s.gate gate = some g → i < 8 → bits (wordAt g.acl i) 28 16 ≠ 0 → g.deferred = [] →
    let last := s.lastTick.getD (gate * 8 + i) 0
    let k := s.time.ns / bits (wordAt g.acl i) 28 16 - last
    let tokens := bits (wordAt g.acl i) 12 8
    let burst := bits (wordAt g.acl i) 20 8
    let t : State := { s with lastTick := s.lastTick.put (gate * 8 + i) (last + k) }
    exec (.gateTokenRefill gate i) s = .next (if k = 0 ∨ burst ≤ tokens then t else t.putGate gate (g.setTokens i (min burst (tokens + k))))) ∧
  (∀ (s : State) (op gate : Nat) (g : Gate), s.up = true → s.gates = [(gate, g)] →
    (g.deferred.find? (fun d => d.id == op && decide (d.limit < s.time.ns)) = none → exec (.gateDeferTimeout op) s = .next s) ∧
    (∀ d, g.deferred.find? (fun d => d.id == op && decide (d.limit < s.time.ns)) = some d →
      let t := s.refreshGate gate
      ∀ h, t.gates.find gate = some h →
        exec (.gateDeferTimeout op) s = .next (if h.deferred.any (fun x => x.id == op) then
          ((t.putGate gate (h.without d)).sigOver gate d (some 2)).settleGate gate t.time.ns else t))) ∧
  (∀ (s : State) (link seq gate pkg part : Nat) (op : GateOp), s.up = true → (s.link link).st = .up →
    (s.link link).seen.find? (fun e => e.1 == seq) = none →
    let t : State := { s with out := .none, links := if (s.link link).seen.isEmpty then s.links else s.links.put link ((s.link link).forget seq) }
    let got (u : State) : State := { u.answer link seq .duplicate with out := .replies [(link, seq, .accept)] }
    (t.replayRoom [link] = false → exec (.gateMessage link seq gate pkg part op) s = .next (t.answer link seq .retryLater)) ∧
    (t.replayRoom [link] = true →
      (∀ k, op = .sig k →
        let u := got (t.refreshGate gate)
        (∀ b, u.aclRow gate pkg part 46 = .error b → exec (.gateMessage link seq gate pkg part op) s = .next (u.gateReply (link, seq) (.gateTrap b))) ∧
        (∀ g i, u.aclRow gate pkg part 46 = .ok (g, i) →
          let r := u.signalAt gate g i k (.msg link seq)
          exec (.gateMessage link seq gate pkg part op) s = .next (r.1.gateReply (link, seq) (if r.2 then .gate (g.value + k) else .accept)))) ∧
      (∀ v, op = .wait v →
        (∀ b, s.aclRow gate pkg part 45 = .error b → exec (.gateMessage link seq gate pkg part op) s = .next ((got t).gateReply (link, seq) (.gateTrap b))) ∧
        (∀ g i, s.aclRow gate pkg part 45 = .ok (g, i) →
          (s.waiterRoom gate = false → exec (.gateMessage link seq gate pkg part op) s = .next (t.answer link seq .retryLater)) ∧
          (s.waiterRoom gate = true → v ≤ g.value ∧ ¬ (g.st = .migrating ∧ i = g.mpart) →
            exec (.gateMessage link seq gate pkg part op) s = .next ((got t).gateReply (link, seq) (.gate g.value))) ∧
          (s.waiterRoom gate = true → ¬ (v ≤ g.value ∧ ¬ (g.st = .migrating ∧ i = g.mpart)) →
            exec (.gateMessage link seq gate pkg part op) s = .next (((got t).putGate gate { g with nwait := g.nwait + 1, remote := g.remote ++ [{ back := some (link, seq), v := v, acl := i }] }).gateReply (link, seq) .accept)))) ∧
      (op = .rd →
        (∀ b, s.aclRow gate pkg part 44 = .error b → exec (.gateMessage link seq gate pkg part op) s = .next ((got t).gateReply (link, seq) (.gateTrap b))) ∧
        (∀ g i, s.aclRow gate pkg part 44 = .ok (g, i) → exec (.gateMessage link seq gate pkg part op) s = .next ((got t).gateReply (link, seq) (.gate g.value)))))))

/-- R273 to R286: the commands on partitions and contexts, each accepted through its block. A good partition block is in force at once where the partition
had none, else at the next multiple of its period; ENABLE brings a context to its slot's state, END takes everything it runs off the device,
FLUSH_CREW and RESTART_CREW act on the courses that hold a member, MIGRATE_OUT halts the context and stops its queues, and MIGRATE_IN enables it with
its saved courses. R12, R278, R282 to R285 and R309: what becomes of partitions, contexts and courses in time. A slot boundary applies the slot that
is current; a waiting block takes effect when it is due; borrowed capacity is reclaimed at a boundary and given back at the next period; a context
that has ended, or whose state has been saved, is forgotten; a bent that retires stops its courses, and each is saved and then placed on another core.
When a claim, a migration and a lent course come to their end, and what becomes of a moved course, is a reading of the spec or a choice (log entries
38, 39, 58 to 62, 107 and 115). -/
def Obligations.ContextCommands : Prop :=
  (∀ (s : State) (page part ctx : Nat) (seq : BitVec 32), part < 16 → ctx < 2 ^ 16 →
    let sub (cmd crew : Nat) (addr : Option Nat) : State := s.submitted page 0x1100 (cmdWords (ctxWord0 cmd part ctx crew) addr none seq)
    (∀ (addr : Word), s.accepts page 0x1100 true part →
      let t := s.submitted page 0x1100 (cmdWords (ctxWord0 1 part 0 0) (some addr.toNat) none seq)
      t.hostBlock addr.toNat 16 = none → exec (.loadPartitionBlock page part addr seq) s = .next (t.endCmd page 0x1100 2)) ∧
    (∀ (addr : Word) w, s.accepts page 0x1100 true part →
      let t := s.submitted page 0x1100 (cmdWords (ctxWord0 1 part 0 0) (some addr.toNat) none seq)
      t.hostBlock addr.toNat 16 = some w →
      (blockBad part w = true → exec (.loadPartitionBlock page part addr seq) s = .next (t.endCmd page 0x1100 2)) ∧
      (blockBad part w = false → t.heldOutside part w = false →
        (∀ p ∈ s.parts, p.1 ≠ part → (p.2.block = [] ∨ blocksOverlap w p.2.block = false) ∧ p.2.next = none) →
        (s.parts.find part = none → exec (.loadPartitionBlock page part addr seq) s = .next ((t.setBlock part w).endCmd page 0x1100 1)) ∧
        (∀ p, s.parts.find part = some p → p.block ≠ [] → exec (.loadPartitionBlock page part addr seq) s =
          .next ({ t with parts := s.parts.put part { p with next := some (w, nextPeriod p.block s.time.ns) } }.endCmd page 0x1100 1)))) ∧
    (∀ (addr : Word), s.accepts page 0x1100 false part →
      ((sub 2 0 (some addr.toNat)).enableCtx part ctx addr.toNat = none → exec (.enable page part ctx addr seq) s = .next ((sub 2 0 (some addr.toNat)).endCmd page 0x1100 2)) ∧
      (∀ t, (sub 2 0 (some addr.toNat)).enableCtx part ctx addr.toNat = some t → exec (.enable page part ctx addr seq) s = .next (t.endCmd page 0x1100 1))) ∧
    (∀ c, s.accepts page 0x1100 false part → s.ctxs.find ctx = some c → c.part = part →
      (c.st ≠ .migrating → exec (.endContext page part ctx seq) s = .next (({ sub 3 0 none with ctxs := s.ctxs.put ctx { c with st := .ending } }.takeOff ctx false).endCmd page 0x1100 1)) ∧
      (c.st = .migrating → exec (.endContext page part ctx seq) s = .next (({ (sub 3 0 none).endCmd 0 0x1100 2 with ctxs := s.ctxs.put ctx { c with st := .ending } }.takeOff ctx false).endCmd page 0x1100 1)) ∧
      (∀ crew, crew < 2 ^ 16 → exec (.flushCrew page part ctx crew seq) s =
        .next (((s.courses.filter (fun c => c.2.memberOf ctx crew)).foldl (fun (s : State) c => s.flushCourse crew c.1 c.2) (sub 4 crew none)).endCmd page 0x1100 1)) ∧
      (∀ crew, crew < 2 ^ 16 → exec (.restartCrew page part ctx crew seq) s =
        .next ({ sub 5 crew none with courses := s.courses.map (fun (c : Nat × Course) => if c.2.ctx = ctx then (c.1, { c.2 with flushed := c.2.flushed.erase crew }) else c) }.endCmd page 0x1100 1))) ∧
    (s.accepts page 0x1100 false part → s.ctxs.find ctx = none → exec (.endContext page part ctx seq) s = .next ((sub 3 0 none).endCmd page 0x1100 2)) ∧
    (∀ c, s.accepts page 0x1100 true part → s.ctxs.find ctx = some c → c.part = part → c.st = .active ∨ c.st = .halted →
      exec (.migrateOut page part ctx seq) s = .next ((((s.queues.filter (fun q => q.2.ctx == ctx)).map (·.1)).foldl State.queueStop { sub 6 0 none with ctxs := s.ctxs.put ctx { c with st := .migrating } }).unpark (fun o => o.2.ctx == ctx))) ∧
    (∀ (addr : Word) t l, s.accepts page 0x1100 true part → (sub 7 0 (some addr.toNat)).enableCtx part ctx addr.toNat = some t → t.recordCourses part ctx = some l →
      let after := l.foldl (fun m e => max m (t.peekNat (e.pa + 0x1008) 8)) 0
      let u := (t.modCtx ctx (fun c => { c with after := after, barsOut := t.arriveBars ctx })).arriveSamplers part ctx
      exec (.migrateIn page part ctx addr seq) s = .next (((l.map (·.node)).eraseDups.foldl (fun (t : State) n =>
        t.arriveKernel part ctx n (l.filter (fun e => e.node == n))) u).endCmd page 0x1100 1)) ∧
    (∀ crew cid (c : Course) (t : State), t.courses.find cid = some c → c.saved = false →
      (c.flushed.contains crew = true → t.flushCourse crew cid c = t) ∧
      (c.flushed = [] →
        let u := t.setCourse cid { c with flushed := [crew] }
        t.flushCourse crew cid c = if c.regpc = noRegion then u.dropMats cid else u.restart cid))) ∧
  ((∀ (s : State) (part : Nat) (p : Partition), s.up = true → s.parts.find part = some p →
    (slotAt p.block s.time.ns ≠ p.slot → exec (.slotBoundary part) s = .next (s.applySlot part)) ∧
    (slotAt p.block s.time.ns = p.slot → exec (.slotBoundary part) s = .next s) ∧
    (∀ w due, p.next = some (w, due) → due ≤ s.time.ns → exec (.partitionLoadEffect part) s = .next (s.setBlock part w)) ∧
    (∀ w due, p.next = some (w, due) → s.time.ns < due → exec (.partitionLoadEffect part) s = .next s) ∧
    (∀ cid c, s.courses.find cid = some c → s.reclaimNeeded part cid c = true →
      (p.reclaimAt = none → exec (.reclaim part cid) s = .next { s with parts := s.parts.put part { p with reclaimAt := some (nextBoundary p.block s.time.ns) } }) ∧
      (∀ due, p.reclaimAt = some due → due ≤ s.time.ns →
        let t := ((s.setCourse cid { c with reclaimed := some part }).crewHalt cid true).unpark (fun o => o.1 == cid)
        let p2 : Partition := { p with reclaimAt := none, returnAt := some (p.returnAt.getD (nextPeriod p.block t.time.ns)) }
        exec (.reclaim part cid) s = .next { t with parts := t.parts.put part p2, courses := t.courses.map (fun (e : Nat × Course) => if t.partOf e.2.ctx = part ∧ !e.2.borrowed then (e.1, { e.2 with reclaimed := none }) else e) })) ∧
    (∀ due, p.returnAt = some due → due ≤ s.time.ns →
      let back := s.courses.filter (fun e => e.2.borrowed && e.2.reclaimed == some part)
      let halts (e : Nat × Course) : Bool := s.partOf e.2.ctx == part && !e.2.borrowed && back.any (fun b => e.2.stands b.2)
      let swap (e : Nat × Course) : Nat × Course :=
        if back.any (fun b => b.1 == e.1) then (e.1, { e.2 with reclaimed := none })
        else if halts e then (e.1, { e.2 with reclaimed := some part }) else e
      exec (.lendReturn part) s = .next (State.unpark { s with parts := s.parts.put part { p with returnAt := none }, courses := s.courses.map swap } halts))) ∧
  (∀ (s : State) (ctx : Nat) (c : Context), s.ctxs.find ctx = some c →
    (c.st = .ending → (∀ e ∈ s.courses, e.2.ctx ≠ ctx) → (∀ o ∈ s.ops, o.2.inCtx ctx = false) →
      exec (.contextEndComplete ctx) s = .next (((State.freeSlices 0 ctx (2 ^ 24) 0 ((State.freeArrays 0 ctx (2 ^ 20) 0 s).returnNodes 0 ctx)).endCrews ctx).forgetCtx ctx)) ∧
    (s.up = true → c.st = .migrating → (∀ o ∈ s.ops, o.2.inCtx ctx = true → s.goesAlong o.1 o.2 = true) → (∀ e ∈ s.courses, e.2.ctx = ctx → s.haltedCourse e.1 = true) →
      (∀ t, s.saveCtx ctx = some t → exec (.migrateOutSaveFinished ctx) s = .next (((t.takeOff ctx true).forgetCtx ctx).endCmd 0 0x1100 1)) ∧
      (s.saveCtx ctx = none → exec (.migrateOutSaveFinished ctx) s = .next ((s.courses.filter (fun e => e.2.ctx == ctx)).foldl (fun (s : State) e => s.tellSave e.1) s))) ∧
    ((s.forgetCtx ctx).ctxs.find ctx = none)) ∧
  (∀ (s : State) (bent : Nat), s.bentOn bent = true → bent < 48 →
    let t : State := { s with pkg := { s.pkg with bentEn := s.pkg.bentEn &&& ~~~(BitVec.ofNat 48 (2 ^ bent)), cfgGen := s.pkg.cfgGen + 1 } }
    exec (.bentRetire bent) s = .next (((s.courses.filter (fun c => bentOf c.2.core == bent && c.2.moved.isNone)).foldl (fun (s : State) c =>
      (s.dropMats c.1).modCourse c.1 (fun c => { c with moved := some c.core })) t).unpark (fun c => c.2.moved.isSome)) ∧
    exec (.bentRetire 48) s = .next s) ∧
  (∀ (s : State) (cid old : Nat) (c : Course), s.up = true → s.courses.find cid = some c → c.moved = some old → s.betweenRuns cid = true →
    (∀ o ∈ s.opsOf cid, s.heldArrival o.1 o.2 = true) →
    let out := (s.saveTiles cid).bind (fun s => s.saveCourse cid)
    (∀ t, c.saved = false → out = some t → exec (.courseRelocate cid) s = .next t) ∧
    (c.saved = false → out = none → exec (.courseRelocate cid) s = .next (s.tellSave cid)) ∧
    (∀ p, c.saved = true → s.findSpot (s.partOf c.ctx) c.ctx c.rows = some p →
      let in_ := (s.claim p.core p.cslot p.base c.rows).bind (fun s => s.restoreMoved cid c p)
      (∀ t, in_ = some t → exec (.courseRelocate cid) s = .next ({ t with lastBay := bayOf p.core }.movedOn cid old)) ∧
      (in_ = none → exec (.courseRelocate cid) s = .next (s.tellSave cid)))))

/-- R297 to R299, R301 and R304: taking a trap. The class and subcode name the receiver; the shim is one where the core holds one. Before the receiver is
entered the record's words 0 to 3 and 15 are written; on entering the shim also s56 to s63, and then s63 names the record, s62 the class and subcode,
and the path stands at (0, 16 × CLASS) with d, and c, X and K of its frame mask, at 0 and the old values held. Any other receiver finds the path
stopped and its notice given; after MOVED what the path waits for stays, and after PRIVHW the header of the course's record is stored first. A trap
inside the shim sets DOUBLE, writes words 12 to 14 and goes to the driver. A consumed error or a signature mismatch restarts an open region, at most
twice. Words of a record that a trap does not write keep what they held, and the header is stored at PRIVHW (log entries 85 and 115). R302 and R51:
trap k and dbg take USER traps of subcode k and 0xFF where a lane acts, and otherwise do nothing; a word that breaks an encoding rule takes ILLEGAL
with the rule's subcode. -/
def Obligations.TrapsAreTaken : Prop :=
  (∀ (s : State) (cid p : Nat) (c : Course) (q : Path) (tr : Trap) (ovl idx : Nat) (defer : Bool),
    s.courses.find cid = some c → c.paths.find p = some q →
    let word0 := tr.cls.toNat * 2 ^ 56 + tr.sub.toNat * 2 ^ 48 + tr.lane.toNat * 2 ^ 40 + ovl * 2 ^ 16 + idx
    let rec0 := s.recWrite c p [(0, word0), (1, tr.addr.toNat), (2, tr.info.toNat), (3, p * 2 ^ 63 + c.sig.toNat),
      (15, (if defer then 2 ^ 63 else 0) + q.ovl * 2 ^ 16 + q.idx)]
    let restarts := tr.stay = false ∧ (tr.cls = 0x08 ∨ (tr.cls = 0x09 ∧ tr.sub = 1)) ∧ c.regpc ≠ 0xFFFFFFFF ∧ c.region.restarts < 2
    let shim := (tr.cls = 0x02 ∨ tr.cls = 0x03 ∨ (tr.cls = 0x05 ∧ tr.sub = 1) ∨ (tr.cls = 0x0A ∧ (tr.sub = 1 ∨ tr.sub = 2)) ∨
      tr.cls = 0x0B ∨ (tr.cls = 0x0F ∧ tr.sub ≠ 0xFF)) ∧ s.hasShim c.core = true
    let notice : Notice := { stamp := s.time.ns, ctx := c.ctx, src := c.core * 64 + c.cslot * 2 + p, cls := tr.cls, sub := tr.sub }
    let head (u : State) : State := if tr.cls = 0x07 then (u.saveHead c).getD u else u
    let stop (u : State) (w : Wait) : State := ((head u).setPath cid p { q with stopped := true, wait := if tr.moved then w else .nothing }).notify (s.partOf c.ctx) notice
    let again := s.recWrite c p [(3, s.recWord c p 3 % 2 ^ 62 + 2 ^ 62 + (s.recWord c p 3 / 2 ^ 63) * 2 ^ 63), (12, word0), (13, tr.addr.toNat), (14, tr.info.toNat)]
    let t := s.deliver cid p tr ovl idx defer
    (q.shim = none → restarts → t = s.restart cid) ∧
    (q.shim = none → ¬ restarts → shim →
      t.mem = (rec0.recWrite c p ((List.range 8).map (fun i => (4 + i, (c.scalar (56 + i)).toNat)))).mem ∧
      ∃ c' q', t.courses.find cid = some c' ∧ c'.paths.find p = some q' ∧
        c'.scalar 63 = BitVec.ofNat 64 (c.priv + 0x103000 + 128 * p) ∧
        c'.scalar 62 = BitVec.ofNat 64 (tr.cls.toNat * 256 + tr.sub.toNat) ∧
        (∀ n, n < 62 → c'.scalar n = c.scalar n) ∧
        (∀ l, l < 64 → cOf c'.c l = if q.fmask.getLsbD l then 0 else cOf c.c l) ∧
        c'.x = c.x &&& ~~~q.fmask ∧ c'.k = c.k &&& ~~~q.fmask ∧ c'.sig = c.sig ∧ c'.preds = c.preds ∧
        q' = { q with ovl := 0, idx := 16 * tr.cls.toNat, d := 0, run := none, wait := .nothing, ent := [],
                      shim := some { c := c.c, x := c.x, k := c.k, d := q.d, run := q.run, ent := q.ent } }) ∧
    (q.shim = none → ¬ restarts → ¬ shim → ∃ w, rec0.path cid p = some { q with wait := w } ∧ t = stop rec0 w) ∧
    (q.shim ≠ none → ∃ w, again.path cid p = some { q with wait := w } ∧ t = stop again w)) ∧
  ((∀ (s : State) (env : Env) (x : Args), Ready s env Enc.trap x →
    exec (.trap x) s = .next (if env.acting x = 0 then s.tick.complete env Enc.trap x {} else
      s.tick.trapHere env { cls := 0x0F, sub := BitVec.ofNat 8 x.a.ctl, lane := 0xFF, addr := 0,
                            info := (BitVec.ofNat 8 x.a.ctl).setWidth 64 })) ∧
  (∀ (s : State) (env : Env) (x : Args), Ready s env Enc.dbg x →
    exec (.dbg x) s = .next (if env.acting x = 0 then s.tick.complete env Enc.dbg x {} else
      s.tick.trapHere env { cls := 0x0F, sub := 0xFF, lane := 0xFF, addr := 0, info := 0xFF })) ∧
  (∀ (s : State) (env : Env) (sub : BitVec 8), s.issuing = some env →
    exec (.illegalEncoding sub) s = .next (s.tick.trapHere env { cls := 0x01, sub := sub, lane := 0xFF, addr := 0, info := 0 })))

/-- R300: trapret in the shim. s56 to s63 and %sig come from the record as it stands, the held c, X, K and d come back, and the path leaves the shim at
the record's resumption point: with k = 0 to wait for the cause's condition, with k = 1 after the instruction there unless the trap was deferred; with
k = 2 it stops for the driver. Outside the shim trapret takes ILLEGAL FIELD. -/
def Obligations.TrapretReturns : Prop :=
  ∀ (s : State) (env : Env) (x : Args), Ready s env Enc.trapret x →
    (env.pa.shim = none → exec (.trapret x) s = .next (s.tick.trapHere env (Trap.illegal Sub.field))) ∧
    (env.pa.shim ≠ none → env.acting x ≠ 0 → (x.a.ctl = 2 ∨ (x.a.ctl = 0 ∧ s.hopeless (s.recTrap env.co env.p) = true)) → exec (.trapret x) s =
      .next (((s.tick.leaveShim env.cid env.p false).stopForDriver env.cid env.p (s.recTrap env.co env.p)).complete env Enc.trapret x { gone := true, sig := false })) ∧
    ∀ h, env.pa.shim = some h → env.acting x ≠ 0 → (x.a.ctl = 1 ∨ (x.a.ctl = 0 ∧ s.hopeless (s.recTrap env.co env.p) = false)) →
      ∃ u c q, exec (.trapret x) s = .next u ∧ Holds u env c q ∧ u.mem = s.mem ∧
        (∀ i, i < 8 → c.scalar (56 + i) = BitVec.ofNat 64 (s.recWord env.co env.p (4 + i))) ∧
        (∀ n, n < 56 → c.scalar n = env.co.scalar n) ∧
        c.sig = BitVec.ofNat 32 (s.recWord env.co env.p 3) ∧
        (∀ l, l < 64 → cOf c.c l = if env.pa.lanes.getLsbD l then cOf h.c l else cOf env.co.c l) ∧
        c.x = (env.co.x &&& ~~~env.pa.lanes) ||| (h.x &&& env.pa.lanes) ∧
        c.k = (env.co.k &&& ~~~env.pa.lanes) ||| (h.k &&& env.pa.lanes) ∧
        q.shim = none ∧ q.d = h.d ∧
        (x.a.ctl = 0 → q.ovl = bits (s.recWord env.co env.p 15) 16 16 ∧ q.idx = bits (s.recWord env.co env.p 15) 0 16 ∧
          q.run = h.run ∧ q.wait = s.retryWait (s.recTrap env.co env.p)) ∧
        (x.a.ctl = 1 → q.wait = .wflush ∧ q.ovl = bits (s.recWord env.co env.p 15) 16 16 ∧
          q.idx = bits (s.recWord env.co env.p 15) 0 16 + (if nbit (s.recWord env.co env.p 15) 63 ∨ (s.recTrap env.co env.p).moved then 0 else 1))

/-- R301: a resume doorbell for a path that awaits the driver, its notice being out of the queue. ACTION 0 lets it go on at the resumption point; ACTION 1
after the instruction; ACTION 2 stores s56 to s63 for the shim it enters; ACTION 3 ends the context. The driver's changes in memory are read again
first; a course whose state stands in its record is read from it, and its state goes back there. When a resumption applies is a reading of the spec
(log entry 66). -/
def Obligations.ResumeDoorbell : Prop :=
  ∀ (s : State) (part ctx core k p cid : Nat) (c : Course) (q : Path), s.up = true →
    s.courses.find cid = some c → s.resumable part ctx core k p = some (cid, c, q) →
    let action := bits (s.recWord c p 3) 60 2
    let tr := s.recTrap c p
    let cause : Trap := if q.shim.isSome then { tr with cls := BitVec.ofNat 8 (bits (s.recWord c p 12) 56 8) } else tr
    let r := s.reread c q cause
    let t := s.setCourse cid { r.1 with paths := r.1.paths.put p r.2 }
    (c.saved = false → action = 0 ∨ action = 1 → exec (.resume (part + 1) ctx core k p) s = .next (t.setPath cid p (t.replied r.1 p r.2 (action = 1)))) ∧
    (∀ x, c.saved = false → action = 3 → t.ctxs.find c.ctx = some x → exec (.resume (part + 1) ctx core k p) s =
      .next ({ t with ctxs := t.ctxs.put c.ctx { x with st := .ending } }.takeOff c.ctx false)) ∧
    (c.saved = false → action = 2 → exec (.resume (part + 1) ctx core k p) s = .next ((s.shimRecord c p).takeAction cid p c q)) ∧
    (c.saved = true → (s.recordAt c 0 true).isNone → exec (.resume (part + 1) ctx core k p) s = .next (s.tellSave cid)) ∧
    (c.saved = true → (s.recordAt c 0 true).isSome → exec (.resume (part + 1) ctx core k p) s = .next (s.inRecord cid (fun u => match u.courses.find cid with
      | none => u
      | some b => (if bits (u.recWord b p 3) 60 2 = 2 then u.shimRecord b p else u).takeAction cid p b ((b.paths.find p).getD q))))

/-- R303, R304, R306 and R307: region opens a region at the next instruction, with the frame depth, window base, frame mask, d and %prio of its path, and
clears %sig; a course with two paths or a path stack, or with a lane of the frame mask that has c ≠ 0, takes ILLEGAL FIELD. sigchk clears %sig where
it equals the operand, and takes SIG with %sig as INFO where it does not. A restarted course stands at %regpc in the region's state. What the restart
restores of signatures is a reading of the spec (log entry 65). -/
def Obligations.RegionsAndSignatures : Prop :=
  (∀ (s : State) (env : Env) (x : Args), Ready s env Enc.region x → env.acting x ≠ 0 → env.co.paths.length = 1 → env.co.stack = 0 →
    (∀ l, l < 64 → env.pa.fmask.getLsbD l = true → cOf env.co.c l = 0) →
    ∃ u c, exec (.region x) s = .next u ∧ u.courses.find env.cid = some c ∧ c.sig = 0 ∧
      c.regpc = BitVec.ofNat 32 (env.pa.ovl * 65536 + (env.pa.idx + 1) % 65536) ∧
      c.region = { depth := env.pa.depth, lwb := env.pa.lwb, fmask := env.pa.fmask, d := env.pa.d, prio := env.pa.prio,
                   acc := env.co.acc, xseq := env.co.xseq, restarts := 0 }) ∧
  (∀ (s : State) (env : Env) (x : Args) (l : Nat), Ready s env Enc.region x → env.acting x ≠ 0 →
    (env.co.paths.length ≠ 1 ∨ env.co.stack ≠ 0 ∨ (l < 64 ∧ env.pa.fmask.getLsbD l = true ∧ cOf env.co.c l ≠ 0)) →
    exec (.region x) s = .next (s.tick.trapHere env (Trap.illegal Sub.field))) ∧
  (∀ (s : State) (env : Env) (x : Args), Ready s env Enc.sigchk x → env.acting x ≠ 0 → env.co.paths.length = 1 → env.co.stack = 0 →
    env.pa.shim = none →
    (env.co.sig.toNat = x.joined → ∃ u c, exec (.sigchk x) s = .next u ∧ u.courses.find env.cid = some c ∧ c.sig = 0) ∧
    (env.co.sig.toNat ≠ x.joined → exec (.sigchk x) s = .next ((s.tick.mismatch env.co.core).trapHere env
      { cls := 0x09, sub := 1, lane := 0xFF, addr := 0, info := BitVec.ofNat 64 env.co.sig.toNat }))) ∧
  (∀ (c : Course),
    let d := c.resumeRegion
    d.flags = [] ∧ d.stack = 0 ∧ d.acc = c.region.acc ∧ d.xseq = c.region.xseq ∧ d.sig = 0 ∧ d.scal = c.scal ∧ d.preds = c.preds ∧
    d.kst = c.kst ∧ d.exited = c.exited ∧
    (∀ l, l < 64 → cOf d.c l = if c.region.fmask.getLsbD l then 0 else cOf c.c l) ∧
    d.x = c.x &&& ~~~c.region.fmask ∧ d.k = c.k &&& ~~~c.region.fmask ∧
    ∃ q, d.paths = [(0, q)] ∧ q.ovl = c.regpc.toNat / 65536 ∧ q.idx = c.regpc.toNat % 65536 ∧ q.fmask = c.region.fmask ∧ q.d = c.region.d ∧
      q.prio = c.region.prio ∧ q.lwb = c.region.lwb ∧ q.depth = c.region.depth ∧ q.run = none)

/-- R11, R15, R267, R290, and R318 to R320: fabric links. Power-up starts training; a training succeeds at the widest working width or fails and is
retried after 1 ms; lanes with too many CRC failures are excluded; replies end messages, a retry-later keeps one for 2 µs, the home's later answers
reach the gate operation they name, and a message without a route for 10 ms ends as refused, as does a gate wait whose message has ended. States and
times of links that the spec leaves open, and answers of gates, are the model's choices (log entries 73, 74 and 119). -/
def Obligations.FabricLinks : Prop :=
  (∀ (s : State) (link : Nat), s.up = true → link < 12 →
    let l := s.link link
    exec (.linkPowerUp link) s = .next (s.putLink link { l with st := .training, retrain := min 65535 (l.retrain + 1), width := 0, retryAt := none, crc := [], excluded := 0, viral := false }) ∧
    (∀ peer ver map, l.st = .training → ver ≠ 0 → l.widest map ≠ 0 → exec (.trainingSucceeds link peer ⟨ver, map⟩) s =
      .next ((s.putLink link { l with st := .up, ver := 1, peer := peer % 4096, width := l.widest map, retryAt := none, downAt := none }).setLinkW link (l.widest map)).reroute) ∧
    (l.st = .training → exec (.trainingFails link) s =
      .next ((s.putLink link { l with retryAt := some (s.time.ns + 1000000), st := .down, width := 0, downAt := some (l.downAt.getD s.time.ns) }).setLinkW link 0).reroute) ∧
    (∀ t, l.st = .down → l.retryAt = some t → t ≤ s.time.ns → exec (.trainingRetry link) s = .next (s.putLink link l.train)) ∧
    (∀ t, l.st = .down → l.retryAt = some t → s.time.ns < t → exec (.trainingRetry link) s = .next s) ∧
    (∀ lane, l.st = .up → lane < 8 → l.excluded.getLsbD lane = false → exec (.flitCrcFailure link lane) s =
      .next (s.putLink link { l with crc := l.crc.put lane ((l.crc.getD lane []).filter (fun t => decide (s.time.ns < t + 1000000)) ++ [s.time.ns]) })) ∧
    (∀ lane, l.st = .up → lane < 8 →
      (16 ≤ ((l.crc.getD lane []).filter (fun t => decide (s.time.ns < t + 1000000))).length → exec (.laneErrorThreshold link lane) s =
        .next (s.putLink link { l.train with excluded := l.excluded ||| BitVec.ofNat 8 (2 ^ lane) })) ∧
      (((l.crc.getD lane []).filter (fun t => decide (s.time.ns < t + 1000000))).length < 16 → exec (.laneErrorThreshold link lane) s = .next s))) ∧
  (∀ (s : State) (link seq : Nat) (m : Msg), s.up = true → (s.link link).st = .up → s.msg link seq = some m →
    exec (.linkReply link seq .retryLater) s = .next (s.modMsg link seq (fun m => { m with retry := some (s.time.ns + 2000) })) ∧
    (∀ r, r ≠ .retryLater → (∀ g v, r ≠ .gateValue g v) → exec (.linkReply link seq r) s = .next ((s.dropMsg link seq).replied1 link seq m.kind r)) ∧
    (∀ t, m.retry = some t → t ≤ s.time.ns → exec (.replayRetry link seq) s = .next (s.putLink link
      { s.link link with queue := (s.link link).queue.filter (fun k => k.seq != seq) ++ [{ m with retry := none }] })) ∧
    (∀ t, m.retry = some t → s.time.ns < t → exec (.replayRetry link seq) s = .next s)) ∧
  (∀ (s : State) (link seq : Nat), s.up = true →
    (∀ g v, exec (.linkReply link seq (.gateValue g v)) s = .next (if (s.link link).st = .up then s.gateNews (s.link link).peer g v else s)) ∧
    (∀ r, s.msg link seq = none → r ≠ .retryLater → r ≠ .duplicate → (∀ g v, r ≠ .gateValue g v) → exec (.linkReply link seq r) s = .next (s.gateReplied link seq r)) ∧
    (link < 12 → s.msg link seq = none → (s.link link).st = .down → (s.link link).downAt.getD 0 + 10000000 ≤ s.time.ns → s.otherWay link = false →
      exec (.routeTimeout link seq) s = .next ((s.gateReplied link seq .refused).dropRemote link seq))) ∧
  (∀ (s : State) (link seq : Nat) (m : Msg), s.up = true → link < 12 → s.msg link seq = some m →
    ((s.link link).st = .down → max ((s.link link).downAt.getD 0) m.since + 10000000 ≤ s.time.ns →
      exec (.routeTimeout link seq) s = .next ((s.dropMsg link seq).replied1 link seq m.kind .refused)) ∧
    ((s.link link).st ≠ .down ∨ s.time.ns < max ((s.link link).downAt.getD 0) m.since + 10000000 → exec (.routeTimeout link seq) s = .next s)) ∧
  (∀ (s : State) (op q lane n seq : Nat) (p : BitVec 6) (todo : List (Nat × Word × Word × Nat × Nat)) (dups : LaneMask) (o : Op) (r : Reply), s.ops.find op = some o →
    o.kind = .xqPush p todo dups [(lane, n, seq)] → s.pushReplied op n seq r = s.setOp op (.xqPush p todo (dups ||| (if r = .accept then 0 else 0 ||| BitVec.ofNat 64 (2 ^ lane))) []))

/-- R323: a package that becomes viral sends one viral flit on each UP link, and its links are DOWN: it sends no more. A link that receives one goes DOWN,
and its package does not become viral; the messages queued there for that package move to no other link: they end as those of a link with no route do
(R320), as refused, once 10 ms have passed. -/
def Obligations.ViralLinks : Prop :=
  (∀ (s : State), s.pkg.powerOff = false → s.pkg.inReset = false → s.pkg.viral = false → ∃ t, exec .viralState s = .next t ∧ t.pkg.viral = true ∧ t.up = false ∧
    t.out = .viral ((List.range 12).filter (fun n => (s.link n).st == LState.up)) ∧ ∀ n, n < 12 → (t.link n).st = .down ∧ (t.link n).viral = true) ∧
  (∀ (s : State) (link : Nat), s.up = true → link < 12 → (s.link link).st ≠ .down → ∃ t, exec (.viralFlitReceived link) s = .next t ∧ t.pkg.viral = s.pkg.viral ∧ t.up = true ∧
    t = s.linkDown link { s.link link with viral := true, retryAt := none }) ∧
  (∀ (s : State) (link seq : Nat) (m : Msg), s.up = true → link < 12 → s.msg link seq = some m → (s.link link).st = .down →
    max ((s.link link).downAt.getD 0) m.since + 10000000 ≤ s.time.ns → exec (.routeTimeout link seq) s = .next ((s.dropMsg link seq).replied1 link seq m.kind .refused)) ∧
  (∀ (s : State) (link : Nat) (m : Msg), (s.link link).viral = true → m.dest = (s.link link).peer → s.wayOut link m = none)

/-- R322: the IEEE 1588 input disciplines the time-stamp counter. Its rate changes by at most 200 ppm; an offset above 1 ms ahead of the counter is
corrected by a forward step; a counter that is ahead is only slowed, and never decreases. -/
def Obligations.TimeDiscipline : Prop :=
  ∀ (s : State) (off ppm : Int), ∃ t, exec (.timeSync off ppm) s = .next t ∧ t = { s with time := t.time } ∧ s.time.ns ≤ t.time.ns ∧ t.time.clk = s.time.clk ∧
    -200 ≤ t.time.ppm ∧ t.time.ppm ≤ 200 ∧
    (0 ≤ off → off ≤ 1000000 → t.time.ppm = max (-200) (min ppm 200) ∧ t.time.ns = s.time.ns) ∧
    (1000000 < off → t.time.ppm = max (-200) (min ppm 200) ∧ t.time.ns = s.time.ns + off.toNat) ∧
    (off < 0 → t.time.ppm = min (max (-200) (min ppm 200)) 0 ∧ t.time.ns = s.time.ns)

/-- R310 to R319: the host port. Writes of registers, the fault ring's counter, the counters that a read clears, accesses over CXL.mem inside one 64-byte
block, and the whole-memory checkpoint: armed for a tier outside DRAM, started, and completed once everything is at rest. Sizes of accesses, addresses
over CXL.mem and what a checkpoint waits for are the model's choices (log entries 28 and 70 to 72). R310 and R323 to R329: the package. It becomes
viral with its operations cancelled and its links DOWN; a trip also takes the power; a reset boots the slot that passes the check, measures it and
trains the links; a firmware update writes the inactive slot; the cap and the clock move within their ranges; certificates and reports are given while
a firmware runs. What a reset keeps, the form at reset, and the formats of certificate and digest are the model's choices (log entries 10, 11, 73, 76,
77 and 108); SHA-384 is presumed to be that of its standard (log entry 121). -/
def Obligations.HostAndPackage : Prop :=
  ((∀ (s : State) (v : Word), s.up = true →
    (exec (.registerWrite 0 0x1400 v) s = .next { s with pkg := { s.pkg with pkgno := bits v.toNat 0 12 } }) ∧
    (∀ page, 1 ≤ page → page ≤ 16 → exec (.registerWrite page 0x3000 v) s = .next (s.ring (page - 1) (fun p => { p with ringBase := v })) ∧
      exec (.registerWrite page 0x3008 v) s = .next (s.ring (page - 1) (fun p => { p with ringLog := bits v.toNat 0 5 })) ∧
      (∀ c, exec (.cons page c) s = .next (s.ring (page - 1) (fun p => { p with cons := c }))) ∧
      s.hostRead page 0x3000 = (s.parts.getD (page - 1) Partition.none).ringBase ∧ s.hostRead page 0x3010 = ((s.parts.getD (page - 1) Partition.none).prod).setWidth 64) ∧
    (∀ page off k, page ≤ 16 → (off = 0x1000 ∨ off = 0x1100) → 1 ≤ k → k < 4 → exec (.registerWrite page (off + 8 * k) v) s =
      .next { s with cmds := s.cmds.put (cmdKey page off) { s.cmd page off with
        words := (s.cmd page off).words.set k (((s.cmd page off).words.getD k 0 &&& ~~~(BitVec.ofNat 64 (blockMask off k))) ||| (v &&& BitVec.ofNat 64 (blockMask off k))) } }) ∧
    (∀ page off k, page ≤ 16 → (off = 0x1000 ∨ off = 0x1100) → k < 4 → s.hostRead page (off + 8 * k) = (s.cmd page off).words.getD k 0) ∧
    (∀ page, page ≤ 17 → page ≠ 17 → s.hostRead page 0 = s.pkg.bentEn.setWidth 64 ∧ s.hostRead page 8 = s.pkg.chLo.setWidth 64 ∧ s.hostRead page 16 = s.pkg.chHi.setWidth 64 ∧
      s.hostRead page 24 = s.pkg.linkW.setWidth 64 ∧ s.hostRead page 32 = s.pkg.cfgGen.setWidth 64)) ∧
  (∀ (s : State) (n : Nat), s.pkg.powerOff = false → s.pkg.inReset = false →
    (n < 16 → exec (.errcnt n) s = .next { s with pkg := { s.pkg with peerErr := s.pkg.peerErr.set 0 n 0 }, out := .word (BitVec.ofNat 64 (s.pkg.peerErr.getD n 0)) }) ∧
    (n < 12 → exec (.retrain n) s = .next { s.putLink n { s.link n with retrain := 0 } with out := .word (BitVec.ofNat 64 (s.link n).status) })) ∧
  (∀ (s : State) (hpa n : Nat) (bytes : List Byte), s.pkg.powerOff = false → s.pkg.inReset = false → s.locks = [] →
    (bytes ≠ [] → hpa % 64 + bytes.length ≤ 64 → hpa + bytes.length ≤ 2 ^ 39 → s.inHdm hpa bytes.length = true → s.pkg.checkpoint = false → exec (.hostCxlMemAccess true hpa n bytes) s = .next { s.poke hpa bytes with out := .none }) ∧
    (n ≠ 0 → hpa % 64 + n ≤ 64 → hpa + n ≤ 2 ^ 39 → s.inHdm hpa n = true →
      (s.pkg.viral = true ∨ s.poisoned hpa n ≠ none → exec (.hostCxlMemAccess false hpa n bytes) s = .next { s with out := .poison }) ∧
      (s.pkg.viral = false → s.poisoned hpa n = none → exec (.hostCxlMemAccess false hpa n bytes) s = .next { s with out := .bytes (s.peek hpa n) }))) ∧
  (∀ (s : State) (base : Word) (seq : BitVec 32), s.accepts 0 0x1300 true 0 →
    (base ≠ 0 → base.toNat % 2 ^ 39 = 0 → base.toNat < 2 ^ 52 → exec (.arm 0 base seq) s =
      .next ({ s.submitted 0 0x1300 (cmdWords (2 ^ 60) (some base.toNat) none seq) with pkg := { s.pkg with tier := some base } }.endCmd 0 0x1300 1)) ∧
    (base = 0 ∨ base.toNat % 2 ^ 39 ≠ 0 ∨ 2 ^ 52 ≤ base.toNat → exec (.arm 0 base seq) s = .next ((s.submitted 0 0x1300 (cmdWords (2 ^ 60) (some base.toNat) none seq)).endCmd 0 0x1300 2)) ∧
    (exec (.disarm 0 seq) s = .next ({ s.submitted 0 0x1300 (cmdWords (3 * 2 ^ 60) none none seq) with pkg := { s.pkg with tier := none } }.endCmd 0 0x1300 1)) ∧
    (∀ b, s.pkg.tier = some b → exec (.startCheckpoint 0 seq) s =
      .next ({ s.submitted 0 0x1300 (cmdWords (2 * 2 ^ 60) none none seq) with pkg := { s.pkg with checkpoint := true } }.unpark (fun _ => true))) ∧
    (s.pkg.tier = none → exec (.startCheckpoint 0 seq) s = .next ((s.submitted 0 0x1300 (cmdWords (2 * 2 ^ 60) none none seq)).endCmd 0 0x1300 2))) ∧
  (∀ (s : State) (base : Word), s.pkg.tier = some base → s.pkg.powerOff = false → s.pkg.inReset = false → s.pkg.checkpoint = true →
    (s.pkg.viral = true ∨ s.atRest = true → exec .checkpointComplete s =
      .next ({ s.copyOut base.toNat with pkg := { s.pkg with checkpoint := false } }.endCmd 0 0x1300 1)) ∧
    (s.pkg.viral = false → s.atRest = false → exec .checkpointComplete s = .next s))) ∧
  ((∀ (s : State), s.pkg.powerOff = false → s.pkg.inReset = false → s.pkg.viral = false →
    ∃ t, exec .viralState s = .next t ∧ t.pkg.viral = true ∧ t.ops = [] ∧ t.mem = s.mem ∧ t.courses = s.courses ∧ t.locks = s.locks.filter (fun l => l.2.bind)) ∧
  (∀ (s : State), ∃ t u, exec .junctionTrip s = .next t ∧ exec .inputUndervoltage s = .next u ∧ t.pkg.viral = true ∧ t.pkg.powerOff = true ∧ u.pkg.viral = true ∧ u.pkg.powerOff = true ∧
    t.mem = s.mem ∧ u.mem = s.mem) ∧
  (∀ (s : State),
    (∃ t, exec .cxlReset s = .next t ∧ t.pkg.viral = false ∧ t.pkg.inReset = true ∧ t.pkg.powerOff = false ∧ t.courses = [] ∧ t.ops = [] ∧ t.ctxs = [] ∧ t.pkg.badFrames = s.pkg.badFrames ∧
      (∀ a, a < 2 ^ 39 → memByte t.mem a = 0)) ∧
    (∀ f, s.pkg.kept.bootSlot = some f → ∃ t, exec .resetBoot s = .next t ∧ t.pkg.meas0 = f.digest ∧ t.pkg.meas1 = sha384 t.pkg.configBlock ∧ t.pkg.viral = false ∧
      t.pkg.inReset = false ∧ t.pkg.rollback = max s.pkg.rollback f.version ∧ t.courses = [] ∧ t.ops = [] ∧ t.ctxs = [] ∧ t.pkg.bentEn = s.pkg.bentEn ∧ t.pkg.badFrames = s.pkg.badFrames ∧
      (∀ ch, ch < 64 → t.pkg.chLo.getLsbD ch = (s.pkg.chLo.getLsbD ch && !s.pkg.untrained.getLsbD (ch / 16))) ∧
      (∀ ch, ch < 64 → t.pkg.chHi.getLsbD ch = (s.pkg.chHi.getLsbD ch && !s.pkg.untrained.getLsbD (4 + ch / 16))) ∧
      (∀ n, n < 12 → (t.link n).st = .training) ∧ (∀ a, a < 2 ^ 39 → memByte t.mem a = 0)) ∧
    (s.pkg.kept.bootSlot = none → ∃ t, exec .resetBoot s = .next t ∧ t.pkg.inReset = true ∧ t.up = false ∧ t.out = .bootFailed)) ∧
  (∀ (s : State) (image : List Byte) (version : Nat) (sig : BitVec 768), version < 2 ^ 64 → s.pkg.activeB = false →
    let f : Firmware := { image := image, version := version, sig := sig }
    exec (.firmwareUpdate image version sig) s = .next { s with pkg := { s.pkg with fwB := f, activeB := s.pkg.firmwareOk f } }) ∧
  (∀ (s : State) (n : Nat),
    (1000 ≤ n → n ≤ s.pkg.form.sustained → exec (.powerCapSet n) s = .next { s with pkg := { s.pkg with powerCap := n } }) ∧
    (n % 100 = 0 → 800 ≤ n → n ≤ 1600 → n = s.time.mhz + 100 ∨ n + 100 = s.time.mhz → ∃ t, exec (.clockStep n) s = .next t ∧ t.time.mhz = n ∧ t = { s with time := t.time }) ∧
    (n < 1000 ∨ s.pkg.form.sustained < n → exec (.powerCapSet n) s = .next s) ∧
    (n < 800 ∨ 1600 < n → exec (.clockStep n) s = .next s)) ∧
  (∀ (s : State) (nonce : BitVec 384), s.pkg.powerOff = false → s.pkg.inReset = false →
    (exec .certificateRequest s = .next { s with out := .bytes (toLe 96 (Config.identityKey s.pkg.meas0).toNat ++ toLe 96 (Config.certSign (Config.identityKey s.pkg.meas0)).toNat) }) ∧
    (exec (.attestationRequest nonce) s = .next { s with out := .bytes (s.report nonce ++ toLe 96 (Config.identitySign s.pkg.meas0 (sha384 (s.report nonce))).toNat) })))
end

