-- ==== Sys2Proof/Laws/Tab.lean ====
section
/-!
SUPPORT. Sparse tables: what an entry reads as after another has been set or removed.
-/

namespace Sys2Proof

variable {β : Type}

@[simp] theorem Tab.find_nil (k : Nat) : Tab.find ([] : Tab β) k = none := rfl

theorem Tab.find_put (t : Tab β) (k j : Nat) (v : β) : (t.put k v).find j = if k = j then some v else t.find j := by
  induction t with
  | nil => simp [Tab.put, Tab.find]
  | cons a t ih =>
    obtain ⟨i, w⟩ := a
    simp only [Tab.put]
    split
    · simp only [Tab.find]
    · split
      · simp only [Tab.find]
        split <;> simp_all
      · simp only [Tab.find, ih]
        split <;> split <;> simp_all

@[simp] theorem Tab.find_put_same (t : Tab β) (k : Nat) (v : β) : (t.put k v).find k = some v := by simp [Tab.find_put]

theorem Tab.find_put_other (t : Tab β) (k j : Nat) (v : β) (h : k ≠ j) : (t.put k v).find j = t.find j := by
  simp [Tab.find_put, h]

theorem Tab.find_del (t : Tab β) (k j : Nat) : (t.del k).find j = if k = j then none else t.find j := by
  induction t with
  | nil => simp [Tab.del, Tab.find]
  | cons a t ih =>
    obtain ⟨i, w⟩ := a
    by_cases h : i = k
    · subst h
      have e : Tab.del ((i, w) :: t) i = Tab.del t i := by simp [Tab.del]
      rw [e, ih]
      simp only [Tab.find]
      split <;> simp_all
    · have e : Tab.del ((i, w) :: t) k = (i, w) :: Tab.del t k := by simp [Tab.del, h]
      rw [e]
      simp only [Tab.find, ih]
      split <;> split <;> simp_all

@[simp] theorem Tab.getD_put_same (t : Tab β) (k : Nat) (v d : β) : (t.put k v).getD k d = v := by simp [Tab.getD]

theorem Tab.getD_put (t : Tab β) (k j : Nat) (v d : β) : (t.put k v).getD j d = if k = j then v else t.getD j d := by
  simp only [Tab.getD, Tab.find_put]
  split <;> simp

theorem Tab.getD_set [DecidableEq β] (d : β) (t : Tab β) (k j : Nat) (v : β) :
    (Tab.set d t k v).getD j d = if k = j then v else t.getD j d := by
  unfold Tab.set
  split
  · simp only [Tab.getD, Tab.find_del]
    split <;> simp_all
  · exact Tab.getD_put t k j v d

@[simp] theorem Tab.getD_set_same [DecidableEq β] (d : β) (t : Tab β) (k : Nat) (v : β) : (Tab.set d t k v).getD k d = v := by
  simp [Tab.getD_set]

theorem Tab.find_set [DecidableEq β] (d : β) (t : Tab β) (k j : Nat) (v : β) (h : k ≠ j) : (Tab.set d t k v).find j = t.find j := by
  unfold Tab.set
  split
  · simp [Tab.find_del, h]
  · simp [Tab.find_put, h]

end Sys2Proof
end

