-- ==== Sys2Proof/Laws/Lanes.lean ====
section
/-!
SUPPORT. Lane masks and rows: which lanes a mask holds, and what a lane of a row reads as after lanes have been written.
-/

namespace Sys2Proof.Machine

/-! ### Masks -/

theorem foldl_bits (f : Nat → Bool) (n : Nat) :
    ((List.range n).foldl (fun n l => if f l then n + 2 ^ l else n) 0) < 2 ^ n ∧
    ∀ i, ((List.range n).foldl (fun n l => if f l then n + 2 ^ l else n) 0).testBit i = (decide (i < n) && f i) := by
  induction n with
  | zero => simp
  | succ n ih =>
    obtain ⟨hl, hb⟩ := ih
    rw [List.range_succ, List.foldl_append]
    simp only [List.foldl_cons, List.foldl_nil]
    generalize (List.range n).foldl (fun n l => if f l then n + 2 ^ l else n) 0 = m at hl hb
    have hp : 2 ^ (n + 1) = 2 ^ n + 2 ^ n := by rw [Nat.pow_succ]; omega
    split
    · rename_i hf
      refine ⟨by omega, fun i => ?_⟩
      rw [Nat.add_comm]
      rcases Nat.lt_trichotomy i n with h | h | h
      · rw [Nat.testBit_two_pow_add_gt h, hb]
        have : i < n + 1 := by omega
        simp [h, this]
      · subst h
        rw [Nat.testBit_two_pow_add_eq, hb]
        simp [hf]
      · rw [Nat.testBit_lt_two_pow (lt_of_lt_of_le (by omega : 2 ^ n + m < 2 ^ (n + 1)) (Nat.pow_le_pow_right (by omega) h))]
        have : ¬ i < n + 1 := by omega
        simp [this]
    · rename_i hf
      refine ⟨by omega, fun i => ?_⟩
      rw [hb i]
      by_cases h : i = n
      · subst h; simp [hf]
      · by_cases h2 : i < n
        · have : i < n + 1 := by omega
          simp [h2, this]
        · have : ¬ i < n + 1 := by omega
          simp [h2, this]

/-- A mask built from a test holds exactly the lanes that satisfy it. -/
@[simp] theorem getLsbD_maskOf (f : Nat → Bool) (l : Nat) : (maskOf f).getLsbD l = (decide (l < 64) && f l) := by
  unfold maskOf lanes64
  rw [BitVec.getLsbD_ofNat, (foldl_bits f 64).2]
  cases decide (l < 64) <;> simp

/-- The lanes of a mask are those whose bit is set. -/
theorem mem_lanesOf {m : LaneMask} {l : Nat} : l ∈ lanesOf m ↔ l < 64 ∧ m.getLsbD l = true := by
  simp [lanesOf, lanes64]

theorem nodup_lanesOf (m : LaneMask) : (lanesOf m).Nodup := List.Nodup.filter _ List.nodup_range

theorem lanesOf_zero : lanesOf 0 = [] := by simp [lanesOf]

/-- A mask without lanes is zero. -/
theorem lanesOf_eq_nil {m : LaneMask} : lanesOf m = [] ↔ m = 0 := by
  constructor
  · intro h
    apply BitVec.eq_of_getLsbD_eq
    intro i hi
    have : i ∉ lanesOf m := by rw [h]; simp
    rw [mem_lanesOf] at this
    simpa [hi] using this
  · rintro rfl
    exact lanesOf_zero

/-- A mask with lanes: the first is the lowest one. -/
theorem lanesOf_take {m : LaneMask} (h : m ≠ 0) : (lanesOf m).take 1 = [lowLane m] := by
  unfold lowLane
  cases h2 : lanesOf m with
  | nil => exact absurd (lanesOf_eq_nil.mp h2) h
  | cons a t => simp

/-! ### Nesting counters -/

theorem foldl_bytes (g : Nat → Nat) (n : Nat) :
    ((List.range n).foldl (fun n l => n + (g l % 256) * 2 ^ (8 * l)) 0) < 2 ^ (8 * n) ∧
    ∀ l, l < n → ((List.range n).foldl (fun n l => n + (g l % 256) * 2 ^ (8 * l)) 0) / 2 ^ (8 * l) % 256 = g l % 256 := by
  induction n with
  | zero => simp
  | succ n ih =>
    obtain ⟨hl, hb⟩ := ih
    rw [List.range_succ, List.foldl_append]
    simp only [List.foldl_cons, List.foldl_nil]
    generalize (List.range n).foldl (fun n l => n + (g l % 256) * 2 ^ (8 * l)) 0 = m at hl hb
    have hp : 2 ^ (8 * (n + 1)) = 256 * 2 ^ (8 * n) := by rw [Nat.mul_succ, Nat.pow_add]; omega
    have hg : g n % 256 < 256 := Nat.mod_lt _ (by omega)
    refine ⟨?_, fun l hln => ?_⟩
    · rw [hp]
      calc m + g n % 256 * 2 ^ (8 * n) < 2 ^ (8 * n) + g n % 256 * 2 ^ (8 * n) := by omega
        _ = (1 + g n % 256) * 2 ^ (8 * n) := by ring
        _ ≤ 256 * 2 ^ (8 * n) := Nat.mul_le_mul_right _ (by omega)
    · rcases Nat.lt_or_ge l n with h | h
      · rw [← hb l h]
        have h2 : 8 * n = 8 * l + 8 * (n - l) := by omega
        have h3 : g n % 256 * 2 ^ (8 * n) = 2 ^ (8 * l) * (g n % 256 * 2 ^ (8 * (n - l))) := by rw [h2, Nat.pow_add]; ring
        rw [h3, Nat.add_mul_div_left _ _ (Nat.two_pow_pos _)]
        have h4 : 2 ^ (8 * (n - l)) = 256 * 2 ^ (8 * (n - l - 1)) := by
          have : 8 * (n - l) = 8 + 8 * (n - l - 1) := by omega
          rw [this, Nat.pow_add]
        rw [h4]
        have h5 : g n % 256 * (256 * 2 ^ (8 * (n - l - 1))) = 256 * (g n % 256 * 2 ^ (8 * (n - l - 1))) := by ring
        rw [h5, Nat.add_mul_mod_self_left]
      · have : l = n := by omega
        subst this
        rw [Nat.mul_comm (g l % 256), Nat.add_mul_div_left _ _ (Nat.two_pow_pos _), Nat.div_eq_of_lt hl]
        omega

/-- The counter of lane l after every counter has been changed by a function. -/
theorem cOf_cMap (c : BitVec 512) (f : Nat → Nat → Nat) (l : Nat) (hl : l < 64) : cOf (cMap c f) l = f l (cOf c l) % 256 := by
  have h := foldl_bytes (fun l => f l (cOf c l)) 64
  unfold cMap cOf lanes64 at *
  rw [BitVec.extractLsb'_toNat, BitVec.toNat_ofNat, Nat.shiftRight_eq_div_pow, Nat.mod_eq_of_lt h.1]
  exact h.2 l hl

/-! ### Rows -/

/-- Lane l of a row in which one lane has been replaced. -/
theorem rowLane_put1 (r : BitVec 2048) (k v l : Nat) (hl : l < 64) :
    rowLane ((r &&& ~~~(BitVec.ofNat 2048 ((2 ^ 32 - 1) <<< (32 * k)))) ||| BitVec.ofNat 2048 ((v % 2 ^ 32) <<< (32 * k))) l
      = if l = k then v % 2 ^ 32 else rowLane r l := by
  unfold rowLane
  have key : ((r &&& ~~~(BitVec.ofNat 2048 ((2 ^ 32 - 1) <<< (32 * k)))) ||| BitVec.ofNat 2048 ((v % 2 ^ 32) <<< (32 * k))).extractLsb'
      (32 * l) 32 = if l = k then BitVec.ofNat 32 v else r.extractLsb' (32 * l) 32 := by
    apply BitVec.eq_of_getLsbD_eq
    intro i hi
    have h1 : 32 * l + i < 2048 := by omega
    rw [BitVec.getLsbD_extractLsb', BitVec.getLsbD_or, BitVec.getLsbD_and, BitVec.getLsbD_not, BitVec.getLsbD_ofNat,
      BitVec.getLsbD_ofNat, Nat.testBit_shiftLeft, Nat.testBit_shiftLeft, Nat.testBit_two_pow_sub_one, Nat.testBit_mod_two_pow]
    by_cases h : l = k
    · subst h
      have h2 : 32 * l + i - 32 * l = i := by omega
      rw [if_pos rfl, BitVec.getLsbD_ofNat]
      simp [h1, hi, h2]
    · rw [if_neg h, BitVec.getLsbD_extractLsb']
      rcases Nat.lt_or_gt_of_ne h with h3 | h3
      · have h2 : ¬ (32 * k ≤ 32 * l + i) := by omega
        simp [h1, hi, h2]
      · have h2 : ¬ (32 * l + i - 32 * k < 32) := by omega
        simp [h1, hi, h2]
  rw [key]
  split <;> simp

/-- Lane l of a row after lanes have been written: the lane's new value, or the old one where the lane is not listed. -/
theorem rowLane_rowPut (vals : List (Nat × Nat)) (r : BitVec 2048) (l : Nat) (hl : l < 64) (hn : (vals.map (·.1)).Nodup) :
    rowLane (rowPut r vals) l = match vals.find? (fun v => v.1 == l) with
      | some v => v.2 % 2 ^ 32
      | none => rowLane r l := by
  unfold rowPut
  induction vals generalizing r with
  | nil => rfl
  | cons a t ih =>
    simp only [List.map_cons, List.nodup_cons] at hn
    rw [List.foldl_cons, ih _ hn.2, List.find?_cons]
    by_cases h : a.1 = l
    · have h2 : t.find? (fun v => v.1 == l) = none := by
        rw [List.find?_eq_none]
        intro v hv hv2
        apply hn.1
        rw [List.mem_map]
        exact ⟨v, hv, by simp at hv2; rw [hv2, h]⟩
      rw [h2]
      simp only [h, beq_self_eq_true]
      rw [← h, rowLane_put1 r a.1 a.2 a.1 (by omega)]
      simp
    · have h3 : (a.1 == l) = false := by simp [h]
      rw [h3]
      simp only
      rw [rowLane_put1 r a.1 a.2 l hl, if_neg (fun h4 => h h4.symm)]

/-- Lane l of a row whose listed lanes all took the value of one function. -/
theorem rowLane_rowPut_map (L : List Nat) (f : Nat → Nat) (r : BitVec 2048) (l : Nat) (hl : l < 64) (hn : L.Nodup) :
    rowLane (rowPut r (L.map (fun l => (l, f l)))) l = if l ∈ L then f l % 2 ^ 32 else rowLane r l := by
  have hk : (L.map (fun l => (l, f l))).map (·.1) = L := by
    rw [List.map_map]
    exact List.map_id L
  rw [rowLane_rowPut _ _ _ hl (by rw [hk]; exact hn)]
  by_cases h : l ∈ L
  · have : (L.map (fun l => (l, f l))).find? (fun v => v.1 == l) = some (l, f l) := by
      clear hk hn
      induction L with
      | nil => simp at h
      | cons a t ih =>
        rw [List.map_cons, List.find?_cons]
        by_cases h2 : a = l
        · subst h2; simp
        · have : (a == l) = false := by simp [h2]
          simp only [this]
          exact ih (by simpa [Ne.symm h2] using h)
    rw [this, if_pos h]
  · have : (L.map (fun l => (l, f l))).find? (fun v => v.1 == l) = none := by
      rw [List.find?_eq_none]
      intro v hv
      rw [List.mem_map] at hv
      obtain ⟨j, hj, rfl⟩ := hv
      simp
      rintro rfl
      exact h hj
    rw [this, if_neg h]

/-- Two neighbouring logical rows lie in different physical rows. -/
theorem rowKey_succ_ne (c : Course) (L : Nat) (h1 : 2 ≤ c.rows) (h2 : c.rows ≤ 4096) : c.rowKey (L + 1) ≠ c.rowKey L := by
  unfold Course.rowKey Config.fileRows
  have h3 : c.rows ≠ 0 := by omega
  simp only [h3, if_false]
  intro h
  have hm : (L + 1) % c.rows < c.rows := Nat.mod_lt _ (by omega)
  have hm2 : L % c.rows < c.rows := Nat.mod_lt _ (by omega)
  have h4 : (c.segbase + (L + 1) % c.rows) % 4096 = (c.segbase + L % c.rows) % 4096 := by omega
  have h5 : (L + 1) % c.rows = if L % c.rows + 1 = c.rows then 0 else L % c.rows + 1 := by
    rw [Nat.add_mod]
    by_cases h6 : c.rows = 1
    · omega
    · rw [Nat.mod_eq_of_lt (by omega : 1 < c.rows)]
      split
      · rename_i h7; rw [h7]; simp
      · rw [Nat.mod_eq_of_lt (by omega)]
  rw [h5] at h4
  split at h4 <;> omega

end Sys2Proof.Machine
end

