-- ==== Sys2Proof/Laws/State.lean ====
section
/-!
SUPPORT. What each update of the state leaves in each field: one lemma per field and update, all true by unfolding.
-/

namespace Sys2Proof.Machine

/-! ### Replacing a course -/

@[simp] theorem State.setCourse_mem (s : State) (cid : Nat) (c : Course) : (s.setCourse cid c).mem = s.mem := rfl
@[simp] theorem State.setCourse_absent (s : State) (cid : Nat) (c : Course) : (s.setCourse cid c).absent = s.absent := rfl
@[simp] theorem State.setCourse_poison (s : State) (cid : Nat) (c : Course) : (s.setCourse cid c).poison = s.poison := rfl
@[simp] theorem State.setCourse_rows (s : State) (cid : Nat) (c : Course) : (s.setCourse cid c).rows = s.rows := rfl
@[simp] theorem State.setCourse_rowPoison (s : State) (cid : Nat) (c : Course) : (s.setCourse cid c).rowPoison = s.rowPoison := rfl
@[simp] theorem State.setCourse_courses (s : State) (cid : Nat) (c : Course) : (s.setCourse cid c).courses = s.courses.put cid c := rfl
@[simp] theorem State.setCourse_slots (s : State) (cid : Nat) (c : Course) : (s.setCourse cid c).slots = s.slots := rfl
@[simp] theorem State.setCourse_samplers (s : State) (cid : Nat) (c : Course) : (s.setCourse cid c).samplers = s.samplers := rfl
@[simp] theorem State.setCourse_ops (s : State) (cid : Nat) (c : Course) : (s.setCourse cid c).ops = s.ops := rfl
@[simp] theorem State.setCourse_locks (s : State) (cid : Nat) (c : Course) : (s.setCourse cid c).locks = s.locks := rfl
@[simp] theorem State.setCourse_tlb (s : State) (cid : Nat) (c : Course) : (s.setCourse cid c).tlb = s.tlb := rfl
@[simp] theorem State.setCourse_walks (s : State) (cid : Nat) (c : Course) : (s.setCourse cid c).walks = s.walks := rfl
@[simp] theorem State.setCourse_ranks (s : State) (cid : Nat) (c : Course) : (s.setCourse cid c).ranks = s.ranks := rfl
@[simp] theorem State.setCourse_ovls (s : State) (cid : Nat) (c : Course) : (s.setCourse cid c).ovls = s.ovls := rfl
@[simp] theorem State.setCourse_tiles (s : State) (cid : Nat) (c : Course) : (s.setCourse cid c).tiles = s.tiles := rfl
@[simp] theorem State.setCourse_bents (s : State) (cid : Nat) (c : Course) : (s.setCourse cid c).bents = s.bents := rfl
@[simp] theorem State.setCourse_barriers (s : State) (cid : Nat) (c : Course) : (s.setCourse cid c).barriers = s.barriers := rfl
@[simp] theorem State.setCourse_kernels (s : State) (cid : Nat) (c : Course) : (s.setCourse cid c).kernels = s.kernels := rfl
@[simp] theorem State.setCourse_queues (s : State) (cid : Nat) (c : Course) : (s.setCourse cid c).queues = s.queues := rfl
@[simp] theorem State.setCourse_qblocks (s : State) (cid : Nat) (c : Course) : (s.setCourse cid c).qblocks = s.qblocks := rfl
@[simp] theorem State.setCourse_nodes (s : State) (cid : Nat) (c : Course) : (s.setCourse cid c).nodes = s.nodes := rfl
@[simp] theorem State.setCourse_xqs (s : State) (cid : Nat) (c : Course) : (s.setCourse cid c).xqs = s.xqs := rfl
@[simp] theorem State.setCourse_gates (s : State) (cid : Nat) (c : Course) : (s.setCourse cid c).gates = s.gates := rfl
@[simp] theorem State.setCourse_gateVals (s : State) (cid : Nat) (c : Course) : (s.setCourse cid c).gateVals = s.gateVals := rfl
@[simp] theorem State.setCourse_ctxs (s : State) (cid : Nat) (c : Course) : (s.setCourse cid c).ctxs = s.ctxs := rfl
@[simp] theorem State.setCourse_parts (s : State) (cid : Nat) (c : Course) : (s.setCourse cid c).parts = s.parts := rfl
@[simp] theorem State.setCourse_links (s : State) (cid : Nat) (c : Course) : (s.setCourse cid c).links = s.links := rfl
@[simp] theorem State.setCourse_cmds (s : State) (cid : Nat) (c : Course) : (s.setCourse cid c).cmds = s.cmds := rfl
@[simp] theorem State.setCourse_invals (s : State) (cid : Nat) (c : Course) : (s.setCourse cid c).invals = s.invals := rfl
@[simp] theorem State.setCourse_sigCount (s : State) (cid : Nat) (c : Course) : (s.setCourse cid c).sigCount = s.sigCount := rfl
@[simp] theorem State.setCourse_lastBay (s : State) (cid : Nat) (c : Course) : (s.setCourse cid c).lastBay = s.lastBay := rfl
@[simp] theorem State.setCourse_lastRound (s : State) (cid : Nat) (c : Course) : (s.setCourse cid c).lastRound = s.lastRound := rfl
@[simp] theorem State.setCourse_lastTick (s : State) (cid : Nat) (c : Course) : (s.setCourse cid c).lastTick = s.lastTick := rfl
@[simp] theorem State.setCourse_pkg (s : State) (cid : Nat) (c : Course) : (s.setCourse cid c).pkg = s.pkg := rfl
@[simp] theorem State.setCourse_time (s : State) (cid : Nat) (c : Course) : (s.setCourse cid c).time = s.time := rfl
@[simp] theorem State.setCourse_nextId (s : State) (cid : Nat) (c : Course) : (s.setCourse cid c).nextId = s.nextId := rfl
@[simp] theorem State.setCourse_agenda (s : State) (cid : Nat) (c : Course) : (s.setCourse cid c).agenda = s.agenda := rfl
@[simp] theorem State.setCourse_cur (s : State) (cid : Nat) (c : Course) : (s.setCourse cid c).cur = s.cur := rfl
@[simp] theorem State.setCourse_pace (s : State) (cid : Nat) (c : Course) : (s.setCourse cid c).pace = s.pace := rfl
@[simp] theorem State.setCourse_free (s : State) (cid : Nat) (c : Course) : (s.setCourse cid c).free = s.free := rfl
@[simp] theorem State.setCourse_out (s : State) (cid : Nat) (c : Course) : (s.setCourse cid c).out = s.out := rfl

/-! ### Writing lanes of a row -/

@[simp] theorem State.putRow_mem (s : State) (key : Nat) (vals : List (Nat × Nat)) : (s.putRow key vals).mem = s.mem := rfl
@[simp] theorem State.putRow_absent (s : State) (key : Nat) (vals : List (Nat × Nat)) : (s.putRow key vals).absent = s.absent := rfl
@[simp] theorem State.putRow_poison (s : State) (key : Nat) (vals : List (Nat × Nat)) : (s.putRow key vals).poison = s.poison := rfl
@[simp] theorem State.putRow_rows (s : State) (key : Nat) (vals : List (Nat × Nat)) : (s.putRow key vals).rows = s.rows.set 0 key (rowPut (s.rows.getD key 0) vals) := rfl
@[simp] theorem State.putRow_rowPoison (s : State) (key : Nat) (vals : List (Nat × Nat)) : (s.putRow key vals).rowPoison = s.rowPoison.set 0 key (s.rowPoison.getD key 0 &&& ~~~(pairsWritten vals)) := rfl
@[simp] theorem State.putRow_courses (s : State) (key : Nat) (vals : List (Nat × Nat)) : (s.putRow key vals).courses = s.courses := rfl
@[simp] theorem State.putRow_slots (s : State) (key : Nat) (vals : List (Nat × Nat)) : (s.putRow key vals).slots = s.slots := rfl
@[simp] theorem State.putRow_samplers (s : State) (key : Nat) (vals : List (Nat × Nat)) : (s.putRow key vals).samplers = s.samplers := rfl
@[simp] theorem State.putRow_ops (s : State) (key : Nat) (vals : List (Nat × Nat)) : (s.putRow key vals).ops = s.ops := rfl
@[simp] theorem State.putRow_locks (s : State) (key : Nat) (vals : List (Nat × Nat)) : (s.putRow key vals).locks = s.locks := rfl
@[simp] theorem State.putRow_tlb (s : State) (key : Nat) (vals : List (Nat × Nat)) : (s.putRow key vals).tlb = s.tlb := rfl
@[simp] theorem State.putRow_walks (s : State) (key : Nat) (vals : List (Nat × Nat)) : (s.putRow key vals).walks = s.walks := rfl
@[simp] theorem State.putRow_ranks (s : State) (key : Nat) (vals : List (Nat × Nat)) : (s.putRow key vals).ranks = s.ranks := rfl
@[simp] theorem State.putRow_ovls (s : State) (key : Nat) (vals : List (Nat × Nat)) : (s.putRow key vals).ovls = s.ovls := rfl
@[simp] theorem State.putRow_tiles (s : State) (key : Nat) (vals : List (Nat × Nat)) : (s.putRow key vals).tiles = s.tiles := rfl
@[simp] theorem State.putRow_bents (s : State) (key : Nat) (vals : List (Nat × Nat)) : (s.putRow key vals).bents = s.bents := rfl
@[simp] theorem State.putRow_barriers (s : State) (key : Nat) (vals : List (Nat × Nat)) : (s.putRow key vals).barriers = s.barriers := rfl
@[simp] theorem State.putRow_kernels (s : State) (key : Nat) (vals : List (Nat × Nat)) : (s.putRow key vals).kernels = s.kernels := rfl
@[simp] theorem State.putRow_queues (s : State) (key : Nat) (vals : List (Nat × Nat)) : (s.putRow key vals).queues = s.queues := rfl
@[simp] theorem State.putRow_qblocks (s : State) (key : Nat) (vals : List (Nat × Nat)) : (s.putRow key vals).qblocks = s.qblocks := rfl
@[simp] theorem State.putRow_nodes (s : State) (key : Nat) (vals : List (Nat × Nat)) : (s.putRow key vals).nodes = s.nodes := rfl
@[simp] theorem State.putRow_xqs (s : State) (key : Nat) (vals : List (Nat × Nat)) : (s.putRow key vals).xqs = s.xqs := rfl
@[simp] theorem State.putRow_gates (s : State) (key : Nat) (vals : List (Nat × Nat)) : (s.putRow key vals).gates = s.gates := rfl
@[simp] theorem State.putRow_gateVals (s : State) (key : Nat) (vals : List (Nat × Nat)) : (s.putRow key vals).gateVals = s.gateVals := rfl
@[simp] theorem State.putRow_ctxs (s : State) (key : Nat) (vals : List (Nat × Nat)) : (s.putRow key vals).ctxs = s.ctxs := rfl
@[simp] theorem State.putRow_parts (s : State) (key : Nat) (vals : List (Nat × Nat)) : (s.putRow key vals).parts = s.parts := rfl
@[simp] theorem State.putRow_links (s : State) (key : Nat) (vals : List (Nat × Nat)) : (s.putRow key vals).links = s.links := rfl
@[simp] theorem State.putRow_cmds (s : State) (key : Nat) (vals : List (Nat × Nat)) : (s.putRow key vals).cmds = s.cmds := rfl
@[simp] theorem State.putRow_invals (s : State) (key : Nat) (vals : List (Nat × Nat)) : (s.putRow key vals).invals = s.invals := rfl
@[simp] theorem State.putRow_sigCount (s : State) (key : Nat) (vals : List (Nat × Nat)) : (s.putRow key vals).sigCount = s.sigCount := rfl
@[simp] theorem State.putRow_lastBay (s : State) (key : Nat) (vals : List (Nat × Nat)) : (s.putRow key vals).lastBay = s.lastBay := rfl
@[simp] theorem State.putRow_lastRound (s : State) (key : Nat) (vals : List (Nat × Nat)) : (s.putRow key vals).lastRound = s.lastRound := rfl
@[simp] theorem State.putRow_lastTick (s : State) (key : Nat) (vals : List (Nat × Nat)) : (s.putRow key vals).lastTick = s.lastTick := rfl
@[simp] theorem State.putRow_pkg (s : State) (key : Nat) (vals : List (Nat × Nat)) : (s.putRow key vals).pkg = s.pkg := rfl
@[simp] theorem State.putRow_time (s : State) (key : Nat) (vals : List (Nat × Nat)) : (s.putRow key vals).time = s.time := rfl
@[simp] theorem State.putRow_nextId (s : State) (key : Nat) (vals : List (Nat × Nat)) : (s.putRow key vals).nextId = s.nextId := rfl
@[simp] theorem State.putRow_agenda (s : State) (key : Nat) (vals : List (Nat × Nat)) : (s.putRow key vals).agenda = s.agenda := rfl
@[simp] theorem State.putRow_cur (s : State) (key : Nat) (vals : List (Nat × Nat)) : (s.putRow key vals).cur = s.cur := rfl
@[simp] theorem State.putRow_pace (s : State) (key : Nat) (vals : List (Nat × Nat)) : (s.putRow key vals).pace = s.pace := rfl
@[simp] theorem State.putRow_free (s : State) (key : Nat) (vals : List (Nat × Nat)) : (s.putRow key vals).free = s.free := rfl
@[simp] theorem State.putRow_out (s : State) (key : Nat) (vals : List (Nat × Nat)) : (s.putRow key vals).out = s.out := rfl

/-! ### The clk an instruction takes -/

@[simp] theorem State.tick_mem (s : State) : s.tick.mem = s.mem := rfl
@[simp] theorem State.tick_absent (s : State) : s.tick.absent = s.absent := rfl
@[simp] theorem State.tick_poison (s : State) : s.tick.poison = s.poison := rfl
@[simp] theorem State.tick_rows (s : State) : s.tick.rows = s.rows := rfl
@[simp] theorem State.tick_rowPoison (s : State) : s.tick.rowPoison = s.rowPoison := rfl
@[simp] theorem State.tick_courses (s : State) : s.tick.courses = s.courses := rfl
@[simp] theorem State.tick_slots (s : State) : s.tick.slots = s.slots := rfl
@[simp] theorem State.tick_samplers (s : State) : s.tick.samplers = s.samplers := rfl
@[simp] theorem State.tick_ops (s : State) : s.tick.ops = s.ops := rfl
@[simp] theorem State.tick_locks (s : State) : s.tick.locks = s.locks := rfl
@[simp] theorem State.tick_tlb (s : State) : s.tick.tlb = s.tlb := rfl
@[simp] theorem State.tick_walks (s : State) : s.tick.walks = s.walks := rfl
@[simp] theorem State.tick_ranks (s : State) : s.tick.ranks = s.ranks := rfl
@[simp] theorem State.tick_ovls (s : State) : s.tick.ovls = s.ovls := rfl
@[simp] theorem State.tick_tiles (s : State) : s.tick.tiles = s.tiles := rfl
@[simp] theorem State.tick_bents (s : State) : s.tick.bents = s.bents := rfl
@[simp] theorem State.tick_barriers (s : State) : s.tick.barriers = s.barriers := rfl
@[simp] theorem State.tick_kernels (s : State) : s.tick.kernels = s.kernels := rfl
@[simp] theorem State.tick_queues (s : State) : s.tick.queues = s.queues := rfl
@[simp] theorem State.tick_qblocks (s : State) : s.tick.qblocks = s.qblocks := rfl
@[simp] theorem State.tick_nodes (s : State) : s.tick.nodes = s.nodes := rfl
@[simp] theorem State.tick_xqs (s : State) : s.tick.xqs = s.xqs := rfl
@[simp] theorem State.tick_gates (s : State) : s.tick.gates = s.gates := rfl
@[simp] theorem State.tick_gateVals (s : State) : s.tick.gateVals = s.gateVals := rfl
@[simp] theorem State.tick_ctxs (s : State) : s.tick.ctxs = s.ctxs := rfl
@[simp] theorem State.tick_parts (s : State) : s.tick.parts = s.parts := rfl
@[simp] theorem State.tick_links (s : State) : s.tick.links = s.links := rfl
@[simp] theorem State.tick_cmds (s : State) : s.tick.cmds = s.cmds := rfl
@[simp] theorem State.tick_invals (s : State) : s.tick.invals = s.invals := rfl
@[simp] theorem State.tick_sigCount (s : State) : s.tick.sigCount = s.sigCount := rfl
@[simp] theorem State.tick_lastBay (s : State) : s.tick.lastBay = s.lastBay := rfl
@[simp] theorem State.tick_lastRound (s : State) : s.tick.lastRound = s.lastRound := rfl
@[simp] theorem State.tick_lastTick (s : State) : s.tick.lastTick = s.lastTick := rfl
@[simp] theorem State.tick_pkg (s : State) : s.tick.pkg = s.pkg := rfl
@[simp] theorem State.tick_time (s : State) : s.tick.time = s.time.advance (s.pace.headD 1) := rfl
@[simp] theorem State.tick_nextId (s : State) : s.tick.nextId = s.nextId := rfl
@[simp] theorem State.tick_agenda (s : State) : s.tick.agenda = s.agenda := rfl
@[simp] theorem State.tick_cur (s : State) : s.tick.cur = s.cur := rfl
@[simp] theorem State.tick_pace (s : State) : s.tick.pace = s.pace.tail := rfl
@[simp] theorem State.tick_free (s : State) : s.tick.free = s.free := rfl
@[simp] theorem State.tick_out (s : State) : s.tick.out = s.out := rfl

/-! ### Freeing an issue slot -/

@[simp] theorem State.leaveSlot_mem (s : State) (k : Nat) : (s.leaveSlot k).mem = s.mem := rfl
@[simp] theorem State.leaveSlot_absent (s : State) (k : Nat) : (s.leaveSlot k).absent = s.absent := rfl
@[simp] theorem State.leaveSlot_poison (s : State) (k : Nat) : (s.leaveSlot k).poison = s.poison := rfl
@[simp] theorem State.leaveSlot_rows (s : State) (k : Nat) : (s.leaveSlot k).rows = s.rows := rfl
@[simp] theorem State.leaveSlot_rowPoison (s : State) (k : Nat) : (s.leaveSlot k).rowPoison = s.rowPoison := rfl
@[simp] theorem State.leaveSlot_courses (s : State) (k : Nat) : (s.leaveSlot k).courses = s.courses := rfl
@[simp] theorem State.leaveSlot_slots (s : State) (k : Nat) : (s.leaveSlot k).slots = s.slots.put k { s.slotOf k with busy := none } := rfl
@[simp] theorem State.leaveSlot_samplers (s : State) (k : Nat) : (s.leaveSlot k).samplers = s.samplers := rfl
@[simp] theorem State.leaveSlot_ops (s : State) (k : Nat) : (s.leaveSlot k).ops = s.ops := rfl
@[simp] theorem State.leaveSlot_locks (s : State) (k : Nat) : (s.leaveSlot k).locks = s.locks := rfl
@[simp] theorem State.leaveSlot_tlb (s : State) (k : Nat) : (s.leaveSlot k).tlb = s.tlb := rfl
@[simp] theorem State.leaveSlot_walks (s : State) (k : Nat) : (s.leaveSlot k).walks = s.walks := rfl
@[simp] theorem State.leaveSlot_ranks (s : State) (k : Nat) : (s.leaveSlot k).ranks = s.ranks := rfl
@[simp] theorem State.leaveSlot_ovls (s : State) (k : Nat) : (s.leaveSlot k).ovls = s.ovls := rfl
@[simp] theorem State.leaveSlot_tiles (s : State) (k : Nat) : (s.leaveSlot k).tiles = s.tiles := rfl
@[simp] theorem State.leaveSlot_bents (s : State) (k : Nat) : (s.leaveSlot k).bents = s.bents := rfl
@[simp] theorem State.leaveSlot_barriers (s : State) (k : Nat) : (s.leaveSlot k).barriers = s.barriers := rfl
@[simp] theorem State.leaveSlot_kernels (s : State) (k : Nat) : (s.leaveSlot k).kernels = s.kernels := rfl
@[simp] theorem State.leaveSlot_queues (s : State) (k : Nat) : (s.leaveSlot k).queues = s.queues := rfl
@[simp] theorem State.leaveSlot_qblocks (s : State) (k : Nat) : (s.leaveSlot k).qblocks = s.qblocks := rfl
@[simp] theorem State.leaveSlot_nodes (s : State) (k : Nat) : (s.leaveSlot k).nodes = s.nodes := rfl
@[simp] theorem State.leaveSlot_xqs (s : State) (k : Nat) : (s.leaveSlot k).xqs = s.xqs := rfl
@[simp] theorem State.leaveSlot_gates (s : State) (k : Nat) : (s.leaveSlot k).gates = s.gates := rfl
@[simp] theorem State.leaveSlot_gateVals (s : State) (k : Nat) : (s.leaveSlot k).gateVals = s.gateVals := rfl
@[simp] theorem State.leaveSlot_ctxs (s : State) (k : Nat) : (s.leaveSlot k).ctxs = s.ctxs := rfl
@[simp] theorem State.leaveSlot_parts (s : State) (k : Nat) : (s.leaveSlot k).parts = s.parts := rfl
@[simp] theorem State.leaveSlot_links (s : State) (k : Nat) : (s.leaveSlot k).links = s.links := rfl
@[simp] theorem State.leaveSlot_cmds (s : State) (k : Nat) : (s.leaveSlot k).cmds = s.cmds := rfl
@[simp] theorem State.leaveSlot_invals (s : State) (k : Nat) : (s.leaveSlot k).invals = s.invals := rfl
@[simp] theorem State.leaveSlot_sigCount (s : State) (k : Nat) : (s.leaveSlot k).sigCount = s.sigCount := rfl
@[simp] theorem State.leaveSlot_lastBay (s : State) (k : Nat) : (s.leaveSlot k).lastBay = s.lastBay := rfl
@[simp] theorem State.leaveSlot_lastRound (s : State) (k : Nat) : (s.leaveSlot k).lastRound = s.lastRound := rfl
@[simp] theorem State.leaveSlot_lastTick (s : State) (k : Nat) : (s.leaveSlot k).lastTick = s.lastTick := rfl
@[simp] theorem State.leaveSlot_pkg (s : State) (k : Nat) : (s.leaveSlot k).pkg = s.pkg := rfl
@[simp] theorem State.leaveSlot_time (s : State) (k : Nat) : (s.leaveSlot k).time = s.time := rfl
@[simp] theorem State.leaveSlot_nextId (s : State) (k : Nat) : (s.leaveSlot k).nextId = s.nextId := rfl
@[simp] theorem State.leaveSlot_agenda (s : State) (k : Nat) : (s.leaveSlot k).agenda = s.agenda := rfl
@[simp] theorem State.leaveSlot_cur (s : State) (k : Nat) : (s.leaveSlot k).cur = if s.cur = some k then none else s.cur := rfl
@[simp] theorem State.leaveSlot_pace (s : State) (k : Nat) : (s.leaveSlot k).pace = s.pace := rfl
@[simp] theorem State.leaveSlot_free (s : State) (k : Nat) : (s.leaveSlot k).free = s.free := rfl
@[simp] theorem State.leaveSlot_out (s : State) (k : Nat) : (s.leaveSlot k).out = s.out := rfl

/-! ### Taking a free value -/

@[simp] theorem State.freeWord_mem (s : State) : s.freeWord.2.mem = s.mem := rfl
@[simp] theorem State.freeWord_absent (s : State) : s.freeWord.2.absent = s.absent := rfl
@[simp] theorem State.freeWord_poison (s : State) : s.freeWord.2.poison = s.poison := rfl
@[simp] theorem State.freeWord_rows (s : State) : s.freeWord.2.rows = s.rows := rfl
@[simp] theorem State.freeWord_rowPoison (s : State) : s.freeWord.2.rowPoison = s.rowPoison := rfl
@[simp] theorem State.freeWord_courses (s : State) : s.freeWord.2.courses = s.courses := rfl
@[simp] theorem State.freeWord_slots (s : State) : s.freeWord.2.slots = s.slots := rfl
@[simp] theorem State.freeWord_samplers (s : State) : s.freeWord.2.samplers = s.samplers := rfl
@[simp] theorem State.freeWord_ops (s : State) : s.freeWord.2.ops = s.ops := rfl
@[simp] theorem State.freeWord_locks (s : State) : s.freeWord.2.locks = s.locks := rfl
@[simp] theorem State.freeWord_tlb (s : State) : s.freeWord.2.tlb = s.tlb := rfl
@[simp] theorem State.freeWord_walks (s : State) : s.freeWord.2.walks = s.walks := rfl
@[simp] theorem State.freeWord_ranks (s : State) : s.freeWord.2.ranks = s.ranks := rfl
@[simp] theorem State.freeWord_ovls (s : State) : s.freeWord.2.ovls = s.ovls := rfl
@[simp] theorem State.freeWord_tiles (s : State) : s.freeWord.2.tiles = s.tiles := rfl
@[simp] theorem State.freeWord_bents (s : State) : s.freeWord.2.bents = s.bents := rfl
@[simp] theorem State.freeWord_barriers (s : State) : s.freeWord.2.barriers = s.barriers := rfl
@[simp] theorem State.freeWord_kernels (s : State) : s.freeWord.2.kernels = s.kernels := rfl
@[simp] theorem State.freeWord_queues (s : State) : s.freeWord.2.queues = s.queues := rfl
@[simp] theorem State.freeWord_qblocks (s : State) : s.freeWord.2.qblocks = s.qblocks := rfl
@[simp] theorem State.freeWord_nodes (s : State) : s.freeWord.2.nodes = s.nodes := rfl
@[simp] theorem State.freeWord_xqs (s : State) : s.freeWord.2.xqs = s.xqs := rfl
@[simp] theorem State.freeWord_gates (s : State) : s.freeWord.2.gates = s.gates := rfl
@[simp] theorem State.freeWord_gateVals (s : State) : s.freeWord.2.gateVals = s.gateVals := rfl
@[simp] theorem State.freeWord_ctxs (s : State) : s.freeWord.2.ctxs = s.ctxs := rfl
@[simp] theorem State.freeWord_parts (s : State) : s.freeWord.2.parts = s.parts := rfl
@[simp] theorem State.freeWord_links (s : State) : s.freeWord.2.links = s.links := rfl
@[simp] theorem State.freeWord_cmds (s : State) : s.freeWord.2.cmds = s.cmds := rfl
@[simp] theorem State.freeWord_invals (s : State) : s.freeWord.2.invals = s.invals := rfl
@[simp] theorem State.freeWord_sigCount (s : State) : s.freeWord.2.sigCount = s.sigCount := rfl
@[simp] theorem State.freeWord_lastBay (s : State) : s.freeWord.2.lastBay = s.lastBay := rfl
@[simp] theorem State.freeWord_lastRound (s : State) : s.freeWord.2.lastRound = s.lastRound := rfl
@[simp] theorem State.freeWord_lastTick (s : State) : s.freeWord.2.lastTick = s.lastTick := rfl
@[simp] theorem State.freeWord_pkg (s : State) : s.freeWord.2.pkg = s.pkg := rfl
@[simp] theorem State.freeWord_time (s : State) : s.freeWord.2.time = s.time := rfl
@[simp] theorem State.freeWord_nextId (s : State) : s.freeWord.2.nextId = s.nextId := rfl
@[simp] theorem State.freeWord_agenda (s : State) : s.freeWord.2.agenda = s.agenda := rfl
@[simp] theorem State.freeWord_cur (s : State) : s.freeWord.2.cur = s.cur := rfl
@[simp] theorem State.freeWord_pace (s : State) : s.freeWord.2.pace = s.pace := rfl
@[simp] theorem State.freeWord_free (s : State) : s.freeWord.2.free = s.free + 1 := rfl
@[simp] theorem State.freeWord_out (s : State) : s.freeWord.2.out = s.out := rfl

/-! ### Starting an operation -/

@[simp] theorem State.addOp_mem (s : State) (env : Env) (x : Args) (k : OpKind) : (s.addOp env x k).mem = s.mem := rfl
@[simp] theorem State.addOp_absent (s : State) (env : Env) (x : Args) (k : OpKind) : (s.addOp env x k).absent = s.absent := rfl
@[simp] theorem State.addOp_poison (s : State) (env : Env) (x : Args) (k : OpKind) : (s.addOp env x k).poison = s.poison := rfl
@[simp] theorem State.addOp_rows (s : State) (env : Env) (x : Args) (k : OpKind) : (s.addOp env x k).rows = s.rows := rfl
@[simp] theorem State.addOp_rowPoison (s : State) (env : Env) (x : Args) (k : OpKind) : (s.addOp env x k).rowPoison = s.rowPoison := rfl
@[simp] theorem State.addOp_courses (s : State) (env : Env) (x : Args) (k : OpKind) : (s.addOp env x k).courses = s.courses := rfl
@[simp] theorem State.addOp_slots (s : State) (env : Env) (x : Args) (k : OpKind) : (s.addOp env x k).slots = s.slots := rfl
@[simp] theorem State.addOp_samplers (s : State) (env : Env) (x : Args) (k : OpKind) : (s.addOp env x k).samplers = s.samplers := rfl
@[simp] theorem State.addOp_locks (s : State) (env : Env) (x : Args) (k : OpKind) : (s.addOp env x k).locks = s.locks := rfl
@[simp] theorem State.addOp_tlb (s : State) (env : Env) (x : Args) (k : OpKind) : (s.addOp env x k).tlb = s.tlb := rfl
@[simp] theorem State.addOp_walks (s : State) (env : Env) (x : Args) (k : OpKind) : (s.addOp env x k).walks = s.walks := rfl
@[simp] theorem State.addOp_ranks (s : State) (env : Env) (x : Args) (k : OpKind) : (s.addOp env x k).ranks = s.ranks := rfl
@[simp] theorem State.addOp_ovls (s : State) (env : Env) (x : Args) (k : OpKind) : (s.addOp env x k).ovls = s.ovls := rfl
@[simp] theorem State.addOp_tiles (s : State) (env : Env) (x : Args) (k : OpKind) : (s.addOp env x k).tiles = s.tiles := rfl
@[simp] theorem State.addOp_bents (s : State) (env : Env) (x : Args) (k : OpKind) : (s.addOp env x k).bents = s.bents := rfl
@[simp] theorem State.addOp_barriers (s : State) (env : Env) (x : Args) (k : OpKind) : (s.addOp env x k).barriers = s.barriers := rfl
@[simp] theorem State.addOp_kernels (s : State) (env : Env) (x : Args) (k : OpKind) : (s.addOp env x k).kernels = s.kernels := rfl
@[simp] theorem State.addOp_queues (s : State) (env : Env) (x : Args) (k : OpKind) : (s.addOp env x k).queues = s.queues := rfl
@[simp] theorem State.addOp_qblocks (s : State) (env : Env) (x : Args) (k : OpKind) : (s.addOp env x k).qblocks = s.qblocks := rfl
@[simp] theorem State.addOp_nodes (s : State) (env : Env) (x : Args) (k : OpKind) : (s.addOp env x k).nodes = s.nodes := rfl
@[simp] theorem State.addOp_xqs (s : State) (env : Env) (x : Args) (k : OpKind) : (s.addOp env x k).xqs = s.xqs := rfl
@[simp] theorem State.addOp_gates (s : State) (env : Env) (x : Args) (k : OpKind) : (s.addOp env x k).gates = s.gates := rfl
@[simp] theorem State.addOp_gateVals (s : State) (env : Env) (x : Args) (k : OpKind) : (s.addOp env x k).gateVals = s.gateVals := rfl
@[simp] theorem State.addOp_ctxs (s : State) (env : Env) (x : Args) (k : OpKind) : (s.addOp env x k).ctxs = s.ctxs := rfl
@[simp] theorem State.addOp_parts (s : State) (env : Env) (x : Args) (k : OpKind) : (s.addOp env x k).parts = s.parts := rfl
@[simp] theorem State.addOp_links (s : State) (env : Env) (x : Args) (k : OpKind) : (s.addOp env x k).links = s.links := rfl
@[simp] theorem State.addOp_cmds (s : State) (env : Env) (x : Args) (k : OpKind) : (s.addOp env x k).cmds = s.cmds := rfl
@[simp] theorem State.addOp_invals (s : State) (env : Env) (x : Args) (k : OpKind) : (s.addOp env x k).invals = s.invals := rfl
@[simp] theorem State.addOp_sigCount (s : State) (env : Env) (x : Args) (k : OpKind) : (s.addOp env x k).sigCount = s.sigCount := rfl
@[simp] theorem State.addOp_lastBay (s : State) (env : Env) (x : Args) (k : OpKind) : (s.addOp env x k).lastBay = s.lastBay := rfl
@[simp] theorem State.addOp_lastRound (s : State) (env : Env) (x : Args) (k : OpKind) : (s.addOp env x k).lastRound = s.lastRound := rfl
@[simp] theorem State.addOp_lastTick (s : State) (env : Env) (x : Args) (k : OpKind) : (s.addOp env x k).lastTick = s.lastTick := rfl
@[simp] theorem State.addOp_pkg (s : State) (env : Env) (x : Args) (k : OpKind) : (s.addOp env x k).pkg = s.pkg := rfl
@[simp] theorem State.addOp_time (s : State) (env : Env) (x : Args) (k : OpKind) : (s.addOp env x k).time = s.time := rfl
@[simp] theorem State.addOp_nextId (s : State) (env : Env) (x : Args) (k : OpKind) : (s.addOp env x k).nextId = s.nextId + 1 := rfl
@[simp] theorem State.addOp_agenda (s : State) (env : Env) (x : Args) (k : OpKind) : (s.addOp env x k).agenda = s.agenda := rfl
@[simp] theorem State.addOp_cur (s : State) (env : Env) (x : Args) (k : OpKind) : (s.addOp env x k).cur = s.cur := rfl
@[simp] theorem State.addOp_pace (s : State) (env : Env) (x : Args) (k : OpKind) : (s.addOp env x k).pace = s.pace := rfl
@[simp] theorem State.addOp_free (s : State) (env : Env) (x : Args) (k : OpKind) : (s.addOp env x k).free = s.free := rfl
@[simp] theorem State.addOp_out (s : State) (env : Env) (x : Args) (k : OpKind) : (s.addOp env x k).out = s.out := rfl

/-! ### Starting an operation without a flag -/

@[simp] theorem State.addSilent_mem (s : State) (env : Env) (k : OpKind) : (s.addSilent env k).mem = s.mem := rfl
@[simp] theorem State.addSilent_absent (s : State) (env : Env) (k : OpKind) : (s.addSilent env k).absent = s.absent := rfl
@[simp] theorem State.addSilent_poison (s : State) (env : Env) (k : OpKind) : (s.addSilent env k).poison = s.poison := rfl
@[simp] theorem State.addSilent_rows (s : State) (env : Env) (k : OpKind) : (s.addSilent env k).rows = s.rows := rfl
@[simp] theorem State.addSilent_rowPoison (s : State) (env : Env) (k : OpKind) : (s.addSilent env k).rowPoison = s.rowPoison := rfl
@[simp] theorem State.addSilent_courses (s : State) (env : Env) (k : OpKind) : (s.addSilent env k).courses = s.courses := rfl
@[simp] theorem State.addSilent_slots (s : State) (env : Env) (k : OpKind) : (s.addSilent env k).slots = s.slots := rfl
@[simp] theorem State.addSilent_samplers (s : State) (env : Env) (k : OpKind) : (s.addSilent env k).samplers = s.samplers := rfl
@[simp] theorem State.addSilent_locks (s : State) (env : Env) (k : OpKind) : (s.addSilent env k).locks = s.locks := rfl
@[simp] theorem State.addSilent_tlb (s : State) (env : Env) (k : OpKind) : (s.addSilent env k).tlb = s.tlb := rfl
@[simp] theorem State.addSilent_walks (s : State) (env : Env) (k : OpKind) : (s.addSilent env k).walks = s.walks := rfl
@[simp] theorem State.addSilent_ranks (s : State) (env : Env) (k : OpKind) : (s.addSilent env k).ranks = s.ranks := rfl
@[simp] theorem State.addSilent_ovls (s : State) (env : Env) (k : OpKind) : (s.addSilent env k).ovls = s.ovls := rfl
@[simp] theorem State.addSilent_tiles (s : State) (env : Env) (k : OpKind) : (s.addSilent env k).tiles = s.tiles := rfl
@[simp] theorem State.addSilent_bents (s : State) (env : Env) (k : OpKind) : (s.addSilent env k).bents = s.bents := rfl
@[simp] theorem State.addSilent_barriers (s : State) (env : Env) (k : OpKind) : (s.addSilent env k).barriers = s.barriers := rfl
@[simp] theorem State.addSilent_kernels (s : State) (env : Env) (k : OpKind) : (s.addSilent env k).kernels = s.kernels := rfl
@[simp] theorem State.addSilent_queues (s : State) (env : Env) (k : OpKind) : (s.addSilent env k).queues = s.queues := rfl
@[simp] theorem State.addSilent_qblocks (s : State) (env : Env) (k : OpKind) : (s.addSilent env k).qblocks = s.qblocks := rfl
@[simp] theorem State.addSilent_nodes (s : State) (env : Env) (k : OpKind) : (s.addSilent env k).nodes = s.nodes := rfl
@[simp] theorem State.addSilent_xqs (s : State) (env : Env) (k : OpKind) : (s.addSilent env k).xqs = s.xqs := rfl
@[simp] theorem State.addSilent_gates (s : State) (env : Env) (k : OpKind) : (s.addSilent env k).gates = s.gates := rfl
@[simp] theorem State.addSilent_gateVals (s : State) (env : Env) (k : OpKind) : (s.addSilent env k).gateVals = s.gateVals := rfl
@[simp] theorem State.addSilent_ctxs (s : State) (env : Env) (k : OpKind) : (s.addSilent env k).ctxs = s.ctxs := rfl
@[simp] theorem State.addSilent_parts (s : State) (env : Env) (k : OpKind) : (s.addSilent env k).parts = s.parts := rfl
@[simp] theorem State.addSilent_links (s : State) (env : Env) (k : OpKind) : (s.addSilent env k).links = s.links := rfl
@[simp] theorem State.addSilent_cmds (s : State) (env : Env) (k : OpKind) : (s.addSilent env k).cmds = s.cmds := rfl
@[simp] theorem State.addSilent_invals (s : State) (env : Env) (k : OpKind) : (s.addSilent env k).invals = s.invals := rfl
@[simp] theorem State.addSilent_sigCount (s : State) (env : Env) (k : OpKind) : (s.addSilent env k).sigCount = s.sigCount := rfl
@[simp] theorem State.addSilent_lastBay (s : State) (env : Env) (k : OpKind) : (s.addSilent env k).lastBay = s.lastBay := rfl
@[simp] theorem State.addSilent_lastRound (s : State) (env : Env) (k : OpKind) : (s.addSilent env k).lastRound = s.lastRound := rfl
@[simp] theorem State.addSilent_lastTick (s : State) (env : Env) (k : OpKind) : (s.addSilent env k).lastTick = s.lastTick := rfl
@[simp] theorem State.addSilent_pkg (s : State) (env : Env) (k : OpKind) : (s.addSilent env k).pkg = s.pkg := rfl
@[simp] theorem State.addSilent_time (s : State) (env : Env) (k : OpKind) : (s.addSilent env k).time = s.time := rfl
@[simp] theorem State.addSilent_nextId (s : State) (env : Env) (k : OpKind) : (s.addSilent env k).nextId = s.nextId + 1 := rfl
@[simp] theorem State.addSilent_agenda (s : State) (env : Env) (k : OpKind) : (s.addSilent env k).agenda = s.agenda := rfl
@[simp] theorem State.addSilent_cur (s : State) (env : Env) (k : OpKind) : (s.addSilent env k).cur = s.cur := rfl
@[simp] theorem State.addSilent_pace (s : State) (env : Env) (k : OpKind) : (s.addSilent env k).pace = s.pace := rfl
@[simp] theorem State.addSilent_free (s : State) (env : Env) (k : OpKind) : (s.addSilent env k).free = s.free := rfl
@[simp] theorem State.addSilent_out (s : State) (env : Env) (k : OpKind) : (s.addSilent env k).out = s.out := rfl

/-! ### Storing bytes -/

@[simp] theorem State.poke_mem (s : State) (pa : Nat) (l : List Byte) : (s.poke pa l).mem = s.store pa l := rfl
@[simp] theorem State.poke_absent (s : State) (pa : Nat) (l : List Byte) : (s.poke pa l).absent = s.absent := rfl
@[simp] theorem State.poke_poison (s : State) (pa : Nat) (l : List Byte) : (s.poke pa l).poison = clearPoison s.poison (s.cell pa) l.length := rfl
@[simp] theorem State.poke_rows (s : State) (pa : Nat) (l : List Byte) : (s.poke pa l).rows = s.rows := rfl
@[simp] theorem State.poke_rowPoison (s : State) (pa : Nat) (l : List Byte) : (s.poke pa l).rowPoison = s.rowPoison := rfl
@[simp] theorem State.poke_slots (s : State) (pa : Nat) (l : List Byte) : (s.poke pa l).slots = s.slots := rfl
@[simp] theorem State.poke_samplers (s : State) (pa : Nat) (l : List Byte) : (s.poke pa l).samplers = s.samplers := rfl
@[simp] theorem State.poke_ops (s : State) (pa : Nat) (l : List Byte) : (s.poke pa l).ops = s.ops := rfl
@[simp] theorem State.poke_locks (s : State) (pa : Nat) (l : List Byte) : (s.poke pa l).locks = s.locks := rfl
@[simp] theorem State.poke_tlb (s : State) (pa : Nat) (l : List Byte) : (s.poke pa l).tlb = s.tlb := rfl
@[simp] theorem State.poke_walks (s : State) (pa : Nat) (l : List Byte) : (s.poke pa l).walks = s.walks := rfl
@[simp] theorem State.poke_ranks (s : State) (pa : Nat) (l : List Byte) : (s.poke pa l).ranks = s.ranks := rfl
@[simp] theorem State.poke_ovls (s : State) (pa : Nat) (l : List Byte) : (s.poke pa l).ovls = s.ovls := rfl
@[simp] theorem State.poke_tiles (s : State) (pa : Nat) (l : List Byte) : (s.poke pa l).tiles = s.tiles := rfl
@[simp] theorem State.poke_bents (s : State) (pa : Nat) (l : List Byte) : (s.poke pa l).bents = s.bents := rfl
@[simp] theorem State.poke_barriers (s : State) (pa : Nat) (l : List Byte) : (s.poke pa l).barriers = s.barriers := rfl
@[simp] theorem State.poke_kernels (s : State) (pa : Nat) (l : List Byte) : (s.poke pa l).kernels = s.kernels := rfl
@[simp] theorem State.poke_queues (s : State) (pa : Nat) (l : List Byte) : (s.poke pa l).queues = s.queues := rfl
@[simp] theorem State.poke_qblocks (s : State) (pa : Nat) (l : List Byte) : (s.poke pa l).qblocks = s.qblocks := rfl
@[simp] theorem State.poke_xqs (s : State) (pa : Nat) (l : List Byte) : (s.poke pa l).xqs = s.xqs := rfl
@[simp] theorem State.poke_gates (s : State) (pa : Nat) (l : List Byte) : (s.poke pa l).gates = s.gates := rfl
@[simp] theorem State.poke_gateVals (s : State) (pa : Nat) (l : List Byte) : (s.poke pa l).gateVals = s.gateVals := rfl
@[simp] theorem State.poke_ctxs (s : State) (pa : Nat) (l : List Byte) : (s.poke pa l).ctxs = s.ctxs := rfl
@[simp] theorem State.poke_parts (s : State) (pa : Nat) (l : List Byte) : (s.poke pa l).parts = s.parts := rfl
@[simp] theorem State.poke_links (s : State) (pa : Nat) (l : List Byte) : (s.poke pa l).links = s.links := rfl
@[simp] theorem State.poke_cmds (s : State) (pa : Nat) (l : List Byte) : (s.poke pa l).cmds = s.cmds := rfl
@[simp] theorem State.poke_invals (s : State) (pa : Nat) (l : List Byte) : (s.poke pa l).invals = s.invals := rfl
@[simp] theorem State.poke_sigCount (s : State) (pa : Nat) (l : List Byte) : (s.poke pa l).sigCount = s.sigCount := rfl
@[simp] theorem State.poke_lastBay (s : State) (pa : Nat) (l : List Byte) : (s.poke pa l).lastBay = s.lastBay := rfl
@[simp] theorem State.poke_lastRound (s : State) (pa : Nat) (l : List Byte) : (s.poke pa l).lastRound = s.lastRound := rfl
@[simp] theorem State.poke_lastTick (s : State) (pa : Nat) (l : List Byte) : (s.poke pa l).lastTick = s.lastTick := rfl
@[simp] theorem State.poke_pkg (s : State) (pa : Nat) (l : List Byte) : (s.poke pa l).pkg = s.pkg := rfl
@[simp] theorem State.poke_time (s : State) (pa : Nat) (l : List Byte) : (s.poke pa l).time = s.time := rfl
@[simp] theorem State.poke_nextId (s : State) (pa : Nat) (l : List Byte) : (s.poke pa l).nextId = s.nextId := rfl
@[simp] theorem State.poke_agenda (s : State) (pa : Nat) (l : List Byte) : (s.poke pa l).agenda = s.agenda := rfl
@[simp] theorem State.poke_cur (s : State) (pa : Nat) (l : List Byte) : (s.poke pa l).cur = s.cur := rfl
@[simp] theorem State.poke_pace (s : State) (pa : Nat) (l : List Byte) : (s.poke pa l).pace = s.pace := rfl
@[simp] theorem State.poke_free (s : State) (pa : Nat) (l : List Byte) : (s.poke pa l).free = s.free := rfl
@[simp] theorem State.poke_out (s : State) (pa : Nat) (l : List Byte) : (s.poke pa l).out = s.out := rfl

/-! ### Marking poison -/

@[simp] theorem State.markPoison_mem (s : State) (pa n : Nat) : (s.markPoison pa n).mem = s.mem := rfl
@[simp] theorem State.markPoison_absent (s : State) (pa n : Nat) : (s.markPoison pa n).absent = s.absent := rfl
@[simp] theorem State.markPoison_rows (s : State) (pa n : Nat) : (s.markPoison pa n).rows = s.rows := rfl
@[simp] theorem State.markPoison_rowPoison (s : State) (pa n : Nat) : (s.markPoison pa n).rowPoison = s.rowPoison := rfl
@[simp] theorem State.markPoison_courses (s : State) (pa n : Nat) : (s.markPoison pa n).courses = s.courses := rfl
@[simp] theorem State.markPoison_slots (s : State) (pa n : Nat) : (s.markPoison pa n).slots = s.slots := rfl
@[simp] theorem State.markPoison_samplers (s : State) (pa n : Nat) : (s.markPoison pa n).samplers = s.samplers := rfl
@[simp] theorem State.markPoison_ops (s : State) (pa n : Nat) : (s.markPoison pa n).ops = s.ops := rfl
@[simp] theorem State.markPoison_locks (s : State) (pa n : Nat) : (s.markPoison pa n).locks = s.locks := rfl
@[simp] theorem State.markPoison_tlb (s : State) (pa n : Nat) : (s.markPoison pa n).tlb = s.tlb := rfl
@[simp] theorem State.markPoison_walks (s : State) (pa n : Nat) : (s.markPoison pa n).walks = s.walks := rfl
@[simp] theorem State.markPoison_ranks (s : State) (pa n : Nat) : (s.markPoison pa n).ranks = s.ranks := rfl
@[simp] theorem State.markPoison_ovls (s : State) (pa n : Nat) : (s.markPoison pa n).ovls = s.ovls := rfl
@[simp] theorem State.markPoison_tiles (s : State) (pa n : Nat) : (s.markPoison pa n).tiles = s.tiles := rfl
@[simp] theorem State.markPoison_bents (s : State) (pa n : Nat) : (s.markPoison pa n).bents = s.bents := rfl
@[simp] theorem State.markPoison_barriers (s : State) (pa n : Nat) : (s.markPoison pa n).barriers = s.barriers := rfl
@[simp] theorem State.markPoison_kernels (s : State) (pa n : Nat) : (s.markPoison pa n).kernels = s.kernels := rfl
@[simp] theorem State.markPoison_queues (s : State) (pa n : Nat) : (s.markPoison pa n).queues = s.queues := rfl
@[simp] theorem State.markPoison_qblocks (s : State) (pa n : Nat) : (s.markPoison pa n).qblocks = s.qblocks := rfl
@[simp] theorem State.markPoison_nodes (s : State) (pa n : Nat) : (s.markPoison pa n).nodes = s.nodes := rfl
@[simp] theorem State.markPoison_xqs (s : State) (pa n : Nat) : (s.markPoison pa n).xqs = s.xqs := rfl
@[simp] theorem State.markPoison_gates (s : State) (pa n : Nat) : (s.markPoison pa n).gates = s.gates := rfl
@[simp] theorem State.markPoison_gateVals (s : State) (pa n : Nat) : (s.markPoison pa n).gateVals = s.gateVals := rfl
@[simp] theorem State.markPoison_ctxs (s : State) (pa n : Nat) : (s.markPoison pa n).ctxs = s.ctxs := rfl
@[simp] theorem State.markPoison_parts (s : State) (pa n : Nat) : (s.markPoison pa n).parts = s.parts := rfl
@[simp] theorem State.markPoison_links (s : State) (pa n : Nat) : (s.markPoison pa n).links = s.links := rfl
@[simp] theorem State.markPoison_cmds (s : State) (pa n : Nat) : (s.markPoison pa n).cmds = s.cmds := rfl
@[simp] theorem State.markPoison_invals (s : State) (pa n : Nat) : (s.markPoison pa n).invals = s.invals := rfl
@[simp] theorem State.markPoison_sigCount (s : State) (pa n : Nat) : (s.markPoison pa n).sigCount = s.sigCount := rfl
@[simp] theorem State.markPoison_lastBay (s : State) (pa n : Nat) : (s.markPoison pa n).lastBay = s.lastBay := rfl
@[simp] theorem State.markPoison_lastRound (s : State) (pa n : Nat) : (s.markPoison pa n).lastRound = s.lastRound := rfl
@[simp] theorem State.markPoison_lastTick (s : State) (pa n : Nat) : (s.markPoison pa n).lastTick = s.lastTick := rfl
@[simp] theorem State.markPoison_pkg (s : State) (pa n : Nat) : (s.markPoison pa n).pkg = s.pkg := rfl
@[simp] theorem State.markPoison_time (s : State) (pa n : Nat) : (s.markPoison pa n).time = s.time := rfl
@[simp] theorem State.markPoison_nextId (s : State) (pa n : Nat) : (s.markPoison pa n).nextId = s.nextId := rfl
@[simp] theorem State.markPoison_agenda (s : State) (pa n : Nat) : (s.markPoison pa n).agenda = s.agenda := rfl
@[simp] theorem State.markPoison_cur (s : State) (pa n : Nat) : (s.markPoison pa n).cur = s.cur := rfl
@[simp] theorem State.markPoison_pace (s : State) (pa n : Nat) : (s.markPoison pa n).pace = s.pace := rfl
@[simp] theorem State.markPoison_free (s : State) (pa n : Nat) : (s.markPoison pa n).free = s.free := rfl
@[simp] theorem State.markPoison_out (s : State) (pa n : Nat) : (s.markPoison pa n).out = s.out := rfl

/-! ### Clearing P -/

@[simp] theorem State.setAbsent_mem (s : State) (l : List Nat) : (s.setAbsent l).mem = s.mem := rfl
@[simp] theorem State.setAbsent_poison (s : State) (l : List Nat) : (s.setAbsent l).poison = s.poison := rfl
@[simp] theorem State.setAbsent_rows (s : State) (l : List Nat) : (s.setAbsent l).rows = s.rows := rfl
@[simp] theorem State.setAbsent_rowPoison (s : State) (l : List Nat) : (s.setAbsent l).rowPoison = s.rowPoison := rfl
@[simp] theorem State.setAbsent_courses (s : State) (l : List Nat) : (s.setAbsent l).courses = s.courses := rfl
@[simp] theorem State.setAbsent_slots (s : State) (l : List Nat) : (s.setAbsent l).slots = s.slots := rfl
@[simp] theorem State.setAbsent_samplers (s : State) (l : List Nat) : (s.setAbsent l).samplers = s.samplers := rfl
@[simp] theorem State.setAbsent_ops (s : State) (l : List Nat) : (s.setAbsent l).ops = s.ops := rfl
@[simp] theorem State.setAbsent_locks (s : State) (l : List Nat) : (s.setAbsent l).locks = s.locks := rfl
@[simp] theorem State.setAbsent_tlb (s : State) (l : List Nat) : (s.setAbsent l).tlb = s.tlb := rfl
@[simp] theorem State.setAbsent_walks (s : State) (l : List Nat) : (s.setAbsent l).walks = s.walks := rfl
@[simp] theorem State.setAbsent_ranks (s : State) (l : List Nat) : (s.setAbsent l).ranks = s.ranks := rfl
@[simp] theorem State.setAbsent_ovls (s : State) (l : List Nat) : (s.setAbsent l).ovls = s.ovls := rfl
@[simp] theorem State.setAbsent_tiles (s : State) (l : List Nat) : (s.setAbsent l).tiles = s.tiles := rfl
@[simp] theorem State.setAbsent_bents (s : State) (l : List Nat) : (s.setAbsent l).bents = s.bents := rfl
@[simp] theorem State.setAbsent_barriers (s : State) (l : List Nat) : (s.setAbsent l).barriers = s.barriers := rfl
@[simp] theorem State.setAbsent_kernels (s : State) (l : List Nat) : (s.setAbsent l).kernels = s.kernels := rfl
@[simp] theorem State.setAbsent_queues (s : State) (l : List Nat) : (s.setAbsent l).queues = s.queues := rfl
@[simp] theorem State.setAbsent_qblocks (s : State) (l : List Nat) : (s.setAbsent l).qblocks = s.qblocks := rfl
@[simp] theorem State.setAbsent_nodes (s : State) (l : List Nat) : (s.setAbsent l).nodes = s.nodes := rfl
@[simp] theorem State.setAbsent_xqs (s : State) (l : List Nat) : (s.setAbsent l).xqs = s.xqs := rfl
@[simp] theorem State.setAbsent_gates (s : State) (l : List Nat) : (s.setAbsent l).gates = s.gates := rfl
@[simp] theorem State.setAbsent_gateVals (s : State) (l : List Nat) : (s.setAbsent l).gateVals = s.gateVals := rfl
@[simp] theorem State.setAbsent_ctxs (s : State) (l : List Nat) : (s.setAbsent l).ctxs = s.ctxs := rfl
@[simp] theorem State.setAbsent_parts (s : State) (l : List Nat) : (s.setAbsent l).parts = s.parts := rfl
@[simp] theorem State.setAbsent_links (s : State) (l : List Nat) : (s.setAbsent l).links = s.links := rfl
@[simp] theorem State.setAbsent_cmds (s : State) (l : List Nat) : (s.setAbsent l).cmds = s.cmds := rfl
@[simp] theorem State.setAbsent_invals (s : State) (l : List Nat) : (s.setAbsent l).invals = s.invals := rfl
@[simp] theorem State.setAbsent_sigCount (s : State) (l : List Nat) : (s.setAbsent l).sigCount = s.sigCount := rfl
@[simp] theorem State.setAbsent_lastBay (s : State) (l : List Nat) : (s.setAbsent l).lastBay = s.lastBay := rfl
@[simp] theorem State.setAbsent_lastRound (s : State) (l : List Nat) : (s.setAbsent l).lastRound = s.lastRound := rfl
@[simp] theorem State.setAbsent_lastTick (s : State) (l : List Nat) : (s.setAbsent l).lastTick = s.lastTick := rfl
@[simp] theorem State.setAbsent_pkg (s : State) (l : List Nat) : (s.setAbsent l).pkg = s.pkg := rfl
@[simp] theorem State.setAbsent_time (s : State) (l : List Nat) : (s.setAbsent l).time = s.time := rfl
@[simp] theorem State.setAbsent_nextId (s : State) (l : List Nat) : (s.setAbsent l).nextId = s.nextId := rfl
@[simp] theorem State.setAbsent_agenda (s : State) (l : List Nat) : (s.setAbsent l).agenda = s.agenda := rfl
@[simp] theorem State.setAbsent_cur (s : State) (l : List Nat) : (s.setAbsent l).cur = s.cur := rfl
@[simp] theorem State.setAbsent_pace (s : State) (l : List Nat) : (s.setAbsent l).pace = s.pace := rfl
@[simp] theorem State.setAbsent_free (s : State) (l : List Nat) : (s.setAbsent l).free = s.free := rfl
@[simp] theorem State.setAbsent_out (s : State) (l : List Nat) : (s.setAbsent l).out = s.out := rfl

/-! ### Setting P -/

@[simp] theorem State.setPresent_mem (s : State) (l : List Nat) : (s.setPresent l).mem = s.mem := rfl
@[simp] theorem State.setPresent_absent (s : State) (l : List Nat) : (s.setPresent l).absent = s.absent.filter (fun x => !(l.contains x)) := rfl
@[simp] theorem State.setPresent_poison (s : State) (l : List Nat) : (s.setPresent l).poison = s.poison := rfl
@[simp] theorem State.setPresent_rows (s : State) (l : List Nat) : (s.setPresent l).rows = s.rows := rfl
@[simp] theorem State.setPresent_rowPoison (s : State) (l : List Nat) : (s.setPresent l).rowPoison = s.rowPoison := rfl
@[simp] theorem State.setPresent_courses (s : State) (l : List Nat) : (s.setPresent l).courses = s.courses := rfl
@[simp] theorem State.setPresent_slots (s : State) (l : List Nat) : (s.setPresent l).slots = s.slots := rfl
@[simp] theorem State.setPresent_samplers (s : State) (l : List Nat) : (s.setPresent l).samplers = s.samplers := rfl
@[simp] theorem State.setPresent_ops (s : State) (l : List Nat) : (s.setPresent l).ops = s.ops := rfl
@[simp] theorem State.setPresent_locks (s : State) (l : List Nat) : (s.setPresent l).locks = s.locks := rfl
@[simp] theorem State.setPresent_tlb (s : State) (l : List Nat) : (s.setPresent l).tlb = s.tlb := rfl
@[simp] theorem State.setPresent_walks (s : State) (l : List Nat) : (s.setPresent l).walks = s.walks := rfl
@[simp] theorem State.setPresent_ranks (s : State) (l : List Nat) : (s.setPresent l).ranks = s.ranks := rfl
@[simp] theorem State.setPresent_ovls (s : State) (l : List Nat) : (s.setPresent l).ovls = s.ovls := rfl
@[simp] theorem State.setPresent_tiles (s : State) (l : List Nat) : (s.setPresent l).tiles = s.tiles := rfl
@[simp] theorem State.setPresent_bents (s : State) (l : List Nat) : (s.setPresent l).bents = s.bents := rfl
@[simp] theorem State.setPresent_barriers (s : State) (l : List Nat) : (s.setPresent l).barriers = s.barriers := rfl
@[simp] theorem State.setPresent_kernels (s : State) (l : List Nat) : (s.setPresent l).kernels = s.kernels := rfl
@[simp] theorem State.setPresent_queues (s : State) (l : List Nat) : (s.setPresent l).queues = s.queues := rfl
@[simp] theorem State.setPresent_qblocks (s : State) (l : List Nat) : (s.setPresent l).qblocks = s.qblocks := rfl
@[simp] theorem State.setPresent_nodes (s : State) (l : List Nat) : (s.setPresent l).nodes = s.nodes := rfl
@[simp] theorem State.setPresent_xqs (s : State) (l : List Nat) : (s.setPresent l).xqs = s.xqs := rfl
@[simp] theorem State.setPresent_gates (s : State) (l : List Nat) : (s.setPresent l).gates = s.gates := rfl
@[simp] theorem State.setPresent_gateVals (s : State) (l : List Nat) : (s.setPresent l).gateVals = s.gateVals := rfl
@[simp] theorem State.setPresent_ctxs (s : State) (l : List Nat) : (s.setPresent l).ctxs = s.ctxs := rfl
@[simp] theorem State.setPresent_parts (s : State) (l : List Nat) : (s.setPresent l).parts = s.parts := rfl
@[simp] theorem State.setPresent_links (s : State) (l : List Nat) : (s.setPresent l).links = s.links := rfl
@[simp] theorem State.setPresent_cmds (s : State) (l : List Nat) : (s.setPresent l).cmds = s.cmds := rfl
@[simp] theorem State.setPresent_invals (s : State) (l : List Nat) : (s.setPresent l).invals = s.invals := rfl
@[simp] theorem State.setPresent_sigCount (s : State) (l : List Nat) : (s.setPresent l).sigCount = s.sigCount := rfl
@[simp] theorem State.setPresent_lastBay (s : State) (l : List Nat) : (s.setPresent l).lastBay = s.lastBay := rfl
@[simp] theorem State.setPresent_lastRound (s : State) (l : List Nat) : (s.setPresent l).lastRound = s.lastRound := rfl
@[simp] theorem State.setPresent_lastTick (s : State) (l : List Nat) : (s.setPresent l).lastTick = s.lastTick := rfl
@[simp] theorem State.setPresent_pkg (s : State) (l : List Nat) : (s.setPresent l).pkg = s.pkg := rfl
@[simp] theorem State.setPresent_time (s : State) (l : List Nat) : (s.setPresent l).time = s.time := rfl
@[simp] theorem State.setPresent_nextId (s : State) (l : List Nat) : (s.setPresent l).nextId = s.nextId := rfl
@[simp] theorem State.setPresent_agenda (s : State) (l : List Nat) : (s.setPresent l).agenda = s.agenda := rfl
@[simp] theorem State.setPresent_cur (s : State) (l : List Nat) : (s.setPresent l).cur = s.cur := rfl
@[simp] theorem State.setPresent_pace (s : State) (l : List Nat) : (s.setPresent l).pace = s.pace := rfl
@[simp] theorem State.setPresent_free (s : State) (l : List Nat) : (s.setPresent l).free = s.free := rfl
@[simp] theorem State.setPresent_out (s : State) (l : List Nat) : (s.setPresent l).out = s.out := rfl

end Sys2Proof.Machine
end

