-- ==== Sys2Proof/Laws/Issue.lean ====
section
/-!
SUPPORT. Issuing: what the issuing path is, what a body that completes leads to, what completing changes, and the two shapes of
instruction that write one destination or one predicate.
-/

namespace Sys2Proof.Machine

/-- Everything that "this path issues" says. -/
theorem issuing_spec {s : State} {env : Env} (h : s.issuing = some env) :
    s.cur = some env.slot ∧ (s.slotOf env.slot).busy = some (env.cid, env.p) ∧
    s.courses.find env.cid = some env.co ∧ env.co.paths.find env.p = some env.pa := by
  unfold State.issuing at h
  split at h
  · cases h
  split at h
  · cases h
  split at h
  · cases h
  split at h
  · cases h
  simp only [Option.some.injEq] at h
  subst h
  exact ⟨by assumption, by assumption, by assumption, by assumption⟩

theorem Ready.course {s : State} {env : Env} {e : Entry} {x : Args} (h : Ready s env e x) : s.courses.find env.cid = some env.co :=
  (issuing_spec h.1).2.2.1

theorem Ready.path {s : State} {env : Env} {e : Entry} {x : Args} (h : Ready s env e x) : env.co.paths.find env.p = some env.pa :=
  (issuing_spec h.1).2.2.2

/-- A ready instruction answers what its body answers. -/
theorem issue_ready {s : State} {env : Env} {e : Entry} {x : Args} (h : Ready s env e x) (body : Env → State → Res) :
    issue e x body s =
      match body env s.tick with
      | .done t a => .next (t.complete env e x a)
      | .trap t => .next (s.tick.trapHere env t)
      | .refuse t tr => .next (t.trapHere env tr)
      | .stall t => .next { t with cur := none }
      | .park l => .next ((s.tick.leaveSlot env.slot).setPath env.cid env.p { env.pa with wait := .lines l })
      | .later w => .next ((s.tick.leaveSlot env.slot).setPath env.cid env.p { env.pa with wait := w }) := by
  have hb : (e.paged && env.co.tfencing && decide (env.acting x ≠ 0)) = false := by
    have h3 := h.2.2
    by_cases hp : e.paged = true
    · by_cases ha : env.acting x = 0
      · simp [ha]
      · simp [h3 hp ha]
    · simp [Bool.eq_false_iff.mpr hp]
  unfold issue
  rw [h.1]
  simp only [h.2.1, hb]
  cases body env s.tick <;> rfl

/-- A held-back instruction that traps on its operands alone traps at once; any other waits in the access queue (R160). -/
theorem issue_behind {s : State} {env : Env} {e : Entry} {x : Args} (h : HeldBack s env e x) (body : Env → State → Res) :
    issue e x body s = .next (s.tick.behind env e x (body env s.tick)) := by
  have hb : (e.paged && env.co.tfencing && decide (env.acting x ≠ 0)) = true := by
    simp only [h.2.2.1, h.2.2.2.2, decide_eq_true h.2.2.2.1, Bool.and_self]
  unfold issue
  rw [h.1]
  simp only [h.2.1, hb]
  rfl

theorem issue_done {s t : State} {env : Env} {e : Entry} {x : Args} {a : Adv} {body : Env → State → Res} (h : Ready s env e x)
    (hb : body env s.tick = .done t a) : issue e x body s = .next (t.complete env e x a) := by
  rw [issue_ready h, hb]

theorem issue_trap {s : State} {env : Env} {e : Entry} {x : Args} {tr : Trap} {body : Env → State → Res} (h : Ready s env e x)
    (hb : body env s.tick = .trap tr) : issue e x body s = .next (s.tick.trapHere env tr) := by
  rw [issue_ready h, hb]

/-! ### Completing -/

theorem endRun_frame (s : State) (k cid p : Nat) :
    s.endRun k cid p = { s with courses := (s.endRun k cid p).courses, slots := (s.endRun k cid p).slots,
                                cur := (s.endRun k cid p).cur } := by
  unfold State.endRun
  simp only
  split <;> rfl

theorem endRun_course {s : State} {k cid p : Nat} {c : Course} (h : s.courses.find cid = some c) :
    (s.endRun k cid p).courses = s.courses.put cid (c.runDone p) := by
  unfold State.endRun
  simp [h]

theorem runDone_frame (c : Course) (p : Nat) :
    c.runDone p = { c with paths := (c.runDone p).paths, lastPath := (c.runDone p).lastPath } := by
  unfold Course.runDone
  simp only
  split
  · split <;> rfl
  · rfl

@[simp] theorem State.stamp_courses (s : State) (env : Env) : (s.stamp env).courses = s.courses := rfl

/-- Completing changes courses and issue slots alone. -/
theorem complete_frame (s : State) (env : Env) (e : Entry) (x : Args) (a : Adv) :
    s.complete env e x a = { s with courses := (s.complete env e x a).courses, slots := (s.complete env e x a).slots,
                                    cur := (s.complete env e x a).cur } := by
  unfold State.complete
  simp only
  split
  · rfl
  · split
    · rw [endRun_frame]; rfl
    · rfl

/-- Completing changes the issuing course alone, and in it %sig, the flags, the paths and the last path that issued. -/
theorem complete_course {s : State} {env : Env} {c : Course} (e : Entry) (x : Args) (a : Adv)
    (h : s.courses.find env.cid = some c) :
    (∀ k, k ≠ env.cid → (s.complete env e x a).courses.find k = s.courses.find k) ∧
    ∃ c', (s.complete env e x a).courses.find env.cid = some c' ∧
      c' = { c with sig := sigAfter env.co c env.pa.shim.isSome e x.m a,
                    flags := (c.issued env.co env.pa.shim.isSome e x a (env.flag x)).flags,
                    paths := c'.paths, lastPath := c'.lastPath } := by
  unfold State.complete
  simp only [h]
  generalize hd : (if a.gone = true then c.issued env.co env.pa.shim.isSome e x a (env.flag x)
      else match (c.issued env.co env.pa.shim.isSome e x a (env.flag x)).paths.find env.p with
        | some q => { c.issued env.co env.pa.shim.isSome e x a (env.flag x) with
            paths := (c.issued env.co env.pa.shim.isSome e x a (env.flag x)).paths.put env.p
              (q.advanced env.pa x.h (x.h.bnd || e.isB) a) }
        | none => c.issued env.co env.pa.shim.isSome e x a (env.flag x)) = c1
  have h1 : c1 = { c with sig := sigAfter env.co c env.pa.shim.isSome e x.m a,
                          flags := (c.issued env.co env.pa.shim.isSome e x a (env.flag x)).flags,
                          paths := c1.paths, lastPath := c1.lastPath } := by
    rw [← hd]
    split
    · rfl
    · split <;> rfl
  split
  · have h2 : ((s.setCourse env.cid c1).stamp env).courses.find env.cid = some c1 := by simp
    rw [endRun_course h2, State.stamp_courses]
    refine ⟨fun k hk => ?_, c1.runDone env.p, by simp, ?_⟩
    · rw [Tab.find_put_other _ _ _ _ (Ne.symm hk), State.setCourse_courses, Tab.find_put_other _ _ _ _ (Ne.symm hk)]
    · have h3 := runDone_frame c1 env.p
      generalize c1.runDone env.p = d at h3 ⊢
      refine h3.trans ?_
      rw [h1]
  · refine ⟨fun k hk => ?_, c1, by simp, h1⟩
    rw [State.stamp_courses, State.setCourse_courses, Tab.find_put_other _ _ _ _ (Ne.symm hk)]

/-- A run that ends leaves the path that ended it as it is. -/
theorem runDone_path (c : Course) (p : Nat) : (c.runDone p).paths.find p = c.paths.find p := by
  unfold Course.runDone
  simp only
  split
  · split
    · simp only
      rw [Tab.find_put_other]
      omega
    · rfl
  · rfl

/-- Completing advances the issuing path: its code address, its run, what it waits for. -/
theorem complete_path {s : State} {env : Env} {c : Course} {q : Path} (e : Entry) (x : Args) (a : Adv)
    (h : s.courses.find env.cid = some c) (hq : c.paths.find env.p = some q) (hg : a.gone = false) :
    ∃ c', (s.complete env e x a).courses.find env.cid = some c' ∧
      c'.paths.find env.p = some (q.advanced env.pa x.h (x.h.bnd || e.isB) a) ∧
      c' = { c with sig := sigAfter env.co c env.pa.shim.isSome e x.m a,
                    flags := (c.issued env.co env.pa.shim.isSome e x a (env.flag x)).flags,
                    paths := c'.paths, lastPath := c'.lastPath } := by
  obtain ⟨-, c', h1, h2⟩ := complete_course e x a h
  refine ⟨c', h1, ?_, h2⟩
  have hq2 : (c.issued env.co env.pa.shim.isSome e x a (env.flag x)).paths.find env.p = some q := hq
  unfold State.complete at h1
  simp only [h, hg, Bool.false_eq_true, if_false, hq2, Bool.or_false] at h1
  split at h1
  · rw [endRun_course (by rw [State.stamp_courses, State.setCourse_courses, Tab.find_put_same])] at h1
    rw [Tab.find_put_same] at h1
    cases h1
    rw [runDone_path]
    exact Tab.find_put_same _ _ _
  · rw [State.stamp_courses, State.setCourse_courses, Tab.find_put_same] at h1
    cases h1
    exact Tab.find_put_same _ _ _

theorem issued_flags_silent {c b : Course} {i : Bool} {e : Entry} {x : Args} {a : Adv} {f : Option (BitVec 4)} (h : e.isL = false) :
    (c.issued b i e x a f).flags = c.flags := by
  unfold Course.issued
  cases f <;> simp [h]

/-! ### Writing one destination -/

theorem vec_congr (s t : State) (c c' : Course) (lwb r : Nat) (w : Bool) (l : Nat) (h1 : c'.core = c.core)
    (h2 : c'.segbase = c.segbase) (h3 : c'.rows = c.rows) (h4 : t.rows = s.rows) : t.vec c' lwb r w l = s.vec c lwb r w l := by
  have hk : ∀ L, c'.rowKey L = c.rowKey L := by intro L; unfold Course.rowKey; rw [h1, h2, h3]
  unfold State.vec State.row
  simp only [hk, h4]

theorem putVec_frame (s : State) (c : Course) (lwb r : Nat) (w : Bool) (v : List (Nat × Nat)) :
    s.putVec c lwb r w v = { s with rows := (s.putVec c lwb r w v).rows, rowPoison := (s.putVec c lwb r w v).rowPoison } := by
  unfold State.putVec
  simp only
  split <;> rfl

theorem extend_lt (t : Ty) (cw n : Nat) (h : t.bits ≤ cw) : t.extend cw n < 2 ^ cw := by
  unfold Ty.extend
  split
  · unfold signExt wrap
    have : (toInt t.bits n % ((2 ^ cw : Nat) : Int)) < ((2 ^ cw : Nat) : Int) := Int.emod_lt_of_pos _ (by positivity)
    have h0 : 0 ≤ (toInt t.bits n % ((2 ^ cw : Nat) : Int)) := Int.emod_nonneg _ (by positivity)
    omega
  · exact lt_of_lt_of_le (Nat.mod_lt _ (by positivity)) (Nat.pow_le_pow_right (by omega) h)

/-- Lane l of a vector destination after lanes of it were written. -/
theorem vec_putVec (s : State) (c : Course) (lwb r : Nat) (w : Bool) (L : List Nat) (f : Nat → Nat) (l : Nat) (hl : l < 64)
    (hn : L.Nodup) (h1 : 2 ≤ c.rows) (h2 : c.rows ≤ 4096) (hf : ∀ l, f l < 2 ^ (if w then 64 else 32)) :
    (s.putVec c lwb r w (L.map (fun l => (l, f l)))).vec c lwb r w l = if l ∈ L then f l else s.vec c lwb r w l := by
  have hne := rowKey_succ_ne c (lwb + r) h1 h2
  unfold State.putVec State.vec State.row
  cases w
  · simp only [Bool.false_eq_true, if_false, State.putRow_rows, Tab.getD_set_same, Nat.add_zero]
    rw [rowLane_rowPut_map L f _ l hl hn]
    split
    · exact Nat.mod_eq_of_lt (by simpa using hf l)
    · rfl
  · have hm : ((L.map (fun l => (l, f l))).map (fun v => (v.1, v.2 >>> 32))) = L.map (fun l => (l, f l >>> 32)) := by
      simp [Function.comp_def]
    simp only [if_true, State.putRow_rows, hm, Tab.getD_set_same, Tab.getD_set]
    rw [if_neg hne, if_neg hne.symm, rowLane_rowPut_map L f _ l hl hn, rowLane_rowPut_map L (fun l => f l >>> 32) _ l hl hn]
    split
    · have := hf l
      simp only [if_true] at this
      rw [Nat.shiftRight_eq_div_pow]
      omega
    · rfl

/-- An instruction of which only rows, scalars of its course and what issuing moves may change. -/
theorem registerFrame_of {s u : State} {env : Env} {x : Args} {ty : Ty} {e : Entry} {a : Adv} {c : Course}
    (hL : e.isL = false) (hu : u = { s with rows := u.rows, rowPoison := u.rowPoison, courses := u.courses })
    (hr : ∀ key, key ∉ destRows env ty x.d → u.rows.getD key 0 = s.rows.getD key 0)
    (ho : ∀ k, k ≠ env.cid → u.courses.find k = s.courses.find k) (hc : u.courses.find env.cid = some c)
    (hs : c = { env.co with scal := c.scal, sPoison := c.sPoison })
    (hn : ∀ n : Nat, (∀ m : BitVec 6, x.d = .reg m → n ≠ m.toNat) → c.scalar n = env.co.scalar n) :
    RegisterFrame s (u.complete env e x a) env ty x.d := by
  obtain ⟨h3, c', h4, h5⟩ := complete_course e x a hc
  have h6 := complete_frame u env e x a
  generalize u.complete env e x a = t at h3 h4 h6
  rw [issued_flags_silent hL] at h5
  have hsc : c'.scal = c.scal := by rw [h5]
  have hsp : c'.sPoison = c.sPoison := by rw [h5]
  refine ⟨?_, fun b => ?_, fun key hk => ?_, fun k hk => (h3 k hk).trans (ho k hk), c', h4, ?_, fun n h => ?_⟩
  · rw [h6, hu]
  · rw [h6, hu]
  · rw [h6]; exact hr key hk
  · rw [hsc, hsp, h5, hs]
  · rw [← hn n h]; unfold Course.scalar; rw [hsc]

theorem Course.setScalar_scalar (c : Course) (n m : Nat) (v : Word) :
    (c.setScalar n v).scalar m = if n = m then v else c.scalar m := by
  unfold Course.setScalar Course.scalar
  exact Tab.getD_set 0 c.scal n m v

/-- Putting results into a destination: what it holds afterwards, and that nothing else of the state has moved. -/
theorem put_spec_any {s : State} {env : Env} {x : Args} {ty : Ty} {e : Entry} (v : Nat → Nat) (a : Adv)
    (hc : s.courses.find env.cid = some env.co) (hL : e.isL = false)
    (h12 : x.d.isVec = true → 2 ≤ env.co.rows ∧ env.co.rows ≤ 4096)
    (hb : ty.bits ≤ if ty.wide then 64 else 32) :
    Wrote s ((s.put env ty x.d ((env.runs x).map (fun l => (l, v l)))).complete env e x a) env x ty v ∧
      RegisterFrame s ((s.put env ty x.d ((env.runs x).map (fun l => (l, v l)))).complete env e x a) env ty x.d := by
  rcases hd : x.d with _ | ⟨r, p⟩ | n | w | w
  · have hp : s.put env ty x.d ((env.runs x).map (fun l => (l, v l))) = s := by
      unfold State.put State.putDst; rw [hd, hc]
    rw [← hd, hp]
    refine ⟨by unfold Wrote; rw [hd]; trivial, registerFrame_of hL rfl (fun _ _ => rfl) (fun _ _ => rfl) hc rfl (fun _ _ => rfl)⟩
  · obtain ⟨h1, h2⟩ := h12 (by rw [hd]; rfl)
    have hr : env.runs x = lanesOf (env.acting x) := by unfold Env.runs; rw [hd]
    have hp : s.put env ty x.d ((env.runs x).map (fun l => (l, v l))) = s.putVec env.co env.pa.lwb r.toNat ty.wide
        ((lanesOf (env.acting x)).map (fun l => (l, ty.extend (if ty.wide then 64 else 32) (v l)))) := by
      unfold State.put State.putDst
      rw [hd, hc, hr]
      simp only [List.map_map, Function.comp_def]
    rw [← hd, hp]
    have hf := putVec_frame s env.co env.pa.lwb r.toNat ty.wide
      ((lanesOf (env.acting x)).map (fun l => (l, ty.extend (if ty.wide then 64 else 32) (v l))))
    have hv := fun l hl => vec_putVec s env.co env.pa.lwb r.toNat ty.wide (lanesOf (env.acting x))
      (fun l => ty.extend (if ty.wide then 64 else 32) (v l)) l hl (nodup_lanesOf _) h1 h2 (fun l => extend_lt _ _ _ hb)
    have hrow : ∀ key, key ∉ destRows env ty x.d → (s.putVec env.co env.pa.lwb r.toNat ty.wide
        ((lanesOf (env.acting x)).map (fun l => (l, ty.extend (if ty.wide then 64 else 32) (v l))))).rows.getD key 0 = s.rows.getD key 0 := by
      intro key hk
      unfold destRows at hk
      rw [hd] at hk
      unfold State.putVec
      cases hw : ty.wide
      · rw [hw] at hk
        simp only [Bool.false_eq_true, if_false, List.mem_cons, List.not_mem_nil, or_false] at hk
        simp only [Bool.false_eq_true, if_false, State.putRow_rows]
        rw [Tab.getD_set, if_neg (Ne.symm hk)]
      · rw [hw] at hk
        simp only [if_true, List.mem_cons, List.not_mem_nil, or_false, not_or] at hk
        simp only [if_true, State.putRow_rows]
        rw [Tab.getD_set, if_neg (Ne.symm hk.2), Tab.getD_set, if_neg (Ne.symm hk.1)]
    generalize s.putVec env.co env.pa.lwb r.toNat ty.wide
      ((lanesOf (env.acting x)).map (fun l => (l, ty.extend (if ty.wide then 64 else 32) (v l)))) = u at hf hv hrow ⊢
    have hcu : u.courses = s.courses := by rw [hf]
    refine ⟨?_, registerFrame_of hL (by rw [hf]) hrow (fun k _ => by rw [hcu]) (by rw [hcu]; exact hc) rfl (fun _ _ => rfl)⟩
    unfold Wrote
    rw [hd]
    intro l hl
    obtain ⟨-, c', h4, h5⟩ := complete_course e x a (show u.courses.find env.cid = some env.co by rw [hcu]; exact hc)
    have h6 := complete_frame u env e x a
    generalize u.complete env e x a = t at h4 h6
    have h7 : t.held env ty (.vec r p) l = u.vec env.co env.pa.lwb r.toNat ty.wide l := by
      unfold State.held
      rw [h4]
      exact vec_congr u t env.co c' _ _ _ _ (by rw [h5]) (by rw [h5]) (by rw [h5]) (by rw [h6])
    have h8 : s.held env ty (.vec r p) l = s.vec env.co env.pa.lwb r.toNat ty.wide l := by
      unfold State.held
      rw [hc]
    rw [h7, h8, hv l hl]
    by_cases h9 : (env.acting x).getLsbD l
    · rw [if_pos (mem_lanesOf.mpr ⟨hl, h9⟩), if_pos h9]
    · rw [if_neg (fun h => h9 (mem_lanesOf.mp h).2), if_neg h9]
  · have hr : env.runs x = (lanesOf (env.acting x)).take 1 := by unfold Env.runs; rw [hd]
    have hval : ∀ k : Nat, (BitVec.ofNat 64 (ty.extend 64 k)).toNat = ty.extend 64 k := by
      intro k
      rw [BitVec.toNat_ofNat]
      exact Nat.mod_eq_of_lt (extend_lt _ _ _ (le_trans hb (by split <;> omega)))
    have hp : s.put env ty x.d ((env.runs x).map (fun l => (l, v l))) = if env.acting x = 0 then s else
        s.setCourse env.cid (env.co.setScalar n.toNat (BitVec.ofNat 64 (ty.extend 64 (v (lowLane (env.acting x)))))) := by
      unfold State.put State.putDst
      rw [hd, hc, hr]
      by_cases hA : env.acting x = 0
      · rw [if_pos hA, hA, lanesOf_zero]; rfl
      · rw [if_neg hA, lanesOf_take hA]; rfl
    rw [← hd, hp]
    have key : ∀ u : State, ∀ c, u = { s with rows := u.rows, rowPoison := u.rowPoison, courses := u.courses } →
        u.rows = s.rows → (∀ k, k ≠ env.cid → u.courses.find k = s.courses.find k) → u.courses.find env.cid = some c →
        c = { env.co with scal := c.scal, sPoison := c.sPoison } →
        (∀ m : Nat, c.scalar m = if n.toNat = m ∧ env.acting x ≠ 0 then
          BitVec.ofNat 64 (ty.extend 64 (v (lowLane (env.acting x)))) else env.co.scalar m) →
        Wrote s (u.complete env e x a) env x ty v ∧ RegisterFrame s (u.complete env e x a) env ty x.d := by
      intro u c hf hrow ho hcu hs hm
      refine ⟨?_, registerFrame_of hL hf (fun key _ => by rw [hrow]) ho hcu hs (fun m h => ?_)⟩
      · unfold Wrote
        rw [hd]
        obtain ⟨-, c', h4, h5⟩ := complete_course e x a hcu
        have h7 : (u.complete env e x a).held env ty (.reg n) 0 = (c.scalar n.toNat).toNat := by
          unfold State.held
          rw [h4]
          have h9 : c'.scal = c.scal := by rw [h5]
          simp only [Course.scalar]
          rw [h9]
        have h8 : s.held env ty (.reg n) 0 = (env.co.scalar n.toNat).toNat := by
          unfold State.held
          rw [hc]
        simp only
        rw [h7, h8, hm]
        by_cases hA : env.acting x = 0
        · rw [if_neg (by simp [hA]), if_pos hA]
        · rw [if_pos ⟨rfl, hA⟩, if_neg hA, hval]
      · rw [hm, if_neg]
        rintro ⟨h9, -⟩
        exact h n hd h9.symm
    by_cases hA : env.acting x = 0
    · rw [if_pos hA]
      exact key s env.co rfl rfl (fun _ _ => rfl) hc rfl (fun m => by simp [hA])
    · rw [if_neg hA]
      refine key _ _ rfl rfl (fun k hk => ?_) (by rw [State.setCourse_courses, Tab.find_put_same]) rfl (fun m => ?_)
      · rw [State.setCourse_courses, Tab.find_put_other _ _ _ _ (Ne.symm hk)]
      · rw [Course.setScalar_scalar]
        by_cases h9 : n.toNat = m
        · rw [if_pos h9, if_pos ⟨h9, hA⟩]
        · rw [if_neg h9, if_neg (fun h => h9 h.1)]
  · have hp : s.put env ty x.d ((env.runs x).map (fun l => (l, v l))) = s := by
      unfold State.put State.putDst; rw [hd, hc]
    rw [← hd, hp]
    refine ⟨by unfold Wrote; rw [hd]; trivial, registerFrame_of hL rfl (fun _ _ => rfl) (fun _ _ => rfl) hc rfl (fun _ _ => rfl)⟩
  · have hp : s.put env ty x.d ((env.runs x).map (fun l => (l, v l))) = s := by
      unfold State.put State.putDst; rw [hd, hc]
    rw [← hd, hp]
    refine ⟨by unfold Wrote; rw [hd]; trivial, registerFrame_of hL rfl (fun _ _ => rfl) (fun _ _ => rfl) hc rfl (fun _ _ => rfl)⟩

theorem put_spec {s : State} {env : Env} {x : Args} {ty : Ty} {e : Entry} (v : Nat → Nat) (a : Adv)
    (hc : s.courses.find env.cid = some env.co) (hL : e.isL = false) (h1 : 2 ≤ env.co.rows) (h2 : env.co.rows ≤ 4096)
    (hb : ty.bits ≤ if ty.wide then 64 else 32) :
    Wrote s ((s.put env ty x.d ((env.runs x).map (fun l => (l, v l)))).complete env e x a) env x ty v ∧
      RegisterFrame s ((s.put env ty x.d ((env.runs x).map (fun l => (l, v l)))).complete env e x a) env ty x.d :=
  put_spec_any v a hc hL (fun _ => ⟨h1, h2⟩) hb

/-! ### Writing one predicate -/

theorem Course.setPred_pred (c : Course) (n m : Nat) (lanes v : LaneMask) :
    (c.setPred n lanes v).pred m = if n = m then (c.pred n &&& ~~~lanes) ||| (v &&& lanes) else c.pred m := by
  unfold Course.setPred Course.pred
  exact Tab.getD_set 0 c.preds n m _

theorem merge_bit (o A v : LaneMask) (l : Nat) (hl : l < 64) :
    ((o &&& ~~~A) ||| (v &&& A)).getLsbD l = if A.getLsbD l then v.getLsbD l else o.getLsbD l := by
  rw [BitVec.getLsbD_or, BitVec.getLsbD_and, BitVec.getLsbD_and, BitVec.getLsbD_not]
  cases A.getLsbD l <;> simp [hl]

/-- Writing the acting lanes of one predicate: what it holds afterwards, and that nothing else of the state has moved. -/
theorem pred_spec {s : State} {env : Env} {x : Args} {e : Entry} (p : Nat) (v : LaneMask) (a : Adv)
    (hc : s.courses.find env.cid = some env.co) (hL : e.isL = false) :
    WrotePred ((s.setPred env.cid p (env.acting x) v).complete env e x a) env x p v.getLsbD ∧
      PredicateFrame s ((s.setPred env.cid p (env.acting x) v).complete env e x a) env p := by
  have hp : s.setPred env.cid p (env.acting x) v = s.setCourse env.cid (env.co.setPred p (env.acting x) v) := by
    unfold State.setPred
    rw [hc]
  rw [hp]
  have hcu : (s.setCourse env.cid (env.co.setPred p (env.acting x) v)).courses.find env.cid = some (env.co.setPred p (env.acting x) v) := by
    rw [State.setCourse_courses, Tab.find_put_same]
  obtain ⟨h3, c', h4, h5⟩ := complete_course e x a hcu
  have h6 := complete_frame (s.setCourse env.cid (env.co.setPred p (env.acting x) v)) env e x a
  generalize (s.setCourse env.cid (env.co.setPred p (env.acting x) v)).complete env e x a = t at h3 h4 h6
  rw [issued_flags_silent hL] at h5
  have hpr : c'.preds = (env.co.setPred p (env.acting x) v).preds := by rw [h5]
  have hpp : c'.pPoison = (env.co.setPred p (env.acting x) v).pPoison := by rw [h5]
  have hm : ∀ m, c'.pred m = (env.co.setPred p (env.acting x) v).pred m := fun m => by unfold Course.pred; rw [hpr]
  refine ⟨⟨c', h4, fun l hl => ?_⟩, ?_, fun b => ?_, fun k hk => ?_, c', h4, ?_, fun n hn => ?_⟩
  · rw [hm, Course.setPred_pred, if_pos rfl]
    exact merge_bit _ _ _ _ hl
  · rw [h6]; rfl
  · rw [h6]; rfl
  · rw [h3 k hk, State.setCourse_courses, Tab.find_put_other _ _ _ _ (Ne.symm hk)]
  · rw [hpr, hpp, h5]; rfl
  · rw [hm, Course.setPred_pred, if_neg (Ne.symm hn)]

end Sys2Proof.Machine
end

