-- ==== Sys2Proof/Laws/Memory.lean ====
section
/-!
SUPPORT. Memory: its canonical form as an order on the cells, kept by every operation on memory, and what a byte reads as after a
write.
-/

namespace Sys2Proof.Machine

/-! ### The canonical form -/

/-- Strictly rising addresses and no cell at the value of an unlisted byte. -/
theorem Memory.wf_iff (m : List Host.Cell) :
    Memory.wf m = true ↔ m.Pairwise (fun a b => a.1 < b.1) ∧ ∀ c ∈ m, c.2 ≠ memDefault := by
  induction m with
  | nil => simp [Memory.wf]
  | cons a t ih =>
    cases t with
    | nil => simp [Memory.wf]
    | cons b t =>
      rw [Memory.wf, Bool.and_eq_true, Bool.and_eq_true, ih, List.pairwise_cons (a := a)]
      simp only [decide_eq_true_eq, bne_iff_ne, ne_eq, List.mem_cons, forall_eq_or_imp]
      constructor
      · rintro ⟨⟨h1, h2⟩, h3, h4, h5⟩
        refine ⟨⟨⟨h1, fun c hc => ?_⟩, h3⟩, h2, h4, h5⟩
        exact Nat.lt_trans h1 ((List.pairwise_cons.mp h3).1 c hc)
      · rintro ⟨⟨⟨h1, _⟩, h3⟩, h2, h4, h5⟩
        exact ⟨⟨h1, h2⟩, h3, h4, h5⟩

@[simp] theorem Memory.wf_nil : Memory.wf [] = true := rfl

/-- Leaving cells out keeps the form. -/
theorem Memory.wf_filter (m : List Host.Cell) (f : Host.Cell → Bool) (h : Memory.wf m = true) : Memory.wf (m.filter f) = true := by
  rw [Memory.wf_iff] at *
  exact ⟨h.1.filter f, fun c hc => h.2 c (List.mem_filter.mp hc).1⟩

theorem newCells_mem (l : List Byte) (a : Nat) (c : Host.Cell) (h : c ∈ newCells a l) :
    a ≤ c.1 ∧ c.1 < a + l.length ∧ c.2 ≠ memDefault := by
  induction l generalizing a with
  | nil => simp [newCells] at h
  | cons b l ih =>
    simp only [newCells] at h
    split at h
    · have := ih (a + 1) h
      simp only [List.length_cons]
      exact ⟨by omega, by omega, this.2.2⟩
    · rcases List.mem_cons.mp h with rfl | h
      · simp only [List.length_cons]
        exact ⟨by omega, by omega, by assumption⟩
      · have := ih (a + 1) h
        simp only [List.length_cons]
        exact ⟨by omega, by omega, this.2.2⟩

theorem newCells_sorted (l : List Byte) (a : Nat) : (newCells a l).Pairwise (fun c d => c.1 < d.1) := by
  induction l generalizing a with
  | nil => simp [newCells]
  | cons b l ih =>
    simp only [newCells]
    split
    · exact ih (a + 1)
    · refine List.pairwise_cons.mpr ⟨fun c hc => ?_, ih (a + 1)⟩
      have := newCells_mem l (a + 1) c hc
      show a < c.1
      omega

/-- A write keeps the canonical form. -/
theorem Memory.wf_write (m : List Host.Cell) (a : Nat) (l : List Byte) (h : Memory.wf m = true) :
    Memory.wf (memWrite m a l) = true := by
  rw [Memory.wf_iff] at *
  have lo : ∀ c ∈ m.filter (fun c => decide (c.1 < a)), c ∈ m ∧ c.1 < a := fun c hc => by
    simpa using List.mem_filter.mp hc
  have hi : ∀ c ∈ m.filter (fun c => decide (a + l.length ≤ c.1)), c ∈ m ∧ a + l.length ≤ c.1 := fun c hc => by
    simpa using List.mem_filter.mp hc
  refine ⟨?_, fun c hc => ?_⟩
  · unfold memWrite
    rw [List.append_assoc]
    refine List.pairwise_append.mpr ⟨h.1.filter _, List.pairwise_append.mpr ⟨newCells_sorted l a, h.1.filter _, ?_⟩, ?_⟩
    · intro c hc d hd
      have := newCells_mem l a c hc
      have := hi d hd
      omega
    · intro c hc d hd
      have := lo c hc
      rcases List.mem_append.mp hd with hd | hd
      · have := newCells_mem l a d hd
        omega
      · have := hi d hd
        omega
  · unfold memWrite at hc
    rcases List.mem_append.mp hc with hc | hc
    · rcases List.mem_append.mp hc with hc | hc
      · exact h.2 c (lo c hc).1
      · exact (newCells_mem l a c hc).2.2
    · exact h.2 c (hi c hc).1

/-- A store through the frame map keeps the canonical form. -/
theorem State.wf_store (s : State) (pa : Nat) (l : List Byte) (h : Memory.wf s.mem = true) : Memory.wf (s.store pa l) = true := by
  unfold State.store
  split
  · exact Memory.wf_write _ _ _ h
  · have : ∀ (z : List (Byte × Nat)) (m : List Host.Cell), Memory.wf m = true →
        Memory.wf (z.foldl (fun m b => memWrite m (s.cell (pa + b.2)) [b.1]) m) = true := by
      intro z
      induction z with
      | nil => exact fun m hm => hm
      | cons b z ih => exact fun m hm => ih _ (Memory.wf_write _ _ _ hm)
    exact this _ _ h

/-! ### Reading after a write -/

theorem memByte_of_lt (m : List Host.Cell) (a : Nat) (h : ∀ c ∈ m, c.1 ≠ a) : memByte m a = memDefault := by
  induction m with
  | nil => rfl
  | cons c m ih =>
    obtain ⟨k, v⟩ := c
    have hk : k ≠ a := h (k, v) (List.mem_cons_self ..)
    simp only [memByte, if_neg hk]
    exact ih (fun d hd => h d (List.mem_cons_of_mem _ hd))

theorem memByte_append (m n : List Host.Cell) (a : Nat) (h : ∀ c ∈ m, c.1 ≠ a) : memByte (m ++ n) a = memByte n a := by
  induction m with
  | nil => rfl
  | cons c m ih =>
    obtain ⟨k, v⟩ := c
    have hk : k ≠ a := h (k, v) (List.mem_cons_self ..)
    simp only [List.cons_append, memByte, if_neg hk]
    exact ih (fun d hd => h d (List.mem_cons_of_mem _ hd))

theorem memByte_append_of_none (m n : List Host.Cell) (a : Nat) (h : ∀ c ∈ n, c.1 ≠ a) : memByte (m ++ n) a = memByte m a := by
  induction m with
  | nil => simpa [memByte] using memByte_of_lt n a h
  | cons c m ih =>
    obtain ⟨k, v⟩ := c
    simp only [List.cons_append, memByte]
    split
    · rfl
    · exact ih

theorem memByte_filter (m : List Host.Cell) (f : Host.Cell → Bool) (a : Nat) (h : ∀ v, f (a, v) = true) :
    memByte (m.filter f) a = memByte m a := by
  induction m with
  | nil => rfl
  | cons c m ih =>
    obtain ⟨k, v⟩ := c
    by_cases hk : k = a
    · subst hk
      simp [h v, memByte]
    · by_cases hf : f (k, v) = true
      · simp [hf, memByte, hk, ih]
      · simp [hf, memByte, hk, ih]

theorem memByte_newCells (l : List Byte) (a i : Nat) (h : i < l.length) : memByte (newCells a l) (a + i) = l[i] := by
  induction l generalizing a i with
  | nil => simp at h
  | cons b l ih =>
    simp only [newCells]
    cases i with
    | zero =>
      split
      · rename_i hb
        simp only [Nat.add_zero, List.getElem_cons_zero]
        rw [hb]
        refine memByte_of_lt _ _ (fun c hc => ?_)
        have := newCells_mem l (a + 1) c hc
        omega
      · simp [memByte]
    | succ i =>
      have hi : i < l.length := by simpa using h
      have e : a + (i + 1) = (a + 1) + i := by omega
      split
      · rw [e, ih (a + 1) i hi]
        simp
      · simp only [memByte]
        rw [if_neg (by omega), e, ih (a + 1) i hi]
        simp

/-- A byte that a write covers reads as written. -/
theorem memByte_write (m : List Host.Cell) (a : Nat) (l : List Byte) (i : Nat) (h : i < l.length) :
    memByte (memWrite m a l) (a + i) = l[i] := by
  unfold memWrite
  rw [memByte_append_of_none, memByte_append, memByte_newCells l a i h]
  · intro c hc
    have : c.1 < a := by simpa using (List.mem_filter.mp hc).2
    omega
  · intro c hc
    have : a + l.length ≤ c.1 := by simpa using (List.mem_filter.mp hc).2
    omega

/-- Every other byte reads as before. -/
theorem memByte_write_other (m : List Host.Cell) (a b : Nat) (l : List Byte) (h : b < a ∨ a + l.length ≤ b) :
    memByte (memWrite m a l) b = memByte m b := by
  unfold memWrite
  rcases h with h | h
  · rw [List.append_assoc, memByte_append_of_none, memByte_filter m (fun c => decide (c.1 < a)) b (by simpa using h)]
    intro c hc
    rcases List.mem_append.mp hc with hc | hc
    · have := newCells_mem l a c hc
      omega
    · have : a + l.length ≤ c.1 := by simpa using (List.mem_filter.mp hc).2
      omega
  · rw [memByte_append, memByte_filter m (fun c => decide (a + l.length ≤ c.1)) b (by simpa using h)]
    intro c hc
    rcases List.mem_append.mp hc with hc | hc
    · have : c.1 < a := by simpa using (List.mem_filter.mp hc).2
      omega
    · have := newCells_mem l a c hc
      omega

/-! ### Stores -/

/-- A store leaves the canonical form, and reset memory has it. -/
theorem State.poke_wf (s : State) (pa : Nat) (l : List Byte) (h : Memory.wf s.mem = true) : Memory.wf (s.poke pa l).mem = true :=
  s.wf_store pa l h

theorem State.reset_wf : Memory.wf State.reset.mem = true := rfl

end Sys2Proof.Machine
end

