-- ==== Sys2Proof/Laws/Tools.lean ====
section
/-!
SUPPORT. What the families' lemmas share: numbers and lane values, the effect of clearing a scalar or a lane, tables and folds, spans of memory, an accepted command.
-/

namespace Sys2Proof.Machine

theorem pow_pos' (n : Nat) : 0 < 2 ^ n := Nat.two_pow_pos n

theorem wrap_eq (n : Nat) (z : Int) : wrap n z = (BitVec.ofInt n z).toNat := by
  unfold wrap; rw [BitVec.toNat_ofInt]

theorem toInt_eq (n a : Nat) (hn : 0 < n) : toInt n a = (BitVec.ofNat n a).toInt := by
  unfold toInt
  simp only [BitVec.toInt_eq_toNat_cond, BitVec.toNat_ofNat]
  have : 2 ^ n = 2 * 2 ^ (n - 1) := by rw [← Nat.pow_succ']; congr 1; omega
  split <;> split <;> first | rfl | omega

theorem bits_pos (t : Ty) : 0 < t.bits := by cases t <;> decide

theorem val_eq (t : Ty) (a : Nat) : t.val a = intOf t (BitVec.ofNat t.bits a) := by
  unfold Ty.val intOf
  split
  · exact toInt_eq _ _ (bits_pos t)
  · simp

theorem wrap_lt (n : Nat) (z : Int) : wrap n z < 2 ^ n := by rw [wrap_eq]; exact BitVec.isLt _

theorem lane_lt (s : State) (env : Env) (x : Args) (t : Ty) (o : Opnd) (l : Nat) (h : t.fmt? = none) :
    s.lane env x t o l < 2 ^ t.bits := by
  unfold State.lane
  split
  · exact pow_pos' _
  · split
    · exact Nat.mod_lt _ (pow_pos' _)
    · exact pow_pos' _
  · exact Nat.mod_lt _ (pow_pos' _)
  · unfold immVal; rw [h]; exact wrap_lt _ _
  · unfold joinedVal
    split
    · simp [Ty.fmt?] at h
    · exact wrap_lt _ _
    · exact Nat.mod_lt _ (pow_pos' _)

theorem container (t : Ty) : t.bits ≤ if t.wide then 64 else 32 := by cases t <;> decide

theorem ready_tick {s : State} {env : Env} {e : Entry} {x : Args} (h : Ready s env e x) : s.tick.courses.find env.cid = some env.co :=
  h.course

theorem tick_frame {s t : State} {env : Env} {ty : Ty} {d : Opnd} (h : RegisterFrame s.tick t env ty d) : RegisterFrame s t env ty d := h

theorem tick_wrote {s t : State} {env : Env} {ty : Ty} {x : Args} {v} (h : Wrote s.tick t env x ty v) : Wrote s t env x ty v := h

theorem wrote_congr {s t : State} {env : Env} {ty : Ty} {x : Args} {v w : Nat → Nat}
    (h : ∀ l, ty.extend (if ty.wide then 64 else 32) (v l) = ty.extend (if ty.wide then 64 else 32) (w l))
    (h2 : ∀ l, ty.extend 64 (v l) = ty.extend 64 (w l))
    (hw : Wrote s t env x ty v) : Wrote s t env x ty w := by
  unfold Wrote at *
  split at hw
  · intro l hl; rw [hw l hl, h]
  · rw [hw, h2]
  · trivial

theorem rule_of {k : Args → Instr} {e : Entry} {f : LaneFun} (g : Args → Nat → Nat → Nat → Nat → Nat) (hL : e.isL = false)
    (hx : ∀ x s, exec (k x) s = issue e x (patOp x (g x)) s)
    (hty : ∀ x : Args, e.broken x = [] → x.m.tyD.fmt? = none ∧ 8 ≤ x.m.tyD.bits)
    (hg : ∀ x : Args, ∀ (a b d : Nat), let t := x.m.tyD; 8 ≤ t.bits → a < 2 ^ t.bits → b < 2 ^ t.bits → d < 2 ^ t.bits →
      g x t.bits a b d = (f t (BitVec.ofNat t.bits a) (BitVec.ofNat t.bits b) (BitVec.ofNat t.bits d)).toNat) : LaneRule k e f := by
  intro s env x hr hb h1 h2 t
  obtain ⟨h3, h4⟩ := hty x hb
  have hex : exec (k x) s = .next ((s.tick.put env x.m.tyD x.d ((env.runs x).map (fun l => (l, g x x.m.tyD.bits (s.tick.lane env x x.m.tyD x.a l)
      (s.tick.lane env x x.m.tyD x.b l) (s.tick.lane env x x.m.tyD x.d l))))).complete env e x {}) :=
    (hx x s).trans (issue_done hr rfl)
  refine ⟨_, hex, ?_⟩
  have := put_spec (x := x) (ty := x.m.tyD) (e := e) (fun l => g x x.m.tyD.bits (s.tick.lane env x x.m.tyD x.a l)
      (s.tick.lane env x x.m.tyD x.b l) (s.tick.lane env x x.m.tyD x.d l)) {} (ready_tick hr) hL h1 h2 (container _)
  refine ⟨?_, tick_frame this.2⟩
  have h5 := tick_wrote this.1
  have h6 : (fun l => g x x.m.tyD.bits (s.tick.lane env x x.m.tyD x.a l) (s.tick.lane env x x.m.tyD x.b l) (s.tick.lane env x x.m.tyD x.d l))
        = fun l => (f x.m.tyD (s.bitsOf env x x.m.tyD x.a l) (s.bitsOf env x x.m.tyD x.b l) (s.bitsOf env x x.m.tyD x.d l)).toNat := by
      funext l
      exact hg x _ _ _ h4 (lane_lt _ _ _ _ _ _ h3) (lane_lt _ _ _ _ _ _ h3) (lane_lt _ _ _ _ _ _ h3)
  rw [h6] at h5
  exact h5

theorem ok_of_broken {e : Entry} {x : Args} (h : e.broken x = []) : e.mods.ok x.m = true := by
  unfold Entry.broken at h
  simp only [List.append_eq_nil_iff] at h
  have := h.1.1.1.1.1.1.1.1
  by_contra h2
  simp [h2] at this

theorem ints {e : Entry} {l : List Ty} (hm : e.mods = .tys l) (hl : ∀ t ∈ l, t.fmt? = none ∧ 8 ≤ t.bits) (x : Args)
    (h : e.broken x = []) : x.m.tyD.fmt? = none ∧ 8 ≤ x.m.tyD.bits := by
  have h1 := ok_of_broken h
  rw [hm] at h1
  generalize x.m = m at h1 ⊢
  cases m <;> simp only [ModSpec.ok, Bool.false_eq_true, decide_eq_true_eq] at h1
  exact hl _ h1

theorem find_map {β γ : Type} (t : Tab β) (f : β → γ) (k : Nat) : Tab.find (t.map (fun e => (e.1, f e.2))) k = (t.find k).map f := by
  induction t with
  | nil => rfl
  | cons a t ih =>
    obtain ⟨i, w⟩ := a
    simp only [List.map_cons, Tab.find]
    split
    · rfl
    · exact ih

theorem foldl_inv {α β : Type} (f : β → α → β) (P : β → Prop) (l : List α) (b : β) (h0 : P b) (h : ∀ b a, P b → P (f b a)) : P (l.foldl f b) := by
  induction l generalizing b with
  | nil => exact h0
  | cons a l ih => exact ih _ (h _ _ h0)

/-- A change of a course whose slot nobody has claimed is made where it stands (R280). -/
theorem inRecord_here {s : State} {cid : Nat} {c : Course} {f : State → State} (h : s.courses.find cid = some c) (hs : c.saved = false) :
    s.inRecord cid f = f s := by
  unfold State.inRecord
  simp only [h, hs]
  rfl

/-- What a store can change of a course: what its paths wait for. -/
def Untouched (s t : State) : Prop :=
  (∀ cid c, s.courses.find cid = some c → ∃ c', t.courses.find cid = some c' ∧ c' = { c with paths := c'.paths } ∧
    ∀ p q, c.paths.find p = some q → ∃ w, c'.paths.find p = some { q with wait := w }) ∧
  t.ctxs = s.ctxs ∧ t.ovls = s.ovls ∧ t.time = s.time ∧ t.parts = s.parts

theorem Untouched.refl (s : State) : Untouched s s :=
  ⟨fun cid c h => ⟨c, h, rfl, fun p q h => ⟨q.wait, h⟩⟩, rfl, rfl, rfl, rfl⟩

theorem Untouched.trans {s t u : State} (h1 : Untouched s t) (h2 : Untouched t u) : Untouched s u := by
  refine ⟨fun cid c h => ?_, h2.2.1.trans h1.2.1, h2.2.2.1.trans h1.2.2.1, h2.2.2.2.1.trans h1.2.2.2.1, h2.2.2.2.2.trans h1.2.2.2.2⟩
  obtain ⟨c1, a1, a2, a3⟩ := h1.1 cid c h
  obtain ⟨c2, b1, b2, b3⟩ := h2.1 cid c1 a1
  refine ⟨c2, b1, ?_, fun p q hq => ?_⟩
  · rw [b2, a2]
  · obtain ⟨w, hw⟩ := a3 p q hq
    obtain ⟨w2, hw2⟩ := b3 p _ hw
    exact ⟨w2, hw2⟩

theorem poke_untouched (s : State) (pa : Nat) (l : List Byte) : Untouched s (s.poke pa l) := by
  refine ⟨fun cid c h => ?_, rfl, rfl, rfl, rfl⟩
  let rd : Nat → Option Word := State.goodWord { s with mem := s.store pa l, poison := clearPoison s.poison (s.cell pa) l.length }
  let g : Path → Path := fun q => { q with wait := q.wait.touched rd pa l.length }
  let f : Course → Course := fun c => { c with paths := c.paths.map (fun e => (e.1, g e.2)) }
  have e : (s.poke pa l).courses = s.courses.map (fun e => (e.1, f e.2)) := rfl
  refine ⟨f c, ?_, rfl, fun p q hq => ?_⟩
  · rw [e, find_map, h]; rfl
  · refine ⟨q.wait.touched rd pa l.length, ?_⟩
    show Tab.find (c.paths.map (fun e => (e.1, g e.2))) p = _
    rw [find_map, hq]; rfl

theorem privTry_untouched (s : State) (c : Course) (o n v : Nat) : Untouched s (s.privTry c o n v) := by
  unfold State.privTry
  split
  · exact poke_untouched _ _ _
  · exact Untouched.refl s

theorem recWrite_untouched (s : State) (c : Course) (p : Nat) (l : List (Nat × Nat)) : Untouched s (s.recWrite c p l) := by
  unfold State.recWrite
  exact foldl_inv _ (Untouched s) l s (Untouched.refl s) (fun t a h => h.trans (privTry_untouched _ _ _ _ _))

theorem complete_gone {s : State} {env : Env} {c : Course} {q : Path} (e : Entry) (x : Args) (a : Adv)
    (h : s.courses.find env.cid = some c) (hq : c.paths.find env.p = some q) (hg : a.gone = true) :
    ∃ c', (s.complete env e x a).courses.find env.cid = some c' ∧
      c'.paths.find env.p = some q ∧
      c' = { c with sig := sigAfter env.co c env.pa.shim.isSome e x.m a,
                    flags := (c.issued env.co env.pa.shim.isSome e x a (env.flag x)).flags,
                    paths := c'.paths, lastPath := c'.lastPath } := by
  obtain ⟨-, c', h1, h2⟩ := complete_course e x a h
  refine ⟨c', h1, ?_, h2⟩
  have hq2 : (c.issued env.co env.pa.shim.isSome e x a (env.flag x)).paths.find env.p = some q := hq
  unfold State.complete at h1
  simp only [h, hg, if_true, Bool.or_true] at h1
  rw [endRun_course (by rw [State.stamp_courses, State.setCourse_courses, Tab.find_put_same])] at h1
  rw [Tab.find_put_same] at h1
  cases h1
  rw [runDone_path]
  exact hq2

theorem spanFrom_eq (m : List Host.Cell) : ∀ (n a : Nat), m.Pairwise (fun c d => c.1 < d.1) → (∀ c ∈ m, a ≤ c.1) →
    spanFrom m a n = (List.range n).map (fun i => memByte m (a + i)) := by
  induction m with
  | nil =>
    intro n
    induction n with
    | zero => intro a _ _; rfl
    | succ n ih =>
      intro a h1 h2
      rw [spanFrom, ih (a + 1) h1 (by simp), List.range_succ_eq_map]
      simp only [List.map_cons, List.map_map, memByte]
      rfl
  | cons c t iht =>
    obtain ⟨k, v⟩ := c
    intro n
    induction n with
    | zero => intro a _ _; rfl
    | succ n ih =>
      intro a h1 h2
      have hk : a ≤ k := h2 _ List.mem_cons_self
      rw [spanFrom, List.range_succ_eq_map]
      by_cases h : k = a
      · subst h
        rw [if_pos rfl, iht n (k + 1) h1.of_cons (fun c hc => (List.pairwise_cons.1 h1).1 c hc)]
        simp only [List.map_cons, List.map_map, memByte]
        congr 1
        · simp
        · apply List.map_congr_left
          intro i _
          simp only [Function.comp_apply]
          rw [if_neg (by omega)]
          congr 1; omega
      · rw [if_neg h, ih (a + 1) h1 (fun c hc => ?_)]
        · simp only [List.map_cons, List.map_map]
          congr 1
          · rw [memByte, if_neg (by omega)]
            rw [memByte_of_lt]
            intro c hc
            have := (List.pairwise_cons.1 h1).1 c hc
            simp only at this
            omega
          · apply List.map_congr_left
            intro i _
            simp only [Function.comp_apply]
            congr 1; omega
        · rcases List.mem_cons.1 hc with rfl | hc
          · simp only; omega
          · have := (List.pairwise_cons.1 h1).1 c hc
            simp only at this; omega

theorem memByte_dropWhile (m : List Host.Cell) (a b : Nat) (h : a ≤ b) (hs : m.Pairwise (fun c d => c.1 < d.1)) :
    memByte (m.dropWhile (fun c => decide (c.1 < a))) b = memByte m b := by
  induction m with
  | nil => rfl
  | cons c t ih =>
    obtain ⟨k, v⟩ := c
    rw [List.dropWhile_cons]
    split
    · rename_i hlt
      rw [ih hs.of_cons]
      simp only [decide_eq_true_eq] at hlt
      rw [memByte, if_neg (by omega)]
    · rfl

/-- A span of canonical memory is its bytes one by one. -/
theorem memSpan_eq (m : List Host.Cell) (h : Memory.wf m = true) (a n : Nat) :
    memSpan m a n = (List.range n).map (fun i => memByte m (a + i)) := by
  have hs := ((Memory.wf_iff m).1 h).1
  unfold memSpan
  rw [spanFrom_eq _ _ _ (hs.sublist (List.dropWhile_sublist _)) ?_]
  · apply List.map_congr_left
    intro i _
    exact memByte_dropWhile m a (a + i) (by omega) hs
  · intro c hc
    by_contra hlt
    have : ∀ (t : List Host.Cell), t.Pairwise (fun c d => c.1 < d.1) → ∀ c ∈ t.dropWhile (fun c => decide (c.1 < a)), a ≤ c.1 := by
      intro t
      induction t with
      | nil => simp
      | cons d t ih =>
        intro hp c hc
        rw [List.dropWhile_cons] at hc
        split at hc
        · exact ih hp.of_cons c hc
        · rename_i hd
          simp only [decide_eq_true_eq, Nat.not_lt] at hd
          rcases List.mem_cons.1 hc with rfl | hc
          · exact hd
          · have := (List.pairwise_cons.1 hp).1 c hc
            omega
    exact hlt (this m hs c hc)

theorem leNat_toLe (n v : Nat) : leNat (toLe n v) = v % 2 ^ (8 * n) := by
  induction n generalizing v with
  | zero => simp [toLe, leNat, Nat.mod_one]
  | succ n ih =>
    rw [toLe, leNat, ih]
    have h : (2 : Nat) ^ (8 * (n + 1)) = 256 * 2 ^ (8 * n) := by rw [show 8 * (n + 1) = 8 + 8 * n by ring, pow_add]; norm_num
    rw [h, Nat.mod_mul]
    simp

theorem length_toLe (n v : Nat) : (toLe n v).length = n := by
  induction n generalizing v with
  | zero => rfl
  | succ n ih => simp [toLe, ih]

/-- With no frame retired, what was stored is what is read there. -/
theorem peek_poke (s : State) (h : Memory.wf s.mem = true) (hf : s.pkg.frameMap = []) (pa : Nat) (l : List Byte) :
    (s.poke pa l).peek pa l.length = l := by
  have hf2 : (s.poke pa l).pkg.frameMap = [] := hf
  have hw : (s.poke pa l).mem = memWrite s.mem pa l := by
    show s.store pa l = _
    unfold State.store
    rw [hf]; rfl
  unfold State.peek
  rw [hf2, hw]
  show memSpan _ _ _ = l
  rw [memSpan_eq _ (Memory.wf_write _ _ _ h)]
  apply List.ext_getElem
  · simp
  · intro i h1 h2
    simp only [List.getElem_map, List.getElem_range]
    rw [memByte_write _ _ _ i h2]

theorem peekNat_pokeNat (s : State) (h : Memory.wf s.mem = true) (hf : s.pkg.frameMap = []) (pa n v : Nat) :
    (s.pokeNat pa n v).peekNat pa n = v % 2 ^ (8 * n) := by
  unfold State.peekNat State.pokeNat
  have := peek_poke s h hf pa (toLe n v)
  rw [length_toLe] at this
  rw [this, leNat_toLe]

theorem command_accepted {s : State} {page off part : Nat} {hyper : Bool} (h : s.accepts page off hyper part) (words : List (Option Nat))
    (run : State → CmdEnd) : s.command page off hyper part words run =
      match run (s.submitted page off words) with
      | .done t => t.endCmd page off 1
      | .later t => t
      | .refused => (s.submitted page off words).endCmd page off 2 := by
  obtain ⟨h1, h2, h3, h4⟩ := h
  unfold State.command
  have hc : (!s.up || s.cmdPending page off || decide (16 < page) || (decide (page ≠ 0) && decide (0x1200 ≤ off))) = false := by
    rw [h1, h2]
    have : ¬ (16 < page) := by omega
    rcases h4 with h4 | ⟨h4, -⟩
    · simp [this, h4]
    · have : ¬ (0x1200 ≤ off) := by omega
      simp [*]
  rw [if_neg (by rw [hc]; exact Bool.false_ne_true)]
  have hd : (decide (page ≠ 0) && (hyper || decide (part + 1 ≠ page))) = false := by
    rcases h4 with h4 | ⟨-, h5, h6⟩
    · simp [h4]
    · simp [h5, h6]
  simp only
  rw [if_neg (by rw [hd]; exact Bool.false_ne_true)]
  rfl

theorem lanes_ne {m : LaneMask} (h : m ≠ 0) : (lanesOf m).isEmpty = false := by
  cases hl : (lanesOf m).isEmpty
  · rfl
  · rw [List.isEmpty_iff, lanesOf_eq_nil] at hl
    exact absurd hl h

/-- A test that no element passes. -/
theorem any_false {α : Type} {l : List α} {p : α → Bool} (h : ∀ e ∈ l, p e = false) : l.any p = false := by
  rw [Bool.eq_false_iff]; intro h2; rw [List.any_eq_true] at h2
  obtain ⟨e, h3, h4⟩ := h2
  rw [h e h3] at h4; exact Bool.false_ne_true h4

/-! ### Results that are there -/

theorem isOk_ok {ε α : Type} {r : Except ε α} (h : r.isOk = true) : ∃ t, r = .ok t := by
  cases r with
  | ok t => exact ⟨t, rfl⟩
  | error _ => cases h

theorem isOk_getD {ε α : Type} {r : Except ε α} (h : r.isOk = true) (d : α) : r = .ok (r.toOption.getD d) := by
  obtain ⟨t, rfl⟩ := isOk_ok h
  rfl

theorem join_some {ε α : Type} {r : Except ε (Option α)} (h : r.toOption.join.isSome = true) : ∃ t, r = .ok (some t) := by
  cases r with
  | ok o => cases o with
    | some t => exact ⟨t, rfl⟩
    | none => cases h
  | error _ => cases h

/-- A list of checks that all pass gives the list of what they give. -/
theorem mapM_ok {α β ε : Type} (f : α → Except ε β) (g : α → β) (l : List α) (h : ∀ a ∈ l, f a = .ok (g a)) :
    l.mapM f = .ok (l.map g) := by
  induction l with
  | nil => rfl
  | cons a l ih =>
    rw [List.mapM_cons, h a (List.mem_cons_self ..), ih (fun b hb => h b (List.mem_cons_of_mem _ hb))]
    rfl

end Sys2Proof.Machine
end

