-- ==== Sys2Proof/Laws/ControlRules.lean ====
section
/-!
SUPPORT. Nesting counters and break bits (R72, R73), and how a memory instruction starts (R132).
-/

namespace Sys2Proof.Machine

theorem setCtl_course {s : State} {env : Env} {t : Ctl} {d : Nat} {ent : List (Nat × LaneMask)} (hc : s.courses.find env.cid = some env.co)
    (hp : env.co.paths.find env.p = some env.pa) :
    (s.setCtl env t d ent).courses.find env.cid = some { env.co with c := t.c, x := t.x, k := t.k, paths := env.co.paths.put env.p { env.pa with d := d, ent := ent } } := by
  unfold State.setCtl
  rw [hc]
  simp only [hp]
  rw [State.setCourse_courses, Tab.find_put_same]

theorem ctl_done {s : State} {env : Env} {e : Entry} {x : Args} {ans : Answer} {t : Ctl} {d : Nat}
    {ent : List (Nat × LaneMask)} {a : Adv} (hr : Ready s env e x)
    (hb : ans = .next ((s.tick.setCtl env t d ent).complete env e x a)) (hg : a.gone = false) :
    ∃ u, ans = .next u ∧ (∀ (newC : Nat → Nat) (X K : LaneMask), (∀ l, l < 64 → cOf t.c l = newC l % 256) → t.x = X → t.k = K →
      CtlAfter u env newC X K d) ∧ ∃ q, u.path env.cid env.p = some q ∧ (q.ovl, q.idx) = a.go.getD (env.pa.ovl, env.pa.idx + 1) := by
  have hc := setCtl_course (t := t) (d := d) (ent := ent) (ready_tick hr) hr.path
  obtain ⟨c', h1, h2, h3⟩ := complete_path e x a hc (Tab.find_put_same _ _ _) hg
  refine ⟨_, hb, ?_, ?_⟩
  · intro newC X K hC hX hK
    refine ⟨c', _, ⟨h1, h2⟩, ?_, ?_, ?_, rfl⟩
    · rw [h3]; exact hC
    · rw [h3]; exact hX
    · rw [h3]; exact hK
  · refine ⟨_, by unfold State.path; rw [h1]; exact h2, ?_⟩
    rfl

theorem cOf_lt (c : BitVec 512) (l : Nat) : cOf c l < 256 := by unfold cOf; exact BitVec.isLt _

theorem counters_c (t : Ctl) (F : LaneMask) (f : Nat → Nat → Nat) (l : Nat) (hl : l < 64) :
    cOf (t.counters F f).c l = (if F.getLsbD l then f l (cOf t.c l) else cOf t.c l) % 256 := by
  unfold Ctl.counters
  simp only
  rw [cOf_cMap _ _ _ hl]

theorem clearX_eq (old : Ctl) (F : LaneMask) : ((old.counters F (fun _ v => v - 1)).clearX old F).x =
    old.x &&& ~~~(maskOf (fun l => F.getLsbD l && cOf old.c l == 1)) := by
  unfold Ctl.clearX
  simp only
  have h : F &&& maskOf (fun l => cOf (old.counters F (fun _ v => v - 1)).c l == 0 && cOf old.c l != 0) = maskOf (fun l => F.getLsbD l && cOf old.c l == 1) := by
    apply BitVec.eq_of_getLsbD_eq
    intro l hl
    rw [BitVec.getLsbD_and, getLsbD_maskOf, getLsbD_maskOf]
    cases hF : F.getLsbD l
    · simp
    · rw [counters_c _ _ _ _ hl, hF]
      have := cOf_lt old.c l
      simp only [hl, decide_true, Bool.true_and, if_true]
      rw [Nat.mod_eq_of_lt (by omega : cOf old.c l - 1 < 256)]
      rw [Bool.eq_iff_iff]
      simp
      omega
  rw [h]
  simp only [Ctl.counters]

theorem closeRegion_fst (env : Env) (s : State) : (closeRegion env s).1 =
    s.setCtl env ((env.co.ctl.counters env.F (fun _ v => v - 1)).clearX env.co.ctl env.F) (env.pa.d - 1)
        (env.pa.ent.filter (fun e => e.1 ≠ regionKey env.pa.depth env.pa.d)) := by
  unfold closeRegion
  rfl

theorem clear_c (t old : Ctl) (F : LaneMask) : (t.clearX old F).c = t.c := by unfold Ctl.clearX; rfl

theorem clear_k (t old : Ctl) (F : LaneMask) : (t.clearX old F).k = t.k := by unfold Ctl.clearX; rfl

theorem counters_k (t : Ctl) (F : LaneMask) (f : Nat → Nat → Nat) : (t.counters F f).k = t.k := by unfold Ctl.counters; rfl

theorem counters_x (t : Ctl) (F : LaneMask) (f : Nat → Nat → Nat) : (t.counters F f).x = t.x := by unfold Ctl.counters; rfl

theorem leave_c (n : Nat) (env : Env) (x : Args) : (leaveTo n env x).c = (env.co.ctl.counters (env.acting x) (fun _ _ => n)).c := by unfold leaveTo; rfl

theorem leave_x (n : Nat) (env : Env) (x : Args) : (leaveTo n env x).x = env.co.x ||| env.acting x := by unfold leaveTo; simp only [counters_x]; rfl

theorem leave_k (n : Nat) (env : Env) (x : Args) : (leaveTo n env x).k = env.co.k := by unfold leaveTo; simp only [counters_k]; rfl

theorem close_at (env : Env) (C : BitVec 512) (X K : LaneMask) (s : State) :
    (closeRegion { env with co := { env.co with c := C, x := X, k := K } } s).1 =
    s.setCtl env (((Ctl.mk C X K).counters env.F (fun _ v => v - 1)).clearX ⟨C, X, K⟩ env.F) (env.pa.d - 1)
        (env.pa.ent.filter (fun e => e.1 ≠ regionKey env.pa.depth env.pa.d)) := by
  unfold closeRegion
  rfl

theorem loopBack_eq {env : Env} {back : LaneMask}
    (hb : env.F &&& env.co.k &&& maskOf (fun l => cOf env.co.c l == 1) = back) :
    loopBack env = (decide (env.F &&& maskOf (fun l => cOf (cMap env.co.c (fun l v => if back.getLsbD l then 0 else v)) l == 0) ≠ 0),
      ⟨cMap env.co.c (fun l v => if back.getLsbD l then 0 else v), env.co.x &&& ~~~back, env.co.k &&& ~~~back⟩) := by
  unfold loopBack
  simp only [hb]

theorem ready_next {s : State} : s.tick.nextId = s.nextId := rfl

theorem mem_start {k : Args → Instr} {e : Entry} {m : MemOp} (hk : ∀ x s, exec (k x) s = issue e x (memOp x m) s) :
    ∀ (s : State) (env : Env) (x : Args), Ready s env e x →
      let ty := x.m.tyD
      let checked := checkLanes x m.writes (ty.bits / 8) (ty.bits / 8) (memLanes x env) env s.tick
      (memLanes x env = [] → exec (k x) s = .next ((s.tick.addOp env x .nothing).complete env e x {})) ∧
      (∀ accs, memLanes x env ≠ [] → memWaits x env s.tick = false → checked = .ok accs → s.tick.absentLines accs = [] →
        ∃ j : MemJob, exec (k x) s = .next
            (((s.tick.addOp env x (.mem j)).clampSys env (Scope.ofCode (BitVec.ofNat 3 (bits x.b.ctl 8 3)))).complete env e x {}) ∧
          j.m = m ∧ j.t = ty ∧ j.d = x.d ∧ j.got = [] ∧ j.bad = none ∧
          j.acq = nbit (bits x.b.ctl 11 2) 0 ∧ j.rel = nbit (bits x.b.ctl 11 2) 1 ∧
          j.todo.map (fun a => (a.lane, a.pa, a.n)) = accs.map (fun a => (a.lane, a.pa, a.n)) ∧
          (m ≠ .ld → ∀ a ∈ j.todo, a.x = s.lane env x ty x.d a.lane)) ∧
      (∀ tr, memLanes x env ≠ [] → memWaits x env s.tick = false → checked = .error tr →
        exec (k x) s = .next (s.tick.trapHere env tr)) ∧
      (∀ accs, memLanes x env ≠ [] → memWaits x env s.tick = false → checked = .ok accs → s.tick.absentLines accs ≠ [] →
        exec (k x) s = .next ((s.tick.leaveSlot env.slot).setPath env.cid env.p
          { env.pa with wait := .lines (s.tick.absentLines accs) })) := by
  intro s env x hr ty checked
  refine ⟨fun h => ?_, fun accs h hw hc ha => ?_, fun tr h hw hc => ?_, fun accs h hw hc ha => ?_⟩
  · rw [hk]
    refine issue_done hr ?_
    unfold memOp
    simp only [h]
    rfl
  · have hc2 : checkLanes x m.writes (x.m.tyD.bits / 8) (x.m.tyD.bits / 8) (memLanes x env) env s.tick = .ok accs := hc
    rw [hk]
    refine ⟨⟨m, ty, x.d, nbit (memCtl x).ord 0, nbit (memCtl x).ord 1, Scope.ofCode (BitVec.ofNat 3 (memCtl x).scope), env.acting x, accs.any (fun a => a.kind == .so), arrayOf x env,
      accs.map (fun a => { a with x := if m = MemOp.ld then 0 else dValue x ty env s.tick a.lane, y := if m = MemOp.cas then nextReg x ty env s.tick a.lane else 0 }), [],
      if m = MemOp.st then (accs.map (fun a => { a with x := if m = MemOp.ld then 0 else dValue x ty env s.tick a.lane, y := if m = MemOp.cas then nextReg x ty env s.tick a.lane else 0 })).map (fun a => (a.pa, a.n)) else [], none⟩,
      issue_done hr ?_, ?_⟩
    · unfold memOp
      have h2 : (memLanes x env).isEmpty = false := by simpa using h
      simp only [h2, hw, hc2, ha]
      rfl
    · refine ⟨rfl, rfl, rfl, rfl, rfl, rfl, rfl, ?_, ?_⟩
      · simp [List.map_map, Function.comp_def]
      · intro hm a haj
        simp only [List.mem_map] at haj
        obtain ⟨b, -, rfl⟩ := haj
        simp only [hm, if_false]
        rfl
  · have hc2 : checkLanes x m.writes (x.m.tyD.bits / 8) (x.m.tyD.bits / 8) (memLanes x env) env s.tick = .error tr := hc
    rw [hk]
    refine issue_trap hr ?_
    unfold memOp
    have h2 : (memLanes x env).isEmpty = false := by simpa using h
    simp only [h2, hw, hc2]
    rfl
  · have hc2 : checkLanes x m.writes (x.m.tyD.bits / 8) (x.m.tyD.bits / 8) (memLanes x env) env s.tick = .ok accs := hc
    rw [hk, issue_ready hr]
    unfold memOp
    have h2 : (memLanes x env).isEmpty = false := by simpa using h
    have h3 : (s.tick.absentLines accs).isEmpty = false := by simpa using ha
    simp only [h2, hw, hc2, h3]
    rfl

theorem poisoned_nil (s : State) (h : s.poison = []) (pa n : Nat) : s.poisoned pa n = none := by
  unfold State.poisoned
  rw [List.find?_eq_none]
  intro x _
  rw [h]; simp

theorem poisonedAs_nil (s : State) (h : s.poison = []) (r pa n : Nat) : s.poisonedAs r pa n = none := by
  unfold State.poisonedAs
  simp only [poisoned_nil s h, Option.map_none]

/-- An instruction that a tfence holds back traps on its operands alone, or completes issue and joins the access queue (R160). -/
theorem queue_up {k : Args → Instr} {e : Entry} {body : Args → Env → State → Res} (hk : ∀ x s, exec (k x) s = issue e x (body x) s) (hL : e.isL = true)
    (s : State) (env : Env) (x : Args) (h : HeldBack s env e x) :
    (∀ t, body x env s.tick = .trap t → t.ofAccess = false → exec (k x) s = .next (s.tick.trapHere env t)) ∧
    ((∀ t, body x env s.tick = .trap t → t.ofAccess = true) →
      exec (k x) s = .next (State.complete { s.tick with ops := s.ops.put s.nextId (s.tick.queued env e x (env.flag x)), nextId := s.nextId + 8 } env e x {})) := by
  rw [hk, issue_behind h]
  unfold State.behind
  simp only [hL, if_true]
  refine ⟨fun t ht ha => ?_, fun ha => ?_⟩
  · rw [ht]; simp only [ha]; rfl
  · cases hb : body x env s.tick with
    | trap t => simp only [ha t hb]; rfl
    | _ => rfl

theorem runs_demoted (c : Course) (p : Nat) (q : Path) (hq : c.paths.find (1 - p) = some q) (h0 : q.demoted = some 0) (k : Nat) (hk : k < 64) :
    ((Nat.iterate (fun (c : Course) => c.runDone p) k c).paths.find (1 - p)).map (·.demoted) = some (some k) := by
  induction k with
  | zero => simp [hq, h0]
  | succ k ih =>
    have ih := ih (by omega)
    rw [Function.iterate_succ_apply']
    generalize Nat.iterate (fun (c : Course) => c.runDone p) k c = d at ih ⊢
    cases hd : d.paths.find (1 - p) with
    | none => rw [hd] at ih; cases ih
    | some r =>
      rw [hd] at ih
      simp only [Option.map_some, Option.some.injEq] at ih
      unfold Course.runDone
      have h63 : ¬ (63 ≤ k) := by omega
      simp only [hd, ih, h63, if_false]
      rw [Tab.find_put_same]
      rfl

end Sys2Proof.Machine
end

