-- ==== Sys2Proof/Laws/CrewRules.lean ====
section
/-!
SUPPORT. Crew entries as bytes, barrier tables, and changes that leave the rest of a state alone (R221, R228).
-/

namespace Sys2Proof.Machine

/-- Stores change of a course at most what its paths wait for. -/
theorem putWords_untouched (s : State) (pa : Nat) (l : List (Nat × Nat × Nat)) : Untouched s (s.putWords pa l) := by
  unfold State.putWords
  exact foldl_inv _ (Untouched s) l s (Untouched.refl s) (fun t a h => h.trans (poke_untouched _ _ _))

/-- What a store leaves of the courses is what a state with the same courses has. -/
theorem untouched_same {s t u : State} (h : Untouched s t) (h1 : u.courses = t.courses) (h2 : u.ctxs = t.ctxs) (h3 : u.ovls = t.ovls)
    (h4 : u.time = t.time) (h5 : u.parts = t.parts) : Untouched s u :=
  ⟨fun cid c hc => by rw [h1]; exact h.1 cid c hc, h2.trans h.2.1, h3.trans h.2.2.1, h4.trans h.2.2.2.1, h5.trans h.2.2.2.2⟩

theorem saveBody_untouched {s t : State} {c : Course} (h : s.saveBody c = some t) : Untouched s t := by
  unfold State.saveBody at h
  obtain ⟨pa, -, rfl⟩ := Option.map_eq_some_iff.1 h
  generalize hu : s.putWords pa (c.headWords (s.courseNode c) ++ c.bodyWords ++ s.queueWords c) = u
  have h0 : Untouched s u := by rw [← hu]; exact putWords_untouched _ _ _
  generalize hv : ({ u with poison := clearPoison u.poison (u.cell pa) 0xF00 } : State) = v
  have hv0 : Untouched s v := by rw [← hv]; exact untouched_same h0 rfl rfl rfl rfl rfl
  have hmark : ∀ (w : State) (b : Nat) (n : Nat), Untouched s w → Untouched s (w.markPoison b n) := fun w b n h => untouched_same h rfl rfl rfl rfl rfl
  simp only [hv]
  have h1 : Untouched s ((List.range 8).foldl (fun (s : State) i =>
      if bits c.sPoison.toNat (8 * i) 8 ≠ 0 then s.markPoison (pa + 0x080 + 64 * i) 64 else s) v) := by
    refine foldl_inv _ (Untouched s) _ v hv0 (fun t i h => ?_)
    split
    · exact hmark _ _ _ h
    · exact h
  split <;> split <;> first | exact hmark _ _ _ (hmark _ _ _ h1) | exact hmark _ _ _ h1 | exact h1

/-- A change of another course leaves of this one all but what its paths wait for (R280). -/
theorem inRecord_other {s : State} {cid k : Nat} {d : Course} (f : Course → Course) (P : Course → Prop) (hk : k ≠ cid)
    (hd : s.courses.find cid = some d) (hP : P d) (hw : ∀ d ps, P d → P { d with paths := ps }) :
    ∃ d, (s.inRecord k (fun s => s.modCourse k f)).courses.find cid = some d ∧ P d := by
  have hput : ∀ (t : State) (e : Course), t.courses.find cid = some d → (t.setCourse k e).courses.find cid = some d := by
    intro t e h
    rw [State.setCourse_courses, Tab.find_put_other _ _ _ _ hk]
    exact h
  have hmod : ∀ t : State, t.courses.find cid = some d → (t.modCourse k f).courses.find cid = some d := by
    intro t h
    unfold State.modCourse
    split
    · exact hput _ _ h
    · exact h
  unfold State.inRecord
  split
  · exact ⟨d, hmod _ hd, hP⟩
  · split
    · exact ⟨d, hmod _ hd, hP⟩
    · split
      · exact ⟨d, hmod _ hd, hP⟩
      · rename_i b hb
        simp only
        have he := hmod _ (hput s { b with saved := true } hd)
        split
        · rename_i g hg
          cases hsv : ((s.setCourse k { b with saved := true }).modCourse k f).saveBody g with
          | none => exact ⟨d, he, hP⟩
          | some t =>
            obtain ⟨e2, h2, h3, -⟩ := (saveBody_untouched hsv).1 cid d he
            exact ⟨e2, h2, by rw [h3]; exact hw _ _ hP⟩
        · exact ⟨d, he, hP⟩

/-- A change of a course that has its slot is made in it. -/
theorem inRecord_course {s : State} {cid : Nat} {d : Course} (f : Course → Course) (P : Course → Prop) (hd : s.courses.find cid = some d) (hP : P d)
    (hs : ∀ d, P d → d.saved = false) (hf : ∀ d, P d → P (f d)) :
    ∃ d, (s.inRecord cid (fun s => s.modCourse cid f)).courses.find cid = some d ∧ P d := by
  rw [inRecord_here hd (hs _ hP)]
  unfold State.modCourse
  simp only [hd]
  exact ⟨f d, Tab.find_put_same .., hf d hP⟩

theorem find_mapIdx {β : Type} (t : Tab β) (f : Nat → β → β) (k : Nat) :
    Tab.find (t.map (fun e => (e.1, f e.1 e.2))) k = (t.find k).map (f k) := by
  induction t with
  | nil => rfl
  | cons a t ih =>
    obtain ⟨i, w⟩ := a
    simp only [List.map_cons, Tab.find]
    split
    · rename_i h; subst h; rfl
    · exact ih

theorem ownBar_spec {s : State} {ctx key : Nat} {r : Barrier} (h : s.ownBar ctx key = some r) :
    s.barriers.find key = some r ∧ (r.bound && r.ctx == ctx) = true := by
  unfold State.ownBar at h
  split at h
  · rename_i r' h2
    split at h
    · rename_i h3
      cases h
      exact ⟨h2, h3⟩
    · cases h
  · cases h

theorem ownBar_put {s : State} {ctx key : Nat} {r : Barrier} (hb : s.barriers.find key = some r) (h : (r.bound && r.ctx == ctx) = true) :
    s.ownBar ctx key = some r := by
  unfold State.ownBar
  simp only [hb, h, if_true]

/-- A change of every course of a barrier reaches one that has its slot (R228, R280). -/
theorem barCourses_here {s : State} {ctx key cid : Nat} {c : Course} (f : Nat → Course → Course) (P : Course → Prop) (hc : s.courses.find cid = some c)
    (hat : c.atBar ctx key = true) (hsv : c.saved = false) (h0 : P (f cid c)) (hs : ∀ d, P d → d.saved = false)
    (hf : ∀ d, P d → P (f cid d)) (hw : ∀ d ps, P d → P { d with paths := ps }) :
    ∃ d, (s.barCourses ctx key f).courses.find cid = some d ∧ P d := by
  unfold State.barCourses
  have hstart : ∃ d, Tab.find (s.courses.map (fun e => if e.2.atBar ctx key && !e.2.saved then (e.1, f e.1 e.2) else e)) cid = some d ∧ P d := by
    refine ⟨f cid c, ?_, h0⟩
    have h1 : (s.courses.map (fun e => if e.2.atBar ctx key && !e.2.saved then (e.1, f e.1 e.2) else e)) =
        s.courses.map (fun e => (e.1, (fun i (d : Course) => if d.atBar ctx key && !d.saved then f i d else d) e.1 e.2)) := by
      apply List.map_congr_left
      intro e _
      simp only
      split <;> rfl
    rw [h1]
    refine (find_mapIdx s.courses (fun i (d : Course) => if d.atBar ctx key && !d.saved then f i d else d) cid).trans ?_
    rw [hc]
    simp [hat, hsv]
  refine foldl_inv _ (fun t : State => ∃ d, t.courses.find cid = some d ∧ P d) _ _ hstart (fun t e h => ?_)
  obtain ⟨d, h1, h2⟩ := h
  by_cases hk : e.1 = cid
  · rw [hk]
    exact inRecord_course (f cid) P h1 h2 hs hf
  · exact inRecord_other (f e.1) P hk h1 h2 hw

theorem bits_add (a b lo w k : Nat) (ha : a < 2 ^ k) (hk : k ≤ lo) : bits (a + 2 ^ k * b) lo w = bits b (lo - k) w := by
  unfold bits
  rw [Nat.shiftRight_eq_div_pow, Nat.shiftRight_eq_div_pow]
  have h : (2 : Nat) ^ lo = 2 ^ k * 2 ^ (lo - k) := by rw [← pow_add]; congr 1; omega
  rw [h, ← Nat.div_div_eq_div_mul, Nat.add_mul_div_left _ _ (by positivity), Nat.div_eq_of_lt ha, Nat.zero_add]

theorem bits_low (a b lo w k : Nat) (hk : lo + w ≤ k) : bits (a + 2 ^ k * b) lo w = bits a lo w := by
  unfold bits
  rw [Nat.shiftRight_eq_div_pow, Nat.shiftRight_eq_div_pow]
  have h : (2 : Nat) ^ k = 2 ^ lo * (2 ^ w * 2 ^ (k - lo - w)) := by rw [← pow_add, ← pow_add]; congr 1; omega
  rw [h, Nat.mul_assoc, Nat.add_mul_div_left _ _ (by positivity), Nat.mul_assoc, Nat.add_mul_mod_self_left]

theorem crew_round (e : CrewEnt) (h1 : e.gen < 2 ^ 32) (h2 : e.members < 2 ^ 18) (h3 : e.hcount < 2 ^ 12) (h4 : e.cores < 2 ^ 96) :
    CrewEnt.ofNat e.pack = e := by
  have hp : e.pack = (e.members + 2 ^ 32 * e.gen) + 2 ^ 64 * ((e.hcount + 2 ^ 61 * ((if e.hcount = 0 then 0 else 1) + 2 * (if e.live then 1 else 0)))
      + 2 ^ 64 * e.cores) := by
    unfold CrewEnt.pack
    rw [Nat.mod_eq_of_lt h1, Nat.mod_eq_of_lt h2, Nat.mod_eq_of_lt h3]
    have : e.cores / 2 ^ 64 < 2 ^ 32 := by omega
    rw [Nat.mod_eq_of_lt this]
    have hc := Nat.div_add_mod e.cores (2 ^ 64)
    generalize e.cores / 2 ^ 64 = q at *
    generalize e.cores % 2 ^ 64 = r at *
    rw [← hc]
    split <;> split <;> ring
  have ha : e.members + 2 ^ 32 * e.gen < 2 ^ 64 := by omega
  have hb : e.hcount + 2 ^ 61 * ((if e.hcount = 0 then 0 else 1) + 2 * (if e.live then 1 else 0)) < 2 ^ 64 := by
    split <;> split <;> omega
  unfold CrewEnt.ofNat
  rw [hp]
  obtain ⟨gen, members, live, hcount, cores⟩ := e
  simp only at *
  congr 1
  · rw [bits_low _ _ _ _ 64 (by omega), bits_add _ _ _ _ 32 (by omega) (by omega)]
    simp only [bits, Nat.sub_self, Nat.shiftRight_zero]
    omega
  · rw [bits_low _ _ _ _ 64 (by omega), bits_low _ _ _ _ 32 (by omega)]
    simp only [bits, Nat.shiftRight_zero]
    omega
  · rw [bits_add _ _ _ _ 64 ha (by omega), bits_low _ _ _ _ 64 (by omega), bits_add _ _ _ _ 61 (by omega) (by omega)]
    simp only [bits, Nat.shiftRight_eq_div_pow]
    cases live <;> split <;> simp
  · rw [bits_add _ _ _ _ 64 ha (by omega), bits_low _ _ _ _ 64 (by omega), bits_low _ _ _ _ 61 (by omega)]
    simp only [bits, Nat.sub_self, Nat.shiftRight_zero]
    omega
  · rw [bits_add _ _ _ _ 64 ha (by omega), bits_add _ _ _ _ 64 hb (by omega), bits_add _ _ _ _ 64 ha (by omega), bits_add _ _ _ _ 64 hb (by omega)]
    simp only [bits, Nat.shiftRight_eq_div_pow]
    omega

theorem crewLeave_none {s : State} {cid l : Nat} {c : Course} (h1 : s.courses.find cid = some c) (h2 : c.crew.find l = none) :
    s.crewLeave cid l = s := by
  unfold State.crewLeave
  simp only [h1, h2]

theorem setBits_lt (n lo v : Nat) (h : n < 2 ^ 96) (hl : lo < 96) : setBits n lo 1 v < 2 ^ 96 := by
  unfold setBits
  have h1 : n % 2 ^ lo < 2 ^ lo := Nat.mod_lt _ (by positivity)
  rw [Nat.shiftLeft_eq, Nat.shiftLeft_eq, Nat.shiftRight_eq_div_pow]
  have h2 : v % 2 ^ 1 ≤ 1 := by omega
  have h3 : n / 2 ^ (lo + 1) < 2 ^ (96 - (lo + 1)) := by
    rw [Nat.div_lt_iff_lt_mul (by positivity), ← pow_add]
    rwa [show 96 - (lo + 1) + (lo + 1) = 96 by omega]
  have h4 : n / 2 ^ (lo + 1) * 2 ^ (lo + 1) ≤ (2 ^ (96 - (lo + 1)) - 1) * 2 ^ (lo + 1) := Nat.mul_le_mul_right _ (by omega)
  rw [Nat.sub_mul, ← pow_add, show 96 - (lo + 1) + (lo + 1) = 96 by omega] at h4
  have h5 : (v % 2 ^ 1) * 2 ^ lo ≤ 2 ^ lo := by nlinarith [Nat.two_pow_pos lo]
  have h6 : (2 : Nat) ^ (lo + 1) = 2 * 2 ^ lo := by rw [pow_succ]; ring
  have h7 : (2 : Nat) ^ (lo + 1) ≤ 2 ^ 96 := Nat.pow_le_pow_right (by omega) (by omega)
  omega

end Sys2Proof.Machine
end

