-- ==== Sys2Proof/Laws/CrossRules.lean ====
section
/-!
SUPPORT. The log-step tree, the scan and the accumulator (R95 to R103).
-/

namespace Sys2Proof.Machine

theorem kscan_fold (L : List Nat) (g : Nat → FVal) (k : Kul) (o : List (Nat × Nat)) :
    (L.foldl (fun (a : Kul × List (Nat × Nat)) l =>
          let k := a.1.add (g l)
          (k, a.2 ++ [(l, k.readOut .f64 .rn)])) (k, o)).1 = L.foldl (fun k l => k.add (g l)) k := by
  induction L generalizing k o with
  | nil => rfl
  | cons a t ih => exact ih _ _

theorem exp_bound (f : Fmt) (n : Nat) (neg : Bool) (m : Nat) (e : Int) (h : f.decode n = .fin neg m e) : 0 ≤ e + 1074 := by
  unfold Fmt.decode at h
  dsimp only at h
  split at h
  · split at h <;> cases h
  · split at h
    · cases h
    · split at h
      · cases h; cases f <;> decide
      · rename_i h0
        cases h
        have : (1 : Int) ≤ ((bits n f.fbits f.ebits : Nat) : Int) := by omega
        have : (f.bias : Int) + f.fbits ≤ 1075 := by cases f <;> decide
        omega

theorem step_map (g : Nat → Nat) (h : Nat × Nat → Nat) : ((List.range 64).map g).zipIdx.map h = (List.range 64).map (fun l => h (g l, l)) := by
  apply List.ext_getElem
  · simp
  · intro i h1 h2
    simp

theorem map_getD (g : Nat → Nat) (l : Nat) (hl : l < 64) : ((List.range 64).map g).getD l 0 = g l := by
  rw [List.getD_eq_getElem?_getD]
  simp [hl]

/-- lanes combined at lane l after the steps js -/
def leaves : List Nat → Nat → List Nat
  | [], l => [l]
  | j :: js, l => leaves js l ++ leaves js (l ^^^ j)

def redG (f : Nat → Nat → Nat) (g : Nat → Nat) : List Nat → Nat → Nat
  | [], l => g l
  | j :: js, l => f (redG f g js l) (redG f g js (l ^^^ j))

theorem xor_lt (l j : Nat) (hl : l < 64) (hj : j < 64) : l ^^^ j < 64 := Nat.xor_lt_two_pow (n := 6) hl hj

theorem lred_fold (f : Nat → Nat → Nat) (g : Nat → Nat) (js : List Nat) (hj : ∀ j ∈ js, j < 64) :
    js.foldr (fun j v => v.zipIdx.map (fun a => f a.1 (v.getD (a.2 ^^^ j) 0))) ((List.range 64).map g) = (List.range 64).map (redG f g js) := by
  induction js with
  | nil => rfl
  | cons j js ih =>
    rw [List.foldr_cons, ih (fun k hk => hj k (List.mem_cons_of_mem _ hk)), step_map]
    apply List.map_congr_left
    intro l hl
    rw [List.mem_range] at hl
    have := xor_lt l j hl (hj j (List.mem_cons_self ..))
    dsimp only
    rw [map_getD _ _ this]
    rfl

theorem perm_all : ∀ l < 64, (leaves [1, 2, 4, 8, 16, 32] l).Perm (List.range 64) := by
  have : ∀ l < 64, (leaves [1, 2, 4, 8, 16, 32] l).isPerm (List.range 64) = true := by decide
  intro l hl
  exact List.isPerm_iff.mp (this l hl)

def comb (f : Nat → Nat → Nat) : Option Nat → Option Nat → Option Nat
  | none, b => b
  | a, none => a
  | some a, some b => some (f a b)

theorem comb_assoc (f : Nat → Nat → Nat) (h : ∀ a b c, f (f a b) c = f a (f b c)) (a b c : Option Nat) :
    comb f (comb f a b) c = comb f a (comb f b c) := by
  cases a <;> cases b <;> cases c <;> simp [comb, h]

theorem comb_comm (f : Nat → Nat → Nat) (h : ∀ a b, f a b = f b a) (a b : Option Nat) : comb f a b = comb f b a := by
  cases a <;> cases b <;> simp [comb, h]

def prodL (f : Nat → Nat → Nat) (g : Nat → Nat) (L : List Nat) : Option Nat := L.foldr (fun l a => comb f (some (g l)) a) none

theorem prodL_append (f : Nat → Nat → Nat) (g : Nat → Nat) (h : ∀ a b c, f (f a b) c = f a (f b c)) (L M : List Nat) :
    prodL f g (L ++ M) = comb f (prodL f g L) (prodL f g M) := by
  induction L with
  | nil => rfl
  | cons a L ih =>
    show comb f (some (g a)) (prodL f g (L ++ M)) = comb f (comb f (some (g a)) (prodL f g L)) (prodL f g M)
    rw [ih, comb_assoc f h]

theorem prodL_perm (f : Nat → Nat → Nat) (g : Nat → Nat) (hc : ∀ a b, f a b = f b a) (h : ∀ a b c, f (f a b) c = f a (f b c)) {L M : List Nat}
    (p : L.Perm M) : prodL f g L = prodL f g M := by
  induction p with
  | nil => rfl
  | cons a _ ih => show comb f _ (prodL f g _) = comb f _ (prodL f g _); rw [ih]
  | swap a b L =>
    show comb f _ (comb f _ (prodL f g L)) = comb f _ (comb f _ (prodL f g L))
    rw [← comb_assoc f h, ← comb_assoc f h, comb_comm f hc (some (g b))]
  | trans _ _ ih1 ih2 => exact ih1.trans ih2

theorem redG_prod (f : Nat → Nat → Nat) (g : Nat → Nat) (h : ∀ a b c, f (f a b) c = f a (f b c)) (js : List Nat) :
    ∀ l, some (redG f g js l) = prodL f g (leaves js l) := by
  induction js with
  | nil => intro l; rfl
  | cons j js ih =>
    intro l
    show some (f (redG f g js l) (redG f g js (l ^^^ j))) = prodL f g (leaves js l ++ leaves js (l ^^^ j))
    rw [prodL_append f g h, ← ih, ← ih]
    rfl

theorem prod_range (f : Nat → Nat → Nat) (g : Nat → Nat) (h : ∀ a b c, f (f a b) c = f a (f b c)) (n : Nat) :
    prodL f g (List.range (n + 1)) = some ((List.range n).foldl (fun a i => f a (g (i + 1))) (g 0)) := by
  induction n with
  | zero => rfl
  | succ n ih =>
    rw [List.range_succ, prodL_append f g h, ih, List.range_succ, List.foldl_append]
    rfl

/-- the lanes l + 1 - n to l that exist -/
def seg (n l : Nat) : List Nat := (List.range (min n (l + 1))).map (fun i => l + 1 - min n (l + 1) + i)

theorem seg_step (n l : Nat) : seg (2 * n) l = if n ≤ l then seg n (l - n) ++ seg n l else seg n l := by
  split
  · rename_i h
    unfold seg
    have h1 : min n (l + 1) = n := by omega
    have h2 : min (2 * n) (l + 1) = min n (l - n + 1) + n := by omega
    rw [h1, h2, List.range_add, List.map_append, List.map_map]
    congr 1
    · apply List.map_congr_left
      intro i hi
      rw [List.mem_range] at hi
      omega
    · apply List.map_congr_left
      intro i hi
      simp only [Function.comp]
      omega
  · rename_i h
    unfold seg
    have h1 : min n (l + 1) = l + 1 := by omega
    have h2 : min (2 * n) (l + 1) = l + 1 := by omega
    rw [h1, h2]

theorem scan_step (f : Nat → Nat → Nat) (g G : Nat → Nat) (h : ∀ a b c, f (f a b) c = f a (f b c)) (n : Nat)
    (hG : ∀ l, some (G l) = prodL f g (seg n l)) :
    ((List.range 64).map G).zipIdx.map (fun a => if n ≤ a.2 then f (((List.range 64).map G).getD (a.2 - n) 0) a.1 else a.1) =
      (List.range 64).map (fun l => if n ≤ l then f (G (l - n)) (G l) else G l) ∧
    ∀ l, some (if n ≤ l then f (G (l - n)) (G l) else G l) = prodL f g (seg (2 * n) l) := by
  constructor
  · rw [step_map]
    apply List.map_congr_left
    intro l hl
    rw [List.mem_range] at hl
    dsimp only
    rw [map_getD _ _ (by omega)]
  · intro l
    rw [seg_step]
    split
    · rw [prodL_append f g h, ← hG, ← hG]; rfl
    · exact hG l

end Sys2Proof.Machine
end

