-- ==== Sys2Proof/Laws/ElasticRules.lean ====
section
/-!
SUPPORT. Sequences of elastic arrays, and how a structural operation is offered (R166 to R181).
-/

namespace Sys2Proof.Machine

theorem ea_phase {x : Args} {d : Opnd} {mk : Env → State → Except Trap EaOp} {s : State} {env : Env} {id : Nat} {o : Op} {j : EaJob}
    (ha : env.acting x ≠ 0) (hid : env.pa.offer = some id) (ho : s.ops.find id = some o) (hk : o.kind = .ea j) :
    (j.phase = .offered → eaStruct x d mk env s.tick = .stall s.tick) ∧
    (j.phase = .accepted ∨ (∃ l k, j.phase = .committed l k) → eaStruct x d mk env s.tick = .done s.tick {}) ∧
    (∀ t, j.phase = .refused t → eaStruct x d mk env s.tick = .refuse (s.tick.withdraw env id) t) := by
  have ho2 : s.tick.ops.find id = some o := ho
  refine ⟨fun h => ?_, fun h => ?_, fun t h => ?_⟩
  · unfold eaStruct
    simp only [ha, if_false, hid, ho2, hk, h]
  · unfold eaStruct
    simp only [ha, if_false, hid, ho2, hk]
    rcases h with h | ⟨l, k, h⟩ <;> rw [h] <;> rfl
  · unfold eaStruct
    simp only [ha, if_false, hid, ho2, hk, h]

theorem ea_table {k : Args → Instr} {e : Entry} {d : Args → Opnd} (mk : Args → Env → State → Except Trap EaOp)
    (hk : ∀ x s env, env.acting x ≠ 0 → env.pa.offer.isSome = true → Ready s env e x → ∀ r, eaStruct x (d x) (mk x) env s.tick = r →
      exec (k x) s = (match r with
        | .done t a => .next (t.complete env e x a)
        | .refuse t tr => .next (t.trapHere env tr)
        | .stall t => .next { t with cur := none }
        | _ => exec (k x) s))
    {s : State} {env : Env} {x : Args} {id : Nat} {o : Op} {j : EaJob} (hr : Ready s env e x)
    (ha : env.acting x ≠ 0) (hid : env.pa.offer = some id) (ho : s.ops.find id = some o) (hj : o.kind = .ea j) :
      (j.phase = .offered → exec (k x) s = .next { s.tick with cur := none }) ∧
      (j.phase = .accepted ∨ (∃ l k, j.phase = .committed l k) → exec (k x) s = .next (s.tick.complete env e x {})) ∧
      (∀ t, j.phase = .refused t → exec (k x) s = .next ((s.tick.withdraw env id).trapHere env t)) := by
  obtain ⟨h1, h2, h3⟩ := ea_phase (x := x) (d := d x) (mk := mk x) ha hid ho hj
  have hs : env.pa.offer.isSome = true := by rw [hid]; rfl
  exact ⟨fun h => hk x s env ha hs hr _ (h1 h), fun h => hk x s env ha hs hr _ (h2 h), fun t h => hk x s env ha hs hr _ (h3 t h)⟩

theorem ea_direct {k : Args → Instr} {e : Entry} {d : Args → Opnd} {mk : Args → Env → State → Except Trap EaOp}
    (hk : ∀ x s, exec (k x) s = issue e x (eaStruct x (d x) (mk x)) s) :
    ∀ x s env, env.acting x ≠ 0 → env.pa.offer.isSome = true → Ready s env e x → ∀ r, eaStruct x (d x) (mk x) env s.tick = r →
      exec (k x) s = (match r with
        | .done t a => .next (t.complete env e x a)
        | .refuse t tr => .next (t.trapHere env tr)
        | .stall t => .next { t with cur := none }
        | _ => exec (k x) s) := by
  intro x s env _ _ hr r h
  cases r <;> (try rfl) <;> rw [hk, issue_ready hr, h]

theorem ea_offer {k : Args → Instr} {e : Entry} {x : Args} {d : Opnd} {mk : Env → State → Except Trap EaOp}
    {s : State} {env : Env} {o : EaOp} (hk : exec (k x) s = issue e x (eaStruct x d mk) s) (hr : Ready s env e x) (ha : env.acting x ≠ 0)
    (hn : env.pa.offer = none) (hm : mk env s.tick = .ok o) :
    exec (k x) s = .next { (s.tick.addOp env x (.ea { o := o, phase := .offered, d := d, result := 0, trees := [], writes := [], shoots := [], oldNodes := [], pages := [], leaves := [], freed := none, data := [] })).setPath env.cid env.p { env.pa with offer := some s.nextId } with cur := none } := by
  rw [hk, issue_ready hr]
  unfold eaStruct
  simp only [ha, if_false, hn, hm]
  rfl

theorem ea_read {k : Args → Instr} {e : Entry} {x : Args} {f : Env → State → Nat → Desc → Nat → Nat → Except Trap Nat}
    {s : State} {env : Env} {d : Desc} (v : Nat → Nat) (hk : exec (k x) s = issue e x (eaRead x f) s) (hr : Ready s env e x) (ha : env.acting x ≠ 0)
    (hd : s.tick.openArray env.co.core env.co.ctx (env.co.scalar x.a.num) 0xFF = .ok d)
    (hb : s.tick.eaWaits env.co.core env.cid env.co.ctx (handleArray (env.co.scalar x.a.num)) = false)
    (hv : ∀ l ∈ env.runs x, f env s.tick (handleArray (env.co.scalar x.a.num)) d l (if x.d.isVec then l else 0xFF) = .ok (v l)) :
    exec (k x) s = .next ((s.tick.addOp env x (.land .n64 x.d ((env.runs x).map (fun l => (l, v l))))).complete env e x {}) := by
  rw [hk]
  refine issue_done hr ?_
  unfold eaRead
  simp only [ha, if_false, hd, hb]
  have hm := mapM_ok (fun l => (do
      let v ← f env s.tick (handleArray (env.co.scalar x.a.num)) d l (if x.d.isVec then l else 0xFF)
      pure (l, v) : Except Trap (Nat × Nat))) (fun l => (l, v l)) (env.runs x) (fun l hl => by simp only [hv l hl]; rfl)
  rw [hm]
  rfl

theorem elems_cons (e : EItem) (l : List EItem) : itemElems (e :: l) = itemElems [e] ++ itemElems l := by
  unfold itemElems
  simp only [List.flatMap_cons, List.flatMap_nil, List.append_nil]

theorem elems_append (a b : List EItem) : itemElems (a ++ b) = itemElems a ++ itemElems b := by
  unfold itemElems
  rw [List.flatMap_append]

theorem elems_morts (l : List EItem) : itemElems (l.filter (·.isMort)) = [] := by
  induction l with
  | nil => rfl
  | cons e t ih =>
    rw [List.filter_cons]
    cases e with
    | ext a b c => exact ih
    | mort m => exact ih

theorem itemsLen_eq (l : List EItem) : itemsLen l = (itemElems l).length := by
  have : ∀ (l : List EItem) (n : Nat), l.foldl (fun n e => n + e.count) n = n + (itemElems l).length := by
    intro l
    induction l with
    | nil => intro n; rfl
    | cons e t ih =>
      intro n
      rw [List.foldl_cons, ih, elems_cons, List.length_append]
      cases e with
      | ext a b c => simp [itemElems, EItem.count]; omega
      | mort m => simp [itemElems, EItem.count]
  have h := this l 0
  unfold itemsLen
  omega

theorem cut_elems (l : List EItem) : ∀ r, r ≤ (itemElems l).length →
    itemElems (cutItems l r).1 = (itemElems l).take r ∧ itemElems (cutItems l r).2 = (itemElems l).drop r := by
  induction l with
  | nil => intro r _; simp [cutItems, itemElems]
  | cons e t ih =>
    intro r hr
    cases e with
    | mort m =>
      have h0 : itemElems [EItem.mort m] = [] := rfl
      rw [elems_cons, h0, List.nil_append] at hr ⊢
      obtain ⟨h1, h2⟩ := ih r hr
      refine ⟨?_, h2⟩
      show itemElems (EItem.mort m :: (cutItems t r).1) = _
      rw [elems_cons, h0, List.nil_append, h1]
    | ext a b c =>
      have h0 : ∀ b c, itemElems [EItem.ext a b c] = (List.range c).map (fun i => (a, b + i)) := by
        intro b c; simp [itemElems]
      unfold cutItems
      by_cases hz : r = 0
      · rw [if_pos hz, hz]; simp [itemElems]
      · rw [if_neg hz]
        by_cases hc : r < c
        · rw [if_pos hc]
          rw [elems_cons (EItem.ext a b c), h0, h0]
          have hsplit : (List.range c).map (fun i => (a, b + i)) = (List.range r).map (fun i => (a, b + i)) ++ (List.range (c - r)).map (fun i => (a, b + r + i)) := by
            rw [show c = r + (c - r) by omega, List.range_add, List.map_append, List.map_map]
            congr 1
            rw [show r + (c - r) - r = c - r by omega]
            apply List.map_congr_left
            intro i _
            simp only [Function.comp_apply]
            rw [Nat.add_assoc]
          constructor
          · rw [hsplit, List.append_assoc, List.take_left' (by simp)]
          · rw [hsplit, List.append_assoc, List.drop_left' (by simp), elems_cons, h0]
        · rw [if_neg hc]
          have hlen : (itemElems [EItem.ext a b c]).length = c := by rw [h0]; simp
          rw [elems_cons, List.length_append, hlen] at hr
          obtain ⟨h1, h2⟩ := ih (r - c) (by omega)
          constructor
          · rw [elems_cons, h1, elems_cons (EItem.ext a b c) t, List.take_append, List.take_of_length_le (l := itemElems [EItem.ext a b c]) (by rw [hlen]; omega), hlen]
          · rw [h2, elems_cons (EItem.ext a b c) t, List.drop_append, List.drop_of_length_le (l := itemElems [EItem.ext a b c]) (by rw [hlen]; omega), hlen, List.nil_append]

theorem cut_morts (l : List EItem) : ∀ r, itemMorts (cutItems l r).1 ++ itemMorts (cutItems l r).2 = itemMorts l := by
  unfold itemMorts
  induction l with
  | nil => intro r; rfl
  | cons e t ih =>
    intro r
    cases e with
    | mort m =>
      show List.filter _ (EItem.mort m :: (cutItems t r).1) ++ List.filter _ (cutItems t r).2 = _
      rw [List.filter_cons_of_pos (by rfl), List.filter_cons_of_pos (by rfl), List.cons_append, ih]
    | ext a b c =>
      unfold cutItems
      by_cases hz : r = 0
      · rw [if_pos hz]; rfl
      · rw [if_neg hz]
        by_cases hc : r < c
        · rw [if_pos hc]; rfl
        · rw [if_neg hc]
          show List.filter _ (EItem.ext a b c :: (cutItems t (r - c)).1) ++ List.filter _ (cutItems t (r - c)).2 = _
          rw [List.filter_cons_of_neg (by exact Bool.false_ne_true), List.filter_cons_of_neg (by exact Bool.false_ne_true), ih]

theorem rankOf_elem (l : List EItem) (leaf slot : Nat) : ∀ n k, rankOf l leaf slot n = some k → n ≤ k ∧ (itemElems l)[k - n]? = some (leaf, slot) := by
  induction l with
  | nil => intro n k h; cases h
  | cons e t ih =>
    intro n k h
    cases e with
    | mort m =>
      rw [elems_cons]
      exact ih n k h
    | ext a b c =>
      have h0 : itemElems [EItem.ext a b c] = (List.range c).map (fun i => (a, b + i)) := by simp [itemElems]
      unfold rankOf at h
      rw [elems_cons, h0]
      split at h
      · rename_i hc
        obtain ⟨rfl, h1, h2⟩ := hc
        simp only [Option.some.injEq] at h
        subst h
        refine ⟨by omega, ?_⟩
        rw [List.getElem?_append_left (by simp; omega), List.getElem?_map, List.getElem?_range (by omega)]
        simp only [Option.map_some]
        congr 2
        omega
      · obtain ⟨h1, h2⟩ := ih _ _ h
        refine ⟨by omega, ?_⟩
        rw [List.getElem?_append_right (by simp; omega)]
        simp only [List.length_map, List.length_range]
        rw [show k - n - c = k - (n + c) by omega]
        exact h2

theorem fill_none (l : List EItem) (m : Nat) (new : List EItem) (h : EItem.mort m ∉ l) : fillItems l m new = l := by
  unfold fillItems
  induction l with
  | nil => rfl
  | cons e t ih =>
    rw [List.flatMap_cons, ih (fun h2 => h (List.mem_cons_of_mem _ h2)), if_neg (fun h2 => h (by rw [h2]; exact List.mem_cons_self))]
    rfl

end Sys2Proof.Machine
end

