-- ==== Sys2Proof/Laws/Encoding.lean ====
section
/-!
SUPPORT. Every field of a word is read back as it was written, and written back as it was read (R33 to R51).
-/

namespace Sys2Proof

theorem extract_append_hi {m n : Nat} (x : BitVec m) (y : BitVec n) : (x ++ y).extractLsb' n m = x := by
  apply BitVec.eq_of_getLsbD_eq
  intro i hi
  rw [BitVec.getLsbD_extractLsb', BitVec.getLsbD_append]
  simp [hi]

theorem extract_append_lo {m n k l : Nat} (x : BitVec m) (y : BitVec n) (h : k + l ≤ n) :
    (x ++ y).extractLsb' k l = y.extractLsb' k l := by
  apply BitVec.eq_of_getLsbD_eq
  intro i hi
  rw [BitVec.getLsbD_extractLsb', BitVec.getLsbD_extractLsb', BitVec.getLsbD_append, if_pos (by omega)]

theorem extract_all {n : Nat} (y : BitVec n) : y.extractLsb' 0 n = y := by
  apply BitVec.eq_of_getLsbD_eq
  intro i hi
  rw [BitVec.getLsbD_extractLsb']
  simp [hi]

theorem append_ne_zero {m n : Nat} (x : BitVec m) (y : BitVec n) (h : x ≠ 0) : x ++ y ≠ 0 := by
  intro e
  apply h
  have := extract_append_hi x y
  rw [e] at this
  rw [← this]
  apply BitVec.eq_of_getLsbD_eq
  intro i hi
  simp

/-- Packing the fields of a word and cutting it again gives them back (R33). -/
theorem Raw.ofWord_toWord (r : Raw) : Raw.ofWord r.toWord = r := by
  obtain ⟨op, mod, g, d, a, b, h⟩ := r
  unfold Raw.ofWord Raw.toWord
  simp only [Raw.mk.injEq]
  refine ⟨extract_append_hi _ _, ?_, ?_, ?_, ?_, ?_, ?_⟩
  · rw [extract_append_lo _ _ (by omega)]; exact extract_append_hi _ _
  · rw [extract_append_lo _ _ (by omega), extract_append_lo _ _ (by omega)]; exact extract_append_hi _ _
  · rw [extract_append_lo _ _ (by omega), extract_append_lo _ _ (by omega), extract_append_lo _ _ (by omega)]; exact extract_append_hi _ _
  · rw [extract_append_lo _ _ (by omega), extract_append_lo _ _ (by omega), extract_append_lo _ _ (by omega), extract_append_lo _ _ (by omega)]; exact extract_append_hi _ _
  · rw [extract_append_lo _ _ (by omega), extract_append_lo _ _ (by omega), extract_append_lo _ _ (by omega), extract_append_lo _ _ (by omega), extract_append_lo _ _ (by omega)]; exact extract_append_hi _ _
  · rw [extract_append_lo _ _ (by omega), extract_append_lo _ _ (by omega), extract_append_lo _ _ (by omega), extract_append_lo _ _ (by omega), extract_append_lo _ _ (by omega), extract_append_lo _ _ (by omega)]; exact extract_all _

theorem bit1_bitOf (b : Bool) : bit1 (bitOf b) = b := by cases b <;> rfl

theorem ofCode_code (k : PatKind) : PatKind.ofCode k.code = some k := by cases k <;> rfl

/-- A guard that keeps its rules is read back from its field (R39). -/
theorem parseGuard_encode (s : GuardSpec) (g : Guard) (h : s.broken g = []) : parseGuard (encodeGuard g) = g := by
  cases g with
  | always => rfl
  | on p neg =>
    have hp : p.toNat < 48 := by
      by_contra hn
      simp [GuardSpec.broken, hn] at h
    unfold parseGuard encodeGuard
    have e1 : (bitOf neg ++ p).extractLsb' 0 6 = p := by rw [extract_append_lo _ _ (by omega)]; exact extract_all _
    have e2 : (bitOf neg ++ p).extractLsb' 6 1 = bitOf neg := extract_append_hi _ _
    rw [if_neg]
    · show Guard.on ((bitOf neg ++ p).extractLsb' 0 6) (bit1 ((bitOf neg ++ p).extractLsb' 6 1)) = _
      rw [e1, e2, bit1_bitOf]
    · intro e
      have e : bitOf neg ++ p = 0x3F := e
      rw [e] at e1
      rw [← e1] at hp
      revert hp; decide

theorem parseFlag_encode (f : Option (BitVec 4)) (h : ∀ n, f = some n → n.toNat < 12) : parseFlag (encodeFlag f) = f := by
  cases f with
  | none => rfl
  | some n =>
    have := h n rfl
    unfold parseFlag encodeFlag
    rw [if_neg]
    rintro rfl
    revert this; decide

/-- A hint that keeps its rules and stands where the run admits it is read back, with no rule broken (R41). -/
theorem parseHint_encode (ctx : RunCtx) (isL : Bool) (h : Hint) (hb : h.broken isL = []) (ha : ctx.admits h = true) : parseHint ctx (encodeHint h) = (h, []) := by
  cases h with
  | header bnd wait fa fb =>
    cases ctx with
    | body _ _ => simp [RunCtx.admits] at ha
    | header =>
      have hf : ∀ f, (f = fa ∨ f = fb) → ∀ n, f = some n → n.toNat < 12 := by
        intro f hf n hn
        by_contra h2
        subst hn
        have h3 : 12 ≤ n.toNat := by omega
        rcases hf with rfl | rfl <;> simp [Hint.broken, h3] at hb
      have e1 : (bitOf bnd ++ (wait ++ (encodeFlag fa ++ encodeFlag fb))).extractLsb' 20 1 = bitOf bnd := extract_append_hi _ _
      have e2 : (bitOf bnd ++ (wait ++ (encodeFlag fa ++ encodeFlag fb))).extractLsb' 8 12 = wait := by
        rw [extract_append_lo _ _ (by omega)]; exact extract_append_hi _ _
      have e3 : (bitOf bnd ++ (wait ++ (encodeFlag fa ++ encodeFlag fb))).extractLsb' 4 4 = encodeFlag fa := by
        rw [extract_append_lo _ _ (by omega), extract_append_lo _ _ (by omega)]; exact extract_append_hi _ _
      have e4 : (bitOf bnd ++ (wait ++ (encodeFlag fa ++ encodeFlag fb))).extractLsb' 0 4 = encodeFlag fb := by
        rw [extract_append_lo _ _ (by omega), extract_append_lo _ _ (by omega), extract_append_lo _ _ (by omega)]; exact extract_all _
      unfold parseHint encodeHint
      simp only
      rw [e1, e2, e3, e4, bit1_bitOf, parseFlag_encode fa (hf fa (.inl rfl)), parseFlag_encode fb (hf fb (.inr rfl))]
  | body bnd sel =>
    cases ctx with
    | header => cases sel <;> simp [RunCtx.admits] at ha
    | body fa fb =>
      cases sel <;> cases bnd <;> cases fa <;> cases fb <;> first | rfl | (simp [RunCtx.admits] at ha)

/-- An operand that keeps its field's rules is read back, with no rule broken (R35, R37). -/
theorem parseOpnd_encode (f : FieldSpec) (isD : Bool) (t : Ty) (o : Opnd) (hz : (f.z && f.v) = false) (hb : f.broken isD t o = []) :
    parseOpnd isD f (encodeOpnd o) = (o, []) := by
  cases o with
  | zero =>
    have : f.z = true := by
      by_contra h; simp [FieldSpec.broken, h] at hb
    unfold parseOpnd encodeOpnd
    rw [if_pos (by rw [this]; rfl)]
  | vec r p =>
    have hu : f.unused = false := by
      cases h : f.unused
      · rfl
      · simp [FieldSpec.broken, h] at hb
    have hv : f.v = true := by
      cases h : f.v
      · simp [FieldSpec.broken, hu, h] at hb
      · rfl
    have hz2 : f.z = false := by simpa [hv] using hz
    unfold parseOpnd encodeOpnd
    rw [if_neg (by simp [hz2]), if_neg (by simp [hu])]
    have e0 : ((0 : BitVec 2) ++ (r ++ (p.kind.code ++ (bitOf p.rel ++ (bitOf p.neg ++ p.amt))))).extractLsb' 16 2 = 0 := extract_append_hi _ _
    have e1 : ((0 : BitVec 2) ++ (r ++ (p.kind.code ++ (bitOf p.rel ++ (bitOf p.neg ++ p.amt))))).extractLsb' 10 6 = r := by
      rw [extract_append_lo _ _ (by omega)]; exact extract_append_hi _ _
    have e2 : ((0 : BitVec 2) ++ (r ++ (p.kind.code ++ (bitOf p.rel ++ (bitOf p.neg ++ p.amt))))).extractLsb' 7 3 = p.kind.code := by
      rw [extract_append_lo _ _ (by omega), extract_append_lo _ _ (by omega)]; exact extract_append_hi _ _
    have e3 : ((0 : BitVec 2) ++ (r ++ (p.kind.code ++ (bitOf p.rel ++ (bitOf p.neg ++ p.amt))))).extractLsb' 6 1 = bitOf p.rel := by
      rw [extract_append_lo _ _ (by omega), extract_append_lo _ _ (by omega), extract_append_lo _ _ (by omega)]; exact extract_append_hi _ _
    have e4 : ((0 : BitVec 2) ++ (r ++ (p.kind.code ++ (bitOf p.rel ++ (bitOf p.neg ++ p.amt))))).extractLsb' 5 1 = bitOf p.neg := by
      rw [extract_append_lo _ _ (by omega), extract_append_lo _ _ (by omega), extract_append_lo _ _ (by omega), extract_append_lo _ _ (by omega)]; exact extract_append_hi _ _
    have e5 : ((0 : BitVec 2) ++ (r ++ (p.kind.code ++ (bitOf p.rel ++ (bitOf p.neg ++ p.amt))))).extractLsb' 0 5 = p.amt := by
      rw [extract_append_lo _ _ (by omega), extract_append_lo _ _ (by omega), extract_append_lo _ _ (by omega), extract_append_lo _ _ (by omega), extract_append_lo _ _ (by omega)]; exact extract_all _
    simp only
    rw [e0, e1, e2, e3, e4, e5]
    simp only [bit1_bitOf, ofCode_code]
    rfl
  | reg n =>
    have hu : f.unused = false := by
      cases h : f.unused
      · rfl
      · simp [FieldSpec.broken, h] at hb
    unfold parseOpnd encodeOpnd
    have e0 : ((1 : BitVec 2) ++ (n ++ (0 : BitVec 10))).extractLsb' 16 2 = 1 := extract_append_hi _ _
    have e1 : ((1 : BitVec 2) ++ (n ++ (0 : BitVec 10))).extractLsb' 10 6 = n := by
      rw [extract_append_lo _ _ (by omega)]; exact extract_append_hi _ _
    have e2 : ((1 : BitVec 2) ++ (n ++ (0 : BitVec 10))).extractLsb' 0 10 = 0 := by
      rw [extract_append_lo _ _ (by omega), extract_append_lo _ _ (by omega)]; exact extract_all _
    rw [if_neg (by simp only [Bool.and_eq_true, decide_eq_true_eq, not_and]; intro _; exact append_ne_zero _ _ (by decide)), if_neg (by simp [hu])]
    simp only
    rw [e0, e1, e2]
    simp
  | imm v =>
    have hu : f.unused = false := by
      cases h : f.unused
      · rfl
      · simp [FieldSpec.broken, h] at hb
    unfold parseOpnd encodeOpnd
    have e0 : ((2 : BitVec 2) ++ v).extractLsb' 16 2 = 2 := extract_append_hi _ _
    have e1 : ((2 : BitVec 2) ++ v).extractLsb' 0 16 = v := by
      rw [extract_append_lo _ _ (by omega)]; exact extract_all _
    rw [if_neg (by simp only [Bool.and_eq_true, decide_eq_true_eq, not_and]; intro _; exact append_ne_zero _ _ (by decide)), if_neg (by simp [hu])]
    simp only
    rw [e0, e1]
    simp
  | joined v =>
    have hu : f.unused = false := by
      cases h : f.unused
      · rfl
      · simp only [FieldSpec.unused, Bool.and_eq_true, Bool.not_eq_true'] at h
        simp [FieldSpec.broken, h.2] at hb
    unfold parseOpnd encodeOpnd
    have e0 : ((3 : BitVec 2) ++ v).extractLsb' 16 2 = 3 := extract_append_hi _ _
    have e1 : ((3 : BitVec 2) ++ v).extractLsb' 0 16 = v := by
      rw [extract_append_lo _ _ (by omega)]; exact extract_all _
    rw [if_neg (by simp only [Bool.and_eq_true, decide_eq_true_eq, not_and]; intro _; exact append_ne_zero _ _ (by decide)), if_neg (by simp [hu])]
    simp only
    rw [e0, e1]
    simp

/-- A modifier that an entry lists is read back from its field (R45, R48). -/
theorem mods_parse_encode (s : ModSpec) (m : Mod) (h : s.ok m = true) : s.parse (s.encode m) = some m := by
  cases s with
  | fixed n =>
    cases m <;> simp [ModSpec.ok] at h
    simp [ModSpec.parse, ModSpec.encode]
  | tys l =>
    cases m <;> simp [ModSpec.ok] at h
    rename_i t
    have e : Ty.ofCode t.code = some t := by cases t <;> rfl
    simp only [ModSpec.parse, ModSpec.encode, e, if_pos h]
  | flt l any =>
    cases m <;> simp [ModSpec.ok] at h
    rename_i f r
    have e1 : (f.code ++ r.code).extractLsb' 2 3 = f.code := extract_append_hi _ _
    have e2 : (f.code ++ r.code).extractLsb' 0 2 = r.code := by rw [extract_append_lo _ _ (by omega)]; exact extract_all _
    have e3 : Fmt.ofCode f.code = some f := by cases f <;> rfl
    have e4 : Rnd.ofCode r.code = r := by cases r <;> rfl
    show ModSpec.parse _ (f.code ++ r.code) = _
    simp only [ModSpec.parse, e1, e2, e3, e4]
    rw [if_pos]
    refine ⟨h.1, ?_⟩
    rcases h.2 with h2 | h2
    · exact .inl h2
    · right; rw [h2]; rfl
  | num lo hi =>
    cases m <;> simp [ModSpec.ok] at h
    rename_i n
    show ModSpec.parse _ n = _
    unfold ModSpec.parse
    exact if_pos h
  | scope k =>
    cases m <;> simp [ModSpec.ok] at h
    rename_i c
    have e1 : (k ++ c.code).extractLsb' 3 2 = k := extract_append_hi _ _
    have e2 : (k ++ c.code).extractLsb' 0 3 = c.code := by rw [extract_append_lo _ _ (by omega)]; exact extract_all _
    have e3 : Scope.ofCode c.code = c := by cases c <;> rfl
    show ModSpec.parse _ (k ++ c.code) = _
    simp only [ModSpec.parse, e1, e2, e3, if_true]

/-- The fields of an instruction's word. -/
def rawOf (e : Entry) (x : Args) : Raw :=
  { op := e.op, mod := e.mods.encode x.m, g := encodeGuard x.g, d := encodeOpnd x.d, a := encodeOpnd x.a, b := encodeOpnd x.b, h := encodeHint x.h }

/-- What the decoder reads from the word of well-formed fields under the row that its OP, MOD and B select. -/
theorem decode_row (ctx : RunCtx) (e : Entry) (mk : Args → Instr) (x : Args)
    (hrow : ((classTable e.op).filter (fun p => p.1.op = e.op)).find? (fun p => p.1.selects (rawOf e x)) = some (e, mk))
    (hz : ((e.d.z && e.d.v) || (e.a.z && e.a.v) || (e.b.z && e.b.v)) = false) (hb : e.broken x = []) (ha : ctx.admits x.h = true) :
    decode ctx (rawOf e x).toWord = .ok (mk x) := by
  simp only [Bool.or_eq_false_iff] at hz
  have hb' := hb
  unfold Entry.broken at hb
  simp only [List.append_eq_nil_iff] at hb
  obtain ⟨⟨⟨⟨⟨⟨⟨⟨h1, h2⟩, h3⟩, h4⟩, h5⟩, h6⟩, -⟩, -⟩, -⟩ := hb
  have hm : e.mods.ok x.m = true := by
    by_contra h; simp [h] at h1
  unfold decode
  rw [Raw.ofWord_toWord]
  simp only
  have e1 : (rawOf e x).op = e.op := rfl
  rw [e1, hrow]
  simp only
  have e2 : parseOpnd true e.d (rawOf e x).d = (x.d, []) := parseOpnd_encode e.d _ _ _ hz.1.1 h4
  have e3 : parseOpnd false e.a (rawOf e x).a = (x.a, []) := parseOpnd_encode e.a _ _ _ hz.1.2 h5
  have e4 : parseOpnd false e.b (rawOf e x).b = (x.b, []) := parseOpnd_encode e.b _ _ _ hz.2 h6
  have e5 : parseHint ctx (rawOf e x).h = (x.h, []) := parseHint_encode ctx e.isL _ h3 ha
  have e6 : parseGuard (rawOf e x).g = x.g := parseGuard_encode e.guard _ h2
  have e7 : e.mods.parse (rawOf e x).mod = some x.m := mods_parse_encode _ _ hm
  rw [e2, e3, e4, e5, e6, e7]
  simp only [Option.getD_some, List.nil_append]
  rw [hb']
  rfl

theorem row_single (e : Entry) (mk : Args → Instr) (x : Args) (hf : (classTable e.op).filter (fun p => p.1.op = e.op) = [(e, mk)]) (hs : e.bsel = none)
    (hm : e.mods.ok x.m = true) :
    ((classTable e.op).filter (fun p => p.1.op = e.op)).find? (fun p => p.1.selects (rawOf e x)) = some (e, mk) := by
  rw [hf, List.find?_cons_of_pos]
  show ((e.mods.parse (e.mods.encode x.m)).isSome && _) = true
  rw [mods_parse_encode _ _ hm, hs]
  rfl

theorem modsOk_of {e : Entry} {x : Args} (h : e.broken x = []) : e.mods.ok x.m = true := by
  unfold Entry.broken at h
  simp only [List.append_eq_nil_iff] at h
  by_contra h2
  simp [h2] at h

theorem fence_rows : (classTable 0x10C).filter (fun p => p.1.op = 0x10C) =
    [(Enc.fenceAcq, Instr.fenceAcq), (Enc.fenceRel, Instr.fenceRel), (Enc.fenceAr, Instr.fenceAr), (Enc.fenceSc, Instr.fenceSc)] := rfl

theorem selects_scope (e : Entry) (k j : BitVec 2) (c : Scope) (r : Raw) (hm : e.mods = .scope k) (hs : e.bsel = none) (hr : r.mod = j ++ c.code) :
    e.selects r = decide (j = k) := by
  unfold Entry.selects
  rw [hm, hs, hr]
  have e1 : (j ++ c.code).extractLsb' 3 2 = j := extract_append_hi _ _
  unfold ModSpec.parse
  simp only [e1]
  by_cases h : j = k
  · simp [h]
  · simp [h]

theorem bitOf_bit1 (b : BitVec 1) : bitOf (bit1 b) = b := by
  revert b; decide

theorem code_ofCode (c : BitVec 3) (k : PatKind) (h : PatKind.ofCode c = some k) : k.code = c := by
  revert k; revert c; decide

theorem append_extract {m n : Nat} (w : BitVec (m + n)) : w.extractLsb' n m ++ w.extractLsb' 0 n = w := by
  apply BitVec.eq_of_getLsbD_eq
  intro i hi
  rw [BitVec.getLsbD_append]
  split
  · rename_i h
    rw [BitVec.getLsbD_extractLsb']; simp [h]
  · rename_i h
    rw [BitVec.getLsbD_extractLsb']
    have h2 : i - n < m := by omega
    have h3 : n + (i - n) = i := by omega
    simp [h2, h3]

theorem append_extract' {m n k l : Nat} (w : BitVec k) : w.extractLsb' (n + l) m ++ w.extractLsb' l n = w.extractLsb' l (m + n) := by
  apply BitVec.eq_of_getLsbD_eq
  intro i hi
  rw [BitVec.getLsbD_append]
  split
  · rename_i h
    rw [BitVec.getLsbD_extractLsb', BitVec.getLsbD_extractLsb']
    simp [h, hi]
  · rename_i h
    rw [BitVec.getLsbD_extractLsb', BitVec.getLsbD_extractLsb']
    have h2 : i - n < m := by omega
    have h3 : n + l + (i - n) = l + i := by omega
    simp [h2, h3, hi]

theorem toWord_ofWord (w : BitVec 96) : (Raw.ofWord w).toWord = w := by
  unfold Raw.ofWord Raw.toWord
  simp only
  have e1 := @append_extract' 18 21 96 0 w
  have e2 := @append_extract' 18 39 96 0 w
  have e3 := @append_extract' 18 57 96 0 w
  have e4 := @append_extract' 7 75 96 0 w
  have e5 := @append_extract' 5 82 96 0 w
  have e6 := @append_extract' 9 87 96 0 w
  simp only [Nat.add_zero] at e1 e2 e3 e4 e5 e6
  rw [e1, e2, e3, e4, e5, e6]
  exact extract_all w

theorem encode_parseGuard (w : BitVec 7) : encodeGuard (parseGuard w) = w := by
  unfold parseGuard
  split
  · rename_i h; exact h.symm
  · show bitOf (bit1 _) ++ _ = w
    rw [bitOf_bit1]
    exact append_extract (m := 1) (n := 6) w

theorem encode_parseFlag (w : BitVec 4) : encodeFlag (parseFlag w) = w := by
  unfold parseFlag
  split
  · rename_i h; exact h.symm
  · rfl

theorem encode_parseHint (ctx : RunCtx) (w : BitVec 21) (h : (parseHint ctx w).2 = []) :
    encodeHint (parseHint ctx w).1 = w ∧ ctx.admits (parseHint ctx w).1 = true := by
  cases ctx with
  | header =>
    refine ⟨?_, rfl⟩
    show bitOf (bit1 _) ++ (_ ++ (encodeFlag (parseFlag _) ++ encodeFlag (parseFlag _))) = w
    rw [bitOf_bit1, encode_parseFlag, encode_parseFlag]
    have e1 := @append_extract' 4 4 21 0 w
    have e2 := @append_extract' 12 8 21 0 w
    have e3 := @append_extract' 1 20 21 0 w
    simp only [Nat.add_zero] at e1 e2 e3
    rw [e1, e2, e3]; exact extract_all w
  | body fa fb =>
    have hl : ∀ l, (if w.extractLsb' 0 18 = 0 then [] else [Sub.mbz]) ++ l = ([] : List (BitVec 8)) → w.extractLsb' 0 18 = 0 := by
      intro l h2
      by_contra h3
      rw [if_neg h3] at h2
      cases h2
    have e1 : w.extractLsb' 18 2 ++ w.extractLsb' 0 18 = w.extractLsb' 0 20 := append_extract' (m := 2) (n := 18) (l := 0) w
    have e2 : w.extractLsb' 20 1 ++ w.extractLsb' 0 20 = w := (append_extract' (m := 1) (n := 20) (l := 0) w).trans (extract_all w)
    unfold parseHint at h ⊢
    simp only at h ⊢
    have key : ∀ (s : BitVec 2), s = w.extractLsb' 18 2 → w.extractLsb' 0 18 = 0 → bitOf (bit1 (w.extractLsb' 20 1)) ++ (s ++ (0 : BitVec 18)) = w := by
      intro s h1 h2
      rw [bitOf_bit1, h1]
      rw [h2] at e1
      rw [e1, e2]
    have c : ∀ n : Nat, (hn : n < 4) → (w.extractLsb' 18 2).toNat = n → BitVec.ofNat 2 n = w.extractLsb' 18 2 := by
      intro n hn h1
      rw [← h1, BitVec.ofNat_toNat, BitVec.setWidth_eq]
    split at h
    · rename_i h1
      rw [if_pos h1]
      simp only at h
      exact ⟨key 0 (c 0 (by omega) h1) (hl [] (by rw [List.append_nil]; exact h)), rfl⟩
    · rename_i h0
      split at h
      · rename_i h1
        rw [if_neg h0, if_pos h1]
        simp only at h
        refine ⟨key 1 (c 1 (by omega) h1) (hl _ h), ?_⟩
        cases fa
        · simp at h
        · rfl
      · rename_i h1
        split at h
        · rename_i h2
          rw [if_neg h0, if_neg h1, if_pos h2]
          simp only at h
          refine ⟨key 2 (c 2 (by omega) h2) (hl _ h), ?_⟩
          cases fb
          · simp at h
          · cases fa <;> rfl
        · simp at h

theorem encode_parseOpnd (f : FieldSpec) (isD : Bool) (t : Ty) (w : BitVec 18) (h : (parseOpnd isD f w).2 = [])
    (hb : f.broken isD t (parseOpnd isD f w).1 = []) : encodeOpnd (parseOpnd isD f w).1 = w := by
  have c : ∀ n : Nat, (w.extractLsb' 16 2).toNat = n → BitVec.ofNat 2 n = w.extractLsb' 16 2 := by
    intro n h1
    rw [← h1, BitVec.ofNat_toNat, BitVec.setWidth_eq]
  have e0 : w.extractLsb' 16 2 ++ w.extractLsb' 0 16 = w := (append_extract' (m := 2) (n := 16) (l := 0) w).trans (extract_all w)
  have e1 : w.extractLsb' 10 6 ++ w.extractLsb' 0 10 = w.extractLsb' 0 16 := append_extract' (m := 6) (n := 10) (l := 0) w
  have e2 : w.extractLsb' 7 3 ++ w.extractLsb' 0 7 = w.extractLsb' 0 10 := append_extract' (m := 3) (n := 7) (l := 0) w
  have e3 : w.extractLsb' 6 1 ++ w.extractLsb' 0 6 = w.extractLsb' 0 7 := append_extract' (m := 1) (n := 6) (l := 0) w
  have e4 : w.extractLsb' 5 1 ++ w.extractLsb' 0 5 = w.extractLsb' 0 6 := append_extract' (m := 1) (n := 5) (l := 0) w
  unfold parseOpnd at h hb ⊢
  split at h
  · rename_i h1
    rw [if_pos h1]
    simp only [Bool.and_eq_true, decide_eq_true_eq] at h1
    exact h1.2.symm
  · rename_i h1
    rw [if_neg h1] at hb ⊢
    split at h
    · rename_i h2
      rw [if_pos h2] at hb
      simp [FieldSpec.broken, h2] at hb
    · rename_i h2
      rw [if_neg h2] at hb ⊢
      have hu : f.unused = false := by simpa using h2
      simp only at h hb ⊢
      split at h
      · rename_i h3
        rw [if_pos h3] at hb ⊢
        cases hk : PatKind.ofCode (w.extractLsb' 7 3) with
        | some k =>
          simp only [hk]
          show (0 : BitVec 2) ++ (_ ++ (k.code ++ (bitOf (bit1 _) ++ (bitOf (bit1 _) ++ _)))) = w
          rw [code_ofCode _ _ hk, bitOf_bit1, bitOf_bit1, e4, e3, e2, e1]
          have := c 0 h3
          rw [← this] at e0
          exact e0
        | none =>
          simp only [hk] at h hb
          cases hv : f.v
          · simp [FieldSpec.broken, hu, hv] at hb
          · simp [hv] at h
      · rename_i h3
        rw [if_neg h3] at hb ⊢
        split at h
        · rename_i h4
          rw [if_pos h4] at hb ⊢
          show (1 : BitVec 2) ++ (_ ++ (0 : BitVec 10)) = w
          have hr : f.r = true := by
            cases hr : f.r
            · simp [FieldSpec.broken, hu, hr] at hb
            · rfl
          have h10 : w.extractLsb' 0 10 = 0 := by
            by_contra h10
            rw [if_pos (by rw [hr]; simp only [Bool.true_and, decide_eq_true_eq]; exact h10)] at h
            cases h
          rw [h10] at e1
          rw [e1]
          have := c 1 h4
          rw [← this] at e0
          exact e0
        · rename_i h4
          rw [if_neg h4] at hb ⊢
          split
          · rename_i h5
            have := c 2 h5
            rw [← this] at e0
            exact e0
          · rename_i h5
            have h6 : (w.extractLsb' 16 2).toNat = 3 := by
              have := (w.extractLsb' 16 2).isLt
              omega
            have := c 3 h6
            rw [← this] at e0
            exact e0

theorem fmtcode (c : BitVec 3) : ∀ f, Fmt.ofCode c = some f → f.code = c := by revert c; decide

theorem tycode (c : BitVec 5) : ∀ f, Ty.ofCode c = some f → f.code = c := by revert c; decide

theorem rndcode (c : BitVec 2) : (Rnd.ofCode c).code = c := by revert c; decide

theorem scopecode (c : BitVec 3) : (Scope.ofCode c).code = c := by revert c; decide

theorem encode_parseMod (s : ModSpec) (w : BitVec 5) (m : Mod) (h : s.parse w = some m) : s.encode m = w := by
  cases s with
  | fixed n =>
    unfold ModSpec.parse at h
    simp only at h
    split at h
    · rename_i h2; exact h2.symm
    · cases h
  | tys l =>
    unfold ModSpec.parse at h
    cases hk : Ty.ofCode w with
    | none => simp [hk] at h
    | some t =>
      simp only [hk] at h
      split at h
      · cases h; exact tycode _ _ hk
      · cases h
  | flt l any =>
    unfold ModSpec.parse at h
    cases hk : Fmt.ofCode (w.extractLsb' 2 3) with
    | none => simp [hk] at h
    | some t =>
      simp only [hk] at h
      split at h
      · cases h
        show t.code ++ (Rnd.ofCode _).code = w
        rw [fmtcode _ _ hk, rndcode]
        exact append_extract (m := 3) (n := 2) w
      · cases h
  | num lo hi =>
    unfold ModSpec.parse at h
    simp only at h
    split at h
    · cases h; rfl
    · cases h
  | scope k =>
    unfold ModSpec.parse at h
    simp only at h
    split at h
    · rename_i h2
      cases h
      show k ++ (Scope.ofCode _).code = w
      rw [scopecode, ← h2]
      exact append_extract (m := 2) (n := 3) w
    · cases h

theorem firstBroken_none (l : List (BitVec 8)) (h : firstBroken l = none) : l = [] := by
  cases l with
  | nil => rfl
  | cons a l =>
    unfold firstBroken at h
    split at h <;> cases h

/-- What a row of the tables is, checked row by row. -/
def rowOk (p : Entry × (Args → Instr)) : Prop :=
  (∀ x, (p.2 x).parts = some (p.1, x)) ∧ ((!p.1.d.unused || p.1.d.z) && (!p.1.a.unused || p.1.a.z) && (!p.1.b.unused || p.1.b.z)) = true

theorem rows_ok (op : BitVec 9) : ∀ p ∈ classTable op, rowOk p := by
  have h1 : tableInt.Forall rowOk := by repeat (first | exact ⟨fun _ => rfl, rfl⟩ | refine ⟨⟨fun _ => rfl, rfl⟩, ?_⟩)
  have h2 : tableFlt.Forall rowOk := by repeat (first | exact ⟨fun _ => rfl, rfl⟩ | refine ⟨⟨fun _ => rfl, rfl⟩, ?_⟩)
  have h3 : tablePred.Forall rowOk := by repeat (first | exact ⟨fun _ => rfl, rfl⟩ | refine ⟨⟨fun _ => rfl, rfl⟩, ?_⟩)
  have h4 : tableCtrl.Forall rowOk := by repeat (first | exact ⟨fun _ => rfl, rfl⟩ | refine ⟨⟨fun _ => rfl, rfl⟩, ?_⟩)
  have h5 : tableMem.Forall rowOk := by repeat (first | exact ⟨fun _ => rfl, rfl⟩ | refine ⟨⟨fun _ => rfl, rfl⟩, ?_⟩)
  have h6 : tableEng.Forall rowOk := by repeat (first | exact ⟨fun _ => rfl, rfl⟩ | refine ⟨⟨fun _ => rfl, rfl⟩, ?_⟩)
  have h7 : tableObj.Forall rowOk := by repeat (first | exact ⟨fun _ => rfl, rfl⟩ | refine ⟨⟨fun _ => rfl, rfl⟩, ?_⟩)
  have h8 : tableSys.Forall rowOk := by repeat (first | exact ⟨fun _ => rfl, rfl⟩ | refine ⟨⟨fun _ => rfl, rfl⟩, ?_⟩)
  rw [List.forall_iff_forall_mem] at h1 h2 h3 h4 h5 h6 h7 h8
  unfold classTable
  split <;> assumption

end Sys2Proof
end

