-- ==== Sys2Proof/Laws/FloatRules.lean ====
section
/-!
SUPPORT. Floating-point lane functions, comparisons and predicates (R87 to R94).
-/

namespace Sys2Proof.Machine

theorem pat_of {k : Args → Instr} {e : Entry} {ta tb td : Args → Ty} {f : Args → Nat → Nat → Nat → Nat} (hL : e.isL = false)
    (hx : ∀ x s, exec (k x) s = issue e x (laneOp x (ta x) (tb x) (td x) (f x)) s) : PatRule k e ta tb td f := by
  intro s env x hr h1 h2
  have hex : exec (k x) s = .next ((s.tick.put env (td x) x.d ((env.runs x).map (fun l => (l, f x (s.tick.lane env x (ta x) x.a l)
      (s.tick.lane env x (tb x) x.b l) (s.tick.lane env x (td x) x.d l))))).complete env e x {}) :=
    (hx x s).trans (issue_done hr rfl)
  have := put_spec (x := x) (ty := td x) (e := e) (fun l => f x (s.tick.lane env x (ta x) x.a l) (s.tick.lane env x (tb x) x.b l)
    (s.tick.lane env x (td x) x.d l)) {} (ready_tick hr) hL h1 h2 (container _)
  exact ⟨_, hex, tick_wrote this.1, tick_frame this.2⟩

theorem pred_of {k : Args → Instr} {e : Entry} {f : State → Env → Args → Nat → Bool} (v : State → Env → Args → LaneMask) (hL : e.isL = false)
    (hx : ∀ x s, exec (k x) s = issue e x (fun env s => .ok (s.setPred env.cid x.d.num (env.acting x) (v s env x))) s)
    (hf : ∀ (s : State) env x l, l < 64 → (env.acting x).getLsbD l = true → (v s.tick env x).getLsbD l = f s env x l) : PredRule k e f := by
  intro s env x hr
  have hex : exec (k x) s = .next ((s.tick.setPred env.cid x.d.num (env.acting x) (v s.tick env x)).complete env e x {}) :=
    (hx x s).trans (issue_done hr rfl)
  obtain ⟨⟨c, hc, h1⟩, h2⟩ := pred_spec (s := s.tick) (x := x) (e := e) x.d.num (v s.tick env x) {} (ready_tick hr) hL
  refine ⟨_, hex, ⟨c, hc, fun l hl => ?_⟩, h2⟩
  rw [h1 l hl]
  by_cases ha : (env.acting x).getLsbD l
  · rw [if_pos ha, if_pos ha]; exact hf s env x l hl ha
  · rw [if_neg ha, if_neg ha]

theorem and_ne_zero {C q : LaneMask} : (C &&& q ≠ 0) ↔ ∃ l ∈ lanesOf C, q.getLsbD l = true := by
  constructor
  · intro h
    by_contra h2
    apply h
    apply BitVec.eq_of_getLsbD_eq
    intro i hi
    rw [BitVec.getLsbD_and]
    by_cases hc : C.getLsbD i
    · have : ¬ q.getLsbD i = true := fun hq => h2 ⟨i, mem_lanesOf.mpr ⟨hi, hc⟩, hq⟩
      simp [this]
    · simp [hc]
  · rintro ⟨l, hl, hq⟩ h
    have := congrArg (fun m => m.getLsbD l) h
    simp [(mem_lanesOf.mp hl).2, hq] at this

theorem and_eq_self {C q : LaneMask} : (C &&& q = C) ↔ ∀ l ∈ lanesOf C, q.getLsbD l = true := by
  constructor
  · intro h l hl
    have := congrArg (fun m => m.getLsbD l) h
    simpa [(mem_lanesOf.mp hl).2] using this
  · intro h
    apply BitVec.eq_of_getLsbD_eq
    intro i hi
    rw [BitVec.getLsbD_and]
    by_cases hc : C.getLsbD i
    · simp [h i (mem_lanesOf.mpr ⟨hi, hc⟩)]
    · simp [hc]

theorem cmp_facts : ∀ (a b : Int), (compare a b == .eq) = decide (a = b) ∧ (compare a b != .eq) = decide (a ≠ b) ∧ (compare a b == .lt) = decide (a < b) ∧
    (compare a b != .gt) = decide (a ≤ b) ∧ (compare a b == .gt) = decide (b < a) ∧ (compare a b != .lt) = decide (b ≤ a) := by
  intro a b
  rcases lt_trichotomy a b with h | h | h
  · have : compare a b = .lt := compare_lt_iff_lt.mpr h
    rw [this]; refine ⟨?_, ?_, ?_, ?_, ?_, ?_⟩ <;> first | (simp; omega) | (symm; simp; omega) | (show true = decide _; symm; rw [decide_eq_true_iff]; omega) | (show false = decide _; symm; rw [decide_eq_false_iff_not]; omega)
  · have : compare a b = .eq := compare_eq_iff_eq.mpr h
    rw [this]; refine ⟨?_, ?_, ?_, ?_, ?_, ?_⟩ <;> first | (simp; omega) | (symm; simp; omega) | (show true = decide _; symm; rw [decide_eq_true_iff]; omega) | (show false = decide _; symm; rw [decide_eq_false_iff_not]; omega)
  · have : compare a b = .gt := compare_gt_iff_gt.mpr h
    rw [this]; refine ⟨?_, ?_, ?_, ?_, ?_, ?_⟩ <;> first | (simp; omega) | (symm; simp; omega) | (show true = decide _; symm; rw [decide_eq_true_iff]; omega) | (show false = decide _; symm; rw [decide_eq_false_iff_not]; omega)

theorem setp_of (k : Args → Instr) (e : Entry) (c : Cond) (g : Int → Int → Bool) (hL : e.isL = false)
    (hx : ∀ x s, exec (k x) s = issue e x (setpOp x c) s) (hg : ∀ a b : Int, c.onOrder (compare a b) = g a b) :
    PredRule k e (fun s env x l =>
      let t := x.m.tyD
      match t.fmt? with
      | none => g (intOf t (s.bitsOf env x t x.a l)) (intOf t (s.bitsOf env x t x.b l))
      | some f =>
        let a := f.decode (s.lane env x t x.a l)
        let b := f.decode (s.lane env x t x.b l)
        if a.isNan || b.isNan then c == .ne || c == .un else c.onOrder (FVal.cmp a b)) := by
  have key : ∀ (c : Cond) (g : Int → Int → Bool) (s : State) (env : Env) (x : Args) (l : Nat),
      (∀ a b : Int, c.onOrder (compare a b) = g a b) →
      c.holds x.m.tyD (s.tick.lane env x x.m.tyD x.a l) (s.tick.lane env x x.m.tyD x.b l) =
        (match x.m.tyD.fmt? with
        | none => g (intOf x.m.tyD (s.bitsOf env x x.m.tyD x.a l)) (intOf x.m.tyD (s.bitsOf env x x.m.tyD x.b l))
        | some f =>
          if (f.decode (s.lane env x x.m.tyD x.a l)).isNan || (f.decode (s.lane env x x.m.tyD x.b l)).isNan then c == .ne || c == .un
          else c.onOrder (FVal.cmp (f.decode (s.lane env x x.m.tyD x.a l)) (f.decode (s.lane env x x.m.tyD x.b l)))) := by
    intro c g s env x l hc
    unfold Cond.holds
    cases hf : x.m.tyD.fmt? with
    | none =>
      dsimp only
      rw [hc, val_eq, val_eq]
      rfl
    | some f => rfl
  refine pred_of (fun s env x => maskOf (fun l => (env.acting x).getLsbD l && c.holds x.m.tyD (s.lane env x x.m.tyD x.a l) (s.lane env x x.m.tyD x.b l))) hL hx (fun s env x l hl ha => ?_)
  rw [getLsbD_maskOf]
  simp only [hl, ha, decide_true, Bool.true_and]
  exact key c g s env x l hg

theorem pmov_body (x : Args) (s : State) : exec (.pmov x) s = issue Enc.pmov x (fun env s => .ok (s.setPred env.cid x.d.num (env.acting x)
    (match x.a, x.b with
      | .imm v, _ => if v.getLsbD 0 then BitVec.allOnes 64 else 0
      | a, .zero => env.co.pred a.num
      | a, _ => env.co.scalar a.num))) s := by
  show execPmov x s = _
  unfold execPmov
  congr 1

theorem allOnes_bit (l : Nat) (h : l < 64) : (18446744073709551615#64).getLsbD l = true := by
  have := BitVec.getLsbD_allOnes (v := 64) (i := l)
  simpa [h] using this

end Sys2Proof.Machine
end

