-- ==== Sys2Proof/Laws/FrameRules.lean ====
section
/-!
SUPPORT. Plans of window moves and slices, copies and their checks, and blocks that an instruction may read (R110, R118, R214, R333).
-/

namespace Sys2Proof.Machine

/-- Rows whose pages take the access (R110, R129). -/
theorem rowsOk_ok {s : State} {c : Course} {rows : List Int} {w : Bool}
    (h : ∀ L ∈ rows, 0 ≤ L ∧ (s.privAt c (spillOff L.toNat) 256 w).isOk = true) :
    s.rowsOk c rows w = .ok (rows.map (fun L => ((s.privAt c (spillOff L.toNat) 256 w).toOption.getD 0, 256))) := by
  unfold State.rowsOk
  refine mapM_ok _ (fun (L : Int) => ((s.privAt c (spillOff L.toNat) 256 w).toOption.getD 0, 256)) _ (fun L hL => ?_)
  obtain ⟨h1, h2⟩ := h L hL
  obtain ⟨a, ha⟩ := isOk_ok h2
  rw [if_neg (by omega), ha]
  rfl

theorem cutPlan_of_run {s : State} {cid p id ovl idx : Nat} {q : Path} {d : BitVec 6} {c : Course} (hc : s.courses.find cid = some c)
    (h : (s.cutRun cid p q d id ovl idx).isOk = true) : ∃ pl, s.cutPlan c q id = .ok pl := by
  unfold State.cutRun at h
  simp only [hc] at h
  cases hp : s.cutPlan c q id with
  | ok pl => exact ⟨pl, rfl⟩
  | error t => rw [hp] at h; cases h

/-- A range passes its checks exactly when they find no trap (R214, R215). -/
theorem copyCheck_none {s : State} {env : Env} {a : Word} {n : Nat} {w : Bool} :
    s.copyCheck env.co.core env.co.ctx (some env.co) a n w = none ↔ s.copyRange env a n w := by
  unfold State.copyCheck State.copyRange
  by_cases hs : isScratchAddr a = true
  · simp only [hs, if_true]
    cases h : s.scratch env.co.ctx a with
    | none => simp
    | some r =>
      by_cases hn : n ≤ r.2
      · simp [hn]
      · simp [hn]
  · simp only [hs, if_false, Bool.false_eq_true]
    cases h : s.translate env.co.core env.co.ctx a.toNat none w with
    | error e => simp [Except.isOk, Except.toBool]
    | ok r => simp [Except.isOk, Except.toBool]

theorem copyTrap_none {s : State} {env : Env} {c : Copy} :
    s.copyTrap env.co.core env.co.ctx (some env.co) c = none ↔
      s.copyRange env c.dst (spanOf c.rows c.len c.dpitch) true ∧ s.copyRange env c.src (spanOf c.rows c.len c.spitch) false := by
  rw [← copyCheck_none, ← copyCheck_none]
  unfold State.copyTrap
  cases s.copyCheck env.co.core env.co.ctx (some env.co) c.dst (spanOf c.rows c.len c.dpitch) true <;>
    cases s.copyCheck env.co.core env.co.ctx (some env.co) c.src (spanOf c.rows c.len c.spitch) false <;> simp

/-- What a block that may be read leads to (R333). -/
theorem awaitBlock_open {s : State} {env : Env} {va : Nat} (h : s.blockOpen env va) (k : Res) : awaitBlock va 64 env s k = k := by
  unfold awaitBlock
  rw [isOk_getD h.2.1 []]
  simp only [h.2.2.1, if_true]

end Sys2Proof.Machine
end

