-- ==== Sys2Proof/Laws/IntRules.lean ====
section
/-!
SUPPORT. Integer and bit-field lane functions as operations on bit vectors (R85).
-/

namespace Sys2Proof.Machine

theorem toNat_of {n a : Nat} (h : a < 2 ^ n) : (BitVec.ofNat n a).toNat = a := by rw [BitVec.toNat_ofNat]; exact Nat.mod_eq_of_lt h

theorem rule_int {k : Args → Instr} {e : Entry} {f : LaneFun} (g : Args → Int → Int → Int) (hL : e.isL = false)
    (hx : ∀ x s, exec (k x) s = issue e x (intOp x (g x)) s)
    (hty : ∀ x : Args, e.broken x = [] → x.m.tyD.fmt? = none ∧ 8 ≤ x.m.tyD.bits)
    (hg : ∀ x : Args, ∀ (a b d : BitVec x.m.tyD.bits),
      BitVec.ofInt _ (g x (intOf x.m.tyD a) (intOf x.m.tyD b)) = f x.m.tyD a b d) : LaneRule k e f := by
  refine rule_of (fun x n a b _ => wrap n (g x (x.m.tyD.val a) (x.m.tyD.val b))) hL hx hty ?_
  intro x a b d t h8 ha hb hd
  show wrap t.bits (g x (t.val a) (t.val b)) = _
  rw [wrap_eq, ← hg, val_eq, val_eq]

theorem ofInt_intOf (t : Ty) (a : BitVec t.bits) : BitVec.ofInt t.bits (intOf t a) = a := by
  unfold intOf
  split
  · simp
  · simp

theorem rule_pat {k : Args → Instr} {e : Entry} {f : LaneFun} (g : Args → Nat → Nat → Nat → Nat → Nat) (hL : e.isL = false)
    (hx : ∀ x s, exec (k x) s = issue e x (patOp x (g x)) s)
    (hty : ∀ x : Args, e.broken x = [] → x.m.tyD.fmt? = none ∧ 8 ≤ x.m.tyD.bits)
    (hg : ∀ x : Args, ∀ (a b d : BitVec x.m.tyD.bits), 8 ≤ x.m.tyD.bits →
      g x x.m.tyD.bits a.toNat b.toNat d.toNat = (f x.m.tyD a b d).toNat) : LaneRule k e f := by
  refine rule_of g hL hx hty ?_
  intro x a b d t h8 ha hb hd
  have := hg x (BitVec.ofNat _ a) (BitVec.ofNat _ b) (BitVec.ofNat _ d) h8
  rw [toNat_of ha, toNat_of hb, toNat_of hd] at this
  exact this

theorem minI_le (t : Ty) : t.minI ≤ t.maxI := by cases t <;> decide

theorem sat_eq (t : Ty) (z : Int) : t.sat z = max t.minI (min t.maxI z) := by
  have := minI_le t
  unfold Ty.sat
  split
  · omega
  · split <;> omega

theorem intOf_neg (t : Ty) (a : BitVec t.bits) : BitVec.ofInt t.bits (-(intOf t a)) = -a := by
  rw [BitVec.ofInt_neg, ofInt_intOf]

theorem intOf_zero (t : Ty) (b : BitVec t.bits) : intOf t b = 0 ↔ b = 0 := by
  constructor
  · intro h
    rw [← ofInt_intOf t b, h]; simp
  · rintro rfl
    unfold intOf
    split <;> simp

theorem ofInt_allOnes (t : Ty) : BitVec.ofInt t.bits (if t.signed then -1 else t.maxI) = BitVec.allOnes t.bits := by
  cases t <;> decide

theorem minI_eq (t : Ty) (h : t.signed = true) : t.minI = -(2 ^ (t.bits - 1) : Int) := by
  unfold Ty.minI; rw [if_pos h]; push_cast; rfl

theorem sdiv_ofInt {n : Nat} (a b : BitVec n) : BitVec.ofInt n (a.toInt.tdiv b.toInt) = a.sdiv b := by
  apply BitVec.eq_of_toInt_eq
  rw [BitVec.toInt_ofInt, BitVec.toInt_sdiv]

theorem div_eq (t : Ty) (a b : BitVec t.bits) : BitVec.ofInt t.bits (divR85 t (intOf t a) (intOf t b)) =
    if b = 0 then BitVec.allOnes t.bits else if t.signed then a.sdiv b else a / b := by
  unfold divR85
  by_cases hb : b = 0
  · rw [if_pos ((intOf_zero t b).mpr hb), if_pos hb, ofInt_allOnes]
  · rw [if_neg (fun h => hb ((intOf_zero t b).mp h)), if_neg hb]
    cases hs : t.signed
    · simp only [Bool.false_eq_true, false_and, if_false]
      unfold intOf
      simp only [hs, Bool.false_eq_true, if_false]
      rw [← Int.ofNat_tdiv, BitVec.ofInt_natCast]
      apply BitVec.eq_of_toNat_eq
      rw [BitVec.toNat_udiv, BitVec.toNat_ofNat]
      exact Nat.mod_eq_of_lt (lt_of_le_of_lt (Nat.div_le_self _ _) a.isLt)
    · simp only [true_and, if_true]
      unfold intOf
      simp only [hs, if_true]
      split
      · rename_i h
        rw [← sdiv_ofInt, h.1, h.2]
        have h1 : t.minI.tdiv (-1) = t.minI + (2 ^ t.bits : Nat) := by
          rw [minI_eq t hs]
          cases t <;> simp [Ty.signed] at hs <;> decide
        rw [h1]
        apply BitVec.eq_of_toNat_eq
        simp [BitVec.toNat_ofInt]
      · exact sdiv_ofInt a b

theorem rem_eq (t : Ty) (a b : BitVec t.bits) : BitVec.ofInt t.bits (remR85 t (intOf t a) (intOf t b)) =
    if b = 0 then a else if t.signed then a.srem b else a % b := by
  unfold remR85
  by_cases hb : b = 0
  · rw [if_pos ((intOf_zero t b).mpr hb), if_pos hb, ofInt_intOf]
  · rw [if_neg (fun h => hb ((intOf_zero t b).mp h)), if_neg hb]
    have hz : ¬ intOf t b = 0 := fun h => hb ((intOf_zero t b).mp h)
    unfold divR85
    rw [if_neg hz]
    cases hs : t.signed
    · simp only [Bool.false_eq_true, false_and, if_false]
      unfold intOf
      simp only [hs, Bool.false_eq_true, if_false]
      have h1 : ((a.toNat : Int) - b.toNat * (a.toNat : Int).tdiv b.toNat) = ((a.toNat % b.toNat : Nat) : Int) := by
        have := Int.mul_tdiv_add_tmod (a.toNat : Int) b.toNat
        rw [← Int.ofNat_tmod] at this
        omega
      rw [h1, BitVec.ofInt_natCast]
      apply BitVec.eq_of_toNat_eq
      rw [BitVec.toNat_umod, BitVec.toNat_ofNat]
      exact Nat.mod_eq_of_lt (lt_of_le_of_lt (Nat.mod_le _ _) a.isLt)
    · simp only [true_and, if_true]
      unfold intOf
      simp only [hs, if_true]
      apply BitVec.eq_of_toInt_eq
      rw [BitVec.toInt_srem]
      split
      · rename_i h
        rw [h.1, h.2]
        simp
      · have := Int.mul_tdiv_add_tmod a.toInt b.toInt
        have h1 : a.toInt - b.toInt * a.toInt.tdiv b.toInt = a.toInt.tmod b.toInt := by omega
        rw [h1, ← BitVec.toInt_srem, BitVec.ofInt_toInt]

theorem nbit_eq (a i : Nat) : nbit a i = a.testBit i := by
  unfold nbit
  rw [Nat.testBit_eq_decide_div_mod_eq, Nat.shiftRight_eq_div_pow]
  rfl

theorem b8 (b : Nat) : bits b 0 8 = b % 256 := by unfold bits; simp

theorem b88 (b : Nat) : bits b 8 8 = b / 256 % 256 := by unfold bits; rw [Nat.shiftRight_eq_div_pow]; rfl

theorem setBits_testBit (n lo w v i : Nat) : (setBits n lo w v).testBit i =
    if i < lo then n.testBit i else if i < lo + w then v.testBit (i - lo) else n.testBit i := by
  have h : setBits n lo w v = 2 ^ lo * (2 ^ w * (n >>> (lo + w)) + v % 2 ^ w) + n % 2 ^ lo := by
    unfold setBits
    simp only [Nat.shiftLeft_eq]
    rw [Nat.mul_add, ← Nat.mul_assoc, ← Nat.pow_add]
    ring
  rw [h, Nat.testBit_two_pow_mul_add _ (Nat.mod_lt _ (Nat.two_pow_pos _))]
  split
  · rename_i hi
    rw [Nat.testBit_mod_two_pow]; simp [hi]
  · rename_i hi
    rw [Nat.testBit_two_pow_mul_add _ (Nat.mod_lt _ (Nat.two_pow_pos _))]
    by_cases h2 : i < lo + w
    · have : i - lo < w := by omega
      rw [if_pos this, if_pos h2, Nat.testBit_mod_two_pow]; simp [this]
    · have : ¬ i - lo < w := by omega
      rw [if_neg this, if_neg h2, Nat.testBit_shiftRight]
      congr 1; omega

theorem brev_testBit (a n : Nat) : ∀ i, ((List.range n).foldl (fun r i => 2 * r + (if nbit a i then 1 else 0)) 0).testBit i =
    (decide (i < n) && a.testBit (n - 1 - i)) := by
  induction n with
  | zero => simp
  | succ n ih =>
    intro i
    rw [List.range_succ, List.foldl_append]
    simp only [List.foldl_cons, List.foldl_nil]
    generalize (List.range n).foldl (fun r i => 2 * r + (if nbit a i then 1 else 0)) 0 = r at ih
    have h1 : (if nbit a n = true then 1 else 0) < 2 ^ 1 := by split <;> decide
    have h2 := Nat.testBit_two_pow_mul_add r h1 i
    rw [Nat.pow_one] at h2
    rw [h2]
    cases i with
    | zero =>
      simp only [Nat.zero_lt_one, if_true]
      rw [nbit_eq]
      cases h3 : a.testBit n <;> simp [h3]
    | succ i =>
      simp only [Nat.add_sub_cancel]
      rw [if_neg (by omega), ih i]
      have : n + 1 - 1 - (i + 1) = n - 1 - i := by omega
      rw [show n - (i + 1) = n - 1 - i by omega]
      simp

theorem brev_eq {n : Nat} (a : BitVec n) : bitReverse n a.toNat = a.reverse.toNat := by
  apply Nat.eq_of_testBit_eq
  intro i
  unfold bitReverse
  rw [brev_testBit]
  rw [← BitVec.getLsbD, ← BitVec.getLsbD, BitVec.getLsbD_reverse, BitVec.getMsbD]

theorem popc_eq {n : Nat} (a : BitVec n) (h : 8 ≤ n) : popCount n a.toNat =
    (BitVec.ofNat n ((List.range n).countP (fun i => a.getLsbD i))).toNat := by
  unfold popCount
  have h1 : (nbit a.toNat) = fun i => a.getLsbD i := by funext i; rw [nbit_eq]; rfl
  rw [h1, BitVec.toNat_ofNat, Nat.mod_eq_of_lt, List.countP_eq_length_filter]
  have := List.countP_le_length (p := fun i => a.getLsbD i) (l := List.range n)
  rw [List.length_range] at this
  exact lt_of_le_of_lt this Nat.lt_two_pow_self

theorem clz_eq {n : Nat} (a : BitVec n) (h8 : 8 ≤ n) : leadingZeros n a.toNat =
    (BitVec.ofNat n (((List.range n).find? (fun i => a.getMsbD i)).getD n)).toNat := by
  have hm : a.toNat % 2 ^ n = a.toNat := Nat.mod_eq_of_lt a.isLt
  unfold leadingZeros
  rw [hm]
  have hn : n < 2 ^ n := Nat.lt_two_pow_self
  split
  · rename_i h
    have h0 : a = 0#n := BitVec.eq_of_toNat_eq (by simpa using h)
    have : (List.range n).find? (fun i => a.getMsbD i) = none := by
      rw [List.find?_eq_none]; intro i _; simp [h0]
    rw [this, Option.getD_none, BitVec.toNat_ofNat, Nat.mod_eq_of_lt hn]
  · rename_i h
    have hk : Nat.log2 a.toNat < n := (Nat.log2_lt h).mpr a.isLt
    have : (List.range n).find? (fun i => a.getMsbD i) = some (n - 1 - Nat.log2 a.toNat) := by
      rw [List.find?_range_eq_some]
      refine ⟨?_, by simp; omega, ?_⟩
      · rw [BitVec.getMsbD]
        have h1 : n - 1 - (n - 1 - Nat.log2 a.toNat) = Nat.log2 a.toNat := by omega
        rw [h1]
        simp only [Bool.and_eq_true, decide_eq_true_eq]
        exact ⟨by omega, Nat.testBit_log2 h⟩
      · intro j hj
        rw [BitVec.getMsbD, BitVec.getLsbD, Nat.testBit_lt_two_pow]
        · simp
        · exact (Nat.log2_lt h).mp (by omega)
    rw [this, Option.getD_some, BitVec.toNat_ofNat, Nat.mod_eq_of_lt]
    omega

theorem bfx_eq (t : Ty) (a b : BitVec t.bits) : bitExtract t a.toNat b.toNat =
    (let pos := b.toNat % 256
     let len := min (b.toNat / 256 % 256) (t.bits - pos)
     if t.signed then ((a >>> pos).setWidth len).signExtend t.bits else ((a >>> pos).setWidth len).setWidth t.bits).toNat := by
  unfold bitExtract
  rw [b8, b88]
  generalize b.toNat % 256 = pos
  generalize b.toNat / 256 % 256 = len0
  simp only
  have hz : ∀ (w : Nat) (_ : w = 0) (y : BitVec w), (y.signExtend t.bits).toNat = 0 ∧ (y.setWidth t.bits).toNat = 0 := by
    rintro w rfl y
    rw [BitVec.of_length_zero (x := y)]
    refine ⟨?_, by simp⟩
    have : BitVec.signExtend t.bits 0#0 = 0#t.bits := by
      apply BitVec.eq_of_toInt_eq
      simp [BitVec.signExtend]
    rw [this]; simp
  split
  · rename_i h
    have h0 : min len0 (t.bits - pos) = 0 := by omega
    have := hz _ h0 ((a >>> pos).setWidth (min len0 (t.bits - pos)))
    split
    · exact this.1.symm
    · exact this.2.symm
  · rename_i h
    have hl : 0 < min len0 (t.bits - pos) := by omega
    have hle : min len0 (t.bits - pos) ≤ t.bits := by omega
    generalize min len0 (t.bits - pos) = len at hl hle
    have hb : bits a.toNat pos len = ((a >>> pos).setWidth len).toNat := by
      unfold bits
      rw [BitVec.toNat_setWidth, BitVec.toNat_ushiftRight]
    split
    · unfold signExt
      rw [wrap_eq, toInt_eq _ _ hl, hb, BitVec.ofNat_toNat, BitVec.setWidth_eq]
      rfl
    · rw [hb]
      simp only [BitVec.toNat_setWidth]
      exact (Nat.mod_eq_of_lt (lt_of_lt_of_le (Nat.mod_lt _ (Nat.two_pow_pos _)) (Nat.pow_le_pow_right (by omega) hle))).symm

theorem bfi_eq (n : Nat) (a b d : BitVec n) : bitInsert n d.toNat a.toNat b.toNat =
    (let pos := b.toNat % 256
     let len := min (b.toNat / 256 % 256) (n - pos)
     let mask := ((BitVec.allOnes len).setWidth n) <<< pos
     (d &&& ~~~mask) ||| ((a <<< pos) &&& mask)).toNat := by
  unfold bitInsert
  rw [b8, b88]
  generalize b.toNat % 256 = pos
  generalize b.toNat / 256 % 256 = len0
  simp only
  apply Nat.eq_of_testBit_eq
  intro i
  have hr : ∀ len : Nat, ((d &&& ~~~(((BitVec.allOnes len).setWidth n) <<< pos)) ||| ((a <<< pos) &&& (((BitVec.allOnes len).setWidth n) <<< pos))).toNat.testBit i =
      (if pos ≤ i ∧ i < pos + len ∧ i < n then a.toNat.testBit (i - pos) else d.toNat.testBit i) := by
    intro len
    rw [← BitVec.getLsbD, ← BitVec.getLsbD, ← BitVec.getLsbD]
    simp only [BitVec.getLsbD_or, BitVec.getLsbD_and, BitVec.getLsbD_not, BitVec.getLsbD_shiftLeft, BitVec.getLsbD_setWidth,
      BitVec.getLsbD_allOnes]
    by_cases h1 : i < n
    · by_cases h2 : i < pos
      · have : ¬ pos ≤ i := by omega
        simp [h1, h2, this]
      · by_cases h3 : i < pos + len
        · have h4 : i - pos < len := by omega
          have h5 : i - pos < n := by omega
          have h6 : pos ≤ i := by omega
          simp [h1, h2, h3, h4, h5, h6]
        · have h4 : ¬ i - pos < len := by omega
          simp [h1, h2, h3, h4]
    · have h7 : d.getLsbD i = false := BitVec.getLsbD_of_ge _ _ (by omega)
      simp [h1, h7]
  rw [hr]
  split
  · rename_i h
    rw [if_neg (by omega)]
  · rename_i h
    rw [setBits_testBit]
    by_cases h1 : i < pos
    · rw [if_pos h1, if_neg (by omega)]
    · rw [if_neg h1]
      by_cases h2 : i < pos + min len0 (n - pos)
      · rw [if_pos h2, if_pos (by omega)]
      · rw [if_neg h2, if_neg (by omega)]

theorem rol_eq {n : Nat} (a : BitVec n) (k : Nat) : rotl n a.toNat k = (a.rotateLeft k).toNat := by
  unfold rotl
  rw [BitVec.toNat_rotateLeft, Nat.or_mod_two_pow]
  congr 1
  exact Nat.mod_eq_of_lt (lt_of_le_of_lt (Nat.shiftRight_le _ _) a.isLt)

theorem extend_mod (t : Ty) (cw n : Nat) : t.extend cw (n % 2 ^ t.bits) = t.extend cw n := by
  unfold Ty.extend signExt toInt
  rw [Nat.mod_mod]

theorem rule_mov : LaneRule Instr.mov Enc.mov (fun _ a _ _ => a) := by
  intro s env x hr hb h1 h2 t
  have hex : exec (.mov x) s = .next ((s.tick.put env x.m.tyD x.d ((env.runs x).map (fun l => (l, s.tick.lane env x x.m.tyD x.a l)))).complete env Enc.mov x {}) :=
    issue_done (body := patOp x (fun _ a _ _ => a)) hr rfl
  refine ⟨_, hex, ?_⟩
  have := put_spec (x := x) (ty := x.m.tyD) (e := Enc.mov) (fun l => s.tick.lane env x x.m.tyD x.a l) {} (ready_tick hr) rfl h1 h2 (container _)
  refine ⟨?_, tick_frame this.2⟩
  refine wrote_congr (fun l => ?_) (fun l => ?_) (tick_wrote this.1)
  · dsimp only; unfold State.bitsOf; rw [BitVec.toNat_ofNat, extend_mod]; rfl
  · dsimp only; unfold State.bitsOf; rw [BitVec.toNat_ofNat, extend_mod]; rfl

end Sys2Proof.Machine
end

