-- ==== Sys2Proof/Laws/MatrixRules.lean ====
section
/-!
SUPPORT. How a matrix instruction is queued, and what a step writes into its tile (R185, R199 to R201).
-/

namespace Sys2Proof.Machine

theorem mat_start {i : Args → Instr} {e : Entry} {kind : MatKind} (hk : ∀ x s, exec (i x) s = issue e x (matOp x kind) s)
    {s : State} {env : Env} {x : Args} (ha : env.acting x ≠ 0) (ta tb : Ty) (kstep : Nat) (hr : Ready s env e x)
    (hf : kind.formats = some (ta, tb, kstep)) (hb : bits (env.co.scalar x.b.num).toNat 10 35 = 0) :
    let queued (m : Mat) (locks : List (Nat × Nat × Bool)) : State :=
      (((s.tick.addOp env x (.mat m)).lockRanges s.nextId false locks).modCourse env.cid (fun c => { c with mq := c.mq ++ [s.nextId] }))
    let key := env.tileKey x.d
    let w := WRef.of (env.co.scalar x.b.num)
    let h := Shape.of (env.co.shape x.a.num)
    let ng := if w.group = 0 then 0 else h.cols / w.group
    let bad := matField (s.tick.holdsTile env.cid key) kind ta tb h w
    (bad = true → exec (i x) s = .next (s.tick.trapHere env Trap.field)) ∧
    (bad = false → s.tick.matScr env.co kind ta tb h w = true → exec (i x) s = .next (s.tick.trapHere env (Trap.page Sub.scr 0xFF 0 0))) ∧
    (bad = false → s.tick.matScr env.co kind ta tb h w = false → groupBad env s.tick w.vs ng = false → groupBad env s.tick w.vz ng = false →
      (8 ≤ env.co.mq.length → exec (i x) s = .next { s.tick with cur := none }) ∧
      (env.co.mq.length < 8 → exec (i x) s = .next ((queued { Mat.plain kind x.d.num with
        sha := env.co.shape x.a.num, wref := env.co.scalar x.b.num, mods := BitVec.ofNat 5 (Mod.number x.m),
        sigma := groupValues env s.tick w.vs ng (fun v => bits v (16 * w.sh) 16),
        zero := groupValues env s.tick w.vz ng (fun v => bits v (8 * w.zb) 8) } []).complete env e x {}))) := by
  intro queued key w h ng bad
  refine ⟨fun h1 => ?_, fun h1 h2 => ?_, fun h1 h2 h3 h4 => ⟨fun h5 => ?_, fun h5 => ?_⟩⟩
  · rw [hk]
    refine issue_trap hr ?_
    simp only [bad, key, h, w] at h1
    unfold matOp
    simp only [ha, if_false, hf, hb, h1]
    rfl
  · rw [hk]
    refine issue_trap hr ?_
    simp only [bad, key, h, w] at h1 h2
    unfold matOp
    simp only [ha, if_false, hf, hb, h1, h2]
    rfl
  · rw [hk, issue_ready hr]
    simp only [bad, key, h, w, ng] at h1 h2 h3 h4
    unfold matOp
    simp only [ha, if_false, hf, hb, h1, h2, h3, h4]
    unfold enqueue
    simp only [h5, if_true]
    rfl
  · rw [hk]
    refine issue_done hr ?_
    simp only [bad, key, h, w, ng] at h1 h2 h3 h4
    unfold matOp
    simp only [ha, if_false, hf, hb, h1, h2, h3, h4]
    unfold enqueue
    have h6 : ¬ (8 ≤ env.co.mq.length) := by omega
    simp only [h6, if_false]
    rfl

theorem enqueue_done (x : Args) (m : Mat) (locks : List (Nat × Nat × Bool)) (env : Env) (s : State) (h : env.co.mq.length < 8) :
    enqueue x m locks env s.tick = .done (((s.tick.addOp env x (.mat m)).lockRanges s.nextId false locks).modCourse env.cid (fun c => { c with mq := c.mq ++ [s.nextId] })) {} := by
  unfold enqueue
  rw [if_neg (by omega)]
  rfl

theorem findSome_range_first {α : Type} (f : Nat → Option α) (n : Nat) (a : α) (h : f 0 = some a) : (List.range (n + 1)).findSome? f = some a := by
  rw [List.range_succ_eq_map, List.findSome?_cons, h]

theorem poisonedAll_nil (s : State) (h : s.poison = []) (l : List (Nat × Nat)) : s.poisonedAll l = none := by
  unfold State.poisonedAll
  rw [List.findSome?_eq_none_iff]
  intro p _
  unfold State.poisoned
  rw [h]; simp

/-- A list of separate stores to canonical memory: each leaves its bytes, and every other byte is as before. -/
theorem foldWrites (sz : Nat) (L : List (Nat × Nat)) : ∀ (m0 : List Host.Cell), Memory.wf m0 = true →
    L.Pairwise (fun p q => p.1 + sz ≤ q.1) →
    let m := L.foldl (fun m p => memWrite m p.1 (toLe sz p.2)) m0
    Memory.wf m = true ∧ (∀ p ∈ L, ∀ i, i < sz → memByte m (p.1 + i) = (toLe sz p.2).getD i 0) ∧
      ∀ a, (∀ p ∈ L, a < p.1 ∨ p.1 + sz ≤ a) → memByte m a = memByte m0 a := by
  induction L with
  | nil => intro m0 h _; exact ⟨h, by simp, fun _ _ => rfl⟩
  | cons p t ih =>
    intro m0 h hp
    obtain ⟨h1, h2⟩ := List.pairwise_cons.1 hp
    obtain ⟨i1, i2, i3⟩ := ih (memWrite m0 p.1 (toLe sz p.2)) (Memory.wf_write _ _ _ h) h2
    refine ⟨i1, fun q hq i hi => ?_, fun a ha => ?_⟩
    · rcases List.mem_cons.1 hq with rfl | hq
      · rw [List.foldl_cons, i3 _ (fun r hr => ?_)]
        · rw [memByte_write _ _ _ _ (by rw [length_toLe]; exact hi)]
          rw [List.getD_eq_getElem _ _ (by rw [length_toLe]; exact hi)]
        · have := h1 r hr; omega
      · exact i2 q hq i hi
    · rw [List.foldl_cons, i3 a (fun r hr => ha r (List.mem_cons_of_mem _ hr))]
      have := ha p List.mem_cons_self
      exact memByte_write_other _ _ _ _ (by rw [length_toLe]; exact this)

/-- The stores that mapTile makes. -/
def tileWrites (base sz rows : Nat) (f : Nat → Nat → Nat) : List (Nat × Nat) :=
  (List.range rows).flatMap (fun m => (List.range 192).map (fun n => (base + sz * (192 * m + n), f m n)))

theorem tileWrites_sorted (base sz rows : Nat) (f : Nat → Nat → Nat) : (tileWrites base sz rows f).Pairwise (fun p q => p.1 + sz ≤ q.1) := by
  unfold tileWrites
  rw [List.pairwise_flatMap]
  refine ⟨fun m _ => ?_, ?_⟩
  · rw [List.pairwise_map]
    refine (List.pairwise_lt_range (n := 192)).imp (fun {a b} h => ?_)
    simp only
    have : sz * (192 * m + a) + sz ≤ sz * (192 * m + b) := by
      rw [← Nat.mul_succ]; exact Nat.mul_le_mul_left _ (by omega)
    omega
  · refine (List.pairwise_lt_range (n := rows)).imp (fun {a b} h => ?_)
    intro p hp q hq
    simp only [List.mem_map, List.mem_range] at hp hq
    obtain ⟨i, hi, rfl⟩ := hp
    obtain ⟨j, hj, rfl⟩ := hq
    simp only
    have : sz * (192 * a + i) + sz ≤ sz * (192 * b + j) := by
      rw [← Nat.mul_succ]; exact Nat.mul_le_mul_left _ (by omega)
    omega

theorem mapTile_mem (s : State) (k sz rows : Nat) (f : Nat → Nat → Nat × BitVec 32) :
    (s.mapTile k sz rows f).1 = { s with mem := (tileWrites (tileBase (k / 8) (k % 8)) sz rows (fun m n => (f m n).1)).foldl (fun m p => memWrite m p.1 (toLe sz p.2)) s.mem } := by
  have inner : ∀ (L : List Nat) (m : Nat) (a : State × BitVec 32),
      (L.foldl (fun (a : State × BitVec 32) n => (a.1.putElem k sz m n (f m n).1, a.2 ||| (f m n).2)) a).1 =
      { a.1 with mem := (L.map (fun n => (tileBase (k / 8) (k % 8) + sz * (192 * m + n), (f m n).1))).foldl (fun m p => memWrite m p.1 (toLe sz p.2)) a.1.mem } := by
    intro L
    induction L with
    | nil => intro m a; rfl
    | cons n t ih => intro m a; rw [List.foldl_cons, ih]; rfl
  have outer : ∀ (L : List Nat) (a : State × BitVec 32),
      (L.foldl (fun (a : State × BitVec 32) m => (List.range 192).foldl (fun (a : State × BitVec 32) n =>
        (a.1.putElem k sz m n (f m n).1, a.2 ||| (f m n).2)) a) a).1 =
      { a.1 with mem := (L.flatMap (fun m => (List.range 192).map (fun n => (tileBase (k / 8) (k % 8) + sz * (192 * m + n), (f m n).1)))).foldl (fun m p => memWrite m p.1 (toLe sz p.2)) a.1.mem } := by
    intro L
    induction L with
    | nil => intro a; rfl
    | cons m t ih =>
      intro a
      rw [List.foldl_cons, ih, inner, List.flatMap_cons, List.foldl_append]
  exact outer (List.range rows) (s, 0)

theorem peek_high (s : State) (hwf : s.memOk) (pa n : Nat) (h : 2 ^ 52 ≤ pa) : s.peek pa n = (List.range n).map (fun i => memByte s.mem (pa + i)) := by
  unfold State.peek
  split
  · exact memSpan_eq _ hwf _ _
  · apply List.map_congr_left
    intro i _
    have : s.cell (pa + i) = pa + i := by
      unfold State.cell isDram
      rw [if_neg (by simp; omega)]
    rw [this]

theorem mapTile_values (s : State) (hwf : s.memOk) (k sz rows : Nat) (f : Nat → Nat → Nat × BitVec 32) :
    let t := (s.mapTile k sz rows f).1
    (∀ m n, m < rows → n < 192 → t.tileElem k sz m n = (f m n).1 % 2 ^ (8 * sz)) ∧
    (∀ a, a < tileBase (k / 8) (k % 8) ∨ tileBase (k / 8) (k % 8) + sz * 192 * rows ≤ a → memByte t.mem a = memByte s.mem a) := by
  intro t
  have ht : t = _ := mapTile_mem s k sz rows f
  obtain ⟨w1, w2, w3⟩ := foldWrites sz (tileWrites (tileBase (k / 8) (k % 8)) sz rows (fun m n => (f m n).1)) s.mem hwf (tileWrites_sorted _ _ _ _)
  refine ⟨fun m n hm hn => ?_, fun a ha => ?_⟩
  · have hin : (tileBase (k / 8) (k % 8) + sz * (192 * m + n), (f m n).1) ∈ tileWrites (tileBase (k / 8) (k % 8)) sz rows (fun m n => (f m n).1) := by
      unfold tileWrites
      simp only [List.mem_flatMap, List.mem_map, List.mem_range]
      exact ⟨m, hm, n, hn, rfl⟩
    have e := w2 _ hin
    have hb : 2 ^ 52 ≤ tileBase (k / 8) (k % 8) + sz * (192 * m + n) := by
      unfold tileBase
      have : (2 : Nat) ^ 52 ≤ 2 ^ 57 := by norm_num
      omega
    unfold State.tileElem State.peekNat
    rw [ht, peek_high _ (by exact w1) _ _ hb]
    have : (List.range sz).map (fun i => memByte ((tileWrites (tileBase (k / 8) (k % 8)) sz rows (fun m n => (f m n).1)).foldl (fun m p => memWrite m p.1 (toLe sz p.2)) s.mem) (tileBase (k / 8) (k % 8) + sz * (192 * m + n) + i)) = toLe sz (f m n).1 := by
      apply List.ext_getElem
      · simp [length_toLe]
      · intro i h1 h2
        simp only [List.length_map, List.length_range] at h1
        simp only [List.getElem_map, List.getElem_range]
        rw [e i h1, List.getD_eq_getElem _ _ h2]
    rw [this, leNat_toLe]
  · rw [ht]
    refine w3 a (fun p hp => ?_)
    unfold tileWrites at hp
    simp only [List.mem_flatMap, List.mem_map, List.mem_range] at hp
    obtain ⟨m, hm, n, hn, rfl⟩ := hp
    simp only
    have h1 : sz * (192 * m + n) + sz ≤ sz * (192 * rows) := by
      rw [← Nat.mul_succ]; exact Nat.mul_le_mul_left _ (by omega)
    have h2 : sz * 192 * rows = sz * (192 * rows) := by ring
    omega

end Sys2Proof.Machine
end

