-- ==== Sys2Proof/Laws/UnitRules.lean ====
section
/-!
SUPPORT. Command answers, sent rows, the translation cache, spare frames, pictures, and the winner of an issue slot.
-/

namespace Sys2Proof.Machine

theorem and_low {a n : Nat} (h : a < 2 ^ n) : a &&& (2 ^ n - 1) = a := by
  rw [Nat.and_two_pow_sub_one_eq_mod, Nat.mod_eq_of_lt h]

theorem endCmd_spec {t : State} {page off status : Nat} {l : List Word} {seq : BitVec 32} (hl : bits (wordAt l 3) 0 32 = seq.toNat)
    (h : t.cmds.find (page * 65536 + off) = some ⟨l, true⟩) :
    (t.endCmd page off status).cmds.find (page * 65536 + off) = some ⟨l.take 3 ++ [BitVec.ofNat 64 (status * 2 ^ 32 + seq.toNat)], false⟩ ∧
      (t.endCmd page off status).mem = t.mem := by
  unfold State.endCmd cmdKey
  simp only [h]
  refine ⟨?_, trivial⟩
  rw [Tab.find_put_same, hl]

theorem stored_seq (s : State) (page off w0 : Nat) (w1 w2 : Option Nat) (seq : BitVec 32) :
    bits (wordAt (s.cmdStored page off (cmdWords w0 w1 w2 seq)) 3) 0 32 = seq.toNat := by
  have e : (seq.toNat &&& blockMask off 3) = seq.toNat := and_low (n := 32) seq.isLt
  show (BitVec.ofNat 64 (seq.toNat &&& blockMask off 3)).toNat >>> 0 % 2 ^ 32 = _
  rw [e, BitVec.toNat_ofNat]
  have := seq.isLt
  omega

theorem migrating_iff (g : Gate) (i : Nat) : (!(g.st == .migrating && i == g.mpart)) = true ↔ ¬ (g.st = .migrating ∧ i = g.mpart) := by
  rw [Bool.not_eq_true', Bool.eq_false_iff, Ne, Bool.and_eq_true, beq_iff_eq, beq_iff_eq]

theorem bits_low16 (n : Nat) : bits n 0 16 = n % 65536 := by
  unfold bits
  simp

theorem rangeOk_iff (base : Word) (count : BitVec 32) : rangeOk base count = true ↔ base.toNat % 65536 = 0 ∧ count ≠ 0 := by
  unfold rangeOk
  rw [bits_low16]
  simp

theorem rangeOk_false (base : Word) (count : BitVec 32) (h : base.toNat % 65536 ≠ 0 ∨ count = 0) : rangeOk base count = false := by
  rw [Bool.eq_false_iff, Ne, rangeOk_iff]
  rintro ⟨h1, h2⟩
  rcases h with h | h
  · exact h h1
  · exact h2 h

theorem takeSpares_none (s : State) (h : s.pkg.spares = []) : s.takeSpares = s := by
  unfold State.takeSpares
  have : ∀ (l : List (Nat × FrameState)), l.foldl (fun (s : State) f => match s.pkg.spares with
      | sp :: _ => s.migrate f.1 sp
      | [] => s) s = s := by
    intro l
    induction l with
    | nil => rfl
    | cons a t ih =>
      rw [List.foldl_cons]
      simp only [h]
      exact ih
  exact this _

/-- a beats b. -/
def beats (last : Nat) (a b : Contender) : Bool :=
    match a.co.forced, b.co.forced with
    | some x, some y => decide (x < y) || (x == y && decide (a.co.cslot < b.co.cslot))
    | some _, none => true
    | none, some _ => false
    | none, none => decide (b.pa.cls < a.pa.cls) || (a.pa.cls == b.pa.cls && decide (turn last a.co.cslot < turn last b.co.cslot))

theorem beats_trans (last : Nat) (a b c : Contender) (h1 : beats last a b = false) (h2 : beats last b c = false) : beats last a c = false := by
  unfold beats at *
  cases ha : a.co.forced <;> cases hb : b.co.forced <;> cases hc : c.co.forced <;> simp_all <;> omega

theorem beats_self (last : Nat) (a : Contender) : beats last a a = false := by
  unfold beats
  cases a.co.forced <;> simp

theorem beats_asymm (last : Nat) (a b : Contender) (h : beats last a b = true) : beats last b a = false := by
  unfold beats at *
  cases ha : a.co.forced <;> cases hb : b.co.forced <;> simp_all <;> omega

theorem winner_fold (last : Nat) (l : List Contender) : ∀ b : Contender,
    ∃ w, l.foldl (fun (w : Option Contender) a => match w with
      | none => some a
      | some b => if beats last a b then some a else some b) (some b) = some w ∧ (w = b ∨ w ∈ l) ∧ beats last b w = false ∧
      ∀ a ∈ l, beats last a w = false := by
  induction l with
  | nil => intro b; exact ⟨b, rfl, Or.inl rfl, beats_self last b, by simp⟩
  | cons a l ih =>
    intro b
    simp only [List.foldl_cons]
    by_cases h : beats last a b = true
    · simp only [h, if_true]
      obtain ⟨w, h1, h2, h3, h4⟩ := ih a
      refine ⟨w, h1, Or.inr ?_, beats_trans last b a w (beats_asymm _ _ _ h) h3, ?_⟩
      · rcases h2 with rfl | h2
        · exact List.mem_cons_self
        · exact List.mem_cons_of_mem _ h2
      · intro c hc
        rcases List.mem_cons.1 hc with rfl | hc
        · exact h3
        · exact h4 c hc
    · rw [Bool.not_eq_true] at h
      simp only [h, Bool.false_eq_true, if_false]
      obtain ⟨w, h1, h2, h3, h4⟩ := ih b
      refine ⟨w, h1, ?_, h3, ?_⟩
      · rcases h2 with h2 | h2
        · exact Or.inl h2
        · exact Or.inr (List.mem_cons_of_mem _ h2)
      · intro c hc
        rcases List.mem_cons.1 hc with rfl | hc
        · exact beats_trans last _ b w h h3
        · exact h4 c hc

theorem winner_eq (last : Nat) (l : List Contender) : winner last l = l.foldl (fun (w : Option Contender) a => match w with
      | none => some a
      | some b => if beats last a b then some a else some b) none := rfl

theorem length_flatMap_const {α β : Type} (l : List α) (f : α → List β) (n : Nat) (h : ∀ a ∈ l, (f a).length = n) : (l.flatMap f).length = n * l.length := by
  induction l with
  | nil => simp
  | cons a l ih =>
    rw [List.flatMap_cons, List.length_append, h a (by simp), ih (fun b hb => h b (by simp [hb])), List.length_cons, Nat.mul_succ, Nat.add_comm]

theorem pictureRow_length (ten : Bool) (w pitch : Nat) (l : List Nat) (h : w * (if ten then 2 else 1) ≤ pitch) :
    (pictureRow ten w pitch l).length = pitch := by
  have e : ((l.take w).flatMap (fun v => if ten then toLe 2 (v % 2 ^ 10 * 2 ^ 6) else toLe 1 v)).length = (if ten then 2 else 1) * (l.take w).length := by
    refine length_flatMap_const _ _ _ (fun a _ => ?_)
    cases ten <;> simp [length_toLe]
  have h2 : (l.take w).length ≤ w := List.length_take_le ..
  have h3 : (if ten then 2 else 1) * (l.take w).length ≤ w * (if ten then 2 else 1) := by
    rw [Nat.mul_comm]; exact Nat.mul_le_mul_right _ h2
  simp only [pictureRow, List.length_append, List.length_replicate, e]
  omega

theorem pictureBytes_rows (ten : Bool) (width height : Nat) (luma chroma : List Nat) : (pictureBytes ten width height luma chroma).length % 256 = 0 := by
  have hp : ∀ w, w ≤ width + width % 2 → w * (if ten then 2 else 1) ≤ picturePitch ten width := by
    intro w hw
    have h1 : w * (if ten then 2 else 1) ≤ (width + width % 2) * (if ten then 2 else 1) := Nat.mul_le_mul_right _ hw
    unfold picturePitch
    omega
  have hm : picturePitch ten width % 256 = 0 := by
    unfold picturePitch
    exact Nat.mul_mod_left _ _
  unfold pictureBytes
  rw [List.length_append, length_flatMap_const _ _ (picturePitch ten width) (fun i _ => pictureRow_length ten width _ _ (hp width (Nat.le_add_right ..))),
    length_flatMap_const _ _ (picturePitch ten width) (fun i _ => pictureRow_length ten _ _ _ (hp _ (Nat.le_refl _))), ← Nat.mul_add, Nat.mul_mod, hm]
  simp

end Sys2Proof.Machine
end

