-- ==== Sys2Proof/Laws/PlatformRules.lean ====
section
/-!
SUPPORT. The viral state, the links, reads of registers, and boot (R310, R313, R318, R326).
-/

namespace Sys2Proof.Machine

theorem hostRead_base (s : State) (page : Nat) (h1 : 1 ≤ page) (h2 : page ≤ 16) :
    s.hostRead page 0x3000 = (s.parts.getD (page - 1) Partition.none).ringBase := by
  have e1 : commandCodes page (0x3000 / 32 * 32) = 0 := by unfold commandCodes; simp
  have e2 : ¬ page = cxlPage := by unfold cxlPage; omega
  unfold State.hostRead
  simp only [e1]
  rw [if_neg (by omega), if_neg e2, if_neg (by omega), if_neg (by simp), if_neg (by omega)]
  unfold State.partRead
  simp

theorem hostRead_prod (s : State) (page : Nat) (h1 : 1 ≤ page) (h2 : page ≤ 16) :
    s.hostRead page 0x3010 = ((s.parts.getD (page - 1) Partition.none).prod).setWidth 64 := by
  have e1 : commandCodes page (0x3010 / 32 * 32) = 0 := by unfold commandCodes; simp
  have e2 : ¬ page = cxlPage := by unfold cxlPage; omega
  unfold State.hostRead
  simp only [e1]
  rw [if_neg (by omega), if_neg e2, if_neg (by omega), if_neg (by simp), if_neg (by omega)]
  unfold State.partRead
  simp

/-- A command block's words are read as they are stored. -/
theorem hostRead_block (s : State) (page off k : Nat) (h1 : page ≤ 16) (h2 : off = 0x1000 ∨ off = 0x1100) (h3 : k < 4) :
    s.hostRead page (off + 8 * k) = (s.cmd page off).words.getD k 0 := by
  have e : (off + 8 * k) / 32 * 32 = off := by omega
  have e1 : commandCodes page off ≠ 0 := by unfold commandCodes; rcases h2 with rfl | rfl <;> simp
  have e2 : ¬ page = cxlPage := by unfold cxlPage; omega
  have e3 : (off + 8 * k) % 32 / 8 = k := by omega
  unfold State.hostRead
  simp only [e, e3]
  rw [if_neg (by omega), if_neg e2, if_neg (by omega), if_pos e1]
  simp

/-- The configuration block's words are read from every page. -/
theorem hostRead_config (s : State) (page : Nat) (h1 : page ≤ 17) (h2 : page ≠ 17) :
    s.hostRead page 0 = s.pkg.bentEn.setWidth 64 ∧ s.hostRead page 8 = s.pkg.chLo.setWidth 64 ∧ s.hostRead page 16 = s.pkg.chHi.setWidth 64 ∧
      s.hostRead page 24 = s.pkg.linkW.setWidth 64 ∧ s.hostRead page 32 = s.pkg.cfgGen.setWidth 64 := by
  have e2 : ¬ page = cxlPage := by unfold cxlPage; omega
  have hl : ∀ v : Nat, (toLe 8 v).length = 8 := fun v => length_toLe 8 v
  have key : ∀ (k : Nat) (w : Nat), k < 5 → (s.pkg.configBlock.drop (8 * k)).take 8 = toLe 8 w → s.hostRead page (8 * k) = BitVec.ofNat 64 (w % 2 ^ 64) := by
    intro k w hk e
    unfold State.hostRead
    simp only
    rw [if_neg (by omega), if_neg e2, if_pos (by omega), e, leNat_toLe]
  have d : ∀ (v n : Nat) (l : List Byte), 8 ≤ n → List.drop n (toLe 8 v ++ l) = List.drop (n - 8) l := fun v n l h => by
    rw [List.drop_append, List.drop_eq_nil_of_le (by rw [hl]; exact h), hl]; rfl
  have tk : ∀ (v : Nat) (l : List Byte), List.take 8 (toLe 8 v ++ l) = toLe 8 v := fun v l => by
    rw [List.take_append_of_le_length (by rw [hl]), List.take_of_length_le (by rw [hl])]
  have wide : ∀ (n : Nat) (v : BitVec n), BitVec.ofNat 64 (v.toNat % 2 ^ 64) = v.setWidth 64 := fun n v => by
    apply BitVec.eq_of_toNat_eq; simp
  have hb : s.pkg.configBlock = toLe 8 s.pkg.bentEn.toNat ++ (toLe 8 s.pkg.chLo.toNat ++ (toLe 8 s.pkg.chHi.toNat ++ (toLe 8 s.pkg.linkW.toNat ++ (toLe 8 s.pkg.cfgGen.toNat ++ [])))) := by
    unfold Package.configBlock; simp only [List.append_assoc, List.append_nil]
  refine ⟨?_, ?_, ?_, ?_, ?_⟩
  · rw [← wide]; exact key 0 _ (by omega) (by rw [hb]; exact tk _ _)
  · rw [← wide]; exact key 1 _ (by omega) (by rw [hb, d _ _ _ (by omega)]; exact tk _ _)
  · rw [← wide]; exact key 2 _ (by omega) (by rw [hb, d _ _ _ (by omega), d _ _ _ (by omega)]; exact tk _ _)
  · rw [← wide]; exact key 3 _ (by omega) (by rw [hb, d _ _ _ (by omega), d _ _ _ (by omega), d _ _ _ (by omega)]; exact tk _ _)
  · rw [← wide]; exact key 4 _ (by omega) (by rw [hb, d _ _ _ (by omega), d _ _ _ (by omega), d _ _ _ (by omega), d _ _ _ (by omega)]; exact tk _ _)

theorem blockWrite_keeps (s : State) (page off k : Nat) (v : Word) (hu : s.up = true) (h1 : page ≤ 16) (h2 : off = 0x1000 ∨ off = 0x1100) (h3 : 1 ≤ k) (h4 : k < 4) :
    execRegisterWrite page (off + 8 * k) v s = .next { s with cmds := s.cmds.put (cmdKey page off) { s.cmd page off with
      words := (s.cmd page off).words.set k (((s.cmd page off).words.getD k 0 &&& ~~~(BitVec.ofNat 64 (blockMask off k))) ||| (v &&& BitVec.ofNat 64 (blockMask off k))) } } := by
  have e : (off + 8 * k) / 32 * 32 = off := by omega
  have e1 : commandCodes page off ≠ 0 := by unfold commandCodes; rcases h2 with rfl | rfl <;> simp
  have e2 : ¬ page = cxlPage := by unfold cxlPage; omega
  have e3 : (off + 8 * k) % 32 / 8 = k := by omega
  unfold execRegisterWrite
  rw [if_neg (by rw [hu]; simp; omega)]
  simp only [e, e3]
  rw [if_neg e2, if_pos e1]
  unfold State.blockWrite
  rw [if_neg (by omega)]

theorem setLinkW_mem (s : State) (n c : Nat) : (s.setLinkW n c).mem = s.mem ∧ (s.setLinkW n c).courses = s.courses ∧ (s.setLinkW n c).locks = s.locks := by
  unfold State.setLinkW; simp only; split <;> exact ⟨rfl, rfl, rfl⟩

theorem viral_fold (l : List Nat) (s t : State) (h : l.foldl (fun (s : State) n => (s.putLink n ((s.link n).goneViral s.time.ns)).setLinkW n 0) s = t) :
    t.mem = s.mem ∧ t.courses = s.courses ∧ t.locks = s.locks := by
  induction l generalizing s with
  | nil => cases h; exact ⟨rfl, rfl, rfl⟩
  | cons n l ih =>
    obtain ⟨a, b, c⟩ := ih ((s.putLink n ((s.link n).goneViral s.time.ns)).setLinkW n 0) h
    obtain ⟨a2, b2, c2⟩ := setLinkW_mem (s.putLink n ((s.link n).goneViral s.time.ns)) n 0
    exact ⟨a.trans a2, b.trans b2, c.trans c2⟩

/-- What becoming viral does and leaves. -/
theorem enterViral_spec (s : State) (h : s.pkg.viral = false) : s.enterViral.pkg.viral = true ∧ s.enterViral.ops = [] ∧ s.enterViral.mem = s.mem ∧
    s.enterViral.courses = s.courses ∧ s.enterViral.locks = s.locks.filter (fun l => l.2.bind) := by
  unfold State.enterViral
  rw [if_neg (by simp [h])]
  generalize hT : List.foldl (fun (s : State) n => (s.putLink n ((s.link n).goneViral s.time.ns)).setLinkW n 0) s (List.range 12) = T
  obtain ⟨a, b, c⟩ := viral_fold _ _ _ hT
  exact ⟨rfl, rfl, a, b, by simp only [c]⟩

theorem trip_spec (s : State) : s.trip.pkg.viral = true ∧ s.trip.pkg.powerOff = true ∧ s.trip.mem = s.mem := by
  cases h : s.pkg.viral with
  | true =>
    unfold State.trip State.enterViral
    rw [if_pos h]
    exact ⟨h, rfl, rfl⟩
  | false =>
    obtain ⟨a, -, b, -⟩ := enterViral_spec s h
    exact ⟨a, rfl, b⟩

theorem memByte_filter_none (m : List Host.Cell) (f : Host.Cell → Bool) (a : Nat) (h : ∀ v, f (a, v) = false) : memByte (m.filter f) a = 0 := by
  refine memByte_of_lt _ _ (fun c hc e => ?_)
  rw [List.mem_filter] at hc
  obtain ⟨k, v⟩ := c
  simp only at e
  subst e
  rw [h v] at hc; exact Bool.false_ne_true hc.2

theorem find_links (n : Nat) (h : n < 12) : Tab.find ((List.range 12).map (fun n => (n, Link.reset.train))) n = some Link.reset.train := by
  interval_cases n <;> rfl

/-- What a DRAM training without spares changes: channels, frames that wait, and CFG_GEN. -/
def Retired (s t : State) : Prop :=
  ∃ fr lo hi g, t = { s with pkg := { s.pkg with frames := fr, chLo := lo, chHi := hi, cfgGen := g } }

theorem Retired.refl (s : State) : Retired s s := ⟨s.pkg.frames, s.pkg.chLo, s.pkg.chHi, s.pkg.cfgGen, rfl⟩

theorem Retired.trans {s t u : State} (h : Retired s t) (k : Retired t u) : Retired s u := by
  obtain ⟨fr, lo, hi, g, rfl⟩ := h
  obtain ⟨fr2, lo2, hi2, g2, rfl⟩ := k
  exact ⟨fr2, lo2, hi2, g2, rfl⟩

theorem retireFrame_none (s : State) (f : Nat) (h : s.pkg.spares = []) : ∃ fr, s.retireFrame f = { s with pkg := { s.pkg with frames := fr } } := by
  unfold State.retireFrame
  split
  · exact ⟨s.pkg.frames, rfl⟩
  · exact ⟨s.pkg.frames.put f .pending, takeSpares_none _ h⟩

theorem retireFrames_none (l : List Nat) (s : State) (h : s.pkg.spares = []) :
    ∃ fr, l.foldl (fun (s : State) f => s.retireFrame f) s = { s with pkg := { s.pkg with frames := fr } } := by
  induction l generalizing s with
  | nil => exact ⟨s.pkg.frames, rfl⟩
  | cons a l ih =>
    obtain ⟨fr, e⟩ := retireFrame_none s a h
    obtain ⟨fr2, e2⟩ := ih (s.retireFrame a) (by rw [e]; exact h)
    exact ⟨fr2, by rw [List.foldl_cons, e2, e]⟩

/-- Whether a channel is in service. -/
def serves (p : Package) (ch : Nat) : Bool := if ch < 64 then p.chLo.getLsbD ch else p.chHi.getLsbD (ch - 64)

theorem getLsbD_clear (w : BitVec 64) (k i : Nat) (hi : i < 64) : (w &&& ~~~(BitVec.ofNat 64 (2 ^ k))).getLsbD i = (w.getLsbD i && !decide (i = k)) := by
  simp only [BitVec.getLsbD_and, BitVec.getLsbD_not, hi, decide_true, Bool.true_and, BitVec.getLsbD_ofNat, Nat.testBit_two_pow]
  congr 2
  simp [eq_comm]

theorem retireChannel_none (s : State) (ch : Nat) (h : s.pkg.spares = []) : Retired s (s.retireChannel ch) ∧ ∀ i, i < 128 →
    serves (s.retireChannel ch).pkg i = (serves s.pkg i && !decide (i = ch)) := by
  unfold State.retireChannel
  generalize channelFrames ch = l
  by_cases hc : serves s.pkg ch = true
  · rw [if_neg (by unfold serves at hc; simp [hc])]
    obtain ⟨fr, e⟩ := retireFrames_none l { s with pkg := { s.pkg with chLo := if ch < 64 then s.pkg.chLo &&& ~~~(BitVec.ofNat 64 (2 ^ ch)) else s.pkg.chLo, chHi := if ch < 64 then s.pkg.chHi else s.pkg.chHi &&& ~~~(BitVec.ofNat 64 (2 ^ (ch - 64))), cfgGen := s.pkg.cfgGen + 1 } } h
    simp only
    rw [e]
    refine ⟨⟨_, _, _, _, rfl⟩, fun i hi => ?_⟩
    unfold serves
    simp only
    by_cases h1 : i < 64 <;> by_cases h2 : ch < 64
    · simp only [h1, h2, if_true]
      rw [getLsbD_clear _ _ _ h1]
    · simp only [h1, h2, if_true, if_false]
      have : i ≠ ch := by omega
      simp [this]
    · simp only [h1, h2, if_true, if_false]
      have : i ≠ ch := by omega
      simp [this]
    · simp only [h1, h2, if_false]
      rw [getLsbD_clear _ _ _ (by omega)]
      congr 2
      simp only [decide_eq_decide]
      omega
  · rw [if_pos (by unfold serves at hc; simpa using hc)]
    refine ⟨Retired.refl s, fun i hi => ?_⟩
    by_cases he : i = ch
    · subst he
      rw [Bool.eq_false_iff.2 hc]; rfl
    · simp [he]

theorem retireStacks_none (s : State) (failed : BitVec 8) (h : s.pkg.spares = []) : Retired s (s.retireStacks failed) ∧ ∀ i, i < 128 →
    serves (s.retireStacks failed).pkg i = (serves s.pkg i && !failed.getLsbD (i / 16)) := by
  unfold State.retireStacks
  have key : ∀ n, Retired s ((List.range n).foldl (fun (s : State) ch => if failed.getLsbD (ch / 16) then s.retireChannel ch else s) s) ∧ ∀ i, i < 128 →
      serves ((List.range n).foldl (fun (s : State) ch => if failed.getLsbD (ch / 16) then s.retireChannel ch else s) s).pkg i =
        (serves s.pkg i && !(decide (i < n) && failed.getLsbD (i / 16))) := by
    intro n
    induction n with
    | zero => exact ⟨Retired.refl s, fun i _ => by simp⟩
    | succ n ih =>
      obtain ⟨h1, h2⟩ := ih
      rw [List.range_succ, List.foldl_append]
      generalize List.foldl (fun (s : State) ch => if failed.getLsbD (ch / 16) then s.retireChannel ch else s) s (List.range n) = T at h1 h2 ⊢
      simp only [List.foldl_cons, List.foldl_nil]
      have hT : T.pkg.spares = [] := by obtain ⟨fr, lo, hi, g, rfl⟩ := h1; exact h
      by_cases hf : failed.getLsbD (n / 16) = true
      · rw [if_pos hf]
        obtain ⟨k1, k2⟩ := retireChannel_none T n hT
        refine ⟨h1.trans k1, fun i hi => ?_⟩
        rw [k2 i hi, h2 i hi]
        by_cases he : i = n
        · subst he
          simp [hf]
        · have e : (decide (i < n + 1)) = decide (i < n) := by rw [decide_eq_decide]; omega
          rw [e]; simp [he]
      · rw [if_neg hf]
        refine ⟨h1, fun i hi => ?_⟩
        rw [h2 i hi]
        by_cases he : i = n
        · subst he
          simp [Bool.eq_false_iff.2 hf]
        · have e : (decide (i < n + 1)) = decide (i < n) := by rw [decide_eq_decide]; omega
          rw [e]
  obtain ⟨h1, h2⟩ := key 128
  refine ⟨h1, fun i hi => ?_⟩
  rw [h2 i hi]
  simp [hi]

theorem mapRetired_pkg (s : State) : ∃ fr fm sp, s.mapRetired = { s with pkg := { s.pkg with frames := fr, frameMap := fm, spares := sp } } := by
  unfold State.mapRetired
  refine foldl_inv _ (fun t : State => ∃ fr fm sp, t = { s with pkg := { s.pkg with frames := fr, frameMap := fm, spares := sp } }) _ s ⟨_, _, _, rfl⟩ (fun t a ht => ?_)
  obtain ⟨fr, fm, sp, rfl⟩ := ht
  simp only
  split
  · unfold State.switchFrame
    exact ⟨_, _, _, rfl⟩
  · exact ⟨_, _, _, rfl⟩

/-- What a boot from a good slot makes of the machine after its reset. -/
theorem boot_spec (s : State) (failed : BitVec 8) (f : Firmware) (h : s.pkg.kept.bootSlot = some f) : ∃ fr fm sp lo hi g,
    (∀ i, i < 64 → lo.getLsbD i = (s.pkg.chLo.getLsbD i && !failed.getLsbD (i / 16))) ∧
    (∀ i, i < 64 → hi.getLsbD i = (s.pkg.chHi.getLsbD i && !failed.getLsbD (4 + i / 16))) ∧
    (let p : Package := { s.pkg.kept with inReset := false, frames := fr, frameMap := fm, spares := sp, chLo := lo, chHi := hi, cfgGen := g }
     s.boot failed = { s.afterReset with
      pkg := { p with meas0 := f.digest, meas1 := sha384 p.configBlock, rollback := max s.pkg.rollback f.version }
      links := (List.range 12).map (fun n => (n, Link.reset.train)) }) := by
  unfold State.boot
  have e : s.afterReset.pkg.bootSlot = some f := h
  simp only [e]
  obtain ⟨⟨fr, lo, hi, g, e1⟩, h2⟩ := retireStacks_none { s.afterReset with pkg := { s.afterReset.pkg with spares := [], inReset := false } } failed rfl
  rw [e1] at h2 ⊢
  obtain ⟨fr2, fm, sp, e2⟩ := mapRetired_pkg { s.afterReset with pkg := { s.afterReset.pkg with spares := s.afterReset.pkg.spares, inReset := false, frames := fr, chLo := lo, chHi := hi, cfgGen := g } }
  refine ⟨fr2, fm, sp, lo, hi, g, fun i hi => ?_, fun i hi => ?_, ?_⟩
  · have := h2 i (by omega)
    unfold serves at this
    simp only [hi, if_true] at this
    exact this
  · have := h2 (64 + i) (by omega)
    unfold serves at this
    have e3 : ¬ (64 + i < 64) := by omega
    have e4 : 64 + i - 64 = i := by omega
    have e5 : (64 + i) / 16 = 4 + i / 16 := by omega
    simp only [e3, if_false, e4, e5] at this
    exact this
  · have e3 := e2
    simp only at e3 ⊢
    rw [e3]
    rfl

/-- A property that both ways of changing a state keep is kept by a message that moves. -/
theorem reroute_pkg (s : State) : s.reroute.pkg = s.pkg := by
  unfold State.reroute
  refine foldl_inv _ (fun t : State => t.pkg = s.pkg) _ s rfl (fun t a h => ?_)
  refine foldl_inv _ (fun t : State => t.pkg = s.pkg) _ t h (fun u m hu => ?_)
  split
  · exact hu
  · exact hu

theorem setLinkW_links (s : State) (n c : Nat) : (s.setLinkW n c).links = s.links := by
  unfold State.setLinkW; simp only; split <;> rfl

/-- After a list of links has been taken down one by one, each of them is DOWN and has gone viral. -/
theorem viral_links (s : State) (l : List Nat) : ∀ n ∈ l,
    ((l.foldl (fun (s : State) n => (s.putLink n ((s.link n).goneViral s.time.ns)).setLinkW n 0) s).link n).st = .down ∧
    ((l.foldl (fun (s : State) n => (s.putLink n ((s.link n).goneViral s.time.ns)).setLinkW n 0) s).link n).viral = true := by
  induction l using List.reverseRecOn with
  | nil => simp
  | append_singleton l a ih =>
    intro n hn
    rw [List.foldl_append]
    simp only [List.foldl_cons, List.foldl_nil]
    generalize List.foldl (fun (s : State) n => (s.putLink n ((s.link n).goneViral s.time.ns)).setLinkW n 0) s l = T at ih ⊢
    have e : ((T.putLink a ((T.link a).goneViral T.time.ns)).setLinkW a 0).link n = if a = n then (T.link a).goneViral T.time.ns else T.link n := by
      unfold State.link
      rw [setLinkW_links]
      unfold State.putLink
      simp only
      rw [Tab.getD_put]
    rw [e]
    by_cases h : a = n
    · rw [if_pos h]; exact ⟨rfl, rfl⟩
    · rw [if_neg h]
      rw [List.mem_append, List.mem_singleton] at hn
      rcases hn with hn | hn
      · exact ih n hn
      · exact absurd hn.symm h

end Sys2Proof.Machine
end

