-- ==== Sys2Proof/Laws/TrapRules.lean ====
section
/-!
SUPPORT. The trap record, the receiver of a trap and the shim (R297 to R307).
-/

namespace Sys2Proof.Machine

theorem restarts_iff (tr : Trap) (c : Course) :
    (tr.restarts && c.regpc != noRegion && decide (c.region.restarts < 2)) = true ↔
      (tr.stay = false ∧ (tr.cls = 0x08 ∨ (tr.cls = 0x09 ∧ tr.sub = 1)) ∧ c.regpc ≠ 0xFFFFFFFF ∧ c.region.restarts < 2) := by
  have : noRegion = 0xFFFFFFFF := by decide
  unfold Trap.restarts
  rw [this]
  simp only [Bool.and_eq_true, Bool.or_eq_true, beq_iff_eq, bne_iff_ne, decide_eq_true_eq, and_assoc, ne_eq, Bool.not_eq_true']

theorem toShim_iff (tr : Trap) : tr.toShim = true ↔
      (tr.cls = 0x02 ∨ tr.cls = 0x03 ∨ (tr.cls = 0x05 ∧ tr.sub = 1) ∨ (tr.cls = 0x0A ∧ (tr.sub = 1 ∨ tr.sub = 2)) ∨
      tr.cls = 0x0B ∨ (tr.cls = 0x0F ∧ tr.sub ≠ 0xFF)) := by
  unfold Trap.toShim
  have h : ∀ n : Nat, n < 256 → (tr.cls.toNat = n ↔ tr.cls = BitVec.ofNat 8 n) := by
    intro n hn
    constructor
    · intro h; apply BitVec.eq_of_toNat_eq; rw [h]; simp only [BitVec.toNat_ofNat]; exact (Nat.mod_eq_of_lt hn).symm
    · intro h; rw [h]; simp; omega
  simp only [Bool.or_eq_true, Bool.and_eq_true, beq_iff_eq, bne_iff_ne, ne_eq, or_assoc]
  rw [h 0x02 (by decide), h 0x03 (by decide), h 0x05 (by decide), h 0x0A (by decide), h 0x0B (by decide), h 0x0F (by decide)]
  exact Iff.rfl

theorem hasShim_eq {s t : State} (h : t.ovls = s.ovls) (k : Nat) : t.hasShim k = s.hasShim k := by
  unfold State.hasShim; rw [h]

theorem partOf_eq {s t : State} (h : t.ctxs = s.ctxs) (k : Nat) : t.partOf k = s.partOf k := by
  unfold State.partOf; rw [h]

/-- Storing the header of a course's record changes no more than a store does. -/
theorem saveHead_untouched (s : State) (c : Course) : Untouched s ((s.saveHead c).getD s) := by
  unfold State.saveHead
  cases s.recordAt c 0 true with
  | none => exact Untouched.refl s
  | some pa =>
    rw [Option.map_some, Option.getD_some]
    exact putWords_untouched s pa _

theorem setPath_ctxs (s : State) (cid p : Nat) (q : Path) : (s.setPath cid p q).ctxs = s.ctxs ∧ (s.setPath cid p q).time = s.time := by
  unfold State.setPath
  cases s.courses.find cid <;> exact ⟨rfl, rfl⟩

theorem stopForDriver_eq {s : State} {cid p : Nat} {c : Course} {q : Path} (hc : s.courses.find cid = some c) (hq : c.paths.find p = some q)
    (t : Trap) : s.stopForDriver cid p t = ((if t.cls = 0x07 then (s.saveHead c).getD s else s).setPath cid p
        { q with stopped := true, wait := if t.moved then q.wait else .nothing }).notify (s.partOf c.ctx)
        { stamp := s.time.ns, ctx := c.ctx, src := courseSource c.core c.cslot p, cls := t.cls, sub := t.sub } := by
  have hu : Untouched s (if t.cls = 0x07 then (s.saveHead c).getD s else s) := by
    split
    · exact saveHead_untouched s c
    · exact Untouched.refl s
  unfold State.stopForDriver
  simp only [hc, hq]
  obtain ⟨-, u1, -, u2, -⟩ := hu
  generalize (if t.cls = 0x07 then (s.saveHead c).getD s else s) = u at u1 u2 ⊢
  obtain ⟨h1, h2⟩ := setPath_ctxs u cid p { q with stopped := true, wait := if t.moved then q.wait else .nothing }
  have h3 : (u.setPath cid p { q with stopped := true, wait := if t.moved then q.wait else .nothing }).partOf c.ctx = s.partOf c.ctx :=
    partOf_eq (h1.trans u1) _
  rw [h3, h2, u2]

theorem recWord0_eq (tr : Trap) (ovl idx : Nat) : recWord0 tr ovl idx = tr.cls.toNat * 2 ^ 56 + tr.sub.toNat * 2 ^ 48 + tr.lane.toNat * 2 ^ 40 + ovl * 2 ^ 16 + idx := by
  unfold recWord0; rfl

theorem setPath_any {s : State} {cid p : Nat} {c c' : Course} {q : Path} (h : s.courses.find cid = some c) (hc : c = c')
   : s.setPath cid p q = s.setCourse cid { c' with paths := c'.paths.put p q } := by
  subst hc; unfold State.setPath; rw [h]

theorem scalar_of (d c : Course) (n : Nat) (h : d.scal = c.scal) : d.scalar n = c.scalar n := by unfold Course.scalar; rw [h]

theorem scalar_via {d : Course} {n : Nat} {v : Word} (c : Course) (hv : c.scalar n = v) (h : d.scal = c.scal) : d.scalar n = v := by rw [scalar_of d c n h, hv]

theorem resumable_path {s : State} {part ctx core k p cid : Nat} {c : Course} {q : Path} (h : s.resumable part ctx core k p = some (cid, c, q)) :
    c.paths.find p = some q := by
  unfold State.resumable at h
  split at h
  · cases h
  · rename_i cid' c' _
    split at h
    · rename_i q' v h1 h2
      split at h
      · simp only [Option.some.injEq, Prod.mk.injEq] at h
        obtain ⟨-, rfl, rfl⟩ := h
        exact h1
      · cases h
    · cases h

theorem single_iff (c : Course) : c.single = true ↔ c.paths.length = 1 ∧ c.stack = 0 := by
  unfold Course.single; simp

theorem sigAfter_off (b c : Course) (i : Bool) (e : Entry) (m : Mod) (a : Adv) (h : a.sig = false) : sigAfter b c i e m a = c.sig := by
  unfold sigAfter; simp [h]

theorem region_mask (c : BitVec 512) (f : LaneMask) :
    (maskOf (fun l => cOf c l != 0) &&& f != 0) = false ↔ ∀ l, l < 64 → f.getLsbD l = true → cOf c l = 0 := by
  rw [bne_eq_false_iff_eq]
  constructor
  · intro h l hl hf
    have := congrArg (fun m : LaneMask => m.getLsbD l) h
    simp only [BitVec.getLsbD_and, getLsbD_maskOf] at this
    rw [hf] at this
    by_contra hne
    simp [hl, hne] at this
  · intro h
    apply BitVec.eq_of_getLsbD_eq
    intro l hl
    simp only [BitVec.getLsbD_and, getLsbD_maskOf]
    cases hf : f.getLsbD l
    · simp
    · simp [h l hl hf]

theorem foldl_scalar (f : Nat → Word) (n : Nat) (c : Course) (l : List Nat) (hl : l.Nodup) :
    (l.foldl (fun (c : Course) i => c.setScalar (56 + i) (f i)) c).scalar n =
      if 56 ≤ n ∧ n - 56 ∈ l then f (n - 56) else c.scalar n := by
  induction l generalizing c with
  | nil => simp
  | cons a l ih =>
    rw [List.foldl_cons, ih _ hl.of_cons, Course.setScalar_scalar]
    have ha : a ∉ l := (List.nodup_cons.1 hl).1
    by_cases h : 56 ≤ n ∧ n - 56 ∈ l
    · rw [if_pos h, if_pos ⟨h.1, List.mem_cons_of_mem _ h.2⟩]
    · rw [if_neg h]
      by_cases h2 : 56 + a = n
      · have h3 : n - 56 = a := by omega
        rw [if_pos h2, if_pos ⟨by omega, by rw [h3]; exact List.mem_cons_self⟩, h3]
      · rw [if_neg h2, if_neg]
        rintro ⟨h4, h5⟩
        rcases List.mem_cons.1 h5 with h6 | h6
        · omega
        · exact h ⟨h4, h6⟩

theorem foldl_scal_frame (f : Nat → Word) (c : Course) (l : List Nat) :
    l.foldl (fun (c : Course) i => c.setScalar (56 + i) (f i)) c = { c with scal := (l.foldl (fun (c : Course) i => c.setScalar (56 + i) (f i)) c).scal, sPoison := (l.foldl (fun (c : Course) i => c.setScalar (56 + i) (f i)) c).sPoison } := by
  refine foldl_inv _ (fun d : Course => d = { c with scal := d.scal, sPoison := d.sPoison }) l c rfl ?_
  intro d a h
  unfold Course.setScalar
  rw [h]

theorem recWord_congr (s : State) (c d : Course) (p k : Nat) (h1 : d.core = c.core) (h2 : d.ctx = c.ctx) (h3 : d.priv = c.priv) :
    s.recWord d p k = s.recWord c p k := by
  unfold State.recWord State.privSee; rw [h1, h2, h3]

theorem recWord_setScalar (s : State) (c : Course) (n : Nat) (v : Word) (p k : Nat) : s.recWord (c.setScalar n v) p k = s.recWord c p k :=
  recWord_congr s c (c.setScalar n v) p k (by unfold Course.setScalar; rfl) (by unfold Course.setScalar; rfl) (by unfold Course.setScalar; rfl)

theorem foldl_rec (s : State) (c : Course) (p : Nat) : ∀ (l : List Nat) (d : Course), (∀ k, s.recWord d p k = s.recWord c p k) →
    l.foldl (fun (c : Course) i => c.setScalar (56 + i) (BitVec.ofNat 64 (s.recWord c p (4 + i)))) d =
    l.foldl (fun (e : Course) i => e.setScalar (56 + i) (BitVec.ofNat 64 (s.recWord c p (4 + i)))) d := by
  intro l
  induction l with
  | nil => intro d _; rfl
  | cons a l ih =>
    intro d hd
    rw [List.foldl_cons, List.foldl_cons, hd]
    exact ih _ (fun k => (recWord_setScalar s d _ _ p k).trans (hd k))

/-- What leaving the shim makes of the path's course. -/
theorem leaveShim_spec {s : State} {cid p : Nat} {c : Course} {q : Path} {h : Shim} (after : Bool) (hc : s.courses.find cid = some c)
    (hq : c.paths.find p = some q) (hh : q.shim = some h) :
    ∃ c', (s.leaveShim cid p after) = s.setCourse cid c' ∧
      c'.paths = c.paths.put p (s.resumed c p { q with d := h.d, run := h.run, ent := h.ent, shim := none } after) ∧
      (∀ i, i < 8 → c'.scalar (56 + i) = BitVec.ofNat 64 (s.recWord c p (4 + i))) ∧
      (∀ n, n < 56 → c'.scalar n = c.scalar n) ∧
      c'.sig = BitVec.ofNat 32 (s.recWord c p 3) ∧
      (∀ l, l < 64 → cOf c'.c l = if q.lanes.getLsbD l then cOf h.c l else cOf c.c l) ∧
      c'.x = (c.x &&& ~~~q.lanes) ||| (h.x &&& q.lanes) ∧ c'.k = (c.k &&& ~~~q.lanes) ||| (h.k &&& q.lanes) := by
  unfold State.leaveShim
  simp only [hc, hq, hh]
  generalize hF : (List.range 8).foldl (fun (c : Course) i => c.setScalar (56 + i) (BitVec.ofNat 64 (s.recWord c p (4 + i)))) c = F
  have hF2 : F = _ := hF.symm.trans (foldl_rec s c p _ c (fun _ => rfl))
  refine ⟨_, rfl, rfl, ?_, ?_, rfl, ?_, rfl, rfl⟩
  · intro i hi
    refine scalar_via F ?_ rfl
    rw [hF2]
    rw [foldl_scalar (fun i => BitVec.ofNat 64 (s.recWord c p (4 + i))) _ _ _ List.nodup_range]
    rw [if_pos ⟨by omega, by rw [List.mem_range]; omega⟩]
    congr 3; omega
  · intro n hn
    refine scalar_via F ?_ rfl
    rw [hF2]
    refine foldl_inv _ (fun d : Course => d.scalar n = c.scalar n) _ c rfl ?_
    intro d a hd
    rw [Course.setScalar_scalar, if_neg (by omega), hd]
  · intro l hl
    show cOf (cMap c.c _) l = _
    rw [cOf_cMap _ _ _ hl]
    split
    · have : cOf h.c l < 256 := by unfold cOf; exact BitVec.isLt _
      omega
    · have : cOf c.c l < 256 := by unfold cOf; exact BitVec.isLt _
      omega

theorem modPath_wait {s : State} {cid p : Nat} {c : Course} {q : Path} (w : Wait) (hq : c.paths.find p = some q) :
    (s.setCourse cid c).modCourse cid (fun c => c.modPath p (fun q => { q with wait := w })) =
    (s.setCourse cid c).setCourse cid { c with paths := c.paths.put p { q with wait := w } } := by
  unfold State.modCourse
  have : (s.setCourse cid c).courses.find cid = some c := by simp
  simp only [this]
  unfold Course.modPath
  rw [hq]

end Sys2Proof.Machine
end

