-- ==== Sys2Proof/Tests/Slice0.lean ====
section
/-!
SUPPORT. Small tests: ill-formed terms that WellFormed refuses, words written out from the spec's encodings, and for every statement states and
operands that meet its hypotheses, at the ends of their ranges.
-/

open Sys2Proof Sys2Proof.Machine
namespace Sys2Proof.Tests

set_option Elab.async false

/-! ### A small machine -/

/-- A partition block that grants everything the tests use (R273). -/
def demoBlock : List Word :=
  [0, 0, 0, 0xFF, 0, 0, 0xFFFFFF0000000000 + 1024 * 2 ^ 19, 0, 0xFFFF000000000000, 1000, 0, 0, 0, 0, 0, 0]

/-- A cached translation of core 0 in context 0. -/
def demoPage (stage2 : Bool) (page frame : Nat) (priv : Bool) : TlbItem :=
  let entry := 7 + frame * 65536 + (if priv then 2 ^ 61 else 0) + 2 ^ 62
  { core := 0, ctx := 0, s1gen := 0, s2gen := 0, what := { stage2 := stage2, page := true, at_ := page, level := 3, entry := entry } }

/-- A context with windows of 4,096 lines in core 0, 1,024 in bay 0, die 0 and the weight buffers of bent 0, and its tables: array descriptors and
leaves at GPA 0x60000 and 0x61000, a pool at GPA 0x70000, crews at 0x8000, slices at 0x1108000 with free blocks from 0x1010000, and the save
area at 0x2000000. -/
def demoCtx : Context :=
  { Context.fresh 0 1 [0, 0, 0, 0x60000, 0x61000, 0x70000, 0x8000, 0x1108000, 0x1010000, 0x2000000, 0, 0, 0, 0, 0, 0] with
    st := .active, wins := [(0, 0, 4096), (96, 0, 1024), (108, 0, 1024), (110, 0, 1024)] }

/-- The path of the tests: 64 lanes at overlay 1, instruction 0. -/
def demoPath : Path :=
  { ovl := 1, idx := 0, lanes := BitVec.allOnes 64, fmask := BitVec.allOnes 64, d := 0, prio := 0, demoted := none, lwb := 0,
    depth := 0, jidx := none, run := none, wait := .nothing, late := [], shim := none, ent := [], offer := none, gap := false, stopped := false }

/-- A course whose path is q: 128 rows, a private region of 18 pages at 0x1000000, scalars as given. -/
def courseAt (q : Path) (scal : List (Nat × Word)) : Course :=
  { wordCourse with rows := 128, priv := 0x1000000, hw := 18, res := 18, scal := scal, paths := [(0, q)] }

/-- The course of the tests. -/
def demoCourse (scal : List (Nat × Word)) : Course := courseAt demoPath scal

/-- A machine in which course c holds issue slot 0 of core 0, with its pages mapped. -/
def demo (c : Course) : State :=
  { State.reset.placeWord 0xE201F80000000000001000FF with
    courses := [(0, c)], ctxs := [(0, demoCtx)], parts := [(0, { Partition.none with block := demoBlock })],
    tlb := [(0, 1), (1, 2), (512, 9), (513, 10), (514, 11), (9728, 2), (10032, 2)].map (fun e => demoPage false e.1 e.2 false) ++
      [(256, 3), (272, 4), (257, 5), (273, 12)].map (fun e => demoPage false e.1 e.2 true) ++
      (List.range 13).map (fun g => demoPage true g (16 + g) false) }

/-- The issuing path of that machine. -/
def demoEnv (c : Course) : Env := { slot := 0, cid := 0, p := 0, co := c, pa := c.paths.getD 0 demoPath }

/-- Operands without a modifier. -/
def ops (d a b : Opnd) : Args := { g := .always, h := .header true 0 none none, m := .none, d := d, a := a, b := b }

/-- Operands with a modifier. -/
def opsM (m : Mod) (d a b : Opnd) : Args := { ops d a b with m := m }

/-- In the small machine every instruction is ready to be executed. -/
theorem demo_ready (c : Course) (e : Entry) (x : Args) (h : c.paths.find 0 = some (c.paths.getD 0 demoPath)) (hs : c.sPoison = 0) (hp : c.pPoison = 0)
    (hf : c.tfencing = false) : Ready (demo c) (demoEnv c) e x := by
  refine ⟨?_, ?_, fun _ _ => hf⟩
  · unfold State.issuing
    show (match c.paths.find 0 with | none => none | some pa => some (⟨0, 0, 0, c, pa⟩ : Env)) = _
    rw [h]
    rfl
  · unfold State.consumed
    rw [if_pos]
    show (true && decide (c.sPoison = 0) && decide (c.pPoison = 0)) = true
    rw [hs, hp]
    rfl

/-- A machine whose course is the plain one with scalars. -/
theorem ready (scal : List (Nat × Word)) (e : Entry) (x : Args) : Ready (demo (demoCourse scal)) (demoEnv (demoCourse scal)) e x :=
  demo_ready _ e x rfl rfl rfl rfl

/-- All 64 lanes act. -/
theorem acting (scal : List (Nat × Word)) (m : Mod) (d a b : Opnd) : (demoEnv (demoCourse scal)).acting (opsM m d a b) = BitVec.allOnes 64 := by
  show (demoEnv (demoCourse [])).acting (opsM .none .zero .zero .zero) = BitVec.allOnes 64
  decide +kernel

/-! ### Ill-formed instructions: one that breaks each check, refused (R35 to R51) -/

def v (r : BitVec 6) : Opnd := .vec r Pat.plain

/-- A well-formed term to start from: add.i32 v1, v2, v3. -/
def good : Args := opsM (.ty .i32) (v 1) (v 2) (v 3)

theorem test_wf_good : (Instr.add good).wf = true := by decide

/-- R48: add lists no float type. -/
theorem test_wf_mod : (Instr.add { good with m := .ty .f32 }).wf = false := by decide

/-- R39: predicate 48 does not exist. -/
theorem test_wf_pred : (Instr.add { good with g := .on 48 false }).wf = false := by decide

/-- R73: else has no guard. -/
theorem test_wf_guard : (Instr.elseRegion { ops .zero .zero .zero with g := .on 1 false }).wf = false := by decide

/-- R258: a push needs a plain predicate. -/
theorem test_wf_plainPred : (Instr.xqPush { ops (v 2) (v 4) (.imm 1) with g := .on 4 true }).wf = false := by decide

/-- R41: flag 12 does not exist, and add lowers no flag. -/
theorem test_wf_flag : (Instr.add { good with h := .header true 0 (some 12) none }).wf = false ∧
    (Instr.add { good with h := .body true .fa }).wf = false := by decide

/-- R35: a field of a class that its entry does not allow; a field that must be zero. -/
theorem test_wf_class : (Instr.add { good with d := .imm 1 }).wf = false ∧ (Instr.neg { good with b := .reg 1 }).wf = false := by decide

/-- R37: a pattern on D, and an amount beside the plain pattern. -/
theorem test_wf_pat : (Instr.add { good with d := .vec 1 { Pat.plain with kind := .rot, amt := 1 } }).wf = false ∧
    (Instr.add { good with a := .vec 1 { Pat.plain with amt := 1 } }).wf = false := by decide

/-- R83: a 64-bit lane value starts at an even register. -/
theorem test_wf_odd : (Instr.add { good with m := .ty .i64 }).wf = false := by decide

/-- R188: tile 8 does not exist. -/
theorem test_wf_field : (Instr.mtfree (ops .zero (.reg 8) .zero)).wf = false := by decide

/-- R36: class 11 stands in both A and B or in neither. -/
theorem test_wf_joined : (Instr.add { good with b := .joined 1 }).wf = false := by decide

/-- R38: a scalar D takes no vector source. -/
theorem test_wf_level : (Instr.add { good with d := .reg 1 }).wf = false := by decide

/-- R96: operator 6 of a reduction does not exist. -/
theorem test_wf_extra : (Instr.lred (opsM (.ty .i32) (v 1) (v 2) (.imm 0xFFF6))).wf = false := by decide

/-! ### Words written out from the spec decode to their instructions -/

/-- Chapter 05: `?p2 break 2` and `?p3 cont`, no headers. -/
theorem test_decode_break_cont :
    decode (.body false false) 0x648810000000000000000000 = .ok (.breakRegion { opsM (.num 2) .zero .zero .zero with g := .on 2 false, h := .body false .none }) ∧
    decode (.body false false) 0x650018000100010000000000 = .ok (.contRegion { ops .zero (.imm 2) .zero with g := .on 3 false, h := .body false .none }) := ⟨rfl, rfl⟩

/-- Chapter 07: `cut s5, 7`. -/
theorem test_decode_cut :
    decode .header 0x7081FA2801000380001000FF = .ok (.cut (ops (.reg 5) (.imm 7) .zero)) := rfl

/-- Chapter 08 gives `?p1 amaxp.n64.die` as a header with FA f0; chapter 27 gives `?p4 atom.add.n32.glob.pkg v26, [v28] &fa`. -/
theorem test_decode_memory :
    decode .header 0x851C0820001400508010000F = .ok (.amaxp { opsM (.ty .n64) (v 4) (v 10) (.imm 0x8400) with g := .on 1 false, h := .header true 0 (some 0) none }) ∧
    decode (.body true false) 0x811820D000380040A0040000 = .ok (.atomAdd { opsM (.ty .n32) (v 26) (v 28) (.imm 0x500) with g := .on 4 false, h := .body false .fa }) := ⟨rfl, rfl⟩

/-- Chapter 10: `fence.rel.pkg` and `fence.sc.part`. -/
theorem test_decode_fences :
    decode .header 0x8635F80000000000001000FF = .ok (.fenceRel (opsM (.scope .pkg) .zero .zero .zero)) ∧
    decode .header 0x8679F80000000000001000FF = .ok (.fenceSc (opsM (.scope .part) .zero .zero .zero)) := ⟨rfl, rfl⟩

/-- Chapter 11 gives `ea.ins s6, 1, 2`; chapter 25 gives `ea.fill v10, v16, 1 &fa`. -/
theorem test_decode_elastic :
    decode .header 0xC101FA30010000C0005000FF = .ok (.eaIns (ops (.reg 6) (.imm 1) (.imm 2))) ∧
    decode (.body true false) 0xC381F8500020004000240000 = .ok (.eaFill { ops (v 10) (v 16) (.imm 1) with h := .body false .fa }) := ⟨rfl, rfl⟩

/-- Chapter 24: `mma.f16.nacc m0, sh0, s20` and `mma.f16.nb m0, sh1, s21`. -/
theorem test_decode_matrix :
    decode (.body false false) 0xAA05FA000080002A00000000 = .ok (.mmaF16 { opsM (.num 1) (.reg 0) (.reg 0) (.reg 20) with h := .body false .none }) ∧
    decode (.body false false) 0xAA09FA000082002A80000000 = .ok (.mmaF16 { opsM (.num 2) (.reg 0) (.reg 1) (.reg 21) with h := .body false .none }) := ⟨rfl, rfl⟩

/-- Chapter 13: `fetch v8, v2, 1`. -/
theorem test_decode_fetch :
    decode .header 0xA181F84000040040003000FF = .ok (.fetch (ops (v 8) (v 2) (.imm 1))) := rfl

/-- Chapter 15: `bar.arrive 2` and `bar.arrive 2, enrol`. -/
theorem test_decode_barriers :
    decode .header 0xCE01F80001000100001000FF = .ok (.barArrive (ops .zero (.imm 2) .zero)) ∧
    decode .header 0xCE01F80001000140003000FF = .ok (.barArriveEnrol (ops .zero (.imm 2) (.imm 1))) := ⟨rfl, rfl⟩

/-- Chapter 16: `launch s2, s3`. -/
theorem test_decode_kernels :
    decode .header 0xE301FA1000860000001000FF = .ok (.launch (ops (.reg 2) (.reg 3) .zero)) := rfl

/-- Chapter 17: `sig.wait.le s3, 0`. -/
theorem test_decode_signals :
    decode .header 0xD08DF80000860040001000FF = .ok (.sigWait (opsM (.num 3) .zero (.reg 3) (.imm 0))) := rfl

/-- Chapter 18: `?p2 xq.push v4, v6, s3`, a header with FA f0. -/
theorem test_decode_experts :
    decode .header 0xC8801020000C00218010000F = .ok (.xqPush { ops (v 4) (v 6) (.reg 3) with g := .on 2 false, h := .header true 0 (some 0) none }) := rfl

/-- Chapter 20: `gate.sig 12, 1`. -/
theorem test_decode_gates :
    decode .header 0xD181F80001000640003000FF = .ok (.gateSig (ops .zero (.imm 12) (.imm 1))) := rfl

/-- Chapter 21: `region`. -/
theorem test_decode_faults :
    decode .header 0xE201F80000000000001000FF = .ok (.region (ops .zero .zero .zero)) := rfl

/-- Chapter 28: `?p2 prof.on 61`, the last of its run. -/
theorem test_decode_profiler :
    decode (.body true false) 0xE384100001001E8000100000 = .ok (.profOn { ops .zero (.imm 61) .zero with g := .on 2 false, h := .body true .none }) := rfl

/-- The fields of R33 laid out by hand, bits [95:87] OP, [86:82] MOD, [81:75] G, [74:57] D, [56:39] A, [38:21] B, [20:0] H: `shl.i32 v1, v2, 3`, `setp.lt.i32 p1, v2, v3`, `vote.any p1, p2`, `kadd.f64 v2`, `tmv s1, s2, s3`, `cp s1, s2, s3`, `srd v1, %lane`, `trap 7`, each a run of one. -/
theorem test_decode_more :
    decode .header 0b000010001_00010_0111111_000000010000000000_000000100000000000_100000000000000011_100000000000011111111 = .ok (.shl (opsM (.ty .i32) (v 1) (v 2) (.imm 3))) ∧
    decode .header 0b010000010_00010_0111111_010000010000000000_000000100000000000_000000110000000000_100000000000011111111 = .ok (.setpLt (opsM (.ty .i32) (.reg 1) (v 2) (v 3))) ∧
    decode .header 0b010001100_00000_0111111_010000010000000000_010000100000000000_000000000000000000_100000000000011111111 = .ok (.voteAny (ops (.reg 1) (.reg 2) .zero)) ∧
    decode .header 0b010011001_01010_0111111_000000000000000000_000000100000000000_000000000000000000_100000000000011111111 = .ok (.kadd (opsM (.ty .f64) .zero (v 2) .zero)) ∧
    decode .header 0b101000000_00000_0111111_010000010000000000_010000100000000000_010000110000000000_100000000000011111111 = .ok (.tmv (ops (.reg 1) (.reg 2) (.reg 3))) ∧
    decode .header 0b101000001_00000_0111111_010000010000000000_010000100000000000_010000110000000000_100000000000011111111 = .ok (.cp (ops (.reg 1) (.reg 2) (.reg 3))) ∧
    decode .header 0b111000000_00000_0111111_000000010000000000_010000010000000000_000000000000000000_100000000000011111111 = .ok (.srd (ops (v 1) (.reg 1) .zero)) ∧
    decode .header 0b111000010_00000_0111111_000000000000000000_100000000000000111_000000000000000000_100000000000011111111 = .ok (.trap (ops .zero (.imm 7) .zero)) := ⟨rfl, rfl, rfl, rfl, rfl, rfl, rfl, rfl⟩

/-- R36, R37 and R51: class 0b11 in a field that takes no operand is CLASS, any other value there MBZ; a pattern code 6 or 7 is MBZ in a D field and PAT in
a source. The words are those of `cut s5, 7` and `fetch v8, v2, 1` with the bits of the field changed. -/
theorem test_decode_refuses :
    decode .header 0x7081FA28010003E0001000FF = .error 0x07 ∧ decode .header 0x7081FA28010003A0001000FF = .error 0x0B ∧
    decode .header 0xA181F84600040040003000FF = .error 0x0B ∧ decode .header 0xA181F84700040040003000FF = .error 0x0B ∧ decode .header 0xA181F84000058040003000FF = .error 0x08 :=
  ⟨rfl, rfl, rfl, rfl, rfl⟩

/-! ### States and operands that meet the hypotheses of the statements -/

/-- The plain machine and its issuing path. -/
abbrev s0 : State := demo (demoCourse [])
abbrev e0 : Env := demoEnv (demoCourse [])

theorem witness_DecodeEncode : (Instr.add good).parts = some (Enc.add, good) ∧ (Instr.add good).wf = true ∧ RunCtx.header.admits good.h = true :=
  ⟨rfl, rfl, rfl⟩

theorem witness_EncodeDecode : ∃ i, decode .header 0xE201F80000000000001000FF = .ok i := ⟨_, rfl⟩

theorem witness_MemoryStaysCanonical :
    ({ s0 with agenda := [.powerCapSet 2000] } : State).memOk ∧ s0.mem ≠ [] ∧ ∃ t, step { s0 with agenda := [.powerCapSet 2000] } = .next t :=
  ⟨rfl, by decide +kernel, _, rfl⟩

theorem witness_StepRunsDecoded_event : ({ s0 with agenda := [.powerCapSet 2000] } : State).agenda = [.powerCapSet 2000] ∧
    ({ s0 with samplers := [(0, ⟨0, true, 16, 0, 1, 0, 0, 0, 16, 31⟩)], time := ⟨16, 0, 0, 1600, 0⟩ } : State).dueSampler = some (.sample 0 0) := ⟨rfl, rfl⟩

theorem witness_StepRunsDecoded_word : s0.agenda = [] ∧ s0.dueSampler = none ∧ s0.up = true ∧ s0.issuing = some e0 ∧ s0.homeEvent e0 = none ∧
    s0.loadingOvl 0 0 1 = false ∧ s0.poisoned (imemBase 0 1) 12 = none ∧
    (∃ o, s0.ovlSlot 0 0 1 = some (1, o) ∧ o.mark = [] ∧ 0 < o.n) ∧
    decode (runCtx e0.pa.run) (s0.word 0 1 0) = .ok (.region (ops .zero .zero .zero)) :=
  ⟨rfl, rfl, rfl, rfl, rfl, rfl, rfl, ⟨_, rfl, rfl, by decide⟩, rfl⟩

/-- A word that is none at the same place: all ones. -/
theorem witness_StepRunsDecoded_bad :
    decode (runCtx e0.pa.run) (State.word { s0 with mem := (List.range 12).map (fun i => (imemBase 0 1 + i, 0xFF)) } 0 1 0) = .error 3 := rfl

theorem witness_StepRunsDecoded_stop : ({ s0 with ovls := [] } : State).ovlSlot 0 0 1 = none ∧
    (∃ o, ({ s0 with ovls := [(1, ⟨1, 0, 0, 0, 0, true, []⟩)] } : State).ovlSlot 0 0 1 = some (1, o) ∧ o.n ≤ e0.pa.idx) ∧
    (let c := courseAt { demoPath with run := some ⟨0, none, none, 24⟩ } []
     (demo c).issuing = some (demoEnv c) ∧ (demo c).homeEvent (demoEnv c) = none ∧ ∃ r, (demoEnv c).pa.run = some r ∧ 24 ≤ r.len) :=
  ⟨rfl, ⟨_, rfl, by decide⟩, rfl, rfl, _, rfl, by decide⟩

theorem witness_CompletingAdvances : s0.courses.find e0.cid = some e0.co ∧ e0.co.paths.find e0.p = some e0.pa ∧ ({} : Adv).gone = false :=
  ⟨rfl, rfl, rfl⟩

/-- A well-formed form of every integer entry, at both levels, and the least and the most rows (R104). -/
theorem witness_IntegerLaneResults :
    ([Enc.add, Enc.sub, Enc.adds, Enc.subs, Enc.mul, Enc.mulhi, Enc.mad, Enc.min, Enc.max, Enc.div, Enc.rem].all (fun e =>
      (e.broken good).isEmpty && (e.broken (opsM (.ty .i32) (.reg 1) (.reg 2) (.imm 3))).isEmpty) &&
     [Enc.neg, Enc.abs].all (fun e => (e.broken { good with b := .zero }).isEmpty) &&
     [Enc.and, Enc.or, Enc.xor].all (fun e => (e.broken { good with m := .ty .b32 }).isEmpty) &&
     (Enc.not.broken (opsM (.ty .b32) (v 1) (v 2) .zero)).isEmpty) = true ∧
    2 ≤ (demoCourse []).rows ∧ (demoCourse []).rows ≤ 4096 := by decide

theorem witness_BitFieldLaneResults :
    ([Enc.shl, Enc.shr, Enc.rol, Enc.bfx, Enc.bfi].all (fun e => (e.broken good).isEmpty || (e.broken { good with m := .ty .n32 }).isEmpty || (e.broken { good with m := .ty .b32 }).isEmpty) &&
     [Enc.popc, Enc.clz, Enc.brev, Enc.mov].all (fun e => (e.broken { good with m := .ty .b32, b := .zero }).isEmpty || (e.broken { good with m := .ty .n32, b := .zero }).isEmpty)) = true := by
  decide

/-- The plain machine meets what the statements on results ask of the state, for every entry and all operands; all lanes act. -/
theorem witness_results (e : Entry) (x : Args) : Ready s0 e0 e x ∧ 2 ≤ e0.co.rows ∧ e0.co.rows ≤ 4096 ∧ e0.acting good ≠ 0 :=
  ⟨ready [] e x, by decide, by decide, by decide +kernel⟩

theorem witness_SelectAndAddress : Ready s0 e0 Enc.sel good ∧ good.d.isVec = true ∧ Ready s0 e0 Enc.lea good := ⟨ready _ _ _, rfl, ready _ _ _⟩

theorem witness_FloatLaneResults : Ready s0 e0 Enc.fadd good ∧ Ready s0 e0 Enc.cvt good ∧ 2 ≤ e0.co.rows ∧ e0.co.rows ≤ 4096 :=
  ⟨ready _ _ _, ready _ _ _, by decide, by decide⟩

theorem witness_PredicateResults : Ready s0 e0 Enc.setpLt good ∧ Ready s0 e0 Enc.ballot (ops (.reg 1) (.reg 2) .zero) ∧
    (ops (.reg 1) (.reg 2) .zero).d = .reg 1 := ⟨ready _ _ _, ready _ _ _, rfl⟩

theorem witness_PermGathers : Ready s0 e0 Enc.perm good ∧ 2 ≤ e0.co.rows ∧ e0.co.rows ≤ 4096 := ⟨ready _ _ _, by decide, by decide⟩

/-- xget without and with a predicate pair, and an xred whose operation is the first of its course. -/
theorem witness_ReductionResults :
    Ready s0 e0 Enc.lred good ∧ Ready s0 e0 Enc.xred good ∧ Ready s0 e0 Enc.xput good ∧ e0.co.xPoison = false ∧
    Ready s0 e0 Enc.xget (ops (.reg 1) (.imm 0) .zero) ∧ Ready s0 e0 Enc.xget (ops (.reg 1) (.imm 0) (.reg 2)) ∧
    (let o : Op := ⟨some 0, 0, 0, 1, 0, none, 0, .xred 5 true false, []⟩
     let s : State := { s0 with ops := [(1, o)], slots := [] }
     s.ops.find 1 = some o ∧ s.firstXred 0 = some 1 ∧ s.mayLand o = true ∧ s.courses.find 0 = some (demoCourse [])) :=
  ⟨ready _ _ _, ready _ _ _, ready _ _ _, rfl, ready _ _ _, ready _ _ _, rfl, rfl, rfl, rfl⟩

theorem witness_LogStepTrees : (∀ a b : Nat, Nat.max a b = Nat.max b a) ∧ ∀ a b c : Nat, Nat.max (Nat.max a b) c = Nat.max a (Nat.max b c) :=
  ⟨Nat.max_comm, Nat.max_assoc⟩

theorem witness_KulischResults : Ready s0 e0 Enc.kclr good ∧ e0.acting good ≠ 0 ∧ Ready s0 e0 Enc.kadd good ∧ Ready s0 e0 Enc.kmac good ∧
    Ready s0 e0 Enc.kscan good ∧ Ready s0 e0 Enc.krd good :=
  ⟨ready _ _ _, by decide +kernel, ready _ _ _, ready _ _ _, ready _ _ _, ready _ _ _⟩

/-- The least positive value of binary64, added to zero. -/
theorem witness_KulischAddIsExact : Fmt.f64.decode 1 = .fin false 1 (-1074) ∧
    let w : Int := (if false then -1 else 1) * 1 * 2 ^ ((-1074 : Int) + 1074).toNat
    0 ≤ (0 : BitVec 2176).toInt + w + 2 ^ 2175 ∧ (0 : BitVec 2176).toInt + w < 2 ^ 2175 := by
  have one : (1 : Int) < 2 ^ 2175 := one_lt_pow₀ (by decide) (by decide)
  have w : (if false then -1 else 1) * 1 * 2 ^ ((-1074 : Int) + 1074).toNat = (1 : Int) := rfl
  have z : (0 : BitVec 2176).toInt = 0 := BitVec.toInt_zero
  refine ⟨rfl, ?_⟩
  rw [w, z]
  exact ⟨add_nonneg (by decide) (zero_le_one.trans one.le), by rw [zero_add]; exact one⟩

/-- A path at depth d, window base lwb and region depth r, with the lanes given. -/
def pathAt (lanes : LaneMask) (depth lwb r : Nat) : Path := { demoPath with lanes := lanes, fmask := lanes, depth := depth, lwb := lwb, d := r }

/-- A result that is no error is some result. -/
theorem ok_of_isOk {α ε : Type} {x : Except ε α} (h : x.isOk = true) : ∃ t, x = .ok t := by
  cases x with
  | error e => cases h
  | ok t => exact ⟨t, rfl⟩

/-- Region depths 254, 1 and 255, and break out of as many regions as stand open. -/
theorem witness_StructuredControl :
    (let c := courseAt (pathAt 3 0 0 254) []; Ready (demo c) (demoEnv c) Enc.ifRegion good ∧ (demoEnv c).pa.d ≠ 255) ∧
    (let c := courseAt (pathAt 3 0 0 1) []; Ready (demo c) (demoEnv c) Enc.elseRegion good ∧ (demoEnv c).pa.d ≠ 0) ∧
    (let c := courseAt (pathAt 3 0 0 255) []; Ready (demo c) (demoEnv c) Enc.endifRegion good ∧ (demoEnv c).pa.d ≠ 0) ∧
    (let c := courseAt (pathAt 3 0 0 2) []
     (opsM (.num 2) .zero .zero .zero).m = .num 2 ∧ (2 : BitVec 5).toNat ≤ (demoEnv c).pa.d ∧ (2 : BitVec 16).toNat ≤ (demoEnv c).pa.d) :=
  ⟨⟨demo_ready _ _ _ rfl rfl rfl rfl, by decide⟩, ⟨demo_ready _ _ _ rfl rfl rfl rfl, by decide⟩, ⟨demo_ready _ _ _ rfl rfl rfl rfl, by decide⟩, rfl,
    by decide, by decide⟩

/-- An endloop that goes round, an active lane being left, and one that closes its loop, both lanes being parked at level 1. -/
theorem witness_StructuredControl_endloop :
    (let c := courseAt (pathAt 3 0 0 1) []
     Ready (demo c) (demoEnv c) Enc.endloopRegion (ops .zero (.imm 0) .zero) ∧ (demoEnv c).pa.d ≠ 0 ∧ (demoEnv c).F.getLsbD 0 = true ∧
       cOf c.c 0 = 0 ∧ (demo c).target 0 0 (demoEnv c).pa.ovl (Opnd.imm 0).ctl = .ok) ∧
    (let c := { courseAt (pathAt 3 0 0 1) [] with c := 0x0101 }
     Ready (demo c) (demoEnv c) Enc.endloopRegion (ops .zero (.imm 0) .zero) ∧ (demoEnv c).pa.d ≠ 0 ∧ c.k = 0 ∧
       ∀ l, l < 64 → (demoEnv c).F.getLsbD l = true → cOf c.c l ≠ 0) :=
  ⟨⟨demo_ready _ _ _ rfl rfl rfl rfl, by decide, by decide +kernel, by decide +kernel, rfl⟩, demo_ready _ _ _ rfl rfl rfl rfl, by decide, rfl, by decide +kernel⟩

/-- A branch that no lane takes, one to a run start, and one past the end of its overlay. -/
theorem witness_BranchesComplete :
    Ready s0 e0 Enc.br { ops .zero (.imm 0) .zero with g := .on 0 false } ∧ e0.acting { ops .zero (.imm 0) .zero with g := .on 0 false } = 0 ∧
    e0.acting (ops .zero (.imm 0) .zero) ≠ 0 ∧
    s0.target 0 0 (e0.targetOf (.imm 0) .zero).1 (e0.targetOf (.imm 0) .zero).2 = .ok ∧
    s0.target 0 0 (e0.targetOf (.imm 1) .zero).1 (e0.targetOf (.imm 1) .zero).2 = .bad Trap.ovl ∧ Ready s0 e0 Enc.nop good :=
  ⟨ready _ _ _, by decide +kernel, by decide +kernel, rfl, rfl, ready _ _ _⟩

/-- A course with two paths, path 0 demoted, and the end of path 1. -/
theorem witness_YieldDemotion :
    (let q : Path := { demoPath with lanes := 1, demoted := some 0 }
     let c : Course := { demoCourse [] with paths := [(0, q), (1, { demoPath with lanes := 2 })] }
     q.demoted ≠ none ∧ demoPath.demoted = none ∧ c.paths.find (1 - 1) = some q ∧ q.demoted = some 0 ∧ Ready (demo c) (demoEnv c) Enc.yield good ∧
     (∃ d u, ((demo c).dropPath 0 1).courses.find 0 = some d ∧ d.stack = 0 ∧ ((demo c).freeSlot (0 + 1) 0 1).courses.find 0 = some u ∧ u.paths ≠ [])) ∧
    Ready s0 e0 Enc.prio (opsM (.num 31) .zero .zero .zero) ∧ e0.acting (opsM (.num 31) .zero .zero .zero) ≠ 0 :=
  ⟨⟨by decide, rfl, rfl, rfl, demo_ready _ _ _ rfl rfl rfl rfl, _, _, rfl, rfl, rfl, by decide⟩, ready _ _ _, by decide +kernel⟩

/-- A call at depth 1,022 that needs the last rows of the segment, of one lane. -/
theorem witness_CallsEnterFrames :
    let c := courseAt (pathAt 1 1022 0 0) [(2, 0x10000)]
    let f : Frame := { mask := 1, ovl := 1, idx := 1, d := 0, units := 16, kind := 0, marked := false, mark := 0 }
    Ready (demo c) (demoEnv c) Enc.call (opsM (.num 16) .zero (.imm 0) .zero) ∧ (demoEnv c).acting (opsM (.num 16) .zero (.imm 0) .zero) ≠ 0 ∧
    (demo c).target 0 0 ((demoEnv c).targetOf (.imm 0) .zero).1 ((demoEnv c).targetOf (.imm 0) .zero).2 = .ok ∧ (demoEnv c).pa.depth ≠ 1023 ∧
    c.windowTrap (0 + 4 * 16) = none ∧ (∃ t, (demo c).tick.enterFrame c 1023 64 f (lanesOf (demoEnv c).active) = .ok t) ∧
    groupBy (fun l => (demo c).lane (demoEnv c) (opsM (.num 16) .zero (.reg 2) .zero) .n32 (.reg 2) l)
      (lanesOf ((demoEnv c).acting (opsM (.num 16) .zero (.reg 2) .zero))) = [(0x10000, 1)] :=
  ⟨demo_ready _ _ _ rfl rfl rfl rfl, by decide +kernel, rfl, by decide, rfl, ok_of_isOk (by decide +kernel), by decide +kernel⟩

/-- A return to the frame of a call, and one from the launch frame. -/
theorem witness_ReturnsLeaveFrames :
    (let c := courseAt (pathAt 1 1 16 0) []
     let r : Frame := { mask := 1, ovl := 1, idx := 0, d := 0, units := 4, kind := 0, marked := false, mark := 0 }
     let s : State := (demo c).pokeNat (19 * 65536 + frameOff 1 0) 16 r.pack
     let x := ops .zero .zero .zero
     Ready s (demoEnv c) Enc.ret x ∧ (demoEnv c).acting x ≠ 0 ∧ (demoEnv c).pa.depth ≠ 0 ∧ r.kind = 0 ∧
     (s.tick.frameAt c 1 (lowLane 1)).toOption = some r ∧ (s.tick.privRead c (depthOff 0) 8).isOk = true ∧
     s.isResumption c = false ∧ s.target 0 0 r.ovl r.idx = .ok ∧
     c.windowTrap (16 - 4 * r.units) = none ∧
     ((s.tick.putDepth c 0 0 [0]).toOption.bind (fun t => t.courses.find 0)).isSome = true) ∧
    (let q : Path := { pathAt 3 0 0 0 with fmask := 1 }
     let c := courseAt q []
     (demoEnv c).acting (ops .zero .zero .zero) ≠ 0 ∧ ((demo c).tick.frameAt c 0 (lowLane q.fmask)).isOk = true ∧
     ((demo c).tick.privRead c (depthOff (lowLane q.fmask)) 8).isOk = true ∧ q.depth = 0 ∧ q.lanes &&& ~~~(c.exited ||| q.fmask) ≠ 0) :=
  ⟨⟨⟨rfl, rfl, fun _ _ => rfl⟩, by decide +kernel, by decide, rfl, by decide +kernel, by decide +kernel, by decide +kernel, by decide +kernel, by decide +kernel, by decide +kernel⟩,
    by decide +kernel, by decide +kernel, by decide +kernel, rfl, by decide +kernel⟩

/-- An exit of every lane, and one of half of them. -/
theorem witness_ExitMarksLanes :
    (Ready s0 e0 Enc.exit (ops .zero .zero .zero) ∧ e0.acting (ops .zero .zero .zero) ≠ 0 ∧
      e0.pa.lanes &&& ~~~(e0.co.exited ||| e0.acting (ops .zero .zero .zero)) = 0) ∧
    (let c : Course := { demoCourse [] with preds := [(1, 0xFFFFFFFF)] }
     let x : Args := { ops .zero .zero .zero with g := .on 1 false }
     Ready (demo c) (demoEnv c) Enc.exit x ∧ (demoEnv c).acting x ≠ 0 ∧ (demoEnv c).pa.lanes &&& ~~~(c.exited ||| (demoEnv c).acting x) ≠ 0) :=
  ⟨⟨ready _ _ _, by decide +kernel, by decide +kernel⟩, demo_ready _ _ _ rfl rfl rfl rfl, by decide +kernel, by decide +kernel⟩

/-- %lane may be named; %mst of a tile only by the tile's holder. -/
theorem witness_SpecialRegisters :
    s0.specialOk e0 0x01 .zero = true ∧ s0.specialOk e0 0x0A .zero = true ∧ s0.specialOk e0 0x0B .zero = true ∧ s0.specialOk e0 0x11 .zero = true ∧
    s0.specialOk e0 0x0D (.reg 0) = false ∧
    ({ s0 with tiles := [(0, ⟨.held 0, some 0, 0, false, 0⟩)] } : State).specialOk e0 0x0D (.reg 0) = true ∧
    (ops (.reg 0x0D) (.reg 1) (.reg 0)).d.num = 0x0D := by decide +kernel

/-- A machine with the word v of n bytes at physical address pa. -/
def State.having (s : State) (l : List (Nat × Nat × Nat)) : State := l.foldl (fun s w => s.pokeNat w.1 w.2.1 w.2.2) s

/-- A course of one lane in frame 1, entered by a call from frame 0, which carries mark 7. -/
def cutCourse : Course := courseAt (pathAt 1 1 16 0) []
def cutState : State := State.having (demo cutCourse)
  [(19 * 65536 + frameOff 0 0, 16, Frame.pack { mask := 1, ovl := 1, idx := 0, d := 0, units := 0, kind := 1, marked := true, mark := 7 }),
   (19 * 65536 + frameOff 1 0, 16, Frame.pack { mask := 1, ovl := 1, idx := 0, d := 0, units := 4, kind := 0, marked := false, mark := 0 })]

/-- A slice of one frame and one row in slot 0. -/
def graftCourse : Course := courseAt (pathAt 1 0 0 0) [(1, 0)]
def graftState (st : Nat) : State := State.having (demo graftCourse)
  [(20 * 65536 + 0x8000, 8, 0x1010000), (20 * 65536 + 0x8008, 8, sliceWord1 0 st),
   (21 * 65536, 8, 1 * 2 ^ 32 + 1 * 2 ^ 16), (21 * 65536 + 8, 8, 1 * 2 ^ 48), (21 * 65536 + 16, 8, 1), (21 * 65536 + 24, 8, 1),
   (21 * 65536 + 256, 16, Frame.pack { mask := 1, ovl := 1, idx := 0, d := 0, units := 0, kind := 0, marked := false, mark := 0 })]

/-- An operation of course 0. -/
def opOf (k : OpKind) : Op := { cid := some 0, ctx := 0, path := 0, ovl := 1, idx := 0, flag := none, lwb := 0, kind := k, pend := [] }

/-- The machine between runs, with one operation under way. -/
def underWay (c : Course) (k : OpKind) : State := { demo c with slots := [], cur := none, ops := [(1, opOf k)], nextId := 2 }

theorem witness_WindowsAndSlices_mark :
    let c := courseAt (pathAt 1 0 0 0) []
    Ready (demo c) (demoEnv c) Enc.mark (ops .zero (.imm 7) .zero) ∧ (demoEnv c).acting (ops .zero (.imm 7) .zero) ≠ 0 ∧
    ((lanesOf (demoEnv c).pa.fmask).foldlM (m := Except Trap) (fun (s : State) l => do
      let w ← s.privRead c (frameOff 0 l + 8) 8
      s.privWrite c (frameOff 0 l + 8) 8 (setBits w 0 17 (2 ^ 16 + 7))) (demo c).tick).isOk = true ∧
    lanesOf (demoEnv c).pa.fmask = [0] ∧ ((demo c).tick.privAt c (frameOff 0 0 + 8) 8 false).isOk = true ∧ (demo c).tick.poison = [] ∧
    ((demo c).tick.privAt c (frameOff 0 0 + 8) 8 true).isOk = true :=
  ⟨demo_ready _ _ _ rfl rfl rfl rfl, by decide +kernel, by decide +kernel, by decide +kernel, by decide +kernel, rfl, by decide +kernel⟩

/-- A flush by one row, and by as many rows as the segment has. -/
theorem witness_WindowsAndSlices_wflush :
    (∀ k ∈ ([1, 128] : List Nat),
      (toInt 32 (e0.val (ops .zero (.imm (BitVec.ofNat 16 k)) .zero) .i32 (.imm (BitVec.ofNat 16 k)))).natAbs ≤ e0.co.rows ∧
      (leaveRows 0 128 k).all (fun L => decide (0 ≤ L) && (s0.tick.privAt e0.co (spillOff L.toNat) 256 true).isOk) = true ∧
      (leaveRows k 128 0).all (fun L => decide (0 ≤ L) && (s0.tick.privAt e0.co (spillOff L.toNat) 256 false).isOk) = true) ∧
    (let s := underWay (demoCourse []) (.wflush 1)
     s.ops.find 1 = some (opOf (.wflush 1)) ∧ s.courses.find 0 = some (demoCourse []) ∧ s.mayLand (opOf (.wflush 1)) = true ∧
     (s.opsOf 0).all (fun q => decide (1 ≤ q.1)) = true ∧
     (leaveRows 0 128 1).all (fun L => decide (0 ≤ L) && (s.privAt (demoCourse []) (spillOff L.toNat) 256 true).isOk) = true ∧
     (leaveRows 1 128 0).all (fun L => decide (0 ≤ L) && (s.privAt (demoCourse []) (spillOff L.toNat) 256 false).isOk) = true ∧
     s.engineReady 1 (opOf (.wflush 1)) [(19 * 65536, 256)] [(19 * 65536, 256)] = true) := by decide +kernel

theorem witness_WindowsAndSlices_cut :
    Ready cutState (demoEnv cutCourse) Enc.cut (ops (.reg 5) (.imm 7) .zero) ∧ (demoEnv cutCourse).acting (ops (.reg 5) (.imm 7) .zero) ≠ 0 ∧
    (cutState.tick.cutRun 0 0 (demoEnv cutCourse).pa 5 7 1 1).isOk = true :=
  ⟨⟨rfl, rfl, fun _ _ => rfl⟩, by decide +kernel, by decide +kernel⟩

/-- A graft of a slice of one frame, and one of a slice whose lanes do not act. -/
theorem witness_WindowsAndSlices_graft :
    Ready (graftState Slice.live) (demoEnv graftCourse) Enc.graft (ops .zero (.reg 1) .zero) ∧
    (demoEnv graftCourse).acting (ops .zero (.reg 1) .zero) ≠ 0 ∧
    ((graftState Slice.live).tick.graftRun (demoEnv graftCourse) [(0, 1)] true 1 1).toOption.join.isSome = true ∧
    groupBy (fun l => (graftState Slice.live).lane (demoEnv graftCourse) (ops .zero (.reg 1) .zero) .n64 (.reg 1) l)
      (lanesOf ((demoEnv graftCourse).acting (ops .zero (.reg 1) .zero))) = [(0, 1)] ∧
    (((State.having (graftState Slice.live) [(21 * 65536 + 24, 8, 2)]).tick.graftRun (demoEnv graftCourse) [(0, 1)] true 1 1).toOption.map (·.isNone)) =
      some true :=
  ⟨⟨rfl, rfl, fun _ _ => rfl⟩, by decide +kernel, by decide +kernel, by decide +kernel, by decide +kernel⟩

/-- A slice that its context owns and that is LIVE is dropped. -/
theorem witness_WindowsAndSlices_drop :
    Ready (graftState Slice.live) (demoEnv graftCourse) Enc.sliceDrop (ops .zero (.reg 1) .zero) ∧
    (demoEnv graftCourse).acting (ops .zero (.reg 1) .zero) ≠ 0 ∧ graftCourse.scalar 1 = 0 ∧
    (Handle.ofWord 0).part = (graftState Slice.live).partOf 0 ∧ (Handle.ofWord 0).ctx = 0 ∧
    ((graftState Slice.live).tick.sliceWord 0 (Handle.ofWord 0) 1).toOption.any (fun v => sliceGen v == 0 && sliceState v == 1) = true :=
  ⟨⟨rfl, rfl, fun _ _ => rfl⟩, by decide +kernel, by decide +kernel, by decide +kernel, by decide +kernel, by decide +kernel⟩

/-- A cut and a graft whose copies have completed, and a dropped slice that no graft reads. -/
theorem witness_WindowsAndSlices_commit :
    (let q : Path := { pathAt 1 1 16 0 with wait := .copy 1 none }
     let c := courseAt q []
     let o := opOf (.slice (.cut 5 7))
     let s : State := { cutState with slots := [], cur := none, courses := [(0, c)], ops := [(1, o)], nextId := 2 }
     s.ops.find 1 = some o ∧ s.courses.find 0 = some c ∧ c.paths.find 0 = some q ∧ s.mayLand o = true ∧ s.engineReady 1 o [] (s.ownRanges 1) = true ∧
     c.saved = false ∧ (s.cutRun 0 0 { q with wait := .nothing } 5 7 1 1).isOk = true) ∧
    (let q : Path := { pathAt 1 0 0 0 with wait := .copy 1 none }
     let c := courseAt q [(1, 0)]
     let o := opOf (.slice (.graft [(0, 1)]))
     let s : State := { graftState Slice.live with slots := [], cur := none, courses := [(0, c)], ops := [(1, o)], nextId := 2 }
     let env : Env := { slot := c.slot, cid := 0, p := 0, co := c, pa := q }
     c.paths.find 0 = some q ∧ s.mayLand o = true ∧ s.engineReady 1 o [] (s.ownRanges 1) = true ∧
     (s.graftRun env [(0, 1)] false 1 1).toOption.join.isSome = true) ∧
    (let s : State := { graftState Slice.dropping with ops := [(1, opOf (.sliceDrop 0))] }
     s.ops.find 1 = some (opOf (.sliceDrop 0)) ∧ s.courses.find 0 = some graftCourse ∧ s.grafting 0 = false ∧
     (s.freeSliceEntry 0 (Handle.ofWord 0)).isOk = true) := by decide +kernel

/-- ld.n32 of global memory: no acting lane; all lanes at address 0; all at an address that is not canonical; and of a core store line that is
absent. -/
theorem witness_MemoryInstructionsStart :
    (let x := opsM (.ty .n32) (v 4) (v 2) (.imm 0)
     let far : State := { s0 with rows := [(3, BitVec.allOnes 2048)] }
     (∀ e, Ready s0 e0 e x) ∧ memLanes { x with g := .on 0 false } e0 = [] ∧
     memLanes x e0 ≠ [] ∧ memWaits x e0 s0.tick = false ∧
     (∃ l, checkLanes x false 4 4 (memLanes x e0) e0 s0.tick = .ok l ∧ s0.tick.absentLines l = []) ∧
     (∃ t, checkLanes x false 4 4 (memLanes x e0) e0 far.tick = .error t)) ∧
    (let x := opsM (.ty .n32) (v 4) (v 2) (.imm 0x4000)
     let s : State := { s0 with absent := [coreBase 0 / 256] }
     ∃ l, checkLanes x false 4 4 (memLanes x e0) e0 s.tick = .ok l ∧ s.tick.absentLines l ≠ []) := by
  refine ⟨⟨fun _ => ready _ _ _, by decide +kernel, by decide +kernel, by decide +kernel, ?_, ?_⟩, ?_⟩
  · refine ⟨((checkLanes (opsM (.ty .n32) (v 4) (v 2) (.imm 0)) false 4 4 (memLanes (opsM (.ty .n32) (v 4) (v 2) (.imm 0)) e0) e0 s0.tick).toOption.getD []),
      by decide +kernel, by decide +kernel⟩
  · exact ⟨Trap.page Sub.canon 0 0xFFFFFFFF00000000 0, by decide +kernel⟩
  · refine ⟨((checkLanes (opsM (.ty .n32) (v 4) (v 2) (.imm 0x4000)) false 4 4 (memLanes (opsM (.ty .n32) (v 4) (v 2) (.imm 0x4000)) e0) e0
      ({ s0 with absent := [coreBase 0 / 256] } : State).tick).toOption.getD []), by decide +kernel, by decide +kernel⟩

theorem witness_AccessesReturnAndLeave : s0.poison = [] ∧ Ty.n64.bits / 8 ≤ (⟨0, 17 * 65536, 8, .rc, 5, 0, 0, 0⟩ : Acc).n := ⟨rfl, by decide⟩

/-- A park at address 0, its wake-up and its time-out at the very moment, the fences, and an operation that waits for lock entries. -/
theorem witness_StoresAndOrder :
    s0.pkg.frameMap = [] ∧
    (let x := opsM (.ty .n64) (.reg 1) (.reg 2) (.imm 0)
     let a : Acc := ⟨64, 17 * 65536, 8, .rc, 0, 0, 0, 0⟩
     Ready s0 e0 Enc.park x ∧ e0.acting x ≠ 0 ∧ memWaits x e0 s0.tick = false ∧ checkLanes x false 8 8 [64] e0 s0.tick = .ok [a] ∧
     s0.tick.absentLines [a] = [] ∧ s0.poison = [] ∧
     s0.tick.accReady s0.nextId 0 { m := .ld, t := .n64, d := .zero, acq := false, rel := false, scope := .cw, lanes := e0.acting x, so := a.kind == .so, array := none, todo := [a], got := [], whole := [], bad := none } a = true) ∧
    (let q : Path := { demoPath with wait := .park 0 0x110000 0 true }
     (demo (courseAt q [])).path 0 0 = some q ∧ (0 : Nat) ≤ (demo (courseAt q [])).time.clk) ∧
    ((∀ e, Ready s0 e0 e (opsM (.scope .pkg) .zero .zero .zero)) ∧ e0.acting (opsM (.scope .pkg) .zero .zero .zero) ≠ 0) ∧
    (let o := { opOf .nothing with pend := [(0, 256, true)] }
     ({ s0 with ops := [(1, o)] } : State).ops.find 1 = some o ∧ o.pend ≠ [] ∧ ∀ k, o.kind ≠ .fbind k) := by
  refine ⟨rfl, ⟨ready _ _ _, by decide +kernel, by decide +kernel, by decide +kernel, by decide +kernel, rfl, by decide +kernel⟩,
    ⟨rfl, by decide⟩, ⟨fun _ => ready _ _ _, by decide +kernel⟩, rfl, by decide, ?_⟩
  intro k h
  cases h

/-- The trap an instruction raises. -/
def resTrap : Res → Option Trap
  | .trap t => some t
  | _ => none

/-- Behind a tfence of its course: a load at address 0 and one at an address that is not canonical are held back, as an access traps only when it is
made; a copy of no bytes traps at once. -/
theorem witness_StoresAndOrder_held :
    (let c : Course := { demoCourse [] with fences := [⟨0, .tf 1, .pkg, BitVec.allOnes 64⟩] }
     let far : State := { demo c with rows := [(3, BitVec.allOnes 2048)] }
     let x := opsM (.ty .n32) (v 4) (v 2) (.imm 0)
     HeldBack (demo c) (demoEnv c) Enc.ld x ∧ resTrap (memOp x .ld (demoEnv c) (demo c).tick) = none ∧
     (resTrap (memOp x .ld (demoEnv c) far.tick)).map Trap.ofAccess = some true ∧
     HeldBack far (demoEnv c) Enc.ld x ∧ HeldBack far (demoEnv c) Enc.cp (ops (.reg 1) (.reg 2) (.imm 0)) ∧
     (resTrap (cpBody (ops (.reg 1) (.reg 2) (.imm 0)) (demoEnv c) far.tick)).map Trap.ofAccess = some false) := by
  refine ⟨⟨by decide +kernel, by decide +kernel, rfl, by decide +kernel, rfl⟩, by decide +kernel, by decide +kernel, ?_, ?_, by decide +kernel⟩
  · exact ⟨by decide +kernel, by decide +kernel, rfl, by decide +kernel, rfl⟩
  · exact ⟨by decide +kernel, by decide +kernel, rfl, by decide +kernel, rfl⟩

/-- One line and 4,096 lines, from the first line of the core store; a line that arrives. -/
theorem witness_ScratchMoves :
    (∀ n ∈ ([1, 4096] : List Nat),
      let c := demoCourse [(1, 0x2000000000000000), (2, 0x2000000000000000), (3, BitVec.ofNat 64 n)]
      (demoEnv c).val (ops (.reg 1) (.reg 2) (.reg 3)) .n32 (.reg 3) = n ∧ bits (c.scalar 1).toNat 0 8 = 0 ∧ bits (c.scalar 2).toNat 0 8 = 0 ∧
      (demo c).tick.scratchLines 0 (c.scalar 1) n = .ok (coreBase 0) ∧ (demo c).tick.scratchLines 0 (c.scalar 2) n = .ok (coreBase 0)) ∧
    (let e : MoveLine := ⟨0, coreBase 0 / 256, coreBase 0 / 256 + 1, .free⟩
     let s := underWay (demoCourse []) (.tmv false [e])
     s.ops.find 1 = some (opOf (.tmv false [e])) ∧ [e].find? (fun e => e.i = 0) = some e ∧
     s.lineReady 1 (opOf (.tmv false [e])) false [e] e = true) := by decide +kernel

/-- The hypervisor's page accepts commands, and so does a partition's page those of its own. -/
theorem witness_accepts (s : State) (h : s.up = true) (hc : s.cmds = []) (off part : Nat) (ho : off < 0x1200) (hp : part < 16) :
    s.accepts 0 off true part ∧ s.accepts (part + 1) off false part := by
  have hn (page : Nat) : s.cmdPending page off = false := by
    unfold State.cmdPending
    rw [hc]
    rfl
  exact ⟨⟨h, hn _, by omega, .inl rfl⟩, ⟨h, hn _, by omega, .inr ⟨ho, rfl, rfl⟩⟩⟩

def demoWalk (g : BitVec 32) : Walk := { core := 0, ctx := 0, va := 0x70000, warm := true, s1gen := g, s2gen := 0, items := [demoPage false 7 7 false] }

/-- Walks with the current generation and an older one, and invalidations that may and may not be acknowledged. -/
theorem witness_WalksAndFrames_walks :
    s0.up = true ∧ s0.ctxs.find 0 = some demoCtx ∧ demoCtx.part = 0 ∧ (95 < 96 ∧ 2 ^ 60 - 1 < 2 ^ 60) ∧
    takeWalk 0 0 [demoWalk 0] = some (demoWalk 0, []) ∧ (demoWalk 0).s1gen = demoCtx.s1gen ∧ (demoWalk 0).s2gen = s0.s2gen 0 ∧
    takeWalk 0 0 [demoWalk 1] = some (demoWalk 1, []) ∧ (demoWalk 1).s1gen ≠ demoCtx.s1gen ∧
    (∃ p, s0.parts.find 0 = some p) ∧
    (let i : Inval := ⟨1, 0, some 0, 1⟩
     let s : State := { s0 with invals := [i] }
     s.invals.find? (fun v => v.page = 1) = some i ∧ s.holdsOld i = false ∧ s.oldWalk i = false ∧
     ({ s with walks := [demoWalk 1] } : State).oldWalk i = true) :=
  ⟨rfl, rfl, rfl, by decide, rfl, rfl, rfl, rfl, by decide, ⟨_, rfl⟩, rfl, rfl, rfl, rfl⟩

/-- The seventh and the eighth corrected error of the last frame; frames with and without eight errors; the first and the last line of a migration. -/
theorem witness_WalksAndFrames_frames :
    2 ^ 23 - 1 < 2 ^ 23 ∧
    (let s (n : Nat) : State := { s0 with pkg := { s0.pkg with corrected := [(2 ^ 23 - 1, n)] } }
     (s 6).pkg.corrected.getD (2 ^ 23 - 1) 0 + 1 ≠ 8 ∧ (s 7).pkg.corrected.getD (2 ^ 23 - 1) 0 + 1 = 8 ∧
     (s 7).pkg.corrected.getD (2 ^ 23 - 1) 0 < 8 ∧ 8 ≤ (s 8).pkg.corrected.getD (2 ^ 23 - 1) 0) ∧
    s0.pkg.frames.find 5 = none ∧ s0.pkg.badFrames.length < 16384 ∧ s0.pkg.spares = [] ∧
    (2 ^ 52 - 65536) % 65536 = 0 ∧ (2 ^ 52 - 65536) / 65536 + 1 ≤ 2 ^ 36 ∧
    (∀ k ∈ ([0, 254, 255] : List Nat),
      let o := { opOf (.frame 5) with cid := none }
      let s : State := { s0 with ops := [(1, o)], pkg := { s0.pkg with frames := [(5, .migrating 9 k)] } }
      s.up = true ∧ s.pkg.frames.find 5 = some (.migrating 9 k) ∧ s.migrationOp 5 = some (1, o) ∧ o.pend = [] ∧
      s.rangeFree 1 false (s.hpaOf 5 * 65536 + 256 * k, 256) = true ∧ Memory.wf s.mem = true) := by
  decide +kernel

/-- A copy of 256 bytes from address 0 to address 0x10000. -/
def demoCopy : Copy := { src := 0, dst := 0x10000, rows := 1, len := 256, spitch := 0, dpitch := 0, sig := 0, free := [], earlier := [] }

/-- Ranges that a copy may read or write, from address 0; a source that is not mapped; no bytes; a descriptor at address 0. -/
theorem witness_Copies_ranges (w : Bool) : s0.tick.copyRange e0 0 1 w := by
  unfold State.copyRange
  rw [if_neg (by decide +kernel)]
  cases w <;> decide +kernel

theorem witness_Copies_issue :
    (let s : State := s0
     ∀ e x, Ready s e0 e x) ∧ e0.acting (opsM .none (.reg 1) (.reg 2) (.reg 3)) ≠ 0 ∧ e0.val (ops (.reg 1) (.reg 2) (.reg 3)) .n32 (.reg 3) = 0 ∧
    ¬ s0.tick.copyRange e0 0x90000000 1 false ∧
    (let s := State.having s0 [(17 * 65536 + 8, 8, 0x10000), (17 * 65536 + 16, 8, 1 * 2 ^ 32 + 256)]
     (∀ e x, Ready s e0 e x) ∧ s.tick.blockOpen e0 (e0.co.scalar 2).toNat ∧
     Copy.check (s.tick.blockWords e0 0) = none ∧ Copy.ofWords (s.tick.blockWords e0 0) = demoCopy) := by
  refine ⟨fun _ _ => ready _ _ _, by decide +kernel, by decide +kernel, ?_, fun _ _ => ready _ _ _, ?_, by decide +kernel, by decide +kernel⟩
  · unfold State.copyRange
    rw [if_neg (by decide +kernel)]
    decide +kernel
  · unfold State.blockOpen
    decide +kernel

theorem witness_Copies_events :
    (let s := underWay (demoCourse []) (.cp demoCopy false none)
     s.ops.find 1 = some (opOf (.cp demoCopy false none)) ∧ (s.ops.filter (fun p => s.onEngine 0 p.2)).length < Config.copyEngines ∧
     s.copyBehind 1 (opOf (.cp demoCopy false none)) = false) ∧
    (let o := opOf (.cp demoCopy true none)
     let s := underWay (demoCourse []) o.kind
     s.copyRows (s.opCore o) 0 (some (demoCourse [])) 0 1 256 0 false = .ok [(17 * 65536, 256)] ∧
     s.copyRows (s.opCore o) 0 (some (demoCourse [])) 0x10000 1 256 0 true = .ok [(18 * 65536, 256)] ∧
     demoCopy.linesReady s [(17 * 65536, 256)] = true ∧ s.engineReady 1 o [(17 * 65536, 256)] [(18 * 65536, 256)] = true ∧ demoCopy.sig = 0) ∧
    (let o := opOf (.cp { demoCopy with sig := 8 } true none)
     let s := underWay (demoCourse []) o.kind
     let t := (s.writeMarked [(18 * 65536, 256)] (s.readMarked [(17 * 65536, 256)])).arriveLines 1 (scratchLinesOf [(18 * 65536, 256)])
     s.signalFree 1 (s.opCore o) 0 8 = true ∧ (t.translate (s.opCore o) 0 8 none true).toOption = some (17 * 65536 + 8, .rc)) ∧
    (let o := opOf (.ovlLd 0 2 9 0x90000000 1 true); ((underWay (demoCourse []) o.kind).engineFault o).isSome = true) ∧
    (let c : Copy := { demoCopy with src := 0x90000000 }
     let o := opOf (.cp c true none)
     let s := underWay (demoCourse []) o.kind
     (s.engineFault o).isSome = true ∧
     s.copyPieces (s.opCore o) 0 (some (demoCourse [])) (c.dst + BitVec.ofNat 64 (0 * c.dpitch)) c.len true = .ok [(18 * 65536, 256)] ∧
     [[(18 * 65536, 256)]].length = c.rows) := by
  decide +kernel

/-- A valid descriptor of 16 elements of .n32 from address 0, and one with a reserved layout. -/
def demoFetch : List Word := [0, 0x06 * 2 ^ 55, 16, 0, 0, 0, 0, 0]
def demoBind (live : Bool) : Binding := { words := demoFetch, op := 1, live := live }

theorem witness_Bindings_fbind :
    FDesc.valid demoFetch = true ∧ FDesc.valid (demoFetch.set 1 (5 * 2 ^ 60)) = false ∧
    (s0.tick.extent 0 e0.co (FDesc.parse demoFetch)).isOk = true ∧
    (let s := State.having s0 [(17 * 65536 + 8, 8, 0x06 * 2 ^ 55), (17 * 65536 + 16, 8, 16)]
     s.tick.blockOpen e0 0 ∧ s.tick.blockWords e0 0 = demoFetch) := by
  refine ⟨by decide +kernel, by decide +kernel, by decide +kernel, ?_, by decide +kernel⟩
  unfold State.blockOpen
  decide +kernel

theorem witness_Bindings_fetch :
    e0.co.binds.find 1 = none ∧ (s0.tick.opsOf 0).any (fun o => o.2.isQueued) = false ∧
    (({ s0 with ops := [(1, opOf (.behind 0x100 good 0 e0.co demoPath []))] } : State).tick.opsOf 0).any (fun o => o.2.isQueued) = true ∧
    (let c : Course := { demoCourse [] with binds := [(1, demoBind true)] }
     let s := demo c
     let x := ops (v 8) (v 2) (.imm 1)
     let d := FDesc.parse demoFetch
     let co := (lanesOf ((demoEnv c).acting x)).map (fun l => (l, (List.range d.dims.length).map (fun i => s.tick.vecLane (demoEnv c) (2 + i) false l)))
     c.binds.find 1 = some (demoBind true) ∧ d.valueTy.wide = false ∧ 2 + d.dims.length ≤ 64 ∧
     (lanesOf ((demoEnv c).acting x)).find? (s.tick.elemBad (demoEnv c) x.a d.dims.length) = none ∧
     firstTrap (co.map (fun e => s.tick.fetchLane 0 c d true e.1 e.2)) = none) := by
  decide +kernel

/-- A lane's coordinate outside a descriptor that traps there (R211). -/
theorem witness_Bindings_trap :
    let d := FDesc.parse (demoFetch.set 1 (0x06 * 2 ^ 55 + 2 * 2 ^ 51))
    (firstTrap [s0.tick.fetchLane 0 e0.co d true 0 [16]]).isSome = true := by
  decide +kernel

theorem witness_Bindings_events :
    (let c : Course := { demoCourse [] with binds := [(1, demoBind false)] }
     let s := underWay c (.fbind 1)
     s.ops.find 1 = some (opOf (.fbind 1)) ∧ s.courses.find 0 = some c ∧ c.binds.find 1 = some (demoBind false) ∧ (demoBind false).op = 1 ∧
     (FDesc.parse demoFetch).ea = false ∧ s.engineReady 1 (opOf (.fbind 1)) (s.ownRanges 1) [] = true) ∧
    (let s : State := { s0 with ops := [(2, opOf (.funbind 1))] }
     s.ops.find 2 = some (opOf (.funbind 1)) ∧ s.ops.find 1 = none) := by
  decide +kernel

/-- 0, 1, 5,461 and 5,462 instructions for slot 2, from address 0. -/
theorem witness_Overlays :
    (∀ n ∈ ([0, 1, 5461, 5462] : List Nat),
      let c := demoCourse [(1, BitVec.ofNat 64 (2 * 2 ^ 16 + 9)), (3, BitVec.ofNat 64 n)]
      (demoEnv c).val (ops (.reg 1) (.reg 2) (.reg 3)) .n32 (.reg 3) = n ∧ bits (c.scalar 1).toNat 16 3 = 2 ∧ bits (c.scalar 1).toNat 19 45 = 0 ∧
      (c.scalar 2).toNat % 256 = 0 ∧ (demo c).tick.translate 0 0 0 none false = .ok (17 * 65536, .rc) ∧ c.hwBad 0 1 = false) ∧
    (let o := opOf (.ovlLd 0 2 9 0 2 false)
     let s : State := { underWay (demoCourse []) o.kind with ovls := [(2, { id := 5, ctx := 0, n := 1, image := 0, order := 0, loaded := true, mark := [1] })] }
     s.ops.find 1 = some o ∧ s.loadsBefore 1 0 2 = false ∧ ∀ e ∈ s.ovls, 1 ∈ e.2.mark → s.midRun 0 (e.1 % 8) e.2 = false) ∧
    (let o := opOf (.ovlLd 0 2 9 0 2 true)
     let s := underWay (demoCourse []) o.kind
     (s.copyPieces 0 0 (some (demoCourse [])) 0 24 false).toOption = some [(17 * 65536, 24)] ∧ s.engineReady 1 o [(17 * 65536, 24)] [] = true ∧
     s.poisonedRun 0 [(17 * 65536, 24)] = none ∧
     ({ s with poison := [17 * 65536] } : State).poisonedRun 0 [(17 * 65536, 24)] ≠ none) := by
  decide +kernel

/-! Array 0 holds four elements of 4 bytes in slots 0 to 3 of leaf 0; its handle in context 0 is the word 0. -/

def demoDesc : Desc := { ver := 1, esz := 2, kind := 0, st := 1, len := 4, depth := 1, root := 0x62000, seq := 2, mnext := 0, gen := 0, mtab := 0, leaf := noLeaf, slot := 0 }

def withArray (s : State) : State := State.having s
  [(22 * 65536, 64, demoDesc.pack), (22 * 65536 + 0x1000, 8, 8 * 65536), (22 * 65536 + 0x2008, 8, 1),
   (22 * 65536 + 0x2080, 24, (2 ^ 62 + 4) + 0 * 2 ^ 64)]

/-- A structural operation in a phase. -/
def eaJob (o : EaOp) (p : EaPhase) : EaJob :=
  { o := o, phase := p, d := .zero, result := 0, trees := [], writes := [], shoots := [], oldNodes := [], pages := [], leaves := [], freed := none, data := [] }

/-- A path that has offered operation 1, and one that has offered none. -/
theorem witness_Elastic_offer :
    (∀ p ∈ ([.offered, .accepted, .committed [0] [0], .refused Trap.field] : List EaPhase),
      let c := courseAt { demoPath with offer := some 1 } []
      let s : State := { demo c with ops := [(1, opOf (.ea (eaJob (.free 0) p)))] }
      (demoEnv c).pa.offer = some 1 ∧ s.ops.find 1 = some (opOf (.ea (eaJob (.free 0) p))) ∧ (demoEnv c).acting (ops .zero (.reg 1) .zero) ≠ 0) ∧
    e0.pa.offer = none ∧
    (∀ m ∈ ([1, 65536] : List Nat), (demoEnv (demoCourse [(2, BitVec.ofNat 64 m)])).eaNum (ops (.reg 0) (.reg 1) (.reg 2)) (.reg 2) = m) ∧
    e0.eaNum (ops .zero (.reg 1) (.imm 0)) (.imm 0) = 0 := by decide +kernel

/-- Ranks 0 and 3 of the array, both ways. -/
theorem witness_Elastic_read :
    let s := withArray s0
    s.tick.openArray 0 0 0 0xFF = .ok demoDesc ∧ s.tick.eaWaits 0 0 0 (handleArray 0) = false ∧
    s.tick.treeItems 0 0 13 0x62000 = .ok ([.ext 0 0 4], [0x62000]) ∧ s.tick.leafGen 0 0 0 = .ok 0 ∧
    rankOf [.ext 0 0 4] 0 0 0 = some 0 ∧ rankOf [.ext 0 0 4] 0 3 0 = some 3 ∧
    s.tick.resolveAt 0 0 13 0x62000 3 0 = .ok (some (0, 3, 0, 0, 4)) ∧
    (e0.runs (opsM .none (v 4) (.reg 1) (v 6))).length = 64 ∧ s.tick.lane e0 (opsM .none (v 4) (.reg 1) (v 6)) .n64 (v 6) 5 = 0 := by decide +kernel

/-- Creation blocks: at an address that is no multiple of 16, of version 2, of element size 9, and a good one of the largest size and kind. -/
theorem witness_Elastic_new :
    (let c := demoCourse [(1, 8)]
     (demoEnv c).n64 (ops (.reg 0) (.reg 1) .zero) (.reg 1) % 16 ≠ 0 ∧ (demo c).tick.pagedRange c 8 16 false 0xFF = .ok [(17 * 65536 + 8, 16)] ∧
     (demo c).tick.blockReady 0 [(17 * 65536 + 8, 16)] = true ∧ (demo c).tick.pagedRead c 8 16 0xFF = .ok [(17 * 65536 + 8, 16)]) ∧
    (∀ w ∈ ([2 * 2 ^ 56, 9 * 2 ^ 52, 1 * 2 ^ 56 + 8 * 2 ^ 52 + 2 * 2 ^ 50] : List Nat),
      let s := State.having s0 [(17 * 65536, 8, w)]
      s.tick.pagedRange e0.co 0 16 false 0xFF = .ok [(17 * 65536, 16)] ∧ s.tick.blockReady 0 [(17 * 65536, 16)] = true ∧
      s.tick.pagedRead e0.co 0 16 0xFF = .ok [(17 * 65536, 16)] ∧ leNat (s.tick.peekAll [(17 * 65536, 16)]) = w) := by decide +kernel

/-- The sequence of two runs around a mortise: its first and last places, the whole range, and the mortise. -/
theorem witness_SequencesEdit :
    let l : List EItem := [.ext 0 0 2, .mort 7, .ext 0 2 2]
    0 ≤ (itemElems l).length ∧ 4 ≤ (itemElems l).length ∧ 0 + 4 ≤ (itemElems l).length ∧ 4 + 0 ≤ (itemElems l).length ∧ (itemMorts l).Nodup ∧
    mortPlace l 7 = some 2 ∧ rankOf l 0 3 0 = some 3 := by decide

/-- Array operations: one that removes the last two elements, one that would remove three. -/
def delState (n : Nat) (p : EaPhase) : State :=
  { withArray s0 with slots := [], cur := none, nextId := 2, ops := [(1, opOf (.ea (eaJob (.del 0 2 n) p)))],
                      ctxs := [(0, { demoCtx with nodes := [0x62200] })] }

theorem witness_ElasticEvents_accept :
    (∀ k ∈ (delState 2 .offered).eaOps 0 [0], k.1 = 1) ∧ ((delState 2 .offered).acceptEa (demoCourse []) (eaJob (.del 0 2 2) .offered)).isOk = true ∧
    (delState 2 .offered).locks = [] ∧
    (match (delState 2 .offered).acceptEa (demoCourse []) (eaJob (.del 0 2 2) .offered) with
     | .ok r => decide ((r.1.eaRanges (demoCourse []) r.2).length ≤ r.1.freeLocks)
     | .error _ => false) = true ∧
    (delState 3 .offered).acceptEa (demoCourse []) (eaJob (.del 0 2 3) .offered) = .error (Trap.peg 1 0xFF 2) ∧
    (delState 2 .offered).openArray 0 0 0 0xFF = .ok demoDesc ∧
    (delState 2 .offered).treeItems 0 0 13 0x62000 = .ok ([.ext 0 0 4], [0x62000]) ∧
    ((delState 2 .offered).planTree 0 0 0 (delItems [.ext 0 0 4] 2 2) 0 noLeaf 0 [0x62000]).isOk = true := by
  decide +kernel

theorem witness_ElasticEvents_commit :
    (delState 2 .accepted).engineReady 1 (opOf (.ea (eaJob (.del 0 2 2) .accepted))) [] ((delState 2 .accepted).ownRanges 1) = true ∧
    (let s := delState 2 (.committed [0] [0])
     s.ops.find 1 = some (opOf (.ea (eaJob (.del 0 2 2) (.committed [0] [0])))) ∧ 0 ∈ [0]) ∧
    (let s := delState 2 (.committed [] [0])
     0 ∉ ([] : List Nat) ∧ s.resolving 0 0 [0] = false ∧
     (let a : Acc := ⟨0, 24 * 65536, 4, .rc, 0, 0, 0, 0⟩
      let j : MemJob := ⟨.ld, .n32, v 4, false, false, .cw, BitVec.allOnes 64, false, some 0, [a], [], [], none⟩
      ({ s with ops := [(2, opOf (.mem j))] } : State).resolving 0 0 [0] = true)) ∧
    (let s := delState 2 (.committed [] [])
     s.offering 1 = false ∧ (eaJob (.del 0 2 2) (.committed [] [])).freed = none ∧ (eaJob (.del 0 2 2) (.committed [] [])).d = .zero ∧
       ({ eaJob (.mort 0 3 1) (.committed [] []) with d := .reg 3 } : EaJob).d ≠ .zero) := by decide +kernel

theorem witness_ElasticEvents_walk :
    let s := withArray s0
    95 < 96 ∧ bits (0 : Word).toNat 44 16 = 0 ∧ s.openArray 0 0 0 0xFF = .ok demoDesc ∧ 3 < demoDesc.len ∧ nbit demoDesc.seq 0 = false ∧
    s.staleRanks 0 0 0 = false ∧ s.rankHit 0 0 0 0 3 = none ∧ s.resolveAt 0 0 13 0x62000 3 0 = .ok (some (0, 3, 0, 0, 4)) ∧
    s.leafFrame 0 0 0 = .ok 0x80000 := by decide +kernel

/-- A shape record of rows × cols elements of a format, one after another from line 0 (R191). -/
def shapeRec (rows cols fmt : Nat) : BitVec 128 :=
  BitVec.ofNat 128 (rows * 2 ^ 45 + cols * 2 ^ 32 + cols * 2 ^ 16 + 1 * 2 ^ 8 + fmt * 2 ^ 107)

/-- A course with shape record 0 and a number of queued matrix operations, on a machine where it holds tile 0. -/
def matCourse (r : BitVec 128) (n : Nat) (scal : List (Nat × Word)) : Course :=
  { demoCourse scal with shapes := [(0, r), (1, r)], mq := (List.range n).map (· + 1) }
def matState (c : Course) : State := { demo c with tiles := [(0, { st := .held 0, last := some 0, mst := 0, act := false, step := 0 })] }

/-- Operands of tile 0, shape 0 and the weight reference in s1. -/
def matOps : Args := opsM (.num 0) (.reg 0) (.reg 0) (.reg 1)

/-- A matrix product of binary16 values: without the tile, beyond the window, with eight entries queued and with seven. -/
theorem witness_Matrix_mma :
    let c (n rows : Nat) := matCourse (shapeRec rows 16 0x0C) n []
    let h := Shape.of (shapeRec 64 16 0x0C)
    (MatKind.mma .f16 .f16).formats = some (.f16, .f16, 4) ∧ bits (e0.co.scalar 1).toNat 10 35 = 0 ∧
    matField (s0.tick.holdsTile 0 0) (.mma .f16 .f16) .f16 .f16 h (WRef.of 0) = true ∧
    matField ((matState (c 7 64)).tick.holdsTile 0 0) (.mma .f16 .f16) .f16 .f16 h (WRef.of 0) = false ∧
    (matState (c 7 64)).tick.matScr (c 7 64) (.mma .f16 .f16) .f16 .f16 h (WRef.of 0) = false ∧
    (matState (c 7 64)).tick.matScr (c 7 64) (.mma .f16 .f16) .f16 .f16 { h with base := 4095 } (WRef.of 0) = true ∧
    groupBad (demoEnv (c 7 64)) (matState (c 7 64)).tick 0 0 = false ∧ (c 7 64).mq.length < 8 ∧ 8 ≤ (c 8 64).mq.length := by decide +kernel

/-- Groups of weights and the sparse products, each with a shape record that they accept. -/
theorem witness_Matrix_mmq :
    matField true (.mmq .q4g) .i8 .q4g (Shape.of (shapeRec 64 32 0)) (WRef.of (BitVec.ofNat 64 (2 * 2 ^ 62 + 1 * 2 ^ 60))) = false ∧
    matField true (.mmsp .bf16) .bf16 .bf16 (Shape.of (shapeRec 64 32 0x0D)) (WRef.of (BitVec.ofNat 64 (1 * 2 ^ 62))) = false ∧
    (matState (matCourse 0 0 [])).tick.matScr (demoCourse []) (.mmsp .bf16) .bf16 .bf16 (Shape.of (shapeRec 64 32 0x0D))
      (WRef.of (BitVec.ofNat 64 (1 * 2 ^ 62))) = false := by decide +kernel

/-- 1 and 1,024 lines of weights from the core store; tile 0 with and without a holder, and transfers of it. -/
theorem witness_Matrix_moves :
    (∀ n ∈ ([1, 1024] : List Nat),
      let c := demoCourse [(2, 0x2000000000000000), (3, BitVec.ofNat 64 n)]
      (demoEnv c).val (ops (.reg 1) (.reg 2) (.reg 3)) .n32 (.reg 3) = n ∧ bits (c.scalar 1).toNat 10 54 = 0 ∧ bits (c.scalar 2).toNat 0 8 = 0 ∧
      (c.scalar 1).toNat + n ≤ ((demo c).tick.weightWindow c).2 ∧
      (demo c).tick.rowPieces c (c.scalar 2) 1 (512 * n) 0 false = .ok [[(coreBase 0, 512 * n)]] ∧
      (demo c).tick.lockedTrap 0 (c.scalar 2).toNat false [(coreBase 0, 512 * n)] = none ∧ c.mq.length < 8) ∧
    s0.tick.holdsTile 0 ((demoEnv (demoCourse [])).tileKey (.reg 0)) = false ∧
    (let c := matCourse 0 7 [(2, 0x2000000000000000)]
     (matState c).tick.holdsTile 0 ((demoEnv c).tileKey (.reg 0)) = true ∧ c.mq.length < 8 ∧
     (c.scalar 2).toNat % Ty.bytes .f32 = 0 ∧ (0 : Nat) % Ty.bytes .f32 = 0 ∧
     ((matState c).tick.rowPieces c (c.scalar 2) (xferRows .f32).1 (xferRows .f32).2 0 true).isOk = true) := by decide +kernel

/-- The sparsity steps, a shape record at its bounds, and tiles in each state that mtalloc meets. -/
theorem witness_Matrix_rest :
    (let r := shapeRec 64 64 0x0D
     let c := matCourse r 7 []
     let wa := Shape.of (c.shape 0)
     let win := s0.tick.coreWindow c
     let k := s0.tick.counter win.1
     wa.fmt = 0x0D ∧ (0 : Nat) % 64 = 0 ∧ 0 + 64 ≤ win.2 ∧ k.1 ≤ 4096 ∧ k.2.2.2 = false ∧ k.2.2.1 * 256 + (wa.rows * wa.cols + 7) / 8 ≤ win.2 ∧
     wa.stop 2 ≤ win.2 ∧ s0.tick.present win.1 = true ∧ s0.tick.blockReady 0 [(win.1, 64)] = true ∧ s0.tick.poisonedAll [(win.1, 64)] = none ∧ c.mq.length < 8) ∧
    (let c : Course := { demoCourse [] with fences := [⟨0, .tf 1, .pkg, BitVec.allOnes 64⟩] }
     c.tfencing = true ∧ (demo c).issuing = some (demoEnv c)) ∧
    (let r := shapeRec 64 4096 0x11
     let h := Shape.of r
     let w0 := r.toNat % 2 ^ 64
     let w1 := r.toNat / 2 ^ 64
     1 ≤ h.rows ∧ h.rows ≤ 64 ∧ 1 ≤ h.cols ∧ h.cols ≤ 4096 ∧ h.estride ≠ 0 ∧ h.fmt < 0x12 ∧ bits w0 0 8 = 0 ∧ bits w1 36 7 = 0 ∧ bits w1 0 24 = 0) ∧
    nbit (s0.tick.partWord (s0.tick.partOf 0) 3) 7 = true ∧ (s0.tile 0).st = .free ∧ ((matState (demoCourse [])).tile 0).st = .held 0 ∧
    (let s : State := { s0 with courses := [(0, demoCourse []), (1, demoCourse [])], tiles := [(0, { st := .held 1, last := some 0, mst := 0, act := false, step := 0 })] }
     (s.tile 0).st = .held 1 ∧ (s.courses.find 1).map (·.ctx) = some 0) := by decide +kernel

/-- Bent 0 with an operation of course 0 at the head of its queue. -/
def matUnit (m : Mat) (b : Bent) (t : Tile) : State :=
  { underWay { matCourse m.sha 0 [] with mq := [1] } (.mat m) with bents := [(0, b)], tiles := [(0, t)] }

def heldTile : Tile := { st := .held 0, last := some 0, mst := 0, act := false, step := 0 }
def demoMma : Mat := { Mat.plain (.mma .f16 .f16) 0 with sha := shapeRec 2 8 0x0C }

theorem witness_MatrixUnit :
    (∀ m ∈ ([Mat.plain .mzero 0, { Mat.plain .wbld 0 with n := 1 }] : List Mat),
      let c : Course := { matCourse m.sha 0 [] with mq := [1] }
      let s := matUnit m { last := 63, cur := none, todo := [], done := false } heldTile
      s.matOf 1 = some (opOf (.mat m), 0, c, m) ∧ (s.bent 0).cur = none ∧ s.bentOn 0 = true ∧ s.up = true ∧
      s.queueCourse 0 ((63 + 1) % 64) = some (0, c) ∧ s.awake 0 c = true ∧ s.headReady 0 0 1 = true ∧ c.mq.head? = some 1) ∧
    (∀ m ∈ ([Mat.plain .mzero 0, demoMma] : List Mat),
      let s := matUnit m { last := 0, cur := some 1, todo := [], done := false } heldTile
      (s.bent 0).cur = some 1 ∧ (s.bent 0).done = false ∧ s.mayLeave 0 1 = false ∧ s.inPlace 0 0 1 = true) ∧
    (let s := matUnit demoMma { last := 0, cur := some 1, todo := [], done := true } heldTile; (s.bent 0).cur = some 1 ∧ (s.bent 0).done = true) := by
  decide +kernel

/-- A step before the last of a product and the last one, its lines present or not; a sparse product that has formed its live list and one that has
not; a line of weights; a tile that is saved. -/
theorem witness_MatrixUnit_step :
    (let c : Course := { matCourse demoMma.sha 0 [] with mq := [1] }
     let s (step : Nat) := matUnit demoMma { last := 0, cur := some 1, todo := [], done := false } { heldTile with act := true, step := step }
     let far : State := { s 0 with absent := [coreBase 0 / 256] }
     let reads (t : Nat) := (s 0).stepReads c demoMma .f16 .f16 (stepKs 4 demoMma.ks t)
     let own := [(tileBase 0 0, 4 * 192 * 2)]
     (s 0).awake 0 c = true ∧ (s 0).inPlace 0 0 1 = true ∧ (s 0).mayLeave 0 1 = false ∧ demoMma.kind.formats = some (.f16, .f16, 4) ∧
     stepsOf 4 demoMma.ks.length = 2 ∧ (s 1).tile 0 = { heldTile with act := true, step := 1 } ∧
     (s 0).allPresent (reads 0) = true ∧ (s 1).allPresent (reads 1) = true ∧
     (s 0).engineReady 1 (opOf (.mat demoMma)) ((reads 0).filter (fun r => r.1 < weightBase 0)) [] = true ∧
     (s 1).engineReady 1 (opOf (.mat demoMma)) ((reads 1).filter (fun r => r.1 < weightBase 0)) [] = true ∧
     (s 0).poisonedAll (reads 0 ++ own) = none ∧ (s 1).poisonedAll (reads 1 ++ own) = none ∧
     far.allPresent (far.stepReads c demoMma .f16 .f16 (stepKs 4 demoMma.ks 0)) = false) ∧
    (let m : Mat := { Mat.plain (.mmsp .bf16) 0 with sha := shapeRec 2 32 0x0D, wref := BitVec.ofNat 64 (1 * 2 ^ 62) }
     let c : Course := { matCourse m.sha 0 [] with mq := [1] }
     let s := matUnit m { last := 0, cur := some 1, todo := [], done := false } heldTile
     let maps := s.bitmapReads c m
     m.kind.formats = some (.bf16, .bf16, 4) ∧ m.sparse = none ∧ s.allPresent maps = true ∧ s.poisonedAll maps = none ∧
     s.engineReady 1 (opOf (.mat m)) (maps.filter (fun r => r.1 < weightBase 0)) [] = true ∧
     ({ m with sparse := some (s.formSparse c m) } : Mat).sparse ≠ none ∧ stepsOf 4 ({ m with sparse := some ⟨[0, 7], [], [], []⟩ } : Mat).ks.length = 1) ∧
    (let m : Mat := { Mat.plain .wbld 0 with n := 1 }
     let s := matUnit m { last := 0, cur := some 1, todo := [0], done := false } heldTile
     let c : Course := { matCourse m.sha 0 [] with mq := [1] }
     s.rowPieces c (m.addr + BitVec.ofNat 64 (256 * 0)) 1 256 0 false = .ok [[(17 * 65536, 256)]] ∧
     s.rowPieces c (m.addr + BitVec.ofNat 64 (256 * (m.n + 0))) 1 256 0 false = .ok [[(17 * 65536 + 256, 256)]] ∧
     s.engineReady 1 (opOf (.mat m)) [(17 * 65536, 256), (17 * 65536 + 256, 256)] [] = true ∧
     s.allPresent [(17 * 65536, 256), (17 * 65536 + 256, 256)] = true ∧ 0 - ((s.weightWindow c).1 + m.line) = 0 ∧ (s.bent 0).todo = [0]) := by
  decide +kernel

theorem witness_MatrixUnit_save :
    let s := matUnit (Mat.plain .mzero 0) { last := 0, cur := none, todo := [], done := false } { heldTile with st := .saving 0 }
    (s.tile 0).st = .saving 0 ∧ (s.saveTile 0 0).isSome = true := by
  decide +kernel

theorem witness_MatrixStepValues : s0.memOk ∧ demoMma.tile < 8 ∧ demoMma.kind = .mma .f16 .f16 ∧ demoMma.kind.tileTy.fmt? = some .f32 ∧
    (Mat.plain (.mma .i8 .i8) 7).kind = .mma .i8 .i8 ∧ (WRef.of (BitVec.ofNat 64 (1 * 2 ^ 60))).group = 32 ∧ (1 + 1) * 16 % 32 = 0 ∧ (0 + 1) * 16 % 32 ≠ 0 :=
  ⟨rfl, by decide, rfl, rfl, rfl, by decide +kernel, rfl, by decide⟩

/-- A course whose lane 0 is in crew 3 and whose other lanes are in none, on a machine whose crew table lies in a private page. -/
def crewCourse (scal : List (Nat × Word)) : Course := { demoCourse scal with crew := [(0, 3)], crewRd := [(0, 3)] }
def crewCtxs : Tab Context := [(0, { demoCtx with block := demoCtx.block.set 6 0x110C000 })]
def crewState (c : Course) : State := { demo c with ctxs := crewCtxs, tlb := demoPage false 304 12 true :: (demo c).tlb }

/-- Joins of crews 65,534 and 65,535, a leave, and reads of a named crew, of the lane's own, and of one that is in no crew. -/
theorem witness_CrewInstructions :
    (∀ k ∈ ([0, 0xFFFE] : List Nat),
      let c := crewCourse [(2, BitVec.ofNat 64 k)]
      let e := demoEnv c
      let l := (lanesOf (e.acting (ops .zero (.reg 2) .zero))).map (fun l => (l, (crewState c).lane e (ops .zero (.reg 2) .zero) .n32 (.reg 2) l))
      (crewState c).issuing = some e ∧ l ≠ [] ∧ (∀ e ∈ l, e.2 < 0xFFFF) ∧
      (crewState c).tick.crewCheck e.co (l.map (fun e => (e.1, some e.2))) = none) ∧
    (let c := crewCourse [(2, 0xFFFF)]
     ((lanesOf ((demoEnv c).acting (ops .zero (.reg 2) .zero))).map (fun l => (l, (crewState c).lane (demoEnv c) (ops .zero (.reg 2) .zero) .n32 (.reg 2) l))).find?
      (fun e => decide (0xFFFF ≤ e.2)) = some (0, 0xFFFF)) ∧
    (crewState (crewCourse [])).tick.crewCheck (crewCourse []) ((lanesOf (BitVec.allOnes 64)).map (fun l => (l, none))) = none ∧
    ((crewState (crewCourse [])).tick.crewEnt 0 0 0xFFFE false).isOk = true ∧ ((crewState (crewCourse [])).tick.crewEnt 0 0 3 false).isOk = true ∧
    (crewCourse []).crewRd.find (lowLane (BitVec.allOnes 64)) = some 3 ∧ (demoCourse []).crewRd.find (lowLane (BitVec.allOnes 64)) = none ∧
    (let c := crewCourse [(1, 0xFFFFFFFF)]
     (demoEnv c).val (ops (.reg 3) (.reg 1) .zero) .n32 (.reg 1) = 0xFFFFFFFF) := by decide +kernel

theorem witness_CrewInstructions_apply :
    (let o := opOf (.crew [(0, none), (1, some 3)] false)
     let s : State := { underWay (crewCourse []) o.kind with ctxs := crewCtxs }
     s.ops.find 1 = some o ∧ s.courses.find 0 = some (crewCourse []) ∧ (s.older 0 1).any (fun e => e.isCrew) = false ∧
     s.crewCheck (crewCourse []) [(0, none), (1, some 3)] = none ∧
     (({ s with tlb := [] } : State).crewCheck (crewCourse []) [(0, none), (1, some 3)]).isSome = true) ∧
    (let e : CrewEnt := { gen := 2 ^ 32 - 1, members := 2 ^ 18 - 1, live := true, hcount := 2 ^ 12 - 1, cores := 2 ^ 96 - 1 }
     e.gen < 2 ^ 32 ∧ e.members < 2 ^ 18 ∧ e.hcount < 2 ^ 12 ∧ e.cores < 2 ^ 96 ∧ CrewEnt.ofNat e.pack = e) ∧
    (let s := State.having (crewState (crewCourse [])) [(20 * 65536 + 0xC060, 32, CrewEnt.pack ⟨1, 2 ^ 18 - 2, true, 0, 1⟩)]
     (crewCourse []).crew.find 1 = none ∧ (crewCourse []).reclaimed = none ∧ s.pkg.frameMap = [] ∧ s.crewAt 0 0 3 true = .ok (20 * 65536 + 0xC060) ∧ Memory.wf s.mem = true ∧
     (CrewEnt.ofNat (s.peekNat (20 * 65536 + 0xC060) 32)).members + 1 < 2 ^ 18) := by decide +kernel

/-- A machine on which barriers 3 and 16 are bound to context 0. -/
def barState (c : Course) (pending : Nat) : State :=
  { demo c with barriers := [(3, ⟨true, 0, 2, pending, 0⟩), (1536, ⟨true, 0, 2, pending, 0⟩)] }

/-- A local barrier and a route tag that are granted, with the least and the most participants, and numbers that are not granted. -/
theorem witness_BarrierInstructions :
    e0.acting (ops .zero (.imm 3) .zero) ≠ 0 ∧
    (∀ b ∈ ([0, 15, 16, 23] : List Nat), (barState (demoCourse []) 2).barGranted 0 b = true) ∧
    (∀ b ∈ ([24, 2 ^ 32 - 1] : List Nat), (barState (demoCourse []) 2).barGranted 0 b = false) ∧
    (∀ n ∈ ([(3, 1), (3, 2048), (16, 1), (16, 196608)] : List (Nat × Nat)),
      let c := demoCourse [(1, BitVec.ofNat 64 n.1), (2, BitVec.ofNat 64 n.2)]
      (demoEnv c).val (ops (.reg 1) (.reg 1) (.reg 2)) .n32 (.reg 1) = n.1 ∧ (demoEnv c).val (ops (.reg 1) (.reg 1) (.reg 2)) .n32 (.reg 2) = n.2 ∧
      1 ≤ n.2 ∧ n.2 ≤ (if n.1 < 16 then 2048 else 196608)) ∧
    (barState (demoCourse []) 2).ownBar 0 (barKey 0 3) = some ⟨true, 0, 2, 2, 0⟩ ∧ (barState (demoCourse []) 2).ownBar 0 (barKey 0 16) = some ⟨true, 0, 2, 2, 0⟩ := by
  decide +kernel

/-- An enrolment and a plain arrival at their home; the arrival before the last and the last; a wake-up at its very moment. -/
theorem witness_BarrierInstructions_apply :
    (∀ m ∈ ([0, 1, 2] : List Nat),
      let o := opOf (.arrive 3 m [0])
      let s : State := { underWay (demoCourse []) o.kind with barriers := (barState (demoCourse []) 2).barriers }
      s.ops.find 1 = some o ∧ s.courses.find 0 = some (demoCourse []) ∧ s.reachedHome 0 (demoCourse []) 1 3 = true ∧ m ≠ 3 ∧ s.drained 0 1 = true) ∧
    (∀ n ∈ ([1, 2] : List Nat), (barState (demoCourse []) n).ownBar 0 3 = some ⟨true, 0, 2, n, 0⟩) ∧
    (demoCourse []).atBar 0 3 = true ∧
    (let q : Path := { demoPath with wait := .barWake 100 1 1 none }
     let s : State := { demo (courseAt q []) with time := ⟨100, 0, 0, 1600, 0⟩ }
     s.path 0 0 = some q ∧ 100 ≤ s.time.clk) := by decide +kernel

/-- A launch block of one thread, or the most, with the fewest rows and the smallest private region; its entry is overlay 1, instruction 0. -/
def launchBlock (threads : Nat) : List Word :=
  [0x10000, 0x11000, BitVec.ofNat 64 threads, BitVec.ofNat 64 (64 + 17 * 2 ^ 16 + 65535 * 2 ^ 48), 0, 7, 0x1000000, 17]

/-- The bytes of a list of words, as one number. -/
def blockNat (l : List Word) : Nat := l.foldr (fun w n => w.toNat + 2 ^ 64 * n) 0

/-- A queue of context 0 whose ring of two nodes lies at address 0x10800, and its kernel. -/
def demoQueue : Queue := { st := .active, block := 0x10700, ring := 0x10800, ctx := 0, part := 0, prio := 0, nslot := 2, head := 0, tail := 0, used := 1,
                           fnode := noNode, closing := false }
def demoKernel : Kernel := { st := .placing, ctx := 0, part := 0, words := launchBlock 1, prio := 0, crew := 65535, next := 0, courses := 1, live := 0,
                             node := none, told := false, batch := none, graft := none }

/-- A machine with launch block and overlay directory in memory, a queue, and a partition that may use 32 course slots and 64 rows. -/
def kernState (c : Course) : State :=
  { State.having (demo c) [(18 * 65536, 64, blockNat (launchBlock 1)), (18 * 65536 + 0x1000, 8, 1), (18 * 65536 + 0x1008, 8, 1),
      (18 * 65536 + 0x1010, 8, 0x12000), (18 * 65536 + 0x1018, 8, 1)] with
    queues := [(2, demoQueue)], kernels := [(7, demoKernel)],
    parts := [(0, { Partition.none with block := demoBlock.set 2 (BitVec.ofNat 64 (32 * 2 ^ 53 + 64 * 2 ^ 16)) })],
    ovls := [(1, { id := 1, ctx := 0, n := 1, image := 0x12000, order := 0, loaded := true, mark := [] })] }

/-- Launches of 1 and of 2 ^ 32 − 1 threads. -/
theorem witness_KernelsAndRuns_launch :
    (∀ n ∈ ([1, 2 ^ 32 - 1] : List Nat), launchBad (launchBlock n) = false) ∧
    (let c := demoCourse [(1, 2), (2, 0x10000)]
     let s := kernState c
     let e := demoEnv c
     s.issuing = some e ∧ e.acting (ops (.reg 1) (.reg 2) .zero) ≠ 0 ∧ s.ownsQueue 0 2 = true ∧ (e.co.scalar 2).toNat % 64 = 0 ∧
     s.tick.blockOpen e 0x10000 ∧ s.tick.blockWords e 0x10000 = launchBlock 1) := by
  unfold State.blockOpen
  decide +kernel

/-- A place for the kernel's only course, and that course before its start. -/
theorem witness_KernelsAndRuns_place :
    (let s : State := { kernState (demoCourse []) with courses := [], slots := [], cur := none }
     s.up = true ∧ s.kernels.find 7 = some demoKernel ∧ s.kernelAhead 7 demoKernel = false ∧
     s.kernelSpot demoKernel = some ⟨0, 0, 0, false, false⟩ ∧ (s.claim 0 0 0 64).isSome = true) ∧
    (let c : Course := { demoCourse [] with kern := 7, started := false }
     let s : State := { kernState c with slots := [], cur := none }
     s.up = true ∧ s.courses.find 0 = some c ∧ s.kernels.find 7 = some demoKernel ∧ c.moved = none ∧ c.saved = false ∧ c.spl = 0 ∧ s.entryOf 0 demoKernel = some (1, 0x12000, 1) ∧
     s.imageSlot 0 0 1 0x12000 = some 1 ∧ 65535 ≤ demoKernel.crew ∧ s.crewCheck c [] = none) := by decide +kernel

/-- Every place of bay 0 is held by a course of another device's halted context, whose save area is not mapped. -/
theorem witness_KernelsAndRuns_fault :
    let c : Course := { demoCourse [] with ctx := 1, rows := 64 }
    let s : State := { kernState c with
      courses := (List.range 8).map (fun i => (i, { c with core := i })), slots := [], cur := none, tlb := [],
      ctxs := [(0, demoCtx), (1, { demoCtx with st := .halted, block := demoCtx.block.set 0 (BitVec.ofNat 64 (5 * 2 ^ 40)) })],
      parts := [(0, { Partition.none with block := demoBlock.set 2 (BitVec.ofNat 64 (1 * 2 ^ 53 + 64 * 2 ^ 16)) })] }
    s.kernelAhead 7 demoKernel = false ∧ s.kernelSpot demoKernel = some ⟨0, 0, 0, true, false⟩ ∧
    (s.claim 0 0 0 (launchRows demoKernel.words)).isNone = true := by decide +kernel

/-- An instruction at the head of the access queue. -/
theorem witness_KernelsAndRuns_behind :
    let x := opsM (.ty .n32) (v 4) (v 2) (.imm 0)
    let s := underWay (demoCourse []) (.behind Enc.ld.op x 0 (demoCourse []) demoPath [])
    s.hasOp 1 (opOf (.behind Enc.ld.op x 0 (demoCourse []) demoPath [])) ∧ (queuedBody Enc.ld.op x).isSome = true ∧
    s.queueHead 0 (demoCourse []) 1 = true := ⟨⟨rfl, rfl⟩, rfl, by decide +kernel⟩

/-- A slot that holds a run, and an idle one with a contender. -/
theorem witness_KernelsAndRuns_turn :
    s0.up = true ∧ (s0.slotOf 0).busy = some (0, 0) ∧
    (let s : State := { s0 with slots := [], cur := none }
     (s.slotOf 0).busy = none ∧ (winner ((s.wakeSlot 0).slotOf 0).last ((s.wakeSlot 0).contenders 0)).isSome = true) := by decide +kernel

theorem witness_KernelsAndRuns_land :
    (underWay (demoCourse []) .nothing).hasOp 1 (opOf .nothing) ∧
    (let o := opOf (.land .n64 (.reg 3) [(64, 5)])
     (underWay (demoCourse []) o.kind).hasOp 1 o ∧ (underWay (demoCourse []) o.kind).mayLand o = true) ∧
    (let o := opOf (.mem ⟨.ld, .n32, v 4, false, false, .cw, BitVec.allOnes 64, false, none, [], [(0, 7)], [], none⟩)
     (underWay (demoCourse []) o.kind).hasOp 1 o ∧ (underWay (demoCourse []) o.kind).mayLand o = true) :=
  ⟨⟨rfl, rfl⟩, ⟨⟨rfl, rfl⟩, rfl⟩, ⟨rfl, rfl⟩, rfl⟩

/-- A sampler of core 0 and partition 0, with a buffer of one record at address 0x10000, which is due at clk n. -/
def demoSampler (n : Nat) : Sampler := { ctx := 0, on := true, period := 16, base := 0x10000, cap := 1, prod := 0, cons := 0, drop := 0, next := n, last := 31 }

/-- A sample that is due at this very clk, and the last clk before it would be due again. -/
theorem witness_KernelsAndRuns_sample :
    ∀ n ∈ ([16, 31] : List Nat),
      let s : State := { s0 with samplers := [(0, demoSampler 16)], time := ⟨n, 0, 0, 1600, 0⟩ }
      s.samplers.find (0 * 16 + 0) = some (demoSampler 16) ∧ s.sampleDue (demoSampler 16) = true ∧ s.nextSampled 0 (demoSampler 16) = some (0, demoCourse []) ∧
      (s.samplePath 0 (demoCourse [])).isSome = true ∧ (demoSampler 16).on = true ∧ s.time.clk < (demoSampler 16).next + (demoSampler 16).period := by decide +kernel

theorem witness_ArbitrationPicksTheWinner : winner 31 [⟨0, demoCourse [], 0, demoPath⟩] = some ⟨0, demoCourse [], 0, demoPath⟩ := rfl

/-- Intervals below and above the range, an address that is aligned and one that is not. -/
theorem witness_SamplerCommands :
    e0.acting (ops .zero (.imm 8) .zero) ≠ 0 ∧ (∀ e ∈ ([Enc.profOff, Enc.profOn, Enc.profBuf, Enc.profRdp, Enc.profCons, Enc.profDrop] : List Entry),
      s0.issuing = some e0 ∧ s0.tick.consumed e0 e (ops .zero (.imm 8) .zero) = none) ∧
    (let c := demoCourse [(1, 64), (2, 8)]
     (demoEnv c).n64 (ops .zero (.reg 1) .zero) (.reg 1) % 64 = 0 ∧ (demoEnv c).n64 (ops .zero (.reg 2) .zero) (.reg 2) % 64 ≠ 0) := by decide +kernel

/-- An instruction that issues in this clk; the reasons; and a buffer that has room for its last record and one that is full. -/
theorem witness_SamplesAndRecords :
    (let i : Issued := ⟨16, 0, 0, 1, 0⟩
     let s : State := { s0 with slots := [(0, { busy := some (0, 0), last := 0, issued := some i })], time := ⟨16, 0, 0, 1600, 0⟩ }
     (s.slotOf (demoCourse []).slot).issued = some i ∧ i.clk = s.time.clk ∧ (demoCourse []).paths.find i.p = some demoPath) ∧
    (let s : State := { s0 with slots := [], cur := none }
     s.mayRun 0 (demoCourse []) = true ∧ s.waitOver 0 (demoCourse []) demoPath = true ∧ s.headerOk (demoCourse []) demoPath = true ∧
     s.headerOk { demoCourse [] with flags := [(0, 1)] } { demoPath with run := some ⟨1, none, none, 1⟩ } = false ∧
     s.waitDone 0 (demoCourse []) demoPath = true ∧ s.waitDone 0 (demoCourse []) { demoPath with wait := .park 0 0 9 false } = false ∧
     ({ s with ctxs := [(0, { demoCtx with st := .halted })] } : State).mayRun 0 (demoCourse []) = false) ∧
    (let m := demoSampler 16
     (m.prod - m.cons).toNat < m.cap ∧ ({ m with prod := 1 } : Sampler).cap ≤ (({ m with prod := 1 } : Sampler).prod - m.cons).toNat ∧
     s0.translate 0 m.ctx (m.base + 16 * (m.prod.toNat % m.cap)) (some false) true = .ok (18 * 65536, .rc)) := by decide +kernel

/-- The machine with a queue 2 whose ring holds two nodes, given by their words 0, at address 0x10800; a queue block at address 0x10700 names it. -/
def ringState (c : Course) (w0 w1 : Nat) : State :=
  { State.having (demo c) [(18 * 65536 + 0x800, 8, w0), (18 * 65536 + 0x880, 8, w1), (18 * 65536 + 0x700, 8, 0x10800), (18 * 65536 + 0x708, 8, 2)] with
    queues := [(2, demoQueue)] }

/-- Word 0 of a node without successors: kind, state, and arrivals still to come. -/
def nodeW (kind st left : Nat) : Nat := kind * 2 ^ 60 + st * 2 ^ 57 + left * 2 ^ 40 + left * 2 ^ 32 + 0xFFFFFFFF

/-- A signal object at address 64, and one at an address that is no multiple of 8. -/
theorem witness_SignalInstructions :
    (let c := demoCourse [(1, 64), (2, 1), (3, 65)]
     let s := demo c
     s.issuing = some (demoEnv c) ∧ (demoEnv c).acting (ops .zero (.reg 1) (.reg 2)) ≠ 0 ∧ c.tfencing = false ∧
     s.poisonedAs 64 (17 * 65536 + 64) 8 = none ∧ (({ s with poison := [17 * 65536 + 64] } : State).poisonedAs 64 (17 * 65536 + 64) 8).isSome = true ∧
     s.tick.signalAcc (demoEnv c) (c.scalar 1).toNat true = .ok ⟨64, 17 * 65536 + 64, 8, .rc, 0, 0, 64, 64⟩ ∧
     s.tick.signalAcc (demoEnv c) (c.scalar 1).toNat false = .ok ⟨64, 17 * 65536 + 64, 8, .rc, 0, 0, 64, 64⟩ ∧
     s.tick.accReady s.nextId 0 ⟨.ld, .n64, .zero, true, false, .pkg, BitVec.allOnes 64, false, none,
       [⟨64, 17 * 65536 + 64, 8, .rc, 0, 0, 64, 64⟩], [], [], none⟩  ⟨64, 17 * 65536 + 64, 8, .rc, 0, 0, 64, 64⟩ = true ∧
     s.tick.signalAcc (demoEnv c) (c.scalar 3).toNat true = .error (Trap.align 0xFF 65)) ∧
    (let c : Course := { graftCourse with scal := [(1, 2), (2, 0), (3, 64)] }
     let s : State := { graftState Slice.live with courses := [(0, c)], queues := [(2, demoQueue)] }
     s.issuing = some (demoEnv c) ∧ (demoEnv c).acting (ops (.reg 1) (.reg 2) (.reg 3)) ≠ 0 ∧ s.tick.ownsQueue 0 (bits (c.scalar 1).toNat 0 5) = true ∧
     nbit (c.scalar 1).toNat 5 = false ∧ s.tick.sliceOwned (demoEnv c) (Handle.ofWord (c.scalar 2)) = .ok ()) ∧
    (let q : Path := { demoPath with wait := .sig 64 (17 * 65536 + 64) 3 0 none none }
     let c := courseAt q []
     (demo c).nodes = [] ∧ (demo c).courses.find 0 = some c ∧ c.paths.find 0 = some q) := by decide +kernel

/-- A RUNNING node of queue 2. -/
def demoRun (done : Bool) (bad : Option (Nat × Nat × Nat)) : NodeRun :=
  { q := 2, slot := 0, kern := none, op := none, watch := none, done := done, cond := false, bad := bad }

/-- A READY node with 63 others RUNNING, a node that has ended, and one that has failed. -/
theorem witness_QueuesAndNodes_walker :
    (let s : State := { ringState (demoCourse []) (nodeW 0 2 0) 0 with nodes := (List.range 63).map (fun i => { demoRun false none with slot := i + 2 }) }
     s.up = true ∧ s.queues.find 2 = some demoQueue ∧ demoQueue.st = .active ∧ demoQueue.closing = false ∧ (s.runs 2).length < 64 ∧
     s.firstReady 2 demoQueue = some 0 ∧ s.nodeWaits 2 demoQueue 0 = false) ∧
    (let s : State := { ringState (demoCourse []) (nodeW 0 3 0) 0 with nodes := [demoRun true none] }
     s.nodes.find? (fun r => r.q == 2 && r.slot == 0) = some (demoRun true none) ∧ bits (s.nodeWord 2 demoQueue 0 0) 60 4 = 0) ∧
    (let s : State := { ringState (demoCourse []) (nodeW 0 3 0) 0 with nodes := [demoRun false (some (3, 0, 0))] }
     s.nodes.find? (fun r => r.q == 2 && r.slot == 0) = some (demoRun false (some (3, 0, 0)))) := by decide +kernel

/-- A slot beyond the ring; a node that is READY; WAITING nodes with 2 arrivals to come, and with one, alive and not. -/
theorem witness_QueuesAndNodes_arrivals :
    let w (n : Nat) : Nat := (ringState (demoCourse []) n 0).nodeWord 2 demoQueue 0 0
    demoQueue.nslot ≤ 2 ∧ (0 : Nat) < demoQueue.nslot ∧ (nodeState (w (nodeW 0 2 0)) ≠ 1 ∧ nodeState (w (nodeW 0 2 0)) ≠ 3) ∧
    (nodeState (w (nodeW 0 1 2)) = 1 ∧ 2 ≤ bits (w (nodeW 0 1 2)) 32 8) ∧
    (nodeState (w (nodeW 0 1 1)) = 1 ∧ bits (w (nodeW 0 1 1)) 32 8 = 1 ∧ nbit (w (nodeW 0 1 1)) 56 = false) ∧
    nbit (w (nodeW 0 1 1 + 2 ^ 56)) 56 = true ∧
    (let s := State.having (ringState (demoCourse []) (nodeW 6 3 0) 0) [(18 * 65536 + 0x810, 8, 1 * 2 ^ 48)]
     let w0 := s.nodeWord 2 demoQueue 0 0
     nodeState w0 = 3 ∧ bits w0 60 4 = 6 ∧ s.inBody 2 demoQueue 0 1 = true) := by decide +kernel

/-- A queue to enable; one to disable, to resume and to ring; a wrong doorbell. -/
theorem witness_QueuesAndNodes_driver :
    (let s : State := { ringState (demoCourse []) (nodeW 0 1 0) 0 with queues := [] }
     s.queuePage 1 2 = true ∧ s.queues.find 2 = none ∧ (0x10700 : Word).toNat % 64 = 0 ∧ ((s.setQblock 2 0x10700).blockOwner (1 - 1) 2 0x10700).map (·.1) = some 0 ∧
     ((s.setQblock 2 0x10700).blockOwner 0 2 0x10700).map (fun r => (ringSize (bits (wordAt r.2 1) 0 16), wordAt r.2 0 % 128)) = some (true, 0)) ∧
    (let w : Queue := { demoQueue with st := .stopped, fnode := 0 }
     let s : State := { ringState (demoCourse []) (nodeW 0 2 0) (nodeW 0 1 0) with queues := [(2, w)] }
     s.queuePage 1 2 = true ∧ s.queues.find 2 = some w ∧ w.st ≠ .off ∧ w.fnode < w.nslot ∧
     ({ s with queues := s.queues.put 2 { w with st := .active } } : State).nodeSt 2 w w.fnode = 2 ∧ w.used < w.nslot ∧
     s.nodeSt 2 w ((w.tail + 1) % w.nslot) ≠ 0 ∧ 0 ≠ (w.tail + 1) % w.nslot) := by decide +kernel

/-- A peer's write to the last byte of the BARs, one that fills an armed range, and a decoder at work. -/
theorem witness_QueuesAndNodes_outside :
    (s0.up = true ∧ (2 ^ 36 - 1) + [(7 : Byte)].length ≤ 2 ^ 36 ∧ (s0.pkg.peerEn.getD ((2 ^ 36 - 1) / 2 ^ 32) (0, false)).2 = false) ∧
    (let o : Op := { opOf (.storage 2 0 0x12000 4 0 0) with cid := none }
     let s : State := { ringState (demoCourse []) (nodeW 9 3 0) 0 with ops := [(1, o)], pkg := { s0.pkg with peerEn := [(0, (0, true))] } }
     (s.pkg.peerEn.getD (0 / 2 ^ 32) (0, false)).2 = true ∧ s.armed 0 4 = [(1, o, 0, (0x12000 : Word).toNat + (0 - 0), 4)] ∧ s.ops.find 1 = some o ∧
     s.copyPieces (queueCore 2) 0 none (BitVec.ofNat 64 (0x12000 + (0 - 0))) 4 true = .ok [(18 * 65536 + 0x2000, 4)] ∧
     s.engineReady 1 o [] [(18 * 65536 + 0x2000, 4)] = true) ∧
    (∀ busy ∈ ([false, true] : List Bool),
      let o : Op := { opOf (.media 2 0 busy false) with cid := none }
      let s : State := { ringState (demoCourse []) (nodeW 8 3 0) 0 with ops := [(1, o)] }
      s.up = true ∧ s.mediaOp 2 0 = some (1, o) ∧ s.queues.find 2 = some demoQueue ∧ s.decoderFree 1 2 = true) := by decide +kernel

/-- A configuration of queues of one row of 16 bytes (R255): version 1, BCAP and fill target 1, AGE 1, one ring row, bitmap and spill region at
0x2000000, combine slots at 0x11000, one token. -/
def xqWords : List Word :=
  [BitVec.ofNat 64 (2 ^ 56 + 2 ^ 44 + 2 ^ 35), 0x10000, 1, 0x100000000, 0x2000000, 0, 0x11000, 1]

/-- Queue 5 with no row, or with one outstanding batch of one row. -/
def demoXq (rows : List XRow) (out : List Batch) : XQ :=
  { cfg := xqWords, ctx := 0, dup := 0, fired := 0, cref := 0, serial := 0, rows := rows, out := out, expiry := none }
def demoHandle : Word := BitVec.ofNat 64 (5 * 2 ^ 54)
def demoBatch : Batch := { handle := demoHandle, rows := [⟨0, 0⟩], kern := 9 }

/-- A course of one lane, with scalars, on a machine with queue 5. -/
def xqCourse (scal : List (Nat × Word)) : Course := courseAt (pathAt 1 0 0 0) scal
def xqState (c : Course) (x : XQ) : State := { demo c with xqs := [(5, x)] }

/-- A configuration block that passes, and one of version 0. -/
theorem witness_ExpertQueueInstructions_cfg :
    (let c := xqCourse [(1, 0x10000), (2, 5)]
     let s := State.having (demo c) [(18 * 65536, 64, blockNat xqWords)]
     s.issuing = some (demoEnv c) ∧ (demoEnv c).acting (ops .zero (.reg 1) (.reg 2)) ≠ 0 ∧ (demoEnv c).val (ops .zero (.reg 1) (.reg 2)) .n32 (.reg 2) = 5 ∧
     s.tick.xqGranted (s.tick.partOf 0) 5 = true ∧ s.tick.xqForeign 0 5 = false ∧ (c.scalar 1).toNat % 64 = 0 ∧
     s.tick.blockOpen (demoEnv c) 0x10000 ∧ s.tick.blockWords (demoEnv c) 0x10000 = xqWords) ∧
    xqCheck xqWords = none ∧ s0.tick.ringOut 0 5 xqWords = none ∧ (xqCheck (xqWords.set 0 0)).isSome = true := by
  unfold State.blockOpen
  decide +kernel

/-- A row that is accepted, and one whose source is no multiple of 16. -/
theorem witness_ExpertQueueInstructions_push :
    let c (src : Word) := xqCourse [(1, src), (2, 5), (3, 0)]
    let x := ops (.reg 3) (.reg 1) (.reg 2)
    let l (src : Word) := (lanesOf ((demoEnv (c src)).acting x)).map ((xqState (c src) (demoXq [] [])).tick.pushRow (demoEnv (c src)) x 0)
    let s := xqState (c 0x12000) (demoXq [] [])
    s.issuing = some (demoEnv (c 0x12000)) ∧ s.tick.devNo 0 = 0 ∧ s.tick.pushTrap (demoEnv (c 0x12000)) 0 (l 0x12000) = none ∧
    ((xqState (c 8) (demoXq [] [])).tick.pushTrap (demoEnv (c 8)) 0 (l 8)).isSome = true ∧ (c 0).tfencing = false ∧ s.tick.drained 0 s.nextId = true ∧
    (∀ r ∈ l 0x12000, r.link = none ∧ s.tick.xqPending r.q = false) ∧ (s.tick.acceptRows (l 0x12000)).isOk = true ∧
    s.tick.replayRoom ((l 0x12000).filterMap (·.link)) = true ∧
    l 0x12000 ≠ [] := by decide +kernel

/-- An outstanding batch of one row: where it is popped to and combined from; no batch; a queue that is granted and one that is not. -/
theorem witness_ExpertQueueInstructions_batch :
    let c := xqCourse [(1, demoHandle), (2, 0x12000), (3, 0x13000), (4, 1023), (5, 1024)]
    let s := xqState c (demoXq [] [demoBatch])
    s.tick.batchOf 0 (c.scalar 1) = some (5, demoXq [] [demoBatch], demoBatch) ∧ (c.scalar 2).toNat % 16 = 0 ∧ (c.scalar 3).toNat % 8 = 0 ∧
    s.tick.xqRange (demoEnv c) (c.scalar 2) (demoBatch.rows.length * (demoXq [] [demoBatch]).rowSize) true = .ok [(18 * 65536 + 0x2000, 16)] ∧
    s.tick.xqRange (demoEnv c) (c.scalar 3) (8 * demoBatch.rows.length) true = .ok [(18 * 65536 + 0x3000, 8)] ∧
    s.tick.rowsMoving 5 (demoBatch.rows.map (·.loc)) = false ∧ s.tick.batchTags 5 (demoXq [] [demoBatch]) demoBatch = .ok [0] ∧
    (bits (0 : Word).toNat 32 32 < (demoXq [] []).ntok ∧ bits (0 : Word).toNat 28 4 < (demoXq [] []).kmax ∧ bits (0 : Word).toNat 16 12 = s.tick.devNo 0) ∧
    s.tick.xqRange (demoEnv c) (c.scalar 2) (1 * (demoXq [] []).outSize) false = .ok [(18 * 65536 + 0x2000, 16)] ∧
    s.tick.xqRange (demoEnv c) (BitVec.ofNat 64 ((demoXq [] []).slotVa 0)) (demoXq [] []).outSize true = .ok [(18 * 65536 + 0x1000, 16)] ∧
    s.tick.opsOf 0 = [] ∧ (xqState c (demoXq [] [])).tick.batchOf 0 (c.scalar 1) = none ∧
    (demoEnv c).val (ops (.reg 7) (.reg 4) .zero) .n32 (.reg 4) = 1023 ∧ s.tick.xqGranted (s.tick.partOf 0) 1023 = true ∧
    (demoEnv c).val (ops (.reg 7) (.reg 5) .zero) .n32 (.reg 5) = 1024 ∧ s.tick.xqGranted (s.tick.partOf 0) 1024 = false := by decide +kernel

/-- A new token, one that is known, and one that meets a full queue. -/
theorem witness_ExpertQueueEvents_accept :
    s0.xqs.find 5 = none ∧
    (let s := xqState (demoCourse []) (demoXq [] [])
     s.xqs.find 5 = some (demoXq [] []) ∧ s.translate (xqCore 5) 0 (0x2000000 + 0 / 8) none false = .ok (25 * 65536, .rc) ∧
     nbit (s.peekNat (25 * 65536) 1) (0 % 8) = false ∧ (s.xqAccept 5 0).2 = .place 0) ∧
    nbit ((State.having s0 [(25 * 65536, 1, 1)]).peekNat (25 * 65536) 1) (0 % 8) = true ∧
    (demoXq [⟨0, 0⟩] []).rrows + (demoXq [⟨0, 0⟩] []).spilln ≤ (demoXq [⟨0, 0⟩] []).occ := by decide +kernel

/-- A configuration whose queue is idle; the first round. -/
theorem witness_ExpertQueueEvents_home :
    (let o := opOf (.xqCfg 5 xqWords)
     let s : State := { underWay (demoCourse []) o.kind with xqs := [(5, demoXq [] [])] }
     s.ops.find 1 = some o ∧ s.xqs.find 5 = some (demoXq [] []) ∧ (demoXq [] []).rows = [] ∧ (demoXq [] []).out = [] ∧
     (s.ops.all (fun p => decide (1 ≤ p.1))) = true) ∧
    s0.roundDue 1 = false ∧
    (let x := demoXq [⟨0, 0⟩] []
     let s : State := { s0 with time := ⟨0, 4294967296 / 40 * 40 + 80, 0, 1600, 0⟩, xqs := [(5, { x with cfg := x.cfg.set 3 0x100000000 })] }
     s.roundDue 0 = true ∧ s.nextRound 0 = some 1 ∧ (s.candidates 0 1).map (·.1) = [5] ∧
     (let t : State := { s with xqs := [(5, { x with cfg := (x.cfg.set 2 1000).set 0 (BitVec.ofNat 64 (2 ^ 56 + 2 * 2 ^ 35)) })] }
      t.roundDue 0 = true ∧ t.candidates 0 1 = [])) := by decide +kernel

/-- Rows and output rows of another package: during a checkpoint, for a device that is none here, and accepted. -/
theorem witness_ExpertQueueEvents_remote :
    let s : State := { xqState (demoCourse []) (demoXq [] []) with links := [(0, { Link.reset with st := .up })] }
    s.up = true ∧ (s.link 0).st = .up ∧ (s.link 0).seen.find? (fun e => e.1 == 7) = none ∧ ({ s.pkg with checkpoint := true } : Package).checkpoint = true ∧
    s.pkg.checkpoint = false ∧ s.xqAt 1 5 = false ∧ s.xqAt 0 5 = true ∧ s.xqClosed 5 = false ∧
    (let a := ({ s with out := .none } : State).xqAccept 5 0
     a.2 = .place 0 ∧ a.1.transferSize 5 0 = some 16 ∧ (a.1.xRowPlaces 5 0).all (a.1.rangeFree a.1.nextId true) = true ∧
     (let l : State := { a.1 with locks := [(1, ⟨0, 2 ^ 64, true, 3, none, false, 3⟩)], nextId := 9 }; (l.xRowPlaces 5 0).all (l.rangeFree l.nextId true) = false)) ∧
    (demoXq [] []).layer = 0 ∧ bits (wordAt (demoXq [] []).cfg 0) 23 6 = 0 ∧ (demoXq [] []).kmax = 1 ∧ bits (0 : Word).toNat 32 32 < (demoXq [] []).ntok ∧
    ({ s with out := .none } : State).pagedSpan (xqCore 5) 0 ((demoXq [] []).slotVa 0) (demoXq [] []).outSize true = .ok [(18 * 65536 + 0x1000, 16)] ∧
    ({ s with out := .none } : State).rangeFree s.nextId true (18 * 65536 + 0x1000, 16) = true ∧ s0.xqs.find 5 = none := by decide +kernel

/-- The last course of a kernel and the one before it. -/
theorem witness_ExpertQueueEvents_retire :
    ∀ n ∈ ([1, 2] : List Nat),
      let c : Course := { demoCourse [] with kern := 7, exited := BitVec.allOnes 64, paths := [] }
      let k : Kernel := { demoKernel with st := .resident, live := n }
      let s : State := { demo c with slots := [], cur := none, kernels := [(7, k)] }
      s.courses.find 0 = some c ∧ s.courseOver 0 c = true ∧ c.moved = none ∧ s.mayRetire c = true ∧
      ((s.clearRecord c).releaseCourse 0 c).kernels.find c.kern = some k := by decide +kernel

/-- Gate 3: its access-list entry 0 admits partition 0 of this package to everything, with a number of tokens left where it is limited. -/
def aclWord (refill tokens : Nat) : Word := BitVec.ofNat 64 (2 ^ 63 + 7 * 2 ^ 44 + refill * 2 ^ 28 + 255 * 2 ^ 20 + tokens * 2 ^ 12)
def demoGate (st : GState) (acl : Word) : Gate :=
  { st := st, value := 5, acl := [acl, 0, 0, 0, 0, 0, 0, 0], mpart := 0, freezeAfter := false, nwait := 0, deferred := [], remote := [] }
def gateState (c : Course) (g : Gate) : State := { demo c with gates := [(3, g)], pkg := { (demo c).pkg with gateOn := true } }

/-- Every state of a gate, a gate name that is not in use, and a command that its page does not take. -/
theorem witness_CommandsAndGates :
    (gateState (demoCourse []) (demoGate .active 0)).up = true ∧ (gateState (demoCourse []) (demoGate .active 0)).cmds = [] ∧
    (gateState (demoCourse []) (demoGate .active 0)).pkg.gateOn = true ∧ (gateState (demoCourse []) (demoGate .active 0)).gate 4 = none ∧
    (∀ st ∈ ([.frozen, .migrating, .active] : List GState),
      (((gateState (demoCourse []) (demoGate st 0)).submitted 0 0x1200 (cmdWords 0 none none 1)).refreshGate 3).gate 3 = some (demoGate st 0)) ∧
    (∀ st ∈ ([.active, .frozen, .migrating] : List GState), (gateState (demoCourse []) (demoGate st 0)).gate 3 = some (demoGate st 0)) ∧
    (demoGate .active 0).deferred = [] ∧ (demoGate .active 0).remote = [] ∧
    (s0.up = true ∧ s0.cmdPending 16 0x11FF = false ∧ (16 : Nat) ≠ 0 ∧ 0x11FF < 0x1200 ∧ (0 + 1 ≠ 16)) ∧
    ({ s0 with cmds := [(0, { words := [], pending := true })] } : State).cmdPending 0 0 = true := by decide +kernel

/-- A gate whose agent has every right, and one whose agent has none; counts 1 and 2 ^ 32 − 1. -/
theorem witness_GateInstructions :
    (∀ n ∈ ([1, 2 ^ 32 - 1] : List Nat),
      let c := demoCourse [(1, 3), (2, BitVec.ofNat 64 n)]
      let s := gateState c (demoGate .active (aclWord 0 0))
      let x := ops (.reg 4) (.reg 1) (.reg 2)
      s.issuing = some (demoEnv c) ∧ (demoEnv c).acting x ≠ 0 ∧ (demoEnv c).gateName x s = some (s.pkg.pkgno, 3, 3) ∧ (demoEnv c).n64 x (.reg 2) = n ∧
      s.aclRow 3 s.pkg.pkgno 0 46 = .ok (demoGate .active (aclWord 0 0), 0) ∧ s.aclRow 3 s.pkg.pkgno 0 45 = .ok (demoGate .active (aclWord 0 0), 0) ∧
      s.aclRow 3 s.pkg.pkgno 0 44 = .ok (demoGate .active (aclWord 0 0), 0) ∧ c.tfencing = false ∧ (demoEnv c).pa.offer = none ∧
      s.tick.drained 0 s.nextId = true ∧ s.waiterRoom 3 = true) ∧
    (let c (id : Option Nat) : Course := courseAt { demoPath with offer := id } [(1, 5 * 2 ^ 16 + 3), (2, 7)]
     let x := ops (.reg 4) (.reg 1) (.reg 2)
     let at_ (r : Option Reply) : OpKind := .gateRemote 2 9 (5 * 2 ^ 16 + 3) .rd (.reg 4) r
     let s (id : Option Nat) (r : Option Reply) : State := { gateState (c id) (demoGate .active 0) with
       ops := [(1, opOf (at_ r))], pkg := { (gateState (c id) (demoGate .active 0)).pkg with routes := [(5, 2)] } }
     (demoEnv (c none)).gateName x (s none none) = some (5, 3, 5 * 2 ^ 16 + 3) ∧ (5 : Nat) ≠ (s none none).pkg.pkgno ∧ (demoEnv (c none)).pa.offer = none ∧
     (s none none).tick.routeTo 5 = some 2 ∧ (s none none).tick.replayRoom [2] = true ∧ (gateState (c none) (demoGate .active 0)).tick.routeTo 5 = none ∧
     (∀ r ∈ ([.gate 7, .accept, .gateTrap 1] : List Reply), (s (some 1) (some r)).issuing = some (demoEnv (c (some 1))) ∧ (demoEnv (c (some 1))).pa.offer = some 1 ∧
       (s (some 1) (some r)).ops.find 1 = some (opOf (at_ (some r))))) ∧
    (let s := gateState (demoCourse []) (demoGate .active 0)
     s.aclRow 3 s.pkg.pkgno 0 45 = .error 1 ∧ s.aclRow 3 s.pkg.pkgno 0 44 = .error 1 ∧ s.aclRow 4 s.pkg.pkgno 0 44 = .error 3) := by decide +kernel

/-- Entries with and without a token, a frozen gate; the tick of a refill; a deferred signal past its time; messages. -/
theorem witness_GateSignals :
    (bits (wordAt (demoGate .active (aclWord 1 1)).acl 0) 28 16 ≠ 0 ∧ bits (wordAt (demoGate .active (aclWord 1 1)).acl 0) 12 8 ≠ 0 ∧
      bits (wordAt (demoGate .active (aclWord 1 0)).acl 0) 12 8 = 0 ∧ bits (wordAt (demoGate .active (aclWord 0 0)).acl 0) 28 16 = 0 ∧
      (demoGate .active 0).st ≠ .frozen ∧ (demoGate .frozen 0).st = .frozen ∧
      (∀ i, i < 8 → ¬ (nbit (wordAt (demoGate .active 0).acl i) 63 = true ∧ bits (wordAt (demoGate .active 0).acl i) 51 12 = 0 ∧
        bits (wordAt (demoGate .active 0).acl i) 47 4 = 0))) ∧
    (let g := demoGate .active (aclWord 10 254)
     let s : State := { gateState (demoCourse []) g with time := ⟨0, 10, 0, 1600, 0⟩ }
     s.gate 3 = some g ∧ s.lastTick.getD (3 * 8 + 0) 0 < s.time.ns / bits (wordAt g.acl 0) 28 16 ∧ bits (wordAt g.acl 0) 12 8 < bits (wordAt g.acl 0) 20 8) ∧
    (let g : Gate := { demoGate .frozen (aclWord 0 0) with deferred := [{ id := 1, who := .op 1, n := 1, acl := 0, limit := 10000 }] }
     let s : State := { gateState (demoCourse []) g with time := ⟨0, 10001, 0, 1600, 0⟩ }
     s.gates = [(3, g)] ∧ (g.deferred.find? (fun d => d.id == 1 && decide (d.limit < s.time.ns))).isSome = true ∧
     g.deferred.find? (fun d => d.id == 2 && decide (d.limit < s.time.ns)) = none ∧ ((s.refreshGate 3).gates.find 3).isSome = true ∧ s.gate 3 = some g) ∧
    (let s : State := { gateState (demoCourse []) (demoGate .active (aclWord 0 0)) with links := [(0, { Link.reset with st := .up })] }
     s.up = true ∧ (s.link 0).st = .up ∧ (s.link 0).seen.find? (fun e => e.1 == 7) = none ∧ s.aclRow 3 0 0 44 = .ok (demoGate .active (aclWord 0 0), 0) ∧
     s.aclRow 3 0 0 45 = .ok (demoGate .active (aclWord 0 0), 0) ∧ s.aclRow 3 0 0 46 = .ok (demoGate .active (aclWord 0 0), 0) ∧
     (5 : Word) ≤ (demoGate .active (aclWord 0 0)).value ∧ s.aclRow 3 1 0 44 = .error 1) := by decide +kernel

/-- A partition block for the shortest period, with one course slot and four rows. -/
def lentBlock : List Word := (demoBlock.set 2 (BitVec.ofNat 64 (1 * 2 ^ 53 + 4 * 2 ^ 16))).set 7 (BitVec.ofNat 64 (64 * 2 ^ 48))

/-- A machine whose partition 0 has that block, and in whose memory stand a block for context 1 at GPA 0x300000 and stage-2 tables that map the
first 512 MiB to themselves. -/
def enableState : State :=
  { State.having s0 [(0x200000, 8, 0x210005), (0x210000, 8, 2 ^ 62 + 7), (0x300000, 8, 1 * 2 ^ 48), (0x300048, 8, 2 ^ 60)] with
    tlb := [{ demoPage false 0 7 false with ctx := 1 }],
    parts := [(0, { Partition.none with block := lentBlock.set 0 0x200000 })] }

/-- Blocks that a load refuses and accepts; contexts that can be enabled and not. -/
theorem witness_ContextCommands_load :
    s0.up = true ∧ s0.cmds = [] ∧ s0.hostBlock 1 16 = none ∧
    (let s : State := { s0 with courses := [] }
     s.hostBlock 0 16 = some (List.replicate 16 0) ∧ blockBad 0 (List.replicate 16 0) = true ∧
     (State.having s [(0, 128, blockNat lentBlock)]).hostBlock 0 16 = some lentBlock ∧ blockBad 0 lentBlock = false ∧ s.heldOutside 0 lentBlock = false ∧
     s.parts.all (fun p => p.1 == 0) = true ∧ (s.parts.find 0).isSome = true ∧ demoBlock ≠ [] ∧ ({ s with parts := [] } : State).parts.find 0 = none) ∧
    (enableState.enableCtx 0 1 0x300000).isSome = true ∧ enableState.enableCtx 0 1 0 = none ∧ (enableState.ctxs.find 0).isSome = true ∧
    ((enableState.ctxs.find 0).map (fun c => (c.part, c.st == CState.active))) = some (0, true) ∧ enableState.ctxs.find 2 = none := by decide +kernel

/-- A slot that has changed and one that has not; a waiting block due at this very moment and one due later. -/
theorem witness_ContextCommands_time :
    let p : Partition := { Partition.none with block := lentBlock, next := some (lentBlock, 1000) }
    let s (n : Nat) : State := { s0 with parts := [(0, p)], time := ⟨0, n, 0, 1600, 0⟩ }
    (s 1000).up = true ∧ (s 1000).parts.find 0 = some p ∧ slotAt p.block (s 1000).time.ns ≠ p.slot ∧ slotAt p.block (s 999).time.ns = p.slot ∧
    1000 ≤ (s 1000).time.ns ∧ (s 999).time.ns < 1000 := by decide +kernel

/-- Context 1 of partition 1 has a course in capacity that partition 0 lent it, where a saved course of partition 0 is to go on. -/
def lentState (p : Partition) : State :=
  let c : Course := { demoCourse [] with rows := 4, saved := true }
  let b : Course := { demoCourse [] with rows := 4, ctx := 1, borrowed := true }
  { s0 with slots := [], cur := none, courses := [(0, c), (1, b)], ctxs := [(0, demoCtx), (1, { demoCtx with part := 1 })], parts := [(0, p)],
            time := ⟨0, 1000, 0, 1600, 0⟩ }

theorem witness_ContextCommands_lending :
    let p (r q : Option Nat) : Partition := { Partition.none with block := lentBlock, reclaimAt := r, returnAt := q }
    (∀ r ∈ ([none, some 1000] : List (Option Nat)),
      (lentState (p r none)).reclaimNeeded 0 1 { demoCourse [] with rows := 4, ctx := 1, borrowed := true } = true) ∧
    (lentState (p none none)).courses.find 1 = some { demoCourse [] with rows := 4, ctx := 1, borrowed := true } ∧
    1000 ≤ (lentState (p none (some 1000))).time.ns ∧ (p none (some 1000)).returnAt = some 1000 := by decide +kernel

/-- A context that has nothing left on the device, ending and migrating. -/
theorem witness_ContextCommands_gone :
    let s (st : CState) : State := { s0 with slots := [], cur := none, courses := [], ctxs := [(0, { demoCtx with st := st })] }
    (s .ending).ctxs.find 0 = some { demoCtx with st := .ending } ∧ (s .ending).courses = [] ∧ (s .ending).ops = [] ∧ (s .migrating).up = true := by
  decide +kernel

theorem witness_ContextCommands_bent : s0.bentOn 47 = true ∧ 47 < 48 ∧ s0.bentOn 48 = false := by decide +kernel

/-- A migrating context without courses, and one whose halted course cannot be saved, its save area not being mapped. -/
theorem witness_ContextCommands_save :
    (let s : State := { s0 with slots := [], cur := none, courses := [], ctxs := [(0, { demoCtx with st := .migrating })] }
     (s.saveCtx 0).isSome = true) ∧
    (let s : State := { s0 with slots := [], cur := none, tlb := [], ctxs := [(0, { demoCtx with st := .migrating })] }
     s.haltedCourse 0 = true ∧ s.ops = [] ∧ (s.saveCtx 0).isNone = true) := by decide +kernel

/-- A stopped course of one row of a retired bent, and one that cannot be saved. -/
theorem witness_ContextCommands_save_course :
    (let c : Course := { demoCourse [] with rows := 1, moved := some 1 }
     let s : State := { s0 with slots := [], cur := none, courses := [(0, c)] }
     s.betweenRuns 0 = true ∧ s.opsOf 0 = [] ∧ ((s.saveTiles 0).bind (fun s => s.saveCourse 0)).isSome = true ∧
     ((({ s with tlb := [] } : State).saveTiles 0).bind (fun s => s.saveCourse 0)).isNone = true) := by decide +kernel

/-- A saved course of four rows, and the place it goes to. -/
theorem witness_ContextCommands_restore :
    (let c : Course := { demoCourse [] with rows := 4, moved := some 1, saved := true }
     let s : State := { s0 with slots := [], cur := none, courses := [(0, c)], parts := [(0, { Partition.none with block := lentBlock })] }
     s.findSpot (s.partOf c.ctx) c.ctx c.rows = some ⟨0, 0, 0, false, false⟩ ∧ (s.claim 0 0 0 4).isSome = true ∧
     ((s.claim 0 0 0 4).bind (fun s => s.restoreMoved 0 c ⟨0, 0, 0, false, false⟩)).isSome = true ∧
     ((({ s with tlb := [] } : State).claim 0 0 0 4).bind (fun s => s.restoreMoved 0 c ⟨0, 0, 0, false, false⟩)).isNone = true) := by decide +kernel

/-- A context that can be enabled and brings no course. -/
theorem witness_ContextCommands_migrate :
    ((enableState.enableCtx 0 1 0x300000).bind (fun t => t.recordCourses 0 1)).isSome = true := by decide +kernel

/-- A course that a flush of crew 3 has already reached, and one that none has. -/
theorem witness_ContextCommands_flush :
    (s0.courses.find 0 = some (demoCourse []) ∧ (demoCourse []).saved = false ∧ (demoCourse []).flushed = []) ∧
    (let c : Course := { demoCourse [] with flushed := [3] }
     (demo c).courses.find 0 = some c ∧ c.saved = false ∧ c.flushed.contains 3 = true) := by decide +kernel

/-- A trap for each way it may go, in a course with and without a region open, and on a core with and without a shim. -/
theorem witness_TrapsAreTaken :
    let shimHeld (s : State) : State := { s with ovls := s.ovls.put 0 { id := 0, ctx := 0, n := 1, image := 0, order := 0, loaded := true, mark := [] } }
    let closed : Course := { demoCourse [] with regpc := 0xFFFFFFFF }
    let open_ : Course := { demoCourse [] with regpc := 0xFFFF0000, region := { (demoCourse []).region with restarts := 1 } }
    (demoCourse []).paths.find 0 = some demoPath ∧ demoPath.shim = none ∧ closed.regpc = 0xFFFFFFFF ∧
    (open_.regpc ≠ 0xFFFFFFFF ∧ open_.region.restarts < 2) ∧ (shimHeld s0).hasShim (demoCourse []).core = true ∧ s0.hasShim 0 = false ∧
    ((Trap.poison 0xFF 0).stay = false ∧ (Trap.poison 0xFF 0).cls = 0x08 ∧ (Trap.illegal 0).cls = 0x01 ∧ (Trap.user 0).cls = 0x0F ∧ (Trap.user 0).sub ≠ 0xFF) := by decide +kernel

/-- The shim's path with trapret 0, 1 and 2, and a path outside the shim. -/
theorem witness_TrapretReturns :
    (∀ k ∈ ([0, 1, 2] : List Nat),
      let q : Path := { demoPath with shim := some ⟨0, 0, 0, 0, none, []⟩ }
      let c := courseAt q []
      let x := ops .zero (.imm (BitVec.ofNat 16 k)) .zero
      (demo c).issuing = some (demoEnv c) ∧ (demo c).tick.consumed (demoEnv c) Enc.trapret x = none ∧ (demoEnv c).pa.shim ≠ none ∧ (demoEnv c).acting x ≠ 0 ∧
      x.a.ctl = k ∧ (demo c).hopeless ((demo c).recTrap c 0) = false) ∧ e0.pa.shim = none := by decide +kernel

/-- The four actions of a reply, for a path that awaits the driver. -/
theorem witness_ResumeDoorbell :
    ∀ a ∈ ([0, 1, 2, 3] : List Nat),
      let q : Path := { demoPath with stopped := true }
      let c := courseAt q []
      let s := State.having (demo c) [(20 * 65536 + 0x3018, 8, a * 2 ^ 60)]
      s.up = true ∧ s.resumable 0 0 0 0 0 = some (0, c, q) ∧ c.saved = false ∧ bits (s.recWord c 0 3) 60 2 = a ∧
      (let r := s.reread c q (s.recTrap c 0)
       ((s.setCourse 0 { r.1 with paths := r.1.paths.put 0 r.2 }).ctxs.find c.ctx).isSome = true) := by decide +kernel

/-- The same for a course whose state is in its record, where the record can be reached and where not. -/
theorem witness_ResumeDoorbell_saved :
    let q : Path := { demoPath with stopped := true }
    let c : Course := { courseAt q [] with saved := true }
    (demo c).resumable 0 0 0 0 0 = some (0, c, q) ∧ c.saved = true ∧ ((demo c).recordAt c 0 true).isSome = true ∧
    (({ demo c with tlb := [] } : State).recordAt c 0 true).isNone = true := by decide +kernel

/-- A course with one path and none that is suspended; one whose lane stands behind a region; equal and unequal signatures. -/
theorem witness_RegionsAndSignatures :
    e0.acting (ops .zero (.imm 0) .zero) ≠ 0 ∧ e0.co.paths.length = 1 ∧ e0.co.stack = 0 ∧ e0.pa.shim = none ∧
    (∀ l, l < 64 → e0.pa.fmask.getLsbD l = true → cOf e0.co.c l = 0) ∧
    (0 < 64 ∧ e0.pa.fmask.getLsbD 0 = true ∧ cOf ({ e0.co with c := 1 } : Course).c 0 ≠ 0) ∧
    e0.co.sig.toNat = (ops .zero (.imm 0) (.imm 0)).joined ∧ ({ e0.co with sig := 7 } : Course).sig.toNat ≠ (ops .zero (.imm 0) (.imm 0)).joined := by
  decide +kernel

/-- Link 11 in every state, with a message of each age. -/
theorem witness_FabricLinks :
    let m : Msg := { seq := 7, dest := 1, kind := .gate 3 0 .rd, retry := some 2000, since := 0 }
    let s (st : LState) (n : Nat) : State := { s0 with links := [(11, { Link.reset with st := st, width := 8, queue := [m], retryAt := some 1000000, crc := [(0, List.replicate 16 0)] })], time := ⟨0, n, 0, 1600, 0⟩ }
    (s .down 0).up = true ∧ 11 < 12 ∧ ((s .training 0).link 11).st = .training ∧ ((s .training 0).link 11).widest 0xFF ≠ 0 ∧
    (((s .down 1000000).link 11).st = .down ∧ ((s .down 1000000).link 11).retryAt = some 1000000 ∧ 1000000 ≤ (s .down 1000000).time.ns ∧
      (s .down 999999).time.ns < 1000000) ∧
    (((s .up 0).link 11).st = .up ∧ ((s .up 0).link 11).excluded.getLsbD 7 = false) ∧
    16 ≤ ((((s .up 999999).link 11).crc.getD 0 []).filter (fun t => decide ((s .up 999999).time.ns < t + 1000000))).length ∧
    ((((s .up 1000000).link 11).crc.getD 0 []).filter (fun t => decide ((s .up 1000000).time.ns < t + 1000000))).length < 16 ∧
    (s .up 0).msg 11 7 = some m ∧ (2000 ≤ (s .up 2000).time.ns ∧ (s .up 1999).time.ns < 2000) ∧
    (max (((s .down 10000000).link 11).downAt.getD 0) m.since + 10000000 ≤ (s .down 10000000).time.ns ∧
      (s .down 9999999).time.ns < max (((s .down 9999999).link 11).downAt.getD 0) m.since + 10000000) ∧
    ((s .down 10000000).msg 11 8 = none ∧ (s .down 10000000).otherWay 11 = false) ∧
    (let o := opOf (.xqPush 0 [] 0 [(3, 11, 7)]); ({ s0 with ops := [(1, o)] } : State).ops.find 1 = some o) := by decide +kernel

theorem witness_ViralLinks :
    (s0.pkg.powerOff = false ∧ s0.pkg.inReset = false ∧ s0.pkg.viral = false) ∧
    (let s : State := { s0 with links := [(11, { Link.reset with st := .training })] }
     s.up = true ∧ (s.link 11).st ≠ .down) ∧
    (let m : Msg := { seq := 7, dest := 3, kind := .gate 3 0 .rd, retry := none, since := 0 }
     let s : State := { s0 with links := [(11, { Link.reset with viral := true, peer := 3, queue := [m] })], time := ⟨0, 10000000, 0, 1600, 0⟩ }
     s.msg 11 7 = some m ∧ (s.link 11).st = .down ∧ (s.link 11).viral = true ∧ m.dest = (s.link 11).peer ∧
     max ((s.link 11).downAt.getD 0) m.since + 10000000 ≤ s.time.ns) := by decide +kernel

/-- Accesses over CXL.mem at both ends of a block; the tiers; a machine at rest and one that is not; a cap and clocks at their bounds. -/
theorem witness_HostAndPackage :
    s0.up = true ∧ s0.locks = [] ∧ s0.cmds = [] ∧ s0.pkg.checkpoint = false ∧ s0.pkg.viral = false ∧ s0.pkg.tier = none ∧ s0.pkg.activeB = false ∧
    ((2 ^ 39 - 1) % 64 + [(1 : Byte)].length ≤ 64 ∧ (2 ^ 39 - 1) + [(1 : Byte)].length ≤ 2 ^ 39 ∧ (0 : Nat) % 64 + 64 ≤ 64) ∧
    (let s : State := { s0 with pkg := { s0.pkg with hdm := [(0, 0, 2 ^ 39)] } }
     s.inHdm (2 ^ 39 - 1) 1 = true ∧ s.inHdm 64 64 = true) ∧
    s0.poisoned 64 64 = none ∧ ({ s0 with poison := [64] } : State).poisoned 64 64 ≠ none ∧
    ((BitVec.ofNat 64 (2 ^ 52 - 2 ^ 39)).toNat % 2 ^ 39 = 0 ∧ (BitVec.ofNat 64 (2 ^ 52 - 2 ^ 39)).toNat < 2 ^ 52 ∧ (2 ^ 38 : Word).toNat % 2 ^ 39 ≠ 0) ∧
    (({ s0 with slots := [], pkg := { s0.pkg with checkpoint := true } } : State).atRest = true ∧ (1000 ≤ 2800 ∧ 2800 ≤ s0.pkg.form.sustained ∧ s0.pkg.form.sustained < 3001) ∧ s0.atRest = false) ∧
    (800 % 100 = 0 ∧ 800 + 100 = 900 ∧ s0.time.mhz = 1600 ∧ 1500 + 100 = s0.time.mhz) := by decide +kernel

/-- Where the shipped signature is good, the shipped image boots; where the roll-back counter is ahead of both slots, none does. -/
theorem witness_HostAndPackage_boot :
    (State.reset.pkg.firmwareOk State.reset.pkg.fwA = true → State.reset.pkg.kept.bootSlot = some State.reset.pkg.fwA) ∧
    ({ State.reset.pkg with rollback := 1 } : Package).kept.bootSlot = none := by
  constructor
  · intro h
    show [State.reset.pkg.fwA, State.reset.pkg.fwB].find? _ = _
    rw [List.find?_cons]
    have h' : State.reset.pkg.kept.firmwareOk State.reset.pkg.fwA = true := h
    rw [h']
  · show [State.reset.pkg.fwA, State.reset.pkg.fwB].find? _ = none
    rw [List.find?_eq_none]
    intro f hf
    have : f.version = 0 := by
      rcases List.mem_cons.1 hf with rfl | hf
      · rfl
      · rw [List.mem_singleton.1 hf]; rfl
    show ¬ (Config.firmwareSigOk f.digest f.sig && decide (1 ≤ f.version)) = true
    rw [this]
    cases Config.firmwareSigOk f.digest f.sig <;> decide

end Sys2Proof.Tests
end

/-!
PROOFS. Command blocks (R6, R146, R313), and the hypervisor's gate commands (R287, R294, R295).
-/

namespace Sys2Proof.Machine

/-! ### How a command ends -/

/-- The machine after a command of a block, from the state in which it was submitted and the way it ends (R313). -/
def State.conclude (t : State) (page off : Nat) : CmdEnd → State
  | .done u => u.endCmd page off 1
  | .later u => u
  | .refused => t.endCmd page off 2

@[simp] theorem State.conclude_done (t u : State) (page off : Nat) : t.conclude page off (.done u) = u.endCmd page off 1 := rfl
@[simp] theorem State.conclude_later (t u : State) (page off : Nat) : t.conclude page off (.later u) = u := rfl
@[simp] theorem State.conclude_refused (t : State) (page off : Nat) : t.conclude page off .refused = t.endCmd page off 2 := rfl

theorem command_conclude {s : State} {page off part : Nat} {hyper : Bool} (h : s.accepts page off hyper part) (words : List (Option Nat))
    (run : State → CmdEnd) :
    s.command page off hyper part words run = (s.submitted page off words).conclude page off (run (s.submitted page off words)) := by
  rw [command_accepted h]
  cases run (s.submitted page off words) <;> rfl

theorem command_ignored {s : State} {page off : Nat} (h : s.cmdPending page off = true ∨ s.up = false) (part : Nat) (hyper : Bool)
    (words : List (Option Nat)) (run : State → CmdEnd) : s.command page off hyper part words run = s := by
  unfold State.command
  rw [if_pos]
  rcases h with h | h <;> simp [h]

/-- A partition's page takes neither the hypervisor's commands nor those of another partition. -/
theorem command_notOwn {s : State} {page off part : Nat} {hyper : Bool} (hu : s.up = true) (hp : s.cmdPending page off = false)
    (h0 : page ≠ 0) (h16 : page ≤ 16) (ho : off < 0x1200) (hn : hyper = true ∨ part + 1 ≠ page) (words : List (Option Nat))
    (run : State → CmdEnd) : s.command page off hyper part words run = (s.submitted page off words).endCmd page off 2 := by
  have hopen : (!s.up || s.cmdPending page off || decide (16 < page) || (decide (page ≠ 0) && decide (0x1200 ≤ off))) = false := by
    simp [hu, hp, h16, ho]
  have hbad : (decide (page ≠ 0) && (hyper || decide (part + 1 ≠ page))) = true := by
    simpa [h0] using hn
  unfold State.command
  simp only [hopen, hbad, Bool.false_eq_true, if_false, if_true]
  rfl

/-! ### What a block holds after a command -/

theorem cmdStored_getD (s : State) (page off : Nat) (l : List (Option Nat)) {k : Nat} (hk : k < 4) :
    (s.cmdStored page off l).getD k 0 = match l.getD k none with
      | some v => BitVec.ofNat 64 (v &&& blockMask off k)
      | none => (s.cmd page off).words.getD k 0 := by
  have hlen : k < (s.cmdStored page off l).length := by simpa [State.cmdStored] using hk
  rw [List.getD_eq_getElem _ _ hlen]
  cases hw : l.getD k none <;> simp only [State.cmdStored, List.getElem_map, List.getElem_range, hw]

/-- The block holds a command's words, with STATUS over its SEQ. -/
def State.Answered (s : State) (page off : Nat) (words : List (Option Nat)) (seq : BitVec 32) (status : Nat) (t : State) : Prop :=
  ∃ b : Cmd, t.cmds.find (page * 65536 + off) = some b ∧ b.pending = false ∧
    b.words = (s.cmdStored page off words).take 3 ++ [BitVec.ofNat 64 (status * 2 ^ 32 + seq.toNat)]

/-- Ending a command answers it, where its block still is as it was submitted, and leaves memory. -/
theorem endCmd_answered {s t : State} {page off w0 : Nat} {w1 w2 : Option Nat} {seq : BitVec 32}
    (h : t.cmds = (s.submitted page off (cmdWords w0 w1 w2 seq)).cmds) (status : Nat) :
    s.Answered page off (cmdWords w0 w1 w2 seq) seq status (t.endCmd page off status) ∧ (t.endCmd page off status).mem = t.mem := by
  have hfind : t.cmds.find (page * 65536 + off) = some ⟨s.cmdStored page off (cmdWords w0 w1 w2 seq), true⟩ := by
    rw [h]
    exact Tab.find_put_same ..
  obtain ⟨hcmd, hmem⟩ := endCmd_spec (status := status) (stored_seq s page off w0 w1 w2 seq) hfind
  exact ⟨⟨_, hcmd, rfl, rfl⟩, hmem⟩

/-- A command that is performed leaves the memory its effect left. -/
theorem command_done_answered {s t : State} {page off part w0 : Nat} {hyper : Bool} {w1 w2 : Option Nat} {seq : BitVec 32}
    {run : State → CmdEnd} (ha : s.accepts page off hyper part) (hr : run (s.submitted page off (cmdWords w0 w1 w2 seq)) = .done t)
    (ht : t.cmds = (s.submitted page off (cmdWords w0 w1 w2 seq)).cmds) :
    s.Answered page off (cmdWords w0 w1 w2 seq) seq 1 (s.command page off hyper part (cmdWords w0 w1 w2 seq) run) ∧
      (s.command page off hyper part (cmdWords w0 w1 w2 seq) run).mem = t.mem := by
  rw [command_conclude ha, hr]
  exact endCmd_answered ht 1

theorem command_refused_answered {s : State} {page off part w0 : Nat} {hyper : Bool} {w1 w2 : Option Nat} {seq : BitVec 32}
    {run : State → CmdEnd} (ha : s.accepts page off hyper part) (hr : run (s.submitted page off (cmdWords w0 w1 w2 seq)) = .refused) :
    s.Answered page off (cmdWords w0 w1 w2 seq) seq 2 (s.command page off hyper part (cmdWords w0 w1 w2 seq) run) := by
  rw [command_conclude ha, hr]
  exact (endCmd_answered rfl 2).1

/-! ### Submitting a command touches nothing that a gate command reads -/

@[simp] theorem State.submitted_pkg (s : State) (page off : Nat) (l : List (Option Nat)) : (s.submitted page off l).pkg = s.pkg := rfl
@[simp] theorem State.submitted_gate (s : State) (page off : Nat) (l : List (Option Nat)) (n : Nat) :
    (s.submitted page off l).gate n = s.gate n := rfl
@[simp] theorem State.submitted_peekNat (s : State) (page off : Nat) (l : List (Option Nat)) (pa n : Nat) :
    (s.submitted page off l).peekNat pa n = s.peekNat pa n := rfl

/-! ### The gate commands, on the package's own page -/

theorem exec_activate (page gate ver : Nat) (seq : BitVec 32) (s : State) :
    exec (.activate page gate ver seq) s = execActivate page gate ver seq s := rfl
theorem exec_freeze (page gate : Nat) (seq : BitVec 32) (s : State) : exec (.freeze page gate seq) s = execFreeze page gate seq s := rfl
theorem exec_thaw (page gate : Nat) (seq : BitVec 32) (s : State) : exec (.thaw page gate seq) s = execThaw page gate seq s := rfl
theorem exec_retire (page gate : Nat) (seq : BitVec 32) (s : State) : exec (.retire page gate seq) s = execRetire page gate seq s := rfl
theorem exec_beginMigration (page gate acli : Nat) (seq : BitVec 32) (s : State) :
    exec (.beginMigration page gate acli seq) s = execBeginMigration page gate acli seq s := rfl
theorem exec_endMigration (page gate : Nat) (seq : BitVec 32) (s : State) :
    exec (.endMigration page gate seq) s = execEndMigration page gate seq s := rfl

/-- The state in which a gate command is submitted through page 0, with its fields in word 0 and word 1. -/
abbrev State.gateSub (s : State) (gate : Nat) (seq : BitVec 32) (cmd w0 : Nat) (w1 : Option Nat) : State :=
  s.submitted 0 0x1200 (cmdWords (cmd * 2 ^ 60 + w0 + gate % 4096 * 2 ^ 32) w1 none seq)

/-- The state once activate has enabled the table: no gate is in use in a table that was not enabled (R287). -/
def State.enableGates (t : State) : State :=
  if t.pkg.gateOn then t else { t with gates := [], pkg := { t.pkg with gateOn := true } }

theorem State.enableGates_on {t : State} (h : t.pkg.gateOn = true) : t.enableGates = t := by
  rw [State.enableGates, if_pos h]

/-- A gate as activate makes it: ACTIVE, VALUE 0, and nobody waits (R295). -/
def Gate.fresh (acl : List Word) : Gate :=
  { st := .active, value := 0, acl := acl, mpart := 0, freezeAfter := false, nwait := 0, deferred := [], remote := [] }

/-- The remote waiters of a gate whose entry i migrates: those there are, and the thresholds of the entry's own partition here (R294). -/
def State.migratingWaiters (s : State) (n i : Nat) (g : Gate) : List GWaiter :=
  let own := if bits (wordAt g.acl i) 51 12 = s.pkg.pkgno then s.waitersOf n (bits (wordAt g.acl i) 47 4) else []
  g.remote.filter (fun r => r.back.isSome) ++ own.map (fun v => { back := none, v := v, acl := i })

/-- A gate's end: its deferred signals are dropped with RATE, its waiters are told, and it is RETIRED (R295). -/
def State.retireGate (t : State) (n : Nat) (g : Gate) : State :=
  let u := g.remote.foldl (fun (s : State) r => match r.back with
    | some b => s.tellWaiter n b none
    | none => s) (g.deferred.foldl (fun (s : State) d => s.sigOver n d (some 2)) t)
  let w := u.putGate n { g with st := .retired, nwait := u.gateReady n, deferred := [], remote := [] }
  w.mapPaths (fun q => q.retired n (w.gateName n) w.nextId)

section
variable {s : State} {gate : Nat} {seq : BitVec 32} (hacc : s.accepts 0 0x1200 true 0)
include hacc

theorem gateCommand_conclude {cmd : Nat} (hon : cmd = 1 ∨ s.pkg.gateOn = true) (w0 : Nat) (w1 : Option Nat) (run : State → CmdEnd) :
    s.gateCommand 0 cmd gate w0 w1 seq run =
      (s.gateSub gate seq cmd w0 w1).conclude 0 0x1200 (run (s.gateSub gate seq cmd w0 w1)) := by
  unfold State.gateCommand
  rw [command_conclude hacc, if_neg]
  rcases hon with h | h <;> simp [h]

theorem gateCommand_notEnabled {cmd : Nat} (hc : cmd ≠ 1) (hoff : s.pkg.gateOn = false) (w0 : Nat) (w1 : Option Nat)
    (run : State → CmdEnd) : s.gateCommand 0 cmd gate w0 w1 seq run = (s.gateSub gate seq cmd w0 w1).endCmd 0 0x1200 2 := by
  unfold State.gateCommand
  rw [command_conclude hacc, if_pos, State.conclude_refused]
  simp [hc, hoff]

/-! Activate -/

theorem activate_refused {ver : Nat} (hoff : s.pkg.gateOn = false)
    (hv : bits (s.peekNat (gateAddr 0 0) 8) 56 8 ≠ 1 ∨ ver ≠ 1) :
    exec (.activate 0 gate ver seq) s = .next ((s.gateSub gate seq 1 0 (some (ver % 256 * 2 ^ 56))).endCmd 0 0x1200 2) := by
  rw [exec_activate, execActivate, gateCommand_conclude hacc (.inl rfl)]
  dsimp only
  rw [if_pos, State.conclude_refused]
  by_cases hh : bits (s.peekNat (gateAddr 0 0) 8) 56 8 = 1
  · simpa [hoff, hh] using hv
  · simp [hoff, hh]

/-- Where the table is enabled, or header and command name version 1, activate makes the gate unless it is in use. -/
theorem activate_accepted {ver : Nat} (hv : s.pkg.gateOn = true ∨ (bits (s.peekNat (gateAddr 0 0) 8) 56 8 = 1 ∧ ver = 1)) :
    let n := gate % 4096
    let t := s.gateSub gate seq 1 0 (some (ver % 256 * 2 ^ 56))
    let u := t.enableGates
    exec (.activate 0 gate ver seq) s = .next (State.endCmd (match u.gate n with
      | some _ => u
      | none => (u.restartTicks n (u.readAcl n none)).putGate n (.fresh (u.readAcl n none))) 0 0x1200 1) := by
  intro n t u
  rw [exec_activate, execActivate, gateCommand_conclude hacc (.inl rfl)]
  dsimp only
  rw [if_neg (by rcases hv with h | ⟨h, rfl⟩ <;> simp [h])]
  show Host.Outcome.next (t.conclude 0 0x1200 (match u.gate n with
    | some _ => .done u
    | none => .done ((u.restartTicks n (u.readAcl n none)).putGate n (.fresh (u.readAcl n none))))) = _
  cases u.gate n <;> rfl

/-! The other commands, while the table is not enabled -/

theorem gateCommands_notEnabled (hoff : s.pkg.gateOn = false) :
    exec (.freeze 0 gate seq) s = .next ((s.gateSub gate seq 2 0 none).endCmd 0 0x1200 2) ∧
    exec (.thaw 0 gate seq) s = .next ((s.gateSub gate seq 3 0 none).endCmd 0 0x1200 2) ∧
    exec (.retire 0 gate seq) s = .next ((s.gateSub gate seq 4 0 none).endCmd 0 0x1200 2) ∧
    exec (.endMigration 0 gate seq) s = .next ((s.gateSub gate seq 6 0 none).endCmd 0 0x1200 2) ∧
    ∀ i, exec (.beginMigration 0 gate i seq) s = .next ((s.gateSub gate seq 5 (i % 8 * 2 ^ 57) none).endCmd 0 0x1200 2) := by
  have hrefused {cmd : Nat} (hc : cmd ≠ 1) (w0 : Nat) (w1 : Option Nat) (run : State → CmdEnd) :=
    congrArg (Host.Outcome.next (φ := Fault) (ρ := Refusal)) (gateCommand_notEnabled (gate := gate) (seq := seq) hacc hc hoff w0 w1 run)
  exact ⟨hrefused (by decide) .., hrefused (by decide) .., hrefused (by decide) .., hrefused (by decide) ..,
    fun _ => hrefused (by decide) ..⟩

/-! The other commands, while it is -/

variable (hon : s.pkg.gateOn = true)
include hon

theorem freeze_active {g : Gate} (hg : s.gate (gate % 4096) = some g) (hst : g.st = .active) :
    exec (.freeze 0 gate seq) s =
      .next (((s.gateSub gate seq 2 0 none).putGate (gate % 4096) { g with st := .frozen }).endCmd 0 0x1200 1) := by
  rw [exec_freeze, execFreeze, gateCommand_conclude hacc (.inr hon)]
  simp only [State.submitted_gate, hg, hst, State.conclude_done]

theorem freeze_migrating {g : Gate} (hg : s.gate (gate % 4096) = some g) (hst : g.st = .migrating) :
    exec (.freeze 0 gate seq) s =
      .next (((s.gateSub gate seq 2 0 none).putGate (gate % 4096) { g with freezeAfter := true }).endCmd 0 0x1200 1) := by
  rw [exec_freeze, execFreeze, gateCommand_conclude hacc (.inr hon)]
  simp only [State.submitted_gate, hg, hst, State.conclude_done]

theorem beginMigration_active {g : Gate} (hg : s.gate (gate % 4096) = some g) (hst : g.st = .active) (i : Nat) :
    exec (.beginMigration 0 gate i seq) s =
      .next (((s.gateSub gate seq 5 (i % 8 * 2 ^ 57) none).putGate (gate % 4096)
        { g with st := .migrating, mpart := i % 8, remote := s.migratingWaiters (gate % 4096) (i % 8) g }).endCmd 0 0x1200 1) := by
  rw [exec_beginMigration, execBeginMigration, gateCommand_conclude hacc (.inr hon)]
  simp only [State.submitted_gate, hg, hst, ne_eq, not_true_eq_false, if_false, State.conclude_done]
  rfl

theorem beginMigration_notActive {g : Gate} (hg : s.gate (gate % 4096) = some g) (hst : g.st ≠ .active) (i : Nat) :
    exec (.beginMigration 0 gate i seq) s = .next ((s.gateSub gate seq 5 (i % 8 * 2 ^ 57) none).endCmd 0 0x1200 2) := by
  rw [exec_beginMigration, execBeginMigration, gateCommand_conclude hacc (.inr hon)]
  simp only [State.submitted_gate, hg, ne_eq, hst, not_false_eq_true, if_true, State.conclude_refused]

theorem thaw_frozen {g : Gate} (hg : ((s.gateSub gate seq 3 0 none).refreshGate (gate % 4096)).gate (gate % 4096) = some g)
    (hst : g.st = .frozen) :
    exec (.thaw 0 gate seq) s =
      .next ((((s.gateSub gate seq 3 0 none).refreshGate (gate % 4096)).goOn (gate % 4096) g .active).endCmd 0 0x1200 1) := by
  rw [exec_thaw, execThaw, gateCommand_conclude hacc (.inr hon)]
  simp only [hg, hst, if_true, State.conclude_done]

theorem retire_migrating {g : Gate} (hg : ((s.gateSub gate seq 4 0 none).refreshGate (gate % 4096)).gate (gate % 4096) = some g)
    (hst : g.st = .migrating) : exec (.retire 0 gate seq) s = .next ((s.gateSub gate seq 4 0 none).endCmd 0 0x1200 2) := by
  rw [exec_retire, execRetire, gateCommand_conclude hacc (.inr hon)]
  simp only [hg, hst, if_true, State.conclude_refused]

theorem retire_notMigrating {g : Gate} (hg : ((s.gateSub gate seq 4 0 none).refreshGate (gate % 4096)).gate (gate % 4096) = some g)
    (hst : g.st ≠ .migrating) :
    exec (.retire 0 gate seq) s =
      .next ((((s.gateSub gate seq 4 0 none).refreshGate (gate % 4096)).retireGate (gate % 4096) g).endCmd 0 0x1200 1) := by
  rw [exec_retire, execRetire, gateCommand_conclude hacc (.inr hon)]
  simp only [hg, hst, if_false, State.conclude_done]
  rfl

theorem endMigration_migrating {g : Gate} (hg : ((s.gateSub gate seq 6 0 none).refreshGate (gate % 4096)).gate (gate % 4096) = some g)
    (hst : g.st = .migrating) :
    exec (.endMigration 0 gate seq) s =
      .next (((((s.gateSub gate seq 6 0 none).refreshGate (gate % 4096)).goOn (gate % 4096) g
        (if g.freezeAfter then .frozen else .active)).redeliver (gate % 4096) g.mpart).endCmd 0 0x1200 1) := by
  rw [exec_endMigration, execEndMigration, gateCommand_conclude hacc (.inr hon)]
  simp only [hg, hst, State.conclude_done]

end

/-! ### The statement -/

/-- Settles O49: a command block's clauses from how a command ends, a gate command's from the way its own effect ends. -/
theorem commandsAndGates : Obligations.CommandsAndGates := by
  unfold Obligations.CommandsAndGates
  refine ⟨?block, ?gates⟩
  case block =>
    intro s page off part hyper w0 w1 w2 seq run words answered
    refine ⟨fun k hk => cmdStored_getD s page off words hk, fun h => command_ignored h .., fun hu hp h0 h16 ho hn => ?notOwn,
      fun t => command_done_answered, command_refused_answered⟩
    rw [command_notOwn hu hp h0 h16 ho hn]
    exact endCmd_answered rfl 2
  case gates =>
    intro s gate seq hacc n sub head
    refine ⟨fun ver => ?activate, gateCommands_notEnabled hacc, fun g hon hg => ?unrefreshed, fun hon => ?refreshed⟩
    case activate =>
      intro t u
      have hu : u = t.enableGates := rfl
      refine ⟨fun hv hfree => ?made, fun hon huse => ?inUse, activate_refused hacc⟩
      case made =>
        rw [hu] at hfree ⊢
        rw [activate_accepted hacc hv, hfree]
        rfl
      case inUse =>
        have ht : t.enableGates = t := State.enableGates_on hon
        rw [hu, ht] at huse
        obtain ⟨g, hg⟩ := Option.ne_none_iff_exists'.1 huse
        rw [activate_accepted hacc (.inl hon), ht, hg]
    case unrefreshed =>
      exact ⟨freeze_active hacc hon hg, freeze_migrating hacc hon hg, fun i hst => beginMigration_active hacc hon hg hst i,
        fun i hst => beginMigration_notActive hacc hon hg hst i⟩
    case refreshed =>
      exact ⟨fun g hg => thaw_frozen hacc hon hg, fun g hg => ⟨retire_migrating hacc hon hg, retire_notMigrating hacc hon hg⟩,
        fun g hg => endMigration_migrating hacc hon hg⟩

end Sys2Proof.Machine

/-!
PROOFS. Fabric links: training, lanes, replies and time-outs (R11, R15, R267, R290, R318 to R320).
-/

namespace Sys2Proof.Machine

theorem exec_linkPowerUp (link : Nat) (s : State) : exec (.linkPowerUp link) s = execLinkPowerUp link s := rfl
theorem exec_trainingSucceeds (link peer : Nat) (ver : Training) (s : State) :
    exec (.trainingSucceeds link peer ver) s = execTrainingSucceeds link peer ver s := rfl
theorem exec_trainingFails (link : Nat) (s : State) : exec (.trainingFails link) s = execTrainingFails link s := rfl
theorem exec_trainingRetry (link : Nat) (s : State) : exec (.trainingRetry link) s = execTrainingRetry link s := rfl
theorem exec_flitCrcFailure (link lane : Nat) (s : State) : exec (.flitCrcFailure link lane) s = execFlitCrcFailure link lane s := rfl
theorem exec_laneErrorThreshold (link lane : Nat) (s : State) :
    exec (.laneErrorThreshold link lane) s = execLaneErrorThreshold link lane s := rfl
theorem exec_linkReply (link seq : Nat) (r : Reply) (s : State) : exec (.linkReply link seq r) s = execLinkReply link seq r s := rfl
theorem exec_replayRetry (link seq : Nat) (s : State) : exec (.replayRetry link seq) s = execReplayRetry link seq s := rfl
theorem exec_routeTimeout (link seq : Nat) (s : State) : exec (.routeTimeout link seq) s = execRouteTimeout link seq s := rfl

section
variable {s : State} {link : Nat} (hup : s.up = true)
include hup

/-! ### Training -/

theorem linkPowerUp_trains (hlink : link < 12) :
    exec (.linkPowerUp link) s = .next (s.putLink link { (s.link link).train with excluded := 0, viral := false }) := by
  rw [exec_linkPowerUp, execLinkPowerUp, if_neg]
  simp [hup, hlink]

theorem trainingSucceeds_up (hlink : link < 12) (hst : (s.link link).st = .training) (peer : Nat) {v : Training} (hver : v.ver ≠ 0)
    (hw : (s.link link).widest v.lanes ≠ 0) :
    exec (.trainingSucceeds link peer v) s = .next ((s.putLink link { s.link link with
      st := .up, ver := 1, peer := peer % 4096, width := (s.link link).widest v.lanes, retryAt := none, downAt := none }).setLinkW link
        ((s.link link).widest v.lanes)).reroute := by
  rw [exec_trainingSucceeds, execTrainingSucceeds]
  dsimp only
  rw [if_neg]
  simp [hup, hlink, hst, hver, hw]

theorem trainingFails_down (hlink : link < 12) (hst : (s.link link).st = .training) :
    exec (.trainingFails link) s = .next (s.linkDown link { s.link link with retryAt := some (s.time.ns + 1000000) }) := by
  rw [exec_trainingFails, execTrainingFails]
  dsimp only
  rw [if_neg]
  simp [hup, hlink, hst]

theorem trainingRetry_due {t : Nat} (hst : (s.link link).st = .down) (ht : (s.link link).retryAt = some t) (hdue : t ≤ s.time.ns) :
    exec (.trainingRetry link) s = .next (s.putLink link (s.link link).train) := by
  rw [exec_trainingRetry, execTrainingRetry]
  simp only [ht]
  rw [if_neg]
  simp [hup, hst, hdue]

omit hup in
theorem trainingRetry_early {t : Nat} (ht : (s.link link).retryAt = some t) (hearly : s.time.ns < t) :
    exec (.trainingRetry link) s = .next s := by
  rw [exec_trainingRetry, execTrainingRetry]
  simp only [ht]
  rw [if_pos]
  simp [hearly]

/-! ### Lanes -/

theorem flitCrcFailure_counted {lane : Nat} (hst : (s.link link).st = .up) (hlane : lane < 8)
    (hin : (s.link link).excluded.getLsbD lane = false) :
    exec (.flitCrcFailure link lane) s = .next (s.putLink link { s.link link with
      crc := (s.link link).crc.put lane ((s.link link).failures lane s.time.ns ++ [s.time.ns]) }) := by
  rw [exec_flitCrcFailure, execFlitCrcFailure]
  dsimp only
  rw [hin, if_neg]
  simp [hup, hst, hlane]

theorem laneErrorThreshold_excludes {lane : Nat} (hst : (s.link link).st = .up) (hlane : lane < 8)
    (hmany : 16 ≤ ((s.link link).failures lane s.time.ns).length) :
    exec (.laneErrorThreshold link lane) s = .next (s.putLink link { (s.link link).train with
      excluded := (s.link link).excluded ||| BitVec.ofNat 8 (2 ^ lane) }) := by
  rw [exec_laneErrorThreshold, execLaneErrorThreshold]
  dsimp only
  rw [if_neg]
  simp [hup, hst, hlane, hmany]

omit hup in
theorem laneErrorThreshold_few {lane : Nat} (hfew : ((s.link link).failures lane s.time.ns).length < 16) :
    exec (.laneErrorThreshold link lane) s = .next s := by
  rw [exec_laneErrorThreshold, execLaneErrorThreshold]
  dsimp only
  rw [if_pos]
  simp [hfew]

/-! ### Replies -/

variable {seq : Nat}

theorem linkReply_retryLater {m : Msg} (hst : (s.link link).st = .up) (hm : s.msg link seq = some m) :
    exec (.linkReply link seq .retryLater) s = .next (s.modMsg link seq (fun m => { m with retry := some (s.time.ns + 2000) })) := by
  rw [exec_linkReply, execLinkReply, if_neg (by simp [hup])]
  · simp only [hm, if_true]
    rw [if_neg (by simp [hst])]
  · exact fun _ _ h => Reply.noConfusion h

/-- The reply is one to a message of this package, and no news of a gate whose migration has ended (R294). -/
def EndsMsg (r : Reply) : Prop := r ≠ .retryLater ∧ ∀ g v, r ≠ .gateValue g v

theorem linkReply_ends {m : Msg} {r : Reply} (hst : (s.link link).st = .up) (hm : s.msg link seq = some m) (hr : EndsMsg r) :
    exec (.linkReply link seq r) s = .next ((s.dropMsg link seq).replied1 link seq m.kind r) := by
  obtain ⟨hlater, hnews⟩ := hr
  rw [exec_linkReply, execLinkReply, if_neg (by simp [hup])]
  · simp only [hm]
    rw [if_neg (by simp [hst]), if_neg hlater]
  · exact hnews

/-- What comes once the message has ended is a later answer of the home to a gate operation. -/
theorem linkReply_toGate {r : Reply} (hm : s.msg link seq = none) (hr : EndsMsg r) (hdup : r ≠ .duplicate) :
    exec (.linkReply link seq r) s = .next (s.gateReplied link seq r) := by
  obtain ⟨hlater, hnews⟩ := hr
  rw [exec_linkReply, execLinkReply, if_neg (by simp [hup])]
  · simp only [hm]
    rw [if_neg (by simp [hlater, hdup])]
  · exact hnews

theorem linkReply_gateValue (g : Nat) (v : Option Word) :
    exec (.linkReply link seq (.gateValue g v)) s = .next (if (s.link link).st = .up then s.gateNews (s.link link).peer g v else s) := by
  rw [exec_linkReply, execLinkReply, if_neg (by simp [hup])]

theorem replayRetry_due {m : Msg} {t : Nat} (hst : (s.link link).st = .up) (hm : s.msg link seq = some m) (ht : m.retry = some t)
    (hdue : t ≤ s.time.ns) :
    exec (.replayRetry link seq) s = .next (s.putLink link { s.link link with
      queue := (s.link link).queue.filter (fun k => k.seq != seq) ++ [{ m with retry := none }] }) := by
  rw [exec_replayRetry, execReplayRetry]
  simp only [hm, ht]
  rw [if_neg]
  simp [hup, hst, hdue]

omit hup in
theorem replayRetry_early {m : Msg} {t : Nat} (hm : s.msg link seq = some m) (ht : m.retry = some t) (hearly : s.time.ns < t) :
    exec (.replayRetry link seq) s = .next s := by
  rw [exec_replayRetry, execReplayRetry]
  simp only [hm, ht]
  rw [if_pos]
  simp [hearly]

/-! ### Time-outs -/

omit hup in
theorem State.routeless_iff (s : State) (n since : Nat) :
    s.routeless n since = true ↔ (s.link n).st = .down ∧ max ((s.link n).downAt.getD 0) since + 10000000 ≤ s.time.ns := by
  simp [State.routeless]

theorem routeTimeout_refused {m : Msg} (hlink : link < 12) (hm : s.msg link seq = some m) (hr : s.routeless link m.since = true) :
    exec (.routeTimeout link seq) s = .next ((s.dropMsg link seq).replied1 link seq m.kind .refused) := by
  rw [exec_routeTimeout, execRouteTimeout, if_neg (by simp [hup, hlink])]
  simp only [hm]
  rw [if_pos hr]

theorem routeTimeout_notYet {m : Msg} (hlink : link < 12) (hm : s.msg link seq = some m) (hr : ¬ s.routeless link m.since = true) :
    exec (.routeTimeout link seq) s = .next s := by
  rw [exec_routeTimeout, execRouteTimeout, if_neg (by simp [hup, hlink])]
  simp only [hm]
  rw [if_neg hr]

/-- Once its message has ended, a gate's waiting path is told and a waiter record of the other side is dropped. -/
theorem routeTimeout_gate (hlink : link < 12) (hm : s.msg link seq = none) (hr : s.routeless link 0 = true) (hway : s.otherWay link = false) :
    exec (.routeTimeout link seq) s = .next ((s.gateReplied link seq .refused).dropRemote link seq) := by
  rw [exec_routeTimeout, execRouteTimeout, if_neg (by simp [hup, hlink])]
  simp only [hm]
  rw [if_pos (by simp [hr, hway])]

end

/-- The reply to a push's only message over a link: a row that is not accepted is lost. -/
theorem pushReplied_only {s : State} {op lane n seq : Nat} {o : Op} {p : BitVec 6} {todo : List (Nat × Word × Word × Nat × Nat)}
    {dups : LaneMask} (ho : s.ops.find op = some o) (hk : o.kind = .xqPush p todo dups [(lane, n, seq)]) (r : Reply) :
    s.pushReplied op n seq r =
      s.setOp op (.xqPush p todo (dups ||| (if r = .accept then 0 else 0 ||| BitVec.ofNat 64 (2 ^ lane))) []) := by
  simp only [State.pushReplied, ho, hk, List.filter, beq_self_eq_true, Bool.and_self, Bool.not_true, List.foldl]

/-! ### The statement -/

/-- Settles O57: each clause is the rule of its event. -/
theorem fabricLinks : Obligations.FabricLinks := by
  unfold Obligations.FabricLinks
  refine ⟨?training, ?replies, ?gates, ?timeouts, fun s op q lane n seq p todo dups o r ho hk => pushReplied_only ho hk r⟩
  case training =>
    intro s link hup hlink l
    refine ⟨linkPowerUp_trains hup hlink, fun peer ver map hst hver hw => trainingSucceeds_up hup hlink hst peer hver hw,
      trainingFails_down hup hlink, fun t => trainingRetry_due hup, fun t _ => trainingRetry_early,
      fun lane => flitCrcFailure_counted hup, fun lane hst hlane => ⟨laneErrorThreshold_excludes hup hst hlane, laneErrorThreshold_few⟩⟩
  case replies =>
    intro s link seq m hup hst hm
    exact ⟨linkReply_retryLater hup hst hm, fun r hlater hnews => linkReply_ends hup hst hm ⟨hlater, hnews⟩,
      fun t => replayRetry_due hup hst hm, fun t => replayRetry_early hm⟩
  case gates =>
    intro s link seq hup
    refine ⟨linkReply_gateValue hup, fun r hm hlater hdup hnews => linkReply_toGate hup hm ⟨hlater, hnews⟩ hdup,
      fun hlink hm hst hdue hway => routeTimeout_gate hup hlink hm ?_ hway⟩
    exact (s.routeless_iff link 0).2 ⟨hst, by simpa using hdue⟩
  case timeouts =>
    intro s link seq m hup hlink hm
    refine ⟨fun hst hdue => routeTimeout_refused hup hlink hm ((s.routeless_iff link m.since).2 ⟨hst, hdue⟩),
      fun hnot => routeTimeout_notYet hup hlink hm fun hr => ?_⟩
    obtain ⟨hst, hdue⟩ := (s.routeless_iff link m.since).1 hr
    rcases hnot with hup' | hearly
    · exact hup' hst
    · exact absurd hdue (Nat.not_le.2 hearly)

end Sys2Proof.Machine

/-!
PROOFS. Partitions and contexts: their commands (R273 to R286), and what becomes of them in time (R12, R278, R282 to R285, R309).
-/

namespace Sys2Proof.Machine

theorem exec_loadPartitionBlock (page part : Nat) (addr : Word) (seq : BitVec 32) (s : State) :
    exec (.loadPartitionBlock page part addr seq) s = execLoadPartitionBlock page part addr seq s := rfl
theorem exec_enable (page part ctx : Nat) (addr : Word) (seq : BitVec 32) (s : State) :
    exec (.enable page part ctx addr seq) s = execEnable page part ctx addr seq s := rfl
theorem exec_endContext (page part ctx : Nat) (seq : BitVec 32) (s : State) :
    exec (.endContext page part ctx seq) s = execEndContext page part ctx seq s := rfl
theorem exec_flushCrew (page part ctx crew : Nat) (seq : BitVec 32) (s : State) :
    exec (.flushCrew page part ctx crew seq) s = execFlushCrew page part ctx crew seq s := rfl
theorem exec_restartCrew (page part ctx crew : Nat) (seq : BitVec 32) (s : State) :
    exec (.restartCrew page part ctx crew seq) s = execRestartCrew page part ctx crew seq s := rfl
theorem exec_migrateOut (page part ctx : Nat) (seq : BitVec 32) (s : State) :
    exec (.migrateOut page part ctx seq) s = execMigrateOut page part ctx seq s := rfl
theorem exec_migrateIn (page part ctx : Nat) (addr : Word) (seq : BitVec 32) (s : State) :
    exec (.migrateIn page part ctx addr seq) s = execMigrateIn page part ctx addr seq s := rfl
theorem exec_slotBoundary (part : Nat) (s : State) : exec (.slotBoundary part) s = execSlotBoundary part s := rfl
theorem exec_partitionLoadEffect (part : Nat) (s : State) : exec (.partitionLoadEffect part) s = execPartitionLoadEffect part s := rfl
theorem exec_reclaim (part cid : Nat) (s : State) : exec (.reclaim part cid) s = execReclaim part cid s := rfl
theorem exec_lendReturn (part : Nat) (s : State) : exec (.lendReturn part) s = execLendReturn part s := rfl
theorem exec_contextEndComplete (ctx : Nat) (s : State) : exec (.contextEndComplete ctx) s = execContextEndComplete ctx s := rfl
theorem exec_migrateOutSaveFinished (ctx : Nat) (s : State) :
    exec (.migrateOutSaveFinished ctx) s = execMigrateOutSaveFinished ctx s := rfl
theorem exec_bentRetire (bent : Nat) (s : State) : exec (.bentRetire bent) s = execBentRetire bent s := rfl
theorem exec_courseRelocate (cid : Nat) (s : State) : exec (.courseRelocate cid) s = execCourseRelocate cid s := rfl

/-! ### Submitting or ending a command touches nothing that a context command reads -/

@[simp] theorem State.submitted_ctxs (s : State) (page off : Nat) (l : List (Option Nat)) : (s.submitted page off l).ctxs = s.ctxs := rfl
@[simp] theorem State.submitted_parts (s : State) (page off : Nat) (l : List (Option Nat)) : (s.submitted page off l).parts = s.parts := rfl
@[simp] theorem State.submitted_courses (s : State) (page off : Nat) (l : List (Option Nat)) :
    (s.submitted page off l).courses = s.courses := rfl
@[simp] theorem State.submitted_queues (s : State) (page off : Nat) (l : List (Option Nat)) :
    (s.submitted page off l).queues = s.queues := rfl
@[simp] theorem State.submitted_time (s : State) (page off : Nat) (l : List (Option Nat)) : (s.submitted page off l).time = s.time := rfl

@[simp] theorem State.endCmd_ctxs (s : State) (page off status : Nat) : (s.endCmd page off status).ctxs = s.ctxs := by
  unfold State.endCmd
  split <;> rfl

theorem State.partOf_eq {s : State} {ctx : Nat} {c : Context} (h : s.ctxs.find ctx = some c) : s.partOf ctx = c.part := by
  simp only [State.partOf, h]

/-- The state in which a context command is submitted through the block of its page. -/
abbrev State.ctxSub (s : State) (page part ctx : Nat) (seq : BitVec 32) (cmd crew : Nat) (addr : Option Nat) : State :=
  s.submitted page 0x1100 (cmdWords (ctxWord0 cmd part ctx crew) addr none seq)

/-! ### Loading a partition block -/

section
variable {s : State} {page part : Nat} {seq : BitVec 32} {addr : Word} (hpart : part < 16) (hacc : s.accepts page 0x1100 true part)
include hpart hacc

theorem loadPartitionBlock_unreadable (hb : (s.ctxSub page part 0 seq 1 0 (some addr.toNat)).hostBlock addr.toNat 16 = none) :
    exec (.loadPartitionBlock page part addr seq) s = .next ((s.ctxSub page part 0 seq 1 0 (some addr.toNat)).endCmd page 0x1100 2) := by
  rw [exec_loadPartitionBlock, execLoadPartitionBlock]
  simp only [Nat.mod_eq_of_lt hpart, command_conclude hacc, hb, State.conclude_refused]

variable {w : List Word} (hb : (s.ctxSub page part 0 seq 1 0 (some addr.toNat)).hostBlock addr.toNat 16 = some w)
include hb

theorem loadPartitionBlock_bad (hbad : blockBad part w = true) :
    exec (.loadPartitionBlock page part addr seq) s = .next ((s.ctxSub page part 0 seq 1 0 (some addr.toNat)).endCmd page 0x1100 2) := by
  rw [exec_loadPartitionBlock, execLoadPartitionBlock]
  simp only [Nat.mod_eq_of_lt hpart, command_conclude hacc, hb, hbad, Bool.true_or, if_true, State.conclude_refused]

/-- A good block that overlaps none of another partition's and takes nothing that a course holds is in force at once where the partition
had none, and waits for the next period where it had one. -/
theorem loadPartitionBlock_good (hgood : blockBad part w = false)
    (hheld : (s.ctxSub page part 0 seq 1 0 (some addr.toNat)).heldOutside part w = false)
    (hothers : ∀ p ∈ s.parts, p.1 ≠ part → (p.2.block = [] ∨ blocksOverlap w p.2.block = false) ∧ p.2.next = none) :
    let t := s.ctxSub page part 0 seq 1 0 (some addr.toNat)
    (s.parts.find part = none → exec (.loadPartitionBlock page part addr seq) s = .next ((t.setBlock part w).endCmd page 0x1100 1)) ∧
    (∀ p, s.parts.find part = some p → p.block ≠ [] → exec (.loadPartitionBlock page part addr seq) s =
      .next ({ t with parts := s.parts.put part { p with next := some (w, nextPeriod p.block s.time.ns) } }.endCmd page 0x1100 1)) := by
  intro t
  rw [exec_loadPartitionBlock, execLoadPartitionBlock]
  simp only [Nat.mod_eq_of_lt hpart, command_conclude hacc, hb, hgood, hheld, Bool.false_or, Bool.or_false]
  rw [if_neg]
  · refine ⟨fun hnone => ?_, fun p hp hne => ?_⟩
    · simp only [State.submitted_parts, hnone, State.conclude_done]
      rfl
    · simp only [State.submitted_parts, hp]
      rw [if_neg (by simpa using hne)]
      rfl
  · rw [Bool.not_eq_true]
    refine any_false fun b hmem => ?_
    obtain ⟨p, hp, hbp⟩ := List.mem_flatMap.1 hmem
    obtain ⟨hp, hne⟩ := List.mem_filter.1 hp
    obtain ⟨hover, hnext⟩ := hothers p hp (by simpa using hne)
    obtain rfl : b = p.2.block := by simpa [hnext] using hbp
    rcases hover with h | h <;> simp [h]

end

/-! ### Commands on a context that the partition gives -/

section
variable {s : State} {page part ctx : Nat} {seq : BitVec 32} (hpart : part < 16) (hctx : ctx < 2 ^ 16)
  (hacc : s.accepts page 0x1100 false part)
include hpart hctx hacc

theorem enable_refused {addr : Word} (h : (s.ctxSub page part ctx seq 2 0 (some addr.toNat)).enableCtx part ctx addr.toNat = none) :
    exec (.enable page part ctx addr seq) s = .next ((s.ctxSub page part ctx seq 2 0 (some addr.toNat)).endCmd page 0x1100 2) := by
  rw [exec_enable, execEnable]
  simp only [Nat.mod_eq_of_lt hpart, Nat.mod_eq_of_lt hctx, command_conclude hacc, h, State.conclude_refused]

theorem enable_done {addr : Word} {t : State} (h : (s.ctxSub page part ctx seq 2 0 (some addr.toNat)).enableCtx part ctx addr.toNat = some t) :
    exec (.enable page part ctx addr seq) s = .next (t.endCmd page 0x1100 1) := by
  rw [exec_enable, execEnable]
  simp only [Nat.mod_eq_of_lt hpart, Nat.mod_eq_of_lt hctx, command_conclude hacc, h, State.conclude_done]

theorem endContext_free (hc : s.ctxs.find ctx = none) :
    exec (.endContext page part ctx seq) s = .next ((s.ctxSub page part ctx seq 3 0 none).endCmd page 0x1100 2) := by
  rw [exec_endContext, execEndContext]
  simp only [Nat.mod_eq_of_lt hpart, Nat.mod_eq_of_lt hctx, command_conclude hacc, State.submitted_ctxs, hc, State.conclude_refused]

variable {c : Context} (hc : s.ctxs.find ctx = some c) (hown : c.part = part)
include hc hown

/-- END takes everything the context runs off the device, and a migration of it under way ends as refused first. -/
theorem endContext_done :
    let t := s.ctxSub page part ctx seq 3 0 none
    let u := if c.st = .migrating then t.endCmd 0 0x1100 2 else t
    exec (.endContext page part ctx seq) s =
      .next (({ u with ctxs := s.ctxs.put ctx { c with st := .ending } }.takeOff ctx false).endCmd page 0x1100 1) := by
  intro t u
  have hctxs : u.ctxs = s.ctxs := by
    show (if c.st = .migrating then t.endCmd 0 0x1100 2 else t).ctxs = s.ctxs
    split
    · exact State.endCmd_ctxs ..
    · rfl
  rw [← hctxs, exec_endContext, execEndContext]
  simp only [Nat.mod_eq_of_lt hpart, Nat.mod_eq_of_lt hctx, command_conclude hacc, State.submitted_ctxs, hc, hown, ne_eq,
    not_true_eq_false, if_false, State.conclude_done]
  rfl

theorem flushCrew_done {crew : Nat} (hcrew : crew < 2 ^ 16) :
    exec (.flushCrew page part ctx crew seq) s = .next (((s.courses.filter (fun c => c.2.memberOf ctx crew)).foldl
      (fun (s : State) c => s.flushCourse crew c.1 c.2) (s.ctxSub page part ctx seq 4 crew none)).endCmd page 0x1100 1) := by
  have hp : (s.ctxSub page part ctx seq 4 crew none).partOf ctx = part := hown ▸ State.partOf_eq hc
  rw [exec_flushCrew, execFlushCrew]
  simp only [Nat.mod_eq_of_lt hpart, Nat.mod_eq_of_lt hctx, Nat.mod_eq_of_lt hcrew, command_conclude hacc, State.submitted_ctxs,
    State.submitted_courses, hc, hp]
  rw [if_neg (by simp), State.conclude_done]

theorem restartCrew_done {crew : Nat} (hcrew : crew < 2 ^ 16) :
    exec (.restartCrew page part ctx crew seq) s = .next ({ s.ctxSub page part ctx seq 5 crew none with
      courses := s.courses.map (fun (c : Nat × Course) =>
        if c.2.ctx = ctx then (c.1, { c.2 with flushed := c.2.flushed.erase crew }) else c) }.endCmd page 0x1100 1) := by
  have hp : (s.ctxSub page part ctx seq 5 crew none).partOf ctx = part := hown ▸ State.partOf_eq hc
  rw [exec_restartCrew, execRestartCrew]
  simp only [Nat.mod_eq_of_lt hpart, Nat.mod_eq_of_lt hctx, Nat.mod_eq_of_lt hcrew, command_conclude hacc, State.submitted_ctxs,
    State.submitted_courses, hc, hp]
  rw [if_neg (by simp), State.conclude_done]

end

/-! ### Commands of the hypervisor on a context -/

section
variable {s : State} {page part ctx : Nat} {seq : BitVec 32} (hpart : part < 16) (hctx : ctx < 2 ^ 16)
  (hacc : s.accepts page 0x1100 true part)
include hpart hctx hacc

/-- MIGRATE_OUT is not answered yet: it stays pending until the context is saved. -/
theorem migrateOut_pending {c : Context} (hc : s.ctxs.find ctx = some c) (hown : c.part = part) (hst : c.st = .active ∨ c.st = .halted) :
    exec (.migrateOut page part ctx seq) s = .next ((((s.queues.filter (fun q => q.2.ctx == ctx)).map (·.1)).foldl State.queueStop
      { s.ctxSub page part ctx seq 6 0 none with ctxs := s.ctxs.put ctx { c with st := .migrating } }).unpark (fun o => o.2.ctx == ctx)) := by
  rw [exec_migrateOut, execMigrateOut]
  simp only [Nat.mod_eq_of_lt hpart, Nat.mod_eq_of_lt hctx, command_conclude hacc, State.submitted_ctxs, hc]
  rw [if_neg, State.conclude_later]
  · rfl
  · rcases hst with h | h <;> simp [hown, h]

theorem migrateIn_done {addr : Word} {t : State} {l : List Arrival}
    (ht : (s.ctxSub page part ctx seq 7 0 (some addr.toNat)).enableCtx part ctx addr.toNat = some t) (hl : t.recordCourses part ctx = some l) :
    let after := l.foldl (fun m e => max m (t.peekNat (e.pa + 0x1008) 8)) 0
    let u := (t.modCtx ctx (fun c => { c with after := after, barsOut := t.arriveBars ctx })).arriveSamplers part ctx
    exec (.migrateIn page part ctx addr seq) s = .next (((l.map (·.node)).eraseDups.foldl (fun (t : State) n =>
      t.arriveKernel part ctx n (l.filter (fun e => e.node == n))) u).endCmd page 0x1100 1) := by
  rw [exec_migrateIn, execMigrateIn]
  simp only [Nat.mod_eq_of_lt hpart, Nat.mod_eq_of_lt hctx, command_conclude hacc, ht, hl, State.conclude_done]

end

/-! ### Flushing a course -/

theorem flushCourse_again {crew cid : Nat} {c : Course} (h : c.flushed.contains crew = true) (t : State) : t.flushCourse crew cid c = t := by
  rw [State.flushCourse, if_pos h]

/-- The first flush of a course resets it: it goes back to its region, or its matrix entries are discarded (log entry 61). -/
theorem flushCourse_first {t : State} {cid : Nat} {c : Course} (hc : t.courses.find cid = some c) (hs : c.saved = false)
    (hf : c.flushed = []) (crew : Nat) :
    let u := t.setCourse cid { c with flushed := [crew] }
    t.flushCourse crew cid c = if c.regpc = noRegion then u.dropMats cid else u.restart cid := by
  intro u
  have hu : u.courses.find cid = some { c with flushed := [crew] } := Tab.find_put_same ..
  have hmod : t.modCourse cid (fun c => { c with flushed := c.flushed ++ [crew] }) = u := by
    simp only [State.modCourse, hc, hf]
    rfl
  rw [State.flushCourse, if_neg (by simp [hf]), hmod]
  dsimp only
  rw [if_neg (by simp [hf]), inRecord_here hu hs]
  simp only [hu]

/-! ### Slots, waiting blocks and lending -/

section
variable {s : State} {part : Nat} {p : Partition} (hup : s.up = true) (hp : s.parts.find part = some p)
include hp

theorem slotBoundary_same (h : slotAt p.block s.time.ns = p.slot) : exec (.slotBoundary part) s = .next s := by
  rw [exec_slotBoundary, execSlotBoundary]
  simp only [hp]
  rw [if_pos (by simp [h])]

theorem partitionLoadEffect_early {w : List Word} {due : Nat} (hn : p.next = some (w, due)) (hearly : s.time.ns < due) :
    exec (.partitionLoadEffect part) s = .next s := by
  rw [exec_partitionLoadEffect, execPartitionLoadEffect]
  simp only [hp, hn]
  rw [if_pos (by simp [hearly])]

include hup

theorem slotBoundary_applies (h : slotAt p.block s.time.ns ≠ p.slot) : exec (.slotBoundary part) s = .next (s.applySlot part) := by
  rw [exec_slotBoundary, execSlotBoundary]
  simp only [hp]
  rw [if_neg (by simp [hup, h])]

theorem partitionLoadEffect_due {w : List Word} {due : Nat} (hn : p.next = some (w, due)) (hdue : due ≤ s.time.ns) :
    exec (.partitionLoadEffect part) s = .next (s.setBlock part w) := by
  rw [exec_partitionLoadEffect, execPartitionLoadEffect]
  simp only [hp, hn]
  rw [if_neg (by simp [hup, hdue])]

/-- The need sets the moment of a reclaim. -/
theorem reclaim_dated {cid : Nat} {c : Course} (hc : s.courses.find cid = some c) (hneed : s.reclaimNeeded part cid c = true)
    (hr : p.reclaimAt = none) :
    exec (.reclaim part cid) s = .next { s with parts := s.parts.put part { p with reclaimAt := some (nextBoundary p.block s.time.ns) } } := by
  rw [exec_reclaim, execReclaim]
  simp only [hp, hc]
  rw [if_neg (by simp [hup, hneed])]
  simp only [hr]

theorem reclaim_due {cid : Nat} {c : Course} (hc : s.courses.find cid = some c) (hneed : s.reclaimNeeded part cid c = true)
    {due : Nat} (hr : p.reclaimAt = some due) (hdue : due ≤ s.time.ns) :
    let t := ((s.setCourse cid { c with reclaimed := some part }).crewHalt cid true).unpark (fun o => o.1 == cid)
    let p2 : Partition := { p with reclaimAt := none, returnAt := some (p.returnAt.getD (nextPeriod p.block t.time.ns)) }
    exec (.reclaim part cid) s = .next { t with
      parts := t.parts.put part p2
      courses := t.courses.map (fun (e : Nat × Course) =>
        if t.partOf e.2.ctx = part ∧ !e.2.borrowed then (e.1, { e.2 with reclaimed := none }) else e) } := by
  rw [exec_reclaim, execReclaim]
  simp only [hp, hc]
  rw [if_neg (by simp [hup, hneed])]
  simp only [hr]
  rw [if_neg (Nat.not_lt.2 hdue)]

theorem lendReturn_due {due : Nat} (hr : p.returnAt = some due) (hdue : due ≤ s.time.ns) :
    let back := s.courses.filter (fun e => e.2.borrowed && e.2.reclaimed == some part)
    let halts (e : Nat × Course) : Bool := s.partOf e.2.ctx == part && !e.2.borrowed && back.any (fun b => e.2.stands b.2)
    let swap (e : Nat × Course) : Nat × Course :=
      if back.any (fun b => b.1 == e.1) then (e.1, { e.2 with reclaimed := none })
      else if halts e then (e.1, { e.2 with reclaimed := some part }) else e
    exec (.lendReturn part) s =
      .next (State.unpark { s with parts := s.parts.put part { p with returnAt := none }, courses := s.courses.map swap } halts) := by
  rw [exec_lendReturn, execLendReturn]
  simp only [hp, hr]
  rw [if_neg (by simp [hup, hdue])]

end

/-! ### A context that leaves the device -/

theorem forgetCtx_find (s : State) (ctx : Nat) : (s.forgetCtx ctx).ctxs.find ctx = none := by
  rw [State.forgetCtx]
  dsimp only
  rw [Tab.find_del, if_pos rfl]

theorem contextEndComplete_forgets {s : State} {ctx : Nat} {c : Context} (hc : s.ctxs.find ctx = some c) (hst : c.st = .ending)
    (hcourses : ∀ e ∈ s.courses, e.2.ctx ≠ ctx) (hops : ∀ o ∈ s.ops, o.2.inCtx ctx = false) :
    exec (.contextEndComplete ctx) s =
      .next (((State.freeSlices 0 ctx (2 ^ 24) 0 ((State.freeArrays 0 ctx (2 ^ 20) 0 s).returnNodes 0 ctx)).endCrews ctx).forgetCtx ctx) := by
  have hnoCourse : s.courses.any (fun e => e.2.ctx == ctx) = false := any_false fun e he => by simpa using hcourses e he
  rw [exec_contextEndComplete, execContextEndComplete]
  simp only [hc]
  rw [if_neg (by rw [hnoCourse, any_false hops]; simp [hst])]

section
variable {s : State} {ctx : Nat} {c : Context} (hup : s.up = true) (hc : s.ctxs.find ctx = some c) (hst : c.st = .migrating)
  (hops : ∀ o ∈ s.ops, o.2.inCtx ctx = true → s.goesAlong o.1 o.2 = true)
  (hhalted : ∀ e ∈ s.courses, e.2.ctx = ctx → s.haltedCourse e.1 = true)
include hup hc hst hops hhalted

/-- Once the context is halted and what does not go with it has ended, its state is saved and it is FREE; where a page does not take the
state, the driver is told of its courses. -/
theorem migrateOutSaveFinished_atRest :
    exec (.migrateOutSaveFinished ctx) s = .next ((s.saveCtx ctx).elim
      ((s.courses.filter (fun e => e.2.ctx == ctx)).foldl (fun (s : State) e => s.tellSave e.1) s)
      fun t => ((t.takeOff ctx true).forgetCtx ctx).endCmd 0 0x1100 1) := by
  have hnoOp : s.ops.any (fun o => o.2.inCtx ctx && !s.goesAlong o.1 o.2) = false := any_false fun o ho => by
    cases hin : o.2.inCtx ctx
    · rfl
    · simp [hops o ho hin]
  have hnoRun : (s.courses.filter (fun e => e.2.ctx == ctx)).any (fun e => !s.haltedCourse e.1) = false := any_false fun e he => by
    obtain ⟨he, hectx⟩ := List.mem_filter.1 he
    simp [hhalted e he (by simpa using hectx)]
  rw [exec_migrateOutSaveFinished, execMigrateOutSaveFinished]
  simp only [hc]
  rw [if_neg (by rw [hnoOp, hnoRun]; simp [hup, hst])]
  cases s.saveCtx ctx <;> rfl

end

/-! ### Retired bents -/

theorem bentRetire_stops {s : State} {bent : Nat} (hon : s.bentOn bent = true) (hbent : bent < 48) :
    let t : State := { s with pkg := { s.pkg with bentEn := s.pkg.bentEn &&& ~~~(BitVec.ofNat 48 (2 ^ bent)), cfgGen := s.pkg.cfgGen + 1 } }
    exec (.bentRetire bent) s = .next (((s.courses.filter (fun c => bentOf c.2.core == bent && c.2.moved.isNone)).foldl
      (fun (s : State) c => (s.dropMats c.1).modCourse c.1 (fun c => { c with moved := some c.core })) t).unpark (fun c => c.2.moved.isSome)) := by
  rw [exec_bentRetire, execBentRetire, State.retireBent, if_neg (by simp [hon, hbent])]

theorem bentRetire_none {s : State} {bent : Nat} (h : 48 ≤ bent) : exec (.bentRetire bent) s = .next s := by
  rw [exec_bentRetire, execBentRetire, State.retireBent, if_pos (by simp [h])]

/-- A stopped course of a retired bent with its state in its record, where every page takes it. -/
def State.relocateOut (s : State) (cid : Nat) : Option State := (s.saveTiles cid).bind (fun s => s.saveCourse cid)

/-- A saved course of a retired bent restored at a place that it claims, where every page gives its state. -/
def State.relocateIn (s : State) (cid : Nat) (c : Course) (p : Spot) : Option State :=
  (s.claim p.core p.cslot p.base c.rows).bind (fun s => s.restoreMoved cid c p)

/-- A stopped course of a retired bent is saved, and then goes on where a place is found; the driver is told of what the pages refuse. -/
theorem courseRelocate_stopped {s : State} {cid old : Nat} {c : Course} (hup : s.up = true) (hc : s.courses.find cid = some c)
    (hm : c.moved = some old) (hrun : s.betweenRuns cid = true) (hops : ∀ o ∈ s.opsOf cid, s.heldArrival o.1 o.2 = true) :
    exec (.courseRelocate cid) s = .next (if c.saved then
        (s.findSpot (s.partOf c.ctx) c.ctx c.rows).elim s fun p =>
          (s.relocateIn cid c p).elim (s.tellSave cid) fun t => { t with lastBay := bayOf p.core }.movedOn cid old
      else (s.relocateOut cid).elim (s.tellSave cid) id) := by
  have hnoOp : (s.opsOf cid).any (fun o => !s.heldArrival o.1 o.2) = false := any_false fun o ho => by simp [hops o ho]
  rw [exec_courseRelocate, execCourseRelocate]
  simp only [hc, hm]
  rw [if_neg (by rw [hnoOp]; simp [hup, hrun]), ← State.relocateOut]
  cases c.saved
  case false => cases s.relocateOut cid <;> rfl
  case true =>
    cases s.findSpot (s.partOf c.ctx) c.ctx c.rows with
    | none => rfl
    | some p =>
      have hin : (s.claim p.core p.cslot p.base c.rows).bind (fun s => s.restoreMoved cid c p) = s.relocateIn cid c p := rfl
      simp only [hin, Option.elim_some]
      cases s.relocateIn cid c p <;> rfl

/-! ### The statement -/

/-- Settles O52: a command's clauses from how the command ends, the others from the rule of their event. -/
theorem contextCommands : Obligations.ContextCommands := by
  unfold Obligations.ContextCommands
  refine ⟨?commands, ?time, ?leaves, fun s bent hon hbent => ⟨bentRetire_stops hon hbent, bentRetire_none (Nat.le_refl 48)⟩, ?relocate⟩
  case commands =>
    intro s page part ctx seq hpart hctx sub
    refine ⟨fun addr hacc => loadPartitionBlock_unreadable hpart hacc, ?load, ?enable, ?own,
      fun hacc => endContext_free hpart hctx hacc, fun c hacc => migrateOut_pending hpart hctx hacc,
      fun addr t l hacc => migrateIn_done hpart hctx hacc, ?flushed⟩
    case load =>
      intro addr w hacc t hb
      exact ⟨loadPartitionBlock_bad hpart hacc hb, loadPartitionBlock_good hpart hacc hb⟩
    case enable =>
      intro addr hacc
      exact ⟨enable_refused hpart hctx hacc, fun t => enable_done hpart hctx hacc⟩
    case own =>
      intro c hacc hc hown
      have hend := endContext_done (seq := seq) hpart hctx hacc hc hown
      refine ⟨fun hst => ?_, fun hst => ?_, fun crew => flushCrew_done hpart hctx hacc hc hown,
        fun crew => restartCrew_done hpart hctx hacc hc hown⟩
      · rw [hend, if_neg hst]
      · rw [hend, if_pos hst]
    case flushed =>
      intro crew cid c t hc hs
      exact ⟨fun h => flushCourse_again h t, fun hf => flushCourse_first hc hs hf crew⟩
  case time =>
    intro s part p hup hp
    refine ⟨slotBoundary_applies hup hp, slotBoundary_same hp, fun w due => partitionLoadEffect_due hup hp,
      fun w due => partitionLoadEffect_early hp, fun cid c hc hneed => ?_, fun due => lendReturn_due hup hp⟩
    exact ⟨reclaim_dated hup hp hc hneed, fun due => reclaim_due hup hp hc hneed⟩
  case leaves =>
    intro s ctx c hc
    refine ⟨contextEndComplete_forgets hc, fun hup hst hops hhalted => ?_, forgetCtx_find s ctx⟩
    have hrest := migrateOutSaveFinished_atRest hup hc hst hops hhalted
    refine ⟨fun t ht => ?_, fun hnone => ?_⟩
    · rw [hrest, ht]
      rfl
    · rw [hrest, hnone]
      rfl
  case relocate =>
    intro s cid old c hup hc hm hrun hops out
    have hmove := courseRelocate_stopped hup hc hm hrun hops
    refine ⟨fun t hs hout => ?_, fun hs hout => ?_, fun p hs hspot => ⟨fun t hin => ?_, fun hin => ?_⟩⟩
    · rw [hmove, hs, show s.relocateOut cid = some t from hout]
      rfl
    · rw [hmove, hs, show s.relocateOut cid = none from hout]
      rfl
    · rw [hmove, hs, hspot, if_pos rfl, Option.elim_some, show s.relocateIn cid c p = some t from hin]
      rfl
    · rw [hmove, hs, hspot, if_pos rfl, Option.elim_some, show s.relocateIn cid c p = none from hin]
      rfl

end Sys2Proof.Machine

/-! PROOFS. The exact accumulator of R27 and R98: O17. -/

namespace Sys2Proof.Machine

/-- A value in the signed range of a width survives being written into that width. -/
theorem toInt_ofInt_of_inRange {w : Nat} {x : Int} (hlo : 0 ≤ x + 2 ^ w) (hhi : x < 2 ^ w) :
    (BitVec.ofInt (w + 1) x).toInt = x := by
  rw [BitVec.toInt_ofInt]
  apply Int.bmod_eq_of_le_mul_two
  · push_cast [pow_succ]; linarith
  · push_cast [pow_succ]; linarith

/-- No finite value has a bit below 2^-1074, the unit of the accumulator (R27). -/
theorem Fmt.decode_exp_ge {f : Fmt} {n m : Nat} {neg : Bool} {e : Int} (h : f.decode n = .fin neg m e) :
    0 ≤ e + 1074 := by
  have hunit : 0 ≤ 1 - (f.bias : Int) - (f.fbits : Int) + 1074 := by cases f <;> decide
  unfold Fmt.decode at h
  dsimp only at h
  split at h
  · split at h <;> cases h
  · split at h
    · cases h
    · split at h
      · cases h; exact hunit
      · cases h; omega

/-- The addend of a finite value in units of 2^-1074. -/
theorem signedMan_shiftI (neg : Bool) (m : Nat) {k : Int} (hk : 0 ≤ k) :
    signedMan neg (shiftI m k) = (if neg then -1 else 1) * m * 2 ^ k.toNat := by
  cases neg <;> simp [signedMan, shiftI, hk, Nat.shiftLeft_eq]

/-- A value in the signed range of a width passes the overflow test of that width. -/
theorem not_overflows_of_inRange {w : Nat} {x : Int} (hlo : 0 ≤ x + 2 ^ w) (hhi : x < 2 ^ w) :
    ¬ (x < -((2 ^ w : Nat) : Int) ∨ ((2 ^ w : Nat) : Int) ≤ x) := by
  push_cast
  rw [not_or]
  exact ⟨by linarith, by linarith⟩

/-- Settles O17: the sum in range is what the 2176-bit write keeps, and the overflow bit is not set. -/
theorem kulischAddIsExact : Obligations.KulischAddIsExact := by
  unfold Obligations.KulischAddIsExact
  intro f n k neg m e hdec v hlo hhi
  have hv : signedMan neg (shiftI m (e + 1074)) = v := signedMan_shiftI neg m (Fmt.decode_exp_ge hdec)
  rw [hdec, Kul.add, hv]
  dsimp only
  rw [if_neg (not_overflows_of_inRange hlo hhi)]
  exact ⟨toInt_ofInt_of_inRange (w := 2175) hlo hhi, rfl⟩

end Sys2Proof.Machine

/-! PROOFS. Stored bytes, park, fences and the access queue: O28. -/

namespace Sys2Proof.Machine

/-! ### Stored bytes -/

/-- Without retired frames a byte stands at its own address (R150). -/
theorem State.cell_of_noFrames {s : State} (h : s.pkg.frameMap = []) (pa : Nat) : s.cell pa = pa := by
  unfold State.cell
  rw [h]
  split <;> rfl

/-- A store of one byte writes the one cell of its address (R150). -/
theorem State.store_byte (s : State) (pa : Nat) (b : Byte) : s.store pa [b] = memWrite s.mem (s.cell pa) [b] := by
  unfold State.store
  split
  · rw [State.cell_of_noFrames (List.isEmpty_iff.mp ‹_›)]
  · rfl

/-- Without retired frames a store writes its bytes at their own addresses. -/
theorem State.store_of_noFrames {s : State} (h : s.pkg.frameMap = []) (pa : Nat) (l : List Byte) :
    s.store pa l = memWrite s.mem pa l := by
  unfold State.store
  rw [h]
  rfl

theorem poke_byte (s : State) (pa : Nat) (b : Byte) :
    memByte (s.poke pa [b]).mem (s.cell pa) = b ∧ ∀ a, a ≠ s.cell pa → memByte (s.poke pa [b]).mem a = memByte s.mem a := by
  change memByte (s.store pa [b]) (s.cell pa) = b ∧ ∀ a, a ≠ s.cell pa → memByte (s.store pa [b]) a = memByte s.mem a
  rw [State.store_byte]
  refine ⟨memByte_write s.mem (s.cell pa) [b] 0 Nat.zero_lt_one, fun a ha => memByte_write_other _ _ _ _ ?_⟩
  rw [List.length_singleton]
  omega

theorem poke_bytes {s : State} (h : s.pkg.frameMap = []) (pa : Nat) (l : List Byte) :
    (∀ i, i < l.length → memByte (s.poke pa l).mem (pa + i) = l.getD i 0) ∧
      ∀ a, (a < pa ∨ pa + l.length ≤ a) → memByte (s.poke pa l).mem a = memByte s.mem a := by
  change (∀ i, i < l.length → memByte (s.store pa l) (pa + i) = l.getD i 0) ∧
    ∀ a, (a < pa ∨ pa + l.length ≤ a) → memByte (s.store pa l) a = memByte s.mem a
  rw [State.store_of_noFrames h]
  refine ⟨fun i hi => ?_, fun a ha => memByte_write_other _ _ _ _ ha⟩
  rw [memByte_write _ _ _ _ hi, List.getD_eq_getElem _ _ hi]

/-! ### park (R137) -/

/-- park of a word that is there, may be read and carries no mark: the path waits on it as long as it holds the expected value. -/
theorem park_reads {s : State} {env : Env} {x : Args} {a : Acc} (hr : Ready s env Enc.park x) (hact : env.acting x ≠ 0)
    (hchk : checkLanes x false 8 8 [64] env s.tick = .ok [a]) (habs : s.tick.absentLines [a] = []) (hpois : s.poison = [])
    (hacc : s.tick.accReady s.nextId env.cid
      { m := .ld, t := .n64, d := .zero, acq := false, rel := false, scope := .cw, lanes := env.acting x, so := a.kind == .so,
        array := none, todo := [a], got := [], whole := [], bad := none } a = true) :
    exec (.park x) s = .next (s.tick.complete env Enc.park x
      { wait := if s.peekNat a.pa 8 = (env.co.scalar x.d.num).toNat then .park a.va a.pa (s.tick.time.clk + 65536) false
                else .nothing }) := by
  have hmark : s.tick.poisonedAs a.ref a.pa 8 = none := poisonedAs_nil s.tick hpois _ _ _
  have hpeek : s.tick.peekNat a.pa 8 = s.peekNat a.pa 8 := rfl
  have hnext : s.tick.nextId = s.nextId := rfl
  change execPark x s = _
  refine issue_done hr ?_
  simp only [if_neg hact, hchk, habs, List.isEmpty_nil, Bool.not_true, Bool.false_eq_true, if_false, hnext, hacc, hmark, hpeek]
  split <;> rfl

theorem parkWake_hit {s : State} {cid p : Nat} {q : Path} {va pa limit : Nat} (hq : s.path cid p = some q)
    (hw : q.wait = .park va pa limit true) : exec (.parkWake cid p) s = .next (s.setPath cid p { q with wait := .nothing }) := by
  change execParkWake cid p s = _
  unfold execParkWake
  simp only [hq, hw]

theorem parkTimeout_due {s : State} {cid p : Nat} {q : Path} {va pa limit : Nat} {hit : Bool} (hq : s.path cid p = some q)
    (hw : q.wait = .park va pa limit hit) (hdue : limit ≤ s.time.clk) :
    exec (.parkTimeout cid p) s = .next (s.setPath cid p { q with wait := .nothing }) := by
  change execParkTimeout cid p s = _
  unfold execParkTimeout
  simp only [hq, hw, if_pos hdue]

/-! ### Fences (R145, R153, R159) -/

/-- A fence whose guard is true in some lane takes the next place in program order, with its scope and lanes. -/
theorem fence_takes_place {s : State} {env : Env} {e : Entry} {x : Args} {body : Env → State → Res} (k : FenceKind)
    (hr : Ready s env e x) (hact : env.acting x ≠ 0) (hb : body env s.tick = fenceOp k x env s.tick) :
    issue e x body s = .next ((((s.tick.setCourse env.cid { env.co with fences := env.co.fences ++
      [{ place := s.nextId, kind := k, scope := Mod.scopeOf x.m, lanes := env.acting x }] }).settle
        env.cid).clampSys env (Mod.scopeOf x.m)).complete env e x {}) := by
  have hc : s.tick.courses.find env.cid = some env.co := hr.course
  refine issue_done hr ?_
  rw [hb, fenceOp, if_neg hact, putFence, hc]
  rfl

/-! ### Entries of the range-lock table (R163) -/

/-- An operation other than fbind that waited for entries registers what it still has to. -/
theorem entryFree_registers {s : State} {op : Nat} {o : Op} (ho : s.ops.find op = some o) (hp : o.pend ≠ [])
    (hk : ∀ k, o.kind ≠ .fbind k) : exec (.rangeLockEntryFree op) s = .next (s.lockRanges op false []) := by
  change execRangeLockEntryFree op s = _
  unfold execRangeLockEntryFree
  have hne : o.pend.isEmpty = false := List.isEmpty_eq_false_iff.mpr hp
  simp only [ho, hne]
  cases hkind : o.kind with
  | fbind k => exact absurd hkind (hk k)
  | _ => rfl

/-- Settles O28: the parts are the lemmas above; what a tfence holds back is `queue_up`, for each instruction that accesses memory. -/
theorem storesAndOrder : Obligations.StoresAndOrder := by
  unfold Obligations.StoresAndOrder
  refine ⟨⟨poke_byte, fun s pa l h => poke_bytes h pa l⟩, ⟨?_, ?_, ?_⟩, ?_, ?_, ?_⟩
  · exact fun s env x a hr hact hchk habs hpois hacc => park_reads hr hact hchk habs hpois hacc
  · exact fun s cid p q va pa limit hq hw => parkWake_hit hq hw
  · exact fun s cid p q va pa limit hit hq hw hdue => parkTimeout_due hq hw hdue
  · simp only [List.forall_mem_cons]
    refine ⟨?_, ?_, ?_, ?_, ?_, List.forall_mem_nil _⟩ <;>
      exact fun s env x hr hact => fence_takes_place _ hr hact rfl
  · simp only [List.forall_mem_cons]
    refine ⟨?_, ?_, ?_, ?_, ?_, ?_, ?_, ?_, ?_, ?_, ?_, ?_, ?_, ?_, ?_, ?_, ?_, ?_, ?_, ?_, ?_, List.forall_mem_nil _⟩ <;>
      exact queue_up (fun _ _ => rfl) rfl
  · exact fun s op o ho hp hk => entryFree_registers ho hp hk

end Sys2Proof.Machine

/-!
PROOFS. Memory stays in its canonical form over every step: O3.

For each function of the model that yields a state, one lemma says that canonical memory stays canonical: `State.memOk.f`, used as `h.f` on a
hypothesis `h : s.memOk`, for an operation `State.f`, and `f_memOk` for any other function. Where a result need not carry a state, `OptHolds`,
`ExHolds`, `Res.memOk` and `answerOk` say it of the state it carries, if any. Memory itself is written by `State.poke` and a few bulk moves; every
other function leaves it alone (`State.memOk.frame`) or is made of functions whose lemmas stand before its own.
-/

namespace Sys2Proof.Machine

-- One theorem after the other: the hundreds of short proofs below would otherwise each ask for a thread with a stack of its own.
set_option Elab.async false

/-! ### What carries a state -/

/-- What an optional result holds, if it holds anything. -/
def OptHolds {α : Type} (P : α → Prop) : Option α → Prop
  | none => True
  | some a => P a

/-- What a result that may be a trap or another error holds, if it is none. -/
def ExHolds {ε α : Type} (P : α → Prop) : Except ε α → Prop
  | .error _ => True
  | .ok a => P a

/-- An instruction's result carries canonical memory. -/
def Res.memOk : Res → Prop
  | .done s _ | .refuse s _ | .stall s => s.memOk
  | .trap _ | .park _ | .later _ => True

/-- A step's outcome carries canonical memory. -/
def answerOk : Host.Outcome State Fault Refusal → Prop
  | .next s => s.memOk
  | .fault _ | .refused _ => True

/-- A command's end carries canonical memory. -/
def CmdEnd.memOk : CmdEnd → Prop
  | .done s | .later s => s.memOk
  | .refused => True

/-- What a path finds at its code address carries canonical memory. -/
def Found.memOk : Found → Prop
  | .stop s => s.memOk
  | .run _ | .bad _ => True

section
variable {ε α β γ : Type} {P : α → Prop} {Q : β → Prop}

theorem OptHolds.intro {a : α} (h : P a) : OptHolds P (some a) := h

theorem OptHolds.of {o : Option α} (h : OptHolds P o) {a : α} (e : o = some a) : P a := by
  subst e; exact h

theorem OptHolds.bind {o : Option α} {f : α → Option β} (h : OptHolds P o) (hf : ∀ a, P a → OptHolds Q (f a)) :
    OptHolds Q (o.bind f) := by
  cases o with
  | none => exact h
  | some a => exact hf a h

theorem OptHolds.bind_any {o : Option α} {f : α → Option β} (hf : ∀ a, OptHolds Q (f a)) : OptHolds Q (o.bind f) := by
  cases o with
  | none => trivial
  | some a => exact hf a

theorem OptHolds.map {o : Option α} {f : α → β} (h : OptHolds P o) (hf : ∀ a, P a → Q (f a)) : OptHolds Q (o.map f) := by
  cases o with
  | none => exact h
  | some a => exact hf a h

theorem OptHolds.map_any {o : Option α} {f : α → β} (hf : ∀ a, Q (f a)) : OptHolds Q (o.map f) := by
  cases o with
  | none => trivial
  | some a => exact hf a

theorem OptHolds.getD {o : Option α} {d : α} (h : OptHolds P o) (hd : P d) : P (o.getD d) := by
  cases o with
  | none => exact hd
  | some a => exact h

theorem OptHolds.ite {c : Prop} [Decidable c] {a b : Option α} (ha : OptHolds P a) (hb : OptHolds P b) :
    OptHolds P (if c then a else b) := by
  split
  · exact ha
  · exact hb

theorem OptHolds.foldlM {f : β → γ → Option β} {l : List γ} {b : β} (hb : Q b) (hf : ∀ b c, Q b → OptHolds Q (f b c)) :
    OptHolds Q (l.foldlM f b) := by
  induction l generalizing b with
  | nil => exact hb
  | cons c l ih => exact (hf b c hb).bind fun _ h => ih h

theorem ExHolds.intro {a : α} (h : P a) : ExHolds P (.ok a : Except ε α) := h

theorem ExHolds.of {x : Except ε α} (h : ExHolds P x) {a : α} (e : x = .ok a) : P a := by
  subst e; exact h

theorem ExHolds.bind {x : Except ε α} {f : α → Except ε β} (h : ExHolds P x) (hf : ∀ a, P a → ExHolds Q (f a)) :
    ExHolds Q (x >>= f) := by
  cases x with
  | error e => exact h
  | ok a => exact hf a h

theorem ExHolds.bind_any {x : Except ε α} {f : α → Except ε β} (hf : ∀ a, ExHolds Q (f a)) : ExHolds Q (x >>= f) := by
  cases x with
  | error e => trivial
  | ok a => exact hf a

theorem ExHolds.foldlM {f : β → γ → Except ε β} {l : List γ} {b : β} (hb : Q b) (hf : ∀ b c, Q b → ExHolds Q (f b c)) :
    ExHolds Q (l.foldlM f b) := by
  induction l generalizing b with
  | nil => exact hb
  | cons c l ih => exact (hf b c hb).bind fun _ h => ih h

end

section
variable {α β : Type} {s t : State}

/-- A state with the same memory. -/
theorem State.memOk.frame (h : s.memOk) (e : t.mem = s.mem := by rfl) : t.memOk := by
  unfold State.memOk
  rwa [e]

theorem State.memOk.foldl {f : State → α → State} {l : List α} (h : s.memOk) (hf : ∀ s a, s.memOk → (f s a).memOk) :
    (l.foldl f s).memOk :=
  List.foldlRecOn l f h fun s hs a _ => hf s a hs

theorem State.memOk.foldl_fst {f : State × β → α → State × β} {l : List α} {b : State × β} (h : b.1.memOk)
    (hf : ∀ b a, b.1.memOk → (f b a).1.memOk) : (l.foldl f b).1.memOk :=
  List.foldlRecOn (motive := fun b => b.1.memOk) l f h fun b hb a _ => hf b a hb

theorem State.memOk.of_fst {p : State × α} {a : α} (h : p.1.memOk) (e : p = (s, a)) : s.memOk := by
  subst e; exact h

/-- A store through the frame map keeps the form (R16, R150). -/
theorem State.memOk.poke {pa : Nat} {l : List Byte} (h : s.memOk) : (s.poke pa l).memOk := s.poke_wf pa l h

end

/-! ### Functions of Machine/Mem -/

theorem State.memOk.markPoison {s : State} {pa n : Nat} (hs : s.memOk) : (s.markPoison pa n).memOk := hs

theorem State.memOk.pokeNat {s : State} {pa n v : Nat} (hs : s.memOk) : (s.pokeNat pa n v).memOk := by
  unfold State.pokeNat
  exact hs.poke

theorem State.memOk.pokeFrom {s : State} {pa : Nat} {l : List Byte} {bad : Bool} (hs : s.memOk) : (s.pokeFrom pa l bad).memOk := by
  unfold State.pokeFrom
  split
  · exact hs.poke.markPoison
  · exact hs.poke

theorem State.memOk.setAbsent {s : State} {l : List Nat} (hs : s.memOk) : (s.setAbsent l).memOk := hs

theorem State.memOk.setPresent {s : State} {l : List Nat} (hs : s.memOk) : (s.setPresent l).memOk := hs

theorem State.memOk.register {s t : State} {lo hi op : Nat} {w bind : Bool} {cid : Option Nat} (hs : s.memOk)
    (e : s.register lo hi w op cid bind = some t) : t.memOk := by
  unfold State.register at e
  split at e
  · cases e
  cases e
  exact hs.frame

/-- The equation of the recursion. `rfl` on the folded function would run the search for a free entry over the whole table, so
`register` is made opaque first. -/
theorem State.registerAll_cons (s : State) (op : Nat) (cid : Option Nat) (bind : Bool) (lo hi : Nat) (w : Bool)
    (l : List (Nat × Nat × Bool)) :
    s.registerAll op cid bind ((lo, hi, w) :: l) =
      match s.register lo hi w op cid bind with
      | some t => t.registerAll op cid bind l
      | none => (s, (lo, hi, w) :: l) := by
  delta State.registerAll State.registerAll._f
  generalize State.register = reg
  rfl

theorem State.memOk.registerAll {s : State} {op : Nat} {cid : Option Nat} {bind : Bool} {l : List (Nat × Nat × Bool)} (hs : s.memOk) :
    (s.registerAll op cid bind l).1.memOk := by
  induction l generalizing s with
  | nil => exact hs
  | cons r l ih =>
    obtain ⟨lo, hi, w⟩ := r
    rw [State.registerAll_cons]
    split
    next t he => exact ih (hs.register he)
    next => exact hs

theorem State.memOk.unlock {s : State} {op : Nat} (hs : s.memOk) : (s.unlock op).memOk := hs

theorem State.memOk.pokeAll {s : State} {l : List (Nat × Nat)} {bs : List Byte} {bad : Bool} (hs : s.memOk) :
    (s.pokeAll l bs bad).memOk := by
  unfold State.pokeAll
  refine hs.foldl_fst fun a b h => ?_
  dsimp only
  exact h.pokeFrom

theorem State.memOk.clearWhole {s : State} {l : List (Nat × Nat)} (hs : s.memOk) : (s.clearWhole l).memOk := hs

theorem State.memOk.writeMarked {s : State} {l : List (Nat × Nat)} {d : List Byte × List Bool} (hs : s.memOk) :
    (s.writeMarked l d).memOk := by
  unfold State.writeMarked
  split
  · refine hs.clearWhole.pokeAll.foldl fun t a h => ?_
    split
    · exact h.markPoison
    · exact h
  · exact hs.clearWhole.pokeAll

/-! ### Functions of Machine/Ops -/

theorem State.memOk.tick {s : State} (hs : s.memOk) : s.tick.memOk := hs

theorem State.memOk.freeWord {s : State} (hs : s.memOk) : s.freeWord.2.memOk := hs

theorem State.memOk.setCourse {s : State} {cid : Nat} {c : Course} (hs : s.memOk) : (s.setCourse cid c).memOk := hs

theorem State.memOk.modCourse {s : State} {cid : Nat} {f : Course → Course} (hs : s.memOk) : (s.modCourse cid f).memOk := by
  unfold State.modCourse
  split
  · exact hs.setCourse
  · exact hs

theorem State.memOk.setPath {s : State} {cid p : Nat} {q : Path} (hs : s.memOk) : (s.setPath cid p q).memOk := by
  unfold State.setPath
  split
  · exact hs.setCourse
  · exact hs

theorem State.memOk.dropPath {s : State} {cid p : Nat} (hs : s.memOk) : (s.dropPath cid p).memOk := by
  unfold State.dropPath
  split
  · exact hs.setCourse
  · exact hs

theorem State.memOk.setScalar {s : State} {cid n : Nat} {v : Word} (hs : s.memOk) : (s.setScalar cid n v).memOk := by
  unfold State.setScalar
  split
  · exact hs.setCourse
  · exact hs

theorem State.memOk.setPred {s : State} {cid n : Nat} {lanes v : LaneMask} (hs : s.memOk) : (s.setPred cid n lanes v).memOk := by
  unfold State.setPred
  split
  · exact hs.setCourse
  · exact hs

theorem State.memOk.putRow {s : State} {key : Nat} {vals : List (Nat × Nat)} (hs : s.memOk) : (s.putRow key vals).memOk := hs

theorem State.memOk.putVec {s : State} {c : Course} {lwb r : Nat} {wide : Bool} {vals : List (Nat × Nat)} (hs : s.memOk) :
    (s.putVec c lwb r wide vals).memOk := by
  unfold State.putVec
  split
  · exact hs.putRow.putRow
  · exact hs.putRow

theorem State.memOk.privWrite {s : State} {c : Course} {off n v : Nat} (hs : s.memOk) : ExHolds State.memOk (s.privWrite c off n v) := by
  unfold State.privWrite
  exact ExHolds.bind_any fun _ => hs.pokeNat

theorem State.memOk.privTry {s : State} {c : Course} {off n v : Nat} (hs : s.memOk) : (s.privTry c off n v).memOk := by
  unfold State.privTry
  split
  · exact hs.pokeNat
  · exact hs

theorem State.memOk.putWords {s : State} {pa : Nat} {l : List (Nat × Nat × Nat)} (hs : s.memOk) : (s.putWords pa l).memOk := by
  unfold State.putWords
  exact hs.foldl fun _ _ h => h.pokeNat

theorem State.memOk.saveHead {s : State} {c : Course} (hs : s.memOk) : OptHolds State.memOk (s.saveHead c) := by
  unfold State.saveHead
  exact OptHolds.map_any fun _ => hs.putWords

theorem State.memOk.recWrite {s : State} {c : Course} {p : Nat} {l : List (Nat × Nat)} (hs : s.memOk) : (s.recWrite c p l).memOk := by
  unfold State.recWrite
  exact hs.foldl fun _ _ h => h.privTry

theorem State.memOk.flushList {s : State} {part : Nat} {l : List Notice} {p : Partition} (hs : s.memOk) :
    (State.flushList part l s p).1.memOk := by
  induction l generalizing s p with
  | nil => exact hs
  | cons n l ih =>
    unfold State.flushList
    split
    · exact hs
    · exact ih hs.poke

theorem State.memOk.flushNotices {s : State} {part : Nat} (hs : s.memOk) : (s.flushNotices part).memOk := by
  unfold State.flushNotices
  split
  · exact hs
  · exact hs.flushList.frame

theorem State.memOk.notify {s : State} {part : Nat} {n : Notice} (hs : s.memOk) : (s.notify part n).memOk := by
  unfold State.notify
  split
  · exact hs
  · exact hs.frame.flushNotices

theorem State.memOk.leaveSlot {s : State} {k : Nat} (hs : s.memOk) : (s.leaveSlot k).memOk := hs

theorem State.memOk.endRun {s : State} {slot cid p : Nat} (hs : s.memOk) : (s.endRun slot cid p).memOk := by
  unfold State.endRun
  dsimp only
  split
  · exact hs.leaveSlot.setCourse
  · exact hs.leaveSlot

theorem State.memOk.lowerSaved {s : State} {c : Course} {f : Option (BitVec 4)} (hs : s.memOk) : (s.lowerSaved c f).memOk := by
  unfold State.lowerSaved
  split
  · exact hs
  split
  · exact hs
  split
  · exact hs
  dsimp only
  split
  · exact hs
  · exact hs.pokeNat

theorem State.memOk.finishOp {s : State} {id : Nat} (hs : s.memOk) : (s.finishOp id).memOk := by
  unfold State.finishOp
  split
  · exact hs
  split
  · dsimp only
    split
    · exact hs.frame.setCourse.lowerSaved
    · exact hs.frame
  · exact hs.frame

theorem State.memOk.dropBent {s : State} {id : Nat} (hs : s.memOk) : (s.dropBent id).memOk := hs

theorem State.memOk.drainTiles {s : State} {cid : Nat} (hs : s.memOk) : (s.drainTiles cid).memOk := by
  unfold State.drainTiles
  split
  · exact hs
  · exact hs.frame

theorem State.memOk.abandon {s : State} {cid tile : Nat} (hs : s.memOk) : (s.abandon cid tile).memOk := by
  unfold State.abandon
  split
  · exact hs
  split
  · dsimp only
    split
    · split
      · exact hs.frame
      · exact hs
    · exact hs
  dsimp only
  split
  · split
    · exact hs.frame
    · exact hs
  split
  · exact hs.pokeNat
  · exact hs

theorem State.memOk.dropMats {s : State} {cid : Nat} (hs : s.memOk) : (s.dropMats cid).memOk := by
  unfold State.dropMats
  extract_lets l t
  have ht : t.memOk := hs.foldl fun u o h => by
    refine (State.memOk.unlock ?_).finishOp
    split
    · split
      · exact h.dropBent.abandon
      · exact h.dropBent
    · exact h.dropBent
  split
  · exact ht.setCourse.drainTiles
  · exact ht

theorem State.memOk.restart {s : State} {cid : Nat} (hs : s.memOk) : (s.restart cid).memOk := by
  unfold State.restart
  dsimp only
  split
  · exact hs.dropMats.setCourse
  · exact hs.dropMats

theorem State.memOk.enterShim {s : State} {cid p : Nat} {t : Trap} (hs : s.memOk) : (s.enterShim cid p t).memOk := by
  unfold State.enterShim
  split
  · dsimp only
    split
    · exact hs.recWrite
    split
    · exact hs.recWrite
    · exact hs.recWrite.setCourse
  dsimp only
  split
  · exact hs
  split
  · exact hs
  · exact hs.setCourse

theorem State.memOk.stopForDriver {s : State} {cid p : Nat} {t : Trap} (hs : s.memOk) : (s.stopForDriver cid p t).memOk := by
  unfold State.stopForDriver
  split
  · exact hs
  split
  · exact hs
  refine (State.memOk.setPath ?_).notify
  split
  · exact hs.saveHead.getD hs
  · exact hs

theorem State.memOk.deliver {s : State} {cid p : Nat} {t : Trap} {ovl idx : Nat} {defer : Bool} (hs : s.memOk) :
    (s.deliver cid p t ovl idx defer).memOk := by
  unfold State.deliver
  split
  · exact hs
  split
  · exact hs
  split
  · exact hs.recWrite.stopForDriver
  split
  · exact hs.restart
  dsimp only
  split
  · exact hs.recWrite.enterShim
  · exact hs.recWrite.stopForDriver

theorem State.memOk.trapHere {s : State} {e : Env} {t : Trap} (hs : s.memOk) : (s.trapHere e t).memOk := by
  unfold State.trapHere
  split
  · exact hs.leaveSlot.deliver.modCourse
  · exact hs.leaveSlot.deliver

theorem State.memOk.leaveShim {s : State} {cid p : Nat} {after : Bool} (hs : s.memOk) : (s.leaveShim cid p after).memOk := by
  unfold State.leaveShim
  split
  · exact hs
  split
  · exact hs
  split
  · exact hs
  · exact hs.setCourse

/-! ### Functions of Machine/Operands -/

theorem State.memOk.putDst {s : State} {cid lwb : Nat} {t : Ty} {d : Opnd} {vals : List (Nat × Nat)} (hs : s.memOk) :
    (s.putDst cid lwb t d vals).memOk := by
  unfold State.putDst
  split
  · exact hs
  split
  · exact hs.putVec
  · split
    · exact hs
    · exact hs.setCourse
  · exact hs

theorem State.memOk.put {s : State} {e : Env} {t : Ty} {d : Opnd} {vals : List (Nat × Nat)} (hs : s.memOk) : (s.put e t d vals).memOk := by
  unfold State.put
  exact hs.putDst

theorem State.memOk.putScalar {s : State} {e : Env} {d : Opnd} {v : Nat} (hs : s.memOk) : (s.putScalar e d v).memOk := by
  unfold State.putScalar
  exact hs.setScalar

/-! ### Functions of Machine/Flags -/

theorem State.memOk.stick {s : State} {cid : Nat} {b : BitVec 64} (hs : s.memOk) : (s.stick cid b).memOk := by
  unfold State.stick
  split
  · exact hs.setCourse
  · exact hs

theorem State.memOk.stickZ {s : State} {cid : Nat} {contributors : LaneMask} (hs : s.memOk) : (s.stickZ cid contributors).memOk := by
  unfold State.stickZ
  split
  · exact hs.stick
  · exact hs

theorem State.memOk.putFlagPair {s : State} {e : Env} {pn : Nat} {lanes members : LaneMask} {nonempty exited : Bool} (hs : s.memOk) :
    (s.putFlagPair e pn lanes members nonempty exited).memOk := by
  unfold State.putFlagPair
  split
  · exact hs
  · exact hs.setPred.setPred

/-! ### Functions of Machine/Issue -/

theorem State.memOk.stamp {s : State} {env : Env} (hs : s.memOk) : (s.stamp env).memOk := hs

theorem State.memOk.complete {s : State} {env : Env} {e : Entry} {x : Args} {a : Adv} (hs : s.memOk) : (s.complete env e x a).memOk := by
  unfold State.complete
  split
  · exact hs.leaveSlot
  split
  · dsimp only
    split
    · exact hs.setCourse.stamp.endRun
    · exact hs.setCourse.stamp
  dsimp only
  split
  · exact hs.setCourse.stamp.endRun
  · exact hs.setCourse.stamp

theorem State.memOk.queueSilent {s : State} {env : Env} {e : Entry} {x : Args} (hs : s.memOk) : (s.queueSilent env e x).memOk := hs

theorem State.memOk.behind {s : State} {env : Env} {e : Entry} {x : Args} {r : Res} (hs : s.memOk) (hr : r.memOk) :
    (s.behind env e x r).memOk := by
  unfold State.behind
  split
  · split
    · split
      · exact hs.frame.complete
      · exact hs.trapHere
    · exact hs.frame.complete
  split
  · split
    · exact hs.leaveSlot.setPath
    · exact hs.trapHere
  · exact hs.leaveSlot.setPath

theorem issue_memOk {s : State} {e : Entry} {x : Args} {body : Env → State → Res} (hs : s.memOk)
    (hbody : ∀ env t, t.memOk → (body env t).memOk) : answerOk (issue e x body s) := by
  unfold issue
  split
  · trivial
  next env _ =>
    have hb := hbody env s.tick hs.tick
    dsimp only
    split
    · exact hs.tick.trapHere
    split
    · exact hs.tick.behind hb
    split <;> rename_i he <;> rw [he] at hb
    · exact hb.complete
    · exact hs.tick.trapHere
    · exact hb.trapHere
    · exact hb.frame
    · exact hs.tick.leaveSlot.setPath
    · exact hs.tick.leaveSlot.setPath

theorem State.memOk.addOp {s : State} {env : Env} {x : Args} {k : OpKind} (hs : s.memOk) : (s.addOp env x k).memOk := hs

theorem State.memOk.addSilent {s : State} {env : Env} {k : OpKind} (hs : s.memOk) : (s.addSilent env k).memOk := hs

theorem State.memOk.offer {s : State} {env : Env} {x : Args} {k : OpKind} (hs : s.memOk) : (s.offer env x k).memOk := by
  unfold State.offer
  exact hs.addOp.setPath

theorem State.memOk.withdraw {s : State} {env : Env} {id : Nat} (hs : s.memOk) : (s.withdraw env id).memOk := by
  unfold State.withdraw
  exact hs.frame.setPath

theorem State.memOk.setOp {s : State} {id : Nat} {k : OpKind} (hs : s.memOk) : (s.setOp id k).memOk := by
  unfold State.setOp
  split
  · exact hs.frame
  · exact hs

theorem State.memOk.lateTrap {s : State} {op : Nat} {o : Op} {t : Trap} (hs : s.memOk) : (s.lateTrap op o t).memOk := by
  unfold State.lateTrap
  split
  · exact hs
  split
  · exact hs.setPath
  · exact hs

/-! ### Functions of Machine/Int -/

theorem laneOp_memOk {x : Args} {ta tb td : Ty} {f : Nat → Nat → Nat → Nat} {env : Env} {s : State} (hs : s.memOk) :
    (laneOp x ta tb td f env s).memOk := by
  unfold laneOp
  exact hs.put

theorem patOp_memOk {x : Args} {f : Nat → Nat → Nat → Nat → Nat} {a2 : Env} {a3 : State} (hs : a3.memOk) : (patOp x f a2 a3).memOk := by
  unfold patOp
  exact laneOp_memOk hs

theorem intOp_memOk {x : Args} {f : Int → Int → Int} {a2 : Env} {a3 : State} (hs : a3.memOk) : (intOp x f a2 a3).memOk := by
  unfold intOp
  exact patOp_memOk hs

theorem execSel_memOk {x : Args} {s : State} (hs : s.memOk) : answerOk (execSel x s) := by
  unfold execSel
  exact issue_memOk hs fun _ _ h => h.put

/-! ### Functions of Machine/Float -/

theorem fltOp_memOk {x : Args} {f : Fmt → Rnd → FVal → FVal → FVal → FVal} {a2 : Env} {a3 : State} (hs : a3.memOk) :
    (fltOp x f a2 a3).memOk := by
  unfold fltOp
  exact patOp_memOk hs

theorem execCvt_memOk {x : Args} {s : State} (hs : s.memOk) : answerOk (execCvt x s) := by
  unfold execCvt
  exact issue_memOk hs fun _ _ h => h.put

/-! ### Functions of Machine/Cross -/

theorem predOp_memOk {x : Args} {f : Env → State → Nat → Bool} {env : Env} {s : State} (hs : s.memOk) : (predOp x f env s).memOk := by
  unfold predOp
  exact hs.setPred

theorem setpOp_memOk {x : Args} {c : Cond} {a2 : Env} {a3 : State} (hs : a3.memOk) : (setpOp x c a2 a3).memOk := by
  unfold setpOp
  exact predOp_memOk hs

theorem maskOp_memOk {x : Args} {f : LaneMask → LaneMask → LaneMask} {env : Env} {s : State} (hs : s.memOk) : (maskOp x f env s).memOk := by
  unfold maskOp
  exact hs.setPred

theorem execPmov_memOk {x : Args} {s : State} (hs : s.memOk) : answerOk (execPmov x s) := by
  unfold execPmov
  exact issue_memOk hs fun _ _ h => h.setPred

theorem voteOp_memOk {x : Args} {f : LaneMask → LaneMask → Bool} {env : Env} {s : State} (hs : s.memOk) : (voteOp x f env s).memOk := by
  unfold voteOp
  exact hs.setPred

theorem execBallot_memOk {x : Args} {s : State} (hs : s.memOk) : answerOk (execBallot x s) := by
  unfold execBallot
  refine issue_memOk hs fun env t h => ?_
  dsimp only
  split
  · exact h
  · exact h.putScalar

theorem execPerm_memOk {x : Args} {s : State} (hs : s.memOk) : answerOk (execPerm x s) := by
  unfold execPerm
  exact issue_memOk hs fun _ _ h => h.put

theorem redOp_memOk {x : Args} {tree : (Nat → Nat → Nat) → List Nat → List Nat} {env : Env} {s : State} (hs : s.memOk) :
    (redOp x tree env s).memOk := by
  unfold redOp
  exact hs.put.putFlagPair.stickZ

theorem State.memOk.setKul {s : State} {cid : Nat} {k : Kul} (hs : s.memOk) : (s.setKul cid k).memOk := by
  unfold State.setKul
  split
  · exact hs.setCourse
  · exact hs

theorem execKclr_memOk {x : Args} {s : State} (hs : s.memOk) : answerOk (execKclr x s) := by
  unfold execKclr
  refine issue_memOk hs fun env t h => ?_
  split
  · exact h
  · exact h.setKul

theorem execKadd_memOk {x : Args} {s : State} (hs : s.memOk) : answerOk (execKadd x s) := by
  unfold execKadd
  exact issue_memOk hs fun _ _ h => h.setKul.stickZ

theorem execKmac_memOk {x : Args} {s : State} (hs : s.memOk) : answerOk (execKmac x s) := by
  unfold execKmac
  exact issue_memOk hs fun _ _ h => h.setKul.stickZ

theorem execKscan_memOk {x : Args} {s : State} (hs : s.memOk) : answerOk (execKscan x s) := by
  unfold execKscan
  exact issue_memOk hs fun _ _ h => h.put.setKul.stickZ

theorem execKrd_memOk {x : Args} {s : State} (hs : s.memOk) : answerOk (execKrd x s) := by
  unfold execKrd
  exact issue_memOk hs fun _ _ h => h.put

theorem execXred_memOk {x : Args} {s : State} (hs : s.memOk) : answerOk (execXred x s) := by
  unfold execXred
  exact issue_memOk hs fun _ _ h => h.stickZ.addOp

theorem execXget_memOk {x : Args} {s : State} (hs : s.memOk) : answerOk (execXget x s) := by
  unfold execXget
  refine issue_memOk hs fun env t h => ?_
  split <;> exact h

theorem execXput_memOk {x : Args} {s : State} (hs : s.memOk) : answerOk (execXput x s) := by
  unfold execXput
  refine issue_memOk hs fun env t h => ?_
  split
  · trivial
  · exact h.put

/-! ### Functions of Machine/Control -/

theorem State.memOk.setCtl {s : State} {e : Env} {t : Ctl} {d : Nat} {ent : List (Nat × LaneMask)} (hs : s.memOk) :
    (s.setCtl e t d ent).memOk := by
  unfold State.setCtl
  split
  · exact hs
  split
  · exact hs
  · exact hs.setCourse

theorem closeRegion_memOk {env : Env} {s : State} (hs : s.memOk) : (closeRegion env s).1.memOk := by
  unfold closeRegion
  dsimp only
  exact hs.setCtl

theorem execIfRegion_memOk {x : Args} {s : State} (hs : s.memOk) : answerOk (execIfRegion x s) := by
  unfold execIfRegion
  refine issue_memOk hs fun env t h => ?_
  split
  · trivial
  · exact h.setCtl

theorem execElseRegion_memOk {x : Args} {s : State} (hs : s.memOk) : answerOk (execElseRegion x s) := by
  unfold execElseRegion
  refine issue_memOk hs fun env t h => ?_
  split
  · trivial
  · exact h.setCtl

theorem execEndifRegion_memOk {x : Args} {s : State} (hs : s.memOk) : answerOk (execEndifRegion x s) := by
  unfold execEndifRegion
  refine issue_memOk hs fun env t h => ?_
  split
  · trivial
  · exact closeRegion_memOk h

theorem execLoopRegion_memOk {x : Args} {s : State} (hs : s.memOk) : answerOk (execLoopRegion x s) := by
  unfold execLoopRegion
  refine issue_memOk hs fun env t h => ?_
  split
  · trivial
  · exact h.setCtl

theorem execBreakRegion_memOk {x : Args} {s : State} (hs : s.memOk) : answerOk (execBreakRegion x s) := by
  unfold execBreakRegion
  refine issue_memOk hs fun env t h => ?_
  dsimp only
  split
  · trivial
  · exact h.setCtl

theorem execContRegion_memOk {x : Args} {s : State} (hs : s.memOk) : answerOk (execContRegion x s) := by
  unfold execContRegion
  refine issue_memOk hs fun env t h => ?_
  dsimp only
  split
  · trivial
  · exact h.setCtl

theorem transfer_memOk {s : State} {env : Env} {t : Nat × Nat} {k : Res} (hk : k.memOk) : (transfer s env t k).memOk := by
  unfold transfer
  split
  · exact hk
  · trivial
  · trivial

theorem execEndloopRegion_memOk {x : Args} {s : State} (hs : s.memOk) : answerOk (execEndloopRegion x s) := by
  unfold execEndloopRegion
  refine issue_memOk hs fun env t h => ?_
  split
  · refine transfer_memOk ?_
    split
    · trivial
    · exact h.setCtl
  split
  · trivial
  · exact closeRegion_memOk h

theorem branch_memOk {x : Args} {env : Env} {s : State} (hs : s.memOk) : (branch x env s).memOk := by
  unfold branch
  split
  · exact hs
  · exact transfer_memOk hs

theorem State.memOk.enterFrame {s : State} {c : Course} {k lwb : Nat} {f : Frame} {lanes : List Nat} (hs : s.memOk) :
    ExHolds State.memOk (s.enterFrame c k lwb f lanes) := by
  unfold State.enterFrame
  exact ExHolds.foldlM hs fun _ _ h => h.privWrite.bind fun _ ht => ht.privWrite

theorem State.memOk.putDepth {s : State} {c : Course} {k lwb : Nat} {lanes : List Nat} (hs : s.memOk) :
    ExHolds State.memOk (s.putDepth c k lwb lanes) := by
  unfold State.putDepth
  exact ExHolds.foldlM hs fun _ _ h => h.privWrite

theorem State.memOk.putEntry {s : State} {c : Course} {i : Nat} {e : PEntry} (hs : s.memOk) : (s.putEntry c i e).memOk := by
  unfold State.putEntry
  exact hs.privTry

theorem splitPath_memOk {s : State} {env : Env} {rest : LaneMask} {back : Nat × Nat} {l : List Group} (hs : s.memOk) :
    ExHolds State.memOk (splitPath s env rest back l) := by
  unfold splitPath
  split
  · exact hs
  · exact hs.privWrite.bind fun _ h => (ExHolds.foldlM h fun _ _ ht => ht.privWrite).bind fun _ ht => ht.modCourse

theorem State.memOk.arrive {s : State} {cid j : Nat} {lanes : LaneMask} (hs : s.memOk) : (s.arrive cid j lanes).memOk := by
  unfold State.arrive
  split
  · exact hs
  · exact hs.putEntry

theorem State.memOk.evenDepth {s : State} {c : Course} {q : Path} (hs : s.memOk) : (s.evenDepth c q).memOk := by
  unfold State.evenDepth
  exact hs.foldl fun _ _ h => h.privTry

theorem State.memOk.freeSlot {s : State} {fuel cid p : Nat} (hs : s.memOk) : (State.freeSlot fuel s cid p).memOk := by
  induction fuel generalizing s with
  | zero => exact hs.dropPath
  | succ fuel ih =>
    unfold State.freeSlot
    dsimp only
    split
    · exact hs.dropPath
    split
    · exact hs.dropPath.setCourse
    split
    · refine ih ?_
      split
      · exact hs.dropPath.putEntry.modCourse.arrive
      · exact hs.dropPath.putEntry.modCourse
    · exact hs.dropPath.putEntry.modCourse.evenDepth.modCourse

theorem State.memOk.endPath {s : State} {cid p : Nat} (hs : s.memOk) : (s.endPath cid p).memOk := by
  unfold State.endPath
  split
  · exact hs
  split
  · dsimp only
    split
    · split
      · exact hs.arrive.freeSlot.setCourse
      · exact hs.arrive.freeSlot
    · exact hs.arrive.freeSlot
  dsimp only
  split
  · split
    · exact hs.freeSlot.setCourse
    · exact hs.freeSlot
  · exact hs.freeSlot

theorem callTo_memOk {dst : Nat × Nat} {n : Nat} {env : Env} {s : State} (hs : s.memOk) : (callTo dst n env s).memOk := by
  unfold callTo
  refine transfer_memOk ?_
  split
  · trivial
  split
  · trivial
  dsimp only
  split
  · trivial
  · exact (hs.enterFrame.of ‹_›).setPath

theorem execCall_memOk {x : Args} {s : State} (hs : s.memOk) : answerOk (execCall x s) := by
  unfold execCall
  refine issue_memOk hs fun env t h => ?_
  split
  · exact h
  · exact callTo_memOk h

theorem callSplit_memOk {gs : List (Nat × LaneMask)} {n : Nat} {env : Env} {s : State} (hs : s.memOk) : (callSplit gs n env s).memOk := by
  unfold callSplit
  dsimp only
  split
  · trivial
  · trivial
  split
  · trivial
  split
  · trivial
  split
  · trivial
  · exact (hs.enterFrame.bind fun _ h => splitPath_memOk h).of ‹_›

theorem execCallv_memOk {x : Args} {s : State} (hs : s.memOk) : answerOk (execCallv x s) := by
  unfold execCallv
  refine issue_memOk hs fun env t h => ?_
  dsimp only
  split
  · exact h
  · split
    · trivial
    · exact callTo_memOk h
  · exact callSplit_memOk h

theorem State.memOk.exitEvents {s : State} {env : Env} {c : Course} {m : LaneMask} (hs : s.memOk) : (s.exitEvents env c m).memOk := by
  unfold State.exitEvents
  refine State.memOk.foldl ?_ ?_
  · split
    · exact hs
    · exact hs.addSilent
  intro t a h
  dsimp only
  split
  · exact h
  · exact h.addSilent

theorem exitLanes_memOk {m : LaneMask} {env : Env} {s : State} (hs : s.memOk) : (exitLanes m env s).memOk := by
  unfold exitLanes
  split
  · exact hs
  split
  · exact hs.setCourse.exitEvents.endPath
  · exact hs.setCourse.exitEvents

theorem retCall_memOk {r : Frame} {env : Env} {s : State} (hs : s.memOk) : (retCall r env s).memOk := by
  unfold retCall
  refine transfer_memOk ?_
  split
  · trivial
  split
  · trivial
  split
  · exact hs.putDepth.of ‹_›
  · exact (hs.putDepth.of ‹_›).setCourse

theorem retSplit_memOk {r : Frame} {env : Env} {s : State} (hs : s.memOk) : (retSplit r env s).memOk := by
  unfold retSplit
  dsimp only
  split
  · trivial
  split
  · exact hs.putDepth.of ‹_›
  · exact (hs.putDepth.of ‹_›).setCourse.endPath

theorem execRet_memOk {x : Args} {s : State} (hs : s.memOk) : answerOk (execRet x s) := by
  unfold execRet
  refine issue_memOk hs fun env t h => ?_
  extract_lets q l
  split
  · exact h
  split
  · trivial
  split
  · split
    · exact h
    · exact exitLanes_memOk h.setCourse
  split
  · exact retSplit_memOk h
  split
  · split
    · exact h
    · exact exitLanes_memOk h.setCourse
  · exact retCall_memOk h

theorem execPrio_memOk {x : Args} {s : State} (hs : s.memOk) : answerOk (execPrio x s) := by
  unfold execPrio
  refine issue_memOk hs fun env t h => ?_
  split
  · exact h
  · exact h.setPath

theorem execYield_memOk {x : Args} {s : State} (hs : s.memOk) : answerOk (execYield x s) := by
  unfold execYield
  refine issue_memOk hs fun env t h => ?_
  split
  · exact h.setPath
  · exact h

theorem execExit_memOk {x : Args} {s : State} (hs : s.memOk) : answerOk (execExit x s) := by
  unfold execExit
  refine issue_memOk hs fun env t h => ?_
  split
  · exact h
  · exact exitLanes_memOk h

theorem execNop_memOk {x : Args} {s : State} (hs : s.memOk) : answerOk (execNop x s) := by
  unfold execNop
  exact issue_memOk hs fun _ _ h => h

theorem execSrd_memOk {x : Args} {s : State} (hs : s.memOk) : answerOk (execSrd x s) := by
  unfold execSrd
  refine issue_memOk hs fun env t h => ?_
  dsimp only
  split
  · trivial
  · exact h.put

theorem State.memOk.writeSpecial {s : State} {e : Env} {n : Nat} {tile : Opnd} {v : Word} (hs : s.memOk) :
    (s.writeSpecial e n tile v).memOk := by
  unfold State.writeSpecial
  split
  · exact hs
  split
  · exact hs.setCourse
  · exact hs.setCourse
  · exact hs.frame
  · exact hs.setCourse
  · exact hs

theorem execSwr_memOk {x : Args} {s : State} (hs : s.memOk) : answerOk (execSwr x s) := by
  unfold execSwr
  refine issue_memOk hs fun env t h => ?_
  split
  · dsimp only
    split
    · trivial
    · exact h
  dsimp only
  split
  · trivial
  · exact h.writeSpecial

/-! ### Functions of Machine/Record -/

theorem State.memOk.saveBody {s : State} {c : Course} (hs : s.memOk) : OptHolds State.memOk (s.saveBody c) := by
  unfold State.saveBody
  refine OptHolds.map_any fun pa => ?_
  extract_lets t u v w
  have ht : t.memOk := hs.putWords
  clear_value t
  have hu : u.memOk := ht.frame
  have hv : v.memOk := hu.foldl fun _ _ h => by
    split
    · exact h.markPoison
    · exact h
  have hw : w.memOk := by
    unfold w
    split
    · exact hv.markPoison
    · exact hv
  split
  · exact hw.markPoison
  · exact hw

theorem State.memOk.inRecord {s : State} {cid : Nat} {f : State → State} (hs : s.memOk) (hf : ∀ t, t.memOk → (f t).memOk) :
    (s.inRecord cid f).memOk := by
  unfold State.inRecord
  split
  · exact hf _ hs
  split
  · exact hf _ hs
  split
  · exact hf _ hs
  dsimp only
  split
  · exact (hf _ hs.setCourse).saveBody.getD (hf _ hs.setCourse)
  · exact hf _ hs.setCourse

theorem State.memOk.saveExtra {s : State} {cid : Nat} (hs : s.memOk) : OptHolds State.memOk (s.saveExtra cid) := by
  unfold State.saveExtra
  split
  · exact hs
  · exact OptHolds.map_any fun _ => hs.putWords

/-! ### Functions of Machine/Order -/

theorem State.memOk.lockRanges {s : State} {op : Nat} {bind : Bool} {l : List (Nat × Nat × Bool)} (hs : s.memOk) :
    (s.lockRanges op bind l).memOk := by
  unfold State.lockRanges
  split
  · exact hs
  · exact hs.registerAll.frame

theorem execRangeLockEntryFree_memOk {op : Nat} {s : State} (hs : s.memOk) : answerOk (execRangeLockEntryFree op s) := by
  unfold execRangeLockEntryFree
  split
  · split
    · split
      · exact hs
      · exact hs.lockRanges
    split
    · exact hs
    · exact hs.lockRanges
  · exact hs

theorem State.memOk.dropStage1 {s : State} {ctx : Nat} {cores : BitVec 96} (hs : s.memOk) : (s.dropStage1 ctx cores).memOk := hs

theorem State.memOk.settle {s : State} {cid : Nat} (hs : s.memOk) : (s.settle cid).memOk := by
  unfold State.settle
  split
  · exact hs
  split
  · exact hs
  refine hs.setCourse.foldl fun t a h => ?_
  split
  · exact h.dropStage1
  · exact h

theorem putFence_memOk {k : FenceKind} {scope : Scope} {lanes : LaneMask} {env : Env} {s : State} (hs : s.memOk) :
    (putFence k scope lanes env s).memOk := by
  unfold putFence
  split
  · exact hs
  · exact hs.setCourse.settle

theorem State.memOk.clampSys {s : State} {env : Env} {k : Scope} (hs : s.memOk) : (s.clampSys env k).memOk := by
  unfold State.clampSys
  split
  · split
    · exact hs.setCourse
    · exact hs
  · exact hs

theorem fenceOp_memOk {k : FenceKind} {x : Args} {env : Env} {s : State} (hs : s.memOk) : (fenceOp k x env s).memOk := by
  unfold fenceOp
  split
  · exact hs
  · exact (putFence_memOk hs).clampSys

theorem State.memOk.putLogical {s : State} {c : Course} {L : Nat} {vals : List (Nat × Nat)} (hs : s.memOk) :
    (s.putLogical c L vals).memOk := by
  unfold State.putLogical
  split
  · split
    · exact hs.putRow
    split
    · exact hs.foldl fun _ _ h => h.pokeNat
    · exact hs
  · exact hs.foldl fun _ _ h => h.privTry

theorem State.memOk.rowAt {s : State} {pa v : Nat} {marks : List Bool} (hs : s.memOk) : (s.rowAt pa v marks).memOk := by
  unfold State.rowAt
  refine hs.pokeNat.foldl fun t a h => ?_
  split
  · exact h.markPoison
  · exact h

theorem State.memOk.rowIn {s : State} {c : Course} {L v : Nat} {marks : List Bool} (hs : s.memOk) : (s.rowIn c L v marks).memOk := by
  unfold State.rowIn
  split
  · split
    · exact hs.rowAt
    · exact hs
  · exact hs.frame

theorem State.memOk.spillOut {s : State} {c : Course} {L v : Nat} {marks : List Bool} (hs : s.memOk) : (s.spillOut c L v marks).memOk := by
  unfold State.spillOut
  split
  · exact hs
  · exact hs.rowAt

theorem State.memOk.putOp {s : State} {o : Op} {t : Ty} {d : Opnd} {vals : List (Nat × Nat)} (hs : s.memOk) :
    (s.putOp o t d vals).memOk := by
  unfold State.putOp
  split
  · exact hs
  split
  · exact hs
  split
  · split
    · exact hs.putLogical.putLogical
    · exact hs.putLogical
  · exact hs.inRecord fun _ h => h.putDst

theorem execXredComplete_memOk {op : Nat} {s : State} (hs : s.memOk) : answerOk (execXredComplete op s) := by
  unfold execXredComplete
  split
  · split
    · split
      · exact (hs.inRecord fun _ h => h.modCourse).finishOp
      · exact hs
    · exact hs
  · exact hs

/-! ### Functions of Machine/Frames -/

theorem execMark_memOk {x : Args} {s : State} (hs : s.memOk) : answerOk (execMark x s) := by
  unfold execMark
  refine issue_memOk hs fun env t h => ?_
  split
  · exact h
  dsimp only
  split
  · trivial
  · exact (ExHolds.foldlM h fun _ _ ht => ExHolds.bind_any fun _ => ht.privWrite).of ‹_›

theorem execWflush_memOk {x : Args} {s : State} (hs : s.memOk) : answerOk (execWflush x s) := by
  unfold execWflush
  refine issue_memOk hs fun env t h => ?_
  split
  · exact h.addOp
  dsimp only
  split
  · trivial
  split
  · trivial
  · exact h.addOp.lockRanges

theorem execWflushComplete_memOk {op : Nat} {s : State} (hs : s.memOk) : answerOk (execWflushComplete op s) := by
  unfold execWflushComplete
  split
  · split
    · split
      · exact hs
      dsimp only
      split
      · split
        · exact hs.unlock.lateTrap.finishOp
        · exact hs
      split
      · exact hs
      refine (State.memOk.privTry ?_).unlock.finishOp
      split
      · exact ((hs.foldl fun _ _ h => h.spillOut).foldl fun _ _ h => h.rowIn).setCourse
      · exact (hs.foldl fun _ _ h => h.spillOut).foldl fun _ _ h => h.rowIn
    · exact hs
  · exact hs

theorem State.memOk.putSliceWord {s : State} {core : Nat} {h : Handle} {k v : Nat} (hs : s.memOk) : (s.putSliceWord core h k v).memOk := by
  unfold State.putSliceWord
  split
  · exact hs.pokeNat
  · exact hs

theorem State.memOk.putSlice {s : State} {blocks : List (Nat × Nat)} {off n v : Nat} {bad : Bool} (hs : s.memOk) :
    (s.putSlice blocks off n v bad).memOk := by
  unfold State.putSlice
  exact hs.pokeAll

theorem State.memOk.cutRun {s : State} {cid p : Nat} {q : Path} {d : BitVec 6} {id ovl idx : Nat} (hs : s.memOk) :
    ExHolds State.memOk (s.cutRun cid p q d id ovl idx) := by
  unfold State.cutRun
  split
  · exact hs
  next c _ =>
    refine ExHolds.bind_any fun pl => ?_
    extract_lets part bytes head lwb fm hdr q'
    refine ExHolds.bind_any fun hd => ExHolds.bind_any fun bl => ExHolds.bind_any fun recs => ExHolds.bind_any fun _ => ?_
    extract_lets t₁ t₂ t₃ t₄ t₅ t₆
    have h₁ : t₁.memOk := hs.foldl fun _ _ h => h.putSlice
    have h₂ : t₂.memOk := h₁.foldl fun _ _ h => h.foldl fun _ _ h => h.putSlice
    have h₃ : t₃.memOk := h₂.foldl fun _ _ h => h.foldl fun _ _ h => h.putSlice
    have h₄ : t₄.memOk := h₃.foldl fun u b h => by
      split
      · exact h.pokeNat
      · exact h
    have h₅ : t₅.memOk := h₄.putSliceWord.putSliceWord.putSliceWord.putSliceWord
    have h₆ : t₆.memOk := by
      unfold t₆
      split
      · exact h₅.frame
      · exact h₅
    refine h₆.putDepth.bind fun u hu => ?_
    split
    · trivial
    · exact hu.modCourse

theorem execCut_memOk {x : Args} {s : State} (hs : s.memOk) : answerOk (execCut x s) := by
  unfold execCut
  refine issue_memOk hs fun env t h => ?_
  split
  · exact h
  dsimp only
  split
  · exact h.addSilent.lockRanges
  · trivial
  · trivial

theorem State.memOk.rebase {s : State} {c : Course} {h : SliceHead} {base lwb pm : Nat} {lanes : List Nat} (hs : s.memOk) :
    (s.rebase c h base lwb pm lanes).memOk := by
  unfold State.rebase
  refine hs.foldl fun t a ht => ?_
  refine ht.foldl fun u b hu => ?_
  dsimp only
  split
  · exact hu.putLogical.putLogical
  · exact hu

theorem State.memOk.graftGroup {s : State} {cid : Nat} {c : Course} {q : Path} {h : SliceHead} {E : LaneMask} {kind ovl idx : Nat}
    (hs : s.memOk) : ExHolds State.memOk (s.graftGroup cid c q h E kind ovl idx) := by
  unfold State.graftGroup
  extract_lets lanes base rows t low unitsTo u
  refine ExHolds.bind_any fun _ => ?_
  have hrows : ∀ t, t.memOk → (rows t).memOk := fun _ ht => ht.foldl fun _ _ hu => by
    extract_lets pcs v bad w
    have hw : w.memOk := hu.putLogical
    have hmarks : ∀ pa, (bad.foldl (fun (s : State) l => s.markPoison (pa + 4 * l) 4) w).memOk := fun _ => hw.foldl fun _ _ h => h.markPoison
    split
    · exact hw
    split
    · split
      · exact hmarks _
      · exact hw
    split
    · exact hw.frame
    split
    · exact hmarks _
    · exact hw
  have ht : t.memOk := hrows _ hs
  have hu : u.memOk := ht.foldl fun _ _ h => h.rebase
  refine (ExHolds.foldlM hu fun _ _ h => ExHolds.foldlM h fun _ _ h => h.privWrite).bind fun _ hv => ?_
  exact hv.putDepth.bind fun _ hw => hw.modCourse

theorem State.memOk.graftRun {s : State} {env : Env} {groups : List (Nat × LaneMask)} {fresh : Bool} {ovl idx : Nat} (hs : s.memOk) :
    ExHolds (OptHolds State.memOk) (s.graftRun env groups fresh ovl idx) := by
  unfold State.graftRun
  refine ExHolds.bind_any fun a => ?_
  refine ExHolds.bind_any fun b => ?_
  split
  · trivial
  · exact hs.graftGroup.bind fun _ h => h.modCourse
  dsimp only
  split
  · trivial
  · exact (ExHolds.foldlM hs fun _ _ h => h.graftGroup).bind fun _ h => (splitPath_memOk h).bind fun _ ht => ht

theorem execGraft_memOk {x : Args} {s : State} (hs : s.memOk) : answerOk (execGraft x s) := by
  unfold execGraft
  refine issue_memOk hs fun env t h => ?_
  dsimp only
  split
  · exact h
  split
  · trivial
  · exact h
  · exact h.addSilent.lockRanges

theorem State.memOk.copyFailed {s : State} {cid p op : Nat} {o : Op} {run : Option Run} {t : Trap} (hs : s.memOk) :
    (s.copyFailed cid p op o run t).memOk := by
  unfold State.copyFailed
  exact hs.modCourse.unlock.finishOp.deliver

theorem State.memOk.graftDone {s : State} {env : Env} (hs : s.memOk) : (s.graftDone env).memOk := by
  unfold State.graftDone
  split
  · exact hs
  · exact hs.modCourse.putSliceWord.addSilent

theorem State.memOk.sliceCommit {s : State} {op cid : Nat} {o : Op} {plan : SlicePlan} (hs : s.memOk) :
    (s.sliceCommit op cid o plan).memOk := by
  unfold State.sliceCommit
  split
  · exact hs
  split
  · exact hs
  split
  · split
    · exact hs
    dsimp only
    split
    · split
      · exact hs.copyFailed
      · exact (hs.cutRun.of ‹_›).unlock.finishOp
    split
    · exact hs.copyFailed
    · exact hs.setPath.unlock.finishOp
    next t he =>
      have ht : t.memOk := OptHolds.of (hs.graftRun.of he) rfl
      exact ht.unlock.finishOp.graftDone
  · exact hs

theorem execSliceCopyComplete_memOk {op : Nat} {s : State} (hs : s.memOk) : answerOk (execSliceCopyComplete op s) := by
  unfold execSliceCopyComplete
  split
  · exact hs
  split
  · split
    · exact hs.inRecord fun _ h => h.sliceCommit
    · exact hs
  · exact hs

theorem execSliceDrop_memOk {x : Args} {s : State} (hs : s.memOk) : answerOk (execSliceDrop x s) := by
  unfold execSliceDrop
  refine issue_memOk hs fun env t h => ?_
  split
  · exact h.addOp
  dsimp only
  split
  · trivial
  · exact h.putSliceWord.addOp

theorem State.memOk.freeSliceEntry {s : State} {core : Nat} {h : Handle} (hs : s.memOk) :
    ExHolds State.memOk (s.freeSliceEntry core h) := by
  unfold State.freeSliceEntry
  refine ExHolds.bind_any fun a => ?_
  split
  · exact hs
  · exact ExHolds.bind_any fun _ => (hs.foldl fun _ _ ht => ht.pokeNat).frame.putSliceWord.putSliceWord

theorem execSliceDropComplete_memOk {op : Nat} {s : State} (hs : s.memOk) : answerOk (execSliceDropComplete op s) := by
  unfold execSliceDropComplete
  split
  · split
    · split
      · split
        · exact hs
        dsimp only
        split
        · exact (hs.freeSliceEntry.of ‹_›).finishOp
        · exact hs.lateTrap.finishOp
      split
      · exact hs
      dsimp only
      split
      · exact (hs.freeSliceEntry.of ‹_›).finishOp
      · exact hs.lateTrap.finishOp
    · exact hs
  · exact hs

/-! ### Functions of Machine/Elastic -/

theorem State.memOk.gpaPut {s : State} {core ctx gpa n v : Nat} (hs : s.memOk) : (s.gpaPut core ctx gpa n v).memOk := by
  unfold State.gpaPut
  split
  · exact hs.pokeNat
  · exact hs

theorem State.memOk.clearFrame {s : State} {core ctx gpa : Nat} (hs : s.memOk) : (s.clearFrame core ctx gpa).memOk := by
  unfold State.clearFrame
  split
  · exact hs
  · exact Memory.wf_filter _ _ hs

theorem State.memOk.putDesc {s : State} {core ctx a : Nat} {d : Desc} (hs : s.memOk) : (s.putDesc core ctx a d).memOk := by
  unfold State.putDesc
  exact hs.gpaPut

theorem State.memOk.modCtx {s : State} {ctx : Nat} {f : Context → Context} (hs : s.memOk) : (s.modCtx ctx f).memOk := by
  unfold State.modCtx
  split
  · exact hs.frame
  · exact hs

theorem State.memOk.takeFrame {s : State} {core ctx : Nat} (hs : s.memOk) : ExHolds (fun r => r.1.memOk) (s.takeFrame core ctx) := by
  unfold State.takeFrame
  split
  · trivial
  split
  · trivial
  · exact ExHolds.bind_any fun _ => ExHolds.intro hs.modCtx

theorem State.memOk.giveFrame {s : State} {core ctx frame : Nat} (hs : s.memOk) : (s.giveFrame core ctx frame).memOk := by
  unfold State.giveFrame
  split
  · exact hs
  · exact hs.gpaPut.modCtx

theorem State.memOk.takeNodes {s : State} {core ctx fuel n : Nat} (hs : s.memOk) :
    ExHolds (fun r => r.1.memOk) (s.takeNodes core ctx fuel n) := by
  induction fuel generalizing s n with
  | zero =>
    cases n with
    | zero => exact .intro hs
    | succ n => trivial
  | succ fuel ih =>
    cases n with
    | zero => exact .intro hs
    | succ n =>
      unfold State.takeNodes
      split
      · trivial
      split
      · exact (ih hs.modCtx).bind fun _ h => .intro h
      · exact hs.takeFrame.bind fun _ h => (ih h.modCtx).bind fun _ h => .intro h

theorem State.memOk.takeSlots {s : State} {core ctx esz fuel n leaf slot : Nat} (hs : s.memOk) :
    ExHolds (fun r => r.1.memOk) (s.takeSlots core ctx esz fuel n leaf slot) := by
  induction fuel generalizing s n leaf slot with
  | zero => exact .intro hs
  | succ fuel ih =>
    unfold State.takeSlots
    split
    · exact .intro hs
    dsimp only
    split
    · exact .bind_any fun _ => hs.takeFrame.bind fun _ h => .bind_any fun _ =>
        (ih h.gpaPut.gpaPut.modCtx).bind fun _ h => .intro h
    · exact (ih hs).bind fun _ h => .intro h

theorem State.memOk.planNodes {s : State} {core ctx n : Nat} {old : List Nat} (hs : s.memOk) :
    ExHolds (fun r => r.1.memOk) (s.planNodes core ctx n old) := by
  unfold State.planNodes
  exact hs.takeNodes.bind fun _ h => h

theorem State.memOk.planTree {s : State} {core ctx a : Nat} {items : List EItem} {mnext leaf slot : Nat} {old : List Nat} (hs : s.memOk) :
    ExHolds (fun r => r.1.memOk) (s.planTree core ctx a items mnext leaf slot old) := by
  unfold State.planTree
  exact hs.planNodes.bind fun _ h => ExHolds.bind_any fun _ => h

theorem State.memOk.takeMortFrames {s : State} {core ctx fuel n : Nat} (hs : s.memOk) :
    ExHolds (fun r => r.1.memOk) (s.takeMortFrames core ctx fuel n) := by
  induction fuel generalizing s n with
  | zero => exact .intro hs
  | succ fuel ih =>
    unfold State.takeMortFrames
    split
    · exact .intro hs
    · exact hs.takeFrame.bind fun _ h => (ih h.clearFrame).bind fun _ h => .intro h

theorem awaitBlock_memOk {va n : Nat} {env : Env} {s : State} {k : Res} (hs : s.memOk) (hk : k.memOk) :
    (awaitBlock va n env s k).memOk := by
  unfold awaitBlock
  split
  · split
    · exact hk
    · exact hs
  · exact hk

theorem ExHolds.onLane {α : Type} {P : α → Prop} {l : Nat} {x : Except Trap α} (h : ExHolds P x) : ExHolds P (onLane l x) := by
  cases x with
  | error t => trivial
  | ok a => exact h

theorem State.memOk.fillLane {s : State} {c : Course} {d : Desc} {acc : EaTree × List (Nat × Nat × Option Nat) × List Shoot}
    {f : Nat × Word × Nat × Nat} (hs : s.memOk) : ExHolds (fun r => r.1.memOk) (s.fillLane c d acc f) := by
  unfold State.fillLane
  dsimp only
  split
  · exact .intro hs
  · exact hs.takeSlots.onLane.bind fun _ h => .bind_any fun _ => .intro h

theorem State.memOk.acceptEa {s : State} {c : Course} {j : EaJob} (hs : s.memOk) : ExHolds (fun r => r.1.memOk) (s.acceptEa c j) := by
  unfold State.acceptEa
  extract_lets core ctx part
  split
  · exact .bind_any fun _ => hs.takeFrame.bind fun _ h => h.planTree.bind fun _ h => .intro h.clearFrame.putDesc
  · exact .bind_any fun _ => .bind_any fun _ => .intro hs.putDesc
  · refine .bind_any fun d => ?_
    split
    · trivial
    split
    · trivial
    split
    · exact .intro hs
    · exact .bind_any fun _ => hs.takeSlots.bind fun _ h => .bind_any fun _ => h.planTree.bind fun _ h => .intro h
  · refine .bind_any fun d => ?_
    split
    · trivial
    split
    · exact .intro hs
    · exact .bind_any fun _ => hs.planTree.bind fun _ h => .intro h
  · refine .bind_any fun d => ?_
    split
    · trivial
    refine .bind_any fun items => ?_
    dsimp only
    split
    · trivial
    exact .bind_any fun _ => hs.takeFrame.bind fun _ h => h.planTree.bind fun _ h => h.planTree.bind fun _ h =>
      .intro h.clearFrame.putDesc
  · refine .bind_any fun d => .bind_any fun e => .bind_any fun items => .bind_any fun more => ?_
    dsimp only
    split
    · trivial
    split
    · trivial
    refine .bind_any fun _ => ?_
    split
    · trivial
    · exact hs.planTree.bind fun _ h => .intro h.putDesc
  · refine .bind_any fun d => ?_
    split
    · trivial
    split
    · trivial
    · exact .bind_any fun _ => hs.takeMortFrames.bind fun _ h => h.planTree.bind fun _ h => .intro h
  · split
    · exact .intro hs
    refine .bind_any fun d => ?_
    dsimp only
    split
    · trivial
    refine .bind_any fun items => .bind_any fun _ => ?_
    refine (ExHolds.foldlM (Q := fun r : State × _ => r.1.memOk) hs fun acc g h => h.fillLane).bind fun r h => ?_
    split
    · exact .intro h
    · exact h.planTree.bind fun _ h => .intro h
  · refine .bind_any fun d => .bind_any fun items => ?_
    dsimp only
    split
    · trivial
    · exact hs.planTree.bind fun _ h => .intro h
  refine .bind_any fun d => ?_
  dsimp only
  split
  · trivial
  refine .bind_any fun items => ?_
  split
  · trivial
  split
  · trivial
  · exact hs.takeSlots.bind fun _ h => .bind_any fun _ => h.planTree.bind fun _ h => .intro h

theorem State.memOk.nodeEnded {s : State} {node : Option (Nat × Nat)} {bad : Option Trap} (hs : s.memOk) :
    (s.nodeEnded node bad).memOk := by
  unfold State.nodeEnded
  split
  · exact hs
  · exact hs.frame

theorem execEaAccept_memOk {op : Nat} {s : State} (hs : s.memOk) : answerOk (execEaAccept op s) := by
  unfold execEaAccept
  split
  · exact hs
  split
  · split
    · exact hs
    split
    · exact hs
    split
    · split
      · exact hs.frame.nodeEnded
      · exact hs.setOp
    split
    · split
      · exact hs
      · exact hs.setOp
    dsimp only
    split
    · exact hs
    · exact (hs.acceptEa.of ‹_›).setOp.lockRanges
  · exact hs

theorem State.memOk.putLevels {s : State} {core ctx array fuel level : Nat} {es : List (Nat × Nat × Nat)} {nodes : List Nat} (hs : s.memOk) :
    (s.putLevels core ctx array fuel level es nodes).memOk := by
  induction fuel generalizing s level es nodes with
  | zero => exact hs
  | succ fuel ih =>
    unfold State.putLevels
    extract_lets gs mine rest root t up
    have ht : t.memOk := hs.foldl fun _ _ h => h.gpaPut
    split
    · exact ht
    · exact ih ht

theorem State.memOk.putLeaf {s : State} {core ctx k : Nat} {chain : List (Nat × Nat)} {live : Nat} (hs : s.memOk) :
    (s.putLeaf core ctx k chain live).memOk := by
  unfold State.putLeaf
  exact hs.gpaPut.foldl fun _ _ h => h.gpaPut

theorem State.memOk.putTree {s : State} {core ctx : Nat} {t : EaTree} {freed : Bool} {old : List EItem} {steps : Nat} (hs : s.memOk) :
    (s.putTree core ctx t freed old steps).memOk := by
  unfold State.putTree
  split
  · exact hs
  extract_lets s₁ frames put s₂ s₃ r
  have hput : ∀ {t m v}, t.memOk → (put t m v).memOk := fun ht => by
    unfold put
    split
    · exact ht.gpaPut
    · exact ht
  have h₁ : s₁.memOk := by
    unfold s₁
    split
    · exact hs
    · exact hs.putLevels
  have h₂ : s₂.memOk := h₁.foldl fun _ _ h => by
    split
    · exact hput h
    · exact h
  have h₃ : s₃.memOk := by
    unfold s₃
    split
    · exact h₂
    exact h₂.foldl fun _ _ h => by
      split
      · exact hput h
      · exact h
  exact h₃.putDesc

theorem State.memOk.commitEa {s : State} {c : Course} {j : EaJob} (hs : s.memOk) : (s.commitEa c j).1.memOk := by
  unfold State.commitEa
  extract_lets core ctx s₁ s₂ s₃ was olds before after leaves chains s₄ s₅ fresh closed
  have h₁ : s₁.memOk := hs.clearWhole
  have h₂ : s₂.memOk := h₁.foldl fun _ _ h => by
    split
    · exact h
    split
    · exact h.poke
    split
    · exact h.writeMarked
    · exact h
  have h₃ : s₃.memOk := by
    unfold s₃
    split
    · split
      · exact h₂
      · exact h₂.modCtx
    · exact h₂
  have h₄ : s₄.memOk := h₃.foldl fun _ _ h => h.putTree
  have h₅ : s₅.memOk := h₄.foldl fun _ _ h => h.putLeaf
  exact h₅.modCtx

theorem execEaCommit_memOk {op : Nat} {s : State} (hs : s.memOk) : answerOk (execEaCommit op s) := by
  unfold execEaCommit
  split
  · exact hs
  split
  · split
    · exact hs
    · exact hs.commitEa.setOp
  · exact hs

theorem execShootdown_memOk {op core : Nat} {s : State} (hs : s.memOk) : answerOk (execShootdown op core s) := by
  unfold execShootdown
  split
  · exact hs
  split
  · split
    · split
      · exact hs
      · exact hs.frame.setOp
    · exact hs
  · exact hs

theorem execShootdownAck_memOk {op core : Nat} {s : State} (hs : s.memOk) : answerOk (execShootdownAck op core s) := by
  unfold execShootdownAck
  split
  · exact hs
  split
  · split
    · split
      · exact hs
      · exact hs.setOp
    · exact hs
  · exact hs

theorem State.memOk.returnLeaves {s : State} {core ctx : Nat} {l : List Nat} (hs : s.memOk) : (s.returnLeaves core ctx l).memOk := by
  unfold State.returnLeaves
  refine hs.foldl fun t a h => ?_
  split
  · dsimp only
    split
    · exact h.gpaPut.gpaPut.giveFrame
    · exact h
  dsimp only
  split
  · exact h.gpaPut.gpaPut.giveFrame
  · exact h

theorem State.memOk.returnArray {s : State} {core ctx a : Nat} {d : Desc} (hs : s.memOk) : (s.returnArray core ctx a d).memOk := by
  unfold State.returnArray
  refine ((hs.foldl fun _ _ h => h.gpaPut).modCtx.returnLeaves.foldl ?_).modCtx.putDesc
  intro t b h
  split
  · exact h
  · exact h.giveFrame

theorem State.memOk.returnNodes {s : State} {core ctx : Nat} (hs : s.memOk) : (s.returnNodes core ctx).memOk := by
  unfold State.returnNodes
  split
  · exact hs
  · exact (hs.foldl fun _ _ h => h.giveFrame).modCtx

theorem execEaCommitComplete_memOk {op : Nat} {s : State} (hs : s.memOk) : answerOk (execEaCommitComplete op s) := by
  unfold execEaCommitComplete
  split
  · exact hs
  next o _ =>
    split
    · split
      · exact hs
      extract_lets core unused t u v
      have ht : t.memOk := hs.modCtx.returnLeaves
      have hu : u.memOk := by
        unfold u
        split
        · exact ht
        split
        · exact ht
        exact (ht.foldl fun _ _ h => by
          split
          · exact h
          · exact h.giveFrame).modCtx.putDesc
      have hv : v.memOk := by
        unfold v
        split
        · exact hu.frame
        · exact hu.unlock
      split
      · exact hv.finishOp
      · exact hv.setOp
    · exact hs

theorem eaStruct_memOk {x : Args} {d : Opnd} {mk : Env → State → Except Trap EaOp} {env : Env} {s : State} (hs : s.memOk) :
    (eaStruct x d mk env s).memOk := by
  unfold eaStruct
  split
  · exact hs.addOp
  split
  · split
    · trivial
    · exact hs.offer
  split
  · split
    · split
      · exact hs
      · exact hs.withdraw
      · exact hs
    · exact hs
  · exact hs

theorem execEaNew_memOk {x : Args} {s : State} (hs : s.memOk) : answerOk (execEaNew x s) := by
  unfold execEaNew
  refine issue_memOk hs fun env t h => ?_
  split
  · exact eaStruct_memOk h
  · exact awaitBlock_memOk h (eaStruct_memOk h)

theorem eaRead_memOk {x : Args} {f : Env → State → Nat → Desc → Nat → Nat → Except Trap Nat} {env : Env} {s : State} (hs : s.memOk) :
    (eaRead x f env s).memOk := by
  unfold eaRead
  extract_lets h
  split
  · exact hs.addOp
  split
  · exact hs
  split
  · trivial
  split
  · trivial
  · exact hs.addOp

theorem execRankWalk_memOk {core : Nat} {handle : Word} {rank : Nat} {s : State} (hs : s.memOk) :
    answerOk (execRankWalk core handle rank s) := by
  unfold execRankWalk
  dsimp only
  split
  · exact hs
  split
  · exact hs
  split
  · split
    · exact hs.frame
    · exact hs
  · exact hs

/-! ### Functions of Machine/Memory -/

theorem memOp_memOk {x : Args} {m : MemOp} {env : Env} {s : State} (hs : s.memOk) : (memOp x m env s).memOk := by
  unfold memOp
  extract_lets t c lanes sz
  split
  · exact hs.addOp
  split
  · exact hs
  split
  · trivial
  extract_lets lines todo job
  split
  · trivial
  · exact hs.addOp.clampSys

theorem performAcc_memOk {j : MemJob} {s : State} {a : Acc} (hs : s.memOk) : (performAcc j s a).1.memOk := by
  unfold performAcc
  split
  · dsimp only
    split
    · exact hs.pokeNat
    · exact hs.pokeNat.clearWhole
  split
  · exact hs
  split
  · dsimp only
    split
    · exact hs.freeWord
    · exact hs
  dsimp only
  refine State.memOk.pokeNat ?_
  split
  · exact hs.freeWord
  · exact hs

theorem State.memOk.settleOp {s : State} {o : Op} (hs : s.memOk) : (s.settleOp o).memOk := by
  unfold State.settleOp
  split
  · exact hs.settle
  · exact hs

theorem State.memOk.landMem {s : State} {op : Nat} {o : Op} {j : MemJob} (hs : s.memOk) : (s.landMem op o j).memOk := by
  unfold State.landMem
  refine State.memOk.finishOp ?_
  split
  · exact hs.lateTrap
  split
  · exact hs
  · exact hs.putOp

theorem State.memOk.memStep {s : State} {op : Nat} {o : Op} {j : MemJob} {line : Nat} (hs : s.memOk) : (s.memStep op o j line).memOk := by
  unfold State.memStep
  split
  · split
    · exact hs.landMem
    · exact hs
  dsimp only
  split
  · exact hs
  split
  · exact (State.memOk.foldl_fst hs fun _ _ h => performAcc_memOk h).setOp.settleOp.finishOp
  · exact (State.memOk.foldl_fst hs fun _ _ h => performAcc_memOk h).setOp.settleOp

theorem execPark_memOk {x : Args} {s : State} (hs : s.memOk) : answerOk (execPark x s) := by
  unfold execPark
  refine issue_memOk hs fun env t h => ?_
  split
  · exact h
  split
  · trivial
  extract_lets lines
  split
  · trivial
  split
  · exact h
  extract_lets j
  split
  · trivial
  split
  · exact h.setPath
  split
  · exact h
  · exact h

theorem execParkWake_memOk {cid p : Nat} {s : State} (hs : s.memOk) : answerOk (execParkWake cid p s) := by
  unfold execParkWake
  split
  · split
    · exact hs.setPath
    · exact hs
  · exact hs

theorem execParkTimeout_memOk {cid p : Nat} {s : State} (hs : s.memOk) : answerOk (execParkTimeout cid p s) := by
  unfold execParkTimeout
  split
  · split
    · split
      · exact hs.setPath
      · exact hs
    · exact hs
  · exact hs

theorem State.memOk.clearLines {s : State} {l : List Nat} (hs : s.memOk) : (s.clearLines l).memOk := by
  unfold State.clearLines
  split
  · exact hs
  · exact hs.frame.setAbsent

theorem State.memOk.arriveLines {s : State} {op : Nat} {l : List Nat} (hs : s.memOk) : (s.arriveLines op l).memOk := hs

theorem moveOp_memOk {x : Args} {zero : Bool} {env : Env} {s : State} (hs : s.memOk) : (moveOp x zero env s).memOk := by
  unfold moveOp
  extract_lets n d a id
  split
  · exact hs.addOp
  split
  · trivial
  split
  · trivial
  split
  · trivial
  split
  · trivial
  split
  · exact hs.clearLines.addOp
  split
  · trivial
  · exact hs.clearLines.addOp.lockRanges

theorem execTmvLineArrival_memOk {op i : Nat} {s : State} (hs : s.memOk) : answerOk (execTmvLineArrival op i s) := by
  unfold execTmvLineArrival
  split
  · exact hs
  split
  · split
    · exact hs
    split
    · exact hs
    split
    · dsimp only
      split
      · exact hs.pokeFrom.arriveLines.setOp.unlock.finishOp
      · exact hs.pokeFrom.arriveLines.setOp
    dsimp only
    split
    · exact hs.pokeFrom.arriveLines.setOp.unlock.finishOp
    · exact hs.pokeFrom.arriveLines.setOp
  · exact hs

/-! ### Functions of Machine/Pages -/

theorem State.memOk.endCmd {s : State} {page off status : Nat} (hs : s.memOk) : (s.endCmd page off status).memOk := by
  unfold State.endCmd
  split
  · exact hs.frame
  · exact hs

theorem CmdEnd.memOk.of_done {x : CmdEnd} {s : State} (h : x.memOk) (e : x = .done s) : s.memOk := by
  subst e; exact h

theorem CmdEnd.memOk.of_later {x : CmdEnd} {s : State} (h : x.memOk) (e : x = .later s) : s.memOk := by
  subst e; exact h

theorem State.memOk.command {s : State} {page off : Nat} {hyper : Bool} {part : Nat} {words : List (Option Nat)} {run : State → CmdEnd}
    (hs : s.memOk) (hrun : ∀ t, t.memOk → (run t).memOk) : (s.command page off hyper part words run).memOk := by
  unfold State.command
  split
  · exact hs
  dsimp only
  split
  · exact hs.frame.endCmd
  split
  next t he => exact ((hrun _ hs.frame).of_done he).endCmd
  next t he => exact (hrun _ hs.frame).of_later he
  · exact hs.frame.endCmd

theorem execWalkStart_memOk {core ctx : Nat} {va : WalkFrom} {s : State} (hs : s.memOk) : answerOk (execWalkStart core ctx va s) := by
  unfold execWalkStart
  split
  · exact hs
  · exact hs.frame

theorem execWalkComplete_memOk {core i : Nat} {s : State} (hs : s.memOk) : answerOk (execWalkComplete core i s) := by
  unfold execWalkComplete
  split
  · exact hs
  dsimp only
  split
  · exact hs.frame
  · split <;> exact hs.frame

theorem State.memOk.invalidate1 {s : State} {page part ctx : Nat} {hit : Nat → Bool} (hs : s.memOk) :
    (s.invalidate1 page part ctx hit).memOk := by
  unfold State.invalidate1
  split
  · trivial
  split
  · trivial
  · exact hs.frame

theorem State.memOk.invalidate2 {s : State} {page part : Nat} {hit : Nat → Bool} (hs : s.memOk) : (s.invalidate2 page part hit).memOk := by
  unfold State.invalidate2
  split
  · trivial
  · exact hs.frame

theorem execStage1RangeInvalidate_memOk {page part ctx : Nat} {base : Word} {count seq : BitVec 32} {s : State} (hs : s.memOk) :
    answerOk (execStage1RangeInvalidate page part ctx base count seq s) := by
  unfold execStage1RangeInvalidate
  refine hs.command fun t h => ?_
  split
  · exact h.invalidate1
  · trivial

theorem execStage1ContextInvalidate_memOk {page part ctx : Nat} {seq : BitVec 32} {s : State} (hs : s.memOk) :
    answerOk (execStage1ContextInvalidate page part ctx seq s) := by
  unfold execStage1ContextInvalidate
  exact hs.command fun _ h => h.invalidate1

theorem execStage2RangeInvalidate_memOk {page part : Nat} {base : Word} {count seq : BitVec 32} {s : State} (hs : s.memOk) :
    answerOk (execStage2RangeInvalidate page part base count seq s) := by
  unfold execStage2RangeInvalidate
  refine hs.command fun t h => ?_
  split
  · exact h.invalidate2
  · trivial

theorem execStage2PartitionInvalidate_memOk {page part : Nat} {seq : BitVec 32} {s : State} (hs : s.memOk) :
    answerOk (execStage2PartitionInvalidate page part seq s) := by
  unfold execStage2PartitionInvalidate
  exact hs.command fun _ h => h.invalidate2

theorem State.memOk.retranslate {s : State} {v : Inval} (hs : s.memOk) : (s.retranslate v).memOk := hs

theorem execInvalidationAck_memOk {page : Nat} {s : State} (hs : s.memOk) : answerOk (execInvalidationAck page s) := by
  unfold execInvalidationAck
  split
  · exact hs
  split
  · exact hs
  · exact hs.frame.retranslate.flushNotices.endCmd

theorem State.memOk.migrate {s : State} {frame spare : Nat} (hs : s.memOk) : (s.migrate frame spare).memOk := by
  unfold State.migrate
  exact hs.frame.lockRanges

theorem State.memOk.takeSpares {s : State} (hs : s.memOk) : s.takeSpares.memOk := by
  unfold State.takeSpares
  refine hs.foldl fun t a h => ?_
  split
  · exact h.migrate
  · exact h

theorem execAddSpareFrames_memOk {page : Nat} {base : Word} {count seq : BitVec 32} {s : State} (hs : s.memOk) :
    answerOk (execAddSpareFrames page base count seq s) := by
  unfold execAddSpareFrames
  refine hs.command fun t h => ?_
  split
  · exact h.frame.takeSpares
  · trivial

theorem State.memOk.retireFrame {s : State} {frame : Nat} (hs : s.memOk) : (s.retireFrame frame).memOk := by
  unfold State.retireFrame
  split
  · exact hs
  · exact hs.frame.takeSpares

theorem State.memOk.retireChannel {s : State} {ch : Nat} (hs : s.memOk) : (s.retireChannel ch).memOk := by
  unfold State.retireChannel
  split
  · split
    · exact hs
    · exact hs.frame.foldl fun _ _ h => h.retireFrame
  split
  · exact hs
  · exact hs.frame.foldl fun _ _ h => h.retireFrame

theorem State.memOk.listBad {s : State} {frame reason : Nat} (hs : s.memOk) : (s.listBad frame reason).memOk := by
  unfold State.listBad
  split
  · exact hs.retireChannel
  · exact hs.frame

theorem State.memOk.retireFor {s : State} {frame reason : Nat} (hs : s.memOk) : (s.retireFor frame reason).memOk := by
  unfold State.retireFor
  split
  · exact hs
  split
  · exact hs.retireChannel
  · exact hs.listBad.retireFrame

theorem execCorrectedError_memOk {frame : Nat} {s : State} (hs : s.memOk) : answerOk (execCorrectedError frame s) := by
  unfold execCorrectedError
  split
  · exact hs
  dsimp only
  split
  · exact hs.frame.retireFor
  · exact hs.frame

theorem execScrub_memOk {_frame : Nat} {s : State} (hs : s.memOk) : answerOk (execScrub _frame s) := hs

theorem execFrameRetireTrigger_memOk {frame reason block : Nat} {s : State} (hs : s.memOk) :
    answerOk (execFrameRetireTrigger frame reason block s) := by
  unfold execFrameRetireTrigger
  split
  · exact hs
  split
  · split
    · exact hs.frame.retireChannel
    · exact hs.frame.retireFor
  split
  · exact hs.retireChannel
  · exact hs.retireFor

theorem State.memOk.copyDram {s : State} {src dst n : Nat} (hs : s.memOk) : (s.copyDram src dst n).memOk := Memory.wf_write _ _ _ hs

theorem State.memOk.notifyAll {s : State} {n : Notice} (hs : s.memOk) : (s.notifyAll n).memOk := by
  unfold State.notifyAll
  exact hs.foldl fun _ _ h => h.notify

theorem State.memOk.switchFrame {s : State} {frame spare : Nat} (hs : s.memOk) : (s.switchFrame frame spare).memOk := hs

theorem execMigrationLineCopy_memOk {frame : Nat} {s : State} (hs : s.memOk) : answerOk (execMigrationLineCopy frame s) := by
  unfold execMigrationLineCopy
  split
  · split
    · dsimp only
      split
      · exact hs
      · exact hs.copyDram.frame
    dsimp only
    split
    · exact hs
    · exact hs.copyDram.frame.notifyAll
  · exact hs

/-! ### Functions of Machine/Matrix -/

theorem enqueue_memOk {x : Args} {m : Mat} {locks : List (Nat × Nat × Bool)} {env : Env} {s : State} (hs : s.memOk) :
    (enqueue x m locks env s).memOk := by
  unfold enqueue
  split
  · exact hs
  · exact hs.addOp.lockRanges.modCourse

theorem matOp_memOk {x : Args} {kind : MatKind} {env : Env} {s : State} (hs : s.memOk) : (matOp x kind env s).memOk := by
  unfold matOp
  split
  · exact hs.addOp
  split
  · exact hs
  dsimp only
  split
  · trivial
  split
  · trivial
  split
  · trivial
  split
  · split
    · trivial
    · exact enqueue_memOk hs
  split
  · trivial
  · exact enqueue_memOk hs

theorem execMshape_memOk {x : Args} {s : State} (hs : s.memOk) : answerOk (execMshape x s) := by
  unfold execMshape
  refine issue_memOk hs fun env t h => ?_
  split
  · exact h
  dsimp only
  split
  · trivial
  split
  · trivial
  · exact h.modCourse

theorem execWbld_memOk {x : Args} {s : State} (hs : s.memOk) : answerOk (execWbld x s) := by
  unfold execWbld
  refine issue_memOk hs fun env t h => ?_
  extract_lets d a n entry
  split
  · exact h.addOp
  iterate 5 (split; · trivial)
  split
  · exact enqueue_memOk h
  split
  · trivial
  dsimp only
  split
  · trivial
  · exact enqueue_memOk h

theorem execMzero_memOk {x : Args} {s : State} (hs : s.memOk) : answerOk (execMzero x s) := by
  unfold execMzero
  refine issue_memOk hs fun env t h => ?_
  split
  · exact h.addOp
  split
  · trivial
  · exact enqueue_memOk h

theorem xferOp_memOk {x : Args} {store : Bool} {env : Env} {s : State} (hs : s.memOk) : (xferOp x store env s).memOk := by
  unfold xferOp
  extract_lets t a pitch entry
  split
  · exact hs.addOp
  split
  · trivial
  split
  · trivial
  split
  · exact enqueue_memOk hs
  split
  · trivial
  · exact enqueue_memOk hs

/-- `State.poisonedAll` is made opaque first: otherwise the kernel runs it in order to compare the branches. -/
theorem sparsityOp_memOk {s : State} {x : Args} {kind : MatKind} {env : Env} (hs : s.memOk) : (sparsityOp x kind env s).memOk := by
  obtain ⟨pois, hpois⟩ : ∃ pois, pois = State.poisonedAll := ⟨_, rfl⟩
  unfold sparsityOp
  rw [← hpois]
  split
  · exact hs.addOp
  extract_lets off wa wb win block k
  split
  · trivial
  split
  · trivial
  split
  · trivial
  split
  · exact hs
  split
  · trivial
  split
  · trivial
  split
  · trivial
  · exact enqueue_memOk hs

theorem State.memOk.setTile {s : State} {k : Nat} {t : Tile} (hs : s.memOk) : (s.setTile k t).memOk := hs

theorem State.memOk.clearTile {s : State} {k : Nat} (hs : s.memOk) : (s.clearTile k).memOk := by
  unfold State.clearTile
  exact hs.poke.setTile

theorem State.memOk.takeTile {s : State} {cid ctx k : Nat} (hs : s.memOk) : (s.takeTile cid ctx k).memOk := by
  unfold State.takeTile
  refine State.memOk.setTile ?_
  split
  · exact hs
  · exact hs.clearTile

theorem execMtalloc_memOk {x : Args} {s : State} (hs : s.memOk) : answerOk (execMtalloc x s) := by
  unfold execMtalloc
  refine issue_memOk hs fun env t h => ?_
  split
  · dsimp only
    split
    · exact h
    · trivial
  dsimp only
  split
  · exact h
  refine State.memOk.setPred ?_
  split
  · exact h.takeTile
  · split
    · exact h
    split
    · exact h.setTile
    · exact h
  · exact h

theorem execMtfree_memOk {x : Args} {s : State} (hs : s.memOk) : answerOk (execMtfree x s) := by
  unfold execMtfree
  refine issue_memOk hs fun env t h => ?_
  split
  · exact h
  dsimp only
  split
  · trivial
  · exact h.setTile.drainTiles

/-- `State.translate` is made opaque first: otherwise the kernel runs it in order to compare the branches. -/
theorem State.memOk.saveTile {s : State} {cid k : Nat} (hs : s.memOk) : OptHolds State.memOk (s.saveTile cid k) := by
  obtain ⟨tr, htr⟩ : ∃ tr, tr = State.translate := ⟨_, rfl⟩
  unfold State.saveTile
  rw [← htr]
  split
  · trivial
  extract_lets va t base tail marks
  split
  · trivial
  extract_lets u v
  have hu : u.memOk := hs.pokeAll
  have hv : v.memOk := hu.foldl fun w i h => by
    split
    · exact h.markPoison
    · exact h
  exact hv.setTile.modCourse

/-- `State.translate` is made opaque first: otherwise the kernel runs it in order to compare the branches. -/
theorem State.memOk.loadTile {s : State} {cid k : Nat} (hs : s.memOk) : OptHolds State.memOk (s.loadTile cid k) := by
  obtain ⟨tr, htr⟩ : ∃ tr, tr = State.translate := ⟨_, rfl⟩
  unfold State.loadTile
  rw [← htr]
  split
  · trivial
  extract_lets va
  split
  · trivial
  · exact (hs.poke.foldl fun _ _ h => h.markPoison).setTile.modCourse

theorem execTileSaveFinished_memOk {bent tile : Nat} {s : State} (hs : s.memOk) : answerOk (execTileSaveFinished bent tile s) := by
  unfold execTileSaveFinished
  dsimp only
  split
  · exact hs.saveTile.getD hs
  · exact hs

theorem State.memOk.putElem {s : State} {k sz m n v : Nat} (hs : s.memOk) : (s.putElem k sz m n v).memOk := Memory.wf_write _ _ _ hs

theorem State.memOk.mapTile {s : State} {k sz rows : Nat} {f : Nat → Nat → Nat × BitVec 32} (hs : s.memOk) :
    (s.mapTile k sz rows f).1.memOk := by
  unfold State.mapTile
  refine hs.foldl_fst fun a b h => ?_
  refine h.foldl_fst fun r e ht => ?_
  dsimp only
  exact ht.putElem

theorem State.memOk.zeroRows {s : State} {k sz rows : Nat} (hs : s.memOk) : (s.zeroRows k sz rows).memOk := by
  unfold State.zeroRows
  exact hs.poke

theorem State.memOk.takeStep {s : State} {c : Course} {q : Mat} {a b : Ty} {kstep st : Nat} {live : List Nat} (hs : s.memOk) :
    (s.takeStep c q a b kstep st live).1.memOk := by
  unfold State.takeStep
  split
  · dsimp only
    split
    · exact hs
    · exact hs.mapTile
  dsimp only
  split <;> exact hs.mapTile

theorem State.memOk.loadRows {s : State} {k : Nat} {t tile : Ty} {rows : List (List (Nat × Nat))} (hs : s.memOk) :
    (s.loadRows k t tile rows).memOk := by
  unfold State.loadRows
  exact hs.foldl fun _ _ h => h.poke

theorem State.memOk.storeRows {s : State} {k : Nat} {t tile : Ty} {rows : List (List (Nat × Nat))} (hs : s.memOk) :
    (s.storeRows k t tile rows).1.memOk := by
  unfold State.storeRows
  refine hs.foldl_fst fun a b h => ?_
  dsimp only
  exact h.pokeAll

theorem State.memOk.dropGrow {s : State} {c : Course} {q : Mat} (hs : s.memOk) : (s.dropGrow c q).memOk := by
  unfold State.dropGrow
  exact (hs.foldl fun _ _ h => h.pokeNat.pokeNat).pokeNat.pokeNat

theorem State.memOk.lockWbld {s : State} {op : Nat} {c : Course} {m : Mat} (hs : s.memOk) : (s.lockWbld op c m).memOk := by
  unfold State.lockWbld
  split
  · exact hs
  split
  · exact hs.lockRanges
  · exact hs

theorem execMatrixQueueServe_memOk {bent : Nat} {s : State} (hs : s.memOk) : answerOk (execMatrixQueueServe bent s) := by
  unfold execMatrixQueueServe
  extract_lets b idle cand
  clear_value cand
  split
  · exact hs
  split
  · exact hs.frame
  split
  · exact hs
  · exact hs.frame.setAbsent.lockWbld

theorem State.memOk.endMat {s : State} {bent op cid : Nat} (hs : s.memOk) : (s.endMat bent op cid).memOk := by
  unfold State.endMat
  exact hs.frame.modCourse.unlock.finishOp.drainTiles

theorem State.memOk.poisonMat {s : State} {bent op cid : Nat} {o : Op} {tile : Option Nat} {u : Nat} (hs : s.memOk) :
    (s.poisonMat bent op cid o tile u).memOk := by
  unfold State.poisonMat
  refine (State.memOk.lateTrap ?_).endMat
  split
  · exact hs.setTile
  · exact hs

theorem State.memOk.formStep {s : State} {bent op : Nat} {o : Op} {cid : Nat} {c : Course} {m : Mat} (hs : s.memOk) :
    (s.formStep bent op o cid c m).memOk := by
  unfold State.formStep
  dsimp only
  split
  · exact hs
  split
  · exact hs.poisonMat
  · exact hs.setOp

theorem State.memOk.mulStep {s : State} {bent op : Nat} {o : Op} {cid : Nat} {c : Course} {m : Mat} {a b : Ty} {kstep : Nat}
    (hs : s.memOk) : (s.mulStep bent op o cid c m a b kstep).memOk := by
  unfold State.mulStep
  extract_lets k t steps st sz rows fresh reads own s₁ r n s₂
  split
  · exact hs
  split
  · exact hs.poisonMat
  have h₁ : s₁.memOk := by
    unfold s₁
    split
    · exact hs.zeroRows
    · exact hs
  have hr : r.1.memOk := by
    unfold r
    split
    · exact h₁.takeStep
    · exact h₁
  have h₂ : s₂.memOk := hr.setTile
  split
  · exact h₂
  · exact h₂.frame

theorem State.memOk.wholeStep {s : State} {bent op : Nat} {o : Op} {cid : Nat} {c : Course} {m : Mat} (hs : s.memOk) :
    (s.wholeStep bent op o cid c m).memOk := by
  unfold State.wholeStep
  extract_lets k fin tile
  have hfin : ∀ t : State, t.memOk → (fin t).memOk := fun t h => h.frame
  split
  · exact hfin _ hs.poke.setTile
  · split
    · exact hs
    dsimp only
    split
    · exact hs
    split
    · exact hs.poisonMat
    · exact hfin _ hs.loadRows
  · split
    · exact hs
    split
    · exact hs
    split
    · exact hs.poisonMat
    · exact hfin _ hs.storeRows.setTile
  split
  · exact hs
  split
  · exact hs.poisonMat
  · exact hfin _ hs.dropGrow

theorem execMatrixStep_memOk {bent : Nat} {s : State} (hs : s.memOk) : answerOk (execMatrixStep bent s) := by
  unfold execMatrixStep
  dsimp only
  split
  · exact hs
  split
  · exact hs
  split
  · exact hs
  split
  · exact hs
  · split
    · exact hs.formStep
    · exact hs.mulStep
  · exact hs.mulStep
  · exact hs.wholeStep

theorem execMatrixOpComplete_memOk {bent : Nat} {s : State} (hs : s.memOk) : answerOk (execMatrixOpComplete bent s) := by
  unfold execMatrixOpComplete
  dsimp only
  split
  · exact hs
  split
  · exact hs
  split
  · exact hs.endMat
  · exact hs

theorem execWbldLineArrival_memOk {bent j : Nat} {s : State} (hs : s.memOk) : answerOk (execWbldLineArrival bent j s) := by
  unfold execWbldLineArrival
  dsimp only
  split
  · exact hs
  split
  · exact hs
  split
  · exact hs
  split
  · split
    · exact hs
    split
    · exact hs.pokeFrom.pokeFrom.frame.endMat
    · exact hs.pokeFrom.pokeFrom.frame
  · exact hs

/-! ### Functions of Machine/Fetch -/

theorem State.memOk.unbind {s : State} {env : Env} {slot : Nat} (hs : s.memOk) : (s.unbind env slot).memOk := by
  unfold State.unbind
  split
  · exact hs
  · exact hs.modCourse.addSilent

theorem fbindBody_memOk {x : Args} {env : Env} {s : State} (hs : s.memOk) : (fbindBody x env s).memOk := by
  unfold fbindBody
  split
  · exact hs.addOp
  dsimp only
  split
  · trivial
  refine awaitBlock_memOk hs ?_
  split
  · trivial
  split
  · trivial
  split
  · trivial
  · exact hs.unbind.addOp.modCourse.lockRanges

theorem execFbindComplete_memOk {op : Nat} {s : State} (hs : s.memOk) : answerOk (execFbindComplete op s) := by
  unfold execFbindComplete
  split
  · exact hs
  split
  · split
    · split
      · dsimp only
        split
        · exact hs
        · exact hs.modCourse.finishOp
      dsimp only
      split
      · exact hs
      · exact hs.modCourse.finishOp
    dsimp only
    split
    · exact hs
    · exact hs.modCourse.finishOp
  · exact hs

theorem fetchBody_memOk {x : Args} {env : Env} {s : State} (hs : s.memOk) : (fetchBody x env s).memOk := by
  unfold fetchBody
  split
  · dsimp only
    split
    · exact hs.addOp
    · trivial
  dsimp only
  split
  · exact hs.addOp
  split
  · trivial
  split
  · trivial
  split
  · trivial
  split
  · exact hs
  split
  · trivial
  · exact hs.addOp

theorem State.memOk.fetchDone {s : State} {op : Nat} {o : Op} {bind : Nat} {words : List Word} {d : Opnd} {l : List (Nat × List Nat)}
    (hs : s.memOk) :
    (s.fetchDone op o bind words d l).memOk := by
  unfold State.fetchDone
  split
  · dsimp only
    split
    · exact hs
    split
    · exact hs.lateTrap.finishOp
    · exact hs.lateTrap.finishOp
    · exact hs.putOp.finishOp
  · exact hs

theorem execFunbind_memOk {x : Args} {s : State} (hs : s.memOk) : answerOk (execFunbind x s) := by
  unfold execFunbind
  refine issue_memOk hs fun env t h => ?_
  split
  · exact h
  split
  · exact h.queueSilent
  · exact h.unbind

theorem execFunbindRelease_memOk {op : Nat} {s : State} (hs : s.memOk) : answerOk (execFunbindRelease op s) := by
  unfold execFunbindRelease
  split
  · exact hs
  split
  · dsimp only
    split
    · exact hs
    · exact hs.unlock.finishOp
  · exact hs

theorem State.memOk.startCopy {s : State} {id core ctx : Nat} {co : Option Course} {c : Copy} {node : Option (Nat × Nat)} (hs : s.memOk) :
    (s.startCopy id core ctx co c node).memOk := by
  unfold State.startCopy
  exact hs.clearLines.setOp.lockRanges

theorem copyOp_memOk {x : Args} {c : Copy} {env : Env} {s : State} (hs : s.memOk) : (copyOp x c env s).memOk := by
  unfold copyOp
  split
  · trivial
  · exact hs.addOp.startCopy

theorem cpBody_memOk {x : Args} {env : Env} {s : State} (hs : s.memOk) : (cpBody x env s).memOk := by
  unfold cpBody
  split
  · exact hs.addOp
  dsimp only
  split
  · trivial
  · exact copyOp_memOk hs

theorem cpDBody_memOk {x : Args} {env : Env} {s : State} (hs : s.memOk) : (cpDBody x env s).memOk := by
  unfold cpDBody
  split
  · exact hs.addOp
  dsimp only
  split
  · trivial
  refine awaitBlock_memOk hs ?_
  split
  · trivial
  split
  · trivial
  · exact copyOp_memOk hs

theorem execCopyEngineAcquire_memOk {op : Nat} {s : State} (hs : s.memOk) : answerOk (execCopyEngineAcquire op s) := by
  unfold execCopyEngineAcquire
  split
  · exact hs
  split
  · dsimp only
    split
    · exact hs
    · exact hs.setOp
  · exact hs

theorem State.memOk.failOp {s : State} {op : Nat} {o : Op} {t : Trap} (hs : s.memOk) : (s.failOp op o t).memOk := by
  unfold State.failOp
  exact hs.lateTrap.unlock.finishOp.nodeEnded

theorem State.memOk.signalDec {s : State} {core ctx : Nat} {sig : Word} (hs : s.memOk) :
    ExHolds State.memOk (s.signalDec core ctx sig) := by
  unfold State.signalDec
  split
  · exact hs
  split
  · trivial
  · exact hs.pokeNat

theorem execCpComplete_memOk {op : Nat} {s : State} (hs : s.memOk) : answerOk (execCpComplete op s) := by
  unfold execCpComplete
  split
  · exact hs
  split
  · dsimp only
    split
    · split
      · exact hs
      split
      · exact (hs.writeMarked.arriveLines.signalDec.of ‹_›).unlock.finishOp.nodeEnded
      · exact hs.writeMarked.arriveLines.failOp
    · exact hs
  · exact hs

theorem State.memOk.markOvls {s : State} {core ctx slot id op : Nat} (hs : s.memOk) : (s.markOvls core ctx slot id op).memOk := hs

theorem ovlLdBody_memOk {x : Args} {env : Env} {s : State} (hs : s.memOk) : (ovlLdBody x env s).memOk := by
  unfold ovlLdBody
  split
  · exact hs.addOp
  dsimp only
  split
  · trivial
  split
  · trivial
  split
  · trivial
  split
  · trivial
  split
  · trivial
  · exact hs.addOp.markOvls.lockRanges

theorem State.memOk.wakeOvl {s : State} {core ctx id : Nat} (hs : s.memOk) : (s.wakeOvl core ctx id).memOk := hs

theorem execOvlUnload_memOk {op : Nat} {s : State} (hs : s.memOk) : answerOk (execOvlUnload op s) := by
  unfold execOvlUnload
  split
  · exact hs
  split
  · dsimp only
    split
    · exact hs
    · exact hs.frame.setOp
  · exact hs

theorem State.memOk.installOvl {s : State} {core slot id ctx va n : Nat} {data : List Byte} (hs : s.memOk) :
    (s.installOvl core slot id ctx va n data).memOk := by
  unfold State.installOvl
  exact hs.poke.frame

theorem execOvlLdComplete_memOk {op : Nat} {s : State} (hs : s.memOk) : answerOk (execOvlLdComplete op s) := by
  unfold execOvlLdComplete
  split
  · exact hs
  split
  · dsimp only
    split
    · exact hs
    split
    · exact hs
    split
    · exact hs.failOp.wakeOvl
    · exact hs.unlock.finishOp.installOvl.wakeOvl
  · exact hs

theorem State.memOk.copyBegun {s : State} {core ctx : Nat} {c : Copy} (hs : s.memOk) : (s.copyBegun core ctx c).memOk := by
  unfold State.copyBegun
  exact hs.freeWord.writeMarked

theorem execEngineFault_memOk {op : Nat} {s : State} (hs : s.memOk) : answerOk (execEngineFault op s) := by
  unfold execEngineFault
  split
  · exact hs
  split
  · exact hs
  split
  · dsimp only
    split
    · exact hs
    · exact hs.copyBegun.arriveLines.failOp
  · exact hs.failOp.wakeOvl
  · split
    · dsimp only
      split
      · exact hs.dropBent.lateTrap.endMat
      · exact hs
    · exact hs
  · exact hs

/-! ### Functions of Machine/Crews -/

theorem State.memOk.modCrew {s : State} {core ctx k : Nat} {f : CrewEnt → CrewEnt} (hs : s.memOk) : (s.modCrew core ctx k f).memOk := by
  unfold State.modCrew
  split
  · exact hs.pokeNat
  · exact hs

theorem State.memOk.crewCount {s : State} {cid k : Nat} {halt : Bool} (hs : s.memOk) : (s.crewCount cid k halt).memOk := by
  unfold State.crewCount
  split
  · exact hs
  · exact hs.modCrew.modCourse

theorem State.memOk.crewLeave {s : State} {cid l : Nat} (hs : s.memOk) : (s.crewLeave cid l).memOk := by
  unfold State.crewLeave
  split
  · exact hs
  split
  · exact hs
  refine State.memOk.modCrew ?_
  split
  · exact hs.setCourse.crewCount
  · exact hs.setCourse

theorem State.memOk.crewJoin {s : State} {cid l k : Nat} (hs : s.memOk) : (s.crewJoin cid l k).memOk := by
  unfold State.crewJoin
  split
  · exact hs
  split
  · exact hs
  split
  · exact hs.crewLeave.modCrew.modCourse.crewCount
  · exact hs.crewLeave.modCrew.modCourse

theorem State.memOk.crewHalt {s : State} {cid : Nat} {halt : Bool} (hs : s.memOk) : (s.crewHalt cid halt).memOk := by
  unfold State.crewHalt
  split
  · exact hs
  · exact hs.foldl fun _ _ h => h.crewCount

theorem State.memOk.endCrews {s : State} {ctx : Nat} (hs : s.memOk) : (s.endCrews ctx).memOk :=
  State.memOk.foldl hs fun _ _ h => h.modCrew

theorem crewOp_memOk {x : Args} {l : List (Nat × Option Nat)} {env : Env} {s : State} (hs : s.memOk) : (crewOp x l env s).memOk := by
  unfold crewOp
  split
  · trivial
  · exact hs.addOp

theorem execCrewJoin_memOk {x : Args} {s : State} (hs : s.memOk) : answerOk (execCrewJoin x s) := by
  unfold execCrewJoin
  refine issue_memOk hs fun env t h => ?_
  dsimp only
  split
  · trivial
  · exact crewOp_memOk h

theorem execCrewInfo_memOk {x : Args} {s : State} (hs : s.memOk) : answerOk (execCrewInfo x s) := by
  unfold execCrewInfo
  refine issue_memOk hs fun env t h => ?_
  dsimp only
  split
  · exact h
  split
  · trivial
  split
  · exact h.putScalar
  split
  · trivial
  · exact h.putScalar

theorem execCrewEventApply_memOk {op : Nat} {s : State} (hs : s.memOk) : answerOk (execCrewEventApply op s) := by
  unfold execCrewEventApply
  split
  · exact hs
  split
  · split
    · split
      · dsimp only
        split <;> exact hs
      dsimp only
      split
      · exact hs
      · exact hs.setOp.notify
    dsimp only
    split
    · exact hs
    refine (hs.foldl ?_).finishOp
    intro t a h
    split
    · exact h.crewJoin
    · exact h.crewLeave
  · exact hs

/-! ### Functions of Machine/Barriers -/

theorem State.memOk.barCourses {s : State} {ctx key : Nat} {f : Nat → Course → Course} (hs : s.memOk) : (s.barCourses ctx key f).memOk := by
  unfold State.barCourses
  exact hs.frame.foldl fun _ _ h => h.inRecord fun _ ht => ht.modCourse

theorem State.memOk.releasePhase {s : State} {ctx key : Nat} (hs : s.memOk) : (s.releasePhase ctx key).memOk := by
  unfold State.releasePhase
  split
  · exact hs
  · exact hs.barCourses.frame

theorem State.memOk.countDown {s : State} {ctx key : Nat} (hs : s.memOk) : (s.countDown ctx key).memOk := by
  unfold State.countDown
  split
  · exact hs
  split
  · exact hs.frame.releasePhase
  · exact hs.frame

theorem State.memOk.dropExpect {s : State} {ctx key : Nat} (hs : s.memOk) : (s.dropExpect ctx key).memOk := by
  unfold State.dropExpect
  split
  · exact hs
  · exact hs.frame

theorem State.memOk.arriveLane {s : State} {cid b mode l : Nat} (hs : s.memOk) : OptHolds State.memOk (s.arriveLane cid b mode l) := by
  unfold State.arriveLane
  split
  · exact hs
  extract_lets key E A bit setE setA t u v w
  have hE : ∀ t on, t.memOk → (setE t on).memOk := fun _ _ h => h.inRecord fun _ h => h.modCourse
  have hA : ∀ t on, t.memOk → (setA t on).memOk := fun _ _ h => h.inRecord fun _ h => h.modCourse
  split
  · split
    · trivial
    · exact hs
  extract_lets drained
  have ht : t.memOk := hA _ _ (hE _ _ hs)
  have hv : v.memOk := hA _ _ (hE _ _ hs)
  have hw : w.memOk := by
    unfold w
    split
    · exact hv.dropExpect
    · exact hv
  split
  · exact hE _ _ hs
  split
  · split
    · exact ht
    split
    · exact ht.dropExpect
    · exact ht.dropExpect.countDown
  split
  · exact hE _ _ hs
  split
  · trivial
  · exact hw.countDown

theorem State.memOk.arriveAll {s : State} {op cid b mode : Nat} {blocked held l : List Nat} (hs : s.memOk) :
    (s.arriveAll op cid b mode blocked held l).memOk := by
  induction l generalizing s held with
  | nil => exact hs.setOp
  | cons i l ih =>
    unfold State.arriveAll
    split
    next t he =>
      split at he
      · cases he
      · exact ih (hs.setOp.arriveLane.of he)
    · exact ih hs

theorem State.memOk.cancelHeld {s : State} {cid b : Nat} {lanes : List Nat} (hs : s.memOk) : (s.cancelHeld cid b lanes).memOk := by
  unfold State.cancelHeld
  refine hs.foldl fun t a h => ?_
  dsimp only
  split
  · exact h.finishOp
  · exact h.setOp

theorem execBarArrivalApply_memOk {op : Nat} {s : State} (hs : s.memOk) : answerOk (execBarArrivalApply op s) := by
  unfold execBarArrivalApply
  split
  · exact hs
  split
  · split
    · dsimp only
      split
      · exact hs
      split
      · exact hs.cancelHeld.arriveAll.finishOp
      · exact hs.cancelHeld.arriveAll
    dsimp only
    split
    · exact hs
    split
    · exact hs.arriveAll.finishOp
    · exact hs.arriveAll
  · exact hs

/-- The body is a match on a walk of the page tables. It is unfolded as a function, so that the kernel compares the two sides without
running the walk. -/
theorem State.memOk.saveBar {s : State} {core key : Nat} {r : Barrier} (hs : s.memOk) : OptHolds State.memOk (s.saveBar core key r) := by
  generalize hf : @State.saveBar = f
  delta State.saveBar at hf
  subst hf
  beta_reduce
  split
  · trivial
  · exact hs.pokeNat.frame

/-- The body is a match on a walk of the page tables. It is unfolded as a function, so that the kernel compares the two sides without
running the walk. -/
theorem State.memOk.barImageClear {s : State} {core ctx key : Nat} (hs : s.memOk) : (s.barImageClear core ctx key).memOk := by
  generalize hf : @State.barImageClear = f
  delta State.barImageClear at hf
  subst hf
  beta_reduce
  split
  · exact hs.pokeNat
  · exact hs

/-- `State.translate` is made opaque first: otherwise the kernel runs it in order to compare the branches. -/
theorem State.memOk.restoreBar {s : State} {core ctx key : Nat} (hs : s.memOk) : (s.restoreBar core ctx key).memOk := by
  obtain ⟨tr, htr⟩ : ∃ tr, tr = State.translate := ⟨_, rfl⟩
  obtain ⟨cl, hcl⟩ : ∃ cl, cl = State.barImageClear := ⟨_, rfl⟩
  have hclear : ∀ t core ctx key, t.memOk → (cl t core ctx key).memOk := fun t _ _ _ h => by
    rw [hcl]
    exact h.barImageClear
  unfold State.restoreBar
  rw [← htr, ← hcl]
  extract_lets room
  have hroom : OptHolds State.memOk room := by
    unfold room
    split
    · exact hs
    split
    · exact hs
    split
    · exact hs.saveBar
    · trivial
  clear_value room
  cases room with
  | none => exact hs
  | some t =>
    have ht : t.memOk := hroom
    dsimp only
    split
    · exact ht
    · exact (hclear _ _ _ _ ht).frame

theorem State.memOk.restoreBars {s : State} {core ctx : Nat} (hs : s.memOk) : (s.restoreBars core ctx).memOk := by
  unfold State.restoreBars
  split
  · exact hs.foldl fun _ _ h => h.restoreBar
  · exact hs

theorem State.memOk.bindBar {s : State} {ctx key n : Nat} (hs : s.memOk) : (s.bindBar ctx key n).memOk := by
  unfold State.bindBar
  exact hs.barCourses.frame

theorem State.memOk.barBind {s : State} {core ctx b n : Nat} (hs : s.memOk) : OptHolds (fun r => r.1.memOk) (s.barBind core ctx b n) := by
  unfold State.barBind
  dsimp only
  split
  · trivial
  split
  · exact OptHolds.intro hs.bindBar
  split
  · exact OptHolds.intro hs.bindBar
  split
  · split
    · exact OptHolds.intro hs.frame
    · exact OptHolds.intro hs
  split
  · exact hs.saveBar.map fun _ h => h.bindBar
  · exact OptHolds.intro hs

theorem State.memOk.barRelease {s : State} {ctx key : Nat} (hs : s.memOk) : (s.barRelease ctx key).memOk := by
  unfold State.barRelease
  split
  · exact hs
  · exact (hs.foldl fun _ _ h => h.finishOp).barCourses.frame

theorem State.memOk.tellSave {s : State} {cid : Nat} (hs : s.memOk) : (s.tellSave cid).memOk := by
  unfold State.tellSave
  split
  · exact hs
  split
  · exact hs
  · exact hs.setCourse.notify

theorem State.memOk.barOpDone {s : State} {op : Nat} {o : Op} (hs : s.memOk) : (s.barOpDone op o).memOk := by
  unfold State.barOpDone
  split
  · split
    · split
      · exact hs
      split
      · exact ((hs.barBind.of ‹_›).inRecord fun _ h => h.setPred).finishOp
      split
      · exact hs
      · exact hs.tellSave
    · split
      · exact hs
      · exact hs.barRelease.finishOp
    · exact hs
  · exact hs

theorem execBarBind_memOk {x : Args} {s : State} (hs : s.memOk) : answerOk (execBarBind x s) := by
  unfold execBarBind
  refine issue_memOk hs fun env t h => ?_
  split
  · dsimp only
    split
    · exact h.addOp
    · trivial
  split
  · dsimp only
    split
    · exact h.addOp
    split
    · trivial
    · exact h.addOp
  dsimp only
  split
  · exact h.addOp
  split
  · trivial
  · exact h.addOp

theorem arriveOp_memOk {x : Args} {mode : Nat} {env : Env} {s : State} (hs : s.memOk) : (arriveOp x mode env s).memOk := by
  unfold arriveOp
  split
  · dsimp only
    split
    · exact hs.addOp
    · trivial
  split
  · dsimp only
    split
    · exact hs.addOp
    · trivial
  dsimp only
  split <;> exact hs.addOp

theorem execBarWait_memOk {x : Args} {s : State} (hs : s.memOk) : answerOk (execBarWait x s) := by
  unfold execBarWait
  refine issue_memOk hs fun env t h => ?_
  extract_lets act p
  split
  · exact h
  split
  · trivial
  · exact h

theorem execBarFree_memOk {x : Args} {s : State} (hs : s.memOk) : answerOk (execBarFree x s) := by
  unfold execBarFree
  refine issue_memOk hs fun env t h => ?_
  split
  · exact h.addOp
  split
  · trivial
  · exact h.addOp

theorem execBarReleaseWake_memOk {cid p : Nat} {s : State} (hs : s.memOk) : answerOk (execBarReleaseWake cid p s) := by
  unfold execBarReleaseWake
  split
  · split
    · split
      · exact hs.setPath
      · exact hs
    · exact hs
  · exact hs

/-! ### Functions of Machine/Save -/

theorem State.memOk.saveRow {s : State} {cid j : Nat} (hs : s.memOk) : OptHolds State.memOk (s.saveRow cid j) := by
  unfold State.saveRow
  split
  · exact hs
  split
  · trivial
  · exact hs.rowAt.setCourse.saveHead

theorem State.memOk.loadRow {s : State} {cid j : Nat} (hs : s.memOk) : OptHolds State.memOk (s.loadRow cid j) := by
  unfold State.loadRow
  split
  · exact hs
  split
  · trivial
  · exact hs.frame.setCourse

theorem State.memOk.blankRow {s : State} {cid j : Nat} (hs : s.memOk) : (s.blankRow cid j).memOk := by
  unfold State.blankRow
  split
  · exact hs
  extract_lets r key
  have hr : r.1.memOk := State.memOk.foldl_fst hs fun _ _ h => h.freeWord
  exact hr.frame.setCourse

theorem State.memOk.rowsBack {s : State} {cid : Nat} {c : Course} (hs : s.memOk) : OptHolds State.memOk (s.rowsBack cid c) := by
  unfold State.rowsBack
  refine OptHolds.foldlM hs fun t a h => ?_
  split
  · exact h.loadRow
  split
  · exact h.blankRow
  · exact h

theorem State.memOk.claimSlot {s : State} {core k : Nat} (hs : s.memOk) : OptHolds State.memOk (s.claimSlot core k) := by
  unfold State.claimSlot
  split
  · exact hs
  · exact hs.saveBody.map fun _ h => h.setCourse

theorem State.memOk.claimRows {s : State} {core : Nat} {l : List Nat} (hs : s.memOk) : OptHolds State.memOk (s.claimRows core l) := by
  induction l generalizing s with
  | nil => exact hs
  | cons r l ih =>
    unfold State.claimRows
    split
    · exact ih hs
    · exact hs.saveRow.bind fun _ h => ih h

theorem State.memOk.unreclaim {s : State} {ids : List Nat} (hs : s.memOk) : (s.unreclaim ids).memOk := by
  unfold State.unreclaim
  exact hs.foldl fun _ _ h => h.modCourse

theorem State.memOk.claim {s : State} {core k base n : Nat} (hs : s.memOk) : OptHolds State.memOk (s.claim core k base n) := by
  unfold State.claim
  exact (hs.claimSlot.bind fun _ h => h.claimRows).map fun _ h => h.unreclaim

theorem State.memOk.tileBack {s : State} {cid k : Nat} (hs : s.memOk) : OptHolds State.memOk (s.tileBack cid k) := by
  unfold State.tileBack
  split
  · exact hs.loadTile
  · split
    · exact hs.saveTile.bind fun _ h => h.loadTile
    · exact hs
  · exact hs.saveTile.bind fun _ h => h.loadTile
  · exact hs

theorem State.memOk.capacityBack {s : State} {cid : Nat} {c : Course} (hs : s.memOk) : OptHolds State.memOk (s.capacityBack cid c) := by
  unfold State.capacityBack
  extract_lets back
  have hback : ∀ t, t.memOk → OptHolds State.memOk (back t) := fun t ht => by
    refine ht.claimRows.bind fun u hu => hu.rowsBack.bind fun v hv => .bind_any fun d => ?_
    extract_lets body
    have hbody : ∀ e, OptHolds State.memOk (body e) := fun e => by
      unfold body
      split
      · exact hv.setCourse
      · exact hv.setCourse.saveHead
    split
    · exact .bind_any hbody
    · exact hbody _
  split
  · exact hs.claimSlot.bind hback
  · exact hback s hs

theorem State.memOk.tryResume {s : State} {cid : Nat} (hs : s.memOk) : (s.tryResume cid).memOk := by
  unfold State.tryResume
  split
  · exact hs
  extract_lets c t ids
  have ht : t.memOk := by
    unfold t
    split
    · exact hs.setCourse
    · exact hs
  clear_value t
  split
  · split
    · exact ht.restoreBars
    · exact ht
  split
  · exact ht
  split
  · exact ht.tellSave
  next u hu =>
    extract_lets v w
    have hv : v.memOk := (ht.capacityBack.of hu).unreclaim
    have hw : w.memOk := by
      unfold w
      split
      next b hb => exact ((OptHolds.foldlM hv fun _ _ h => h.tileBack).of hb).modCourse
      next => exact hv.tellSave
    exact hw.crewHalt.restoreBars

theorem State.memOk.clearRecord {s : State} {c : Course} (hs : s.memOk) : (s.clearRecord c).memOk := by
  unfold State.clearRecord
  split
  · split
    · exact hs.pokeNat
    · exact hs
  · exact hs

/-! ### Functions of Machine/Kernels -/

theorem launchBody_memOk {x : Args} {env : Env} {s : State} (hs : s.memOk) : (launchBody x env s).memOk := by
  unfold launchBody
  split
  · exact hs.addOp
  dsimp only
  split
  · trivial
  split
  · trivial
  refine awaitBlock_memOk hs ?_
  split
  · trivial
  split
  · trivial
  · exact hs.addOp

theorem State.memOk.startKernel {s : State} {core ctx : Nat} {w : List Word} {node : Option (Nat × Nat)} {batch : Option Word}
    {graft : Option (Word × SliceHead)} {prio crew : Nat} (hs : s.memOk) :
    OptHolds State.memOk (s.startKernel core ctx w node batch graft prio crew) := by
  unfold State.startKernel
  extract_lets entry w' threads k
  split
  · trivial
  · exact hs.frame

theorem State.memOk.ensureOvl {s : State} {core ctx id va n : Nat} (hs : s.memOk) : (s.ensureOvl core ctx id va n).memOk := by
  unfold State.ensureOvl
  split
  · exact hs
  · exact hs.frame.markOvls.lockRanges

theorem State.memOk.placeCourse {s : State} {kern : Nat} {k : Kernel} {p : Spot} (hs : s.memOk) : (s.placeCourse kern k p).memOk := by
  unfold State.placeCourse
  dsimp only
  split
  · exact hs.frame.ensureOvl
  · exact hs.frame

theorem State.memOk.tellKernel {s : State} {kern : Nat} {k : Kernel} {p : Spot} (hs : s.memOk) : (s.tellKernel kern k p).memOk := by
  unfold State.tellKernel
  split
  · exact hs
  · exact hs.frame.notify

theorem execPlacement_memOk {kern : Nat} {s : State} (hs : s.memOk) : answerOk (execPlacement kern s) := by
  unfold execPlacement
  split
  · exact hs
  split
  · exact hs
  split
  · exact hs
  split
  · exact (hs.claim.of ‹_›).placeCourse
  · exact hs.tellKernel

theorem State.memOk.zeroSegment {s : State} {c : Course} (hs : s.memOk) : (s.zeroSegment c).memOk := by
  unfold State.zeroSegment
  exact hs.foldl fun _ _ h => h.frame

theorem State.memOk.launchWords {s : State} {c : Course} {live : LaneMask} (hs : s.memOk) : (s.launchWords c live).memOk := by
  unfold State.launchWords
  exact ((hs.foldl fun _ _ h => h.privTry).foldl fun _ _ h => h.privTry).privTry

theorem execCourseStart_memOk {cid : Nat} {s : State} (hs : s.memOk) : answerOk (execCourseStart cid s) := by
  unfold execCourseStart
  split
  · exact hs
  split
  · exact hs
  split
  · exact hs
  split
  · exact hs
  split
  · exact hs.ensureOvl
  split
  · dsimp only
    split
    · exact hs
    · exact hs.zeroSegment.launchWords.modCourse.foldl fun _ _ h => h.crewJoin
  dsimp only
  split
  · exact hs
  · exact hs.zeroSegment.launchWords.modCourse.foldl fun _ _ h => h.crewJoin

/-! ### Functions of Machine/Queues -/

theorem signalOp_memOk {x : Args} {m : MemOp} {v : Word} {env : Env} {s : State} (hs : s.memOk) : (signalOp x m v env s).memOk := by
  unfold signalOp
  split
  · exact hs.addOp
  split
  · trivial
  · exact hs.addOp

theorem execSigWait_memOk {x : Args} {s : State} (hs : s.memOk) : answerOk (execSigWait x s) := by
  unfold execSigWait
  refine issue_memOk hs fun env t h => ?_
  split
  · exact h
  split
  · trivial
  split
  · dsimp only
    split
    · trivial
    · exact h.setPath
  split
  · dsimp only
    split
    · trivial
    · exact h
  dsimp only
  split
  · trivial
  · exact h

theorem State.memOk.walkerPut {s : State} {core ctx va n : Nat} (hs : s.memOk) : (s.walkerPut core ctx va n).memOk := by
  unfold State.walkerPut
  split
  · exact hs.pokeNat
  · exact hs

theorem State.memOk.putNode {s : State} {q : Nat} {v : Queue} {slot k n : Nat} (hs : s.memOk) : (s.putNode q v slot k n).memOk := by
  unfold State.putNode
  exact hs.walkerPut

theorem State.memOk.setNode {s : State} {q : Nat} {v : Queue} {slot st : Nat} (hs : s.memOk) : (s.setNode q v slot st).memOk := by
  unfold State.setNode
  exact hs.putNode

theorem State.memOk.modNode {s : State} {q slot : Nat} {f : NodeRun → NodeRun} (hs : s.memOk) : (s.modNode q slot f).memOk := hs

theorem State.memOk.syncQueue {s : State} {q : Nat} (hs : s.memOk) : (s.syncQueue q).memOk := by
  unfold State.syncQueue
  split
  · exact hs
  · exact hs.walkerPut.walkerPut.walkerPut

theorem State.memOk.advanceHead {s : State} {n q : Nat} (hs : s.memOk) : (State.advanceHead n s q).memOk := by
  induction n generalizing s with
  | zero => exact hs
  | succ n ih =>
    unfold State.advanceHead
    split
    · exact hs
    dsimp only
    split
    · exact hs
    · exact ih hs.setNode.frame

theorem State.memOk.settleQueue {s : State} {q : Nat} (hs : s.memOk) : (s.settleQueue q).memOk := by
  unfold State.settleQueue
  split
  · exact hs
  refine State.memOk.syncQueue ?_
  split
  · split
    · exact hs.advanceHead.frame
    · exact hs.advanceHead
  · exact hs.advanceHead

theorem State.memOk.queueOff {s : State} {q : Nat} (hs : s.memOk) : (s.queueOff q).memOk := by
  unfold State.queueOff
  split
  · exact hs
  refine State.memOk.frame ?_
  exact hs.frame.syncQueue

theorem State.memOk.queueStop {s : State} {q : Nat} (hs : s.memOk) : (s.queueStop q).memOk := by
  unfold State.queueStop
  split
  · exact hs
  split
  · exact hs.frame.syncQueue
  · exact hs

theorem State.memOk.rearm {s : State} {q : Nat} {v : Queue} {w : Nat} (hs : s.memOk) : (s.rearm q v w).memOk := by
  unfold State.rearm
  refine hs.foldl fun t a h => ?_
  dsimp only
  split
  · exact h
  · exact h.putNode

theorem State.memOk.whileTurn {s : State} {q : Nat} {v : Queue} {w : Nat} (hs : s.memOk) : (s.whileTurn q v w).1.memOk := by
  unfold State.whileTurn
  split
  · dsimp only
    exact hs.modNode
  · dsimp only
    exact hs.modNode
  dsimp only
  exact hs.putNode.rearm

theorem State.memOk.arriveNode {s : State} {fuel q src slot : Nat} {live : Bool} (hs : s.memOk) :
    (State.arriveNode fuel s q src slot live).memOk := by
  induction fuel generalizing s src slot live with
  | zero => exact hs
  | succ fuel ih =>
    unfold State.arriveNode
    split
    · exact hs
    split
    · exact hs
    extract_lets w r left lives st t j
    split
    · split
      · exact ih hs.whileTurn
      · exact hs.whileTurn
    split
    · exact hs
    split
    · exact hs.putNode.foldl fun _ _ h => ih h
    · exact hs.putNode

theorem State.memOk.sendArrivals {s : State} {q slot : Nat} {cond : Bool} (hs : s.memOk) : (s.sendArrivals q slot cond).memOk := by
  unfold State.sendArrivals
  split
  · exact hs
  · exact hs.foldl fun _ _ h => h.arriveNode

theorem State.memOk.launchSlice {s : State} {q slot : Nat} (hs : s.memOk) : (s.launchSlice q slot).memOk := by
  unfold State.launchSlice
  split
  · exact hs
  dsimp only
  split
  · split
    · exact hs.modNode
    split
    · exact hs.modNode
    split
    · exact hs.modNode
    split
    · exact hs.modNode
    · exact (hs.startKernel.of ‹_›).modNode
  · exact hs.modNode

theorem State.memOk.walkerOp {s : State} {ctx : Nat} {k : OpKind} (hs : s.memOk) : (s.walkerOp ctx k).memOk := hs

theorem State.memOk.watchSignal {s : State} {q slot core ctx va cc : Nat} {v : Word} (hs : s.memOk) :
    (s.watchSignal q slot core ctx va cc v).memOk := by
  unfold State.watchSignal
  split
  · exact hs.modNode
  · split <;> exact hs.modNode

theorem State.memOk.startCopyNode {s : State} {q slot : Nat} {v : Queue} {w : List Word} (hs : s.memOk) :
    (s.startCopyNode q slot v w).memOk := by
  unfold State.startCopyNode
  split
  · exact hs.modNode
  dsimp only
  split
  · exact hs.modNode
  · exact hs.walkerOp.startCopy.modNode

theorem State.memOk.startMedia {s : State} {q slot : Nat} {v : Queue} {w : List Word} (hs : s.memOk) : (s.startMedia q slot v w).memOk := by
  unfold State.startMedia
  dsimp only
  split
  · exact hs.modNode
  · exact hs.modNode
  · exact hs.modNode
  split
  · exact hs.modNode
  split
  · exact hs.modNode
  · exact hs.walkerOp.modNode

theorem State.memOk.startStorage {s : State} {q slot : Nat} {v : Queue} {w : List Word} (hs : s.memOk) :
    (s.startStorage q slot v w).memOk := by
  unfold State.startStorage
  dsimp only
  split
  · exact hs.modNode
  split
  · exact hs.modNode
  · exact hs.walkerOp.lockRanges.modNode

theorem State.memOk.runNode {s : State} {q slot : Nat} {v : Queue} (hs : s.memOk) : (s.runNode q slot v).memOk := by
  unfold State.runNode
  split
  · exact hs.modNode
  split
  · exact hs.modNode
  · dsimp only
    split
    · exact hs.modNode
    · exact (hs.startKernel.of ‹_›).modNode
  · exact hs.startCopyNode
  · dsimp only
    split
    · exact hs.pokeNat.modNode
    · exact hs.modNode
    · exact hs.modNode
  · exact hs.watchSignal
  · dsimp only
    split <;> exact hs.modNode
  · dsimp only
    split
    · exact hs.whileTurn.arriveNode
    · exact hs.whileTurn
  · dsimp only
    split
    · exact hs.watchSignal.launchSlice
    · exact hs.watchSignal
  · exact hs.startMedia
  · exact hs.startStorage

theorem execNodeStart_memOk {q slot : Nat} {s : State} (hs : s.memOk) : answerOk (execNodeStart q slot s) := by
  unfold execNodeStart
  split
  · exact hs
  split
  · exact hs
  · exact hs.setNode.frame.runNode.settleQueue

theorem State.memOk.leaveRun {s : State} {q : Nat} {v : Queue} {r : NodeRun} (hs : s.memOk) : (s.leaveRun q v r).memOk := by
  unfold State.leaveRun
  refine State.memOk.putNode (State.memOk.frame ?_)
  split
  · exact hs.frame
  · exact hs

theorem execNodeComplete_memOk {q slot : Nat} {s : State} (hs : s.memOk) : answerOk (execNodeComplete q slot s) := by
  unfold execNodeComplete
  split
  · split
    · exact hs
    · exact hs.leaveRun.setNode.sendArrivals.settleQueue
  · exact hs

theorem execNodeFault_memOk {q slot : Nat} {s : State} (hs : s.memOk) : answerOk (execNodeFault q slot s) := by
  unfold execNodeFault
  split
  · split
    · exact hs
    · exact hs.leaveRun.setNode.putNode.frame.settleQueue.notify
  · exact hs

theorem execSignalWriteReeval_memOk {pa : Nat} {s : State} (hs : s.memOk) : answerOk (execSignalWriteReeval pa s) := by
  unfold execSignalWriteReeval
  exact hs.frame.foldl fun _ _ h => h.launchSlice

theorem State.memOk.linkTail {s : State} {q slot : Nat} (hs : s.memOk) : (s.linkTail q slot).memOk := by
  unfold State.linkTail
  split
  · exact hs
  extract_lets st done t u
  have ht : t.memOk := by
    unfold t
    split
    · exact hs
    · exact hs.putNode
  have hu : u.memOk := by
    unfold u
    split
    · exact ht.putNode
    · exact ht
  exact hu.frame.settleQueue

theorem State.memOk.appendDone {s : State} {op : Nat} {o : Op} {q kind : Nat} {words : List Word} (hs : s.memOk) :
    (s.appendDone op o q kind words).memOk := by
  unfold State.appendDone
  split
  · exact hs
  dsimp only
  split
  · exact hs
  · exact ((hs.foldl fun _ _ h => h.putNode).foldl fun _ _ h => h.putNode).linkTail.finishOp

theorem execSliceAtt_memOk {x : Args} {s : State} (hs : s.memOk) : answerOk (execSliceAtt x s) := by
  unfold execSliceAtt
  refine issue_memOk hs fun env t h => ?_
  split
  · exact h.addOp
  dsimp only
  split
  · trivial
  split
  · trivial
  split
  · trivial
  · exact h.putSliceWord.putSliceWord.putSliceWord.addOp

theorem State.memOk.setQblock {s : State} {q : Nat} {v : Word} (hs : s.memOk) : (s.setQblock q v).memOk := hs

theorem execQueueEnable_memOk {page q : Nat} {va : Word} {s : State} (hs : s.memOk) : answerOk (execQueueEnable page q va s) := by
  unfold execQueueEnable
  extract_lets t
  have ht : t.memOk := hs.setQblock
  clear_value t
  split
  · exact hs
  split
  · exact ht
  split
  · extract_lets nslot off v used v' u
    have hu : u.memOk := ht.foldl fun _ _ h => by
      extract_lets w0
      split
      · exact h.setNode
      · exact h
    clear_value u
    split
    · exact ht
    · exact hu.frame.settleQueue
  · exact ht

theorem execQueueDisable_memOk {page q : Nat} {s : State} (hs : s.memOk) : answerOk (execQueueDisable page q s) := by
  unfold execQueueDisable
  split
  · exact hs
  dsimp only
  split
  · split
    · exact hs.setQblock
    · exact hs.frame.settleQueue
  · exact hs.setQblock

theorem execQueueResume_memOk {page q : Nat} {s : State} (hs : s.memOk) : answerOk (execQueueResume page q s) := by
  unfold execQueueResume
  split
  · split
    · exact hs
    refine State.memOk.settleQueue ?_
    split
    · exact hs.frame.sendArrivals
    · exact hs.frame
  · exact hs

theorem execBell_memOk {page q tail : Nat} {s : State} (hs : s.memOk) : answerOk (execBell page q tail s) := by
  unfold execBell
  split
  · split
    · exact hs
    · exact hs.linkTail
  · exact hs

theorem State.memOk.landStorage {s : State} {op : Nat} {o : Op} {skip dst n : Nat} {data : List Byte × List Bool} (hs : s.memOk) :
    (s.landStorage op o skip dst n data).memOk := by
  unfold State.landStorage
  split
  · split
    · exact hs.nodeEnded
    split
    · exact hs.writeMarked.setOp
    · exact hs.writeMarked.setOp.nodeEnded
  · exact hs

theorem execPeerWrite_memOk {off : Nat} {bytes : List Byte × List Bool} {s : State} (hs : s.memOk) :
    answerOk (execPeerWrite off bytes s) := by
  unfold execPeerWrite
  extract_lets n w l ready whole t
  have ht : t.memOk := hs.foldl fun _ _ h => by
    split
    · exact h.landStorage
    · exact h
  clear_value t
  split
  · exact hs
  split
  · exact hs
  split
  · exact ht
  · exact ht.frame

theorem execDecodeFrame_memOk {q slot : Nat} {frame : Picture} {err last : Bool} {s : State} (hs : s.memOk) :
    answerOk (execDecodeFrame q slot frame err last s) := by
  unfold execDecodeFrame
  split
  · split
    · split
      · exact hs
      dsimp only
      split
      · refine (State.memOk.freeWord ?_).putNode
        split
        · exact hs.setOp
        · exact hs.setOp.frame
      split
      · exact hs.setOp
      · exact hs.setOp.frame
    · exact hs
  · exact hs

/-! ### Functions of Machine/Experts -/

theorem State.memOk.send {s : State} {n dest : Nat} {k : MsgKind} (hs : s.memOk) : (s.send n dest k).memOk := hs

theorem State.memOk.modMsg {s : State} {n seq : Nat} {f : Msg → Msg} (hs : s.memOk) : (s.modMsg n seq f).memOk := hs

theorem State.memOk.dropMsg {s : State} {n seq : Nat} (hs : s.memOk) : (s.dropMsg n seq).memOk := hs

theorem State.memOk.answer {s : State} {n seq : Nat} {r : Reply} (hs : s.memOk) : (s.answer n seq r).memOk := hs

theorem State.memOk.receive {s : State} {n seq : Nat} {f : State → State} (hs : s.memOk) (hf : ∀ t, t.memOk → (f t).memOk) :
    (s.receive n seq f).memOk := by
  unfold State.receive
  dsimp only
  split
  · exact hs
  split
  · exact hs.frame
  · exact hf _ hs.frame

theorem xqCfgBody_memOk {x : Args} {env : Env} {s : State} (hs : s.memOk) : (xqCfgBody x env s).memOk := by
  unfold xqCfgBody
  split
  · exact hs.addOp
  dsimp only
  split
  · trivial
  split
  · trivial
  refine awaitBlock_memOk hs ?_
  split
  · trivial
  split
  · trivial
  · trivial
  · exact hs.addOp

theorem State.memOk.zeroSpan {s : State} {pa n : Nat} (hs : s.memOk) : (s.zeroSpan pa n).memOk := Memory.wf_filter _ _ hs

theorem State.memOk.clearBitmap {s : State} {q ctx spill : Nat} (hs : s.memOk) : (s.clearBitmap q ctx spill).memOk := by
  refine State.memOk.foldl hs fun t i h => ?_
  split
  · exact h.zeroSpan
  · exact h

/-- `State.clearBitmap` is made opaque first: otherwise the kernel runs it in order to compare the branches. -/
theorem execXqCfgApply_memOk {op : Nat} {s : State} (hs : s.memOk) : answerOk (execXqCfgApply op s) := by
  obtain ⟨clear, hclear⟩ : ∃ clear, clear = State.clearBitmap := ⟨_, rfl⟩
  have hclearOk : ∀ q ctx va, (clear s q ctx va).memOk := fun _ _ _ => by
    rw [hclear]
    exact hs.clearBitmap
  unfold execXqCfgApply
  rw [← hclear]
  split
  · exact hs
  split
  · dsimp only
    split
    · split
      · exact hs
      · exact (hclearOk _ _ _).frame.finishOp
    split
    · exact hs
    · exact (hclearOk _ _ _).frame.finishOp
  · exact hs

theorem State.memOk.xqAccept {s : State} {q : Nat} {tag : Word} (hs : s.memOk) : (s.xqAccept q tag).1.memOk := by
  unfold State.xqAccept
  split
  · exact hs
  extract_lets t va
  split
  · exact hs
  extract_lets b
  split
  · exact hs.frame
  split
  · exact hs
  split
  · exact hs.frame.pokeNat
  · exact hs
  · exact hs
  · exact hs

theorem ExHolds.map {ε α β : Type} {P : α → Prop} {Q : β → Prop} {x : Except ε α} {f : α → β} (h : ExHolds P x)
    (hf : ∀ a, P a → Q (f a)) : ExHolds Q (x.map f) := by
  cases x with
  | error e => trivial
  | ok a => exact hf a h

theorem State.memOk.acceptRows {s : State} {l : List PushRow} (hs : s.memOk) : ExHolds (fun r => r.1.memOk) (s.acceptRows l) := by
  induction l generalizing s with
  | nil => exact .intro hs
  | cons r l ih =>
    unfold State.acceptRows
    split
    · exact ih hs
    have ha : (s.xqAccept r.q r.tag).1.memOk := hs.xqAccept
    dsimp only
    split <;> rename_i he <;> rw [he] at ha
    · trivial
    · trivial
    · trivial
    · exact (ih ha).map fun _ h => h
    · exact (ih ha).map fun _ h => h

theorem State.memOk.sendRows {s : State} {op : Nat} {l : List PushRow} (hs : s.memOk) : (s.sendRows op l).1.memOk := by
  induction l generalizing s with
  | nil => exact hs
  | cons r l ih =>
    unfold State.sendRows
    split
    · exact ih hs
    · exact ih hs.send

theorem xqPushBody_memOk {x : Args} {env : Env} {s : State} (hs : s.memOk) : (xqPushBody x env s).memOk := by
  unfold xqPushBody
  extract_lets act own l
  split
  · exact hs.addOp
  split
  · trivial
  split
  · exact hs
  split
  · trivial
  next t here dups hacc =>
    have ht : t.memOk := hs.acceptRows.of hacc
    extract_lets id p e srcs u
    have hu : u.memOk := by
      unfold u
      split
      · exact ht.sendRows.frame
      · exact ht.sendRows
    split
    · exact hs
    · exact hu.addOp.lockRanges

theorem State.memOk.putPaged {s : State} {core ctx va : Nat} {d : List Byte × List Bool} (hs : s.memOk) :
    (s.putPaged core ctx va d).1.memOk := by
  unfold State.putPaged
  refine List.foldlRecOn (motive := fun a : (State × Option Trap) × Nat => a.1.1.memOk) _ _ hs fun a ha p _ => ?_
  dsimp only
  split
  · exact ha.writeMarked
  · exact ha

/-- `State.putPaged` is made opaque first: otherwise the kernel runs it in order to compare the branches. -/
theorem State.memOk.putXRow {s : State} {q loc : Nat} {tag : Word} {d : List Byte × List Bool} (hs : s.memOk) :
    (s.putXRow q loc tag d).1.memOk := by
  obtain ⟨put, hput⟩ : ∃ put, put = State.putPaged := ⟨_, rfl⟩
  have hputOk : ∀ {t : State} {core ctx va d}, t.memOk → (put t core ctx va d).1.memOk := fun h => by
    rw [hput]
    exact h.putPaged
  unfold State.putXRow
  rw [← hput]
  split
  · exact hs.modMsg
  split
  · exact hs
  split
  · exact hs.writeMarked.pokeAll
  · exact hputOk (hputOk hs)

theorem State.memOk.pushStep {s : State} {op : Nat} {o : Op} {p : BitVec 6} {todo : List (Nat × Word × Word × Nat × Nat)}
    {dups : LaneMask} {remote : List (Nat × Nat × Nat)} (hs : s.memOk) : (s.pushStep op o p todo dups remote).memOk := by
  unfold State.pushStep
  split
  · split
    · split
      · exact (hs.inRecord fun _ h => h.setPred).finishOp
      · exact hs
    extract_lets rows reads writes r t
    have hr : r.1.memOk := State.memOk.foldl_fst hs fun _ _ h => h.putXRow
    have ht : t.memOk := hr.unlock.setOp
    split
    · exact hs
    split
    · exact ht.lateTrap
    · exact ht
  · exact hs

theorem State.memOk.pushReplied {s : State} {op n seq : Nat} {r : Reply} (hs : s.memOk) : (s.pushReplied op n seq r).memOk := by
  unfold State.pushReplied
  split
  · exact hs
  split
  · exact hs.setOp
  · exact hs

theorem State.memOk.batchDone {s : State} {q : Nat} {h : Word} (hs : s.memOk) : (s.batchDone q h).memOk := by
  unfold State.batchDone
  split
  · exact hs.frame
  · exact hs

theorem xqPopBody_memOk {x : Args} {env : Env} {s : State} (hs : s.memOk) : (xqPopBody x env s).memOk := by
  unfold xqPopBody
  split
  · exact hs.addOp
  split
  · trivial
  split
  · dsimp only
    split
    · trivial
    split
    · trivial
    split
    · trivial
    · exact hs.addOp.clearLines.lockRanges
  dsimp only
  split
  · trivial
  split
  · trivial
  split
  · trivial
  · exact hs.addOp.clearLines.lockRanges

theorem State.memOk.popStep {s : State} {op : Nat} {o : Op} {q : Nat} {locs : List Nat} {d t : Word} (hs : s.memOk) :
    (s.popStep op o q locs d t).memOk := by
  unfold State.popStep
  split
  · extract_lets n rows tags l src u v
    have hv : v.memOk := hs.writeMarked.writeMarked
    split
    · exact hs.arriveLines.failOp
    split
    · exact hs
    · exact hv.arriveLines.unlock.finishOp
  · exact hs.unlock.finishOp

theorem State.memOk.refuseComb {s : State} {q : Nat} (hs : s.memOk) : (s.refuseComb q).memOk := by
  unfold State.refuseComb
  split
  · exact hs.frame
  · exact hs

theorem State.memOk.sendComb {s : State} {op q own : Nat} {x : XQ} {l : List (Nat × Word)} (hs : s.memOk) :
    (s.sendComb op q own x l).1.memOk := by
  induction l generalizing s with
  | nil => exact hs
  | cons r l ih =>
    unfold State.sendComb
    dsimp only
    split
    · exact ih hs
    split
    · exact ih hs.refuseComb
    · exact ih hs.send

theorem xqCombBody_memOk {x : Args} {env : Env} {s : State} (hs : s.memOk) : (xqCombBody x env s).memOk := by
  unfold xqCombBody
  split
  · exact hs.addOp
  split
  · trivial
  split
  · exact hs
  split
  · trivial
  split
  · trivial
  dsimp only
  split
  · trivial
  split
  · trivial
  split
  · exact hs
  · exact hs.sendComb.addOp

theorem State.memOk.combReplied {s : State} {op n seq : Nat} {r : Reply} (hs : s.memOk) : (s.combReplied op n seq r).memOk := by
  unfold State.combReplied
  split
  · exact hs
  split
  · split
    · exact hs.setOp
    · exact hs.setOp.refuseComb
  · exact hs

theorem State.memOk.fillComb {s : State} {op row : Nat} {remote : List (Nat × Nat)} {data : List Byte × List Bool} (hs : s.memOk) :
    (s.fillComb op row remote data).memOk := by
  unfold State.fillComb
  exact hs.foldl fun _ _ h => h.modMsg

theorem State.memOk.combStep {s : State} {op : Nat} {o : Op} {q : Nat} {d : Word} {todo : List (Nat × Word)} {remote : List (Nat × Nat)}
    (hs : s.memOk) :
    (s.combStep op o q d todo remote).memOk := by
  unfold State.combStep
  split
  · split
    · split
      · exact hs.finishOp
      · exact hs
    dsimp only
    split
    · exact hs
    split
    · refine (hs.foldl ?_).setOp.lateTrap
      intro t a h
      split
      · exact h.writeMarked
      · exact h.fillComb
    refine (hs.foldl ?_).setOp
    intro t a h
    split
    · exact h.writeMarked
    · exact h.fillComb
  · exact hs.finishOp

theorem execXqDone_memOk {x : Args} {s : State} (hs : s.memOk) : answerOk (execXqDone x s) := by
  unfold execXqDone
  refine issue_memOk hs fun env t h => ?_
  split
  · exact h.addOp
  dsimp only
  split
  · trivial
  split
  · exact h
  · exact h.batchDone.addOp

theorem execXqStat_memOk {x : Args} {s : State} (hs : s.memOk) : answerOk (execXqStat x s) := by
  unfold execXqStat
  refine issue_memOk hs fun env t h => ?_
  split
  · exact h.addOp
  dsimp only
  split
  · trivial
  · exact h.addOp

theorem State.memOk.fireFault {s : State} {q : Nat} {x : XQ} {h : Word} {k : Kernel} (hs : s.memOk) : (s.fireFault q x h k).memOk := by
  unfold State.fireFault
  exact hs.frame.batchDone.notify

theorem State.memOk.fire {s : State} {q : Nat} {x : XQ} {round crew : Nat} (hs : s.memOk) : (s.fire q x round crew).memOk := by
  unfold State.fire
  extract_lets rows h b y t dead
  have ht : t.memOk := hs.frame
  split
  · exact ht.fireFault
  split
  · exact ht.startKernel.of ‹_›
  · exact ht.fireFault

theorem execSelectionRound_memOk {die : Nat} {s : State} (hs : s.memOk) : answerOk (execSelectionRound die s) := by
  unfold execSelectionRound
  split
  · exact hs
  refine State.memOk.foldl_fst hs.frame fun a b h => ?_
  split
  · exact h
  split
  · split
    · exact h.fire
    · exact h
  · exact h

theorem execRemotePush_memOk {link seq dev queue : Nat} {tag : Word} {row : List Byte × List Bool} {s0 : State} (hs : s0.memOk) :
    answerOk (execRemotePush link seq dev queue tag row s0) := by
  unfold execRemotePush
  refine hs.receive fun s h => ?_
  split
  · exact h.answer
  split
  · exact h.answer
  split
  · exact h.answer
  split
  · exact (h.xqAccept.of_fst ‹_›).answer
  · exact (h.xqAccept.of_fst ‹_›).answer
  · exact (h.xqAccept.of_fst ‹_›).answer
  · exact (h.xqAccept.of_fst ‹_›).answer
  split
  · exact hs
  · exact (h.xqAccept.of_fst ‹_›).putXRow.answer

theorem execCombineMessage_memOk {link seq queue layer : Nat} {tag : Word} {kmax outu : Nat} {row : List Byte × List Bool} {s0 : State}
    (hs : s0.memOk) :
    answerOk (execCombineMessage link seq queue layer tag kmax outu row s0) := by
  unfold execCombineMessage
  refine hs.receive fun s h => ?_
  split
  · exact h.answer
  split
  · exact h.answer
  split
  · exact h.answer
  split
  · exact hs
  · exact h.writeMarked.answer

theorem State.memOk.releaseCourse {s : State} {cid : Nat} {c : Course} (hs : s.memOk) : (s.releaseCourse cid c).memOk := by
  unfold State.releaseCourse
  exact (hs.foldl fun _ _ h => h.unlock).frame

theorem State.memOk.batchEnds {s : State} {k : Kernel} (hs : s.memOk) : (s.batchEnds k).memOk := by
  unfold State.batchEnds
  split
  · exact hs.batchDone
  · exact hs

theorem State.memOk.kernelRetire {s : State} {kern : Nat} {k : Kernel} {core : Nat} (hs : s.memOk) :
    (s.kernelRetire kern k core).memOk := by
  unfold State.kernelRetire
  extract_lets t u
  have ht : t.memOk := hs.frame
  have hu : u.memOk := by
    unfold u
    split
    next v he => exact ht.signalDec.of he
    next => exact ht
  exact hu.batchEnds

theorem execCourseRetire_memOk {cid : Nat} {s : State} (hs : s.memOk) : answerOk (execCourseRetire cid s) := by
  unfold execCourseRetire
  split
  · exact hs
  next c _ =>
    split
    · exact hs
    extract_lets t
    have ht : t.memOk := hs.clearRecord.releaseCourse
    clear_value t
    split
    · exact ht
    extract_lets k' u
    have hu : u.memOk := ht.frame
    split
    · exact hu.kernelRetire
    · exact hu

/-! ### Functions of Machine/Gates -/

theorem State.memOk.mirror {s : State} {n : Nat} {g : Gate} (hs : s.memOk) : (s.mirror n g).memOk := by
  unfold State.mirror
  refine hs.pokeNat.pokeNat.foldl fun t a h => ?_
  dsimp only
  split
  · exact h
  · exact h.pokeNat

theorem State.memOk.putGate {s : State} {n : Nat} {g : Gate} (hs : s.memOk) : (s.putGate n g).memOk := by
  unfold State.putGate
  exact hs.frame.mirror

theorem State.memOk.gateReply {s : State} {b : Nat × Nat} {r : Reply} (hs : s.memOk) : (s.gateReply b r).memOk := hs

theorem State.memOk.tellWaiter {s : State} {n : Nat} {b : Nat × Nat} {v : Option Word} (hs : s.memOk) : (s.tellWaiter n b v).memOk := hs

theorem State.memOk.wakeGate {s : State} {n : Nat} {g : Gate} (hs : s.memOk) : (s.wakeGate n g).memOk := hs

theorem State.memOk.gateValue {s : State} {n : Nat} {g : Gate} (hs : s.memOk) : (s.gateValue n g).memOk := by
  unfold State.gateValue
  refine hs.putGate.wakeGate.foldl fun t a h => ?_
  split
  · exact h.tellWaiter
  · exact h

theorem State.memOk.leaveGate {s : State} {n : Nat} {v : Word} (hs : s.memOk) : (s.leaveGate n v).memOk := by
  unfold State.leaveGate
  split
  · exact hs
  · exact hs.putGate

theorem State.memOk.dropWaits {s : State} {cid : Nat} {moves : Bool} (hs : s.memOk) : (s.dropWaits cid moves).memOk := by
  unfold State.dropWaits
  split
  · exact hs
  refine hs.foldl fun t a h => ?_
  split
  · split
    · exact h
    · exact h.leaveGate
  · exact h

theorem State.memOk.applySignal {s : State} {n : Nat} {g : Gate} {i : Nat} {k : Word} (hs : s.memOk) : (s.applySignal n g i k).memOk := by
  unfold State.applySignal
  exact hs.gateValue

theorem State.memOk.sigOver {s : State} {n : Nat} {d : Deferred} {bad : Option (BitVec 8)} (hs : s.memOk) : (s.sigOver n d bad).memOk := by
  unfold State.sigOver
  split
  · split
    · exact hs.lateTrap.finishOp
    · exact hs.finishOp
  · exact hs.gateReply

theorem State.memOk.applyDeferred {s : State} {n moment : Nat} {l : List Deferred} {shut : List Nat} (hs : s.memOk) :
    (s.applyDeferred n moment l shut).memOk := by
  induction l generalizing s shut with
  | nil => exact hs
  | cons d l ih =>
    unfold State.applyDeferred
    split
    · exact hs
    split
    · exact ih hs.putGate.sigOver
    split
    · exact ih hs
    · exact ih hs.applySignal.sigOver

theorem State.memOk.settleGate {s : State} {n moment : Nat} (hs : s.memOk) : (s.settleGate n moment).memOk := by
  unfold State.settleGate
  split
  · exact hs.applyDeferred
  · exact hs

theorem State.memOk.addTicks {s : State} {n i : Nat} {g : Gate} {k : Nat} (hs : s.memOk) : (s.addTicks n i g k).memOk := by
  unfold State.addTicks
  dsimp only
  split
  · exact hs.frame
  · exact hs.frame.putGate

theorem State.memOk.catchUp {s : State} {n i f : Nat} (hs : s.memOk) : (s.catchUp n i f).memOk := by
  induction f generalizing s with
  | zero =>
    unfold State.catchUp
    split
    · exact hs.addTicks
    · exact hs
  | succ f ih =>
    unfold State.catchUp
    split
    · exact hs
    dsimp only
    split
    · exact hs
    split
    · exact hs.addTicks
    · exact ih hs.addTicks.settleGate

theorem State.memOk.refreshGate {s : State} {n : Nat} (hs : s.memOk) : (s.refreshGate n).memOk := by
  unfold State.refreshGate
  split
  · exact hs
  refine hs.foldl fun t a h => ?_
  split
  · exact h
  · exact h.catchUp

theorem State.memOk.signalAt {s : State} {n : Nat} {g : Gate} {i : Nat} {k : Word} {who : GWho} (hs : s.memOk) :
    (s.signalAt n g i k who).1.memOk := by
  unfold State.signalAt
  split
  · dsimp only
    exact hs.applySignal
  split
  · dsimp only
    exact hs.putGate
  dsimp only
  exact hs.frame.putGate

theorem gateAway_memOk {pkg g name : Nat} {o : GateOp} {x : Args} {env : Env} {s : State} {k : Nat → Reply → State → Res}
    (hs : s.memOk) (hk : ∀ id r t, t.memOk → (k id r t).memOk) :
    (gateAway pkg g name o x env s k).memOk := by
  unfold gateAway
  split
  · split
    · trivial
    split
    · exact hs
    refine State.memOk.setPath ?_
    split
    · exact hs.send.addSilent
    · exact hs.send.addOp
  split
  · exact hs.withdraw
  split
  · exact hs
  · exact hs.withdraw
  · exact hs.withdraw
  · exact hk _ _ _ hs
  · exact hs

theorem execGateSig_memOk {x : Args} {s : State} (hs : s.memOk) : answerOk (execGateSig x s) := by
  unfold execGateSig
  refine issue_memOk hs fun env t h => ?_
  split
  · exact h.addOp
  split
  · trivial
  extract_lets n u
  have hu : u.memOk := h.refreshGate
  split
  · trivial
  split
  · exact h
  split
  · refine gateAway_memOk h fun _ _ v hv => ?_
    split
    · exact hv.setOp
    · exact hv
  split
  · trivial
  · exact hu.signalAt.addOp

theorem execGateWait_memOk {x : Args} {s : State} (hs : s.memOk) : answerOk (execGateWait x s) := by
  unfold execGateWait
  refine issue_memOk hs fun env t h => ?_
  split
  · exact h
  split
  · trivial
  extract_lets v d
  split
  · exact gateAway_memOk h fun _ _ _ ht => ht.frame
  split
  · trivial
  split
  · exact h
  · exact h.putGate

theorem execGateRd_memOk {x : Args} {s : State} (hs : s.memOk) : answerOk (execGateRd x s) := by
  unfold execGateRd
  refine issue_memOk hs fun env t h => ?_
  split
  · exact h.addOp
  split
  · trivial
  split
  · refine gateAway_memOk h fun _ _ u ht => ?_
    split
    · exact ht.setOp
    · exact ht
  split
  · trivial
  · exact h.addOp

theorem State.memOk.gateGot {s : State} {link seq : Nat} (hs : s.memOk) : (s.gateGot link seq).memOk := hs

theorem execGateMessage_memOk {link seq gate pkg part : Nat} {op : GateOp} {s : State} (hs : s.memOk) :
    answerOk (execGateMessage link seq gate pkg part op s) := by
  unfold execGateMessage
  refine hs.receive fun t h => ?_
  split
  · exact h.answer
  split
  · dsimp only
    split
    · exact h.refreshGate.gateGot.gateReply
    · exact h.refreshGate.gateGot.signalAt.gateReply
  · split
    · exact h.gateGot.gateReply
    split
    · exact h.answer
    split
    · exact h.gateGot.gateReply
    · exact h.gateGot.putGate.gateReply
  dsimp only
  split <;> exact h.gateGot.gateReply

theorem State.memOk.mapPaths {s : State} {f : Path → Path} (hs : s.memOk) : (s.mapPaths f).memOk := hs

theorem State.memOk.gateNews {s : State} {pkg gate : Nat} {v : Option Word} (hs : s.memOk) : (s.gateNews pkg gate v).memOk := hs

theorem State.memOk.gateReplied {s : State} {link seq : Nat} {r : Reply} (hs : s.memOk) : (s.gateReplied link seq r).memOk := by
  unfold State.gateReplied
  refine State.memOk.mapPaths ?_
  split
  · exact hs
  split
  · split
    · exact hs.setOp
    · exact hs
  split
  · exact hs.finishOp
  · exact hs.lateTrap.finishOp
  · exact hs.lateTrap.finishOp
  · exact hs

theorem execGateTokenRefill_memOk {gate i : Nat} {s : State} (hs : s.memOk) : answerOk (execGateTokenRefill gate i s) := by
  unfold execGateTokenRefill
  split
  · exact hs
  split
  · exact hs
  · exact hs.catchUp

theorem execGateDeferTimeout_memOk {op : Nat} {s : State} (hs : s.memOk) : answerOk (execGateDeferTimeout op s) := by
  unfold execGateDeferTimeout
  split
  · exact hs
  refine hs.foldl fun t a h => ?_
  split
  · exact h
  dsimp only
  split
  · exact h.refreshGate
  split
  · exact h.refreshGate.putGate.sigOver.settleGate
  · exact h.refreshGate

theorem State.memOk.restartTicks {s : State} {n : Nat} {acl : List Word} (hs : s.memOk) : (s.restartTicks n acl).memOk := hs

theorem State.memOk.gateCommand {s : State} {page cmd gate w0 : Nat} {w1 : Option Nat} {seq : BitVec 32} {run : State → CmdEnd}
    (hs : s.memOk) (hrun : ∀ t, t.memOk → (run t).memOk) :
    (s.gateCommand page cmd gate w0 w1 seq run).memOk := by
  unfold State.gateCommand
  refine hs.command fun t h => ?_
  split
  · trivial
  · exact hrun _ h

theorem execActivate_memOk {page gate ver : Nat} {seq : BitVec 32} {s : State} (hs : s.memOk) :
    answerOk (execActivate page gate ver seq s) := by
  unfold execActivate
  refine hs.gateCommand fun t h => ?_
  split
  · dsimp only
    split
    · trivial
    split
    · exact h
    · exact h.restartTicks.putGate
  dsimp only
  split
  · trivial
  split
  · exact h.frame
  · exact h.frame.restartTicks.putGate

theorem execFreeze_memOk {page gate : Nat} {seq : BitVec 32} {s : State} (hs : s.memOk) : answerOk (execFreeze page gate seq s) := by
  unfold execFreeze
  refine hs.gateCommand fun t h => ?_
  split
  · exact h
  split
  · exact h.putGate
  · exact h.putGate
  · exact h

theorem State.memOk.goOn {s : State} {n : Nat} {g : Gate} {st : GState} (hs : s.memOk) : (s.goOn n g st).memOk := by
  unfold State.goOn
  exact hs.restartTicks.putGate.settleGate

theorem execThaw_memOk {page gate : Nat} {seq : BitVec 32} {s : State} (hs : s.memOk) : answerOk (execThaw page gate seq s) := by
  unfold execThaw
  refine hs.gateCommand fun t h => ?_
  dsimp only
  split
  · exact h.refreshGate
  split
  · exact h.refreshGate.goOn
  · exact h.refreshGate

theorem execRetire_memOk {page gate : Nat} {seq : BitVec 32} {s : State} (hs : s.memOk) : answerOk (execRetire page gate seq s) := by
  unfold execRetire
  refine hs.gateCommand fun t h => ?_
  dsimp only
  split
  · exact h.refreshGate
  split
  · trivial
  refine ((h.refreshGate.foldl fun _ _ ht => ht.sigOver).foldl ?_).putGate.mapPaths
  intro u a ht
  split
  · exact ht.tellWaiter
  · exact ht

theorem execBeginMigration_memOk {page gate acli : Nat} {seq : BitVec 32} {s : State} (hs : s.memOk) :
    answerOk (execBeginMigration page gate acli seq s) := by
  unfold execBeginMigration
  refine hs.gateCommand fun t h => ?_
  split
  · exact h
  split
  · trivial
  · exact h.putGate

theorem State.memOk.redeliver {s : State} {n i : Nat} (hs : s.memOk) : (s.redeliver n i).memOk := by
  unfold State.redeliver
  split
  · exact hs
  dsimp only
  split
  · exact hs.putGate.wakeGate
  split
  · exact hs.putGate
  refine State.memOk.gateValue ?_
  split
  · exact hs.tellWaiter
  · exact hs

theorem execEndMigration_memOk {page gate : Nat} {seq : BitVec 32} {s : State} (hs : s.memOk) :
    answerOk (execEndMigration page gate seq s) := by
  unfold execEndMigration
  refine hs.gateCommand fun t h => ?_
  dsimp only
  split
  · exact h.refreshGate
  split
  · exact h.refreshGate
  · exact h.refreshGate.goOn.redeliver
  · trivial

/-! ### Functions of Machine/Contexts -/

theorem State.memOk.unpark {s : State} {halted : Nat × Course → Bool} (hs : s.memOk) : (s.unpark halted).memOk := hs

theorem State.memOk.applySlot {s : State} {part : Nat} (hs : s.memOk) : (s.applySlot part).memOk := by
  unfold State.applySlot
  split
  · exact hs
  · exact hs.frame.unpark

theorem execSlotBoundary_memOk {part : Nat} {s : State} (hs : s.memOk) : answerOk (execSlotBoundary part s) := by
  unfold execSlotBoundary
  split
  · exact hs
  split
  · exact hs
  · exact hs.applySlot

theorem State.memOk.setBlock {s : State} {part : Nat} {w : List Word} (hs : s.memOk) : (s.setBlock part w).memOk := by
  unfold State.setBlock
  split <;> exact hs.frame.applySlot

theorem execLoadPartitionBlock_memOk {page part : Nat} {addr : Word} {seq : BitVec 32} {s : State} (hs : s.memOk) :
    answerOk (execLoadPartitionBlock page part addr seq s) := by
  unfold execLoadPartitionBlock
  refine hs.command fun t h => ?_
  split
  · trivial
  split
  · split
    · dsimp only
      split
      · trivial
      · exact h.setBlock
    dsimp only
    split
    · trivial
    · exact h.frame
  dsimp only
  split
  · trivial
  · exact h.setBlock

theorem execPartitionLoadEffect_memOk {part : Nat} {s : State} (hs : s.memOk) : answerOk (execPartitionLoadEffect part s) := by
  unfold execPartitionLoadEffect
  split
  · exact hs
  split
  · split
    · exact hs
    · exact hs.setBlock
  · exact hs

theorem State.memOk.enableCtx {s : State} {part ctx addr : Nat} (hs : s.memOk) : OptHolds State.memOk (s.enableCtx part ctx addr) := by
  unfold State.enableCtx
  split
  · trivial
  split
  · split
    · trivial
    split
    · dsimp only
      split
      · trivial
      split
      · trivial
      split
      · trivial
      · exact hs.frame
    dsimp only
    split
    · trivial
    split
    · trivial
    split
    · trivial
    · exact hs.frame
  · trivial

theorem execEnable_memOk {page part ctx : Nat} {addr : Word} {seq : BitVec 32} {s : State} (hs : s.memOk) :
    answerOk (execEnable page part ctx addr seq s) := by
  unfold execEnable
  refine hs.command fun t h => ?_
  split
  · exact h.enableCtx.of ‹_›
  · trivial

theorem State.memOk.freeSlots {s : State} {ctx : Nat} (hs : s.memOk) : (s.freeSlots ctx).memOk := by
  unfold State.freeSlots
  refine hs.foldl fun t a h => ?_
  split
  · split
    · split
      · exact h.leaveSlot
      · exact h
    · exact h
  · exact h

theorem State.memOk.takeOff {s : State} {ctx : Nat} {moves : Bool} (hs : s.memOk) : (s.takeOff ctx moves).memOk := by
  unfold State.takeOff
  extract_lets mine s₁ s₂ gone s₃ nodes s₄ binds
  have h₁ : s₁.memOk := hs.freeSlots
  have h₂ : s₂.memOk := h₁.foldl fun t cid h => by
    dsimp only
    split
    · exact h.dropWaits
    · exact h.dropWaits.dropMats
  have h₃ : s₃.memOk := h₂.foldl fun _ _ h => h.dropBent
  have h₄ : s₄.memOk := by
    unfold s₄
    split
    · exact h₃
    · exact h₃.foldl fun _ _ h => h.queueOff
  exact h₄.frame

theorem execEndContext_memOk {page part ctx : Nat} {seq : BitVec 32} {s : State} (hs : s.memOk) :
    answerOk (execEndContext page part ctx seq s) := by
  unfold execEndContext
  refine State.memOk.command hs fun t ht => ?_
  split
  · trivial
  next c _ =>
    split
    · trivial
    extract_lets u
    have hu : u.memOk := by
      unfold u
      split
      · exact ht.endCmd
      · exact ht
    clear_value u
    exact hu.frame.takeOff

theorem State.memOk.freeArrays {s : State} {core ctx n a : Nat} (hs : s.memOk) : (State.freeArrays core ctx n a s).memOk := by
  induction n generalizing s a with
  | zero => exact hs
  | succ n ih =>
    unfold State.freeArrays
    split
    · exact hs
    refine ih ?_
    split
    · exact hs
    · exact hs.returnArray

theorem State.memOk.freeSlices {s : State} {core ctx n k : Nat} (hs : s.memOk) : (State.freeSlices core ctx n k s).memOk := by
  induction n generalizing s k with
  | zero => exact hs
  | succ n ih =>
    unfold State.freeSlices
    dsimp only
    split
    · exact hs
    refine ih ?_
    split
    · exact hs
    · exact hs.putSliceWord.putSliceWord

theorem State.memOk.zeroWindows {s : State} {ctx : Nat} (hs : s.memOk) : (s.zeroWindows ctx).memOk := by
  unfold State.zeroWindows
  split
  · exact hs
  · exact (hs.foldl fun _ _ h => h.zeroSpan).setPresent

theorem State.memOk.forgetCtx {s : State} {ctx : Nat} (hs : s.memOk) : (s.forgetCtx ctx).memOk := by
  unfold State.forgetCtx
  exact (hs.zeroWindows.foldl fun _ _ h => h.clearTile.setTile).frame

theorem execContextEndComplete_memOk {ctx : Nat} {s : State} (hs : s.memOk) : answerOk (execContextEndComplete ctx s) := by
  unfold execContextEndComplete
  split
  · exact hs
  split
  · exact hs
  · exact hs.freeArrays.returnNodes.freeSlices.endCrews.forgetCtx

theorem State.memOk.flushCourse {s : State} {crew cid : Nat} {c : Course} (hs : s.memOk) : (s.flushCourse crew cid c).memOk := by
  unfold State.flushCourse
  split
  · exact hs
  split
  · exact hs.modCourse
  refine hs.modCourse.inRecord fun t h => ?_
  split
  · split
    · exact h.dropMats
    · exact h.restart
  · exact h

theorem execFlushCrew_memOk {page part ctx crew : Nat} {seq : BitVec 32} {s : State} (hs : s.memOk) :
    answerOk (execFlushCrew page part ctx crew seq s) := by
  unfold execFlushCrew
  refine hs.command fun t h => ?_
  split
  · trivial
  · exact h.foldl fun _ _ ht => ht.flushCourse

theorem execRestartCrew_memOk {page part ctx crew : Nat} {seq : BitVec 32} {s : State} (hs : s.memOk) :
    answerOk (execRestartCrew page part ctx crew seq s) := by
  unfold execRestartCrew
  refine hs.command fun t h => ?_
  split
  · trivial
  · exact h.frame

theorem execReclaim_memOk {part cid : Nat} {s : State} (hs : s.memOk) : answerOk (execReclaim part cid s) := by
  unfold execReclaim
  split
  · split
    · exact hs
    split
    · exact hs.frame
    split
    · exact hs
    · exact hs.setCourse.crewHalt.frame
  · exact hs

theorem execLendReturn_memOk {part : Nat} {s : State} (hs : s.memOk) : answerOk (execLendReturn part s) := by
  unfold execLendReturn
  split
  · exact hs
  split
  · exact hs
  split
  · exact hs
  · exact hs.frame.unpark

theorem execMigrateOut_memOk {page part ctx : Nat} {seq : BitVec 32} {s : State} (hs : s.memOk) :
    answerOk (execMigrateOut page part ctx seq s) := by
  unfold execMigrateOut
  refine hs.command fun t h => ?_
  split
  · trivial
  split
  · trivial
  · exact (h.frame.foldl fun _ _ ht => ht.queueStop).unpark

theorem State.memOk.saveCourse {s : State} {cid : Nat} (hs : s.memOk) : OptHolds State.memOk (s.saveCourse cid) := by
  unfold State.saveCourse
  split
  · exact hs
  refine (OptHolds.foldlM hs fun _ _ h => h.saveRow).bind fun t h => ?_
  split
  · exact h
  split
  · exact h
  · exact h.saveBody.map fun _ ht => ht.setCourse

theorem State.memOk.saveTiles {s : State} {cid : Nat} (hs : s.memOk) : OptHolds State.memOk (s.saveTiles cid) := by
  unfold State.saveTiles
  exact OptHolds.foldlM hs fun _ _ h => h.saveTile

/-- `State.translate` is made opaque first: otherwise the kernel runs it in order to compare the branches. -/
theorem State.memOk.saveSamplers {s : State} {part ctx : Nat} (hs : s.memOk) : (s.saveSamplers part ctx).memOk := by
  obtain ⟨tr, htr⟩ : ∃ tr, tr = State.translate := ⟨_, rfl⟩
  unfold State.saveSamplers
  rw [← htr]
  refine State.memOk.foldl hs fun t core h => ?_
  split
  · exact h
  · exact h.foldl fun _ _ h => h.pokeNat

theorem State.memOk.arriveSamplers {s : State} {part ctx : Nat} (hs : s.memOk) : (s.arriveSamplers part ctx).memOk := by
  refine State.memOk.foldl hs fun t core h => ?_
  split
  · exact h
  split
  · exact h
  split
  · exact h
  · exact h.frame

theorem State.memOk.clearRecords {s : State} {ctx : Nat} (hs : s.memOk) : (s.clearRecords ctx).memOk := by
  refine State.memOk.foldl hs fun t i h => ?_
  dsimp only
  split
  · exact h
  split
  · split
    · exact h.pokeNat
    · exact h
  · exact h

theorem State.memOk.saveCtx {s : State} {ctx : Nat} (hs : s.memOk) : OptHolds State.memOk (s.saveCtx ctx) := by
  unfold State.saveCtx
  exact (OptHolds.foldlM hs fun _ _ h => (h.saveTiles.bind fun _ ht => ht.saveCourse).bind fun _ ht => ht.saveExtra).bind fun _ h =>
    (OptHolds.foldlM h fun _ _ ht => ht.saveBar).map fun _ ht => ht.saveSamplers.clearRecords

theorem execMigrateOutSaveFinished_memOk {ctx : Nat} {s : State} (hs : s.memOk) : answerOk (execMigrateOutSaveFinished ctx s) := by
  unfold execMigrateOutSaveFinished
  split
  · exact hs
  split
  · dsimp only
    split
    · exact hs
    · exact (hs.saveCtx.of ‹_›).takeOff.forgetCtx.endCmd
  dsimp only
  split
  · exact hs
  · exact hs.foldl fun _ _ h => h.tellSave

theorem State.memOk.freeGroups {s : State} {m : Mat} (hs : s.memOk) : (s.freeGroups m).1.memOk := by
  unfold State.freeGroups
  split
  · dsimp only
    refine hs.foldl_fst fun a b h => ?_
    dsimp only
    exact h.freeWord
  · exact hs

theorem State.memOk.arriveOp {s : State} {o : Op} (hs : s.memOk) : (s.arriveOp o).memOk := by
  unfold State.arriveOp
  refine State.memOk.frame ?_
  split
  · exact hs.freeGroups
  · exact hs

theorem State.memOk.arriveBind {s : State} {cid slot : Nat} (hs : s.memOk) : (s.arriveBind cid slot).memOk := by
  unfold State.arriveBind
  split
  · exact hs
  split
  · exact hs
  · exact hs.frame.lockRanges

theorem State.memOk.waitHere {s : State} {cid p n : Nat} {q : Path} {v : Word} {d : Option (BitVec 6)} (hs : s.memOk) :
    (s.waitHere cid p n q v d).memOk := by
  unfold State.waitHere
  split
  · split <;> exact hs.setPath.putGate
  · exact hs.setPath

theorem State.memOk.arriveWait {s : State} {from_ cid p : Nat} (hs : s.memOk) : (s.arriveWait from_ cid p).memOk := by
  unfold State.arriveWait
  split
  · exact hs
  split
  · exact hs
  split
  · dsimp only
    split
    · exact hs.waitHere
    · exact hs.setPath
  · exact hs.setPath
  · dsimp only
    split
    · exact hs.waitHere
    · exact hs.setPath
  · exact hs.setPath
  · exact hs

theorem State.memOk.arriveCourse {s : State} {kern : Nat} {e : Arrival} (hs : s.memOk) : (s.arriveCourse kern e).memOk := by
  unfold State.arriveCourse
  extract_lets cid ctx w arr mats first place c₀ c t u v x
  have ht : t.memOk := hs.frame.setCourse
  have hu : u.memOk := ht.foldl fun _ _ h => h.arriveOp
  have hv : v.memOk := hu.foldl fun _ _ h => h.arriveBind
  have hx : x.memOk := hv.frame
  exact hx.foldl fun _ _ h => h.arriveWait

theorem State.memOk.arriveKernel {s : State} {part ctx node : Nat} {l : List Arrival} (hs : s.memOk) :
    (s.arriveKernel part ctx node l).memOk := by
  unfold State.arriveKernel
  exact hs.frame.foldl fun _ _ h => h.arriveCourse

theorem execMigrateIn_memOk {page part ctx : Nat} {addr : Word} {seq : BitVec 32} {s : State} (hs : s.memOk) :
    answerOk (execMigrateIn page part ctx addr seq s) := by
  unfold execMigrateIn
  refine State.memOk.command hs fun t ht => ?_
  split
  · trivial
  next u hu =>
    split
    · trivial
    · exact (ht.enableCtx.of hu).modCtx.arriveSamplers.foldl fun _ _ h => h.arriveKernel

theorem State.memOk.adopt {s : State} {kern : Nat} (hs : s.memOk) : (s.adopt kern).memOk := by
  unfold State.adopt
  split
  · exact hs
  split
  · split
    · exact hs
    split
    · exact hs
    split
    · exact hs
    · exact hs.frame
  · exact hs

theorem State.memOk.retireBent {s : State} {bent : Nat} (hs : s.memOk) : (s.retireBent bent).memOk := by
  unfold State.retireBent
  split
  · exact hs
  · exact (hs.frame.foldl fun _ _ h => h.dropMats.modCourse).unpark

theorem execBentRetire_memOk {bent : Nat} {s : State} (hs : s.memOk) : answerOk (execBentRetire bent s) := by
  unfold execBentRetire
  exact hs.retireBent

/-- The body is a match on a walk of the page tables. It is unfolded as a function, so that the kernel compares the two sides without
running the walk. -/
theorem State.memOk.moveImage {s : State} {c : Course} {old new : Nat} (hs : s.memOk) : OptHolds State.memOk (s.moveImage c old new) := by
  generalize hf : @State.moveImage = f
  delta State.moveImage at hf
  subst hf
  beta_reduce
  extract_lets span
  split
  · exact hs.writeMarked
  · trivial

theorem State.memOk.restoreMoved {s : State} {cid : Nat} {old : Course} {p : Spot} (hs : s.memOk) :
    OptHolds State.memOk (s.restoreMoved cid old p) := by
  unfold State.restoreMoved
  refine OptHolds.bind_any fun a => ?_
  dsimp only
  split
  · trivial
  refine (OptHolds.foldlM (hs.foldl fun _ _ h => h.rowIn) fun _ _ h => h.moveImage).map fun t h => ?_
  refine (State.memOk.setCourse ?_).foldl fun _ _ ht => ht.modCrew
  split
  · exact h.pokeNat
  · exact h

theorem State.memOk.movedOn {s : State} {cid from_ : Nat} (hs : s.memOk) : (s.movedOn cid from_).memOk := by
  unfold State.movedOn
  split
  · exact hs
  split
  · exact hs
  split
  · exact hs.restart
  split
  · exact hs.deliver
  · exact hs.setPath
  · exact hs

theorem execCourseRelocate_memOk {cid : Nat} {s : State} (hs : s.memOk) : answerOk (execCourseRelocate cid s) := by
  unfold execCourseRelocate
  split
  · exact hs
  split
  · exact hs
  split
  · exact hs
  split
  · split
    · exact (hs.saveTiles.bind fun _ h => h.saveCourse).of ‹_›
    · exact hs.tellSave
  split
  · exact hs
  split
  · exact ((hs.claim.bind fun _ h => h.restoreMoved).of ‹_›).frame.movedOn
  · exact hs.tellSave

/-! ### Functions of Machine/Traps -/

theorem execTrap_memOk {x : Args} {s : State} (hs : s.memOk) : answerOk (execTrap x s) := by
  unfold execTrap
  refine issue_memOk hs fun env t h => ?_
  split
  · exact h
  · trivial

theorem execDbg_memOk {x : Args} {s : State} (hs : s.memOk) : answerOk (execDbg x s) := by
  unfold execDbg
  refine issue_memOk hs fun env t h => ?_
  split
  · exact h
  · trivial

theorem execIllegalEncoding_memOk {sub : BitVec 8} {s : State} (hs : s.memOk) : answerOk (execIllegalEncoding sub s) := by
  unfold execIllegalEncoding
  split
  · trivial
  · exact hs.tick.trapHere

theorem execTrapret_memOk {x : Args} {s : State} (hs : s.memOk) : answerOk (execTrapret x s) := by
  unfold execTrapret
  refine issue_memOk hs fun env t h => ?_
  split
  · trivial
  split
  · exact h
  dsimp only
  split
  · exact h.leaveShim.stopForDriver
  · exact h.leaveShim.modCourse

theorem State.memOk.takeAction {s : State} {cid p : Nat} {c : Course} {q : Path} (hs : s.memOk) : (s.takeAction cid p c q).memOk := by
  unfold State.takeAction
  extract_lets action t r c' u
  have hu : u.memOk := hs.setCourse
  split
  · exact hu.setPath
  split
  · exact hu.setPath.enterShim
  split
  · exact hu.frame.takeOff
  · exact hu

theorem State.memOk.shimRecord {s : State} {c : Course} {p : Nat} (hs : s.memOk) : (s.shimRecord c p).memOk := by
  unfold State.shimRecord
  exact hs.recWrite

theorem execResume_memOk {page ctx core cslot p : Nat} {s : State} (hs : s.memOk) : answerOk (execResume page ctx core cslot p s) := by
  unfold execResume
  split
  · exact hs
  split
  · exact hs
  split
  · exact hs.tellSave
  refine hs.inRecord fun t h => ?_
  split
  · exact h
  refine State.memOk.takeAction ?_
  split
  · exact h.shimRecord
  · exact h

theorem execRegion_memOk {x : Args} {s : State} (hs : s.memOk) : answerOk (execRegion x s) := by
  unfold execRegion
  refine issue_memOk hs fun env t h => ?_
  split
  · exact h
  split
  · trivial
  · exact h.modCourse

theorem State.memOk.mismatch {s : State} {core : Nat} (hs : s.memOk) : (s.mismatch core).memOk := by
  unfold State.mismatch
  dsimp only
  split
  · exact hs.frame.retireBent
  · exact hs.frame

theorem execSigchk_memOk {x : Args} {s : State} (hs : s.memOk) : answerOk (execSigchk x s) := by
  unfold execSigchk
  refine issue_memOk hs fun env t h => ?_
  split
  · exact h
  split
  · exact h.modCourse
  · exact h.mismatch

theorem State.memOk.putSampler {s : State} {e : Env} {m : Sampler} (hs : s.memOk) : (s.putSampler e m).memOk := hs

theorem execProfOff_memOk {x : Args} {s : State} (hs : s.memOk) : answerOk (execProfOff x s) := by
  unfold execProfOff
  refine issue_memOk hs fun env t h => ?_
  split
  · exact h
  · exact h.putSampler

theorem execProfOn_memOk {x : Args} {s : State} (hs : s.memOk) : answerOk (execProfOn x s) := by
  unfold execProfOn
  refine issue_memOk hs fun env t h => ?_
  split
  · exact h
  · exact h.putSampler

theorem execProfBuf_memOk {x : Args} {s : State} (hs : s.memOk) : answerOk (execProfBuf x s) := by
  unfold execProfBuf
  refine issue_memOk hs fun env t h => ?_
  split
  · exact h
  dsimp only
  split
  · trivial
  · exact h.putSampler

theorem execProfRdp_memOk {x : Args} {s : State} (hs : s.memOk) : answerOk (execProfRdp x s) := by
  unfold execProfRdp
  refine issue_memOk hs fun env t h => ?_
  split
  · exact h
  · exact h.putScalar

theorem execProfCons_memOk {x : Args} {s : State} (hs : s.memOk) : answerOk (execProfCons x s) := by
  unfold execProfCons
  refine issue_memOk hs fun env t h => ?_
  split
  · exact h
  · exact h.putSampler

theorem execProfDrop_memOk {x : Args} {s : State} (hs : s.memOk) : answerOk (execProfDrop x s) := by
  unfold execProfDrop
  refine issue_memOk hs fun env t h => ?_
  split
  · exact h
  · exact h.putScalar.putSampler

/-! ### Functions of Machine/Links -/

theorem State.memOk.putLink {s : State} {n : Nat} {l : Link} (hs : s.memOk) : (s.putLink n l).memOk := hs

theorem State.memOk.setLinkW {s : State} {n code : Nat} (hs : s.memOk) : (s.setLinkW n code).memOk := by
  unfold State.setLinkW
  dsimp only
  split
  · exact hs
  · exact hs.frame

theorem State.memOk.moveMsg {s : State} {n k : Nat} {m : Msg} (hs : s.memOk) : (s.moveMsg n k m).memOk := hs

theorem State.memOk.reroute {s : State} (hs : s.memOk) : s.reroute.memOk := by
  unfold State.reroute
  refine hs.foldl fun t a h => ?_
  refine h.foldl fun u b ht => ?_
  split
  · exact ht.moveMsg
  · exact ht

theorem State.memOk.linkDown {s : State} {n : Nat} {l : Link} (hs : s.memOk) : (s.linkDown n l).memOk := by
  unfold State.linkDown
  exact hs.putLink.setLinkW.reroute

theorem execLinkPowerUp_memOk {link : Nat} {s : State} (hs : s.memOk) : answerOk (execLinkPowerUp link s) := by
  unfold execLinkPowerUp
  split
  · exact hs
  · exact hs.putLink

theorem execTrainingSucceeds_memOk {link peer : Nat} {ver : Training} {s : State} (hs : s.memOk) :
    answerOk (execTrainingSucceeds link peer ver s) := by
  unfold execTrainingSucceeds
  dsimp only
  split
  · exact hs
  · exact hs.putLink.setLinkW.reroute

theorem execTrainingFails_memOk {link : Nat} {s : State} (hs : s.memOk) : answerOk (execTrainingFails link s) := by
  unfold execTrainingFails
  dsimp only
  split
  · exact hs
  · exact hs.linkDown

theorem execTrainingRetry_memOk {link : Nat} {s : State} (hs : s.memOk) : answerOk (execTrainingRetry link s) := by
  unfold execTrainingRetry
  dsimp only
  split
  · split
    · exact hs
    · exact hs.putLink
  · exact hs

theorem execFlitCrcFailure_memOk {link lane : Nat} {s : State} (hs : s.memOk) : answerOk (execFlitCrcFailure link lane s) := by
  unfold execFlitCrcFailure
  dsimp only
  split
  · exact hs
  · exact hs.putLink

theorem execLaneErrorThreshold_memOk {link lane : Nat} {s : State} (hs : s.memOk) : answerOk (execLaneErrorThreshold link lane s) := by
  unfold execLaneErrorThreshold
  dsimp only
  split
  · exact hs
  · exact hs.putLink

theorem execViralFlitReceived_memOk {link : Nat} {s : State} (hs : s.memOk) : answerOk (execViralFlitReceived link s) := by
  unfold execViralFlitReceived
  split
  · exact hs
  dsimp only
  split
  · exact hs.putLink
  · exact hs.linkDown

theorem State.memOk.replied1 {s : State} {n seq : Nat} {k : MsgKind} {r : Reply} (hs : s.memOk) : (s.replied1 n seq k r).memOk := by
  unfold State.replied1
  split
  · exact hs.pushReplied
  · exact hs.combReplied
  · split
    · exact hs
    · exact hs.gateReplied
  · exact hs

theorem execLinkReply_memOk {link seq : Nat} {r : Reply} {s : State} (hs : s.memOk) : answerOk (execLinkReply link seq r s) := by
  unfold execLinkReply
  split
  · exact hs
  split
  · split
    · exact hs.gateNews
    · exact hs
  split
  · split
    · exact hs
    split
    · exact hs.modMsg
    · exact hs.dropMsg.replied1
  split
  · exact hs
  · exact hs.gateReplied

theorem execReplayRetry_memOk {link seq : Nat} {s : State} (hs : s.memOk) : answerOk (execReplayRetry link seq s) := by
  unfold execReplayRetry
  split
  · exact hs
  split
  · exact hs
  dsimp only
  split
  · exact hs
  · exact hs.putLink

theorem State.memOk.dropRemote {s : State} {n seq : Nat} (hs : s.memOk) : (s.dropRemote n seq).memOk := by
  unfold State.dropRemote
  refine hs.foldl fun t a h => ?_
  dsimp only
  split
  · exact h
  · exact h.putGate

theorem execRouteTimeout_memOk {link seq : Nat} {s : State} (hs : s.memOk) : answerOk (execRouteTimeout link seq s) := by
  unfold execRouteTimeout
  split
  · exact hs
  split
  · split
    · exact hs.dropMsg.replied1
    · exact hs
  split
  · exact hs.gateReplied.dropRemote
  · exact hs

theorem execTimeSync_memOk {off ppm : Int} {s : State} (hs : s.memOk) : answerOk (execTimeSync off ppm s) := by
  unfold execTimeSync
  split
  · exact hs.frame
  · split <;> exact hs.frame

/-! ### Functions of Machine/Host -/

theorem execHostCxlMemAccess_memOk {write : Bool} {hpa n : Nat} {bytes : List Byte} {s : State} (hs : s.memOk) :
    answerOk (execHostCxlMemAccess write hpa n bytes s) := by
  unfold execHostCxlMemAccess
  split
  · dsimp only
    split
    · exact hs.frame
    split
    · exact hs.frame
    · exact hs.poke.frame
  dsimp only
  split
  · exact hs.frame
  split
  · exact hs.frame
  · split <;> exact hs.frame

theorem execArm_memOk {page : Nat} {base : Word} {seq : BitVec 32} {s : State} (hs : s.memOk) : answerOk (execArm page base seq s) := by
  unfold execArm
  refine hs.command fun t h => ?_
  split
  · trivial
  · exact h.frame

theorem execDisarm_memOk {page : Nat} {seq : BitVec 32} {s : State} (hs : s.memOk) : answerOk (execDisarm page seq s) := by
  unfold execDisarm
  exact hs.command fun _ h => h.frame

theorem execStartCheckpoint_memOk {page : Nat} {seq : BitVec 32} {s : State} (hs : s.memOk) :
    answerOk (execStartCheckpoint page seq s) := by
  unfold execStartCheckpoint
  extract_lets run words t
  have hrun : ∀ t, t.memOk → (run t).memOk := fun t ht => by
    unfold run
    split
    · trivial
    · exact ht.frame.unpark
  have ht : t.memOk := hs.frame
  clear_value run t
  split
  · exact hs.command hrun
  split
  · exact hs
  split
  next u hu => exact (hrun t ht).of_later hu
  next => exact ht.endCmd

/-- Cells of a canonical memory below one place, followed by those from a higher place on. -/
theorem Memory.wf_around {m : List Host.Cell} {a b : Nat} (h : Memory.wf m = true) (hab : a ≤ b) :
    Memory.wf (m.filter (fun c => c.1 < a) ++ m.filter (fun c => b ≤ c.1)) = true := by
  rw [Memory.wf_iff] at *
  obtain ⟨hsort, hval⟩ := h
  refine ⟨List.pairwise_append.mpr ⟨hsort.filter _, hsort.filter _, fun c hc d hd => ?_⟩, fun c hc => ?_⟩
  · have hc := (List.mem_filter.mp hc).2
    have hd := (List.mem_filter.mp hd).2
    simp only [decide_eq_true_eq] at hc hd
    omega
  · rcases List.mem_append.mp hc with hc | hc <;> exact hval c (List.mem_filter.mp hc).1

theorem Memory.wf_foldl_write {α : Type} {f : α → Nat × List Byte} {l : List α} {m : List Host.Cell} (h : Memory.wf m = true) :
    Memory.wf (l.foldl (fun m c => memWrite m (f c).1 (f c).2) m) = true :=
  List.foldlRecOn (motive := fun m => Memory.wf m = true) l _ h fun _ hm _ _ => Memory.wf_write _ _ _ hm

theorem State.memOk.copyOut {s : State} {base : Nat} (hs : s.memOk) : (s.copyOut base).memOk :=
  Memory.wf_foldl_write (f := fun c : Nat × Byte => (c.1, [c.2])) (Memory.wf_around hs (Nat.le_add_right ..))

theorem execCheckpointComplete_memOk {s : State} (hs : s.memOk) : answerOk (execCheckpointComplete s) := by
  unfold execCheckpointComplete
  split
  · split
    · exact hs
    · exact hs.copyOut.frame.endCmd
  · exact hs

theorem State.memOk.ring {s : State} {part : Nat} {f : Partition → Partition} (hs : s.memOk) : (s.ring part f).memOk := by
  unfold State.ring
  exact hs.frame.flushNotices

theorem execCons_memOk {page : Nat} {v : BitVec 32} {s : State} (hs : s.memOk) : answerOk (execCons page v s) := by
  unfold execCons
  split
  · exact hs
  · exact hs.ring

theorem State.memOk.submit {s : State} {page off w0 : Nat} (hs : s.memOk) : answerOk (s.submit page off w0) := by
  unfold State.submit
  dsimp only
  split
  · exact execStage1RangeInvalidate_memOk hs
  · exact execStage1ContextInvalidate_memOk hs
  · exact execStage2RangeInvalidate_memOk hs
  · exact execStage2PartitionInvalidate_memOk hs
  · exact execAddSpareFrames_memOk hs
  · exact execLoadPartitionBlock_memOk hs
  · exact execEnable_memOk hs
  · exact execEndContext_memOk hs
  · exact execFlushCrew_memOk hs
  · exact execRestartCrew_memOk hs
  · exact execMigrateOut_memOk hs
  · exact execMigrateIn_memOk hs
  · exact execActivate_memOk hs
  · exact execFreeze_memOk hs
  · exact execThaw_memOk hs
  · exact execRetire_memOk hs
  · exact execBeginMigration_memOk hs
  · exact execEndMigration_memOk hs
  · exact execArm_memOk hs
  · exact execStartCheckpoint_memOk hs
  · exact execDisarm_memOk hs
  · exact hs.command fun _ _ => trivial

theorem State.memOk.blockWrite {s : State} {page off k : Nat} {v : Word} (hs : s.memOk) : answerOk (s.blockWrite page off k v) := by
  unfold State.blockWrite
  split
  · exact hs.submit
  · exact hs.frame

theorem State.memOk.hyperWrite {s : State} {off : Nat} {v : Word} (hs : s.memOk) : (s.hyperWrite off v).memOk := by
  unfold State.hyperWrite
  split
  · exact hs.frame
  split
  · split
    · exact hs.frame
    · exact hs
  split
  · exact hs.frame.reroute
  · exact hs

theorem State.memOk.partWrite {s : State} {page off : Nat} {v : Word} (hs : s.memOk) : answerOk (s.partWrite page off v) := by
  unfold State.partWrite
  split
  · split
    · exact execBell_memOk hs
    split
    · exact execQueueDisable_memOk hs
    · exact execQueueEnable_memOk hs
  split
  · exact hs.ring
  split
  · exact hs.ring
  split
  · exact execCons_memOk hs
  split
  · exact execResume_memOk hs
  · exact hs

theorem State.memOk.cxlWrite {s : State} {off : Nat} {v : Word} (hs : s.memOk) : (s.cxlWrite off v).memOk := by
  unfold State.cxlWrite
  split
  · exact hs
  · exact hs.frame

theorem execRegisterWrite_memOk {page off : Nat} {v : Word} {s : State} (hs : s.memOk) : answerOk (execRegisterWrite page off v s) := by
  unfold execRegisterWrite
  split
  · exact hs
  split
  · exact hs.cxlWrite
  split
  · dsimp only
    split
    · exact hs.blockWrite
    · exact hs.hyperWrite
  dsimp only
  split
  · exact hs.blockWrite
  · exact hs.partWrite

theorem execErrcnt_memOk {w : Nat} {s : State} (hs : s.memOk) : answerOk (execErrcnt w s) := by
  unfold execErrcnt
  split
  · exact hs
  · exact hs.frame

theorem execRetrain_memOk {link : Nat} {s : State} (hs : s.memOk) : answerOk (execRetrain link s) := by
  unfold execRetrain
  split
  · exact hs
  · exact hs.frame

/-! ### Functions of Machine/Platform -/

theorem State.memOk.enterViral {s : State} (hs : s.memOk) : s.enterViral.memOk := by
  unfold State.enterViral
  split
  · exact hs
  extract_lets up t
  have ht : t.memOk := hs.foldl fun _ _ h => h.putLink.setLinkW
  clear_value t
  exact ht.frame

theorem execViralState_memOk {s : State} (hs : s.memOk) : answerOk (execViralState s) := by
  unfold execViralState
  split
  · exact hs
  · exact hs.enterViral

theorem State.memOk.afterReset {s : State} (hs : s.memOk) : s.afterReset.memOk := Memory.wf_filter _ _ hs

theorem State.memOk.retireStacks {s : State} {failed : BitVec 8} (hs : s.memOk) : (s.retireStacks failed).memOk := by
  unfold State.retireStacks
  refine hs.foldl fun t a h => ?_
  split
  · exact h.retireChannel
  · exact h

theorem State.memOk.mapRetired {s : State} (hs : s.memOk) : s.mapRetired.memOk := by
  unfold State.mapRetired
  refine hs.foldl fun t a h => ?_
  split
  · exact h.frame.switchFrame
  · exact h

theorem State.memOk.boot {s : State} {failed : BitVec 8} (hs : s.memOk) : (s.boot failed).memOk := by
  unfold State.boot
  extract_lets t p r p' u p''
  have ht : t.memOk := hs.afterReset
  split
  · exact ht.frame
  have hr : r.memOk := ht.frame.retireStacks
  have hu : u.memOk := hr.frame.mapRetired
  exact hu.frame

theorem execResetBoot_memOk {s : State} (hs : s.memOk) : answerOk (execResetBoot s) := by
  unfold execResetBoot
  exact hs.boot

theorem execCxlReset_memOk {s : State} (hs : s.memOk) : answerOk (execCxlReset s) := by
  unfold execCxlReset
  exact hs.afterReset

theorem execFirmwareUpdate_memOk {image : List Byte} {version : Nat} {sig : BitVec 768} {s : State} (hs : s.memOk) :
    answerOk (execFirmwareUpdate image version sig s) := hs

theorem execPowerCapSet_memOk {watts : Nat} {s : State} (hs : s.memOk) : answerOk (execPowerCapSet watts s) := by
  unfold execPowerCapSet
  split
  · exact hs.frame
  · exact hs

theorem execClockStep_memOk {mhz : Nat} {s : State} (hs : s.memOk) : answerOk (execClockStep mhz s) := by
  unfold execClockStep
  split
  · exact hs.frame
  · exact hs

theorem State.memOk.trip {s : State} (hs : s.memOk) : s.trip.memOk := by
  unfold State.trip
  exact hs.enterViral.frame

theorem execJunctionTrip_memOk {s : State} (hs : s.memOk) : answerOk (execJunctionTrip s) := by
  unfold execJunctionTrip
  exact hs.trip

theorem execInputUndervoltage_memOk {s : State} (hs : s.memOk) : answerOk (execInputUndervoltage s) := by
  unfold execInputUndervoltage
  exact hs.trip

theorem execCertificateRequest_memOk {s : State} (hs : s.memOk) : answerOk (execCertificateRequest s) := by
  unfold execCertificateRequest
  split <;> exact hs.frame

theorem execAttestationRequest_memOk {nonce : BitVec 384} {s : State} (hs : s.memOk) : answerOk (execAttestationRequest nonce s) := by
  unfold execAttestationRequest
  split <;> exact hs.frame

/-! ### Functions of Machine/Queued -/

theorem queuedBody_memOk {code : BitVec 9} {x : Args} :
    OptHolds (fun body : Env → State → Res => ∀ env t, t.memOk → (body env t).memOk) (queuedBody code x) := by
  unfold queuedBody
  iterate 11 refine .ite (.intro fun _ _ h => memOp_memOk h) ?_
  refine .ite (.intro fun _ _ h => ?_) ?_
  · split
    · exact cpDBody_memOk h
    · exact cpBody_memOk h
  refine .ite (.intro fun _ _ h => fbindBody_memOk h) ?_
  refine .ite (.intro fun _ _ h => fetchBody_memOk h) ?_
  refine .ite (.intro fun _ _ h => ovlLdBody_memOk h) ?_
  refine .ite (.intro fun _ _ h => xqCfgBody_memOk h) ?_
  refine .ite (.intro fun _ _ h => xqPushBody_memOk h) ?_
  refine .ite (.intro fun _ _ h => xqPopBody_memOk h) ?_
  refine .ite (.intro fun _ _ h => xqCombBody_memOk h) ?_
  refine .ite (.intro fun _ _ h => signalOp_memOk h) ?_
  refine .ite (.intro fun _ _ h => signalOp_memOk h) ?_
  refine .ite (.intro fun _ _ h => launchBody_memOk h) ?_
  exact .ite (.intro fun _ _ h => h.unbind) trivial

theorem Res.memOk.of_done {r : Res} {s : State} {a : Adv} (h : r.memOk) (e : r = .done s a) : s.memOk := by
  subst e; exact h

theorem State.memOk.leaveQueue {s : State} {op : Nat} {o : Op} {code : BitVec 9} {x : Args} {slot : Nat} {co : Course} {pa : Path}
    {rows : Tab (BitVec 2048)} (hs : s.memOk) : (s.leaveQueue op o code x slot co pa rows).memOk := by
  unfold State.leaveQueue
  split
  · exact hs
  split
  next c body _ hbody =>
    split
    · exact hs
    dsimp only
    split
    next t a hrun => exact ((queuedBody_memOk.of hbody _ _ hs.frame).of_done hrun).frame
    · exact hs.lateTrap.finishOp
    · exact hs.lateTrap.finishOp
    · exact hs
  · exact hs

/-! ### Functions of Machine/Sched -/

theorem State.memOk.settleWait {s : State} {cid p : Nat} (hs : s.memOk) : (s.settleWait cid p).memOk := by
  unfold State.settleWait
  split
  · exact hs
  split
  · exact hs
  split
  · split
    · exact hs.setPath.setPath
    · exact hs.setPath.modCourse
  · exact hs.setPath.modCourse
  · exact hs.setPath.modCourse
  · exact hs.setPath.modCourse
  · exact hs.setPath.setPath
  · exact hs.setPath.modCourse.leaveGate
  · exact hs.setPath.modCourse
  · exact hs.setPath

theorem State.memOk.graftFirst {s : State} {env : Env} {h : Word} (hs : s.memOk) : (s.graftFirst env h).memOk := by
  unfold State.graftFirst
  dsimp only
  split
  · exact hs.trapHere
  · exact hs.leaveSlot.graftDone
  · exact hs.addSilent.lockRanges.leaveSlot.modCourse

theorem State.memOk.startRun {s : State} {k cid p : Nat} (hs : s.memOk) : (s.startRun k cid p).memOk := by
  unfold State.startRun
  dsimp only
  split
  · exact hs.settleWait.modCourse.leaveSlot
  split
  · exact hs.settleWait.modCourse.leaveSlot
  split
  · exact hs.settleWait.modCourse.leaveSlot.setPath.deliver
  split
  · exact hs.settleWait.modCourse.graftFirst
  split
  · exact hs.settleWait.modCourse.leaveSlot.deliver
  · exact hs.settleWait.modCourse

theorem State.memOk.settleDrain {s : State} {cid : Nat} (hs : s.memOk) : (s.settleDrain cid).memOk := by
  unfold State.settleDrain
  split
  · exact hs
  split
  · exact hs
  · exact hs.dropWaits.modCourse

theorem State.memOk.wakeSlot {s : State} {k : Nat} (hs : s.memOk) : (s.wakeSlot k).memOk := by
  unfold State.wakeSlot
  refine hs.foldl fun t a h => ?_
  dsimp only
  split
  · refine State.memOk.settleDrain ?_
    split
    · exact h.adopt.tryResume
    · exact h.adopt
  · exact h.adopt

theorem State.memOk.arbitrate {s : State} {k : Nat} (hs : s.memOk) : (s.arbitrate k).memOk := by
  unfold State.arbitrate
  dsimp only
  split
  · exact hs.wakeSlot
  · exact (hs.wakeSlot.foldl fun _ _ h => h.modCourse).modCourse.frame.startRun

theorem execRunArbitration_memOk {core islot : Nat} {s : State} (hs : s.memOk) : answerOk (execRunArbitration core islot s) := by
  unfold execRunArbitration
  split
  · exact hs
  dsimp only
  split
  · exact hs.frame
  · exact hs.arbitrate

theorem execLongLatencyComplete_memOk {op line : Nat} {s : State} (hs : s.memOk) : answerOk (execLongLatencyComplete op line s) := by
  unfold execLongLatencyComplete
  split
  · exact hs
  split
  · exact hs
  split
  · exact hs.finishOp
  · split
    · exact hs.putOp.finishOp
    · exact hs
  · exact hs.memStep
  · exact hs.fetchDone
  · exact hs.barOpDone
  · exact hs.barOpDone
  · exact hs.appendDone
  · exact hs.pushStep
  · exact hs.popStep
  · exact hs.combStep
  · exact hs.leaveQueue
  · exact hs

theorem State.memOk.putRecord {s : State} {core : Nat} {m : Sampler} {v : Nat} (hs : s.memOk) : (s.putRecord core m v).1.memOk := by
  unfold State.putRecord
  split
  · exact hs
  split
  · exact hs
  dsimp only
  exact hs.pokeNat

theorem execSample_memOk {core part : Nat} {s : State} (hs : s.memOk) : answerOk (execSample core part s) := by
  unfold execSample
  split
  · exact hs
  next m _ =>
    extract_lets next r
    have hr : r.1.memOk := by
      unfold r
      split
      · exact hs
      split
      · exact hs
      · exact hs.putRecord
    clear_value r
    split
    · exact hs
    · exact hr.frame

/-! ### Functions of Machine/Front -/

theorem State.memOk.reloadOvl {s : State} {core ctx j : Nat} {o : Ovl} (hs : s.memOk) : (s.reloadOvl core ctx j o).memOk := by
  unfold State.reloadOvl
  dsimp only
  split
  · exact hs.frame.poke
  · exact hs.frame

theorem State.memOk.imemError {s : State} {env : Env} {j : Nat} {o : Ovl} (hs : s.memOk) : (s.imemError env j o).memOk := by
  unfold State.imemError
  refine hs.reloadOvl.foldl fun t a h => ?_
  split
  · split
    · split
      · exact h.leaveSlot.deliver
      · exact h.leaveSlot
    split
    · exact h.deliver
    · exact h
  split
  · exact h.deliver
  · exact h

theorem State.memOk.fetch {s : State} {env : Env} (hs : s.memOk) : (s.fetch env).memOk := by
  unfold State.fetch
  dsimp only
  split
  · exact hs.leaveSlot.setPath
  split
  · exact hs.tick.trapHere
  split
  · exact hs.tick.trapHere
  split
  · exact hs.tick.imemError
  split
  · split
    · trivial
    · split <;> trivial
  split
  · trivial
  · split <;> trivial

/-! ### One step -/

/-- Every instruction and machine event keeps memory canonical: one arm each. -/
theorem exec_memOk {i : Instr} {s : State} (hs : s.memOk) : answerOk (exec i s) := by
  cases i with
  | add x => exact issue_memOk hs fun _ _ h => intOp_memOk h
  | sub x => exact issue_memOk hs fun _ _ h => intOp_memOk h
  | adds x => exact issue_memOk hs fun _ _ h => intOp_memOk h
  | subs x => exact issue_memOk hs fun _ _ h => intOp_memOk h
  | mul x => exact issue_memOk hs fun _ _ h => intOp_memOk h
  | mulhi x => exact issue_memOk hs fun _ _ h => intOp_memOk h
  | mad x => exact issue_memOk hs fun _ _ h => patOp_memOk h
  | neg x => exact issue_memOk hs fun _ _ h => intOp_memOk h
  | abs x => exact issue_memOk hs fun _ _ h => intOp_memOk h
  | min x => exact issue_memOk hs fun _ _ h => intOp_memOk h
  | max x => exact issue_memOk hs fun _ _ h => intOp_memOk h
  | div x => exact issue_memOk hs fun _ _ h => intOp_memOk h
  | rem x => exact issue_memOk hs fun _ _ h => intOp_memOk h
  | and x => exact issue_memOk hs fun _ _ h => patOp_memOk h
  | or x => exact issue_memOk hs fun _ _ h => patOp_memOk h
  | xor x => exact issue_memOk hs fun _ _ h => patOp_memOk h
  | not x => exact issue_memOk hs fun _ _ h => patOp_memOk h
  | shl x => exact issue_memOk hs fun _ _ h => patOp_memOk h
  | shr x => exact issue_memOk hs fun _ _ h => patOp_memOk h
  | rol x => exact issue_memOk hs fun _ _ h => patOp_memOk h
  | bfx x => exact issue_memOk hs fun _ _ h => patOp_memOk h
  | bfi x => exact issue_memOk hs fun _ _ h => patOp_memOk h
  | popc x => exact issue_memOk hs fun _ _ h => patOp_memOk h
  | clz x => exact issue_memOk hs fun _ _ h => patOp_memOk h
  | brev x => exact issue_memOk hs fun _ _ h => patOp_memOk h
  | sel x => exact execSel_memOk hs
  | mov x => exact issue_memOk hs fun _ _ h => patOp_memOk h
  | lea x => exact issue_memOk hs fun _ _ h => laneOp_memOk h
  | fadd x => exact issue_memOk hs fun _ _ h => fltOp_memOk h
  | fsub x => exact issue_memOk hs fun _ _ h => fltOp_memOk h
  | fmul x => exact issue_memOk hs fun _ _ h => fltOp_memOk h
  | ffma x => exact issue_memOk hs fun _ _ h => fltOp_memOk h
  | fmin x => exact issue_memOk hs fun _ _ h => patOp_memOk h
  | fmax x => exact issue_memOk hs fun _ _ h => patOp_memOk h
  | fneg x => exact issue_memOk hs fun _ _ h => patOp_memOk h
  | fabs x => exact issue_memOk hs fun _ _ h => patOp_memOk h
  | fdiv x => exact issue_memOk hs fun _ _ h => fltOp_memOk h
  | fsqrt x => exact issue_memOk hs fun _ _ h => fltOp_memOk h
  | frcp x => exact issue_memOk hs fun _ _ h => fltOp_memOk h
  | frsq x => exact issue_memOk hs fun _ _ h => fltOp_memOk h
  | cvt x => exact execCvt_memOk hs
  | cvti x => exact issue_memOk hs fun _ _ h => laneOp_memOk h
  | cvtf x => exact issue_memOk hs fun _ _ h => laneOp_memOk h
  | setpEq x => exact issue_memOk hs fun _ _ h => setpOp_memOk h
  | setpNe x => exact issue_memOk hs fun _ _ h => setpOp_memOk h
  | setpLt x => exact issue_memOk hs fun _ _ h => setpOp_memOk h
  | setpLe x => exact issue_memOk hs fun _ _ h => setpOp_memOk h
  | setpGt x => exact issue_memOk hs fun _ _ h => setpOp_memOk h
  | setpGe x => exact issue_memOk hs fun _ _ h => setpOp_memOk h
  | setpUn x => exact issue_memOk hs fun _ _ h => setpOp_memOk h
  | setpNum x => exact issue_memOk hs fun _ _ h => setpOp_memOk h
  | pand x => exact issue_memOk hs fun _ _ h => maskOp_memOk h
  | por x => exact issue_memOk hs fun _ _ h => maskOp_memOk h
  | pxor x => exact issue_memOk hs fun _ _ h => maskOp_memOk h
  | pnot x => exact issue_memOk hs fun _ _ h => maskOp_memOk h
  | voteAny x => exact issue_memOk hs fun _ _ h => voteOp_memOk h
  | voteAll x => exact issue_memOk hs fun _ _ h => voteOp_memOk h
  | voteUniform x => exact issue_memOk hs fun _ _ h => voteOp_memOk h
  | ballot x => exact execBallot_memOk hs
  | pmov x => exact execPmov_memOk hs
  | perm x => exact execPerm_memOk hs
  | lred x => exact issue_memOk hs fun _ _ h => redOp_memOk h
  | lscan x => exact issue_memOk hs fun _ _ h => redOp_memOk h
  | kclr x => exact execKclr_memOk hs
  | kadd x => exact execKadd_memOk hs
  | kmac x => exact execKmac_memOk hs
  | kscan x => exact execKscan_memOk hs
  | krd x => exact execKrd_memOk hs
  | xred x => exact execXred_memOk hs
  | xget x => exact execXget_memOk hs
  | xput x => exact execXput_memOk hs
  | br x => exact issue_memOk hs fun _ _ h => branch_memOk h
  | brx x => exact issue_memOk hs fun _ _ h => branch_memOk h
  | call x => exact execCall_memOk hs
  | callv x => exact execCallv_memOk hs
  | ret x => exact execRet_memOk hs
  | ifRegion x => exact execIfRegion_memOk hs
  | elseRegion x => exact execElseRegion_memOk hs
  | endifRegion x => exact execEndifRegion_memOk hs
  | loopRegion x => exact execLoopRegion_memOk hs
  | breakRegion x => exact execBreakRegion_memOk hs
  | contRegion x => exact execContRegion_memOk hs
  | endloopRegion x => exact execEndloopRegion_memOk hs
  | prio x => exact execPrio_memOk hs
  | yield x => exact execYield_memOk hs
  | exit x => exact execExit_memOk hs
  | nop x => exact execNop_memOk hs
  | mark x => exact execMark_memOk hs
  | cut x => exact execCut_memOk hs
  | graft x => exact execGraft_memOk hs
  | sliceDrop x => exact execSliceDrop_memOk hs
  | sliceAtt x => exact execSliceAtt_memOk hs
  | wflush x => exact execWflush_memOk hs
  | ld x => exact issue_memOk hs fun _ _ h => memOp_memOk h
  | st x => exact issue_memOk hs fun _ _ h => memOp_memOk h
  | atomAdd x => exact issue_memOk hs fun _ _ h => memOp_memOk h
  | atomMin x => exact issue_memOk hs fun _ _ h => memOp_memOk h
  | atomMax x => exact issue_memOk hs fun _ _ h => memOp_memOk h
  | atomAnd x => exact issue_memOk hs fun _ _ h => memOp_memOk h
  | atomOr x => exact issue_memOk hs fun _ _ h => memOp_memOk h
  | atomXor x => exact issue_memOk hs fun _ _ h => memOp_memOk h
  | atomXchg x => exact issue_memOk hs fun _ _ h => memOp_memOk h
  | atomCas x => exact issue_memOk hs fun _ _ h => memOp_memOk h
  | amaxp x => exact issue_memOk hs fun _ _ h => memOp_memOk h
  | park x => exact execPark_memOk hs
  | fenceAcq x => exact issue_memOk hs fun _ _ h => fenceOp_memOk h
  | fenceRel x => exact issue_memOk hs fun _ _ h => fenceOp_memOk h
  | fenceAr x => exact issue_memOk hs fun _ _ h => fenceOp_memOk h
  | fenceSc x => exact issue_memOk hs fun _ _ h => fenceOp_memOk h
  | tfence x => exact issue_memOk hs fun _ _ h => fenceOp_memOk h
  | tmv x => exact issue_memOk hs fun _ _ h => moveOp_memOk h
  | cp x => exact issue_memOk hs fun _ _ h => cpBody_memOk h
  | cpD x => exact issue_memOk hs fun _ _ h => cpDBody_memOk h
  | fbind x => exact issue_memOk hs fun _ _ h => fbindBody_memOk h
  | fetch x => exact issue_memOk hs fun _ _ h => fetchBody_memOk h
  | ovlLd x => exact issue_memOk hs fun _ _ h => ovlLdBody_memOk h
  | wbld x => exact execWbld_memOk hs
  | funbind x => exact execFunbind_memOk hs
  | tzero x => exact issue_memOk hs fun _ _ h => moveOp_memOk h
  | mmaE4m3 x => exact issue_memOk hs fun _ _ h => matOp_memOk h
  | mmaE5m2 x => exact issue_memOk hs fun _ _ h => matOp_memOk h
  | mmaI8 x => exact issue_memOk hs fun _ _ h => matOp_memOk h
  | mmaBf16 x => exact issue_memOk hs fun _ _ h => matOp_memOk h
  | mmaF16 x => exact issue_memOk hs fun _ _ h => matOp_memOk h
  | mmaF32 x => exact issue_memOk hs fun _ _ h => matOp_memOk h
  | mmaF64 x => exact issue_memOk hs fun _ _ h => matOp_memOk h
  | mmqQ4g x => exact issue_memOk hs fun _ _ h => matOp_memOk h
  | mmqQ8g x => exact issue_memOk hs fun _ _ h => matOp_memOk h
  | mmspE4m3 x => exact issue_memOk hs fun _ _ h => matOp_memOk h
  | mmspE5m2 x => exact issue_memOk hs fun _ _ h => matOp_memOk h
  | mmspI8 x => exact issue_memOk hs fun _ _ h => matOp_memOk h
  | mmspBf16 x => exact issue_memOk hs fun _ _ h => matOp_memOk h
  | mmspF16 x => exact issue_memOk hs fun _ _ h => matOp_memOk h
  | mzero x => exact execMzero_memOk hs
  | mld x => exact issue_memOk hs fun _ _ h => xferOp_memOk h
  | mstr x => exact issue_memOk hs fun _ _ h => xferOp_memOk h
  | mshape x => exact execMshape_memOk hs
  | spdg x => exact issue_memOk hs fun _ _ h => sparsityOp_memOk h
  | spsal x => exact issue_memOk hs fun _ _ h => sparsityOp_memOk h
  | mtalloc x => exact execMtalloc_memOk hs
  | mtfree x => exact execMtfree_memOk hs
  | eaNew x => exact execEaNew_memOk hs
  | eaFree x => exact issue_memOk hs fun _ _ h => eaStruct_memOk h
  | eaIns x => exact issue_memOk hs fun _ _ h => eaStruct_memOk h
  | eaDel x => exact issue_memOk hs fun _ _ h => eaStruct_memOk h
  | eaSplit x => exact issue_memOk hs fun _ _ h => eaStruct_memOk h
  | eaCat x => exact issue_memOk hs fun _ _ h => eaStruct_memOk h
  | eaMort x => exact issue_memOk hs fun _ _ h => eaStruct_memOk h
  | eaFill x => exact issue_memOk hs fun _ _ h => eaStruct_memOk h
  | eaSeal x => exact issue_memOk hs fun _ _ h => eaStruct_memOk h
  | eaRank x => exact issue_memOk hs fun _ _ h => eaRead_memOk h
  | eaPeg x => exact issue_memOk hs fun _ _ h => eaRead_memOk h
  | eaLen x => exact issue_memOk hs fun _ _ h => eaRead_memOk h
  | xqCfg x => exact issue_memOk hs fun _ _ h => xqCfgBody_memOk h
  | xqPush x => exact issue_memOk hs fun _ _ h => xqPushBody_memOk h
  | xqPop x => exact issue_memOk hs fun _ _ h => xqPopBody_memOk h
  | xqComb x => exact issue_memOk hs fun _ _ h => xqCombBody_memOk h
  | xqDone x => exact execXqDone_memOk hs
  | xqStat x => exact execXqStat_memOk hs
  | crewJoin x => exact execCrewJoin_memOk hs
  | crewLeave x => exact issue_memOk hs fun _ _ h => crewOp_memOk h
  | crewInfo x => exact execCrewInfo_memOk hs
  | barBind x => exact execBarBind_memOk hs
  | barArrive x => exact issue_memOk hs fun _ _ h => arriveOp_memOk h
  | barArriveEnrol x => exact issue_memOk hs fun _ _ h => arriveOp_memOk h
  | barArriveDrop x => exact issue_memOk hs fun _ _ h => arriveOp_memOk h
  | barWait x => exact execBarWait_memOk hs
  | barFree x => exact execBarFree_memOk hs
  | sigDec x => exact issue_memOk hs fun _ _ h => signalOp_memOk h
  | sigWait x => exact execSigWait_memOk hs
  | sigSet x => exact issue_memOk hs fun _ _ h => signalOp_memOk h
  | gateSig x => exact execGateSig_memOk hs
  | gateWait x => exact execGateWait_memOk hs
  | gateRd x => exact execGateRd_memOk hs
  | srd x => exact execSrd_memOk hs
  | swr x => exact execSwr_memOk hs
  | trap x => exact execTrap_memOk hs
  | trapret x => exact execTrapret_memOk hs
  | region x => exact execRegion_memOk hs
  | sigchk x => exact execSigchk_memOk hs
  | launch x => exact issue_memOk hs fun _ _ h => launchBody_memOk h
  | profOff x => exact execProfOff_memOk hs
  | profOn x => exact execProfOn_memOk hs
  | profBuf x => exact execProfBuf_memOk hs
  | profRdp x => exact execProfRdp_memOk hs
  | profCons x => exact execProfCons_memOk hs
  | profDrop x => exact execProfDrop_memOk hs
  | dbg x => exact execDbg_memOk hs
  | runArbitration core islot => exact execRunArbitration_memOk hs
  | longLatencyComplete op line => exact execLongLatencyComplete_memOk hs
  | sample core part => exact execSample_memOk hs
  | parkWake cid p => exact execParkWake_memOk hs
  | parkTimeout cid p => exact execParkTimeout_memOk hs
  | tmvLineArrival op n => exact execTmvLineArrival_memOk hs
  | copyEngineAcquire op => exact execCopyEngineAcquire_memOk hs
  | cpComplete op => exact execCpComplete_memOk hs
  | engineFault op => exact execEngineFault_memOk hs
  | rangeLockEntryFree op => exact execRangeLockEntryFree_memOk hs
  | wbldLineArrival bent j => exact execWbldLineArrival_memOk hs
  | ovlUnload op => exact execOvlUnload_memOk hs
  | ovlLdComplete op => exact execOvlLdComplete_memOk hs
  | fbindComplete op => exact execFbindComplete_memOk hs
  | funbindRelease op => exact execFunbindRelease_memOk hs
  | wflushComplete op => exact execWflushComplete_memOk hs
  | sliceCopyComplete op => exact execSliceCopyComplete_memOk hs
  | sliceDropComplete op => exact execSliceDropComplete_memOk hs
  | matrixQueueServe bent => exact execMatrixQueueServe_memOk hs
  | matrixStep bent => exact execMatrixStep_memOk hs
  | matrixOpComplete bent => exact execMatrixOpComplete_memOk hs
  | tileSaveFinished bent tile => exact execTileSaveFinished_memOk hs
  | eaAccept op => exact execEaAccept_memOk hs
  | eaCommit op => exact execEaCommit_memOk hs
  | shootdown op core => exact execShootdown_memOk hs
  | shootdownAck op core => exact execShootdownAck_memOk hs
  | eaCommitComplete op => exact execEaCommitComplete_memOk hs
  | walkComplete core n => exact execWalkComplete_memOk hs
  | crewEventApply op => exact execCrewEventApply_memOk hs
  | barArrivalApply op => exact execBarArrivalApply_memOk hs
  | barReleaseWake cid p => exact execBarReleaseWake_memOk hs
  | signalWriteReeval pa => exact execSignalWriteReeval_memOk hs
  | xredComplete op => exact execXredComplete_memOk hs
  | nodeStart q slot => exact execNodeStart_memOk hs
  | nodeComplete q slot => exact execNodeComplete_memOk hs
  | nodeFault q slot => exact execNodeFault_memOk hs
  | placement kern => exact execPlacement_memOk hs
  | courseStart cid => exact execCourseStart_memOk hs
  | courseRetire cid => exact execCourseRetire_memOk hs
  | xqCfgApply op => exact execXqCfgApply_memOk hs
  | selectionRound die => exact execSelectionRound_memOk hs
  | replayRetry link seq => exact execReplayRetry_memOk hs
  | routeTimeout link seq => exact execRouteTimeout_memOk hs
  | gateTokenRefill gate n => exact execGateTokenRefill_memOk hs
  | gateDeferTimeout op => exact execGateDeferTimeout_memOk hs
  | slotBoundary part => exact execSlotBoundary_memOk hs
  | reclaim part cid => exact execReclaim_memOk hs
  | lendReturn part => exact execLendReturn_memOk hs
  | partitionLoadEffect part => exact execPartitionLoadEffect_memOk hs
  | courseRelocate cid => exact execCourseRelocate_memOk hs
  | invalidationAck page => exact execInvalidationAck_memOk hs
  | contextEndComplete ctx => exact execContextEndComplete_memOk hs
  | migrateOutSaveFinished ctx => exact execMigrateOutSaveFinished_memOk hs
  | migrationLineCopy frame => exact execMigrationLineCopy_memOk hs
  | trainingRetry link => exact execTrainingRetry_memOk hs
  | laneErrorThreshold link lane => exact execLaneErrorThreshold_memOk hs
  | rankWalk core handle rank => exact execRankWalk_memOk hs
  | walkStart core ctx va => exact execWalkStart_memOk hs
  | remotePush link seq dev queue tag row => exact execRemotePush_memOk hs
  | combineMessage link seq queue layer tag kmax outu row => exact execCombineMessage_memOk hs
  | linkReply link seq r => exact execLinkReply_memOk hs
  | gateMessage link seq gate pkg part op => exact execGateMessage_memOk hs
  | bentRetire bent => exact execBentRetire_memOk hs
  | queueEnable page q va => exact execQueueEnable_memOk hs
  | queueDisable page q => exact execQueueDisable_memOk hs
  | bell page q tail => exact execBell_memOk hs
  | resume page ctx core cslot p => exact execResume_memOk hs
  | cons page v => exact execCons_memOk hs
  | stage1RangeInvalidate page part ctx base count seq => exact execStage1RangeInvalidate_memOk hs
  | stage1ContextInvalidate page part ctx seq => exact execStage1ContextInvalidate_memOk hs
  | stage2RangeInvalidate page part base count seq => exact execStage2RangeInvalidate_memOk hs
  | stage2PartitionInvalidate page part seq => exact execStage2PartitionInvalidate_memOk hs
  | addSpareFrames page base count seq => exact execAddSpareFrames_memOk hs
  | loadPartitionBlock page part addr seq => exact execLoadPartitionBlock_memOk hs
  | enable page part ctx addr seq => exact execEnable_memOk hs
  | endContext page part ctx seq => exact execEndContext_memOk hs
  | flushCrew page part ctx crew seq => exact execFlushCrew_memOk hs
  | restartCrew page part ctx crew seq => exact execRestartCrew_memOk hs
  | migrateOut page part ctx seq => exact execMigrateOut_memOk hs
  | migrateIn page part ctx addr seq => exact execMigrateIn_memOk hs
  | activate page gate ver seq => exact execActivate_memOk hs
  | freeze page gate seq => exact execFreeze_memOk hs
  | thaw page gate seq => exact execThaw_memOk hs
  | retire page gate seq => exact execRetire_memOk hs
  | beginMigration page gate acli seq => exact execBeginMigration_memOk hs
  | endMigration page gate seq => exact execEndMigration_memOk hs
  | arm page base seq => exact execArm_memOk hs
  | startCheckpoint page seq => exact execStartCheckpoint_memOk hs
  | disarm page seq => exact execDisarm_memOk hs
  | checkpointComplete => exact execCheckpointComplete_memOk hs
  | errcnt w => exact execErrcnt_memOk hs
  | retrain link => exact execRetrain_memOk hs
  | registerWrite page off v => exact execRegisterWrite_memOk hs
  | peerWrite off bytes => exact execPeerWrite_memOk hs
  | hostCxlMemAccess write hpa n bytes => exact execHostCxlMemAccess_memOk hs
  | decodeFrame q slot frame err last => exact execDecodeFrame_memOk hs
  | frameRetireTrigger frame reason block => exact execFrameRetireTrigger_memOk hs
  | illegalEncoding sub => exact execIllegalEncoding_memOk hs
  | correctedError frame => exact execCorrectedError_memOk hs
  | scrub frame => exact execScrub_memOk (_frame := frame) hs
  | viralState => exact execViralState_memOk hs
  | cxlReset => exact execCxlReset_memOk hs
  | linkPowerUp link => exact execLinkPowerUp_memOk hs
  | trainingSucceeds link peer ver => exact execTrainingSucceeds_memOk hs
  | trainingFails link => exact execTrainingFails_memOk hs
  | flitCrcFailure link lane => exact execFlitCrcFailure_memOk hs
  | viralFlitReceived link => exact execViralFlitReceived_memOk hs
  | timeSync off ppm => exact execTimeSync_memOk hs
  | powerCapSet watts => exact execPowerCapSet_memOk hs
  | clockStep mhz => exact execClockStep_memOk hs
  | junctionTrip => exact execJunctionTrip_memOk hs
  | inputUndervoltage => exact execInputUndervoltage_memOk hs
  | resetBoot => exact execResetBoot_memOk hs
  | firmwareUpdate image version sig => exact execFirmwareUpdate_memOk hs
  | certificateRequest => exact execCertificateRequest_memOk hs
  | attestationRequest nonce => exact execAttestationRequest_memOk hs
  | queueResume page q => exact execQueueResume_memOk hs

/-- What the machine takes up next carries canonical memory. -/
def Turn.memOk : Turn → Prop
  | .stop s => s.memOk
  | .event _ | .instr _ | .bad _ | .idle => True

theorem State.memOk.nextTurn {s : State} (hs : s.memOk) : s.nextTurn.memOk := by
  unfold State.nextTurn
  split
  · trivial
  · split
    · trivial
    · split
      · trivial
      next env _ _ _ =>
        have hf : (s.fetch env).memOk := hs.fetch
        split
        · trivial
        · trivial
        next t ht =>
          rw [ht] at hf
          exact hf

theorem step_memOk {s : State} (hs : s.memOk) : answerOk (step s) := by
  unfold step
  split
  · exact exec_memOk hs.frame
  · have ht := hs.nextTurn
    split
    · exact exec_memOk hs
    · exact exec_memOk hs
    · exact execIllegalEncoding_memOk hs
    next t hturn =>
      rw [hturn] at ht
      exact ht
    · split
      · exact exec_memOk hs
      · exact hs.tick

/-- Settles O3: every function that a step is made of keeps the form, and the only writes of memory go through `memWrite` and the filters
that keep it. -/
theorem memoryStaysCanonical : Obligations.MemoryStaysCanonical := by
  unfold Obligations.MemoryStaysCanonical
  intro s t hs hstep
  have h := step_memOk hs
  rw [hstep] at h
  exact h

end Sys2Proof.Machine

/-! PROOFS. The encoder and the decoder agree: O1 and O2. -/

namespace Sys2Proof

/-! ### The row of the tables that stands for an instruction -/

/-- The rows of an OP (R48). -/
def rowsOf (op : BitVec 9) : List (Entry × (Args → Instr)) := (classTable op).filter (fun p => p.1.op = op)

/-- Among the rows of its OP, an entry is the first that stands for the word of fields that keep its rules, and it builds the instruction. -/
def RowOf (i : Instr) (e : Entry) (x : Args) : Prop :=
  ∃ mk, (rowsOf e.op).find? (fun p => p.1.selects (rawOf e x)) = some (e, mk) ∧ mk x = i

/-- The entry of an OP with one row is the one found. -/
theorem rowOf_alone {e : Entry} {mk : Args → Instr} {x : Args} (hb : e.broken x = []) (hr : rowsOf e.op = [(e, mk)]) (hs : e.bsel = none) :
    RowOf (mk x) e x :=
  ⟨mk, row_single e mk x hr hs (modsOk_of hb), rfl⟩

/-- The scope that a fence names (R46, R159). -/
theorem scope_of_modsOk {k : BitVec 2} {m : Mod} (h : (ModSpec.scope k).ok m = true) : ∃ c, m = .scope c := by
  cases m with
  | scope c => exact ⟨c, rfl⟩
  | _ => cases h

/-- The word of a fence selects the row of its kind, which MOD[4:3] gives (R48, R159). -/
theorem fence_find {e : Entry} {k : BitVec 2} {x : Args} (hb : e.broken x = []) (hop : e.op = 0x10C) (hm : e.mods = .scope k) :
    (rowsOf e.op).find? (fun p => p.1.selects (rawOf e x)) =
      [(Enc.fenceAcq, Instr.fenceAcq), (Enc.fenceRel, Instr.fenceRel), (Enc.fenceAr, Instr.fenceAr), (Enc.fenceSc, Instr.fenceSc)][k.toNat]? := by
  obtain ⟨c, hc⟩ := scope_of_modsOk (hm ▸ modsOk_of hb)
  have hr : (rawOf e x).mod = k ++ c.code := by
    change e.mods.encode x.m = _
    rw [hm, hc]
    rfl
  rw [hop]
  change ((classTable 0x10C).filter (fun p => p.1.op = 0x10C)).find? _ = _
  rw [fence_rows]
  simp only [List.find?_cons, selects_scope Enc.fenceAcq 0 k c _ rfl rfl hr, selects_scope Enc.fenceRel 1 k c _ rfl rfl hr,
    selects_scope Enc.fenceAr 2 k c _ rfl rfl hr, selects_scope Enc.fenceSc 3 k c _ rfl rfl hr]
  have four : ∀ k : BitVec 2, k = 0 ∨ k = 1 ∨ k = 2 ∨ k = 3 := by decide
  rcases four k with rfl | rfl | rfl | rfl <;> rfl

/-- The rules of an entry include the entry's own. -/
theorem extra_nil {e : Entry} {x : Args} (h : e.broken x = []) : e.extra x = [] := by
  unfold Entry.broken at h
  exact (List.append_eq_nil_iff.mp h).2

/-- The operands of fields that break no rule keep their fields' forms (R35). -/
theorem operands_fit {e : Entry} {x : Args} (h : e.broken x = []) :
    e.d.broken true x.m.tyD x.d = [] ∧ e.a.broken false x.m.tyD x.a = [] ∧ e.b.broken false x.m.tyD x.b = [] := by
  unfold Entry.broken at h
  simp only [List.append_eq_nil_iff] at h
  obtain ⟨⟨⟨⟨⟨⟨-, hd⟩, ha⟩, hb⟩, -⟩, -⟩, -⟩ := h
  exact ⟨hd, ha, hb⟩

/-- A field that may hold an immediate alone holds one. -/
theorem imm_of_broken {t : Ty} {o : Opnd} (h : fI.broken false t o = []) : ∃ v, o = .imm v := by
  cases o with
  | imm v => exact ⟨v, rfl⟩
  | _ => cases h

/-- A field that keeps the range of one value holds it. -/
theorem eq_of_immRange {k : BitVec 16} {v : BitVec 16} (h : immRange k.toNat k.toNat (.imm v) = []) : v = k := by
  unfold immRange at h
  dsimp only at h
  split at h
  · exact BitVec.eq_of_toNat_eq (by omega)
  · cases h

/-- B of a plain arrival is zero: the values that it shares its OP with are refused (R230). -/
theorem arrive_b_zero {x : Args} (h : Enc.barArrive.broken x = []) : x.b = .zero := by
  obtain ⟨-, -, hb⟩ := operands_fit h
  have he : arriveCheck x = [] := extra_nil h
  unfold arriveCheck at he
  cases hx : x.b with
  | zero => rfl
  | imm v => rw [hx] at he; cases he
  | _ => rw [hx] at hb; cases hb

/-- A B field in which one value alone is allowed holds it. -/
theorem b_eq_imm {e : Entry} {x : Args} {k : BitVec 16} (h : e.broken x = []) (hf : e.b = fI)
    (hx : e.extra x = immRange k.toNat k.toNat x.b) : x.b = .imm k := by
  obtain ⟨-, -, hb⟩ := operands_fit h
  obtain ⟨v, hv⟩ := imm_of_broken (hf ▸ hb)
  have he := extra_nil h
  rw [hx, hv] at he
  rw [hv, eq_of_immRange he]

theorem rowOf_barArriveEnrol {x : Args} (h : Enc.barArriveEnrol.broken x = []) : RowOf (.barArriveEnrol x) Enc.barArriveEnrol x := by
  refine ⟨Instr.barArriveEnrol, ?_, rfl⟩
  unfold rawOf
  rw [b_eq_imm (k := 1) h rfl rfl]
  rfl

theorem rowOf_barArriveDrop {x : Args} (h : Enc.barArriveDrop.broken x = []) : RowOf (.barArriveDrop x) Enc.barArriveDrop x := by
  refine ⟨Instr.barArriveDrop, ?_, rfl⟩
  unfold rawOf
  rw [b_eq_imm (k := 2) h rfl rfl]
  rfl

theorem rowOf_barArrive {x : Args} (h : Enc.barArrive.broken x = []) : RowOf (.barArrive x) Enc.barArrive x := by
  refine ⟨Instr.barArrive, ?_, rfl⟩
  unfold rawOf
  rw [arrive_b_zero h]
  rfl

/-- An instruction's word selects the instruction's own row; the rows that share an OP are told apart by MOD or by B (R48). -/
theorem rowOf_parts {i : Instr} {e : Entry} {x : Args} (hp : i.parts = some (e, x)) (hb : e.broken x = []) : RowOf i e x := by
  cases i with
  | voteAny y | voteAll y | voteUniform y | cp y | cpD y | profOff y | profOn y | profBuf y | profRdp y | profCons y | profDrop y =>
    cases hp
    exact ⟨_, rfl, rfl⟩
  | fenceAcq y | fenceRel y | fenceAr y | fenceSc y =>
    cases hp
    exact ⟨_, fence_find hb rfl rfl, rfl⟩
  | barArriveEnrol y =>
    cases hp
    exact rowOf_barArriveEnrol hb
  | barArriveDrop y =>
    cases hp
    exact rowOf_barArriveDrop hb
  | barArrive y =>
    cases hp
    exact rowOf_barArrive hb
  | _ => cases hp <;> exact rowOf_alone hb rfl rfl

/-- Every row of the map keeps a field that may be unused and a vector apart (R35). -/
theorem zv_apart {i : Instr} {e : Entry} {x : Args} (hp : i.parts = some (e, x)) :
    ((e.d.z && e.d.v) || (e.a.z && e.a.v) || (e.b.z && e.b.v)) = false := by
  cases i <;> cases hp <;> rfl

/-- The word of an instruction that has one is the word of its fields (R33). -/
theorem encode_of_parts {i : Instr} {e : Entry} {x : Args} (hp : i.parts = some (e, x)) : encode i = (rawOf e x).toWord := by
  unfold encode
  rw [hp]
  rfl

/-- A well-formed instruction breaks no rule of its entry. -/
theorem Instr.wf_iff {i : Instr} {e : Entry} {x : Args} (hp : i.parts = some (e, x)) : i.wf = true ↔ e.broken x = [] := by
  unfold Instr.wf
  rw [hp]
  exact List.isEmpty_iff

/-- Settles O1: the word cuts into the fields it was made of, they select the instruction's own row, and every field is read back. -/
theorem decodeEncode : Obligations.DecodeEncode := by
  unfold Obligations.DecodeEncode
  intro i e x ctx hp hwf hadm
  have hb : e.broken x = [] := (Instr.wf_iff hp).mp hwf
  obtain ⟨mk, hrow, hmk⟩ := rowOf_parts hp hb
  rw [encode_of_parts hp, ← hmk]
  exact decode_row ctx e mk x hrow (zv_apart hp) hb hadm

/-! ### What a word decodes to -/

/-- What a decoded word is: the row that it selects, and the fields it is cut into, none of which breaks a rule (R51). -/
structure Decoded (ctx : RunCtx) (r : Raw) (e : Entry) (mk : Args → Instr) (x : Args) : Prop where
  row : (rowsOf r.op).find? (fun p => p.1.selects r) = some (e, mk)
  g : x.g = parseGuard r.g
  h : x.h = (parseHint ctx r.h).1
  m : x.m = (e.mods.parse r.mod).getD .none
  d : x.d = (parseOpnd true e.d r.d).1
  a : x.a = (parseOpnd false e.a r.a).1
  b : x.b = (parseOpnd false e.b r.b).1
  hFits : (parseHint ctx r.h).2 = []
  dFits : (parseOpnd true e.d r.d).2 = []
  aFits : (parseOpnd false e.a r.a).2 = []
  bFits : (parseOpnd false e.b r.b).2 = []
  fits : e.broken x = []

/-- A word decodes only through one row, with no rule broken. -/
theorem decoded_of_ok {ctx : RunCtx} {w : BitVec 96} {i : Instr} (h : decode ctx w = .ok i) :
    ∃ e mk x, i = mk x ∧ Decoded ctx (Raw.ofWord w) e mk x := by
  unfold decode at h
  dsimp only at h
  split at h
  · cases h
  · next e mk hrow =>
    split at h
    · next hnone =>
      have hnil := firstBroken_none _ hnone
      simp only [List.append_eq_nil_iff] at hnil
      obtain ⟨⟨⟨⟨hh, hd⟩, ha⟩, hb⟩, hx⟩ := hnil
      cases h
      exact ⟨e, mk, _, rfl, hrow, rfl, rfl, rfl, rfl, rfl, rfl, hh, hd, ha, hb, hx⟩
    · cases h

section
variable {ctx : RunCtx} {r : Raw} {e : Entry} {mk : Args → Instr} {x : Args}

/-- The row's instruction has the row's entry and the fields. -/
theorem Decoded.parts (h : Decoded ctx r e mk x) : (mk x).parts = some (e, x) :=
  (rows_ok r.op (e, mk) (List.mem_of_mem_filter (List.mem_of_find?_eq_some h.row))).1 x

theorem Decoded.op (h : Decoded ctx r e mk x) : e.op = r.op := by
  simpa using List.of_mem_filter (List.mem_of_find?_eq_some h.row)

/-- The row lists the modifier. -/
theorem Decoded.mod (h : Decoded ctx r e mk x) : e.mods.parse r.mod = some x.m := by
  have hs := List.find?_some (p := fun q : Entry × (Args → Instr) => q.1.selects r) h.row
  dsimp only at hs
  unfold Entry.selects at hs
  rw [Bool.and_eq_true] at hs
  obtain ⟨m, hm⟩ := Option.isSome_iff_exists.mp hs.1
  rw [h.m, hm]
  rfl

/-- The hint is read back as it was, and can stand at its place (R41). -/
theorem Decoded.hint (h : Decoded ctx r e mk x) : encodeHint x.h = r.h ∧ ctx.admits x.h = true := by
  rw [h.h]
  exact encode_parseHint ctx r.h h.hFits

/-- An operand field that breaks no rule is written back as it was read (R35, R37). -/
theorem encodeOpnd_eq {f : FieldSpec} {isD : Bool} {t : Ty} {o : Opnd} {w : BitVec 18} (ho : o = (parseOpnd isD f w).1)
    (hw : (parseOpnd isD f w).2 = []) (hb : f.broken isD t o = []) : encodeOpnd o = w := by
  subst ho
  exact encode_parseOpnd f isD t w hw hb

/-- The fields of the decoded instruction's word are those of the word that was read. -/
theorem Decoded.raw (h : Decoded ctx r e mk x) : rawOf e x = r := by
  obtain ⟨hd, ha, hb⟩ := operands_fit h.fits
  unfold rawOf
  rw [h.op, encode_parseMod _ _ _ h.mod, h.g, encode_parseGuard, h.hint.1, encodeOpnd_eq h.d h.dFits hd, encodeOpnd_eq h.a h.aFits ha,
    encodeOpnd_eq h.b h.bFits hb]

end

/-- Settles O2: the fields that a word is cut into are those of the instruction it decodes to, so packing them gives the word. -/
theorem encodeDecode : Obligations.EncodeDecode := by
  unfold Obligations.EncodeDecode
  intro i ctx w hdec
  obtain ⟨e, mk, x, rfl, h⟩ := decoded_of_ok hdec
  refine ⟨?_, ?_, ?_⟩
  · rw [encode_of_parts h.parts, h.raw, toWord_ofWord]
  · unfold Instr.encodable
    rw [(Instr.wf_iff h.parts).mpr h.fits, h.parts]
    rfl
  · intro e' x' hp
    have hx : x = x' := congrArg Prod.snd (Option.some.inj (h.parts.symm.trans hp))
    exact hx ▸ h.hint.2

end Sys2Proof

/-! PROOFS. Words that the spec writes out, and what a step does with the word it reads: O5 and O6. -/

namespace Sys2Proof.Machine

/-- Settles O5: each word is cut and read by evaluation. -/
theorem decodeWords : Obligations.DecodeWords := by
  unfold Obligations.DecodeWords
  intro v one
  exact ⟨rfl, rfl, rfl, rfl, rfl, rfl, rfl, rfl, rfl⟩

/-! ### What a step takes up (log entry 4) -/

theorem step_of_agenda {s : State} {e : Instr} {l : List Instr} (h : s.agenda = e :: l) : step s = exec e { s with agenda := l } := by
  unfold step
  rw [h]

theorem step_of_due {s : State} {m : Instr} (h : s.agenda = []) (hdue : s.dueSampler = some m) : step s = exec m s := by
  unfold step State.nextTurn
  rw [h, hdue]

/-- What the machine takes up after a fetch. -/
def Found.turn : Found → Turn
  | .run i => .instr i
  | .bad sub => .bad sub
  | .stop t => .stop t

/-- What a step does with what the issuing path finds at its code address. -/
def Found.outcome (s : State) : Found → Host.Outcome State Fault Refusal
  | .run i => exec i s
  | .bad sub => execIllegalEncoding sub s
  | .stop t => .next t

/-- With no sample due and its home not awaited, the issuing path has the turn, and fetches. -/
theorem nextTurn_of_issuing {s : State} {env : Env} (hdue : s.dueSampler = none) (hup : s.up = true)
    (hi : s.issuing = some env) (hh : s.homeEvent env = none) : s.nextTurn = (s.fetch env).turn := by
  unfold State.nextTurn
  cases hf : s.fetch env <;> simp only [hdue, hup, hi, hh, hf, if_true, Found.turn]

theorem step_of_issuing {s : State} {env : Env} (h : s.agenda = []) (hdue : s.dueSampler = none) (hup : s.up = true)
    (hi : s.issuing = some env) (hh : s.homeEvent env = none) : step s = (s.fetch env).outcome s := by
  unfold step
  rw [h, nextTurn_of_issuing hdue hup hi hh]
  cases s.fetch env <;> rfl

/-! ### Fetching (R34, R40, R216) -/

section
variable {s : State} {env : Env} {j : Nat} {o : Ovl}

/-- A path at the head of a run finds its overlay not being loaded; one in a run does not look. -/
theorem fetch_not_loading (hl : env.pa.run = none → s.loadingOvl env.co.core env.co.ctx env.pa.ovl = false) :
    (env.pa.run.isNone && s.loadingOvl env.co.core env.co.ctx env.pa.ovl) = false := by
  cases hr : env.pa.run with
  | none => rw [hl hr]; rfl
  | some r => rfl

theorem fetch_without_overlay (hl : env.pa.run = none → s.loadingOvl env.co.core env.co.ctx env.pa.ovl = false)
    (hslot : s.ovlSlot env.co.core env.co.ctx env.pa.ovl = none) : s.fetch env = .stop (s.tick.trapHere env Trap.ovl) := by
  unfold State.fetch
  dsimp only
  rw [fetch_not_loading hl, hslot]
  rfl

theorem fetch_past_end (hl : env.pa.run = none → s.loadingOvl env.co.core env.co.ctx env.pa.ovl = false)
    (hslot : s.ovlSlot env.co.core env.co.ctx env.pa.ovl = some (j, o)) (hn : o.n ≤ env.pa.idx) :
    s.fetch env = .stop (s.tick.trapHere env Trap.ovl) := by
  unfold State.fetch
  dsimp only
  rw [fetch_not_loading hl, hslot]
  simp [hn]

/-- What the word at the issuing path's code address in overlay slot j stands for (R51). -/
def State.readWord (s : State) (env : Env) (j : Nat) : Found :=
  match decode (runCtx env.pa.run) (s.word env.co.core j env.pa.idx) with
  | .ok i => .run i
  | .error sub => .bad (if s.offStart env (s.word env.co.core j env.pa.idx) then Sub.runstart else sub)

theorem readWord_ok {i : Instr} (h : decode (runCtx env.pa.run) (s.word env.co.core j env.pa.idx) = .ok i) : s.readWord env j = .run i := by
  unfold State.readWord
  rw [h]

theorem readWord_error {sub : BitVec 8} (h : decode (runCtx env.pa.run) (s.word env.co.core j env.pa.idx) = .error sub) :
    s.readWord env j = .bad (if s.offStart env (s.word env.co.core j env.pa.idx) then Sub.runstart else sub) := by
  unfold State.readWord
  rw [h]

/-- Inside its overlay, which no unload has marked before the run and whose word carries no error, a path reads the word, unless the run is full. -/
theorem fetch_inside (hl : env.pa.run = none → s.loadingOvl env.co.core env.co.ctx env.pa.ovl = false ∧ o.mark = [])
    (hslot : s.ovlSlot env.co.core env.co.ctx env.pa.ovl = some (j, o)) (hn : env.pa.idx < o.n)
    (hp : s.poisoned (imemBase env.co.core j + 12 * env.pa.idx) 12 = none) :
    s.fetch env = if 24 ≤ (env.pa.run.map (·.len)).getD 0 then .bad Sub.runlen else s.readWord env j := by
  have hm : (env.pa.run.isNone && !o.mark.isEmpty) = false := by
    cases hr : env.pa.run with
    | none => rw [(hl hr).2]; rfl
    | some r => rfl
  unfold State.fetch State.readWord
  dsimp only
  rw [fetch_not_loading (fun h => (hl h).1), hslot]
  dsimp only
  rw [hm, hp]
  cases decode (runCtx env.pa.run) (s.word env.co.core j env.pa.idx) <;> cases env.pa.run <;> simp [Nat.not_le.mpr hn]

end

/-- Settles O6: an agenda and due samples come first; then the step is the outcome of the fetch, whose cases the lemmas above give. -/
theorem stepRunsDecoded : Obligations.StepRunsDecoded := by
  unfold Obligations.StepRunsDecoded
  refine ⟨fun s e l h => step_of_agenda h, fun s m h hdue => step_of_due h hdue, ?_, ?_⟩
  · intro s env j o h hdue hup hi hh hslot hl hn hp hlen
    have hshort : ¬ 24 ≤ (env.pa.run.map (·.len)).getD 0 := by
      cases hr : env.pa.run with
      | none => decide
      | some r => exact Nat.not_le.mpr (hlen r hr)
    have hstep := step_of_issuing h hdue hup hi hh
    rw [fetch_inside hl hslot hn hp, if_neg hshort] at hstep
    exact ⟨fun i hd => by rw [hstep, readWord_ok hd]; rfl, fun sub hd => by rw [hstep, readWord_error hd]; rfl⟩
  · intro s env h hdue hup hi hh hl
    have hstep := step_of_issuing h hdue hup hi hh
    refine ⟨fun _ hslot => ?_, fun j o _ hslot hn => ?_, fun j o r hslot hn hp hr hlen => ?_⟩
    · rw [hstep, fetch_without_overlay hl hslot]; rfl
    · rw [hstep, fetch_past_end hl hslot hn]; rfl
    · have hfull : 24 ≤ (env.pa.run.map (·.len)).getD 0 := by rw [hr]; exact hlen
      rw [hstep, fetch_inside (fun hn => by rw [hr] at hn; cases hn) hslot hn hp, if_pos hfull]
      rfl

end Sys2Proof.Machine

/-! PROOFS. Completing an instruction: O7. -/

namespace Sys2Proof.Machine

/-- Settles O7: completing puts the advanced path into the issuing course and leaves its registers as they were. -/
theorem completingAdvances : Obligations.CompletingAdvances := by
  unfold Obligations.CompletingAdvances
  intro s env e x a c q hc hq hgone
  obtain ⟨c', hc', hq', hframe⟩ := complete_path e x a hc hq hgone
  have hscal : c'.scal = c.scal := by rw [hframe]
  have hpreds : c'.preds = c.preds := by rw [hframe]
  have hexited : c'.exited = c.exited := by rw [hframe]
  exact ⟨c', q.advanced env.pa x.h (x.h.bnd || e.isB) a, ⟨hc', hq'⟩, rfl, rfl, rfl, rfl, rfl, rfl, rfl, rfl, rfl, hscal, hpreds, hexited⟩

end Sys2Proof.Machine

/-! PROOFS. Taking a trap: O53. -/

namespace Sys2Proof.Machine

/-! ### What deliver does (R297 to R299, R304) -/

section
variable {s : State} {cid p : Nat} {c : Course} {q : Path} {tr : Trap} {ovl idx : Nat} {defer : Bool}

/-- The state with the words of a fresh record written (R298). -/
def State.recorded (s : State) (c : Course) (p : Nat) (q : Path) (tr : Trap) (ovl idx : Nat) (defer : Bool) : State :=
  s.recWrite c p (recordWords c p q tr ovl idx defer)

/-- The state with DOUBLE set and the words of the second trap written into the record (R299). -/
def State.doubled (s : State) (c : Course) (p : Nat) (tr : Trap) (ovl idx : Nat) : State :=
  s.recWrite c p [(3, s.recWord c p 3 % 2 ^ 62 + 2 ^ 62 + (s.recWord c p 3 / 2 ^ 63) * 2 ^ 63), (12, recWord0 tr ovl idx),
    (13, tr.addr.toNat), (14, tr.info.toNat)]

theorem deliver_inside_shim (hc : s.courses.find cid = some c) (hq : c.paths.find p = some q) (hshim : q.shim ≠ none) :
    s.deliver cid p tr ovl idx defer = (s.doubled c p tr ovl idx).stopForDriver cid p tr := by
  unfold State.deliver
  simp only [hc, hq, Option.isSome_iff_ne_none.mpr hshim, if_true]
  rfl

theorem deliver_restart (hc : s.courses.find cid = some c) (hq : c.paths.find p = some q) (hshim : q.shim = none)
    (hr : (tr.restarts && c.regpc != noRegion && decide (c.region.restarts < 2)) = true) :
    s.deliver cid p tr ovl idx defer = s.restart cid := by
  unfold State.deliver
  simp only [hc, hq, hshim, hr, Option.isSome_none, Bool.false_eq_true, if_false, if_true]

theorem deliver_receiver (hc : s.courses.find cid = some c) (hq : c.paths.find p = some q) (hshim : q.shim = none)
    (hr : ¬ (tr.restarts && c.regpc != noRegion && decide (c.region.restarts < 2)) = true) :
    s.deliver cid p tr ovl idx defer =
      if tr.toShim = true ∧ s.hasShim c.core = true then (s.recorded c p q tr ovl idx defer).enterShim cid p tr
      else (s.recorded c p q tr ovl idx defer).stopForDriver cid p tr := by
  obtain ⟨-, -, hovls, -⟩ := recWrite_untouched s c p (recordWords c p q tr ovl idx defer)
  have hs : (s.recorded c p q tr ovl idx defer).hasShim c.core = s.hasShim c.core := hasShim_eq hovls _
  unfold State.deliver
  simp only [hc, hq, hshim, Option.isSome_none, Bool.false_eq_true, if_false]
  rw [if_neg hr, ← hs]
  simp only [Bool.and_eq_true]
  rfl

/-! ### Writing a record leaves the course as it is, but for what its paths wait for -/

/-- What stores make of a course and one of its paths: they may end what paths wait for. -/
theorem Untouched.course {u : State} (h : Untouched s u) (hc : s.courses.find cid = some c) (hq : c.paths.find p = some q) :
    ∃ ps w, u.courses.find cid = some { c with paths := ps } ∧ Tab.find ps p = some { q with wait := w } := by
  obtain ⟨c', hc', hframe, hpaths⟩ := h.1 cid c hc
  obtain ⟨w, hw⟩ := hpaths p q hq
  exact ⟨c'.paths, w, hframe ▸ hc', hw⟩

/-! ### The receiver other than the shim (R301) -/

/-- The path stopped, its notice given, what it waits for kept after MOVED, the header stored at PRIVHW. -/
def State.stoppedFor (u s : State) (cid p : Nat) (c : Course) (q : Path) (tr : Trap) : State :=
  ((if tr.cls = 0x07 then (u.saveHead c).getD u else u).setPath cid p
    { q with stopped := true, wait := if tr.moved then q.wait else .nothing }).notify (s.partOf c.ctx)
      { stamp := s.time.ns, ctx := c.ctx, src := courseSource c.core c.cslot p, cls := tr.cls, sub := tr.sub }

/-- After stores, a path that stops for the driver is still the same path, but for what it waits for. -/
theorem stopForDriver_after {u : State} (h : Untouched s u) (hc : s.courses.find cid = some c) (hq : c.paths.find p = some q) :
    ∃ w, u.path cid p = some { q with wait := w } ∧ u.stopForDriver cid p tr = u.stoppedFor s cid p c { q with wait := w } tr := by
  obtain ⟨ps, w, hc', hq'⟩ := h.course hc hq
  refine ⟨w, ?_, ?_⟩
  · unfold State.path
    rw [hc']
    exact hq'
  · obtain ⟨-, hctxs, -, htime, -⟩ := h
    rw [stopForDriver_eq hc' hq', partOf_eq hctxs, htime]
    rfl

/-! ### Entering the shim (R299) -/

/-- The path at the entry of its class, with c, X, K, d, its run and its entry masks held. -/
def Path.atEntry (q : Path) (c : Course) (cls : Nat) : Path :=
  { q with ovl := 0, idx := 16 * cls, d := 0, run := none, wait := .nothing, ent := [],
           shim := some { c := c.c, x := c.x, k := c.k, d := q.d, run := q.run, ent := q.ent } }

/-- A course whose path p enters the shim: s62 and s63 name the cause and the record, and the lanes of its frame mask run free. -/
def Course.inShim (c : Course) (p : Nat) (q : Path) (tr : Trap) : Course :=
  { (c.setScalar 63 (BitVec.ofNat 64 (c.priv + recOff p 0))).setScalar 62 (BitVec.ofNat 64 (tr.cls.toNat * 256 + tr.sub.toNat)) with
    c := cMap c.c (fun l v => if q.fmask.getLsbD l then 0 else v), x := c.x &&& ~~~q.fmask, k := c.k &&& ~~~q.fmask,
    paths := c.paths.put p (q.atEntry c tr.cls.toNat) }

/-- The state with s56 to s63 stored in the record. -/
def State.scalarsSaved (s : State) (c : Course) (p : Nat) : State :=
  s.recWrite c p ((List.range 8).map (fun i => (4 + i, (c.scalar (56 + i)).toNat)))

theorem enterShim_eq {u : State} (h : Untouched s u) (hc : s.courses.find cid = some c) (hq : c.paths.find p = some q) :
    ∃ ps w, Tab.find ps p = some { q with wait := w } ∧
      u.enterShim cid p tr = (u.scalarsSaved c p).setCourse cid (Course.inShim { c with paths := ps } p { q with wait := w } tr) := by
  obtain ⟨ps₁, w₁, hc₁, hq₁⟩ := h.course hc hq
  have hsaved : Untouched u (u.scalarsSaved c p) := recWrite_untouched _ _ _ _
  obtain ⟨ps, w, hc₂, hq₂⟩ := (h.trans hsaved).course hc hq
  refine ⟨ps, w, hq₂, ?_⟩
  have hwrite : u.recWrite { c with paths := ps₁ } p ((List.range 8).map (fun i => (4 + i, (Course.scalar { c with paths := ps₁ } (56 + i)).toNat))) =
      u.scalarsSaved c p := rfl
  unfold State.enterShim
  simp only [hc₁]
  rw [hwrite, hc₂]
  simp only [hq₂]
  rfl

/-- The lanes of the frame mask take nesting counter 0, the others keep theirs. -/
theorem inShim_counter (c : Course) (p : Nat) (q : Path) (tr : Trap) {l : Nat} (hl : l < 64) :
    cOf (c.inShim p q tr).c l = if q.fmask.getLsbD l then 0 else cOf c.c l := by
  have hlt : cOf c.c l < 256 := by unfold cOf; exact BitVec.isLt _
  unfold Course.inShim
  rw [cOf_cMap _ _ _ hl]
  split
  · exact Nat.zero_mod _
  · exact Nat.mod_eq_of_lt hlt

theorem inShim_scalar (c : Course) (p : Nat) (q : Path) (tr : Trap) (n : Nat) :
    (c.inShim p q tr).scalar n = if 62 = n then BitVec.ofNat 64 (tr.cls.toNat * 256 + tr.sub.toNat)
      else if 63 = n then BitVec.ofNat 64 (c.priv + 0x103000 + 128 * p) else c.scalar n := by
  have hoff : c.priv + 0x103000 + 128 * p = c.priv + recOff p 0 := Nat.add_assoc _ _ _
  rw [hoff, ← Course.setScalar_scalar, ← Course.setScalar_scalar]
  exact scalar_of _ _ n rfl

end

/-! ### Traps on demand, and words that break a rule (R51, R302) -/

theorem trap_on_demand {s : State} {env : Env} {e : Entry} {x : Args} {k : BitVec 8} (hr : Ready s env e x) :
    issue e x (fun env s => if env.acting x = 0 then .ok s else .trap (Trap.user k)) s =
      .next (if env.acting x = 0 then s.tick.complete env e x {} else s.tick.trapHere env (Trap.user k)) := by
  by_cases hact : env.acting x = 0
  · rw [if_pos hact]
    exact issue_done hr (if_pos hact)
  · rw [if_neg hact]
    exact issue_trap hr (if_neg hact)

theorem illegalEncoding_traps {s : State} {env : Env} (sub : BitVec 8) (hi : s.issuing = some env) :
    exec (.illegalEncoding sub) s = .next (s.tick.trapHere env (Trap.illegal sub)) := by
  change execIllegalEncoding sub s = _
  unfold execIllegalEncoding
  rw [hi]

/-- Settles O53: a trap is delivered in one of four ways, each of which the lemmas above describe. -/
theorem trapsAreTaken : Obligations.TrapsAreTaken := by
  unfold Obligations.TrapsAreTaken
  refine ⟨?_, fun s env x hr => trap_on_demand hr, fun s env x hr => trap_on_demand hr, fun s env sub hi => illegalEncoding_traps sub hi⟩
  intro s cid p c q tr ovl idx defer hc hq word0 rec0 restarts shim notice head stop again t
  have hrec : Untouched s rec0 := recWrite_untouched _ _ _ _
  refine ⟨fun hshim hrest => ?_, fun hshim hrest hrecv => ?_, fun hshim hrest hrecv => ?_, fun hshim => ?_⟩
  · exact deliver_restart hc hq hshim ((restarts_iff tr c).mpr hrest)
  · have ht : t = rec0.enterShim cid p tr := (deliver_receiver hc hq hshim (mt (restarts_iff tr c).mp hrest)).trans
      (if_pos ⟨(toShim_iff tr).mpr hrecv.1, hrecv.2⟩)
    obtain ⟨ps, w, hw, henter⟩ := enterShim_eq (tr := tr) hrec hc hq
    rw [ht, henter]
    refine ⟨rfl, _, _, Tab.find_put_same _ _ _, Tab.find_put_same _ _ _, ?_, ?_, ?_, fun l hl => inShim_counter _ _ _ _ hl, rfl, rfl, rfl, rfl, rfl⟩
    · rw [inShim_scalar]; rfl
    · rw [inShim_scalar]; rfl
    · intro n hn
      rw [inShim_scalar, if_neg (by omega), if_neg (by omega)]
      rfl
  · have ht : t = rec0.stopForDriver cid p tr := (deliver_receiver hc hq hshim (mt (restarts_iff tr c).mp hrest)).trans
      (if_neg (fun h => hrecv ⟨(toShim_iff tr).mp h.1, h.2⟩))
    obtain ⟨w, hpath, hstop⟩ := stopForDriver_after (tr := tr) hrec hc hq
    exact ⟨w, hpath, ht.trans hstop⟩
  · obtain ⟨w, hpath, hstop⟩ := stopForDriver_after (tr := tr) (recWrite_untouched s c p _) hc hq
    exact ⟨w, hpath, (deliver_inside_shim hc hq hshim).trans hstop⟩

end Sys2Proof.Machine

/-! PROOFS. Run arbitration: O42. -/

namespace Sys2Proof.Machine

/-- Where there is a contender one wins, and no contender beats it. -/
theorem winner_cons (last : Nat) (a : Contender) (l : List Contender) :
    ∃ w, winner last (a :: l) = some w ∧ w ∈ a :: l ∧ ∀ b ∈ a :: l, beats last b w = false := by
  obtain ⟨w, hw, hmem, hfirst, hrest⟩ := winner_fold last l a
  refine ⟨w, (winner_eq last (a :: l)).trans hw, ?_, fun b hb => ?_⟩
  · rcases hmem with rfl | hmem
    · exact List.mem_cons_self
    · exact List.mem_cons_of_mem _ hmem
  · rcases List.mem_cons.mp hb with rfl | hb
    · exact hfirst
    · exact hrest b hb

/-- A forced contender that does not beat w leaves w forced, and no later. -/
theorem forced_of_not_beats {last x : Nat} {a w : Contender} (h : beats last a w = false) (ha : a.co.forced = some x) :
    ∃ y, w.co.forced = some y ∧ y ≤ x := by
  unfold beats at h
  rw [ha] at h
  cases hw : w.co.forced with
  | none => rw [hw] at h; cases h
  | some y =>
    rw [hw] at h
    simp only [Bool.or_eq_false_iff, decide_eq_false_iff_not] at h
    exact ⟨y, rfl, Nat.le_of_not_lt h.1⟩

/-- A contender that does not beat an unforced w has at most w's class, and of the same class it is not nearer in turn. -/
theorem class_of_not_beats {last : Nat} {a w : Contender} (h : beats last a w = false) (hw : w.co.forced = none) :
    a.pa.cls ≤ w.pa.cls ∧ (a.pa.cls = w.pa.cls → turn last w.co.cslot ≤ turn last a.co.cslot) := by
  unfold beats at h
  rw [hw] at h
  cases ha : a.co.forced with
  | some x => rw [ha] at h; cases h
  | none =>
    rw [ha] at h
    simp only [Bool.or_eq_false_iff, Bool.and_eq_false_iff, beq_eq_false_iff_ne, decide_eq_false_iff_not, Int.not_lt, Nat.not_lt] at h
    exact ⟨h.1, fun heq => h.2.resolve_left (fun hne => hne heq)⟩

/-- Settles O42: the winner is the one that no contender beats, and `beats` compares force first, then class, then turn. -/
theorem arbitrationPicksTheWinner : Obligations.ArbitrationPicksTheWinner := by
  unfold Obligations.ArbitrationPicksTheWinner
  intro last l
  cases l with
  | nil => exact ⟨fun h => absurd rfl h, fun w hw => by cases hw⟩
  | cons b l =>
    obtain ⟨v, hv, hmem, hbest⟩ := winner_cons last b l
    refine ⟨fun _ => ⟨v, hv⟩, fun w hw => ?_⟩
    obtain rfl : v = w := Option.some.inj (hv.symm.trans hw)
    exact ⟨hmem, fun a ha => ⟨fun x hx => forced_of_not_beats (hbest a ha) hx, fun hf => class_of_not_beats (hbest a ha) hf⟩⟩

end Sys2Proof.Machine

/-! PROOFS. The machine right after reset: O4. -/

namespace Sys2Proof.Machine

/-- Settles O4: the tables of the reset state are empty, so each entry reads as its default. -/
theorem resetState : Obligations.ResetState := by
  unfold Obligations.ResetState
  intro s
  have hslot (core i : Nat) (hi : i < 4) : (s.slotOf (4 * core + i)).last = 28 + i := by
    change 28 + (4 * core + i) % 4 = 28 + i
    omega
  exact ⟨State.reset_wf, rfl, rfl, rfl, rfl, rfl, rfl, rfl, rfl, rfl, rfl, fun core i hi => ⟨hslot core i hi, rfl⟩, rfl,
    fun _ => ⟨rfl, rfl, rfl⟩, fun _ => ⟨rfl, rfl⟩, rfl⟩

end Sys2Proof.Machine

/-! PROOFS. Transfers of control, and structured control: O18. -/

namespace Sys2Proof.Machine

/-! ### Transfers of control (R74) -/

section
variable {s : State} {env : Env}

theorem transfer_ok {dst : Nat × Nat} (h : s.target env.co.core env.co.ctx dst.1 dst.2 = .ok) (k : Res) : transfer s env dst k = k := by
  unfold transfer
  rw [h]

theorem transfer_bad {dst : Nat × Nat} {tr : Trap} (h : s.target env.co.core env.co.ctx dst.1 dst.2 = .bad tr) (k : Res) :
    transfer s env dst k = .trap tr := by
  unfold transfer
  rw [h]

end

section
variable {s : State} {env : Env} {x : Args} {e : Entry} {body : Env → State → Res} {t : Ctl} {d : Nat} {ent : List (Nat × LaneMask)} {a : Adv}
  {counter : Nat → Nat} {brk cnt : LaneMask}

/-! ### An instruction that sets the counters and stays or goes (R72, R73) -/

/-- An instruction whose body sets the counters to t and the depth to d completes with them, at the code address it goes to. -/
theorem ctl_settled {ans : Answer} (hr : Ready s env e x) (hans : ans = issue e x body s)
    (hb : body env s.tick = .done (s.tick.setCtl env t d ent) a) (hgone : a.gone = false)
    (hc : ∀ l, l < 64 → cOf t.c l = counter l % 256) (hx : t.x = brk) (hk : t.k = cnt) :
    ∃ u q, ans = .next u ∧ CtlAfter u env counter brk cnt d ∧
      u.path env.cid env.p = some q ∧ (q.ovl, q.idx) = a.go.getD (env.pa.ovl, env.pa.idx + 1) := by
  obtain ⟨u, hu, hctl, q, hq, hgo⟩ := ctl_done hr (hans.trans (issue_done hr hb)) hgone
  exact ⟨u, q, hu, hctl counter brk cnt hc hx hk, hq, hgo⟩

/-- The same, of an instruction that goes on. -/
theorem ctl_goes_on {ans : Answer} (hr : Ready s env e x) (hans : ans = issue e x body s)
    (hb : body env s.tick = .done (s.tick.setCtl env t d ent) a) (hgone : a.gone = false)
    (hc : ∀ l, l < 64 → cOf t.c l = counter l % 256) (hx : t.x = brk) (hk : t.k = cnt) :
    ∃ u, ans = .next u ∧ CtlAfter u env counter brk cnt d := by
  obtain ⟨u, -, hu, hctl, -⟩ := ctl_settled hr hans hb hgone hc hx hk
  exact ⟨u, hu, hctl⟩

/-- Counters lowered in the lanes of F, and break bits cleared where a counter came to 0 (R73). -/
def Ctl.closed (t : Ctl) (F : LaneMask) : Ctl := (t.counters F (fun _ v => v - 1)).clearX t F

theorem closed_c (t : Ctl) (F : LaneMask) {l : Nat} (hl : l < 64) :
    cOf (t.closed F).c l = (if F.getLsbD l then cOf t.c l - 1 else cOf t.c l) % 256 := by
  unfold Ctl.closed
  rw [clear_c, counters_c _ _ _ _ hl]

theorem closed_x (t : Ctl) (F : LaneMask) : (t.closed F).x = t.x &&& ~~~(maskOf (fun l => F.getLsbD l && cOf t.c l == 1)) := clearX_eq t F

theorem closed_k (t : Ctl) (F : LaneMask) : (t.closed F).k = t.k := by
  unfold Ctl.closed
  rw [clear_k, counters_k]

/-- The counters of lanes that leave for n levels (R73). -/
theorem leaveTo_counter (n : Nat) (env : Env) (x : Args) {l : Nat} (hl : l < 64) :
    cOf (leaveTo n env x).c l = (if (env.acting x).getLsbD l then n else cOf env.co.c l) % 256 := by
  rw [leave_c, counters_c _ _ _ _ hl]
  rfl

/-! ### Regions that open and close, and lanes that leave them (R73) -/

theorem ifRegion_opens (hr : Ready s env Enc.ifRegion x) (hd : env.pa.d ≠ 255) : ∃ u, exec (.ifRegion x) s = .next u ∧
    CtlAfter u env (fun l => if env.F.getLsbD l then
        (if 0 < cOf env.co.c l then cOf env.co.c l + 1 else if (env.co.guard x.g).getLsbD l then 0 else 1) else cOf env.co.c l)
      env.co.x env.co.k (env.pa.d + 1) :=
  ctl_goes_on (a := {}) hr (rfl : execIfRegion x s = _) (if_neg hd) rfl (fun l hl => counters_c _ _ _ l hl) rfl rfl

theorem elseRegion_swaps (hr : Ready s env Enc.elseRegion x) (hd : env.pa.d ≠ 0) : ∃ u, exec (.elseRegion x) s = .next u ∧
    CtlAfter u env (fun l => if env.F.getLsbD l then
        (if cOf env.co.c l = 0 then 1 else if cOf env.co.c l = 1 ∧ !env.co.x.getLsbD l then 0 else cOf env.co.c l) else cOf env.co.c l)
      env.co.x env.co.k env.pa.d :=
  ctl_goes_on (a := {}) hr (rfl : execElseRegion x s = _) (if_neg hd) rfl (fun l hl => counters_c _ _ _ l hl) rfl rfl

theorem endifRegion_closes (hr : Ready s env Enc.endifRegion x) (hd : env.pa.d ≠ 0) : ∃ u, exec (.endifRegion x) s = .next u ∧
    CtlAfter u env (fun l => if env.F.getLsbD l then cOf env.co.c l - 1 else cOf env.co.c l)
      (env.co.x &&& ~~~(maskOf (fun l => env.F.getLsbD l && cOf env.co.c l == 1))) env.co.k (env.pa.d - 1) :=
  ctl_goes_on (a := { xor := (closeRegion env s.tick).2 }) (t := env.co.ctl.closed env.F) hr (rfl : execEndifRegion x s = _) (if_neg hd) rfl
    (fun _ hl => closed_c _ _ hl) (closed_x _ _) (closed_k _ _)

theorem loopRegion_opens (hr : Ready s env Enc.loopRegion x) (hd : env.pa.d ≠ 255) : ∃ u, exec (.loopRegion x) s = .next u ∧
    CtlAfter u env (fun l => if env.F.getLsbD l ∧ 0 < cOf env.co.c l then cOf env.co.c l + 1 else cOf env.co.c l)
      env.co.x env.co.k (env.pa.d + 1) := by
  refine ctl_goes_on (a := {}) hr (rfl : execLoopRegion x s = _) (if_neg hd) rfl (fun l hl => (counters_c _ _ _ _ hl).trans ?_) rfl rfl
  have hparked : (if 0 < cOf env.co.c l then cOf env.co.c l + 1 else 0) = if 0 < cOf env.co.c l then cOf env.co.c l + 1 else cOf env.co.c l := by
    split <;> omega
  by_cases hF : env.F.getLsbD l = true
  · simp only [hF, if_true, true_and]
    exact congrArg (· % 256) hparked
  · simp only [hF, if_false, false_and, Bool.false_eq_true]
    rfl

theorem breakRegion_parks (hr : Ready s env Enc.breakRegion x) (hn : Mod.number x.m ≤ env.pa.d) : ∃ u, exec (.breakRegion x) s = .next u ∧
    CtlAfter u env (fun l => if (env.acting x).getLsbD l then Mod.number x.m else cOf env.co.c l)
      (env.co.x ||| env.acting x) env.co.k env.pa.d :=
  ctl_goes_on (a := {}) hr (rfl : execBreakRegion x s = _) (if_neg (Nat.not_lt.mpr hn)) rfl
    (fun _ hl => leaveTo_counter _ env x hl) (leave_x _ _ _) (leave_k _ _ _)

theorem contRegion_parks (hr : Ready s env Enc.contRegion x) (hn : x.a.ctl ≤ env.pa.d) : ∃ u, exec (.contRegion x) s = .next u ∧
    CtlAfter u env (fun l => if (env.acting x).getLsbD l then x.a.ctl else cOf env.co.c l)
      (env.co.x ||| env.acting x) (env.co.k ||| env.acting x) env.pa.d :=
  ctl_goes_on (a := {}) hr (rfl : execContRegion x s = _) (if_neg (Nat.not_lt.mpr hn)) rfl
    (fun _ hl => leaveTo_counter _ env x hl) (leave_x _ _ _) (by simp only [leave_k])

/-! ### endloop (R73) -/

/-- The lanes that endloop revives. -/
def Env.revived (env : Env) : LaneMask := maskOf (fun l => env.F.getLsbD l && (env.co.k.getLsbD l && cOf env.co.c l == 1))

/-- The counter of a lane once they are revived. -/
def Env.counterRevived (env : Env) (l : Nat) : Nat := if env.revived.getLsbD l then 0 else cOf env.co.c l

/-- The counters, break and continue bits once they are revived. -/
def Env.ctlRevived (env : Env) : Ctl :=
  { c := cMap env.co.c (fun l v => if env.revived.getLsbD l then 0 else v), x := env.co.x &&& ~~~env.revived, k := env.co.k &&& ~~~env.revived }

theorem counterRevived_lt (env : Env) (l : Nat) : env.counterRevived l < 256 := by
  unfold Env.counterRevived
  split
  · decide
  · exact cOf_lt _ _

theorem ctlRevived_c (env : Env) {l : Nat} (hl : l < 64) : cOf env.ctlRevived.c l = env.counterRevived l :=
  (cOf_cMap _ _ _ hl).trans (Nat.mod_eq_of_lt (counterRevived_lt env l))

theorem revived_eq (env : Env) : env.F &&& env.co.k &&& maskOf (fun l => cOf env.co.c l == 1) = env.revived := by
  apply BitVec.eq_of_getLsbD_eq
  intro l hl
  simp only [Env.revived, BitVec.getLsbD_and, getLsbD_maskOf, hl, decide_true, Bool.true_and, Bool.and_assoc]

theorem loopBack_ctl (env : Env) : (loopBack env).2 = env.ctlRevived := by
  rw [loopBack_eq (revived_eq env)]
  rfl

/-- The loop goes round while a lane of F is active once the continuing lanes are revived. -/
theorem loopBack_round (env : Env) : (loopBack env).1 = true ↔ ∃ l, l < 64 ∧ env.F.getLsbD l = true ∧ env.counterRevived l = 0 := by
  have hactive (l : Nat) (hl : l < 64) : (maskOf (fun l => cOf env.ctlRevived.c l == 0)).getLsbD l = true ↔ env.counterRevived l = 0 := by
    rw [getLsbD_maskOf, ctlRevived_c env hl, decide_eq_true hl, Bool.true_and, beq_iff_eq]
  have hmask : (loopBack env).1 = decide (env.F &&& maskOf (fun l => cOf env.ctlRevived.c l == 0) ≠ 0) := by
    rw [loopBack_eq (revived_eq env)]
    rfl
  rw [hmask, decide_eq_true_iff, and_ne_zero]
  constructor
  · rintro ⟨l, hl, h0⟩
    obtain ⟨hl, hF⟩ := mem_lanesOf.mp hl
    exact ⟨l, hl, hF, (hactive l hl).mp h0⟩
  · rintro ⟨l, hl, hF, h0⟩
    exact ⟨l, mem_lanesOf.mpr ⟨hl, hF⟩, (hactive l hl).mpr h0⟩

/-- The break bits that closing the loop clears. -/
theorem revived_closing (env : Env) : maskOf (fun l => env.F.getLsbD l && cOf env.ctlRevived.c l == 1) =
    maskOf (fun l => env.F.getLsbD l && env.counterRevived l == 1) := by
  apply BitVec.eq_of_getLsbD_eq
  intro l hl
  rw [getLsbD_maskOf, getLsbD_maskOf, ctlRevived_c env hl]

/-- Going round, endloop keeps the depth and goes to its target. -/
theorem endloop_goes_round (hr : Ready s env Enc.endloopRegion x) (hd : env.pa.d ≠ 0)
    (hround : ∃ l, l < 64 ∧ env.F.getLsbD l = true ∧ env.counterRevived l = 0)
    (htarget : s.target env.co.core env.co.ctx env.pa.ovl x.a.ctl = .ok) :
    ∃ u q, exec (.endloopRegion x) s = .next u ∧
      CtlAfter u env env.counterRevived (env.co.x &&& ~~~env.revived) (env.co.k &&& ~~~env.revived) env.pa.d ∧
      u.path env.cid env.p = some q ∧ (q.ovl, q.idx) = (env.pa.ovl, x.a.ctl) := by
  have ht : s.tick.target env.co.core env.co.ctx env.pa.ovl x.a.ctl = .ok := htarget
  refine ctl_settled (ent := env.pa.ent) (a := { go := some (env.pa.ovl, x.a.ctl) }) hr (rfl : execEndloopRegion x s = _) ?_ rfl
    (fun l hl => by rw [ctlRevived_c env hl, Nat.mod_eq_of_lt (counterRevived_lt env l)]) rfl rfl
  dsimp only
  rw [if_pos ((loopBack_round env).mpr hround), transfer_ok (dst := (env.pa.ovl, x.a.ctl)) ht, if_neg hd, loopBack_ctl]

/-- With no lane of F active, endloop closes the loop and goes on. -/
theorem endloop_closes (hr : Ready s env Enc.endloopRegion x) (hd : env.pa.d ≠ 0)
    (hdone : ∀ l, l < 64 → env.F.getLsbD l = true → env.counterRevived l ≠ 0) :
    ∃ u q, exec (.endloopRegion x) s = .next u ∧
      CtlAfter u env (fun l => if env.F.getLsbD l then env.counterRevived l - 1 else env.counterRevived l)
        ((env.co.x &&& ~~~env.revived) &&& ~~~(maskOf (fun l => env.F.getLsbD l && env.counterRevived l == 1)))
        (env.co.k &&& ~~~env.revived) (env.pa.d - 1) ∧
      u.path env.cid env.p = some q ∧ (q.ovl, q.idx) = (env.pa.ovl, env.pa.idx + 1) := by
  have hround : ¬ (loopBack env).1 = true := by
    rw [loopBack_round]
    rintro ⟨l, hl, hF, h0⟩
    exact hdone l hl hF h0
  refine ctl_settled (t := env.ctlRevived.closed env.F) (ent := ?ent) (a := { xor := ?xor }) hr (rfl : execEndloopRegion x s = _) ?body rfl
    (fun l hl => by rw [closed_c _ _ hl, ctlRevived_c env hl]) (by rw [closed_x, revived_closing]; rfl) (closed_k _ _)
  case body =>
    dsimp only
    rw [if_neg hround, if_neg hd, loopBack_ctl, close_at]
    rfl

end

/-- Settles O18: each instruction sets the counters that its rule names; endloop goes round or closes by `loopBack_round`. -/
theorem structuredControl : Obligations.StructuredControl := by
  unfold Obligations.StructuredControl
  constructor
  · intro s env x c inF acts
    refine ⟨ifRegion_opens, elseRegion_swaps, endifRegion_closes, loopRegion_opens, fun n hr hm hn => ?_, fun n hr ha hn => ?_⟩
    · have hnum : Mod.number x.m = n.toNat := by rw [hm]; rfl
      have h := breakRegion_parks hr (hnum ▸ hn)
      rwa [hnum] at h
    · have hnum : x.a.ctl = n.toNat := by rw [ha]; rfl
      have h := contRegion_parks hr (hnum ▸ hn)
      rwa [hnum] at h
  · intro s env x hr hd c back c2
    exact ⟨endloop_goes_round hr hd, endloop_closes hr hd⟩

end Sys2Proof.Machine

/-! PROOFS. Branches, yield and prio, calls, returns, exit: O19 to O23. -/

namespace Sys2Proof.Machine

/-! ### Branches (R74, R75) -/

section
variable {s : State} {env : Env} {x : Args}

theorem branch_idle (h : env.acting x = 0) : branch x env s = .ok s := if_pos h

theorem branch_taken (h : env.acting x ≠ 0) :
    branch x env s = transfer s env (env.targetOf x.a x.b) (.done s { go := some (env.targetOf x.a x.b) }) := if_neg h

/-- A branch goes on with no acting lane, goes to a good target, and takes the trap of a bad one. -/
theorem branch_completes {k : Args → Instr} {e : Entry} (hk : ∀ x s, exec (k x) s = issue e x (branch x) s) (hr : Ready s env e x) :
    (env.acting x = 0 → exec (k x) s = .next (s.tick.complete env e x {})) ∧
    (env.acting x ≠ 0 → s.target env.co.core env.co.ctx (env.targetOf x.a x.b).1 (env.targetOf x.a x.b).2 = .ok →
      exec (k x) s = .next (s.tick.complete env e x { go := some (env.targetOf x.a x.b) })) ∧
    (∀ tr, env.acting x ≠ 0 → s.target env.co.core env.co.ctx (env.targetOf x.a x.b).1 (env.targetOf x.a x.b).2 = .bad tr →
      exec (k x) s = .next (s.tick.trapHere env tr)) := by
  rw [hk]
  refine ⟨fun h => issue_done hr (branch_idle h), fun h ht => issue_done hr ?_, fun tr h ht => issue_trap hr ?_⟩
  · rw [branch_taken h]
    exact transfer_ok ht _
  · rw [branch_taken h]
    exact transfer_bad ht _

end

/-- Settles O19: br and brx share one body; nop's completes as it is. -/
theorem branchesComplete : Obligations.BranchesComplete := by
  unfold Obligations.BranchesComplete
  refine ⟨fun r hmem s env x hr => ?_, fun s env x hr => issue_done hr rfl⟩
  rcases List.mem_cons.mp hmem with rfl | hmem
  · exact branch_completes (k := Instr.br) (fun _ _ => rfl) hr
  · obtain rfl := List.mem_singleton.mp hmem
    exact branch_completes (k := Instr.brx) (fun _ _ => rfl) hr

/-! ### Demotion (R77) -/

section
variable {s : State} {env : Env} {x : Args} {e : Entry} {cid p : Nat} {c : Course}

theorem cls_of_demoted {q : Path} (h : q.demoted ≠ none) : q.cls = -1 := if_pos (Option.isSome_iff_ne_none.mpr h)

theorem cls_of_undemoted {q : Path} (h : q.demoted = none) : q.cls = q.prio := by
  unfold Path.cls
  rw [h]
  rfl

theorem path_of_course (h : s.courses.find cid = some c) : s.path cid p = c.paths.find p := by
  unfold State.path
  rw [h]

/-- Completing after the issuing path was replaced leaves its priority and its demotion as the replacement has them. -/
theorem complete_setPath {q : Path} (hr : Ready s env e x) :
    ∃ q', ((s.tick.setPath env.cid env.p q).complete env e x {}).path env.cid env.p = some q' ∧ q'.prio = q.prio ∧ q'.demoted = q.demoted := by
  have hset : (s.tick.setPath env.cid env.p q).courses.find env.cid = some { env.co with paths := env.co.paths.put env.p q } := by
    rw [setPath_any (ready_tick hr) rfl]
    exact Tab.find_put_same _ _ _
  obtain ⟨c', hc', hq', -⟩ := complete_path e x {} hset (Tab.find_put_same _ _ _) rfl
  exact ⟨_, (path_of_course hc').trans hq', rfl, rfl⟩

/-- Completing leaves the demotion of the issuing path as it is. -/
theorem complete_tick_path (hr : Ready s env e x) :
    ∃ q', (s.tick.complete env e x {}).path env.cid env.p = some q' ∧ q'.demoted = env.pa.demoted := by
  obtain ⟨c', hc', hq', -⟩ := complete_path e x {} (ready_tick hr) hr.path rfl
  exact ⟨_, (path_of_course hc').trans hq', rfl⟩

/-- yield demotes its path where the other slot holds one. -/
theorem yield_demotes (hr : Ready s env Enc.yield x) : ∃ u q, exec (.yield x) s = .next u ∧ u.path env.cid env.p = some q ∧
    q.demoted = if (env.co.paths.find (1 - env.p)).isSome then some 0 else env.pa.demoted := by
  change ∃ u q, execYield x s = .next u ∧ _
  by_cases hs : (env.co.paths.find (1 - env.p)).isSome = true
  · obtain ⟨q, hq, -, hdem⟩ := complete_setPath (q := { env.pa with demoted := some 0 }) hr
    exact ⟨_, q, issue_done hr (if_pos hs), hq, hdem.trans (if_pos hs).symm⟩
  · obtain ⟨q, hq, hdem⟩ := complete_tick_path hr
    exact ⟨_, q, issue_done hr (if_neg hs), hq, hdem.trans (if_neg hs).symm⟩

/-- prio sets the path's priority and ends its demotion. -/
theorem prio_sets {n : BitVec 5} (hr : Ready s env Enc.prio x) (hm : x.m = .num n) (hact : env.acting x ≠ 0) :
    ∃ u q, exec (.prio x) s = .next u ∧ u.path env.cid env.p = some q ∧ q.prio = n.toNat ∧ q.demoted = none ∧ q.cls = n.toNat := by
  have hnum : Mod.number x.m = n.toNat := by rw [hm]; rfl
  obtain ⟨q, hq, hprio, hdem⟩ := complete_setPath (q := { env.pa with prio := Mod.number x.m, demoted := none }) hr
  rw [hnum] at hprio
  change ∃ u q, execPrio x s = .next u ∧ _
  exact ⟨_, q, issue_done hr (if_neg hact), hq, hprio, hdem, (cls_of_undemoted hdem).trans (congrArg Int.ofNat hprio)⟩

/-- The 64th run of the other path ends the demotion. -/
theorem runs_undemoted {q : Path} (hq : c.paths.find (1 - p) = some q) (h0 : q.demoted = some 0) :
    ((Nat.iterate (fun (c : Course) => c.runDone p) 64 c).paths.find (1 - p)).map (·.demoted) = some none := by
  have h63 := runs_demoted c p q hq h0 63 (by decide)
  rw [Function.iterate_succ_apply']
  generalize Nat.iterate (fun (c : Course) => c.runDone p) 63 c = d at h63 ⊢
  obtain ⟨r, hr, hdem⟩ := Option.map_eq_some_iff.mp h63
  unfold Course.runDone
  simp only [hr, hdem]
  rw [Tab.find_put_same]
  rfl

/-- A slot that is freed with no ready entry on the path stack becomes empty: every path left is undemoted. -/
theorem freeSlot_empty {fuel : Nat} {u : Course} (hc : (s.dropPath cid p).courses.find cid = some c)
    (hnone : ∀ i, i < c.stack → ((s.dropPath cid p).stackEntry c i).kind ≠ 0 ∨ ((s.dropPath cid p).stackEntry c i).mask = 0)
    (hu : (s.freeSlot (fuel + 1) cid p).courses.find cid = some u) : ∀ e ∈ u.paths, e.2.demoted = none := by
  have hfind : (List.range c.stack).reverse.find? (fun i => ((s.dropPath cid p).stackEntry c i).kind == 0 &&
      ((s.dropPath cid p).stackEntry c i).mask != 0) = none := by
    rw [List.find?_eq_none]
    intro i hi
    rcases hnone i (List.mem_range.mp (List.mem_reverse.mp hi)) with hk | hm
    · simp [hk]
    · simp [hm]
  unfold State.freeSlot at hu
  simp only [hc, hfind, State.setCourse_courses, Tab.find_put_same, Option.some.injEq] at hu
  subst hu
  intro e he
  obtain ⟨q, -, rfl⟩ := List.mem_map.mp he
  rfl

end

/-- Settles O20: the class from the demotion, and what begins and ends one. -/
theorem yieldDemotion : Obligations.YieldDemotion := by
  unfold Obligations.YieldDemotion
  exact ⟨fun q => ⟨cls_of_demoted, cls_of_undemoted⟩, fun s env x => yield_demotes,
    fun c p q hq h0 => ⟨runs_demoted c p q hq h0, runs_undemoted hq h0⟩,
    fun s cid p fuel c u hc hnone hu => freeSlot_empty hc hnone hu, fun s env x n hr hm hact => prio_sets hr hm hact, fun s c i e => rfl⟩

/-! ### Calls (R75, R78, R108, R332) -/

section
variable {s t : State} {env : Env} {x : Args}

/-- The frame record that a call leaves: where its path is to go on, and what of it the new frame replaces (R107). -/
def Env.callRecord (env : Env) (n : Nat) : Frame :=
  { mask := env.pa.fmask.toNat, ovl := env.pa.ovl, idx := env.pa.idx + 1, d := env.pa.d, units := n, kind := 0, marked := false, mark := 0 }

/-- The path in its new frame, n units up. -/
def Env.inFrame (env : Env) (n : Nat) : Path :=
  { env.pa with fmask := env.active, d := 0, lwb := env.pa.lwb + 4 * n, depth := env.pa.depth + 1 }

/-- A call that meets none of R332's causes enters the frame. -/
theorem callTo_enters {dst : Nat × Nat} {n : Nat} (htarget : s.target env.co.core env.co.ctx dst.1 dst.2 = .ok) (hdepth : env.pa.depth ≠ 1023)
    (hwindow : env.co.windowTrap (env.pa.lwb + 4 * n) = none)
    (henter : s.enterFrame env.co (env.pa.depth + 1) (env.pa.lwb + 4 * n) (env.callRecord n) (lanesOf env.active) = .ok t) :
    callTo dst n env s = .done (t.setPath env.cid env.p (env.inFrame n)) { go := some dst } := by
  unfold Env.callRecord at henter
  unfold callTo
  dsimp only
  rw [transfer_ok htarget, if_neg hdepth, hwindow]
  dsimp only
  rw [henter]
  rfl

theorem unpackCode_eq (v : Nat) : unpackCode v = (v / 65536 % 65536, v % 65536) := by
  unfold unpackCode
  rw [bits_low16, bits, Nat.shiftRight_eq_div_pow]
  rfl

/-- callv whose lanes share one good target calls it. -/
theorem callv_uniform {v : Nat} {m : LaneMask} (hr : Ready s env Enc.callv x)
    (hgroups : groupBy (fun l => s.lane env x .n32 x.a l) (lanesOf (env.acting x)) = [(v, m)])
    (htarget : s.target env.co.core env.co.ctx (unpackCode v).1 (unpackCode v).2 = .ok) {a : Adv}
    (hcall : callTo (unpackCode v) (Mod.number x.m) env s.tick = .done t a) : exec (.callv x) s = .next (t.complete env Enc.callv x a) := by
  have hgroups' : groupBy (fun l => s.tick.lane env x .n32 x.a l) (lanesOf (env.acting x)) = [(v, m)] := hgroups
  have htarget' : s.tick.target env.co.core env.co.ctx (unpackCode v).1 (unpackCode v).2 = .ok := htarget
  change execCallv x s = _
  refine issue_done hr ?_
  dsimp only
  rw [hgroups']
  dsimp only
  rw [htarget', ← hcall]

end

/-- Settles O21: call and callv with one target both enter the frame by `callTo_enters`. -/
theorem callsEnterFrames : Obligations.CallsEnterFrames := by
  unfold Obligations.CallsEnterFrames
  constructor
  · intro s t env x n hr hact hm dst lwb htarget hdepth hwindow henter
    have hnum : Mod.number x.m = n.toNat := by rw [hm]; rfl
    have hcall := callTo_enters (s := s.tick) (n := n.toNat) htarget hdepth hwindow henter
    change execCall x s = _
    refine issue_done hr ((if_neg hact).trans ?_)
    rw [hnum]
    exact hcall
  · intro s t env x n v m hr hm hgroups dst lwb htarget hdepth hwindow henter
    have hnum : Mod.number x.m = n.toNat := by rw [hm]; rfl
    have hdst : unpackCode v = dst := unpackCode_eq v
    have hcall := callTo_enters (s := s.tick) (n := n.toNat) htarget hdepth hwindow henter
    refine callv_uniform hr hgroups (by rw [hdst]; exact htarget) ?_
    rw [hnum, hdst]
    exact hcall

/-! ### exit and ret (R75, R108, R332) -/

section
variable {s t : State} {env : Env} {x : Args} {c : Course}

/-- The state with lanes of the issuing course marked exited, and their crews and barriers told. -/
def State.withExited (s : State) (env : Env) (c : Course) (m : LaneMask) : State :=
  (s.setCourse env.cid { c with exited := c.exited ||| m }).exitEvents env c (m &&& ~~~c.exited)

theorem exitLanes_living {m : LaneMask} (hc : s.courses.find env.cid = some c) (h : env.pa.lanes &&& ~~~(c.exited ||| m) ≠ 0) :
    exitLanes m env s = .ok (s.withExited env c m) := by
  unfold exitLanes
  rw [hc]
  exact if_neg h

theorem exitLanes_last {m : LaneMask} (hc : s.courses.find env.cid = some c) (h : env.pa.lanes &&& ~~~(c.exited ||| m) = 0) :
    exitLanes m env s = .done ((s.withExited env c m).endPath env.cid env.p) { gone := true } := by
  unfold exitLanes
  rw [hc]
  exact if_pos h

theorem setCounters_exited (c : Course) (n : BitVec 512) (a b : LaneMask) : ({ c with c := n, x := a, k := b } : Course).exited = c.exited := rfl

theorem clearLanes_exited (c : Course) (m : LaneMask) : (c.clearLanes m).exited = c.exited := by
  unfold Course.clearLanes
  exact setCounters_exited c _ _ _

/-- The frame record that ret reads, and the depth-vector entry beside it. -/
def State.retRecord (s : State) (env : Env) : Except Trap Frame := do
  let r ← s.frameAt env.co env.pa.depth (lowLane env.pa.fmask)
  let _ ← s.privRead env.co (depthOff (lowLane env.pa.fmask)) 8
  pure r

theorem retRecord_ok {r : Frame} {w : Nat} (hframe : s.frameAt env.co env.pa.depth (lowLane env.pa.fmask) = .ok r)
    (hdepth : s.privRead env.co (depthOff (lowLane env.pa.fmask)) 8 = .ok w) : s.retRecord env = .ok r := by
  unfold State.retRecord
  rw [hframe, hdepth]
  rfl

/-- ret of the launch frame clears its lanes' counters and exits them. -/
theorem ret_of_launch {r : Frame} {u : State} {a : Adv} (hr : Ready s env Enc.ret x) (hact : env.acting x ≠ 0)
    (hrec : s.tick.retRecord env = .ok r) (hdepth : env.pa.depth = 0)
    (hexit : exitLanes env.pa.fmask env (s.tick.setCourse env.cid (env.co.clearLanes env.pa.fmask)) = .done u a) :
    exec (.ret x) s = .next (u.complete env Enc.ret x a) := by
  unfold State.retRecord at hrec
  change execRet x s = _
  refine issue_done hr ((if_neg hact).trans ?_)
  dsimp only
  rw [hrec]
  dsimp only
  rw [if_pos (Or.inl hdepth), ready_tick hr]
  exact hexit

/-- ret of a frame entered by call, in a course that resumes no slice, returns to the caller. -/
theorem ret_of_call {r : Frame} {u : State} {a : Adv} (hr : Ready s env Enc.ret x) (hact : env.acting x ≠ 0)
    (hrec : s.tick.retRecord env = .ok r) (hdepth : env.pa.depth ≠ 0) (hkind : r.kind = 0) (hres : s.tick.isResumption env.co = false)
    (hret : retCall r env s.tick = .done u a) : exec (.ret x) s = .next (u.complete env Enc.ret x a) := by
  unfold State.retRecord at hrec
  change execRet x s = _
  refine issue_done hr ((if_neg hact).trans ?_)
  dsimp only
  rw [hrec]
  dsimp only
  rw [if_neg (by simp [hdepth, hkind]), if_neg (by simp [hkind]), if_neg (by simp [hres])]
  exact hret

/-- The caller's frame mask, with the lanes that are still the path's. -/
def Env.callerMask (env : Env) (r : Frame) : LaneMask := BitVec.ofNat 64 r.mask &&& env.pa.lanes

/-- The path back in its caller's frame (R108). -/
def Env.inCaller (env : Env) (r : Frame) : Path :=
  { env.pa with fmask := env.callerMask r, d := r.d, lwb := env.pa.lwb - 4 * r.units, depth := env.pa.depth - 1,
                ent := env.pa.ent.filter (fun e => e.1 < regionKey env.pa.depth 0) }

/-- The course once its path is back: the counters of the lanes that returned are clear, and no region of the frame is open. -/
def Env.courseAfterRet (env : Env) (r : Frame) (c : Course) : Course :=
  { (c.clearLanes env.pa.fmask).closeAt env.pa.depth with
    paths := ((c.clearLanes env.pa.fmask).closeAt env.pa.depth).paths.put env.p (env.inCaller r) }

theorem retCall_returns {r : Frame} (htarget : s.target env.co.core env.co.ctx r.ovl r.idx = .ok)
    (hwindow : env.co.windowTrap (env.pa.lwb - 4 * r.units) = none)
    (hput : s.putDepth env.co (env.pa.depth - 1) (env.pa.lwb - 4 * r.units) (lanesOf (env.callerMask r)) = .ok t)
    (hc : t.courses.find env.cid = some c) :
    retCall r env s = .done (t.setCourse env.cid (env.courseAfterRet r c)) { go := some (r.ovl, r.idx) } := by
  unfold Env.callerMask at hput
  unfold retCall
  dsimp only
  rw [transfer_ok htarget, hwindow]
  dsimp only
  rw [hput]
  dsimp only
  rw [hc]
  rfl

end

/-- Settles O22: by its record, ret returns to its caller or exits the lanes of the launch frame. -/
theorem returnsLeaveFrames : Obligations.ReturnsLeaveFrames := by
  unfold Obligations.ReturnsLeaveFrames
  constructor
  · intro s t env x r w c hr hact hframe hw hdepth hkind hres htarget hwindow hput hc c' q'
    exact ret_of_call hr hact (retRecord_ok hframe hw) hdepth hkind hres (retCall_returns (s := s.tick) htarget hwindow hput hc)
  · intro s env x r w hr hact hframe hw hdepth hliving c
    rw [← hdepth] at hframe
    rw [← clearLanes_exited env.co env.pa.fmask] at hliving
    have h := ret_of_launch hr hact (retRecord_ok hframe hw) hdepth (exitLanes_living (Tab.find_put_same _ _ _) hliving)
    unfold State.withExited at h
    rwa [clearLanes_exited] at h

/-- Settles O23: with living lanes left exit goes on, and without them it ends the path. -/
theorem exitMarksLanes : Obligations.ExitMarksLanes := by
  unfold Obligations.ExitMarksLanes
  intro s env x hr hact m t
  change (_ → execExit x s = _) ∧ (_ → execExit x s = _)
  exact ⟨fun hliving => issue_done hr ((if_neg hact).trans (exitLanes_living (ready_tick hr) hliving)),
    fun hlast => issue_done hr ((if_neg hact).trans (exitLanes_last (ready_tick hr) hlast))⟩

end Sys2Proof.Machine

/-! PROOFS. Special registers: O24. -/

namespace Sys2Proof.Machine

section
variable {s t : State} {env : Env} {x : Args} {c : Course}

/-- A special register that may be named has its values put into the destination. -/
theorem srd_done (hr : Ready s env Enc.srd x) (hok : s.specialOk env x.a.num x.b = true) :
    exec (.srd x) s = .next ((s.tick.put env (if wideSpecial x.a.num then .n64 else .n32) x.d
      ((env.runs x).map (fun l => (l, s.tick.special env x.a.num x.b l)))).complete env Enc.srd x {}) := by
  have hok' : ¬ (!s.tick.specialOk env x.a.num x.b) = true := by
    rw [show s.tick.specialOk env x.a.num x.b = true from hok]
    decide
  change execSrd x s = _
  exact issue_done hr (if_neg hok')

/-- swr of a special register that may be named writes it, and %sig takes no update of its own. -/
theorem swr_done (hr : Ready s env Enc.swr x) (hok : s.specialOk env x.d.num x.b = true) (hact : env.acting x ≠ 0) :
    exec (.swr x) s = .next ((s.tick.writeSpecial env x.d.num x.b (BitVec.ofNat 64 (env.val x .b64 x.a))).complete env Enc.swr x
      { sig := decide (x.d.num ≠ 0x0B) }) := by
  have hok' : ¬ (!s.tick.specialOk env x.d.num x.b) = true := by
    rw [show s.tick.specialOk env x.d.num x.b = true from hok]
    decide
  change execSwr x s = _
  exact issue_done hr ((if_neg hok').trans (if_neg hact))

theorem swr_refused (hr : Ready s env Enc.swr x) (hok : s.specialOk env x.d.num x.b = false) :
    exec (.swr x) s = .next (s.tick.trapHere env Trap.field) := by
  have hok' : (!s.tick.specialOk env x.d.num x.b) = true := by
    rw [show s.tick.specialOk env x.d.num x.b = false from hok]
    decide
  change execSwr x s = _
  exact issue_trap hr (if_pos hok')

/-! ### What a write of each special register writes (R67) -/

theorem writeSpecial_kst (hc : s.courses.find env.cid = some c) (o : Opnd) (v : Word) :
    s.writeSpecial env 0x0A o v = s.setCourse env.cid { c with kst := c.kst &&& ~~~v } := by
  unfold State.writeSpecial
  rw [hc]
  rfl

theorem writeSpecial_sig (hc : s.courses.find env.cid = some c) (o : Opnd) (v : Word) :
    s.writeSpecial env 0x0B o v = s.setCourse env.cid { c with sig := v.setWidth 32 } := by
  unfold State.writeSpecial
  rw [hc]
  rfl

theorem writeSpecial_mst (hc : s.courses.find env.cid = some c) (o : Opnd) (v : Word) :
    (s.writeSpecial env 0x0D o v).tile (env.tileKey o) =
      { s.tile (env.tileKey o) with mst := (s.tile (env.tileKey o)).mst &&& ~~~(v.setWidth 32) } := by
  unfold State.writeSpecial
  rw [hc]
  exact Tab.getD_put_same _ _ _ _

theorem writeSpecial_clamped (hc : s.courses.find env.cid = some c) (o : Opnd) (v : Word) :
    s.writeSpecial env 0x11 o v = s.setCourse env.cid { c with clamped := c.clamped && !v.getLsbD 0 } := by
  unfold State.writeSpecial
  rw [hc]
  rfl

/-- Completing keeps tiles as they are. -/
theorem complete_tile (s : State) (env : Env) (e : Entry) (x : Args) (a : Adv) (k : Nat) : (s.complete env e x a).tile k = s.tile k := by
  rw [complete_frame]
  rfl

/-- Completing keeps %kst and %clamped of the issuing course, and %sig too where the instruction takes no update of it. -/
theorem complete_specials {e : Entry} {a : Adv} (hc : s.courses.find env.cid = some c) :
    ∃ c', (s.complete env e x a).courses.find env.cid = some c' ∧ c'.kst = c.kst ∧ c'.clamped = c.clamped ∧
      (a.sig = false → c'.sig = c.sig) := by
  obtain ⟨-, c', hc', hframe⟩ := complete_course e x a hc
  refine ⟨c', hc', by rw [hframe], by rw [hframe], fun hsig => ?_⟩
  rw [hframe]
  unfold sigAfter
  rw [if_pos (by simp [hsig])]

/-- After swr of a special register of the course, the course holds what was written. -/
theorem swr_writes_course (hr : Ready s env Enc.swr x) (hok : s.specialOk env x.d.num x.b = true) (hact : env.acting x ≠ 0)
    (hwrite : s.tick.writeSpecial env x.d.num x.b (BitVec.ofNat 64 (env.val x .b64 x.a)) = s.tick.setCourse env.cid c) :
    ∃ u c', exec (.swr x) s = .next u ∧ u.courses.find env.cid = some c' ∧ c'.kst = c.kst ∧ c'.clamped = c.clamped ∧
      (x.d.num = 0x0B → c'.sig = c.sig) := by
  have hc : (s.tick.setCourse env.cid c).courses.find env.cid = some c := Tab.find_put_same _ _ _
  obtain ⟨c', hc', hkst, hclamped, hsig⟩ := complete_specials (x := x) (e := Enc.swr) (a := { sig := decide (x.d.num ≠ 0x0B) }) hc
  exact ⟨_, c', hwrite ▸ swr_done hr hok hact, hc', hkst, hclamped, fun hd => hsig (by simp [hd])⟩

end

/-- Settles O24: srd puts what `State.special` reads, swr writes as `State.writeSpecial` does, and completing keeps both. -/
theorem specialRegisters : Obligations.SpecialRegisters := by
  unfold Obligations.SpecialRegisters
  refine ⟨fun s env x hr hlo hhi hok => ?_, fun s env x hr hok hact => ?_, fun s env x => swr_refused⟩
  · obtain ⟨hwrote, hframe⟩ := put_spec (x := x) (e := Enc.srd) (ty := if wideSpecial x.a.num then .n64 else .n32)
      (fun l => s.tick.special env x.a.num x.b l) {} (ready_tick hr) rfl hlo hhi (container _)
    exact ⟨_, srd_done hr hok, tick_wrote hwrote, tick_frame hframe⟩
  · intro v
    have hc := ready_tick hr
    refine ⟨fun hd => ?_, fun hd => ?_, fun hd => ?_, fun hd => ?_⟩
    · obtain ⟨u, c', hu, hc', hkst, -⟩ := swr_writes_course hr hok hact (by rw [hd]; exact writeSpecial_kst hc _ _)
      exact ⟨u, c', hu, hc', hkst⟩
    · obtain ⟨u, c', hu, hc', -, -, hsig⟩ := swr_writes_course hr hok hact (by rw [hd]; exact writeSpecial_sig hc _ _)
      exact ⟨u, c', hu, hc', hsig hd⟩
    · refine ⟨_, swr_done hr hok hact, ?_⟩
      rw [complete_tile, hd, writeSpecial_mst hc]
      rfl
    · obtain ⟨u, c', hu, hc', -, hclamped, -⟩ := swr_writes_course hr hok hact (by rw [hd]; exact writeSpecial_clamped hc _ _)
      exact ⟨u, c', hu, hc', hclamped⟩

end Sys2Proof.Machine

/-! PROOFS. The sampler: O43 and O44. -/

namespace Sys2Proof.Machine

/-! ### Its commands (R82, R330, R331) -/

section
variable {s : State} {env : Env} {x : Args}

theorem profBuf_aligned (hr : Ready s env Enc.profBuf x) (hact : env.acting x ≠ 0) (h : env.n64 x x.a % 64 = 0) :
    exec (.profBuf x) s = .next ((s.tick.putSampler env { env.sampler s with
      ctx := env.co.ctx, base := env.n64 x x.a, cap := 2 ^ x.b.ctl, prod := 0, cons := 0, drop := 0, last := 31 }).complete env Enc.profBuf x {}) := by
  change execProfBuf x s = _
  exact issue_done hr ((if_neg hact).trans (if_neg (not_not.mpr h)))

theorem profBuf_misaligned (hr : Ready s env Enc.profBuf x) (hact : env.acting x ≠ 0) (h : env.n64 x x.a % 64 ≠ 0) :
    exec (.profBuf x) s = .next (s.tick.trapHere env (Trap.align 0xFF (env.n64 x x.a))) := by
  change execProfBuf x s = _
  exact issue_trap hr ((if_neg hact).trans (if_pos h))

end

/-- Settles O43: where a lane acts, each command's body puts the sampler as stated; prof.buf checks its address first. -/
theorem samplerCommands : Obligations.SamplerCommands := by
  unfold Obligations.SamplerCommands
  intro s env x hact m goesTo put
  refine ⟨fun hr => ?_, fun hr => ?_, fun hr => profBuf_aligned hr hact, fun hr => profBuf_misaligned hr hact,
    fun hr => ?_, fun hr => ?_, fun hr => ?_⟩
  · change execProfOff x s = _
    exact issue_done hr (if_neg hact)
  · change execProfOn x s = _
    exact issue_done hr (if_neg hact)
  · change execProfRdp x s = _
    exact issue_done hr (if_neg hact)
  · change execProfCons x s = _
    exact issue_done hr (if_neg hact)
  · change execProfDrop x s = _
    exact issue_done hr (if_neg hact)

/-! ### What a sample finds (R80) -/

section
variable {s : State} {cid p : Nat} {c : Course} {q : Path}

/-- A course that issues in the sampled clk is reported with the instruction that issues. -/
theorem samplePath_issued {i : Issued} (hi : (s.slotOf c.slot).issued = some i) (hclk : i.clk = s.time.clk) (hcid : i.cid = cid)
    (hq : c.paths.find i.p = some q) : s.samplePath cid c = some (i.p, { q with ovl := i.ovl, idx := i.idx }, 0) := by
  have hnow : s.issuedNow cid c = some i := by
    unfold State.issuedNow
    rw [hi, Option.filter_some, if_pos (by simp [hclk, hcid])]
  unfold State.samplePath
  rw [hnow]
  dsimp only
  rw [hq]
  rfl

theorem reason_holds (h : (s.slotOf c.slot).busy = some (cid, p)) : s.reason cid c p q = 1 := if_pos h

/-- A path that does not hold the slot, but may go on, awaits its turn or the flags of its header. -/
theorem reason_free (h : ¬ (s.slotOf c.slot).busy = some (cid, p)) (hfree : (s.mayRun cid c && s.waitOver cid c q) = true) :
    s.reason cid c p q = if s.headerOk c q then 2 else 3 := by
  unfold State.reason State.pathReady
  rw [if_neg h, hfree, Bool.true_and, if_pos rfl]

/-- One that may not go on waits for something, or for the driver, or its course is held. -/
theorem reason_not_free (h : ¬ (s.slotOf c.slot).busy = some (cid, p)) (hheld : (s.mayRun cid c && s.waitOver cid c q) = false) :
    s.reason cid c p q = if s.waitDone cid c q = false then 4 else if q.stopped then 5 else 6 := by
  unfold State.reason State.pathReady
  rw [if_neg h, hheld, Bool.false_and, if_neg Bool.false_ne_true, if_neg Bool.false_ne_true]
  simp only [Bool.not_eq_true']

theorem waitOver_iff : s.waitOver cid c q = true ↔ q.stopped = false ∧ s.waitDone cid c q = true := by
  unfold State.waitOver
  rw [Bool.and_eq_true, Bool.not_eq_true']

end

/-! ### Where its record goes (R81) -/

section
variable {s : State} {core v : Nat} {m : Sampler}

theorem putRecord_full (h : m.cap ≤ (m.prod - m.cons).toNat) : s.putRecord core m v = (s, { m with drop := min (2 ^ 32 - 1) (m.drop + 1) }) :=
  if_pos h

theorem putRecord_fits {pa : Nat × PageKind} (h : (m.prod - m.cons).toNat < m.cap)
    (ht : s.translate core m.ctx (m.base + 16 * (m.prod.toNat % m.cap)) (some false) true = .ok pa) :
    s.putRecord core m v = (s.pokeNat pa.1 16 v, { m with prod := m.prod + 1 }) := by
  unfold State.putRecord
  dsimp only
  rw [if_neg (Nat.not_le.mpr h), ht]

end

/-- Settles O44: the reasons are those of `reason_free` and `reason_not_free`, and a record goes where `putRecord` has room. -/
theorem samplesAndRecords : Obligations.SamplesAndRecords := by
  unfold Obligations.SamplesAndRecords
  refine ⟨fun s cid c q i => samplePath_issued, fun s cid p c q => ?_, fun s core v m => putRecord_full, fun s core v m pa => putRecord_fits⟩
  intro holds free
  refine ⟨reason_holds, fun hh hfree hok => ?_, fun hh hfree hok => ?_, fun hh hwait => ?_, fun hh hwait hstop => ?_, fun hh hover hrun => ?_⟩
  · rw [reason_free hh (Bool.and_eq_true _ _ ▸ hfree), if_pos hok]
  · rw [reason_free hh (Bool.and_eq_true _ _ ▸ hfree), hok]
    rfl
  · have hnot : s.waitOver cid c q = false := Bool.eq_false_iff.mpr (fun ho => by rw [(waitOver_iff.mp ho).2] at hwait; cases hwait)
    rw [reason_not_free hh (by rw [hnot, Bool.and_false]), if_pos hwait]
  · have hnot : s.waitOver cid c q = false := Bool.eq_false_iff.mpr (fun ho => by rw [(waitOver_iff.mp ho).1] at hstop; cases hstop)
    rw [reason_not_free hh (by rw [hnot, Bool.and_false]), if_neg (by simp [hwait]), if_pos hstop]
  · obtain ⟨hstop, hwait⟩ := waitOver_iff.mp hover
    rw [reason_not_free hh (by rw [hrun, Bool.false_and]), if_neg (by simp [hwait]), if_neg (by simp [hstop])]

end Sys2Proof.Machine

/-! PROOFS. Integer, bitwise and bit-field results, select and address: O8 to O10. -/

namespace Sys2Proof.Machine

/-! ### Instructions that put one value in each lane -/

/-- An instruction that completes with a value put in every lane it runs for has written its destination and nothing else. -/
theorem put_result {s : State} {env : Env} {e : Entry} {x : Args} {ty : Ty} {ans : Answer} (v : Nat → Nat)
    (hc : s.courses.find env.cid = some env.co) (hL : e.isL = false) (hrows : x.d.isVec = true → 2 ≤ env.co.rows ∧ env.co.rows ≤ 4096)
    (hans : ans = .next ((s.tick.put env ty x.d ((env.runs x).map (fun l => (l, v l)))).complete env e x {})) :
    ∃ u, ans = .next u ∧ Wrote s u env x ty v ∧ RegisterFrame s u env ty x.d := by
  obtain ⟨hwrote, hframe⟩ := put_spec_any (s := s.tick) (x := x) v {} hc hL hrows (container ty)
  exact ⟨_, hans, tick_wrote hwrote, tick_frame hframe⟩

/-! ### The integer types (R85) -/

theorem tysI_integer : ∀ t ∈ tysI, t.fmt? = none ∧ 8 ≤ t.bits := by decide

theorem tysS_integer : ∀ t ∈ tysS, t.fmt? = none ∧ 8 ≤ t.bits := by decide

theorem tysF_integer : ∀ t ∈ tysF, t.fmt? = none ∧ 8 ≤ t.bits := by decide

theorem tysG_integer : ∀ t ∈ tysG, t.fmt? = none ∧ 8 ≤ t.bits := by decide

theorem tysX_integer : ∀ t ∈ tysX, t.fmt? = none ∧ 8 ≤ t.bits := by decide

/-! ### Exact integer results, wrapped (R17, R85) -/

section
variable (t : Ty) (a b : BitVec t.bits)

theorem ofInt_intOf_add : BitVec.ofInt t.bits (intOf t a + intOf t b) = a + b := by
  rw [BitVec.ofInt_add, ofInt_intOf, ofInt_intOf]

theorem ofInt_intOf_sub : BitVec.ofInt t.bits (intOf t a - intOf t b) = a - b := by
  rw [Int.sub_eq_add_neg, BitVec.ofInt_add, intOf_neg, ofInt_intOf, BitVec.sub_eq_add_neg]

theorem ofInt_intOf_mul : BitVec.ofInt t.bits (intOf t a * intOf t b) = a * b := by
  rw [BitVec.ofInt_mul, ofInt_intOf, ofInt_intOf]

/-- The magnitude of a negative value is its negation; an unsigned value is its own. -/
theorem ofInt_natAbs : BitVec.ofInt t.bits ((intOf t a).natAbs : Int) = if t.signed && a.msb then -a else a := by
  rw [← intOf_neg, ← ofInt_intOf t a, ← apply_ite]
  congr 1
  rw [ofInt_intOf]
  unfold intOf
  cases hs : t.signed
  · simp
  · simp only [if_true, Bool.true_and, BitVec.msb_eq_toInt, decide_eq_true_eq]
    split <;> omega

/-- The order of the values is the signed or the unsigned order of the patterns. -/
theorem intOf_le_iff : intOf t a ≤ intOf t b ↔ (if t.signed then a.sle b else a.ule b) = true := by
  unfold intOf
  cases t.signed
  · simp [BitVec.ule_iff_toNat_le]
  · simp [BitVec.sle_iff_toInt_le]

theorem ofInt_intOf_min : BitVec.ofInt t.bits (if intOf t a ≤ intOf t b then intOf t a else intOf t b) =
    if (if t.signed then a.sle b else a.ule b) then a else b := by
  rw [apply_ite (BitVec.ofInt t.bits), ofInt_intOf, ofInt_intOf]
  exact if_congr (intOf_le_iff t a b) rfl rfl

theorem ofInt_intOf_max : BitVec.ofInt t.bits (if intOf t a ≤ intOf t b then intOf t b else intOf t a) =
    if (if t.signed then a.sle b else a.ule b) then b else a := by
  rw [apply_ite (BitVec.ofInt t.bits), ofInt_intOf, ofInt_intOf]
  exact if_congr (intOf_le_iff t a b) rfl rfl

/-- Shifting the value of a pattern right, rounding down, shifts the pattern arithmetically or logically. -/
theorem ofInt_intOf_shr (k : Nat) : BitVec.ofInt t.bits (intOf t a / ((2 ^ k : Nat) : Int)) =
    if t.signed then a.sshiftRight k else a >>> k := by
  unfold intOf
  cases t.signed
  · simp only [Bool.false_eq_true, if_false]
    rw [← Int.natCast_ediv, BitVec.ofInt_natCast, ← Nat.shiftRight_eq_div_pow, ← BitVec.toNat_ushiftRight, BitVec.ofNat_toNat,
      BitVec.setWidth_eq]
  · simp only [if_true]
    rw [← Int.shiftRight_eq_div_pow]
    rfl

end

/-- mad wraps the exact sum of a product and the old value of D. -/
theorem mad_lanes : LaneRule Instr.mad Enc.mad (fun _ a b d => a * b + d) := by
  refine rule_pat (fun x n a b d => wrap n (x.m.tyD.val a * x.m.tyD.val b + x.m.tyD.val d)) rfl (fun _ _ => rfl) (ints rfl tysI_integer)
    fun x a b d _ => ?_
  simp only [wrap_eq, val_eq, BitVec.ofNat_toNat, BitVec.setWidth_eq]
  rw [BitVec.ofInt_add, ofInt_intOf_mul, ofInt_intOf]

/-- Settles O8: each entry wraps an exact result on the values of its operands, or combines their bits. -/
theorem integerLaneResults : Obligations.IntegerLaneResults := by
  unfold Obligations.IntegerLaneResults
  simp only [List.forall_mem_cons]
  refine ⟨?add, ?sub, ?adds, ?subs, ?mul, ?mulhi, mad_lanes, ?neg, ?abs, ?min, ?max, ?div, ?rem, ?and, ?or, ?xor, ?not, List.forall_mem_nil _⟩
  case add => exact rule_int (fun _ a b => a + b) rfl (fun _ _ => rfl) (ints rfl tysI_integer) fun x a b _ => ofInt_intOf_add _ a b
  case sub => exact rule_int (fun _ a b => a - b) rfl (fun _ _ => rfl) (ints rfl tysI_integer) fun x a b _ => ofInt_intOf_sub _ a b
  case adds =>
    exact rule_int (fun x a b => x.m.tyD.sat (a + b)) rfl (fun _ _ => rfl) (ints rfl tysI_integer)
      fun x a b _ => congrArg _ (sat_eq _ _)
  case subs =>
    exact rule_int (fun x a b => x.m.tyD.sat (a - b)) rfl (fun _ _ => rfl) (ints rfl tysI_integer)
      fun x a b _ => congrArg _ (sat_eq _ _)
  case mul => exact rule_int (fun _ a b => a * b) rfl (fun _ _ => rfl) (ints rfl tysI_integer) fun x a b _ => ofInt_intOf_mul _ a b
  case mulhi =>
    exact rule_int (fun x a b => a * b / ((2 ^ x.m.tyD.bits : Nat) : Int)) rfl (fun _ _ => rfl) (ints rfl tysI_integer)
      fun x a b _ => by push_cast; rfl
  case neg => exact rule_int (fun _ a _ => -a) rfl (fun _ _ => rfl) (ints rfl tysS_integer) fun x a _ _ => intOf_neg _ a
  case abs => exact rule_int (fun _ a _ => (a.natAbs : Int)) rfl (fun _ _ => rfl) (ints rfl tysS_integer) fun x a _ _ => ofInt_natAbs _ a
  case min =>
    exact rule_int (fun _ a b => if a ≤ b then a else b) rfl (fun _ _ => rfl) (ints rfl tysI_integer) fun x a b _ => ofInt_intOf_min _ a b
  case max =>
    exact rule_int (fun _ a b => if a ≤ b then b else a) rfl (fun _ _ => rfl) (ints rfl tysI_integer) fun x a b _ => ofInt_intOf_max _ a b
  case div => exact rule_int (fun x => divR85 x.m.tyD) rfl (fun _ _ => rfl) (ints rfl tysI_integer) fun x a b _ => div_eq _ a b
  case rem => exact rule_int (fun x => remR85 x.m.tyD) rfl (fun _ _ => rfl) (ints rfl tysI_integer) fun x a b _ => rem_eq _ a b
  case and => exact rule_pat (fun _ _ a b _ => a &&& b) rfl (fun _ _ => rfl) (ints rfl tysX_integer) fun x a b _ _ => (BitVec.toNat_and a b).symm
  case or => exact rule_pat (fun _ _ a b _ => a ||| b) rfl (fun _ _ => rfl) (ints rfl tysX_integer) fun x a b _ _ => (BitVec.toNat_or a b).symm
  case xor => exact rule_pat (fun _ _ a b _ => a ^^^ b) rfl (fun _ _ => rfl) (ints rfl tysX_integer) fun x a b _ _ => (BitVec.toNat_xor a b).symm
  case not => exact rule_pat (fun _ n a _ _ => 2 ^ n - 1 - a) rfl (fun _ _ => rfl) (ints rfl tysX_integer) fun x a _ _ _ => BitVec.toNat_not.symm

/-- Settles O9: the pattern each entry computes is read off its bits, or is the value shifted; mov copies. -/
theorem bitFieldLaneResults : Obligations.BitFieldLaneResults := by
  unfold Obligations.BitFieldLaneResults
  simp only [List.forall_mem_cons]
  refine ⟨?shl, ?shr, ?rol, ?bfx, ?bfi, ?popc, ?clz, ?brev, rule_mov, List.forall_mem_nil _⟩
  case shl =>
    exact rule_pat (fun _ n a b _ => (a <<< bits b 0 8) % 2 ^ n) rfl (fun _ _ => rfl) (ints rfl tysX_integer)
      fun x a b _ _ => by rw [b8, BitVec.toNat_shiftLeft]
  case shr =>
    refine rule_pat (fun x n a b _ => wrap n (x.m.tyD.val a / ((2 ^ bits b 0 8 : Nat) : Int))) rfl (fun _ _ => rfl) (ints rfl tysX_integer)
      fun x a b _ _ => ?_
    rw [b8, wrap_eq, val_eq, BitVec.ofNat_toNat, BitVec.setWidth_eq, ofInt_intOf_shr]
  case rol =>
    exact rule_pat (fun _ n a b _ => rotl n a (bits b 0 8)) rfl (fun _ _ => rfl) (ints rfl tysX_integer)
      fun x a b _ _ => by rw [b8, rol_eq]
  case bfx => exact rule_pat (fun x _ a b _ => bitExtract x.m.tyD a b) rfl (fun _ _ => rfl) (ints rfl tysF_integer) fun x a b _ _ => bfx_eq _ a b
  case bfi => exact rule_pat (fun _ n a b d => bitInsert n d a b) rfl (fun _ _ => rfl) (ints rfl tysG_integer) fun x a b d _ => bfi_eq _ a b d
  case popc => exact rule_pat (fun _ n a _ _ => popCount n a) rfl (fun _ _ => rfl) (ints rfl tysX_integer) fun x a _ _ h8 => popc_eq a h8
  case clz => exact rule_pat (fun _ n a _ _ => leadingZeros n a) rfl (fun _ _ => rfl) (ints rfl tysX_integer) fun x a _ _ h8 => clz_eq a h8
  case brev => exact rule_pat (fun _ n a _ _ => bitReverse n a) rfl (fun _ _ => rfl) (ints rfl tysX_integer) fun x a _ _ _ => brev_eq a

/-! ### Select and address (R85, R86) -/

theorem acting_always (env : Env) (x : Args) : env.acting { x with g := .always } = env.active := by
  unfold Env.acting Course.guard
  exact BitVec.and_allOnes

/-- An instruction with a vector destination runs for every acting lane (R39). -/
theorem runs_vec {env : Env} {x : Args} (h : x.d.isVec = true) : env.runs x = lanesOf (env.acting x) := by
  unfold Env.runs
  cases hd : x.d with
  | vec r p => rfl
  | zero | reg | imm | joined =>
    rw [hd] at h
    cases h

/-- The exact address wraps to the sum of the address and the scaled, sign-extended index. -/
theorem wrap_address (a b size : Nat) : wrap 64 ((a : Int) + toInt 32 b * (size : Int)) =
    (BitVec.ofNat 64 a + (BitVec.ofNat 32 b).signExtend 64 * BitVec.ofNat 64 size).toNat := by
  rw [wrap_eq, BitVec.ofInt_add, BitVec.ofInt_mul, toInt_eq 32 b (by decide), BitVec.ofInt_natCast, BitVec.ofInt_natCast]
  rfl

theorem lea_lanes : PatRule Instr.lea Enc.lea (fun _ => .n64) (fun _ => .i32) (fun _ => .n64) (fun x a b _ =>
    (BitVec.ofNat 64 a + (BitVec.ofNat 32 b).signExtend 64 * BitVec.ofNat 64 (x.m.tyD.bits / 8)).toNat) := by
  simp only [← wrap_address]
  exact pat_of rfl (fun _ _ => rfl)

/-- sel puts, in every active lane of a vector, the value its guard chooses; its own guard holds no lane back. -/
theorem sel_done {s : State} {env : Env} {x : Args} (hr : Ready s env Enc.sel x) (hvec : x.d.isVec = true) :
    exec (.sel x) s = .next ((s.tick.put env x.m.tyD x.d ((env.runs { x with g := .always }).map (fun l =>
      (l, if (env.co.guard x.g).getLsbD l then s.lane env x x.m.tyD x.a l else s.lane env x x.m.tyD x.b l)))).complete env Enc.sel
        { x with g := .always } {}) := by
  have hruns : env.runs { x with g := .always } = lanesOf env.active := by
    rw [runs_vec (show ({ x with g := .always } : Args).d.isVec = true from hvec), acting_always]
  rw [hruns]
  change execSel x s = _
  unfold execSel
  exact issue_done hr rfl

/-- Settles O10: sel is a put over the lanes of an instruction that is always guarded, lea one over exact addresses. -/
theorem selectAndAddress : Obligations.SelectAndAddress := by
  unfold Obligations.SelectAndAddress
  refine ⟨fun s env x hr hlo hhi hvec => ?_, lea_lanes⟩
  exact put_result _ hr.course rfl (fun _ => ⟨hlo, hhi⟩) (sel_done hr hvec)

end Sys2Proof.Machine

/-! PROOFS. Floating-point results, conversions, predicates and votes: O11 and O12. -/

namespace Sys2Proof.Machine

/-! ### Conversions (R90, R91) -/

theorem cvti_lanes : PatRule Instr.cvti Enc.cvti (·.m.fmtD.ty) (fun _ => .n32) convTy (fun x a _ _ =>
    (BitVec.ofInt (convTy x).bits (floatToInt (convTy x) (rndOf x) (x.m.fmtD.decode a))).toNat) := by
  simp only [← wrap_eq]
  exact pat_of rfl (fun _ _ => rfl)

theorem cvtf_lanes : PatRule Instr.cvtf Enc.cvtf convTy (fun _ => .n32) (·.m.fmtD.ty) (fun x a _ _ =>
    (FVal.ofInt false (intOf (convTy x) (BitVec.ofNat (convTy x).bits a)) 0).encode x.m.fmtD (rndOf x)) := by
  simp only [← val_eq]
  exact pat_of rfl (fun _ _ => rfl)

section
variable {x : Args}

/-- cvt from a float format converts the float. -/
theorem cvtValue_float {src : Fmt} (h : (convTy x).fmt? = some src) (a d : Nat) :
    cvtValue x a d = convFloat src x.m.fmtD (rndOf x) (nbit x.b.ctl 5) a := by
  unfold cvtValue
  simp only [h]

/-- cvt from a group code scales the code by the scale and the zero point that D holds (R26). -/
theorem cvtValue_group (h : (convTy x).fmt? = none) (a d : Nat) :
    cvtValue x a d = (groupVal (d % 65536) a (d / 65536 % 256)).encode x.m.fmtD (rndOf x) := by
  have hscale : bits d 0 16 = d % 65536 := by simp [bits]
  have hzero : bits d 16 8 = d / 65536 % 256 := by simp [bits, Nat.shiftRight_eq_div_pow]
  unfold cvtValue
  simp only [h, hscale, hzero]

end

theorem cvt_done {s : State} {env : Env} {x : Args} (hr : Ready s env Enc.cvt x) :
    exec (.cvt x) s = .next ((s.tick.put env x.m.fmtD.ty x.d ((env.runs x).map (fun l =>
      (l, cvtValue x (s.lane env x (convTy x) x.a l) (s.lane env x .n32 x.d l))))).complete env Enc.cvt x {}) := by
  change execCvt x s = _
  exact issue_done hr rfl

/-- Settles O11: an arithmetic entry's body is a lane function that decodes, operates once and encodes; a conversion's value is by its source. -/
theorem floatLaneResults : Obligations.FloatLaneResults := by
  unfold Obligations.FloatLaneResults
  simp only [List.forall_mem_cons]
  refine ⟨⟨?fadd, ?fsub, ?fmul, ?ffma, ?fdiv, ?fsqrt, ?frcp, ?frsq, List.forall_mem_nil _⟩, ?fmin, ?fmax, ?fneg, ?fabs,
    cvti_lanes, cvtf_lanes, fun s env x hr hlo hhi => ?cvt⟩
  case cvt =>
    obtain ⟨u, hu, hwrote, hframe⟩ := put_result _ hr.course rfl (fun _ => ⟨hlo, hhi⟩) (cvt_done hr)
    refine ⟨u, hu, ?_, hframe⟩
    cases hsrc : (convTy x).fmt? with
    | some src => simpa only [cvtValue_float hsrc] using hwrote
    | none => simpa only [cvtValue_group hsrc] using hwrote
  all_goals exact pat_of rfl (fun _ _ => rfl)

/-! ### Predicate logic and votes (R92 to R94) -/

/-- An entry of predicate logic combines the bits of its two predicates. -/
theorem mask_lanes {k : Args → Instr} {e : Entry} (f : LaneMask → LaneMask → LaneMask) (g : Bool → Bool → Bool) (hL : e.isL = false)
    (hx : ∀ x s, exec (k x) s = issue e x (maskOp x f) s)
    (hf : ∀ q r l, l < 64 → (f q r).getLsbD l = g (q.getLsbD l) (r.getLsbD l)) :
    PredRule k e (fun _ env x l => decide (l < 64) && g ((env.co.pred x.a.num).getLsbD l) ((env.co.pred x.b.num).getLsbD l)) := by
  refine pred_of (fun _ env x => f (env.co.pred x.a.num) (env.co.pred x.b.num)) hL hx fun s env x l hl _ => ?_
  rw [hf _ _ l hl, decide_eq_true hl, Bool.true_and]

/-- A vote gives every acting lane one truth value. -/
theorem vote_lanes {k : Args → Instr} {e : Entry} (f g : LaneMask → LaneMask → Bool) (hL : e.isL = false)
    (hx : ∀ x s, exec (k x) s = issue e x (voteOp x f) s) (hf : ∀ C q, f C q = g C q) :
    PredRule k e (fun _ env x l => decide (l < 64) && ((env.acting x).getLsbD l && g (env.acting x) (env.co.pred x.a.num))) := by
  refine pred_of (fun _ env x => if f (env.acting x) (env.co.pred x.a.num) then env.acting x else 0) hL hx fun s env x l hl hact => ?_
  rw [← hf, decide_eq_true hl, hact, Bool.true_and, Bool.true_and]
  cases f (env.acting x) (env.co.pred x.a.num)
  · exact BitVec.getLsbD_zero
  · exact hact

theorem vote_any (C q : LaneMask) : decide (C &&& q ≠ 0) = (lanesOf C).any (fun l => q.getLsbD l) := by
  rw [Bool.eq_iff_iff, decide_eq_true_iff, and_ne_zero, List.any_eq_true]

theorem vote_all (C q : LaneMask) : decide (C &&& q = C) = (lanesOf C).all (fun l => q.getLsbD l) := by
  rw [Bool.eq_iff_iff, decide_eq_true_iff, and_eq_self, List.all_eq_true]

theorem vote_none (C q : LaneMask) : decide (C &&& q = 0) = (lanesOf C).all (fun l => !q.getLsbD l) := by
  rw [← List.not_any_eq_all_not, ← vote_any, decide_not, Bool.not_not]

theorem pmov_lanes : PredRule Instr.pmov Enc.pmov (fun _ env x l =>
    match x.a, x.b with
    | .imm v, _ => decide (l < 64) && v.getLsbD 0
    | a, .zero => (env.co.pred a.num).getLsbD l
    | a, _ => (env.co.scalar a.num).getLsbD l) := by
  refine pred_of _ rfl pmov_body fun s env x l hl _ => ?_
  rcases x.a with _ | _ | _ | v | _
  case imm =>
    dsimp only
    rw [decide_eq_true hl, Bool.true_and]
    cases v.getLsbD 0
    · exact BitVec.getLsbD_zero
    · exact allOnes_bit l hl
  all_goals cases x.b <;> rfl

section
variable {s : State} {env : Env} {x : Args} {n : BitVec 6}

/-- A 64-bit value put into a scalar is written to it when a lane acts. -/
theorem put_b64_scalar (hd : x.d = .reg n) (hc : s.courses.find env.cid = some env.co) (v : Nat) :
    s.put env .b64 x.d ((env.runs x).map (fun l => (l, v))) = if env.acting x = 0 then s else s.putScalar env x.d v := by
  have hruns : env.runs x = (lanesOf (env.acting x)).take 1 := by
    unfold Env.runs
    rw [hd]
  have hval : BitVec.ofNat 64 (Ty.b64.extend 64 v) = BitVec.ofNat 64 v := by
    refine BitVec.eq_of_toNat_eq ?_
    simp only [BitVec.toNat_ofNat]
    exact Nat.mod_mod _ _
  unfold State.put State.putDst State.putScalar State.setScalar
  rw [hc, hruns, hd]
  by_cases h : env.acting x = 0
  · rw [if_pos h, h, lanesOf_zero]
    rfl
  · rw [if_neg h, lanesOf_take h, ← hval]
    rfl

theorem ballot_done (hr : Ready s env Enc.ballot x) (hd : x.d = .reg n) :
    exec (.ballot x) s = .next ((s.tick.put env .b64 x.d
      ((env.runs x).map (fun l => (l, (env.acting x &&& env.co.pred x.a.num).toNat)))).complete env Enc.ballot x {}) := by
  rw [put_b64_scalar hd (ready_tick hr)]
  change execBallot x s = _
  refine issue_done hr ?_
  dsimp only
  split <;> rfl

end

/-- Settles O12: a comparison is of the operands' order, predicate logic and pmov go bit by bit, and a vote asks one question of all acting lanes. -/
theorem predicateResults : Obligations.PredicateResults := by
  unfold Obligations.PredicateResults
  simp only [List.forall_mem_cons]
  refine ⟨⟨?eq, ?ne, ?lt, ?le, ?gt, ?ge, ?un, ?num, List.forall_mem_nil _⟩, ⟨?pand, ?por, ?pxor, ?pnot, List.forall_mem_nil _⟩, pmov_lanes,
    ⟨?any, ?all, ?uniform, List.forall_mem_nil _⟩, fun s env x n hr hd => ?ballot⟩
  case eq =>
    exact setp_of Instr.setpEq Enc.setpEq .eq (fun a b => decide (a = b)) rfl (fun _ _ => rfl) fun a b => by
      obtain ⟨heq, -⟩ := cmp_facts a b
      exact heq
  case ne =>
    exact setp_of Instr.setpNe Enc.setpNe .ne (fun a b => decide (a ≠ b)) rfl (fun _ _ => rfl) fun a b => by
      obtain ⟨-, hne, -⟩ := cmp_facts a b
      exact hne
  case lt =>
    exact setp_of Instr.setpLt Enc.setpLt .lt (fun a b => decide (a < b)) rfl (fun _ _ => rfl) fun a b => by
      obtain ⟨-, -, hlt, -⟩ := cmp_facts a b
      exact hlt
  case le =>
    exact setp_of Instr.setpLe Enc.setpLe .le (fun a b => decide (a ≤ b)) rfl (fun _ _ => rfl) fun a b => by
      obtain ⟨-, -, -, hle, -⟩ := cmp_facts a b
      exact hle
  case gt =>
    exact setp_of Instr.setpGt Enc.setpGt .gt (fun a b => decide (b < a)) rfl (fun _ _ => rfl) fun a b => by
      obtain ⟨-, -, -, -, hgt, -⟩ := cmp_facts a b
      exact hgt
  case ge =>
    exact setp_of Instr.setpGe Enc.setpGe .ge (fun a b => decide (b ≤ a)) rfl (fun _ _ => rfl) fun a b => by
      obtain ⟨-, -, -, -, -, hge⟩ := cmp_facts a b
      exact hge
  case un => exact setp_of _ _ .un _ rfl (fun _ _ => rfl) fun _ _ => rfl
  case num => exact setp_of _ _ .num _ rfl (fun _ _ => rfl) fun _ _ => rfl
  case pand => exact mask_lanes _ _ rfl (fun _ _ => rfl) fun q r l _ => BitVec.getLsbD_and
  case por => exact mask_lanes _ _ rfl (fun _ _ => rfl) fun q r l _ => BitVec.getLsbD_or
  case pxor => exact mask_lanes _ _ rfl (fun _ _ => rfl) fun q r l _ => BitVec.getLsbD_xor
  case pnot =>
    exact mask_lanes _ (fun q _ => !q) rfl (fun _ _ => rfl) fun q _ l hl => by
      rw [BitVec.getLsbD_not, decide_eq_true hl, Bool.true_and]
  case any => exact vote_lanes _ _ rfl (fun _ _ => rfl) vote_any
  case all => exact vote_lanes _ _ rfl (fun _ _ => rfl) vote_all
  case uniform =>
    exact vote_lanes (k := Instr.voteUniform) (e := Enc.voteUniform) (fun C q => decide (C &&& q = C) || decide (C &&& q = 0)) _ rfl
      (fun _ _ => rfl) fun C q => by rw [vote_all, vote_none]
  case ballot => exact put_result _ hr.course rfl (fun hvec => by rw [hd] at hvec; cases hvec) (ballot_done hr hd)

end Sys2Proof.Machine

/-! PROOFS. Cross-lane results, the reduction tree and the accumulator: O13 to O16. -/

namespace Sys2Proof.Machine

/-! ### The log-step tree and scan (R97) -/

/-- The log-step reduction leaves in each lane the combination of the lanes that its six steps gather. -/
theorem lredTree_eq (f : Nat → Nat → Nat) (g : Nat → Nat) :
    lredTree f ((List.range 64).map g) = (List.range 64).map (redG f g [1, 2, 4, 8, 16, 32]) :=
  lred_fold f g [1, 2, 4, 8, 16, 32] (by decide)

/-- A list of inputs combined by steps of the scan up to distance n holds, in each lane, the combination of the last n lanes. -/
def Scanned (f : Nat → Nat → Nat) (g : Nat → Nat) (n : Nat) (v : List Nat) : Prop :=
  ∃ G : Nat → Nat, v = (List.range 64).map G ∧ ∀ l, some (G l) = prodL f g (seg n l)

section
variable {f : Nat → Nat → Nat} {g : Nat → Nat}

theorem seg_one (l : Nat) : seg 1 l = [l] := by
  simp [seg]

/-- A segment of 64 lanes or more reaches down to lane 0. -/
theorem seg_all {l : Nat} (hl : l < 64) : seg 64 l = List.range (l + 1) := by
  have h : min 64 (l + 1) = l + 1 := by omega
  simp [seg, h]

theorem scanned_start : Scanned f g 1 ((List.range 64).map g) :=
  ⟨g, rfl, fun l => by rw [seg_one]; rfl⟩

theorem Scanned.step (hassoc : ∀ a b c, f (f a b) c = f a (f b c)) {n : Nat} {v : List Nat} (h : Scanned f g n v) :
    Scanned f g (2 * n) (v.zipIdx.map (fun a => if n ≤ a.2 then f (v.getD (a.2 - n) 0) a.1 else a.1)) := by
  obtain ⟨G, rfl, hG⟩ := h
  obtain ⟨hstep, hprod⟩ := scan_step f g G hassoc n hG
  exact ⟨_, hstep, hprod⟩

theorem lscanTree_scanned (hassoc : ∀ a b c, f (f a b) c = f a (f b c)) : Scanned f g 64 (lscanTree f ((List.range 64).map g)) :=
  (((((scanned_start.step hassoc).step hassoc).step hassoc).step hassoc).step hassoc).step hassoc

end

/-- Settles O15: the steps gather every lane once, so the reduction is the product of all inputs; the scan doubles the segment it combines. -/
theorem logStepTrees : Obligations.LogStepTrees := by
  unfold Obligations.LogStepTrees
  refine ⟨fun f hcomm hassoc g l hl => ?_, fun f hassoc g l hl => ?_⟩
  · rw [lredTree_eq, map_getD _ _ hl]
    refine Option.some.inj ?_
    calc some (redG f g [1, 2, 4, 8, 16, 32] l)
        = prodL f g (leaves [1, 2, 4, 8, 16, 32] l) := redG_prod f g hassoc _ l
      _ = prodL f g (List.range 64) := prodL_perm f g hcomm hassoc (perm_all l hl)
      _ = _ := prod_range f g hassoc 63
  · obtain ⟨G, htree, hG⟩ := lscanTree_scanned (g := g) hassoc
    rw [htree, map_getD _ _ hl]
    refine Option.some.inj ?_
    rw [hG, seg_all hl, prod_range f g hassoc l]

/-! ### Gathering (R95) -/

/-- Settles O13: the body puts, in each lane, the lane of A that B names. -/
theorem permGathers : Obligations.PermGathers := by
  unfold Obligations.PermGathers
  intro s env x hr hlo hhi
  refine put_result (e := Enc.perm) _ hr.course rfl (fun _ => ⟨hlo, hhi⟩) ?_
  change execPerm x s = _
  unfold execPerm
  exact issue_done hr rfl

/-! ### xred, xget and xput (R101 to R103) -/

section
variable {s : State} {env : Env} {x : Args}

/-- The earliest xred of its course lands its result once the course is between runs. -/
theorem xredComplete_lands {op cid : Nat} {o : Op} {v : Word} {ne ex : Bool} (hop : s.ops.find op = some o) (hcid : o.cid = some cid)
    (hkind : o.kind = .xred v ne ex) (hfirst : s.firstXred cid = some op) (hland : s.mayLand o = true) :
    exec (.xredComplete op) s = .next ((s.inRecord cid (fun s => s.modCourse cid (fun c =>
      { c with xr := v, ne := ne, ex := ex, xseq := c.xseq + 1, xPoison := false }))).finishOp op) := by
  change execXredComplete op s = _
  unfold execXredComplete
  simp only [hop, hkind, hcid, hfirst, hland, decide_true, Bool.and_self, if_true]

theorem modCourse_found {cid : Nat} {c : Course} (f : Course → Course) (hc : s.courses.find cid = some c) :
    s.modCourse cid f = s.setCourse cid (f c) := by
  unfold State.modCourse
  rw [hc]

theorem xget_waits {d : BitVec 6} {p : Option (BitVec 6)} (hr : Ready s env Enc.xget x) (hact : env.acting x ≠ 0) (hd : x.d = .reg d)
    (hb : x.b = (match p with | some n => .reg n | none => .zero)) :
    exec (.xget x) s = .next (s.tick.complete env Enc.xget x
      { wait := .xget d (BitVec.ofNat 32 (env.val x .n32 x.a)) p (env.acting x) }) := by
  change execXget x s = _
  refine issue_done hr ((if_neg hact).trans ?_)
  rw [hd, hb]
  cases p <;> rfl

theorem xput_copies (hr : Ready s env Enc.xput x) (hclean : env.co.xPoison = false) :
    exec (.xput x) s = .next ((s.tick.put env x.m.tyD x.d
      ((env.runs x).map (fun l => (l, env.co.xr.toNat % 2 ^ x.m.tyD.bits)))).complete env Enc.xput x {}) := by
  have hgo : ¬ (env.co.xPoison && decide (env.acting x ≠ 0)) = true := by
    rw [hclean, Bool.false_and]
    exact Bool.false_ne_true
  change execXput x s = _
  unfold execXput
  exact issue_done hr (if_neg hgo)

end

/-- Settles O14: lred, lscan and xred complete with their bodies' states; xget and xput where nothing holds them back, and an operation's
result goes into its course's record, which is the course itself while its slot is its own. -/
theorem reductionResults : Obligations.ReductionResults := by
  unfold Obligations.ReductionResults
  refine ⟨List.forall_mem_cons.mpr ⟨fun s env x hr => issue_done hr rfl, List.forall_mem_singleton.mpr fun s env x hr => issue_done hr rfl⟩,
    fun s env x hr => ?_, fun s op cid o c v ne ex hop hcid hkind hfirst hland hc => ?_,
    fun s env x d p => xget_waits, fun s env x hr hclean hlo hhi => ?_⟩
  · change execXred x s = _
    exact issue_done hr rfl
  · have hlands := xredComplete_lands hop hcid hkind hfirst hland
    exact ⟨hlands, fun hown => by rw [hlands, inRecord_here hc hown, modCourse_found _ hc]⟩
  · exact put_result _ hr.course rfl (fun _ => ⟨hlo, hhi⟩) (xput_copies hr hclean)

/-- Settles O16: each entry completes with its body's state; the accumulator that kscan's fold carries is the fold of the additions. -/
theorem kulischResults : Obligations.KulischResults := by
  unfold Obligations.KulischResults
  intro s env x k f
  refine ⟨fun hr hact => ?_, fun hr => ?_, fun hr => ?_, fun hr => ?_, fun hr hlo hhi => ?_⟩
  · change execKclr x s = _
    exact issue_done hr (if_neg hact)
  · change execKadd x s = _
    unfold execKadd
    exact issue_done hr rfl
  · change execKmac x s = _
    unfold execKmac
    exact issue_done hr rfl
  · change execKscan x s = _
    rw [← kscan_fold (lanesOf (env.acting x)) (fun l => Fmt.f64.decode (s.lane env x .f64 x.a l)) k []]
    exact issue_done hr rfl
  · refine put_result (e := Enc.krd) _ hr.course rfl (fun _ => ⟨hlo, hhi⟩) ?_
    change execKrd x s = _
    exact issue_done hr rfl

end Sys2Proof.Machine

/-! PROOFS. Windows and stack slices: O25. -/

namespace Sys2Proof.Machine

section
variable {s t : State} {env : Env} {x : Args} {c : Course} {off n a : Nat}

/-! ### The stack region of a course (R129) -/

theorem privRead_good (hat : s.privAt c off n false = .ok a) (hgood : s.poisonedAs (c.priv + off) a n = none) :
    s.privRead c off n = .ok (s.peekNat a n) := by
  unfold State.privRead
  rw [hat]
  change (match s.poisonedAs (c.priv + off) a n with | some u => _ | none => _) = _
  rw [hgood]

theorem privWrite_mapped (v : Nat) (hat : s.privAt c off n true = .ok a) : s.privWrite c off n v = .ok (s.pokeNat a n v) := by
  unfold State.privWrite
  rw [hat]
  rfl

/-! ### mark (R116, R117) -/

/-- The record at an offset of the stack region with a mark in it (R107, R117). -/
def State.markRecord (s : State) (c : Course) (off mark : Nat) : Except Trap State := do
  let w ← s.privRead c off 8
  s.privWrite c off 8 (setBits w 0 17 (2 ^ 16 + mark))

/-- The state with the mark that the instruction names in the frame record of each of the lanes given. -/
def Env.markLanes (env : Env) (x : Args) (lanes : List Nat) (s : State) : Except Trap State :=
  lanes.foldlM (fun s l => s.markRecord env.co (frameOff env.pa.depth l + 8) x.a.ctl) s

theorem markRecord_writes {b : Nat} (mark : Nat) (hread : s.privAt c off 8 false = .ok a)
    (hgood : s.poisonedAs (c.priv + off) a 8 = none) (hwrite : s.privAt c off 8 true = .ok b) :
    s.markRecord c off mark = .ok (s.pokeNat b 8 (setBits (s.peekNat a 8) 0 17 (2 ^ 16 + mark))) := by
  unfold State.markRecord
  rw [privRead_good hread hgood]
  exact privWrite_mapped _ hwrite

/-- mark completes once every record has taken it. -/
theorem mark_writes (hr : Ready s env Enc.mark x) (hact : env.acting x ≠ 0) (hall : env.markLanes x (lanesOf env.pa.fmask) s.tick = .ok t) :
    exec (.mark x) s = .next (t.complete env Enc.mark x {}) := by
  change execMark x s = _
  refine issue_done hr ((if_neg hact).trans ?_)
  change (match env.markLanes x (lanesOf env.pa.fmask) s.tick with | .error t => _ | .ok s => _) = _
  rw [hall]
  rfl

/-- A path of one lane has one record to mark. -/
theorem markLanes_single {l b : Nat} (hread : s.privAt env.co (frameOff env.pa.depth l + 8) 8 false = .ok a)
    (hgood : s.poisonedAs (env.co.priv + (frameOff env.pa.depth l + 8)) a 8 = none)
    (hwrite : s.privAt env.co (frameOff env.pa.depth l + 8) 8 true = .ok b) :
    env.markLanes x [l] s = .ok (s.pokeNat b 8 (setBits (s.peekNat a 8) 0 17 (2 ^ 16 + x.a.ctl))) := by
  unfold Env.markLanes
  rw [List.foldlM_cons, markRecord_writes x.a.ctl hread hgood hwrite]
  rfl

/-! ### wflush (R110) -/

/-- The pages of the stack region take the access to each of the logical rows (R129). -/
def State.rowsTake (s : State) (c : Course) (w : Bool) (l : List Int) : Prop :=
  ∀ L ∈ l, 0 ≤ L ∧ (s.privAt c (spillOff L.toNat) 256 w).isOk = true

/-- Where the logical rows lie in the spill area. -/
def State.rowPlaces (s : State) (c : Course) (w : Bool) (l : List Int) : List (Nat × Nat) :=
  l.map (fun L => ((s.privAt c (spillOff L.toNat) 256 w).toOption.getD 0, 256))

theorem rowsOk_places {w : Bool} {l : List Int} (h : s.rowsTake c w l) : s.rowsOk c l w = .ok (s.rowPlaces c w l) := rowsOk_ok h

/-- wflush registers the rows that it moves, as its place behind the moves under way has them, and starts its operation. -/
theorem wflush_starts {k0 k lo : Int} (hr : Ready s env Enc.wflush x) (hact : env.acting x ≠ 0) (hk0 : k0 = toInt 32 (env.val x .i32 x.a))
    (hk : k = if k0 = 0 then s.tick.pendingWindow env else k0) (hlo : lo = (env.co.lo : Int) + s.tick.pendingMove env.cid)
    (hfits : (k0.natAbs : Int) ≤ env.co.rows) (hout : s.tick.rowsTake env.co true (leaveRows lo env.co.rows (lo + k)))
    (hin : s.tick.rowsTake env.co false (leaveRows (lo + k) env.co.rows lo)) :
    exec (.wflush x) s = .next (((s.tick.addOp env x (.wflush k)).lockRanges s.nextId false
      (lockPieces true (joinRanges (s.tick.rowPlaces env.co true (leaveRows lo env.co.rows (lo + k)) ++
        s.tick.rowPlaces env.co false (leaveRows (lo + k) env.co.rows lo))))).complete env Enc.wflush x {}) := by
  subst hk0 hk hlo
  change execWflush x s = _
  refine issue_done hr ((if_neg hact).trans ((if_neg (not_lt.mpr hfits)).trans ?_))
  dsimp only
  rw [rowsOk_places hout, rowsOk_places hin]
  rfl

/-- The logical rows stored in the spill area. -/
def State.spillRows (s : State) (c : Course) (l : List Int) : State :=
  l.foldl (fun s L => s.spillOut c L.toNat (s.rowOut c L.toNat).1 (s.rowOut c L.toNat).2) s

/-- The logical rows, as course c finds them, put where course c' has them. -/
def State.fillRows (s : State) (c c' : Course) (l : List Int) : State :=
  (l.map (fun L => (L.toNat, s.rowOut c L.toNat))).foldl (fun s d => s.rowIn c' d.1 d.2.1 d.2.2) s

/-- Whether no older wflush of the course is under way. -/
def State.firstWflush (s : State) (cid op : Nat) : Bool :=
  (s.opsOf cid).all (fun q => decide (op ≤ q.1) || (match q.2.kind with
    | .wflush _ => false
    | _ => true))

theorem firstWflush_oldest {op cid : Nat} (h : ∀ q ∈ s.opsOf cid, q.1 < op → ∀ j, q.2.kind ≠ .wflush j) : s.firstWflush cid op = true := by
  refine List.all_eq_true.mpr fun q hq => ?_
  by_cases hop : op ≤ q.1
  · rw [decide_eq_true hop, Bool.true_or]
  · refine (Bool.or_eq_true _ _).mpr (Or.inr ?_)
    split
    · exact absurd ‹q.2.kind = _› (h q hq (not_le.mp hop) _)
    · rfl

/-- The oldest wflush of its course moves its rows, LO and the span word in one step. -/
theorem wflush_moves {op cid : Nat} {o : Op} {k : Int} (hop : s.ops.find op = some o) (hkind : o.kind = .wflush k) (hcid : o.cid = some cid)
    (hc : s.courses.find cid = some c) (hout : s.rowsTake c true (leaveRows c.lo c.rows (c.lo + k)))
    (hin : s.rowsTake c false (leaveRows (c.lo + k) c.rows c.lo)) (hfirst : ∀ q ∈ s.opsOf cid, q.1 < op → ∀ j, q.2.kind ≠ .wflush j)
    (hland : s.mayLand o = true)
    (hready : s.engineReady op o (s.rowPlaces c false (leaveRows (c.lo + k) c.rows c.lo))
      (s.rowPlaces c true (leaveRows c.lo c.rows (c.lo + k))) = true) :
    exec (.wflushComplete op) s = .next ((((((s.spillRows c (leaveRows c.lo c.rows (c.lo + k))).fillRows c
      { c with lo := (c.lo + k).toNat } (leaveRows (c.lo + k) c.rows c.lo)).modCourse cid
        (fun d => { d with lo := (c.lo + k).toNat })).privTry c 0x102200 8 (c.lo + k).toNat).unlock op).finishOp op) := by
  change execWflushComplete op s = _
  unfold execWflushComplete
  simp only [hop, hkind, hcid, hc, rowsOk_places hout, rowsOk_places hin, hland]
  change (if (!(s.firstWflush cid op && true && s.engineReady op o (s.rowPlaces c false (leaveRows (c.lo + k) c.rows c.lo))
      (s.rowPlaces c true (leaveRows c.lo c.rows (c.lo + k))))) = true then _ else _) = _
  rw [firstWflush_oldest hfirst, hready]
  rfl

/-! ### cut and graft (R118, R119, R124) -/

/-- A cut that no cause stops registers what it copies and waits for the copy. -/
theorem cut_starts (hr : Ready s env Enc.cut x) (hact : env.acting x ≠ 0)
    (hrun : (s.tick.cutRun env.cid env.p env.pa (BitVec.ofNat 6 x.d.num) x.a.ctl env.pa.ovl (env.pa.idx + 1)).isOk = true) :
    ∃ pl, s.tick.cutPlan env.co env.pa x.a.ctl = .ok pl ∧
      exec (.cut x) s = .next (((s.tick.addSilent env (.slice (.cut (BitVec.ofNat 6 x.d.num) x.a.ctl))).lockRanges s.nextId false
        (lockPieces true (s.tick.cutRanges env.co pl))).complete env Enc.cut x { wait := .copy s.nextId env.pa.run }) := by
  obtain ⟨pl, hpl⟩ := cutPlan_of_run (ready_tick hr) hrun
  obtain ⟨t, ht⟩ := isOk_ok hrun
  refine ⟨pl, hpl, ?_⟩
  change execCut x s = _
  refine issue_done hr ((if_neg hact).trans ?_)
  dsimp only
  rw [ht, hpl]
  rfl

/-- The groups of acting lanes that name one slice each (R119). -/
def Env.sliceGroups (env : Env) (s : State) (x : Args) : List (Nat × LaneMask) :=
  groupBy (fun l => s.lane env x .n64 x.a l) (lanesOf (env.acting x))

/-- A graft of which no group has a living lane to enter completes and copies nothing. -/
theorem graft_nothing (hr : Ready s env Enc.graft x) (hact : env.acting x ≠ 0)
    (hrun : s.tick.graftRun env (env.sliceGroups s x) true env.pa.ovl (env.pa.idx + 1) = .ok none) :
    exec (.graft x) s = .next (s.tick.complete env Enc.graft x {}) := by
  change execGraft x s = _
  refine issue_done hr ((if_neg (Bool.eq_false_iff.mp (lanes_ne hact))).trans ?_)
  change (match s.tick.graftRun env (env.sliceGroups s x) true env.pa.ovl (env.pa.idx + 1) with
    | .error t => _ | .ok none => _ | .ok (some _) => _) = _
  rw [hrun]
  rfl

/-- A graft that no cause stops registers what it copies and waits for the copy. -/
theorem graft_starts (hr : Ready s env Enc.graft x) (hact : env.acting x ≠ 0)
    (hrun : s.tick.graftRun env (env.sliceGroups s x) true env.pa.ovl (env.pa.idx + 1) = .ok (some t)) :
    exec (.graft x) s = .next (((s.tick.addSilent env (.slice (.graft ((env.sliceGroups s x).map
      (fun g => (BitVec.ofNat 64 g.1, g.2)))))).lockRanges s.nextId false
        (lockPieces true (s.tick.graftRanges env (env.sliceGroups s x)))).complete env Enc.graft x { wait := .copy s.nextId env.pa.run }) := by
  change execGraft x s = _
  refine issue_done hr ((if_neg (Bool.eq_false_iff.mp (lanes_ne hact))).trans ?_)
  change (match s.tick.graftRun env (env.sliceGroups s x) true env.pa.ovl (env.pa.idx + 1) with
    | .error t => _ | .ok none => _ | .ok (some _) => _) = _
  rw [hrun]
  rfl

end

section
variable {s t : State} {op cid : Nat} {o : Op} {c : Course} {q : Path} {run : Option Run}

/-- A slice copy of a course whose slot is its own commits once it may land and its ranges are free. -/
theorem sliceCopyComplete_commits {plan : SlicePlan} (hop : s.ops.find op = some o) (hcid : o.cid = some cid) (hkind : o.kind = .slice plan)
    (hc : s.courses.find cid = some c) (hown : c.saved = false) (hland : s.mayLand o = true)
    (hready : s.engineReady op o [] (s.ownRanges op) = true) :
    exec (.sliceCopyComplete op) s = .next (s.sliceCommit op cid o plan) := by
  change execSliceCopyComplete op s = _
  unfold execSliceCopyComplete
  simp only [hop, hkind, hcid, hland, hready, Bool.and_self, if_true, inRecord_here hc hown]

/-- A cut lifts its frames and its operation ends. -/
theorem sliceCommit_cut {d : BitVec 6} {m : Nat} (hc : s.courses.find cid = some c) (hq : c.paths.find o.path = some q)
    (hwait : q.wait = .copy op run) (hrun : s.cutRun cid o.path { q with wait := .nothing } d m o.ovl (o.idx + 1) = .ok t) :
    s.sliceCommit op cid o (.cut d m) = (t.unlock op).finishOp op := by
  unfold State.sliceCommit
  simp only [hc, hq, hwait, ne_eq, not_true_eq_false, if_false, hrun]

/-- A graft sets its frames down and its operation ends; a resumption course's slice is dropped then. -/
theorem sliceCommit_graft {l : List (Word × LaneMask)} (hc : s.courses.find cid = some c) (hq : c.paths.find o.path = some q)
    (hwait : q.wait = .copy op run)
    (hrun : s.graftRun { slot := c.slot, cid := cid, p := o.path, co := c, pa := q } (l.map (fun g => (g.1.toNat, g.2))) false o.ovl (o.idx + 1) =
      .ok (some t)) :
    s.sliceCommit op cid o (.graft l) =
      ((t.unlock op).finishOp op).graftDone { slot := c.slot, cid := cid, p := o.path, co := c, pa := q } := by
  unfold State.sliceCommit
  simp only [hc, hq, hwait, ne_eq, not_true_eq_false, if_false, hrun]

end

/-! ### slice.drop (R120, R123) -/

section
variable {s t : State} {env : Env} {x : Args}

/-- A LIVE slice of the path's own context passes the checks of R123. -/
theorem sliceOwned_live {h : Handle} {v : Nat} (hpart : h.part = s.partOf env.co.ctx) (hctx : h.ctx = env.co.ctx)
    (hword : s.sliceWord env.co.core h 1 = .ok v) (hgen : sliceGen v = h.gen) (hlive : sliceState v = Slice.live) :
    s.sliceOwned env h = .ok () := by
  have hthere : ¬ (sliceGen v ≠ h.gen ∨ sliceState v = 0 ∨ sliceState v = Slice.dropping) := by
    rw [hgen, hlive]
    simp [Slice.live, Slice.dropping]
  have hfree : ¬ sliceState v = Slice.attached := by
    rw [hlive]
    decide
  unfold State.sliceOwned
  rw [if_neg (not_not_intro hpart), if_neg (not_not_intro hctx), hword]
  exact (if_neg hthere).trans (if_neg hfree)

/-- slice.drop makes its entry DROPPING and starts the operation that frees it. -/
theorem sliceDrop_starts (hr : Ready s env Enc.sliceDrop x) (hact : env.acting x ≠ 0)
    (howned : s.tick.sliceOwned env (Handle.ofWord (env.co.scalar x.a.num)) = .ok ()) :
    exec (.sliceDrop x) s = .next (((s.tick.putSliceWord env.co.core (Handle.ofWord (env.co.scalar x.a.num)) 1
      (sliceWord1 (Handle.ofWord (env.co.scalar x.a.num)).gen Slice.dropping)).addOp env x
        (.sliceDrop (env.co.scalar x.a.num))).complete env Enc.sliceDrop x {}) := by
  change execSliceDrop x s = _
  refine issue_done hr ((if_neg hact).trans ?_)
  dsimp only
  rw [howned]
  rfl

/-- A dropped slice that no graft still reads is freed where its pages can be read. -/
theorem sliceDropComplete_frees {op cid : Nat} {o : Op} {w : Word} {c : Course} (hop : s.ops.find op = some o) (hkind : o.kind = .sliceDrop w)
    (hcid : o.cid = some cid) (hc : s.courses.find cid = some c) (hread : s.grafting w = false)
    (hfree : s.freeSliceEntry c.core (Handle.ofWord w) = .ok t) : exec (.sliceDropComplete op) s = .next (t.finishOp op) := by
  change execSliceDropComplete op s = _
  unfold execSliceDropComplete
  simp only [hop, hkind, hcid, Option.bind_some, hc, hread, Bool.false_eq_true, if_false, hfree]

end

/-- Settles O25: each instruction whose checks find nothing completes with its body's state, and each completion whose copy may land commits. -/
theorem windowsAndSlices : Obligations.WindowsAndSlices := by
  unfold Obligations.WindowsAndSlices
  refine ⟨fun s env x hr hact => ⟨fun hall => ?_, fun l a b hlanes hread hgood hwrite => ?_⟩,
    fun s env x hr hact hfits hout hin => wflush_starts hr hact rfl rfl rfl hfits hout hin,
    fun s op cid o c k hop hkind hcid hc hout hin hfirst hland hready =>
      wflush_moves hop hkind hcid hc hout hin hfirst hland hready,
    fun s env x hr hact hrun => cut_starts hr hact hrun, fun s env x hr hact => ⟨fun hrun => ?_, graft_nothing hr hact⟩,
    fun s op cid o c q run hop hcid hc hown hq hwait hland hready => ⟨fun d m hkind hrun => ?_, fun l hkind hrun => ?_⟩,
    fun s env x v hr hact hpart hctx hword hgen hlive => sliceDrop_starts hr hact (sliceOwned_live hpart hctx hword hgen hlive),
    fun s op o w cid c hop hkind hcid hc hread hfree => ?_⟩
  · obtain ⟨t, ht⟩ := isOk_ok hall
    exact ⟨t, ht, mark_writes hr hact ht⟩
  · refine mark_writes hr hact ?_
    rw [hlanes]
    exact markLanes_single hread hgood hwrite
  · obtain ⟨t, ht⟩ := join_some hrun
    exact graft_starts hr hact ht
  · obtain ⟨t, ht⟩ := isOk_ok hrun
    exact ⟨t, ht, by rw [sliceCopyComplete_commits hop hcid hkind hc hown hland hready, sliceCommit_cut hc hq hwait ht]⟩
  · obtain ⟨t, ht⟩ := join_some hrun
    exact ⟨t, ht, by rw [sliceCopyComplete_commits hop hcid hkind hc hown hland hready, sliceCommit_graft hc hq hwait ht]⟩
  · obtain ⟨t, ht⟩ := isOk_ok hfree
    exact ⟨t, ht, sliceDropComplete_frees hop hkind hcid hc hread ht⟩

end Sys2Proof.Machine

/-! PROOFS. Signal objects, and slices attached to them: O45. -/

namespace Sys2Proof.Machine

/-! ### Signal instructions (R252) -/

section
variable {s t : State} {env : Env} {x : Args} {a : Acc}

/-- The atomic of sig.dec or sig.set on the word at a, which is a release. -/
def Env.signalJob (env : Env) (x : Args) (a : Acc) (m : MemOp) (v : Word) : MemJob :=
  { m := m, t := .n64, d := x.d, acq := false, rel := true, scope := .pkg, lanes := env.acting x, so := a.kind == .so, array := none,
    todo := [{ a with x := v.toNat }], got := [], whole := [], bad := none }

/-- The read of sig.wait, which is an acquire. -/
def Env.signalRead (env : Env) (x : Args) (a : Acc) : MemJob :=
  { m := .ld, t := .n64, d := .zero, acq := true, rel := false, scope := .pkg, lanes := env.acting x, so := a.kind == .so, array := none,
    todo := [a], got := [], whole := [], bad := none }

/-- Where sig.wait puts the value it waited for. -/
def signalDst (x : Args) : Option (BitVec 6) :=
  match x.d with
  | .reg n => some n
  | _ => none

theorem signalOp_starts {m : MemOp} {v : Word} (hact : env.acting x ≠ 0) (hacc : s.signalAcc env (env.co.scalar x.a.num).toNat true = .ok a) :
    signalOp x m v env s = .ok (s.addOp env x (.mem (env.signalJob x a m v))) := by
  unfold signalOp
  rw [if_neg hact, hacc]
  rfl

theorem signalOp_traps {m : MemOp} {v : Word} {tr : Trap} (hact : env.acting x ≠ 0)
    (hacc : s.signalAcc env (env.co.scalar x.a.num).toNat true = .error tr) : signalOp x m v env s = .trap tr := by
  unfold signalOp
  rw [if_neg hact, hacc]

/-- sig.wait on a good word that nothing earlier holds back reads it, and waits for it unless its comparison holds already. -/
theorem sigWait_reads (hr : Ready s env Enc.sigWait x) (hact : env.acting x ≠ 0)
    (hacc : s.tick.signalAcc env (env.co.scalar x.a.num).toNat false = .ok a)
    (hready : s.tick.accReady s.nextId env.cid (env.signalRead x a) a = true) (hgood : s.poisonedAs a.va a.pa 8 = none) :
    exec (.sigWait x) s = .next (s.tick.complete env Enc.sigWait x
      { wait := .sig a.va a.pa (Mod.number x.m) (BitVec.ofNat 64 (env.val x .i64 x.b)) (signalDst x)
          (if ccHolds (Mod.number x.m) (BitVec.ofNat 64 (s.peekNat a.pa 8)) (BitVec.ofNat 64 (env.val x .i64 x.b))
            then some (some (BitVec.ofNat 64 (s.peekNat a.pa 8))) else none) }) := by
  change s.tick.accReady s.tick.nextId env.cid (env.signalRead x a) a = true at hready
  change s.tick.poisonedAs a.va a.pa 8 = none at hgood
  unfold Env.signalRead at hready
  change execSigWait x s = _
  refine issue_done hr ((if_neg hact).trans ?_)
  simp only [hacc, hready, hgood, Bool.not_true, Bool.false_eq_true, if_false]
  rfl

/-- sig.wait on a poisoned word completes, and its trap stands for the path's next run. -/
theorem sigWait_poisoned {u : Nat} (hr : Ready s env Enc.sigWait x) (hact : env.acting x ≠ 0)
    (hacc : s.tick.signalAcc env (env.co.scalar x.a.num).toNat false = .ok a)
    (hready : s.tick.accReady s.nextId env.cid (env.signalRead x a) a = true) (hbad : s.poisonedAs a.va a.pa 8 = some u) :
    exec (.sigWait x) s = .next ((s.tick.setPath env.cid env.p (env.pa.addLate
      { trap := Trap.poison 0xFF u, ovl := env.pa.ovl, idx := env.pa.idx, place := s.nextId })).complete env Enc.sigWait x {}) := by
  change s.tick.accReady s.tick.nextId env.cid (env.signalRead x a) a = true at hready
  change s.tick.poisonedAs a.va a.pa 8 = some u at hbad
  unfold Env.signalRead at hready
  change execSigWait x s = _
  refine issue_done hr ((if_neg hact).trans ?_)
  simp only [hacc, hready, hbad, Bool.not_true, Bool.false_eq_true, if_false]
  rfl

/-! ### slice.att (R121, R123) -/

/-- slice.att on a slice that its context owns and that is LIVE attaches it, and its node is to be appended to a queue of the context. -/
theorem sliceAtt_attaches {d q : Nat} {w sig : Word} (hr : Ready s env Enc.sliceAtt x) (hact : env.acting x ≠ 0)
    (hd : d = (env.co.scalar x.d.num).toNat) (hq : q = bits d 0 5) (hw : w = env.co.scalar x.a.num) (hsig : sig = env.co.scalar x.b.num)
    (howns : s.tick.ownsQueue env.co.ctx q = true) (hmbz : nbit d 5 = false) (howned : s.tick.sliceOwned env (Handle.ofWord w) = .ok ()) :
    exec (.sliceAtt x) s = .next (((((s.tick.putSliceWord env.co.core (Handle.ofWord w) 2 sig.toNat).putSliceWord env.co.core (Handle.ofWord w) 3
      q).putSliceWord env.co.core (Handle.ofWord w) 1 (sliceWord1 (Handle.ofWord w).gen Slice.attached)).addOp env x
        (.append q 7 [w, sig, BitVec.ofNat 64 (d / 64 * 64)])).complete env Enc.sliceAtt x {}) := by
  subst hq hd hw hsig
  change execSliceAtt x s = _
  refine issue_done hr ((if_neg hact).trans ?_)
  simp only [howns, hmbz, howned, Bool.not_true, Bool.false_eq_true, if_false]
  rfl

end

/-! ### A write to a watched word (R252) -/

/-- What a wait on a signal has found once its word was written: nothing yet, the value that its comparison holds for, or an error. -/
def State.signalFound (s : State) (pa cc : Nat) (v : Word) : Option (Option Word) :=
  if (s.poisoned pa 8).isSome then some none
  else if ccHolds cc (BitVec.ofNat 64 (s.peekNat pa 8)) v then some (some (BitVec.ofNat 64 (s.peekNat pa 8))) else none

/-- A wait that has found nothing looks at its word again. -/
theorem sig_touched (s : State) (va pa cc : Nat) (v : Word) (d : Option (BitVec 6)) :
    (Wait.sig va pa cc v d none).touched s.goodWord pa 1 = .sig va pa cc v d (s.signalFound pa cc v) := by
  have hhits : (decide (pa < pa + 1) && decide (pa < pa + 8)) = true := by simp
  unfold Wait.touched State.signalFound
  simp only [hhits, Bool.true_and]
  unfold State.goodWord
  by_cases hbad : (s.poisoned pa 8).isSome = true
  · simp only [if_pos hbad, if_true]
  · simp only [if_neg hbad]
    split <;> rfl

/-- A path after the word at pa was written: what it waits for, where it waits for a signal. -/
def State.pathSeen (s : State) (pa : Nat) (q : Path) : Path :=
  match q.wait with
  | .sig _ _ _ _ _ _ => { q with wait := q.wait.touched s.goodWord pa 1 }
  | _ => q

/-- A course after the word at pa was written. -/
def State.courseSeen (s : State) (pa : Nat) (c : Course) : Course :=
  { c with paths := c.paths.map (fun e => (e.1, s.pathSeen pa e.2)) }

theorem pathSeen_sig {s : State} {pa va cc : Nat} {q : Path} {v : Word} {d : Option (BitVec 6)} (hwait : q.wait = .sig va pa cc v d none) :
    s.pathSeen pa q = { q with wait := .sig va pa cc v d (s.signalFound pa cc v) } := by
  unfold State.pathSeen
  simp only [hwait, sig_touched]

/-- With no node to watch, a write to a word only shows it to the paths that wait for it. -/
theorem signalWriteReeval_shows {s : State} {pa : Nat} (hnodes : s.nodes = []) :
    exec (.signalWriteReeval pa) s = .next { s with courses := s.courses.map (fun e => (e.1, s.courseSeen pa e.2)) } := by
  change execSignalWriteReeval pa s = _
  unfold execSignalWriteReeval
  simp only [hnodes, List.map_nil, List.filter_nil, List.foldl_nil]
  cases s
  cases hnodes
  rfl

/-- A path that waits for the word finds what its comparison gives. -/
theorem courseSeen_path {s : State} {pa va cid p cc : Nat} {c : Course} {q : Path} {v : Word} {d : Option (BitVec 6)}
    (hc : s.courses.find cid = some c) (hq : c.paths.find p = some q) (hwait : q.wait = .sig va pa cc v d none) :
    State.path { s with courses := s.courses.map (fun e => (e.1, s.courseSeen pa e.2)) } cid p =
      some { q with wait := .sig va pa cc v d (s.signalFound pa cc v) } := by
  have hcourse := find_map s.courses (s.courseSeen pa) cid
  have hpath := find_map c.paths (s.pathSeen pa) p
  rw [hc, Option.map_some] at hcourse
  rw [hq, Option.map_some, pathSeen_sig hwait] at hpath
  exact (path_of_course hcourse).trans hpath

/-- Settles O45: the signal instructions complete with their bodies' states where their access passes its checks, and a write to a word is
seen by the paths whose wait names it. -/
theorem signalInstructions : Obligations.SignalInstructions := by
  unfold Obligations.SignalInstructions
  refine ⟨fun s env x hact => ⟨fun hr hacc => ?_, fun hr hacc => ?_, fun hr hacc => ?_, fun tr hr hacc => issue_trap hr (signalOp_traps hact hacc)⟩,
    fun s env x hr hact howns hmbz howned => sliceAtt_attaches hr hact rfl rfl rfl rfl howns hmbz howned,
    fun s pa va cid p cc c q v d hnodes hc hq hwait => ⟨_, signalWriteReeval_shows hnodes, rfl, courseSeen_path hc hq hwait⟩⟩
  · obtain ⟨a, ha⟩ := isOk_ok hacc
    exact ⟨a, ha, issue_done hr (signalOp_starts hact ha)⟩
  · obtain ⟨a, ha⟩ := isOk_ok hacc
    exact ⟨a, ha, issue_done hr (signalOp_starts hact ha)⟩
  · obtain ⟨a, ha⟩ := isOk_ok hacc
    exact ⟨a, ha, sigWait_reads hr hact ha, fun u => sigWait_poisoned hr hact ha⟩

end Sys2Proof.Machine

/-! PROOFS. Loads, stores, atomics and scratch moves (R125 to R140): O26, O27 and O29. -/

namespace Sys2Proof.Machine

/-! ### Starting a memory operation (R130 to R132) -/

/-- Settles O26: each of the instructions issues `memOp`, whose outcomes `mem_start` gives. -/
theorem memoryInstructionsStart : Obligations.MemoryInstructionsStart := by
  unfold Obligations.MemoryInstructionsStart
  simp only [List.forall_mem_cons]
  refine ⟨?_, ?_, ?_, ?_, ?_, ?_, ?_, ?_, ?_, ?_, ?_, List.forall_mem_nil _⟩ <;> exact mem_start fun _ _ => rfl

/-! ### Performing one access (R133 to R135) -/

section
variable {s : State} {j : MemJob} {a : Acc}

theorem pokeNat_mem (s : State) (pa n v : Nat) : (s.pokeNat pa n v).mem = s.store pa (toLe n v) := rfl

/-- A store marks nothing: where no byte was poisoned, none is. -/
theorem pokeNat_poison_nil (h : s.poison = []) (pa n v : Nat) : (s.pokeNat pa n v).poison = [] := by
  change clearPoison s.poison _ _ = []
  rw [h]
  rfl

/-- The operation once the access of one lane is done. -/
def MemJob.without (j : MemJob) (a : Acc) : MemJob := { j with todo := j.todo.filter (fun b => b.lane ≠ a.lane) }

/-- A store to good memory writes its operand; there is no mark to clear. -/
theorem performAcc_st (hm : j.m = .st) (hp : s.poison = []) : performAcc j s a = (s.pokeNat a.pa a.n a.x, j.without a) := by
  refine (if_pos hm).trans ?_
  simp only [pokeNat_poison_nil hp, List.isEmpty_nil, Bool.true_or, if_true]
  rfl

/-- An access that is no store reads its whole element, and one that is no load either writes the new value of its entry. -/
theorem performAcc_reads (hm : j.m ≠ .st) (hp : s.poison = []) (hn : j.t.bits / 8 ≤ a.n) :
    performAcc j s a =
      (if j.m = .ld then s else s.pokeNat a.pa a.n (j.m.newValue j.t (s.peekNat a.pa a.n) a.x a.y),
        { j.without a with got := j.got ++ [(a.lane, s.peekNat a.pa a.n)] }) := by
  have hwhole : decide (a.n < j.t.bits / 8) = false := decide_eq_false (Nat.not_lt.mpr hn)
  unfold performAcc
  simp only [if_neg hm, poisonedAs_nil s hp, hwhole, Bool.false_eq_true, if_false, Nat.add_zero]
  rfl

/-- The OPR codes 3 to 5 of a reduction are the bitwise operations, whatever the element type (R96). -/
theorem redStep_bitwise (t : Ty) (old x : Nat) :
    redStep t 3 old x = old &&& x ∧ redStep t 4 old x = old ||| x ∧ redStep t 5 old x = old ^^^ x := by
  unfold redStep
  cases t.fmt? <;> exact ⟨rfl, rfl, rfl⟩

end

/-- Settles O27: a store by `performAcc_st`, any other access by `performAcc_reads`; an atomic leaves the `newValue` of its entry. -/
theorem accessesReturnAndLeave : Obligations.AccessesReturnAndLeave := by
  unfold Obligations.AccessesReturnAndLeave
  intro s j a hp hn old
  refine ⟨fun hst => ?_, fun hld => ?_, fun hst hld => ?_⟩
  · rw [performAcc_st hst hp, pokeNat_mem]
  · have hst : j.m ≠ .st := by rw [hld]; decide
    rw [performAcc_reads hst hp hn, if_pos hld]
    exact ⟨rfl, rfl⟩
  · rw [performAcc_reads hst hp hn, if_neg hld]
    refine ⟨rfl, ?_⟩
    obtain ⟨hand, hor, hxor⟩ := redStep_bitwise j.t old a.x
    rw [pokeNat_mem]
    refine congrArg (fun v => s.store a.pa (toLe a.n v)) ?_
    cases hm : j.m with
    | st => exact absurd hm hst
    | ld => exact absurd hm hld
    | and => exact hand
    | or => exact hor
    | xor => exact hxor
    | _ => rfl

/-! ### Scratch moves (R138 to R140) -/

section
variable {s : State} {env : Env} {x : Args} {dst src : Nat}

/-- The n lines from a destination on, by physical number. -/
def linesFrom (dst n : Nat) : List Nat := (List.range n).map (fun i => dst / 256 + i)

/-- tzero of lines that its window has clears P on them and starts zeroing them. -/
theorem moveOp_zeroes (hact : env.acting x ≠ 0) (hlo : 1 ≤ env.val x .n32 x.b) (hhi : env.val x .n32 x.b ≤ 4096)
    (hd : bits (env.co.scalar x.d.num).toNat 0 8 = 0)
    (hdst : s.scratchLines env.co.ctx (env.co.scalar x.d.num) (env.val x .n32 x.b) = .ok dst) :
    moveOp x true env s = .ok ((s.clearLines (linesFrom dst (env.val x .n32 x.b))).addOp env x
      (.tmv true ((linesFrom dst (env.val x .n32 x.b)).zipIdx.map (fun e => { i := e.2, src := 0, dst := e.1, wait := .free })))) := by
  have hcount : ¬ (env.val x .n32 x.b = 0 ∨ 4096 < env.val x .n32 x.b) := by omega
  unfold moveOp
  simp only [if_neg hact, if_neg hcount, hd, hdst]
  rfl

/-- tmv between lines that their windows have clears P on the destination, starts moving, and locks the source against writes. -/
theorem moveOp_moves (hact : env.acting x ≠ 0) (hlo : 1 ≤ env.val x .n32 x.b) (hhi : env.val x .n32 x.b ≤ 4096)
    (hd : bits (env.co.scalar x.d.num).toNat 0 8 = 0) (ha : bits (env.co.scalar x.a.num).toNat 0 8 = 0)
    (hdst : s.scratchLines env.co.ctx (env.co.scalar x.d.num) (env.val x .n32 x.b) = .ok dst)
    (hsrc : s.scratchLines env.co.ctx (env.co.scalar x.a.num) (env.val x .n32 x.b) = .ok src) :
    moveOp x false env s = .ok (((s.clearLines (linesFrom dst (env.val x .n32 x.b))).addOp env x
      (.tmv false (moveLines s src dst (env.val x .n32 x.b)))).lockRanges s.nextId false
        (lockPieces false [(src, env.val x .n32 x.b * 256)])) := by
  have hcount : ¬ (env.val x .n32 x.b = 0 ∨ 4096 < env.val x .n32 x.b) := by omega
  unfold moveOp
  simp only [if_neg hact, if_neg hcount, hd, ha, hdst, hsrc]
  rfl

end

section
variable {s : State} {op i : Nat} {o : Op} {zero : Bool} {todo : List MoveLine} {e : MoveLine}

/-- What arrives at a line of a move: zeros, or its source as it stands. -/
def State.moveData (s : State) (zero : Bool) (e : MoveLine) : List Byte :=
  if zero then List.replicate 256 0 else s.peek (e.src * 256) 256

/-- The machine once line e has arrived, with the lines that the move still has to bring. -/
def State.lineArrived (s : State) (op : Nat) (zero : Bool) (e : MoveLine) (rest : List MoveLine) : State :=
  ((s.pokeFrom (e.dst * 256) (s.moveData zero e) (!zero && (s.poisoned (e.src * 256) 256).isSome)).arriveLines op [e.dst]).setOp op
    (.tmv zero rest)

/-- A line that may move arrives, and the last one ends the move. -/
theorem tmvLineArrival_ready (ho : s.ops.find op = some o) (hk : o.kind = .tmv zero todo)
    (he : todo.find? (fun e => e.i = i) = some e) (hready : s.lineReady op o zero todo e = true) :
    exec (.tmvLineArrival op i) s = .next
      (if (todo.filter (fun f => f.i ≠ i)).isEmpty
        then ((s.lineArrived op zero e (todo.filter (fun f => f.i ≠ i))).unlock op).finishOp op
        else s.lineArrived op zero e (todo.filter (fun f => f.i ≠ i))) := by
  change execTmvLineArrival op i s = _
  unfold execTmvLineArrival
  simp only [ho, hk, he, hready, Bool.not_true, Bool.false_eq_true, if_false]
  split <;> rfl

end

/-- Settles O29: the bodies of tzero and tmv where their checks pass, and the arrival of a line that may move. -/
theorem scratchMoves : Obligations.ScratchMoves := by
  unfold Obligations.ScratchMoves
  refine ⟨fun s env x dst hr hact => ?_, fun s env x src dst hr hact => ?_, fun s op i o zero todo e ho hk he hready => ?_⟩
  · intro n lines hlo hhi hd hdst
    exact issue_done hr (moveOp_zeroes hact hlo hhi hd hdst)
  · intro n lines hlo hhi hd ha hdst hsrc
    exact issue_done hr (moveOp_moves hact hlo hhi hd ha hdst hsrc)
  · exact tmvLineArrival_ready ho hk he hready

end Sys2Proof.Machine

/-! PROOFS. Page walks with their generations, invalidation, and the retirement of DRAM frames (R144, R146 to R148, R150, R151, R310): O30. -/

namespace Sys2Proof.Machine

/-! ### Walks (R144, R148) -/

theorem State.s1gen_eq {s : State} {ctx : Nat} {c : Context} (h : s.ctxs.find ctx = some c) : s.s1gen ctx = c.s1gen := by
  unfold State.s1gen
  rw [h]

/-- What a walk reads carries its core, its context and the generations that it recorded. -/
theorem walkOf_items {s : State} {core ctx va : Nat} {warm : Bool} {i : TlbItem} (hi : i ∈ (s.walkOf core ctx va warm).items) :
    i.core = core ∧ i.ctx = ctx ∧ i.s1gen = s.s1gen ctx ∧ i.s2gen = s.s2gen (s.partOf ctx) := by
  obtain ⟨seen, -, rfl⟩ := List.mem_map.mp hi
  exact ⟨rfl, rfl, rfl, rfl⟩

theorem walkStart_begins {s : State} {core ctx va : Nat} {warm : Bool} {c : Context} (hup : s.up = true) (hcore : core < 96)
    (hva : va < 2 ^ 60) (hc : s.ctxs.find ctx = some c) :
    exec (.walkStart core ctx ⟨va, warm⟩) s = .next { s with walks := s.walks ++ [s.walkOf core ctx va warm] } := by
  have hcores : ¬ Config.cores ≤ core := Nat.not_le.mpr hcore
  change execWalkStart core ctx ⟨va, warm⟩ s = _
  unfold execWalkStart
  rw [hc, hup, decide_eq_false hcores, decide_eq_false (Nat.not_le.mpr hva)]
  rfl

section
variable {s : State} {core i : Nat} {w : Walk} {rest : List Walk} {c : Context}

/-- The cache once a walk's items are installed: each stands in for what it held of the same thing. -/
def State.withItems (s : State) (items : List TlbItem) : List TlbItem := s.tlb.filter (fun a => !items.any a.same) ++ items

theorem mem_withItems {items : List TlbItem} {j : TlbItem} :
    j ∈ s.withItems items ↔ (j ∈ s.tlb ∧ ∀ k ∈ items, j.same k = false) ∨ j ∈ items := by
  simp [State.withItems]

theorem walkComplete_installs (hw : takeWalk core i s.walks = some (w, rest)) (hc : s.ctxs.find w.ctx = some c)
    (h1 : w.s1gen = c.s1gen) (h2 : w.s2gen = s.s2gen c.part) :
    exec (.walkComplete core i) s = .next { s with walks := rest, tlb := s.withItems w.items } := by
  have hcurrent : ¬ (c.s1gen ≠ w.s1gen ∨ ({ s with walks := rest } : State).s2gen c.part ≠ w.s2gen) :=
    fun h => h.elim (fun h => h h1.symm) (fun h => h h2.symm)
  change execWalkComplete core i s = _
  unfold execWalkComplete
  simp only [hw, hc, if_neg hcurrent]
  rfl

theorem walkComplete_restarts (hw : takeWalk core i s.walks = some (w, rest)) (hc : s.ctxs.find w.ctx = some c)
    (h : w.s1gen ≠ c.s1gen ∨ w.s2gen ≠ s.s2gen c.part) :
    exec (.walkComplete core i) s = .next { s with walks := rest ++ [s.walkOf w.core w.ctx w.va w.warm] } := by
  have hold : c.s1gen ≠ w.s1gen ∨ ({ s with walks := rest } : State).s2gen c.part ≠ w.s2gen := h.imp Ne.symm Ne.symm
  change execWalkComplete core i s = _
  unfold execWalkComplete
  simp only [hw, hc, if_pos hold]
  rfl

end

/-! ### Invalidation (R146, R147) -/

section
variable {s : State} {part : Nat} {hit : Nat → Bool} {words : List (Option Nat)} {run : State → CmdEnd}

/-- A command that runs as a stage-1 invalidation of a context of its partition stays pending, and the generation has moved on. -/
theorem command_invalidates1 {page ctx : Nat} {c : Context} (ha : s.accepts page 0x1000 false part) (hc : s.ctxs.find ctx = some c)
    (hpart : c.part = part) (hrun : run (s.submitted page 0x1000 words) = (s.submitted page 0x1000 words).invalidate1 page part ctx hit) :
    s.command page 0x1000 false part words run = { s.submitted page 0x1000 words with
      ctxs := s.ctxs.put ctx { c with s1gen := c.s1gen + 1 },
      tlb := s.tlb.filter (fun i => !(i.ctx == ctx && !i.what.stage2 && (!i.what.page || hit i.what.at_))),
      invals := s.invals ++ [{ page := page, part := part, ctx := some ctx, before := s.nextId }] } := by
  rw [command_conclude ha, hrun, State.invalidate1]
  simp only [State.submitted_ctxs, hc]
  rw [if_neg (fun h => h hpart)]
  rfl

/-- A command that runs as a stage-2 invalidation of a partition stays pending, and the generation has moved on. -/
theorem command_invalidates2 {p : Partition} (ha : s.accepts 0 0x1000 true part) (hp : s.parts.find part = some p)
    (hrun : run (s.submitted 0 0x1000 words) = (s.submitted 0 0x1000 words).invalidate2 0 part hit) :
    s.command 0 0x1000 true part words run = { s.submitted 0 0x1000 words with
      parts := s.parts.put part { p with s2gen := p.s2gen + 1 },
      tlb := s.tlb.filter (fun i => !(s.partOf i.ctx == part && (!i.what.stage2 || !i.what.page || hit i.what.at_))),
      invals := s.invals ++ [{ page := 0, part := part, ctx := Option.none, before := s.nextId }] } := by
  rw [command_conclude ha, hrun, State.invalidate2]
  simp only [State.submitted_parts, hp]
  rfl

/-- A refused command has STATUS 2 (log entry 18). -/
theorem command_refuses {page off : Nat} {hyper : Bool} (ha : s.accepts page off hyper part)
    (hrun : run (s.submitted page off words) = .refused) :
    s.command page off hyper part words run = (s.submitted page off words).endCmd page off 2 := by
  rw [command_conclude ha, hrun, State.conclude_refused]

theorem command_completes {page off : Nat} {hyper : Bool} {t : State} (ha : s.accepts page off hyper part)
    (hrun : run (s.submitted page off words) = .done t) : s.command page off hyper part words run = t.endCmd page off 1 := by
  rw [command_conclude ha, hrun, State.conclude_done]

end

section
variable {s : State} {page : Nat} {v : Inval}

theorem invalidationAck_waits (hv : s.invals.find? (fun v => v.page = page) = some v)
    (h : s.holdsOld v = true ∨ s.oldWalk v = true) : exec (.invalidationAck page) s = .next s := by
  change execInvalidationAck page s = _
  unfold execInvalidationAck
  simp only [hv]
  rw [if_pos (Bool.or_eq_true_iff.mpr h)]

theorem invalidationAck_done (hv : s.invals.find? (fun v => v.page = page) = some v)
    (hops : s.holdsOld v = false) (hwalks : s.oldWalk v = false) :
    exec (.invalidationAck page) s =
      .next (((State.retranslate { s with invals := s.invals.filter (fun w => w.page ≠ page) } v).flushNotices v.part).endCmd
        page 0x1000 1) := by
  change execInvalidationAck page s = _
  unfold execInvalidationAck
  simp only [hv, hops, hwalks, Bool.or_self, Bool.false_eq_true, if_false]

end

/-! ### What retires a DRAM frame (R150, R151, R310) -/

section
variable {s : State} {frame : Nat}

/-- The machine once a frame has reported n corrected errors since reset (R310). -/
def State.withCount (s : State) (frame n : Nat) : State := { s with pkg := { s.pkg with corrected := s.pkg.corrected.put frame n } }

theorem correctedError_counts (hup : s.up = true) (hf : frame < 2 ^ 23) :
    exec (.correctedError frame) s = .next
      (if s.pkg.corrected.getD frame 0 + 1 = 8 then (s.withCount frame (s.pkg.corrected.getD frame 0 + 1)).retireFor frame 2
       else s.withCount frame (s.pkg.corrected.getD frame 0 + 1)) := by
  have hopen : (!s.up || decide (2 ^ 23 ≤ frame)) = false := by
    rw [hup, decide_eq_false (Nat.not_le.mpr hf)]
    rfl
  change execCorrectedError frame s = _
  unfold execCorrectedError
  rw [hopen]
  rfl

/-- The poison marks once the 64-byte unit from u on is uncorrectable (R310). -/
def State.withMark (s : State) (u : Nat) : List Nat := if s.poison.contains u then s.poison else u :: s.poison

theorem mem_withMark (s : State) (u : Nat) : u ∈ s.withMark u := by
  unfold State.withMark
  split
  · exact List.contains_iff_mem.mp ‹_›
  · exact List.mem_cons_self

/-- A trigger that the machine takes: the count of corrected errors is one only from the eighth on. -/
theorem frameRetireTrigger_taken {reason : Nat} (block : Nat) (hup : s.up = true) (hf : frame < 2 ^ 23)
    (h : reason = 2 → 8 ≤ s.pkg.corrected.getD frame 0) :
    exec (.frameRetireTrigger frame reason block) s = .next
      (if reason = 3 then s.retireChannel (frame / 65536)
       else State.retireFor (if reason = 1 then { s with poison := s.withMark (frame * 65536 + block % 65536 / 64 * 64) } else s)
        frame reason) := by
  have hcount : (reason == 2 && decide (s.pkg.corrected.getD frame 0 < 8)) = false := by simpa using h
  have hopen : (!s.up || decide (2 ^ 23 ≤ frame) || (reason == 2 && decide (s.pkg.corrected.getD frame 0 < 8))) = false := by
    rw [hup, decide_eq_false (Nat.not_le.mpr hf), hcount]
    rfl
  change execFrameRetireTrigger frame reason block s = _
  unfold execFrameRetireTrigger
  simp only [hopen, Bool.false_eq_true, if_false]
  by_cases h3 : reason = 3
  · simp [h3]
  · simp only [if_neg h3]
    rfl

theorem frameRetireTrigger_channel (block : Nat) (hup : s.up = true) (hf : frame < 2 ^ 23) :
    exec (.frameRetireTrigger frame 3 block) s = .next (s.retireChannel (frame / 65536)) := by
  rw [frameRetireTrigger_taken (reason := 3) block hup hf nofun, if_pos rfl]

theorem frameRetireTrigger_uncorrectable (block : Nat) (hup : s.up = true) (hf : frame < 2 ^ 23) :
    exec (.frameRetireTrigger frame 1 block) s = .next
      (State.retireFor { s with poison := s.withMark (frame * 65536 + block % 65536 / 64 * 64) } frame 1) := by
  rw [frameRetireTrigger_taken (reason := 1) block hup hf nofun, if_neg (by decide), if_pos rfl]

theorem frameRetireTrigger_count (block : Nat) (hup : s.up = true) (hf : frame < 2 ^ 23)
    (hcount : 8 ≤ s.pkg.corrected.getD frame 0) : exec (.frameRetireTrigger frame 2 block) s = .next (s.retireFor frame 2) := by
  rw [frameRetireTrigger_taken block hup hf (fun _ => hcount), if_neg (by decide), if_neg (by decide)]

theorem frameRetireTrigger_tooFew (block : Nat) (hfew : s.pkg.corrected.getD frame 0 < 8) :
    exec (.frameRetireTrigger frame 2 block) s = .next s := by
  change execFrameRetireTrigger frame 2 block s = _
  unfold execFrameRetireTrigger
  rw [if_pos]
  simp [hfew]

/-- A frame in service is listed and waits for a spare. -/
theorem retireFor_lists {reason : Nat} (hnew : s.pkg.frames.find frame = none) (hroom : s.pkg.badFrames.length < 16384)
    (hspares : s.pkg.spares = []) :
    s.retireFor frame reason = { s with pkg := { s.pkg with
      frames := s.pkg.frames.put frame .pending,
      badFrames := s.pkg.badFrames ++ [{ frame := frame, reason := reason, stamp := s.time.ns }] } } := by
  unfold State.retireFor State.listBad State.retireFrame
  rw [hnew, if_neg (by simp), if_neg (Nat.not_le.mpr hroom), if_neg (Nat.not_le.mpr hroom)]
  simp only [hnew]
  exact takeSpares_none _ hspares

end

/-! ### Migration to a spare (R150) -/

/-- A copy between DRAM frames leaves the source's bytes in the destination, and every other byte. -/
theorem copyDram_copies {s : State} (hs : s.memOk) (src dst n : Nat) :
    (∀ i, i < n → memByte (s.copyDram src dst n).mem (dst + i) = memByte s.mem (src + i)) ∧
      ∀ a, a < dst ∨ dst + n ≤ a → memByte (s.copyDram src dst n).mem a = memByte s.mem a := by
  have hmem : (s.copyDram src dst n).mem = memWrite s.mem dst ((List.range n).map (fun i => memByte s.mem (src + i))) := by
    rw [← memSpan_eq s.mem hs src n]
    rfl
  have hlen : ((List.range n).map (fun i => memByte s.mem (src + i))).length = n := by simp
  rw [hmem]
  refine ⟨fun i hi => ?_, fun a ha => memByte_write_other _ _ _ _ (hlen.symm ▸ ha)⟩
  rw [memByte_write _ _ _ _ (hlen.symm ▸ hi), List.getElem_map, List.getElem_range]

/-- The machine once line k of a frame stands in its spare. -/
def State.lineMigrated (s : State) (frame spare k : Nat) : State :=
  { s.copyDram (frame * 65536 + 256 * k) (s.dramOf spare * 65536 + 256 * k) 256 with
    pkg := { s.pkg with frames := s.pkg.frames.put frame (.migrating spare (k + 1)) } }

/-- The machine once a spare has taken a frame over, and the lock operation has ended (log entry 111). -/
def State.takenOver (s : State) (frame spare op : Nat) : State :=
  let t := ((s.copyDram (frame * 65536) (s.dramOf spare * 65536) 65536).switchFrame frame spare).unlock op
  { t with ops := t.ops.del op }

theorem takenOver_lets_go (s : State) (frame spare op : Nat) :
    (s.takenOver frame spare op).ops.find op = none ∧ ∀ e ∈ (s.takenOver frame spare op).locks, e.2.op ≠ op := by
  refine ⟨(Tab.find_del ..).trans (if_pos rfl), fun e he => ?_⟩
  simpa using (List.mem_filter.mp he).2

/-- A migration whose lock is registered and whose next line is free moves on: by that line, or with the last one by the frame. -/
theorem migrationLineCopy_moves {s : State} {frame spare k op : Nat} {o : Op} (hup : s.up = true)
    (hf : s.pkg.frames.find frame = some (.migrating spare k)) (hop : s.migrationOp frame = some (op, o)) (hpend : o.pend = [])
    (hfree : s.rangeFree op false (s.hpaOf frame * 65536 + 256 * k, 256) = true) :
    exec (.migrationLineCopy frame) s = .next
      (if k < 255 then s.lineMigrated frame spare k
       else (s.takenOver frame spare op).notifyAll { stamp := s.time.ns, ctx := 0xFFFF, src := 0xC000, cls := 0, sub := 0 }) := by
  change execMigrationLineCopy frame s = _
  unfold execMigrationLineCopy
  simp only [hf, hop, hpend, hfree, hup, List.isEmpty_nil, Bool.not_true, Bool.or_self, Bool.false_eq_true, if_false]
  split <;> rfl

/-- Settles O30: walks, commands, acknowledgements, triggers and migrations are the lemmas above; a scrub changes nothing that programs
see (R310, log entry 78). -/
theorem walksAndFrames : Obligations.WalksAndFrames := by
  unfold Obligations.WalksAndFrames
  refine ⟨⟨?_, ?_, ?_, ?_, ?_⟩, ?_, ?_, ?_, ?_, ?_⟩
  · intro s core ctx va warm c hup hcore hva hc
    have hgen : s.s2gen (s.partOf ctx) = s.s2gen c.part := by rw [State.partOf_eq hc]
    refine ⟨_, walkStart_begins hup hcore hva hc, rfl, rfl, rfl, rfl, State.s1gen_eq hc, hgen, fun i hi => ?_⟩
    rw [← State.s1gen_eq hc, ← hgen]
    exact walkOf_items hi
  · intro s core i w rest c hw hc
    refine ⟨fun h1 h2 => ⟨_, walkComplete_installs hw hc h1 h2, rfl, fun j hj => mem_withItems.mpr (.inr hj), fun j hj => ?_⟩,
      walkComplete_restarts hw hc⟩
    exact (mem_withItems.mp hj).symm
  · intro s page part ctx base count seq c ha hc hpart sub after
    refine ⟨fun hbase hcount => ?_, fun hbad => ?_, ?_⟩
    · refine congrArg Host.Outcome.next (command_invalidates1 (hit := pageIn base count) ha hc hpart ?_)
      exact if_pos ((rangeOk_iff base count).mpr ⟨hbase, hcount⟩)
    · exact congrArg Host.Outcome.next (command_refuses ha (by rw [rangeOk_false base count hbad]; rfl))
    · exact congrArg Host.Outcome.next (command_invalidates1 (hit := fun _ => true) ha hc hpart rfl)
  · intro s part base count seq p ha hp after
    refine ⟨fun hbase hcount => ?_, ?_⟩
    · refine congrArg Host.Outcome.next (command_invalidates2 (hit := pageIn base count) ha hp ?_)
      exact if_pos ((rangeOk_iff base count).mpr ⟨hbase, hcount⟩)
    · exact congrArg Host.Outcome.next (command_invalidates2 (hit := fun _ => true) ha hp rfl)
  · exact fun s page v hv => ⟨invalidationAck_waits hv, invalidationAck_done hv⟩
  · intro s frame hup hf n t
    have hcounts := correctedError_counts hup hf
    exact ⟨fun hn => hcounts.trans (congrArg _ (if_neg hn)), fun hn => hcounts.trans (congrArg _ (if_pos hn)), rfl⟩
  · intro s frame block hup hf
    exact ⟨frameRetireTrigger_channel block hup hf, ⟨_, frameRetireTrigger_uncorrectable block hup hf, rfl, mem_withMark s _⟩,
      frameRetireTrigger_tooFew block, frameRetireTrigger_count block hup hf⟩
  · exact fun s frame reason hnew hroom hspares => retireFor_lists hnew hroom hspares
  · intro s base count seq ha sub
    refine ⟨fun hbase hcount hlast => ?_, fun hbad => ?_⟩
    · refine congrArg Host.Outcome.next (command_completes ha (if_pos ?_))
      rw [(rangeOk_iff base count).mpr ⟨hbase, hcount⟩, decide_eq_true hlast]
      rfl
    · exact congrArg Host.Outcome.next (command_refuses ha (by rw [rangeOk_false base count hbad]; rfl))
  · intro s frame spare k op o hup hf hop hpend hfree hs src dst
    have hmoves := migrationLineCopy_moves hup hf hop hpend hfree
    refine ⟨fun hk => ?_, fun hk => ?_⟩
    · obtain ⟨hline, hother⟩ := copyDram_copies hs (src + 256 * k) (dst + 256 * k) 256
      exact ⟨s.lineMigrated frame spare k, hmoves.trans (congrArg _ (if_pos hk)), hline, hother, rfl⟩
    · obtain ⟨hframe, hother⟩ := copyDram_copies hs src dst 65536
      exact ⟨s.takenOver frame spare op, hmoves.trans (congrArg _ (if_neg (Nat.not_lt.mpr hk))), hframe, hother, rfl,
        takenOver_lets_go s frame spare op⟩

end Sys2Proof.Machine

/-! PROOFS. What an edit makes of an array's sequence: O34. -/

namespace Sys2Proof.Machine

/-! ### Elements and mortises of a sequence (R166) -/

theorem morts_append (a b : List EItem) : itemMorts (a ++ b) = itemMorts a ++ itemMorts b := List.filter_append ..

theorem morts_morts (l : List EItem) : itemMorts (l.filter (·.isMort)) = itemMorts l := by
  unfold itemMorts
  rw [List.filter_filter]
  simp only [Bool.and_self]

theorem mem_morts {l : List EItem} {m : Nat} : EItem.mort m ∈ itemMorts l ↔ EItem.mort m ∈ l := by
  unfold itemMorts
  simp [EItem.isMort]

/-! ### Insertion and deletion at a place (R174, R180) -/

section
variable {l : List EItem} {r n : Nat}

theorem insert_elems (new : List EItem) (hr : r ≤ (itemElems l).length) :
    itemElems ((cutItems l r).1 ++ new ++ (cutItems l r).2) = (itemElems l).take r ++ itemElems new ++ (itemElems l).drop r := by
  obtain ⟨hbefore, hafter⟩ := cut_elems l r hr
  rw [elems_append, elems_append, hbefore, hafter]

/-- Cutting at r and then n further on leaves the span of the deletion in the middle; of it only the mortises stay. -/
theorem delItems_elems (h : r + n ≤ (itemElems l).length) :
    itemElems (delItems l r n) = (itemElems l).take r ++ (itemElems l).drop (r + n) := by
  obtain ⟨hbefore, hrest⟩ := cut_elems l r (by omega)
  obtain ⟨-, hafter⟩ := cut_elems (cutItems l r).2 n (by rw [hrest, List.length_drop]; omega)
  unfold delItems
  rw [elems_append, elems_append, elems_morts, List.append_nil, hbefore, hafter, hrest, List.drop_drop]

theorem delItems_morts (l : List EItem) (r n : Nat) : itemMorts (delItems l r n) = itemMorts l := by
  unfold delItems
  rw [morts_append, morts_append, morts_morts, List.append_assoc, cut_morts, cut_morts]

end

/-! ### Insertion before a mortise (R180 ea.fill) -/

theorem fillItems_append (a b : List EItem) (m : Nat) (new : List EItem) :
    fillItems (a ++ b) m new = fillItems a m new ++ fillItems b m new := List.flatMap_append ..

/-- The new items stand just before a mortise that occurs nowhere else. -/
theorem fillItems_at {a b : List EItem} {m : Nat} (ha : EItem.mort m ∉ a) (hb : EItem.mort m ∉ b) (new : List EItem) :
    fillItems (a ++ .mort m :: b) m new = a ++ new ++ .mort m :: b := by
  have hone : fillItems [.mort m] m new = new ++ [.mort m] := by simp [fillItems]
  rw [← List.singleton_append, fillItems_append, fillItems_append, fill_none a m new ha, fill_none b m new hb, hone]
  simp only [List.append_assoc]

/-- The place of a mortise is the number of elements that stand before it. -/
theorem mortPlace_at {a b : List EItem} {m : Nat} (ha : EItem.mort m ∉ a) :
    mortPlace (a ++ .mort m :: b) m = some (itemElems a).length := by
  have hbefore : (a ++ EItem.mort m :: b).takeWhile (fun e => e ≠ .mort m) = a := by
    have hpass : ∀ e ∈ a, decide (e ≠ EItem.mort m) = true := fun e he => decide_eq_true (ne_of_mem_of_not_mem he ha)
    rw [List.takeWhile_append_of_pos hpass, List.takeWhile_cons_of_neg (by simp), List.append_nil]
  unfold mortPlace
  rw [if_pos (by simp), hbefore, itemsLen_eq]

/-- A sequence whose mortises differ stands around the one that has a place. -/
theorem mortPlace_splits {l : List EItem} {m p : Nat} (hnodup : (itemMorts l).Nodup) (hp : mortPlace l m = some p) :
    ∃ a b, l = a ++ .mort m :: b ∧ EItem.mort m ∉ a ∧ EItem.mort m ∉ b ∧ (itemElems a).length = p := by
  have hmem : EItem.mort m ∈ l := by
    by_contra hnone
    unfold mortPlace at hp
    rw [if_neg (by simpa using hnone)] at hp
    cases hp
  obtain ⟨a, b, rfl, ha⟩ := List.eq_append_cons_of_mem hmem
  refine ⟨a, b, rfl, ha, fun hb => ?_, Option.some.inj ((mortPlace_at ha).symm.trans hp)⟩
  rw [morts_append, List.nodup_append] at hnodup
  obtain ⟨-, hafter, -⟩ := hnodup
  exact (List.nodup_cons.mp hafter).1 (mem_morts.mpr hb)

theorem fillItems_elems {l : List EItem} {m p : Nat} (new : List EItem) (hnodup : (itemMorts l).Nodup) (hp : mortPlace l m = some p) :
    itemElems (fillItems l m new) = (itemElems l).take p ++ itemElems new ++ (itemElems l).drop p := by
  obtain ⟨a, b, rfl, ha, hb, rfl⟩ := mortPlace_splits hnodup hp
  rw [fillItems_at ha hb, elems_append, elems_append, elems_append, List.take_left, List.drop_left]

/-- Settles O34: deletion and insertion at a place are cuts, a fill splits the sequence at its mortise, and `rankOf` counts the elements that
it passes. -/
theorem sequencesEdit : Obligations.SequencesEdit := by
  unfold Obligations.SequencesEdit
  intro l r n new
  exact ⟨cut_elems l r, fun h => ⟨delItems_elems h, delItems_morts l r n⟩, insert_elems new, fun m p => fillItems_elems new,
    fun leaf slot k hk => (rankOf_elem l leaf slot 0 k hk).2, itemsLen_eq l⟩

end Sys2Proof.Machine

/-! PROOFS. How kernels are placed, and runs and operations go on: O41. -/

namespace Sys2Proof.Machine

/-! ### launch (R237, R238) -/

section
variable {s : State} {env : Env} {x : Args}

/-- A block that may be read gives its eight words. -/
theorem blockOpen_read {va : Nat} (h : s.blockOpen env va) :
    va % 64 = 0 ∧ ∃ l, s.pagedRead env.co va 64 0xFF = .ok l ∧ wordsOf (leNat (s.peekAll l)) 8 = s.blockWords env va := by
  obtain ⟨halign, -, -, hread⟩ := h
  exact ⟨halign, _, isOk_getD hread [], rfl⟩

theorem launchBody_appends (hact : env.acting x ≠ 0) (howns : s.ownsQueue env.co.ctx (env.co.scalar x.d.num).toNat = true)
    (hopen : s.blockOpen env (env.co.scalar x.a.num).toNat) (hgood : launchBad (s.blockWords env (env.co.scalar x.a.num).toNat) = false) :
    launchBody x env s =
      .ok (s.addOp env x (.append (env.co.scalar x.d.num).toNat 1 (s.blockWords env (env.co.scalar x.a.num).toNat))) := by
  obtain ⟨halign, l, hread, hwords⟩ := blockOpen_read hopen
  unfold launchBody
  simp only [if_neg hact, howns, halign, awaitBlock_open hopen, hread, hwords, hgood, Bool.not_true, Bool.false_eq_true, ne_eq,
    not_true_eq_false, if_false]

end

/-! ### Placement (R239, R280) -/

section
variable {s : State} {kern : Nat} {k : Kernel} {p : Spot}

/-- The next course of a kernel that no other is ahead of goes to the place found for it; the claim of the place may fault. -/
theorem placement_claims (hup : s.up = true) (hk : s.kernels.find kern = some k) (hahead : s.kernelAhead kern k = false)
    (hspot : s.kernelSpot k = some p) :
    exec (.placement kern) s = .next ((s.claim p.core p.cslot p.base (launchRows k.words)).elim (s.tellKernel kern k p)
      (fun t => t.placeCourse kern k p)) := by
  change execPlacement kern s = _
  unfold execPlacement
  simp only [hk, hup, hahead, hspot, Bool.not_true, Bool.or_self, Bool.false_eq_true, if_false]
  cases s.claim p.core p.cslot p.base (launchRows k.words) <;> rfl

end

/-! ### The start of a course (R240) -/

/-- A course of a kernel without a crew starts once its entry overlay is loaded. -/
theorem courseStart_starts {s : State} {cid j : Nat} {c : Course} {k : Kernel} {e : Nat × Nat × Nat} (hup : s.up = true)
    (hc : s.courses.find cid = some c) (hk : s.kernels.find c.kern = some k) (hnew : c.started = false) (hmoved : c.moved = none)
    (hsaved : c.saved = false) (hspl : c.spl = 0) (hentry : s.entryOf c.core k = some e) (hloaded : s.imageSlot c.core k.ctx e.1 e.2.1 = some j)
    (hcrew : 65535 ≤ k.crew) (hcheck : s.crewCheck c [] = none) :
    exec (.courseStart cid) s =
      .next (((s.zeroSegment c).launchWords c (~~~c.exited)).modCourse cid (fun c => { c with started := true })) := by
  have hfree : ¬ (!s.up || c.started || c.moved.isSome || c.saved || decide (c.spl ≠ 0)) = true := by
    simp [hup, hnew, hmoved, hsaved, hspl]
  change execCourseStart cid s = _
  unfold execCourseStart
  simp only [hc, hk, if_neg hfree, hentry]
  rw [hloaded, Option.isNone_some, if_neg Bool.false_ne_true, if_neg (Nat.not_lt.mpr hcrew), hcheck, Option.isSome_none,
    if_neg Bool.false_ne_true, List.foldl_nil]

/-! ### Arbitration (R70) -/

section
variable {s : State} {core i : Nat}

/-- An issue slot of the package gets the turn: at once where it holds a run, else by arbitration. -/
theorem runArbitration_turns (hup : s.up = true) (hcore : core < 96) (hi : i < 4) :
    exec (.runArbitration core i) s =
      .next (if (s.slotOf (core * 4 + i)).busy.isSome then { s with cur := some (core * 4 + i) } else s.arbitrate (core * 4 + i)) := by
  have hrange : (!s.up || decide (96 ≤ core) || decide (4 ≤ i)) = false := by simp [hup, hcore, hi]
  change execRunArbitration core i s = _
  unfold execRunArbitration
  rw [if_neg (Bool.eq_false_iff.mp hrange)]
  exact (apply_ite Host.Outcome.next _ _ _).symm

/-- Every contender of a slot but those of the winner's course has been passed over once more. -/
def State.passOthers (s : State) (l : List Contender) (w : Contender) : State :=
  ((l.filter (fun a => a.cid != w.cid)).map (·.cid)).foldl (fun (s : State) cid => s.modCourse cid (fun c => c.passOver s.time.clk)) s

/-- The winner of a slot takes it, and is no longer passed over. -/
def State.takeSlot (s : State) (k : Nat) (w : Contender) : State :=
  let s := s.modCourse w.cid (fun c => { c with passed := 0, forced := none })
  { s with slots := s.slots.put k { s.slotOf k with busy := some (w.cid, w.p), last := w.co.cslot }, cur := some k }

theorem arbitrate_winner {k : Nat} {w : Contender}
    (hw : winner ((s.wakeSlot k).slotOf k).last ((s.wakeSlot k).contenders k) = some w) :
    s.arbitrate k = (((s.wakeSlot k).passOthers ((s.wakeSlot k).contenders k) w).takeSlot k w).startRun k w.cid w.p := by
  unfold State.arbitrate
  simp only [hw]
  rfl

end

/-! ### Operations that end (R42, R43) -/

section
variable {s : State} {op : Nat} {o : Op} (line : Nat)

/-- How an operation goes on, for four of its kinds. -/
theorem longLatencyComplete_goesOn (ho : s.hasOp op o) :
    (o.kind = .nothing → exec (.longLatencyComplete op line) s = .next (s.finishOp op)) ∧
    (∀ t d l, o.kind = .land t d l → s.mayLand o = true →
      exec (.longLatencyComplete op line) s = .next ((s.putOp o t d l).finishOp op)) ∧
    (∀ j, o.kind = .mem j → exec (.longLatencyComplete op line) s = .next (s.memStep op o j line)) ∧
    ∀ code x slot co pa rows, o.kind = .behind code x slot co pa rows →
      exec (.longLatencyComplete op line) s = .next (s.leaveQueue op o code x slot co pa rows) := by
  obtain ⟨hup, hop⟩ := ho
  have hexec : exec (.longLatencyComplete op line) s = execLongLatencyComplete op line s := rfl
  rw [hexec]
  unfold execLongLatencyComplete
  simp only [hop, hup, Bool.not_true, Bool.false_eq_true, if_false]
  refine ⟨fun hk => ?_, fun t d l hk hmay => ?_, fun j hk => ?_, fun code x slot co pa rows hk => ?_⟩
  · simp only [hk]
  · simp only [hk, if_pos hmay]
  · simp only [hk]
  · simp only [hk]

theorem memStep_lands {j : MemJob} (hdone : j.todo = []) (hmay : s.mayLand o = true) : s.memStep op o j line = s.landMem op o j := by
  unfold State.memStep
  rw [hdone, List.isEmpty_nil, if_pos rfl, if_pos hmay]

/-! ### The access queue (R160) -/

variable {code : BitVec 9} {x : Args} {slot : Nat} {co : Course} {pa : Path} {rows : Tab (BitVec 2048)}

/-- What an instruction of the access queue runs in: its own place in program order, with its window as it read it at issue. -/
def State.atPlace (s : State) (op : Nat) (c co : Course) (pa : Path) (rows : Tab (BitVec 2048)) : State :=
  { s with rows := windowFrom s.rows rows c co pa.lwb, ops := s.ops.del op, nextId := op }

/-- Who runs it: the course as it stands, with the operands it read at issue. -/
def Op.asQueued (o : Op) (slot cid : Nat) (c co : Course) (pa : Path) : Env :=
  { slot := slot, cid := cid, p := o.path, co := c.asRead co, pa := pa }

variable {cid : Nat} {c : Course} {body : Env → State → Res}

theorem leaveQueue_acts {t : State} {a : Adv} (hcid : o.cid = some cid) (hc : s.courses.find cid = some c)
    (hbody : queuedBody code x = some body) (hhead : s.queueHead cid c op = true)
    (hr : body (o.asQueued slot cid c co pa) (s.atPlace op c co pa rows) = .done t a) :
    s.leaveQueue op o code x slot co pa rows =
      { t with rows := windowFrom t.rows s.rows c c pa.lwb, nextId := max t.nextId s.nextId } := by
  unfold Op.asQueued State.atPlace at hr
  unfold State.leaveQueue
  simp only [hcid, hc, hbody, hhead, hr, Bool.not_true, Bool.false_eq_true, if_false]

theorem leaveQueue_traps {tr : Trap} (hcid : o.cid = some cid) (hc : s.courses.find cid = some c)
    (hbody : queuedBody code x = some body) (hhead : s.queueHead cid c op = true)
    (hr : body (o.asQueued slot cid c co pa) (s.atPlace op c co pa rows) = .trap tr) :
    s.leaveQueue op o code x slot co pa rows = (s.lateTrap op o tr).finishOp op := by
  unfold Op.asQueued State.atPlace at hr
  unfold State.leaveQueue
  simp only [hcid, hc, hbody, hhead, hr, Bool.not_true, Bool.false_eq_true, if_false]

end

/-! ### A due sample (R80, R81) -/

/-- A sampler that is on puts the record of the course it examines, and is due again a period later. -/
theorem sample_records {s : State} {core part cid p r : Nat} {m : Sampler} {c : Course} {q : Path}
    (hm : s.samplers.find (core * 16 + part) = some m) (hdue : s.sampleDue m = true) (hnext : s.nextSampled core m = some (cid, c))
    (hpath : s.samplePath cid c = some (p, q, r)) (hon : m.on = true) (hclk : s.time.clk < m.next + m.period) :
    let w := s.putRecord core { m with last := c.cslot } (s.sampleWords part c p q r)
    exec (.sample core part) s = .next
      { w.1 with samplers := w.1.samplers.put (core * 16 + part) { w.2 with next := m.next + m.period } } := by
  have hlater : ¬ m.next + m.period ≤ s.time.clk := Nat.not_le.mpr hclk
  change execSample core part s = _
  unfold execSample samplerKey
  simp only [hm, hdue, hnext, hpath, hon, hlater, Bool.not_true, Bool.false_eq_true, if_false]

/-- Settles O41: launch appends its block; placement, the start of a course, arbitration, the end of an operation, the access queue and a
sample are the lemmas above. -/
theorem kernelsAndRuns : Obligations.KernelsAndRuns := by
  unfold Obligations.KernelsAndRuns
  refine ⟨?launch, ?place, ?fault, ?start, ?busy, ?idle, ?nothing, ?land, ?mem, ?behind, ?sample⟩
  case launch =>
    intro s env x hr hact q va w howns hopen hgood
    exact issue_done hr (launchBody_appends hact howns hopen hgood)
  case place =>
    intro s kern k p hup hk hahead hspot hclaim
    obtain ⟨t, ht⟩ := Option.isSome_iff_exists.mp hclaim
    rw [placement_claims hup hk hahead hspot, ht, Option.elim_some, Option.getD_some]
  case fault =>
    intro s kern k p hup hk hahead hspot hclaim
    rw [placement_claims hup hk hahead hspot, hclaim, Option.elim_none]
  case start => exact fun s cid j c k e => courseStart_starts
  case busy =>
    intro s core i b hup hcore hi hbusy
    rw [runArbitration_turns hup hcore hi, hbusy]
    rfl
  case idle =>
    intro s core i w hup hcore hi hbusy k t hw u v
    rw [runArbitration_turns hup hcore hi, hbusy, Option.isSome_none, if_neg Bool.false_ne_true]
    exact congrArg Host.Outcome.next (arbitrate_winner hw)
  case nothing => exact fun s op line o ho => (longLatencyComplete_goesOn line ho).1
  case land =>
    intro s op line o t d l ho
    obtain ⟨-, hland, -⟩ := longLatencyComplete_goesOn line ho
    exact hland t d l
  case mem =>
    intro s op line o j ho hk hdone hmay
    obtain ⟨-, -, hmem, -⟩ := longLatencyComplete_goesOn line ho
    rw [hmem j hk, memStep_lands line hdone hmay]
  case behind =>
    intro s op line cid slot o c co pa code x rows body ho hk hcid hc hbody hhead u r
    obtain ⟨-, -, -, hbehind⟩ := longLatencyComplete_goesOn line ho
    have hleaves := hbehind code x slot co pa rows hk
    exact ⟨fun t a hr => hleaves.trans (congrArg _ (leaveQueue_acts hcid hc hbody hhead hr)),
      fun tr hr => hleaves.trans (congrArg _ (leaveQueue_traps hcid hc hbody hhead hr))⟩
  case sample => exact fun s core part cid p r m c q => sample_records

end Sys2Proof.Machine

/-! PROOFS. The instructions on elastic arrays: O33. -/

namespace Sys2Proof.Machine

/-- What goes on from a result that is there. -/
theorem ok_bind {ε α β : Type} (a : α) (f : α → Except ε β) : Except.ok a >>= f = f a := rfl

/-! ### Offering a structural operation (R174, R181) -/

section
variable {s : State} {env : Env} {x : Args}

/-- An instruction whose operation cannot be made of what it reads traps, and offers nothing. -/
theorem ea_trap {k : Args → Instr} {e : Entry} {d : Opnd} {mk : Env → State → Except Trap EaOp} {t : Trap}
    (hk : exec (k x) s = issue e x (eaStruct x d mk) s) (hr : Ready s env e x) (hact : env.acting x ≠ 0) (hnew : env.pa.offer = none)
    (ht : mk env s.tick = .error t) : exec (k x) s = .next (s.tick.trapHere env t) := by
  rw [hk]
  refine issue_trap hr ?_
  unfold eaStruct
  simp only [if_neg hact, hnew, ht]

/-! ### The creation block of ea.new (R169, R181) -/

/-- Once it has offered its operation, or where its block may be read, ea.new issues as the other structural instructions do. -/
theorem eaNew_issues (hr : Ready s env Enc.eaNew x) (hready : env.pa.offer.isSome = true ∨
      ∃ l, s.tick.pagedRange env.co (env.n64 x x.a) 16 false 0xFF = .ok l ∧ s.tick.blockReady env.cid l = true) :
    exec (.eaNew x) s = issue Enc.eaNew x (eaStruct x x.d (fun env s => s.creation env (env.n64 x x.a))) s := by
  have hexec : exec (.eaNew x) s = execEaNew x s := rfl
  rw [hexec]
  unfold execEaNew
  rw [issue_ready hr, issue_ready hr]
  rcases hready with hoffer | ⟨l, hl, hblock⟩
  · simp only [hoffer, or_true, if_true]
  · unfold awaitBlock
    simp only [hl, hblock, if_true, ite_self]

theorem creation_misaligned {va : Nat} (hva : va % 16 ≠ 0) : s.creation env va = .error (Trap.align 0xFF va) := if_pos hva

/-- What an aligned block that has been read asks for; a version of 0 is as good as version 1 (log entry 106). -/
theorem creation_aligned {va : Nat} {l : List (Nat × Nat)} (hva : va % 16 = 0) (hl : s.pagedRead env.co va 16 0xFF = .ok l) :
    s.creation env va =
      let n := leNat (s.peekAll l)
      if 1 < bits n 56 8 then .error (Trap.illegal Sub.ver)
      else if 8 < bits n 52 4 ∨ bits n 50 2 = 3 ∨ bits n 0 50 ≠ 0 ∨ bits n 64 64 ≠ 0 then .error (Trap.peg 7 0xFF 0)
      else .ok (.new (bits n 52 4) (bits n 50 2)) := by
  unfold State.creation
  rw [if_neg (not_not.mpr hva), hl]
  rfl

/-! ### What a walk gives (R173, R176, R180) -/

variable {d : Desc} (hact : env.acting x ≠ 0)
  (hopen : s.tick.openArray env.co.core env.co.ctx (env.co.scalar x.a.num) 0xFF = .ok d)
  (hwait : s.tick.eaWaits env.co.core env.cid env.co.ctx (handleArray (env.co.scalar x.a.num)) = false)
include hact hopen hwait

theorem eaLen_gives (hr : Ready s env Enc.eaLen x) :
    exec (.eaLen x) s = .next ((s.tick.addOp env x (.land .n64 x.d ((env.runs x).map (fun l => (l, d.len))))).complete env Enc.eaLen x {}) :=
  ea_read (fun _ => d.len) rfl hr hact hopen hwait (fun _ _ => rfl)

/-- A peg whose generation is the leaf's has the rank of its slot in the sequence of the array. -/
theorem eaRank_gives {items : List EItem} {nodes : List Nat} {rk : Nat → Nat} (hr : Ready s env Enc.eaRank x)
    (hitems : s.tick.treeItems env.co.core env.co.ctx 13 d.root = .ok (items, nodes))
    (hpeg : ∀ l ∈ env.runs x,
      let g := s.tick.lane env x .n64 x.b l
      (s.tick.leafGen env.co.core env.co.ctx (bits g 32 32)).toOption = some (bits g 0 16) ∧
        rankOf items (bits g 32 32) (bits g 16 16) 0 = some (rk l)) :
    exec (.eaRank x) s = .next ((s.tick.addOp env x (.land .n64 x.d ((env.runs x).map (fun l => (l, rk l))))).complete env Enc.eaRank x {}) := by
  refine ea_read rk rfl hr hact hopen hwait (fun l hl => ?_)
  obtain ⟨hgen, hrank⟩ := hpeg l hl
  simp only [hgen, hitems, ne_eq, not_true_eq_false, if_false, ok_bind, hrank]

/-- A rank below the array's length has the peg of the leaf and slot that it resolves to. -/
theorem eaPeg_gives {pg : Nat → Nat} (hr : Ready s env Enc.eaPeg x)
    (hrank : ∀ l ∈ env.runs x,
      let r := s.tick.eaLane env x x.b l
      r < d.len ∧ ∃ leaf slot rest gen, s.tick.resolveAt env.co.core env.co.ctx 13 d.root r 0 = .ok (some (leaf, slot, rest)) ∧
        s.tick.leafGen env.co.core env.co.ctx leaf = .ok gen ∧ pg l = leaf * 2 ^ 32 + slot * 2 ^ 16 + gen) :
    exec (.eaPeg x) s = .next ((s.tick.addOp env x (.land .n64 x.d ((env.runs x).map (fun l => (l, pg l))))).complete env Enc.eaPeg x {}) := by
  refine ea_read pg rfl hr hact hopen hwait (fun l hl => ?_)
  obtain ⟨hlen, leaf, slot, rest, gen, hresolve, hgen, hpg⟩ := hrank l hl
  simp only [Nat.not_le.mpr hlen, if_false, hresolve, hgen, ok_bind, hpg]

end

/-! ### The statement -/

/-- Settles O33: what an offered operation's phase answers, the operation that each instruction offers, the walk that gives every lane's result,
and the checks of a creation block. -/
theorem elasticInstructions : Obligations.ElasticInstructions := by
  unfold Obligations.ElasticInstructions
  refine ⟨⟨?answer, ?offer, ?walk⟩, ?create⟩
  case answer =>
    simp only [List.forall_mem_cons, List.not_mem_nil, false_imp_iff, implies_true, and_true]
    refine ⟨fun s env x id o j hr => ?_, ?_, ?_, ?_, ?_, ?_, ?_, ?_, ?_⟩
    · refine ea_table (d := fun x => x.d) (fun x env s => s.creation env (env.n64 x x.a)) (fun x s env _ hoffer hr r h => ?_) hr
      have hissue := eaNew_issues hr (.inl hoffer)
      rw [issue_ready hr, h] at hissue
      cases r with
      | done _ _ | refuse _ _ | stall _ => exact hissue
      | trap _ | park _ | later _ => rfl
    all_goals exact fun s env x id o j => ea_table _ (ea_direct (fun _ _ => rfl))
  case offer =>
    intro s env x hact hnew offered
    refine ⟨fun hr => ea_offer rfl hr hact hnew rfl, fun hr => ea_offer rfl hr hact hnew rfl, fun hr => ea_offer rfl hr hact hnew rfl,
      fun hr => ea_offer rfl hr hact hnew rfl, fun hr => ea_offer rfl hr hact hnew rfl, fun hr => ea_offer rfl hr hact hnew rfl,
      fun hr hpos hmax => ea_offer rfl hr hact hnew (if_neg (by omega)),
      fun hr => ⟨fun hzero => ea_trap rfl hr hact hnew (if_pos hzero), fun hsome => ea_offer rfl hr hact hnew (if_neg hsome)⟩⟩
  case walk =>
    intro s env x d hact hopen hwait
    exact ⟨fun hr => eaLen_gives hact hopen hwait hr, fun items nodes rk hr => eaRank_gives hact hopen hwait hr,
      fun pg hr => eaPeg_gives hact hopen hwait hr⟩
  case create =>
    intro s env x hr hact hnew va at_ block hat hready hblock n
    have hl := isOk_getD hblock []
    have hissue := eaNew_issues hr (.inr ⟨_, isOk_getD hat [], hready⟩)
    refine ⟨fun hva => ?_, fun hva hver => ?_, fun hva hver hbad => ?_, fun hva hver hesz hkind hlow hhigh => ?_⟩
    · exact ea_trap hissue hr hact hnew (creation_misaligned hva)
    · exact ea_trap hissue hr hact hnew ((creation_aligned hva hl).trans (if_pos hver))
    · exact ea_trap hissue hr hact hnew ((creation_aligned hva hl).trans ((if_neg (Nat.not_lt.mpr hver)).trans (if_pos hbad)))
    · refine ea_offer hissue hr hact hnew ((creation_aligned hva hl).trans ((if_neg (Nat.not_lt.mpr hver)).trans (if_neg ?_)))
      rintro (hbig | hthree | hset | hset)
      · exact Nat.not_lt.mpr hesz hbig
      · exact hkind hthree
      · exact hset hlow
      · exact hset hhigh

end Sys2Proof.Machine

/-! PROOFS. What becomes of an offered operation on elastic arrays: O35. -/

namespace Sys2Proof.Machine

section
variable {s : State} {op : Nat} {o : Op} {c : Course} {j : EaJob}

/-- A structural operation of a course has that course's core and context. -/
theorem eaCourse_issuer {cid : Nat} (hcid : o.cid = some cid) (hc : s.courses.find cid = some c) : s.eaCourse o = some c := by
  unfold State.eaCourse
  rw [hcid]
  exact hc

/-! ### Acceptance (R174, R179, R181) -/

/-- No operation of its arrays stands before one that came first and of which the others wait. -/
theorem eaOps_noneBefore {l : List (Nat × EaJob)} (hfirst : ∀ k ∈ l, k.1 = op ∨ (op < k.1 ∧ k.2.phase = .offered)) :
    l.any (fun k => decide (k.1 ≠ op) && (decide (k.1 < op) || decide (k.2.phase ≠ .offered))) = false := by
  refine any_false (fun k hk => ?_)
  rcases hfirst k hk with hself | ⟨hlater, hwaits⟩
  · rw [decide_eq_false (not_not.mpr hself), Bool.false_and]
  · rw [decide_eq_false (Nat.not_lt.mpr hlater.le), decide_eq_false (not_not.mpr hwaits), Bool.or_self, Bool.and_false]

theorem lockAt_noLocks (hfree : s.locks = []) (own pa n : Nat) (write : Bool) : s.lockAt own pa n write = none := by
  unfold State.lockAt
  rw [hfree]
  rfl

/-- What an operation that removes elements plans, when there are as many. -/
theorem acceptEa_del {h : Word} {r n : Nat} {d : Desc} {items : List EItem} {old : List Nat} {t : State} {u : EaTree}
    (ho : j.o = .del h r n) (hopen : s.openArray c.core c.ctx h 0xFF = .ok d) (hn : n ≠ 0)
    (hitems : s.treeItems c.core c.ctx 13 d.root = .ok (items, old))
    (hplan : s.planTree c.core c.ctx (handleArray h) (delItems items r n) d.mnext d.leaf d.slot old = .ok (t, u)) :
    s.acceptEa c j = if d.len < r + n then .error (Trap.peg 1 0xFF r) else
      .ok (t, j.plan [u] [] [{ array := handleArray h, r := r, delta := -(n : Int), drop := false }] old) := by
  unfold State.acceptEa
  simp only [ho, hopen, ok_bind, if_neg hn, hitems, hplan]

section
variable (hop : s.ops.find op = some o) (hkind : o.kind = .ea j)
include hop hkind

section
variable (hcourse : s.eaCourse o = some c)
include hcourse

section
variable (hphase : j.phase = .offered)
  (hfirst : ∀ k ∈ s.eaOps o.ctx j.o.arrays, k.1 = op ∨ (op < k.1 ∧ k.2.phase = .offered))
include hphase hfirst

theorem eaAccept_refuses {cid : Nat} {t : Trap} (hcid : o.cid = some cid) (hbad : s.acceptEa c j = .error t) :
    exec (.eaAccept op) s = .next (s.setOp op (.ea { j with phase := .refused t })) := by
  change execEaAccept op s = _
  unfold execEaAccept
  simp only [hop, hkind, hcourse, hphase, eaOps_noneBefore hfirst, hbad, hcid, Option.isNone_some, ne_eq, not_true_eq_false,
    Bool.false_eq_true, if_false]

theorem eaAccept_accepts {t : State} {k : EaJob} (hgood : s.acceptEa c j = .ok (t, k)) (hfree : s.locks = [])
    (hroom : (t.eaRanges c k).length ≤ t.freeLocks) :
    exec (.eaAccept op) s = .next ((t.setOp op (.ea k)).lockRanges op false (t.eaRanges c k)) := by
  have hbound : (j.o.arrays.findSome? fun a => s.lockAt op (arrayKey o.ctx a) 1 true) = none :=
    List.findSome?_eq_none_iff.mpr fun a _ => lockAt_noLocks hfree op (arrayKey o.ctx a) 1 true
  change execEaAccept op s = _
  unfold execEaAccept
  simp only [hop, hkind, hcourse, hphase, eaOps_noneBefore hfirst, hgood, hbound, Nat.not_lt.mpr hroom, ne_eq, not_true_eq_false,
    Bool.false_eq_true, if_false]

end

/-! ### Commit and shoot-down (R174, R177, R178) -/

theorem eaCommit_commits (hphase : j.phase = .accepted) (hready : s.engineReady op o [] (s.ownRanges op) = true) :
    let cores := if j.shoots.isEmpty then [] else List.range 96
    let r := s.commitEa c j
    exec (.eaCommit op) s = .next (r.1.setOp op (.ea { j with phase := .committed cores cores, leaves := r.2 })) := by
  change execEaCommit op s = _
  unfold execEaCommit
  simp only [hop, hkind, hcourse, hphase, hready, ne_eq, not_true_eq_false, decide_false, Bool.not_true, Bool.or_self,
    Bool.false_eq_true, if_false, Config.cores]

end

section
variable {core : Nat} {l k : List Nat} (hphase : j.phase = .committed l k)
include hphase

theorem shootdown_applies (hcore : core ∈ l) :
    exec (.shootdown op core) s = .next ({ s with ranks := s.ranks.filterMap (fun (e : RankItem) =>
      if e.core == core && e.ctx == o.ctx then j.shoots.foldl (fun e h => e.bind (fun e => e.shot h)) (some e) else some e) }.setOp op
        (.ea { j with phase := .committed (l.filter (· ≠ core)) k })) := by
  change execShootdown op core s = _
  unfold execShootdown
  simp only [hop, hkind, hphase, List.contains_iff_mem.mpr hcore, Bool.not_true, Bool.false_eq_true, if_false]

theorem shootdownAck_waits (hheld : s.resolving core o.ctx (j.shoots.map (·.array)) = true) : exec (.shootdownAck op core) s = .next s := by
  change execShootdownAck op core s = _
  unfold execShootdownAck
  simp only [hop, hkind, hphase, hheld, Bool.or_true, if_true]

theorem shootdownAck_acknowledges (happlied : core ∉ l) (howes : core ∈ k)
    (hdone : s.resolving core o.ctx (j.shoots.map (·.array)) = false) :
    exec (.shootdownAck op core) s = .next (s.setOp op (.ea { j with phase := .committed l (k.filter (· ≠ core)) })) := by
  have happlied' : l.contains core = false := by simpa using happlied
  change execShootdownAck op core s = _
  unfold execShootdownAck
  simp only [hop, hkind, hphase, happlied', List.contains_iff_mem.mpr howes, hdone, Bool.not_true, Bool.or_self, Bool.false_eq_true,
    if_false]

end

/-! ### The end of a commit (R170, R174, R183) -/

/-- What the end of a commit gives back: the nodes that no tree of the plan uses, the leaves left without elements, and the locks. -/
def State.commitEnded (s : State) (op : Nat) (o : Op) (c : Course) (j : EaJob) : State :=
  ((s.modCtx o.ctx (fun x => { x with nodes := j.oldNodes.filter (fun k => !j.trees.any (fun t => t.nodes.contains k)) ++ x.nodes })).returnLeaves
    c.core o.ctx j.leaves).unlock op

theorem eaCommitComplete_ends {cid : Nat} (hcourse : s.eaCourse o = some c) (hcid : o.cid = some cid) (hphase : j.phase = .committed [] [])
    (hissued : s.offering op = false) (hkept : j.freed = none) :
    exec (.eaCommitComplete op) s = .next (if j.d = .zero then (s.commitEnded op o c j).finishOp op
      else (s.commitEnded op o c j).setOp op (.land .n64 j.d [(0, j.result.toNat)])) := by
  change execEaCommitComplete op s = _
  unfold execEaCommitComplete
  simp only [hop, hkind, hcourse, hcid, hphase, hissued, hkept, ne_eq, not_true_eq_false, decide_false, Bool.or_self, Bool.false_eq_true,
    if_false]
  exact (apply_ite Host.Outcome.next _ _ _).symm

end

/-! ### The rank cache (R173, R177) -/

/-- A walk that no commit discards enters what it found, and the oldest item of a full cache goes (log entry 23). -/
theorem rankWalk_enters {core rank : Nat} {handle : Word} {d : Desc} {leaf slot base start count f : Nat} (hcore : core < 96)
    (hopen : s.openArray core (bits handle.toNat 44 16) handle 0xFF = .ok d) (hrank : rank < d.len) (hstill : nbit d.seq 0 = false)
    (hstale : s.staleRanks core (bits handle.toNat 44 16) (handleArray handle) = false)
    (hmiss : s.rankHit core (bits handle.toNat 44 16) (handleArray handle) d.gen rank = none)
    (hresolve : s.resolveAt core (bits handle.toNat 44 16) 13 d.root rank 0 = .ok (some (leaf, slot, base, start, count)))
    (hframe : s.leafFrame core (bits handle.toNat 44 16) leaf = .ok f) :
    exec (.rankWalk core handle rank) s = .next { s with ranks :=
      { core := core, ctx := bits handle.toNat 44 16, array := handleArray handle, gen := d.gen, base := base, count := count, frame := f,
        start := start } :: ((s.ranks.filter (fun e => e.core == core)).take 127 ++ s.ranks.filter (fun e => e.core != core)) } := by
  have hcore' : ¬ Config.cores ≤ core := Nat.not_le.mpr hcore
  change execRankWalk core handle rank s = _
  unfold execRankWalk
  simp only [hopen, hcore', Nat.not_le.mpr hrank, hstill, hstale, hmiss, hresolve, hframe, Option.isSome_none, decide_false, Bool.or_self,
    Bool.false_eq_true, if_false]

end

/-! ### The statement -/

/-- Settles O35: acceptance, commit, shoot-down, acknowledgement and the end of a commit are the lemmas of their events, and a walk enters what it
found. -/
theorem elasticEvents : Obligations.ElasticEvents := by
  unfold Obligations.ElasticEvents
  refine ⟨fun s op cid o c j hop hkind hcid hc => ?_, fun s core rank handle d leaf slot base start count f => rankWalk_enters⟩
  have hcourse := eaCourse_issuer hcid hc
  refine ⟨?refuse, ?accept, ?del, ?commit, ?apply, ?acknowledge, ?finish⟩
  case refuse => exact fun t hphase hfirst => eaAccept_refuses hop hkind hcourse hphase hfirst hcid
  case accept =>
    intro hphase hfirst hgood hfree r hroom
    exact eaAccept_accepts hop hkind hcourse hphase hfirst (isOk_getD hgood (s, j)) hfree hroom
  case del => exact fun h r n d items old t u => acceptEa_del
  case commit => exact eaCommit_commits hop hkind hcourse
  case apply => exact fun core l k hphase => shootdown_applies hop hkind hphase
  case acknowledge =>
    exact fun core l k hphase happlied howes =>
      ⟨shootdownAck_waits hop hkind hphase, shootdownAck_acknowledges hop hkind hphase happlied howes⟩
  case finish =>
    intro hphase hissued hkept t
    have hends := eaCommitComplete_ends hop hkind hcourse hcid hphase hissued hkept
    exact ⟨fun hzero => hends.trans (congrArg _ (if_pos hzero)), fun hresult => hends.trans (congrArg _ (if_neg hresult))⟩

end Sys2Proof.Machine

/-! PROOFS. The time-stamp counter under IEEE 1588 (R322), and how the viral state spreads over links (R323): O58 and O59. -/

namespace Sys2Proof.Machine

/-! ### The time input (R322) -/

section
variable (s : State) {off : Int} (ppm : Int)

/-- A number held within a bound lies within it. -/
theorem clampInt_bounds (v : Int) {b : Int} (hb : 0 ≤ b) : -b ≤ clampInt v b ∧ clampInt v b ≤ b :=
  ⟨le_max_left .., max_le (by omega) (min_le_right ..)⟩

/-- A counter that is ahead is slowed at most. -/
theorem timeSync_ahead (h : off < 0) :
    exec (.timeSync off ppm) s = .next { s with time := { s.time with ppm := min (clampInt ppm 200) 0 } } := if_pos h

/-- A counter that is far behind makes a forward step. -/
theorem timeSync_farBehind (h : 1000000 < off) :
    exec (.timeSync off ppm) s = .next { s with time := { s.time with ppm := clampInt ppm 200, ns := s.time.ns + off.toNat } } :=
  (if_neg (by omega)).trans (if_pos h)

/-- A small offset is left to the rate. -/
theorem timeSync_near (h0 : 0 ≤ off) (h : off ≤ 1000000) :
    exec (.timeSync off ppm) s = .next { s with time := { s.time with ppm := clampInt ppm 200 } } :=
  (if_neg (by omega)).trans (if_neg (by omega))

end

/-- Settles O59: one case for each of the three ranges of the offset. -/
theorem timeDiscipline : Obligations.TimeDiscipline := by
  unfold Obligations.TimeDiscipline
  intro s off ppm
  obtain ⟨hlo, hhi⟩ := clampInt_bounds ppm (b := 200) (by decide)
  rcases lt_or_ge off 0 with h0 | h0
  · exact ⟨_, timeSync_ahead s ppm h0, rfl, le_refl _, rfl, le_min hlo (by decide), (min_le_left ..).trans hhi,
      fun h => absurd h (by omega), fun h => absurd h (by omega), fun _ => ⟨rfl, rfl⟩⟩
  · rcases lt_or_ge 1000000 off with h | h
    · exact ⟨_, timeSync_farBehind s ppm h, rfl, Nat.le_add_right .., rfl, hlo, hhi,
        fun _ hle => absurd hle (by omega), fun _ => ⟨rfl, rfl⟩, fun hneg => absurd hneg (by omega)⟩
    · exact ⟨_, timeSync_near s ppm h0 h, rfl, le_refl _, rfl, hlo, hhi,
        fun _ _ => ⟨rfl, rfl⟩, fun hgt => absurd hgt (by omega), fun hneg => absurd hneg (by omega)⟩

/-! ### The viral state and the links (R323) -/

theorem exec_viralState {s : State} (hpower : s.pkg.powerOff = false) (hreset : s.pkg.inReset = false) :
    exec .viralState s = .next s.enterViral := by
  change execViralState s = _
  unfold execViralState
  rw [hpower, hreset]
  rfl

/-- The package that becomes viral is no longer up; each UP link carries its viral flit, and every link is DOWN. -/
theorem enterViral_links {s : State} (h : s.pkg.viral = false) :
    s.enterViral.out = .viral ((List.range 12).filter (fun n => (s.link n).st == LState.up)) ∧
      ∀ n, n < 12 → (s.enterViral.link n).st = .down ∧ (s.enterViral.link n).viral = true := by
  unfold State.enterViral
  rw [if_neg (by simp [h])]
  have hlinks := viral_links s (List.range 12)
  generalize List.foldl _ s (List.range 12) = t at hlinks ⊢
  exact ⟨rfl, fun n hn => hlinks n (List.mem_range.mpr hn)⟩

theorem up_of_viral {s : State} (h : s.pkg.viral = true) : s.up = false := by
  unfold State.up
  rw [h]
  rfl

/-- Taking a link down does not make the package viral, and leaves it up. -/
theorem linkDown_up (s : State) (n : Nat) (l : Link) : (s.linkDown n l).pkg.viral = s.pkg.viral ∧ (s.linkDown n l).up = s.up := by
  unfold State.linkDown State.up
  rw [reroute_pkg]
  unfold State.setLinkW
  dsimp only
  split <;> exact ⟨rfl, rfl⟩

theorem viralFlitReceived_takesDown {s : State} {link : Nat} (hup : s.up = true) (hlink : link < 12) (hst : (s.link link).st ≠ .down) :
    exec (.viralFlitReceived link) s = .next (s.linkDown link { s.link link with viral := true, retryAt := none }) := by
  have hrange : (!s.up || decide (12 ≤ link)) = false := by simp [hup, hlink]
  change execViralFlitReceived link s = _
  unfold execViralFlitReceived
  rw [if_neg (Bool.eq_false_iff.mp hrange)]
  cases hl : (s.link link).st with
  | down => exact absurd hl hst
  | training => rfl
  | up => rfl

/-- Messages toward a viral package move to no other link. -/
theorem wayOut_viral {s : State} {link : Nat} {m : Msg} (hv : (s.link link).viral = true) (hm : m.dest = (s.link link).peer) :
    s.wayOut link m = none := by
  unfold State.wayOut
  rw [hv, hm, if_pos (by simp)]

/-- Settles O58: what becoming viral leaves of the links, a viral flit that is received, and messages queued toward a viral package. -/
theorem viralLinks : Obligations.ViralLinks := by
  unfold Obligations.ViralLinks
  refine ⟨fun s hpower hreset hviral => ?becomes, fun s link hup hlink hst => ?flit, fun s link seq m hup hlink hm hst hdue => ?timeout,
    fun s link m => wayOut_viral⟩
  case becomes =>
    obtain ⟨hv, -⟩ := enterViral_spec s hviral
    exact ⟨_, exec_viralState hpower hreset, hv, up_of_viral hv, enterViral_links hviral⟩
  case flit =>
    obtain ⟨hviral, hstays⟩ := linkDown_up s link { s.link link with viral := true, retryAt := none }
    exact ⟨_, viralFlitReceived_takesDown hup hlink hst, hviral, hstays.trans hup, rfl⟩
  case timeout => exact routeTimeout_refused hup hlink hm ((s.routeless_iff link m.since).2 ⟨hst, hdue⟩)

end Sys2Proof.Machine

/-! PROOFS. The host port, the checkpoint and the package (R310 to R319, R323 to R329): O60. -/

namespace Sys2Proof.Machine

/-! ### Registers (R313, R315, R317, R319) -/

/-- The registers at 0x3000 and above are in no command block. -/
theorem commandCodes_ring (page : Nat) : commandCodes page 0x3000 = 0 := by simp [commandCodes]

section
variable {s : State} (hup : s.up = true) (v : Word)
include hup

/-- A write of 8 bytes of the hypervisor page that no command block lies in. -/
theorem registerWrite_hyper {off : Nat} (hoff : off % 8 = 0) (hrange : off < 65536) (hblock : commandCodes 0 (off / 32 * 32) = 0) :
    exec (.registerWrite 0 off v) s = .next (s.hyperWrite off v) := by
  have hopen : (!s.up || decide (17 < 0) || decide (off % 8 ≠ 0) || decide (65536 ≤ off)) = false := by simp [hup, hoff, hrange]
  change execRegisterWrite 0 off v s = _
  unfold execRegisterWrite
  rw [if_neg (Bool.eq_false_iff.mp hopen)]
  exact (if_neg (by decide)).trans ((if_neg (by simp [hblock])).trans (if_pos rfl))

/-- A write of 8 bytes of a partition's page that no command block lies in. -/
theorem registerWrite_part {page off : Nat} (hlo : 1 ≤ page) (hhi : page ≤ 16) (hoff : off % 8 = 0) (hrange : off < 65536)
    (hblock : commandCodes page (off / 32 * 32) = 0) : exec (.registerWrite page off v) s = s.partWrite page off v := by
  have hopen : (!s.up || decide (17 < page) || decide (off % 8 ≠ 0) || decide (65536 ≤ off)) = false := by
    have hpage : ¬ 17 < page := by omega
    simp [hup, hoff, hrange, hpage]
  have hcxl : page ≠ cxlPage := by unfold cxlPage; omega
  change execRegisterWrite page off v s = _
  unfold execRegisterWrite
  rw [if_neg (Bool.eq_false_iff.mp hopen)]
  exact (if_neg hcxl).trans ((if_neg (by simp [hblock])).trans (if_neg (by omega)))

theorem registerWrite_ringBase {page : Nat} (hlo : 1 ≤ page) (hhi : page ≤ 16) :
    exec (.registerWrite page 0x3000 v) s = .next (s.ring (page - 1) (fun p => { p with ringBase := v })) :=
  registerWrite_part hup v hlo hhi rfl (by decide) (commandCodes_ring page)

theorem registerWrite_ringLog {page : Nat} (hlo : 1 ≤ page) (hhi : page ≤ 16) :
    exec (.registerWrite page 0x3008 v) s = .next (s.ring (page - 1) (fun p => { p with ringLog := bits v.toNat 0 5 })) :=
  registerWrite_part hup v hlo hhi rfl (by decide) (commandCodes_ring page)

omit v in
theorem cons_consumes {page : Nat} (hlo : 1 ≤ page) (hhi : page ≤ 16) (c : BitVec 32) :
    exec (.cons page c) s = .next (s.ring (page - 1) (fun p => { p with cons := c })) := by
  have hopen : (!s.up || decide (page = 0) || decide (16 < page)) = false := by
    have h0 : page ≠ 0 := by omega
    have h16 : ¬ 16 < page := by omega
    simp [hup, h0, h16]
  exact if_neg (Bool.eq_false_iff.mp hopen)

end

section
variable {s : State} (hpower : s.pkg.powerOff = false) (hreset : s.pkg.inReset = false)
include hpower hreset

/-- Reading the count of a peer window's errors clears it. -/
theorem errcnt_clears {n : Nat} (hn : n < 16) : exec (.errcnt n) s = .next { s with
    pkg := { s.pkg with peerErr := s.pkg.peerErr.set 0 n 0 }, out := .word (BitVec.ofNat 64 (s.pkg.peerErr.getD n 0)) } :=
  if_neg (by simp [hpower, hreset, hn])

/-- Reading a link's status clears its count of trainings. -/
theorem retrain_clears {n : Nat} (hn : n < 12) : exec (.retrain n) s =
    .next { s.putLink n { s.link n with retrain := 0 } with out := .word (BitVec.ofNat 64 (s.link n).status) } :=
  if_neg (by simp [hpower, hreset, hn])

/-! ### CXL.mem (R312) -/

/-- An access inside one 64-byte block of a window over DRAM, which no lock holds. -/
theorem cxlAccess_free {hpa n : Nat} {bytes : List Byte} {write : Bool} {m : Nat} (hm : m = if write then bytes.length else n)
    (hne : m ≠ 0) (hblock : hpa % 64 + m ≤ 64) (hdram : hpa + m ≤ 2 ^ 39) (hwin : s.inHdm hpa m = true) (hlocks : s.locks = [])
    (hcp : write = true → s.pkg.checkpoint = false) :
    exec (.hostCxlMemAccess write hpa n bytes) s = .next (
      if write then { s.poke hpa bytes with out := .none }
      else if s.pkg.viral || (s.poisoned hpa m).isSome then { s with out := .poison } else { s with out := .bytes (s.peek hpa m) }) := by
  have hopen : ¬ (s.pkg.powerOff || s.pkg.inReset || decide (m = 0) || decide (64 < hpa % 64 + m) || decide (dramBytes < hpa + m) ||
      !s.inHdm hpa m) = true := by
    have hb : ¬ 64 < hpa % 64 + m := by omega
    have hd : ¬ dramBytes < hpa + m := by unfold dramBytes; omega
    simp only [hpower, hreset, hne, hb, hd, hwin, decide_false, Bool.or_self, Bool.not_true, Bool.false_eq_true, not_false_eq_true]
  have hfree : ¬ ((s.lockAt s.nextId hpa m write).isSome || (write && s.pkg.checkpoint)) = true := by
    rw [lockAt_noLocks hlocks]
    cases write
    · simp
    · simp [hcp rfl]
  change execHostCxlMemAccess write hpa n bytes s = _
  unfold execHostCxlMemAccess
  simp only [← hm]
  rw [if_neg hopen, if_neg hfree]
  split
  · rfl
  · split <;> rfl

end

/-! ### The checkpoint (R311, R316) -/

section
variable {s : State} {seq : BitVec 32} (hacc : s.accepts 0 0x1300 true 0)

/-- The state in which a command is submitted through the checkpoint block. -/
abbrev State.tierSub (s : State) (seq : BitVec 32) (code : Nat) (w1 : Option Nat) : State :=
  s.submitted 0 0x1300 (cmdWords (code * 2 ^ 60) w1 none seq)

include hacc

theorem arm_done {base : Word} (h0 : base ≠ 0) (halign : base.toNat % 2 ^ 39 = 0) (htop : base.toNat < 2 ^ 52) :
    exec (.arm 0 base seq) s =
      .next ({ s.tierSub seq 1 (some base.toNat) with pkg := { s.pkg with tier := some base } }.endCmd 0 0x1300 1) := by
  have hgood : ¬ (base.toNat % dramBytes ≠ 0 ∨ base = 0 ∨ 2 ^ 52 ≤ base.toNat) := by
    unfold dramBytes
    rintro (h | h | h)
    · exact h halign
    · exact h0 h
    · omega
  change execArm 0 base seq s = _
  unfold execArm
  rw [command_conclude hacc, if_neg hgood]
  rfl

theorem arm_refused {base : Word} (hbad : base = 0 ∨ base.toNat % 2 ^ 39 ≠ 0 ∨ 2 ^ 52 ≤ base.toNat) :
    exec (.arm 0 base seq) s = .next ((s.tierSub seq 1 (some base.toNat)).endCmd 0 0x1300 2) := by
  have hbad' : base.toNat % dramBytes ≠ 0 ∨ base = 0 ∨ 2 ^ 52 ≤ base.toNat := by
    unfold dramBytes
    tauto
  change execArm 0 base seq s = _
  unfold execArm
  rw [command_conclude hacc, if_pos hbad']
  rfl

theorem disarm_done : exec (.disarm 0 seq) s =
    .next ({ s.tierSub seq 3 none with pkg := { s.pkg with tier := none } }.endCmd 0 0x1300 1) := by
  change execDisarm 0 seq s = _
  unfold execDisarm
  rw [command_conclude hacc]
  rfl

/-- A machine that is up starts a checkpoint through its command block, where a tier is armed. -/
theorem startCheckpoint_concludes : exec (.startCheckpoint 0 seq) s = .next ((s.tierSub seq 2 none).conclude 0 0x1300
    (match s.pkg.tier with
      | none => .refused
      | some _ => .later ({ s.tierSub seq 2 none with pkg := { s.pkg with checkpoint := true } }.unpark (fun _ => true)))) := by
  obtain ⟨hup, -⟩ := id hacc
  have hlive : (!s.pkg.viral || s.pkg.powerOff) = true := by
    cases hv : s.pkg.viral
    · rfl
    · rw [up_of_viral hv] at hup
      cases hup
  exact (if_pos hlive).trans (congrArg _ (command_conclude hacc _ _))

theorem startCheckpoint_started {b : Word} (ht : s.pkg.tier = some b) : exec (.startCheckpoint 0 seq) s =
    .next ({ s.tierSub seq 2 none with pkg := { s.pkg with checkpoint := true } }.unpark (fun _ => true)) := by
  rw [startCheckpoint_concludes hacc, ht]
  rfl

theorem startCheckpoint_refused (ht : s.pkg.tier = none) : exec (.startCheckpoint 0 seq) s =
    .next ((s.tierSub seq 2 none).endCmd 0 0x1300 2) := by
  rw [startCheckpoint_concludes hacc, ht]
  rfl

end

section
variable {s : State} {base : Word} (ht : s.pkg.tier = some base)
include ht

theorem checkpointComplete_done (hpower : s.pkg.powerOff = false) (hreset : s.pkg.inReset = false) (hcp : s.pkg.checkpoint = true)
    (hrest : s.pkg.viral = true ∨ s.atRest = true) : exec .checkpointComplete s =
      .next ({ s.copyOut base.toNat with pkg := { s.pkg with checkpoint := false } }.endCmd 0 0x1300 1) := by
  have hdone : (!s.pkg.checkpoint || !(s.pkg.viral || s.atRest) || s.pkg.powerOff || s.pkg.inReset) = false := by
    rcases hrest with h | h <;> simp [hcp, hpower, hreset, h]
  change execCheckpointComplete s = _
  unfold execCheckpointComplete
  rw [ht]
  exact if_neg (Bool.eq_false_iff.mp hdone)

theorem checkpointComplete_waits (hviral : s.pkg.viral = false) (hmoves : s.atRest = false) : exec .checkpointComplete s = .next s := by
  change execCheckpointComplete s = _
  unfold execCheckpointComplete
  rw [ht]
  exact if_pos (by simp [hviral, hmoves])

end

/-! ### Firmware, power and clock (R325, R327) -/

/-- While slot A is active, an update writes slot B, which becomes active if it passes the check. -/
theorem update_writesB {p : Package} (ha : p.activeB = false) (f : Firmware) :
    (let q := if p.activeB then { p with fwA := f } else { p with fwB := f }
     if p.firmwareOk f then { q with activeB := !p.activeB } else q) = { p with fwB := f, activeB := p.firmwareOk f } := by
  cases p
  cases ha
  dsimp only
  cases Package.firmwareOk _ f <;> rfl

theorem firmwareUpdate_writesB {s : State} (image : List Byte) {version : Nat} (sig : BitVec 768) (hv : version < 2 ^ 64)
    (ha : s.pkg.activeB = false) : exec (.firmwareUpdate image version sig) s = .next { s with
      pkg := { s.pkg with fwB := ⟨image, version, sig⟩, activeB := s.pkg.firmwareOk ⟨image, version, sig⟩ } } := by
  change execFirmwareUpdate image version sig s = _
  unfold execFirmwareUpdate
  rw [Nat.mod_eq_of_lt hv]
  exact congrArg (fun p => Host.Outcome.next { s with pkg := p }) (update_writesB ha ⟨image, version, sig⟩)

theorem clockStep_moves {s : State} {n : Nat} (hn : n % 100 = 0) (hlo : 800 ≤ n) (hhi : n ≤ 1600)
    (hstep : n = s.time.mhz + 100 ∨ n + 100 = s.time.mhz) : exec (.clockStep n) s = .next { s with time := s.time.clock n } :=
  if_pos ⟨hn, hlo, hhi, hstep⟩

/-! ### Reset and boot (R326) -/

/-- The machine after a reset has no DRAM contents. -/
theorem afterReset_memByte (s : State) {a : Nat} (ha : a < 2 ^ 39) : memByte s.afterReset.mem a = 0 := by
  refine memByte_filter_none s.mem _ a fun v => ?_
  have hlow : ¬ dramBytes ≤ a := by unfold dramBytes; omega
  simp [hostOwned, hlow]

theorem exec_resetBoot (s : State) : exec .resetBoot s = .next (s.boot s.pkg.untrained) := rfl

theorem boot_fails {s : State} (hnone : s.pkg.kept.bootSlot = none) (failed : BitVec 8) :
    s.boot failed = { s.afterReset with out := .bootFailed } := by
  unfold State.boot
  dsimp only
  rw [show s.afterReset.pkg.bootSlot = none from hnone]

/-- A link after a boot has begun its training. -/
theorem bootLinks_training {s : State} (hl : s.links = (List.range 12).map (fun n => (n, Link.reset.train))) {n : Nat} (hn : n < 12) :
    (s.link n).st = .training := by
  unfold State.link Tab.getD
  rw [hl, find_links n hn]
  rfl

/-- Settles O60: registers, CXL.mem and the checkpoint of the host port; then what the package does of itself. -/
theorem hostAndPackage : Obligations.HostAndPackage := by
  unfold Obligations.HostAndPackage
  refine ⟨⟨?registers, ?counters, ?cxl, ?commands, ?complete⟩, ?viral, ?trips, ?resets, ?firmware, ?power, ?identity⟩
  case registers =>
    intro s v hup
    refine ⟨registerWrite_hyper hup v rfl (by decide) rfl, fun page hlo hhi => ?_,
      fun page off k hpage hoff hlo hhi => blockWrite_keeps s page off k v hup hpage hoff hlo hhi,
      fun page off k hpage hoff hk => hostRead_block s page off k hpage hoff hk, fun page hpage h17 => hostRead_config s page hpage h17⟩
    exact ⟨registerWrite_ringBase hup v hlo hhi, registerWrite_ringLog hup v hlo hhi, cons_consumes hup hlo hhi,
      hostRead_base s page hlo hhi, hostRead_prod s page hlo hhi⟩
  case counters => exact fun s n hpower hreset => ⟨errcnt_clears hpower hreset, retrain_clears hpower hreset⟩
  case cxl =>
    intro s hpa n bytes hpower hreset hlocks
    refine ⟨fun hne hblock hdram hwin hcp => ?_, fun hne hblock hdram hwin => ?_⟩
    · exact cxlAccess_free hpower hreset rfl (by simpa using hne) hblock hdram hwin hlocks (fun _ => hcp)
    · have hread := cxlAccess_free (bytes := bytes) (write := false) hpower hreset rfl hne hblock hdram hwin hlocks
        (fun h => absurd h Bool.false_ne_true)
      rw [if_neg Bool.false_ne_true] at hread
      refine ⟨fun hbad => hread.trans (congrArg _ (if_pos ?_)), fun hviral hgood => hread.trans (congrArg _ (if_neg ?_))⟩
      · rcases hbad with h | h
        · simp [h]
        · simp [Option.isSome_iff_ne_none, h]
      · simp [hviral, hgood]
  case commands =>
    exact fun s base seq hacc => ⟨arm_done hacc, arm_refused hacc, disarm_done hacc, fun b => startCheckpoint_started hacc,
      startCheckpoint_refused hacc⟩
  case complete =>
    exact fun s base ht hpower hreset hcp => ⟨checkpointComplete_done ht hpower hreset hcp, checkpointComplete_waits ht⟩
  case viral => exact fun s hpower hreset hviral => ⟨_, exec_viralState hpower hreset, enterViral_spec s hviral⟩
  case trips =>
    intro s
    obtain ⟨hviral, hpower, hmem⟩ := trip_spec s
    exact ⟨_, _, rfl, rfl, hviral, hpower, hviral, hpower, hmem, hmem⟩
  case resets =>
    intro s
    refine ⟨⟨_, rfl, rfl, rfl, rfl, rfl, rfl, rfl, rfl, fun a => afterReset_memByte s⟩, fun f hf => ?_, fun hnone => ?_⟩
    · obtain ⟨fr, fm, sp, lo, hi, g, hlo, hhi, hboot⟩ := boot_spec s s.pkg.untrained f hf
      exact ⟨_, (exec_resetBoot s).trans (congrArg Host.Outcome.next hboot), rfl, rfl, rfl, rfl, rfl, rfl, rfl, rfl, rfl, rfl, hlo, hhi,
        fun n => bootLinks_training rfl, fun a => afterReset_memByte s⟩
    · exact ⟨_, (exec_resetBoot s).trans (congrArg Host.Outcome.next (boot_fails hnone s.pkg.untrained)), rfl, rfl, rfl⟩
  case firmware => exact fun s image version sig hv ha => firmwareUpdate_writesB image sig hv ha
  case power =>
    exact fun s n => ⟨fun hlo hhi => if_pos ⟨hlo, hhi⟩, fun hn hlo hhi hstep => ⟨_, clockStep_moves hn hlo hhi hstep, rfl, rfl⟩,
      fun hout => if_neg (by omega), fun hout => if_neg (by omega)⟩
  case identity =>
    intro s nonce hpower hreset
    have hattests : ¬ (!s.attests) = true := by simp [State.attests, hpower, hreset]
    exact ⟨if_neg hattests, if_neg hattests⟩

end Sys2Proof.Machine

/-! PROOFS. The return from the shim, the driver's reply, regions and signatures (R300, R301, R303 to R307): O54, O55 and O56. -/

namespace Sys2Proof.Machine

/-! ### The return from the shim (R300) -/

theorem setCourse_found (s : State) (cid : Nat) (c : Course) : (s.setCourse cid c).courses.find cid = some c := Tab.find_put_same ..

theorem complete_mem (s : State) (env : Env) (e : Entry) (x : Args) (a : Adv) : (s.complete env e x a).mem = s.mem := by
  rw [complete_frame]

section
variable (s : State) (c : Course) (p : Nat) (q : Path)

/-- A path that is retried stands at the resumption point of its record. -/
theorem resumed_retry : s.resumed c p q false = { q with ovl := bits (s.recWord c p 15) 16 16, idx := bits (s.recWord c p 15) 0 16 } :=
  if_pos (by simp)

/-- Going past an instruction moves a path to the next index, and may end its run. -/
theorem pastInstr_frame : s.pastInstr c q = { q with idx := q.idx + 1, run := (s.pastInstr c q).run } := by
  unfold State.pastInstr
  split <;> rfl

/-- A path that goes on stands past the instruction of its record, unless its trap was deferred or names none. -/
theorem resumed_after : ∃ run, s.resumed c p q true = { q with
    ovl := bits (s.recWord c p 15) 16 16
    idx := bits (s.recWord c p 15) 0 16 + (if nbit (s.recWord c p 15) 63 ∨ (s.recTrap c p).moved then 0 else 1)
    run := run } := by
  unfold State.resumed
  dsimp only
  by_cases hstay : nbit (s.recWord c p 15) 63 = true ∨ (s.recTrap c p).moved = true
  · rw [if_pos (by simpa using hstay), if_pos hstay]
    exact ⟨q.run, rfl⟩
  · rw [if_neg (by simpa using hstay), if_neg hstay, pastInstr_frame]
    exact ⟨_, rfl⟩

/-- Either way the path keeps its shim and its region depth. -/
theorem resumed_keeps (after : Bool) : (s.resumed c p q after).shim = q.shim ∧ (s.resumed c p q after).d = q.d := by
  cases after
  · rw [resumed_retry]
    exact ⟨rfl, rfl⟩
  · obtain ⟨run, hrun⟩ := resumed_after s c p q
    rw [hrun]
    exact ⟨rfl, rfl⟩

end

section
variable {s : State} {env : Env} {x : Args} (hr : Ready s env Enc.trapret x)

/-- Leaving the shim takes no issue slot along, and its signature stays. -/
abbrev Adv.away : Adv := { gone := true, sig := false }

include hr

theorem trapret_outside (hshim : env.pa.shim = none) : exec (.trapret x) s = .next (s.tick.trapHere env (Trap.illegal Sub.field)) := by
  change execTrapret x s = _
  exact issue_trap hr (if_pos (by rw [hshim]; rfl))

variable (hshim : env.pa.shim.isNone = false) (hact : env.acting x ≠ 0)
include hshim hact

theorem trapret_stops (hstop : x.a.ctl = 2 ∨ (x.a.ctl = 0 ∧ s.hopeless (s.recTrap env.co env.p) = true)) : exec (.trapret x) s =
    .next (((s.tick.leaveShim env.cid env.p false).stopForDriver env.cid env.p (s.recTrap env.co env.p)).complete env Enc.trapret x .away) := by
  change execTrapret x s = _
  exact issue_done hr ((if_neg (by rw [hshim]; decide)).trans ((if_neg hact).trans (if_pos hstop)))

theorem trapret_leaves (hgo : x.a.ctl = 1 ∨ (x.a.ctl = 0 ∧ s.hopeless (s.recTrap env.co env.p) = false)) :
    exec (.trapret x) s = .next (((s.tick.leaveShim env.cid env.p (x.a.ctl = 1)).modCourse env.cid (fun c => c.modPath env.p (fun q =>
      { q with wait := if x.a.ctl = 0 then s.retryWait (s.recTrap env.co env.p) else .wflush }))).complete env Enc.trapret x .away) := by
  have hstays : ¬ (x.a.ctl = 2 ∨ (x.a.ctl = 0 ∧ s.hopeless (s.recTrap env.co env.p) = true)) := by
    rcases hgo with h1 | ⟨h0, hmeets⟩
    · simp [h1]
    · simp [h0, hmeets]
  change execTrapret x s = _
  exact issue_done hr ((if_neg (by rw [hshim]; decide)).trans ((if_neg hact).trans (if_neg hstays)))

end

/-- Settles O54: outside the shim, a return that stops, and one after which the path goes on. -/
theorem trapretReturns : Obligations.TrapretReturns := by
  unfold Obligations.TrapretReturns
  intro s env x hr
  refine ⟨trapret_outside hr, fun hshim hact hstop => trapret_stops hr (Option.isNone_eq_false_iff.mpr (Option.isSome_iff_ne_none.mpr hshim)) hact hstop,
    fun h hshim hact hgo => ?_⟩
  have hexec := trapret_leaves hr (by rw [hshim]; rfl) hact hgo
  obtain ⟨c, hleave, hpaths, hheld, hkept, hsig, hc, hx, hk⟩ := leaveShim_spec (s := s.tick) (x.a.ctl = 1) hr.course hr.path hshim
  generalize hback : s.tick.resumed env.co env.p _ (decide (x.a.ctl = 1)) = q at hpaths
  have hpath : c.paths.find env.p = some q := by rw [hpaths]; exact Tab.find_put_same ..
  obtain ⟨hout, hdepth⟩ := hback ▸ resumed_keeps s.tick env.co env.p _ (decide (x.a.ctl = 1))
  rw [hleave, modPath_wait _ hpath] at hexec
  generalize hwait : (if x.a.ctl = 0 then s.retryWait (s.recTrap env.co env.p) else .wflush) = w at hexec
  obtain ⟨d, hd, hq, hframe⟩ := complete_gone Enc.trapret x .away
    (setCourse_found (s.tick.setCourse env.cid c) env.cid { c with paths := c.paths.put env.p { q with wait := w } })
    (Tab.find_put_same ..) rfl
  rw [sigAfter_off _ _ _ _ _ _ rfl] at hframe
  have hscal : d.scal = c.scal := by rw [hframe]
  refine ⟨_, d, _, hexec, ⟨hd, hq⟩, complete_mem .., fun i hi => scalar_via c (hheld i hi) hscal,
    fun n hn => scalar_via c (hkept n hn) hscal, ?sig, ?c, ?x, ?k, hout, hdepth, fun h0 => ?retried, fun h1 => ?after⟩
  case sig => rw [hframe]; exact hsig
  case c => rw [hframe]; exact hc
  case x => rw [hframe]; exact hx
  case k => rw [hframe]; exact hk
  case retried =>
    rw [h0, decide_eq_false (by decide), resumed_retry] at hback
    subst hback hwait
    exact ⟨rfl, rfl, rfl, if_pos h0⟩
  case after =>
    obtain ⟨run, hrun⟩ := resumed_after s.tick env.co env.p { env.pa with d := h.d, run := h.run, ent := h.ent, shim := none }
    rw [decide_eq_true h1] at hback
    subst hwait
    have hpast := hback.symm.trans hrun
    exact ⟨if_neg (by rw [h1]; decide), congrArg Path.ovl hpast, congrArg Path.idx hpast⟩

/-! ### The driver's reply (R301) -/

section
variable {s : State} {part ctx core k p cid : Nat} {c : Course} {q : Path}

/-- The trap that the driver answers: inside the shim it is the one that its words describe. -/
def State.answered (s : State) (p : Nat) (c : Course) (q : Path) : Trap :=
  if q.shim.isSome then { s.recTrap c p with cls := BitVec.ofNat 8 (bits (s.recWord c p 12) 56 8) } else s.recTrap c p

/-- The state once the driver's changes in memory have been read again. -/
def State.reseen (s : State) (cid p : Nat) (c : Course) (q : Path) : State :=
  let r := s.reread c q (s.answered p c q)
  s.setCourse cid { r.1 with paths := r.1.paths.put p r.2 }

/-- With ACTION 0 or 1 the path goes on. -/
theorem takeAction_goesOn (h : bits (s.recWord c p 3) 60 2 = 0 ∨ bits (s.recWord c p 3) 60 2 = 1) :
    s.takeAction cid p c q = (s.reseen cid p c q).setPath cid p ((s.reseen cid p c q).replied (s.reread c q (s.answered p c q)).1 p
      (s.reread c q (s.answered p c q)).2 (bits (s.recWord c p 3) 60 2 = 1)) := if_pos h

/-- With ACTION 3 the context ends. -/
theorem takeAction_ends {x : Context} (h : bits (s.recWord c p 3) 60 2 = 3) (hx : (s.reseen cid p c q).ctxs.find c.ctx = some x) :
    s.takeAction cid p c q =
      { s.reseen cid p c q with ctxs := (s.reseen cid p c q).ctxs.put c.ctx { x with st := .ending } }.takeOff c.ctx false := by
  have hgoes : ¬ (bits (s.recWord c p 3) 60 2 = 0 ∨ bits (s.recWord c p 3) 60 2 = 1) := by omega
  refine (if_neg hgoes).trans ((if_neg fun hshim => ?_).trans ?_)
  · obtain ⟨h2, -⟩ := hshim
    omega
  · unfold State.reseen State.answered at hx ⊢
    dsimp only at hx ⊢
    rw [hx]

variable (hup : s.up = true) (hres : s.resumable part ctx core k p = some (cid, c, q))
include hup hres

/-- A doorbell for a course whose state stands on the device carries out the driver's ACTION. -/
theorem resume_here (hc : s.courses.find cid = some c) (hs : c.saved = false) : exec (.resume (part + 1) ctx core k p) s =
    .next ((if bits (s.recWord c p 3) 60 2 = 2 then s.shimRecord c p else s).takeAction cid p c q) := by
  have hopen : ¬ (part + 1 = 0 ∨ (!s.up) = true) := by simp [hup]
  change execResume (part + 1) ctx core k p s = _
  unfold execResume
  rw [if_neg hopen, Nat.add_sub_cancel, hres]
  dsimp only
  rw [hs, Bool.false_and, if_neg Bool.false_ne_true, inRecord_here hc hs, hc]
  dsimp only
  rw [resumable_path hres, Option.getD_some]

/-- A course whose state stands in its record is read from it, and its state goes back there; the driver is told if the record cannot
be written. -/
theorem resume_saved (hs : c.saved = true) : exec (.resume (part + 1) ctx core k p) s = .next (
    if (s.recordAt c 0 true).isNone then s.tellSave cid
    else s.inRecord cid (fun u => match u.courses.find cid with
      | none => u
      | some b => (if bits (u.recWord b p 3) 60 2 = 2 then u.shimRecord b p else u).takeAction cid p b ((b.paths.find p).getD q))) := by
  have hopen : ¬ (part + 1 = 0 ∨ (!s.up) = true) := by simp [hup]
  change execResume (part + 1) ctx core k p s = _
  unfold execResume
  rw [if_neg hopen, Nat.add_sub_cancel, hres]
  dsimp only
  rw [hs, Bool.true_and]
  exact (apply_ite Host.Outcome.next _ _ _).symm

end

/-- Settles O55: what a doorbell does to a course on the device, by its ACTION, and to a course in its record. -/
theorem resumeDoorbell : Obligations.ResumeDoorbell := by
  unfold Obligations.ResumeDoorbell
  intro s part ctx core k p cid c q hup hc hres action tr cause r t
  refine ⟨fun hs hgo => ?_, fun x hs h3 hx => ?_, fun hs h2 => ?_, fun hs hbad => ?_, fun hs hgood => ?_⟩
  · have h2 : ¬ bits (s.recWord c p 3) 60 2 = 2 := by
      rcases hgo with h | h <;> exact fun h2 => absurd (h.symm.trans h2) (by decide)
    rw [resume_here hup hres hc hs, if_neg h2, takeAction_goesOn hgo]
    rfl
  · have h2 : ¬ bits (s.recWord c p 3) 60 2 = 2 := fun h2 => absurd (h3.symm.trans h2) (by decide)
    rw [resume_here hup hres hc hs, if_neg h2, takeAction_ends h3 hx]
    rfl
  · exact (resume_here hup hres hc hs).trans (congrArg (fun u : State => Host.Outcome.next (u.takeAction cid p c q)) (if_pos h2))
  · exact (resume_saved hup hres hs).trans (congrArg _ (if_pos hbad))
  · exact (resume_saved hup hres hs).trans (congrArg _ (if_neg (Option.isNone_eq_false_iff.mpr hgood ▸ Bool.false_ne_true)))

/-! ### Regions and signatures (R303, R304, R306, R307) -/

section
variable {s : State} {env : Env} {x : Args}

/-- The course with a region opened at the instruction after the path's own. -/
def Course.opened (c : Course) (q : Path) : Course :=
  { c with
    regpc := BitVec.ofNat 32 (q.ovl * 65536 + (q.idx + 1) % 65536), sig := 0,
    region := { depth := q.depth, lwb := q.lwb, fmask := q.fmask, d := q.d, prio := q.prio, acc := c.acc, xseq := c.xseq, restarts := 0 } }

theorem region_opens (hr : Ready s env Enc.region x) (hact : env.acting x ≠ 0) (hone : env.co.single = true)
    (hmask : (maskOf (fun l => cOf env.co.c l != 0) &&& env.pa.fmask != 0) = false) :
    exec (.region x) s = .next ((s.tick.setCourse env.cid (env.co.opened env.pa)).complete env Enc.region x { sig := false }) := by
  rw [← modCourse_found (fun c => c.opened env.pa) (ready_tick hr)]
  change execRegion x s = _
  exact issue_done hr ((if_neg hact).trans (if_neg (by rw [hone, hmask]; decide)))

theorem region_refused (hr : Ready s env Enc.region x) (hact : env.acting x ≠ 0)
    (hbad : env.co.single = false ∨ (maskOf (fun l => cOf env.co.c l != 0) &&& env.pa.fmask != 0) = true) :
    exec (.region x) s = .next (s.tick.trapHere env (Trap.illegal Sub.field)) := by
  change execRegion x s = _
  exact issue_trap hr ((if_neg hact).trans (if_pos (by rcases hbad with h | h <;> rw [h] <;> simp)))

variable (hr : Ready s env Enc.sigchk x) (hact : env.acting x ≠ 0) (hone : env.co.single = true) (hshim : env.pa.shim = none)
include hact hone hshim

/-- Nothing keeps the signature from being checked. -/
theorem sigchk_checks : ¬ (env.acting x = 0 ∨ (!env.co.single) = true ∨ env.pa.shim.isSome = true) := by
  rintro (h | h | h)
  · exact hact h
  · rw [hone] at h
    cases h
  · rw [hshim] at h
    cases h

include hr

theorem sigchk_clears (heq : env.co.sig.toNat = x.joined) :
    exec (.sigchk x) s = .next ((s.tick.setCourse env.cid { env.co with sig := 0 }).complete env Enc.sigchk x { sig := false }) := by
  rw [← modCourse_found (fun c => { c with sig := 0 }) (ready_tick hr)]
  change execSigchk x s = _
  exact issue_done hr ((if_neg (sigchk_checks hact hone hshim)).trans (if_pos heq))

theorem sigchk_traps (hne : env.co.sig.toNat ≠ x.joined) :
    exec (.sigchk x) s = .next ((s.tick.mismatch env.co.core).trapHere env (Trap.sig 1 env.co.sig.toNat)) := by
  have hbody : (if env.acting x = 0 ∨ !env.co.single ∨ env.pa.shim.isSome then Res.ok s.tick
      else if env.co.sig.toNat = x.joined then .done (s.tick.modCourse env.cid (fun c => { c with sig := 0 })) { sig := false }
      else .refuse (s.tick.mismatch env.co.core) (Trap.sig 1 env.co.sig.toNat)) =
      .refuse (s.tick.mismatch env.co.core) (Trap.sig 1 env.co.sig.toNat) :=
    (if_neg (sigchk_checks hact hone hshim)).trans (if_neg hne)
  change execSigchk x s = _
  unfold execSigchk
  rw [issue_ready hr, hbody]

end

/-- A code address is its overlay and its index. -/
theorem codeAddress_split (a : BitVec 32) : (a.extractLsb' 16 16).toNat = a.toNat / 65536 ∧ (a.extractLsb' 0 16).toNat = a.toNat % 65536 := by
  have hlt := a.isLt
  rw [BitVec.extractLsb'_toNat, BitVec.extractLsb'_toNat, Nat.shiftRight_eq_div_pow, Nat.shiftRight_zero]
  omega

/-- Settles O56: what region and sigchk do, from the course they leave, and where a restarted course stands. -/
theorem regionsAndSignatures : Obligations.RegionsAndSignatures := by
  unfold Obligations.RegionsAndSignatures
  refine ⟨fun s env x hr hact hpaths hstack hclear => ?opens, fun s env x l hr hact hbad => ?refused,
    fun s env x hr hact hpaths hstack hshim => ?sigchk, fun c => ?restart⟩
  case opens =>
    have hexec := region_opens hr hact ((single_iff env.co).mpr ⟨hpaths, hstack⟩) ((region_mask env.co.c env.pa.fmask).mpr hclear)
    obtain ⟨-, d, hd, hframe⟩ := complete_course Enc.region x { sig := false } (setCourse_found s.tick env.cid (env.co.opened env.pa))
    rw [sigAfter_off _ _ _ _ _ _ rfl] at hframe
    exact ⟨_, d, hexec, hd, by rw [hframe]; rfl, by rw [hframe]; rfl, by rw [hframe]; rfl⟩
  case refused =>
    refine region_refused hr hact ?_
    by_cases hone : env.co.single = true
    · obtain ⟨hpaths, hstack⟩ := (single_iff env.co).mp hone
      refine .inr (Bool.eq_true_of_not_eq_false fun hclear => ?_)
      rcases hbad with h | h | ⟨hl, hf, hc⟩
      · exact h hpaths
      · exact h hstack
      · exact hc ((region_mask env.co.c env.pa.fmask).mp hclear l hl hf)
    · exact .inl (Bool.eq_false_iff.mpr hone)
  case sigchk =>
    have hone := (single_iff env.co).mpr ⟨hpaths, hstack⟩
    refine ⟨fun heq => ?_, sigchk_traps hr hact hone hshim⟩
    obtain ⟨-, d, hd, hframe⟩ := complete_course Enc.sigchk x { sig := false } (setCourse_found s.tick env.cid { env.co with sig := 0 })
    rw [sigAfter_off _ _ _ _ _ _ rfl] at hframe
    exact ⟨_, d, sigchk_clears hr hact hone hshim heq, hd, by rw [hframe]⟩
  case restart =>
    obtain ⟨hovl, hidx⟩ := codeAddress_split c.regpc
    refine ⟨rfl, rfl, rfl, rfl, rfl, rfl, rfl, rfl, rfl, fun l hl => ?_, rfl, rfl, _, rfl, hovl, hidx, rfl, rfl, rfl, rfl, rfl, rfl⟩
    refine (cOf_cMap c.c _ l hl).trans ?_
    have hlt := cOf_lt c.c l
    split <;> omega

end Sys2Proof.Machine

/-! PROOFS. Crews and barriers (R220 to R224, R227 to R231): O39 and O40. -/

namespace Sys2Proof.Machine

/-! ### Crew instructions (R222, R224) -/

section
variable {s : State} {env : Env} {x : Args}

/-- A crew operation starts on lanes whose entries can be written. -/
theorem crewOp_starts {l : List (Nat × Option Nat)} (h : s.crewCheck env.co l = none) :
    crewOp x l env s = .ok (s.addOp env x (.crew l false)) := by
  unfold crewOp
  rw [h]

/-- The acting lanes with the crews that crew.join names for them. -/
def Env.crewLanes (env : Env) (s : State) (x : Args) : List (Nat × Nat) :=
  (lanesOf (env.acting x)).map (fun l => (l, s.lane env x .n32 x.a l))

theorem crewJoin_starts (hr : Ready s env Enc.crewJoin x) (hgood : ∀ e ∈ env.crewLanes s x, e.2 < 0xFFFF)
    (hcheck : s.tick.crewCheck env.co ((env.crewLanes s x).map (fun e => (e.1, some e.2))) = none) :
    exec (.crewJoin x) s =
      .next ((s.tick.addOp env x (.crew ((env.crewLanes s x).map (fun e => (e.1, some e.2))) false)).complete env Enc.crewJoin x {}) := by
  have hnone : (env.crewLanes s.tick x).find? (fun e => decide (0xFFFF ≤ e.2)) = none :=
    List.find?_eq_none.mpr fun e he => by simpa using hgood e he
  change execCrewJoin x s = _
  refine issue_done hr (Eq.trans ?_ (crewOp_starts hcheck))
  unfold Env.crewLanes at hnone
  dsimp only
  rw [hnone]
  rfl

theorem crewJoin_refused (hr : Ready s env Enc.crewJoin x) {e : Nat × Nat}
    (hbad : (env.crewLanes s x).find? (fun e => decide (0xFFFF ≤ e.2)) = some e) :
    exec (.crewJoin x) s = .next (s.tick.trapHere env ((Trap.illegal Sub.field).onLane e.1)) := by
  replace hbad : (env.crewLanes s.tick x).find? (fun e => decide (0xFFFF ≤ e.2)) = some e := hbad
  change execCrewJoin x s = _
  refine issue_trap hr ?_
  unfold Env.crewLanes at hbad
  dsimp only
  rw [hbad]
  rfl

theorem crewLeave_starts (hr : Ready s env Enc.crewLeave x)
    (hcheck : s.tick.crewCheck env.co ((lanesOf (env.acting x)).map (fun l => (l, none))) = none) :
    exec (.crewLeave x) s =
      .next ((s.tick.addOp env x (.crew ((lanesOf (env.acting x)).map (fun l => (l, none))) false)).complete env Enc.crewLeave x {}) := by
  change execCrewLeave x s = _
  exact issue_done hr (crewOp_starts hcheck)

variable (hr : Ready s env Enc.crewInfo x) (hact : env.acting x ≠ 0)
include hr hact

/-- The word of an entry that crew.info reads: of the crew it names, or of the lowest acting lane's. -/
theorem crewInfo_reads {k : Nat} {e : CrewEnt} (hk : (env.val x .n32 x.a < 0xFFFF ∧ k = env.val x .n32 x.a) ∨
    (env.val x .n32 x.a = 0xFFFFFFFF ∧ env.co.crewRd.find (lowLane (env.acting x)) = some k))
    (he : s.tick.crewEnt env.co.core env.co.ctx k false = .ok e) : exec (.crewInfo x) s =
      .next ((s.tick.putScalar env x.d (bits e.pack (64 * x.b.ctl) 64)).complete env Enc.crewInfo x {}) := by
  have hopen : ¬ (0xFFFF ≤ env.val x .n32 x.a ∧ env.val x .n32 x.a < 0xFFFFFFFF) := by omega
  have hcrew : (if env.val x .n32 x.a = 0xFFFFFFFF then env.co.crewRd.find (lowLane (env.acting x)) else some (env.val x .n32 x.a)) = some k := by
    rcases hk with ⟨hlt, rfl⟩ | ⟨hall, hk⟩
    · exact if_neg (by omega)
    · rw [if_pos hall, hk]
  change execCrewInfo x s = _
  refine issue_done hr ((if_neg hact).trans ((if_neg hopen).trans ?_))
  rw [hcrew]
  dsimp only
  rw [he]
  rfl

theorem crewInfo_noCrew (hall : env.val x .n32 x.a = 0xFFFFFFFF) (hk : env.co.crewRd.find (lowLane (env.acting x)) = none) :
    exec (.crewInfo x) s = .next ((s.tick.putScalar env x.d 0).complete env Enc.crewInfo x {}) := by
  change execCrewInfo x s = _
  refine issue_done hr ((if_neg hact).trans ((if_neg (by omega)).trans ?_))
  rw [if_pos hall, hk]
  rfl

end

/-! ### A crew operation at the home (R221, R224) -/

section
variable {s : State} {op cid : Nat} {o : Op} {c : Course} {todo : List (Nat × Option Nat)} {told : Bool}

/-- The lanes of a crew operation, one by one. -/
def State.crewLanes (s : State) (cid : Nat) (todo : List (Nat × Option Nat)) : State :=
  todo.foldl (fun s e => match e.2 with
    | some k => s.crewJoin cid e.1 k
    | none => s.crewLeave cid e.1) s

variable (hop : s.ops.find op = some o) (hkind : o.kind = .crew todo told) (hcid : o.cid = some cid) (hc : s.courses.find cid = some c)
  (hfirst : (s.older cid op).any (fun e => e.isCrew) = false)
include hop hkind hcid hc hfirst

theorem crewEventApply_applies (hcheck : s.crewCheck c todo = none) :
    exec (.crewEventApply op) s = .next ((s.crewLanes cid todo).finishOp op) := by
  change execCrewEventApply op s = _
  unfold execCrewEventApply
  simp only [hop, hkind, hcid, hc, hfirst, hcheck, Option.bind_some, Option.getD_some, Bool.false_eq_true, if_false]
  rfl

theorem crewEventApply_waits {t : Trap} (hcheck : s.crewCheck c todo = some t) :
    exec (.crewEventApply op) s = .next (if told then s else (s.setOp op (.crew todo true)).notify (s.partOf c.ctx)
      { stamp := s.time.ns, ctx := c.ctx, src := courseSource c.core c.cslot o.path, cls := t.cls, sub := t.sub }) := by
  change execCrewEventApply op s = _
  unfold execCrewEventApply
  simp only [hop, hkind, hcid, hc, hfirst, hcheck, Option.bind_some, Option.getD_some, Bool.false_eq_true, if_false]
  exact (apply_ite Host.Outcome.next _ _ _).symm

end

/-! ### Joining a crew (R222) -/

/-- An entry is 32 bytes. -/
theorem CrewEnt.pack_lt (e : CrewEnt) : e.pack < 2 ^ 256 := by
  unfold CrewEnt.pack
  split <;> split <;> omega

/-- An entry as read is one that packing gives back. -/
theorem CrewEnt.ofNat_bounds (n : Nat) : (CrewEnt.ofNat n).gen < 2 ^ 32 ∧ (CrewEnt.ofNat n).hcount < 2 ^ 12 ∧ (CrewEnt.ofNat n).cores < 2 ^ 96 := by
  unfold CrewEnt.ofNat bits
  refine ⟨Nat.mod_lt _ (by decide), Nat.mod_lt _ (by decide), ?_⟩
  dsimp only
  omega

/-- The entry of a crew with one member more, on a core. -/
def CrewEnt.joined (e : CrewEnt) (core : Nat) : CrewEnt :=
  { e with live := true, members := e.members + 1, cores := setBits e.cores core 1 1 }

/-- A course is still there after a store. -/
theorem pokeNat_course {s : State} {cid : Nat} {c : Course} (hc : s.courses.find cid = some c) (pa n v : Nat) :
    ∃ d, (s.pokeNat pa n v).courses.find cid = some d :=
  let ⟨d, hd, _⟩ := (poke_untouched s pa (toLe n v)).1 cid c hc
  ⟨d, hd⟩

section
variable {s : State} {cid l k pa : Nat} {c : Course} (hc : s.courses.find cid = some c) (hnew : c.crew.find l = none)
  (hcount : c.reclaimed = none ∨ c.borrowed = false ∨ c.hm.contains k = true) (hpa : s.crewAt c.core c.ctx k true = .ok pa)
include hc hnew hcount hpa

/-- A lane in no crew that joins one changes the entry and its own membership. -/
theorem crewJoin_eq : s.crewJoin cid l k =
    (s.pokeNat pa 32 ((CrewEnt.ofNat (s.peekNat pa 32)).joined c.core).pack).modCourse cid (fun c => { c with crew := c.crew.put l k }) := by
  have halted : ¬ (c.reclaimed.isSome && c.borrowed && !c.hm.contains k) = true := by
    rcases hcount with h | h | h <;> rw [h] <;> simp
  unfold State.crewJoin
  simp only [hc, crewLeave_none hc hnew, hnew, reduceCtorEq, if_false, if_neg halted]
  unfold State.modCrew
  rw [hpa]
  rfl

theorem crewJoin_member : ∃ d, (s.crewJoin cid l k).courses.find cid = some d ∧ d.crew.find l = some k := by
  obtain ⟨d, hd⟩ := pokeNat_course hc pa 32 ((CrewEnt.ofNat (s.peekNat pa 32)).joined c.core).pack
  refine ⟨{ d with crew := d.crew.put l k }, ?_, Tab.find_put_same ..⟩
  rw [crewJoin_eq hc hnew hcount hpa, modCourse_found _ hd]
  exact setCourse_found ..

theorem crewJoin_entry (hmap : s.pkg.frameMap = []) (hcore : c.core < 96) (hmem : s.memOk)
    (hfull : (CrewEnt.ofNat (s.peekNat pa 32)).members + 1 < 2 ^ 18) :
    CrewEnt.ofNat ((s.crewJoin cid l k).peekNat pa 32) = (CrewEnt.ofNat (s.peekNat pa 32)).joined c.core := by
  obtain ⟨hgen, hhalted, hcores⟩ := CrewEnt.ofNat_bounds (s.peekNat pa 32)
  obtain ⟨d, hd⟩ := pokeNat_course hc pa 32 ((CrewEnt.ofNat (s.peekNat pa 32)).joined c.core).pack
  rw [crewJoin_eq hc hnew hcount hpa, modCourse_found _ hd]
  refine (congrArg CrewEnt.ofNat ((peekNat_pokeNat s hmem hmap pa 32 _).trans (Nat.mod_eq_of_lt (CrewEnt.pack_lt _)))).trans ?_
  exact crew_round _ hgen hfull hhalted (setBits_lt _ _ _ hcores hcore)

end

/-- Settles O39: the three instructions, an operation at the home, the entry's 32 bytes, and a lane that joins. -/
theorem crewInstructions : Obligations.CrewInstructions := by
  unfold Obligations.CrewInstructions
  refine ⟨⟨fun s env x hr => ⟨crewJoin_starts hr, fun e => crewJoin_refused hr⟩, fun s env x hr => crewLeave_starts hr,
    fun s env x hr hact => ⟨fun k hk hent => ?_, crewInfo_noCrew hr hact⟩,
    fun s op cid o c todo told hop hkind hcid hc hfirst => ⟨crewEventApply_applies hop hkind hcid hc hfirst,
      fun t => crewEventApply_waits hop hkind hcid hc hfirst⟩⟩, crew_round, ?join⟩
  · obtain ⟨e, he⟩ := isOk_ok hent
    exact ⟨e, he, crewInfo_reads hr hact hk he⟩
  case join =>
    intro s cid l k pa c hc hnew hmap hcount hpa hcore hmem e t hfull
    exact ⟨crewJoin_member hc hnew hcount hpa, crewJoin_entry hc hnew hcount hpa hmap hcore hmem hfull⟩

/-! ### Barrier instructions (R227, R230) -/

section
variable {s : State} {env : Env} {x : Args} {b : Nat}

theorem barrier_granted (h : s.barGranted env.co.ctx (env.val x .n32 x.a) = true) : env.barrier x s = some (env.val x .n32 x.a) := if_pos h

theorem barrier_refused (h : s.barGranted env.co.ctx (env.val x .n32 x.a) = false) : env.barrier x s = none := if_neg (by simp [h])

/-- An arrival on a barrier that is bound to the context. -/
theorem arriveOp_starts {r : Barrier} (hact : env.acting x ≠ 0) (mode : Nat) (hgrant : env.barrier x s = some b)
    (hown : s.ownBar env.co.ctx (barKey env.co.core b) = some r) :
    arriveOp x mode env s = .ok (s.addOp env x (.arrive b mode (lanesOf (env.acting x)))) := by
  unfold arriveOp
  simp only [lanes_ne hact, hgrant, hown, Bool.false_eq_true, if_false]

theorem arriveOp_refused (hact : env.acting x ≠ 0) (mode : Nat) (hgrant : env.barrier x s = none) :
    arriveOp x mode env s = .trap Trap.field := by
  unfold arriveOp
  simp only [lanes_ne hact, hgrant, Bool.false_eq_true, if_false]

variable (hact : env.acting x ≠ 0)
include hact

theorem barBind_starts (hr : Ready s env Enc.barBind x) (hgrant : env.barrier x s.tick = some b) (hlo : 1 ≤ env.val x .n32 x.b)
    (hhi : env.val x .n32 x.b ≤ if b < 16 then 2048 else 196608) : exec (.barBind x) s = .next ((s.tick.addOp env x
      (.barBind b (env.val x .n32 x.b) (BitVec.ofNat 6 x.d.num) (env.acting x))).complete env Enc.barBind x {}) := by
  have hcount : ¬ (env.val x .n32 x.b = 0 ∨ (if b < 16 then 2048 else 196608) < env.val x .n32 x.b) := by omega
  change execBarBind x s = _
  refine issue_done hr ((if_neg hact).trans ?_)
  simp only [hgrant, if_neg hcount]
  rfl

theorem barWait_waits (hr : Ready s env Enc.barWait x) (hgrant : env.barrier x s.tick = some b) :
    exec (.barWait x) s = .next (s.tick.complete env Enc.barWait x
      { wait := .bar b s.nextId (env.acting x) (match x.d with | .reg p => some p | _ => none) false }) := by
  change execBarWait x s = _
  refine issue_done hr ((if_neg hact).trans ?_)
  rw [hgrant]
  rfl

theorem barFree_starts (hr : Ready s env Enc.barFree x) (hgrant : env.barrier x s.tick = some b) :
    exec (.barFree x) s = .next ((s.tick.addOp env x (.barFree b)).complete env Enc.barFree x {}) := by
  change execBarFree x s = _
  refine issue_done hr ((if_neg hact).trans ?_)
  rw [hgrant]
  rfl

/-- A number that the partition does not grant. -/
theorem barInstructions_refused (hgrant : env.barrier x s.tick = none) :
    (Ready s env Enc.barBind x → exec (.barBind x) s = .next (s.tick.trapHere env Trap.field)) ∧
    (Ready s env Enc.barArrive x → exec (.barArrive x) s = .next (s.tick.trapHere env Trap.field)) ∧
    (Ready s env Enc.barWait x → exec (.barWait x) s = .next (s.tick.trapHere env Trap.field)) ∧
    (Ready s env Enc.barFree x → exec (.barFree x) s = .next (s.tick.trapHere env Trap.field)) := by
  refine ⟨fun hr => ?_, fun hr => issue_trap hr (arriveOp_refused hact 0 hgrant), fun hr => ?_, fun hr => ?_⟩
  · change execBarBind x s = _
    exact issue_trap hr ((if_neg hact).trans (by rw [hgrant]))
  · change execBarWait x s = _
    exact issue_trap hr ((if_neg hact).trans (by rw [hgrant]))
  · change execBarFree x s = _
    exact issue_trap hr ((if_neg hact).trans (by rw [hgrant]))

end

/-! ### Arrivals and the release of a phase (R228 to R231) -/

/-- The lanes of an arrival are applied once what comes before it on the barrier has reached the home. -/
theorem barArrivalApply_applies {s : State} {op cid b mode : Nat} {o : Op} {c : Course} {todo : List Nat} (hop : s.ops.find op = some o)
    (hkind : o.kind = .arrive b mode todo) (hcid : o.cid = some cid) (hc : s.courses.find cid = some c)
    (hhome : s.reachedHome cid c op b = true) (hexit : mode ≠ 3) (hdrained : mode = 1 ∨ s.drained cid op = true) :
    let t := s.arriveAll op cid b mode ((s.olderArrivals cid op b).flatMap (·.2)) [] todo
    exec (.barArrivalApply op) s = .next (if t.arrived op then t.finishOp op else t) := by
  have hgo : (!s.reachedHome cid c op b || ((decide (mode = 0) || decide (mode = 2)) && !s.drained cid op)) = false := by
    rcases hdrained with h | h <;> simp [hhome, h]
  change execBarArrivalApply op s = _
  unfold execBarArrivalApply
  simp only [hop, hkind, hcid, hc, hgo, hexit, Option.bind_some, Option.getD_some, Bool.false_eq_true, if_false]
  exact (apply_ite Host.Outcome.next _ _ _).symm

section
variable {s : State} {ctx key : Nat} {r : Barrier} (hown : s.ownBar ctx key = some r)
include hown

/-- A barrier of the context that is set again is the context's still. -/
theorem ownBar_set {t : State} {q : Barrier} (ht : t.barriers.find key = some q) (hbound : q.bound = r.bound) (hctx : q.ctx = r.ctx) :
    t.ownBar ctx key = some q :=
  ownBar_put ht (by rw [hbound, hctx]; exact (ownBar_spec hown).2)

/-- An arrival that is not the last lowers PENDING alone. -/
theorem countDown_early (h : 1 < r.pending) :
    (s.countDown ctx key).ownBar ctx key = some { r with pending := r.pending - 1 } ∧ (s.countDown ctx key).courses = s.courses := by
  have heq : s.countDown ctx key = { s with barriers := s.barriers.put key { r with pending := r.pending - 1 } } := by
    unfold State.countDown
    simp only [hown, if_neg (Nat.not_le.mpr h)]
  rw [heq]
  exact ⟨ownBar_set hown (Tab.find_put_same ..) rfl rfl, rfl⟩

/-- The release of a phase. -/
theorem releasePhase_releases : (s.releasePhase ctx key).ownBar ctx key = some { r with phase := r.phase + 1, pending := r.expect } ∧
    ∀ cid c, s.courses.find cid = some c → c.atBar ctx key = true → c.saved = false →
      ∃ d, (s.releasePhase ctx key).courses.find cid = some d ∧ d.barA.getD (barNumber key) 0 = 0 ∧ d.barE = c.barE := by
  unfold State.releasePhase
  simp only [hown]
  refine ⟨ownBar_set hown (Tab.find_put_same ..) rfl rfl, fun cid c hc hat hs => ?_⟩
  refine (barCourses_here _ (fun d => (d.barA.getD (barNumber key) 0 = 0 ∧ d.barE = c.barE) ∧ d.saved = false) hc hat hs
    ⟨⟨?_, ?_⟩, hs⟩ (fun d h => h.2) (fun d h => ⟨⟨?_, h.1.2⟩, h.2⟩) (fun d ps h => h)).imp fun d h => ⟨h.1, h.2.1⟩
  case refine_2 => rfl
  all_goals
    dsimp only
    rw [Tab.getD_set_same]

/-- The arrival that brings PENDING to 0 releases the phase. -/
theorem countDown_last (h : r.pending ≤ 1) :
    (s.countDown ctx key).ownBar ctx key = some { r with phase := r.phase + 1, pending := r.expect } ∧
    ∀ cid c, s.courses.find cid = some c → c.atBar ctx key = true → c.saved = false →
      ∃ d, (s.countDown ctx key).courses.find cid = some d ∧ d.barA.getD (barNumber key) 0 = 0 ∧ d.barE = c.barE := by
  have hlow : State.ownBar { s with barriers := s.barriers.put key { r with pending := r.pending - 1 } } ctx key =
      some { r with pending := r.pending - 1 } := ownBar_set hown (Tab.find_put_same ..) rfl rfl
  unfold State.countDown
  simp only [hown, if_pos h]
  have hnext := releasePhase_releases hlow
  exact hnext

end

theorem barReleaseWake_ready {s : State} {cid p t : Nat} {lanes ones : LaneMask} {d : Option (BitVec 6)} {q : Path} (hq : s.path cid p = some q)
    (hwait : q.wait = .barWake t lanes ones d) (hdue : t ≤ s.time.clk) :
    exec (.barReleaseWake cid p) s = .next (s.setPath cid p { q with wait := .barWake 0 lanes ones d }) := by
  change execBarReleaseWake cid p s = _
  unfold execBarReleaseWake
  simp only [hq, hwait, if_pos hdue]

/-- Settles O40: the instructions on a number that is granted and on one that is not, then what happens at the home. -/
theorem barrierInstructions : Obligations.BarrierInstructions := by
  unfold Obligations.BarrierInstructions
  refine ⟨fun s env x hact => ⟨fun hgrant => ?granted, fun hgrant => barInstructions_refused hact (barrier_refused hgrant)⟩,
    fun s op cid b mode o c todo => barArrivalApply_applies,
    fun s ctx key r hown => ⟨countDown_early hown, countDown_last hown⟩, fun s cid p t lanes ones d q => barReleaseWake_ready⟩
  have hbar : env.barrier x s.tick = some _ := barrier_granted hgrant
  exact ⟨fun hr hlo hhi => barBind_starts hact hr hbar hlo hhi,
    fun r hown => ⟨fun hr => issue_done hr (arriveOp_starts hact 0 hbar hown), fun hr => issue_done hr (arriveOp_starts hact 1 hbar hown),
      fun hr => issue_done hr (arriveOp_starts hact 2 hbar hown)⟩,
    fun hr => barWait_waits hact hr hbar, fun hr => barFree_starts hact hr hbar⟩

end Sys2Proof.Machine

/-! PROOFS. Gates (R287 to R294): O50 and O51. -/

namespace Sys2Proof.Machine

/-! ### Operations on another package's gate (R289) -/

section
variable {s : State} {env : Env} {x : Args} {pkg g name id : Nat} {o : GateOp} {p : Op} {k : Nat → Reply → State → Res}

theorem gateAway_unrouted (hoff : env.pa.offer = none) (hroute : s.routeTo pkg = none) :
    gateAway pkg g name o x env s k = .trap (Trap.gate 3 name) := by
  unfold gateAway
  rw [hoff]
  dsimp only
  rw [hroute]

theorem gateAway_sendsRead {n : Nat} (hoff : env.pa.offer = none) (hroute : s.routeTo pkg = some n) (hroom : s.replayRoom [n] = true) :
    gateAway pkg g name .rd x env s k = .stall (((s.send n pkg (.gate g (s.partOf env.co.ctx) .rd)).addOp env x
      (.gateRemote n (s.link n).nextSeq name .rd x.d none)).setPath env.cid env.p { env.pa with offer := some s.nextId }) := by
  unfold gateAway
  rw [hoff]
  dsimp only
  rw [hroute]
  exact if_neg (by rw [hroom]; decide)

variable (hoff : env.pa.offer = some id) (hop : s.ops.find id = some p)
include hoff hop

theorem gateAway_answered {n seq nm : Nat} {q : GateOp} {d : Opnd} {r : Reply} (hkind : p.kind = .gateRemote n seq nm q d (some r))
    (hok : r = .accept ∨ ∃ m, r = .gate m) : gateAway pkg g name o x env s k = k id r s := by
  unfold gateAway
  rw [hoff]
  dsimp only
  rw [hop]
  dsimp only
  rw [hkind]
  rcases hok with rfl | ⟨m, rfl⟩ <;> rfl

theorem gateAway_refused {n seq nm : Nat} {q : GateOp} {d : Opnd} {b : BitVec 8} (hkind : p.kind = .gateRemote n seq nm q d (some (.gateTrap b))) :
    gateAway pkg g name o x env s k = .refuse (s.withdraw env id) (Trap.gate b name) := by
  unfold gateAway
  rw [hoff]
  dsimp only
  rw [hop]
  dsimp only
  rw [hkind]

end

/-! ### The instructions (R289, R290, R292) -/

/-- VALUE that a reply to a gate.wait brings: none when the wait has a waiter record. -/
def gateAnswerValue (r : Reply) : Option Word :=
  match r with
  | .gate m => some m
  | _ => none

theorem issue_stall {s t : State} {env : Env} {e : Entry} {x : Args} {body : Env → State → Res} (h : Ready s env e x)
    (hb : body env s.tick = .stall t) : issue e x body s = .next { t with cur := none } := by
  rw [issue_ready h, hb]

theorem issue_refuse {s t : State} {env : Env} {e : Entry} {x : Args} {tr : Trap} {body : Env → State → Res} (h : Ready s env e x)
    (hb : body env s.tick = .refuse t tr) : issue e x body s = .next (t.trapHere env tr) := by
  rw [issue_ready h, hb]

section
variable {s : State} {env : Env} {x : Args} {pkg g name : Nat} (hact : env.acting x ≠ 0) (hname : env.gateName x s.tick = some (pkg, g, name))
include hact hname

/-- A signal on a gate whose access list gives the agent no right to it. -/
theorem gateSig_denied (hr : Ready s env Enc.gateSig x) (hlo : 1 ≤ env.n64 x x.b) (hhi : env.n64 x x.b < 2 ^ 32)
    (hdrained : s.tick.drained env.cid s.nextId = true) (hpkg : pkg = s.tick.pkg.pkgno) {b : BitVec 8}
    (hacl : (s.tick.refreshGate g).aclRow g pkg ((s.tick.refreshGate g).partOf env.co.ctx) 46 = .error b) :
    exec (.gateSig x) s = .next (s.tick.trapHere env (Trap.gate b name)) := by
  have hcount : ¬ (env.n64 x x.b = 0 ∨ 2 ^ 32 ≤ env.n64 x x.b) := by omega
  have hgo : ¬ (env.pa.offer.isNone && !s.tick.drained env.cid s.tick.nextId) = true := by
    rw [show s.tick.drained env.cid s.tick.nextId = true from hdrained]
    simp
  change execGateSig x s = _
  refine issue_trap hr ((if_neg hact).trans ?_)
  rw [hname]
  dsimp only
  rw [if_neg hcount, if_neg hgo, if_neg (not_not.mpr hpkg), hacl]

theorem gateSig_signals (hr : Ready s env Enc.gateSig x) (hlo : 1 ≤ env.n64 x x.b) (hhi : env.n64 x x.b < 2 ^ 32)
    (hdrained : s.tick.drained env.cid s.nextId = true) (hpkg : pkg = s.tick.pkg.pkgno) {t : Gate} {i : Nat}
    (hacl : (s.tick.refreshGate g).aclRow g pkg ((s.tick.refreshGate g).partOf env.co.ctx) 46 = .ok (t, i)) :
    let r := (s.tick.refreshGate g).signalAt g t i (BitVec.ofNat 64 (env.n64 x x.b)) (.op (s.tick.refreshGate g).nextId)
    exec (.gateSig x) s = .next ((r.1.addOp env x (if r.2 then .nothing else .gateSig g)).complete env Enc.gateSig x {}) := by
  have hcount : ¬ (env.n64 x x.b = 0 ∨ 2 ^ 32 ≤ env.n64 x x.b) := by omega
  have hgo : ¬ (env.pa.offer.isNone && !s.tick.drained env.cid s.tick.nextId) = true := by
    rw [show s.tick.drained env.cid s.tick.nextId = true from hdrained]
    simp
  change execGateSig x s = _
  refine issue_done hr ((if_neg hact).trans ?_)
  rw [hname]
  dsimp only
  rw [if_neg hcount, if_neg hgo, if_neg (not_not.mpr hpkg), hacl]
  rfl

theorem gateWait_denied (hr : Ready s env Enc.gateWait x) (hpkg : pkg = s.tick.pkg.pkgno) {b : BitVec 8}
    (hacl : s.tick.aclRow g pkg (s.tick.partOf env.co.ctx) 45 = .error b) : exec (.gateWait x) s = .next (s.tick.trapHere env (Trap.gate b name)) := by
  change execGateWait x s = _
  refine issue_trap hr ((if_neg hact).trans ?_)
  rw [hname]
  dsimp only
  rw [if_neg (not_not.mpr hpkg), hacl]

theorem gateWait_waits (hr : Ready s env Enc.gateWait x) (hpkg : pkg = s.tick.pkg.pkgno) {t : Gate} {i : Nat}
    (hacl : s.tick.aclRow g pkg (s.tick.partOf env.co.ctx) 45 = .ok (t, i)) (hroom : s.tick.waiterRoom g = true) :
    let away := s.partMoves t (s.partOf env.co.ctx)
    let v : Word := BitVec.ofNat 64 (env.n64 x x.b)
    exec (.gateWait x) s = .next ((s.tick.putGate g { t with nwait := t.nwait + 1, remote := if away then t.remote ++ [{ back := none, v := v, acl := t.mpart }] else t.remote }).complete env Enc.gateWait x
      { wait := .gate g v (match x.d with | .reg r => some r | _ => none) (if v ≤ t.value ∧ away = false then some t.value else none) }) := by
  change execGateWait x s = _
  refine issue_done hr ((if_neg hact).trans ?_)
  rw [hname]
  dsimp only
  rw [if_neg (not_not.mpr hpkg), hacl]
  dsimp only
  rw [if_neg (by rw [hroom]; decide)]
  simp only [Bool.not_eq_true']
  rfl

theorem gateRd_denied (hr : Ready s env Enc.gateRd x) (hpkg : pkg = s.tick.pkg.pkgno) {b : BitVec 8}
    (hacl : s.tick.aclRow g pkg (s.tick.partOf env.co.ctx) 44 = .error b) : exec (.gateRd x) s = .next (s.tick.trapHere env (Trap.gate b name)) := by
  change execGateRd x s = _
  refine issue_trap hr ((if_neg hact).trans ?_)
  rw [hname]
  dsimp only
  rw [if_neg (not_not.mpr hpkg), hacl]

theorem gateRd_reads (hr : Ready s env Enc.gateRd x) (hpkg : pkg = s.tick.pkg.pkgno) {t : Gate} {i : Nat}
    (hacl : s.tick.aclRow g pkg (s.tick.partOf env.co.ctx) 44 = .ok (t, i)) :
    exec (.gateRd x) s = .next ((s.tick.addOp env x (.land .n64 x.d [(64, t.value.toNat)])).complete env Enc.gateRd x {}) := by
  change execGateRd x s = _
  refine issue_done hr ((if_neg hact).trans ?_)
  rw [hname]
  dsimp only
  rw [if_neg (not_not.mpr hpkg), hacl]
  rfl

/-! A gate of another package. -/

theorem gateRd_unrouted (hr : Ready s env Enc.gateRd x) (hpkg : pkg ≠ s.pkg.pkgno) (hoff : env.pa.offer = none) (hroute : s.tick.routeTo pkg = none) :
    exec (.gateRd x) s = .next (s.tick.trapHere env (Trap.gate 3 name)) := by
  change execGateRd x s = _
  refine issue_trap hr ((if_neg hact).trans ?_)
  rw [hname]
  exact (if_pos hpkg).trans (gateAway_unrouted hoff hroute)

theorem gateRd_sends (hr : Ready s env Enc.gateRd x) (hpkg : pkg ≠ s.pkg.pkgno) (hoff : env.pa.offer = none) {n : Nat} (hroute : s.tick.routeTo pkg = some n)
    (hroom : s.tick.replayRoom [n] = true) :
    exec (.gateRd x) s = .next { ((s.tick.send n pkg (.gate g (s.partOf env.co.ctx) .rd)).addOp env x
      (.gateRemote n (s.link n).nextSeq name .rd x.d none)).setPath env.cid env.p { env.pa with offer := some s.nextId } with cur := none } := by
  change execGateRd x s = _
  refine issue_stall hr ((if_neg hact).trans ?_)
  rw [hname]
  exact (if_pos hpkg).trans (gateAway_sendsRead hoff hroute hroom)

variable {id n seq nm : Nat} {p : Op} {q : GateOp} {d : Opnd} (hpkg : pkg ≠ s.pkg.pkgno) (hoff : env.pa.offer = some id) (hop : s.tick.ops.find id = some p)
include hpkg hoff hop

theorem gateRd_refused (hr : Ready s env Enc.gateRd x) {b : BitVec 8} (hkind : p.kind = .gateRemote n seq nm q d (some (.gateTrap b))) :
    exec (.gateRd x) s = .next ((s.tick.withdraw env id).trapHere env (Trap.gate b name)) := by
  change execGateRd x s = _
  refine issue_refuse hr ((if_neg hact).trans ?_)
  rw [hname]
  exact (if_pos hpkg).trans (gateAway_refused hoff hop hkind)

theorem gateRd_answered (hr : Ready s env Enc.gateRd x) {m : Word} (hkind : p.kind = .gateRemote n seq nm q d (some (.gate m))) :
    exec (.gateRd x) s = .next ((s.tick.setOp id (.land .n64 x.d [(64, m.toNat)])).complete env Enc.gateRd x {}) := by
  change execGateRd x s = _
  refine issue_done hr ((if_neg hact).trans ?_)
  rw [hname]
  exact (if_pos hpkg).trans (gateAway_answered hoff hop hkind (.inr ⟨m, rfl⟩))

theorem gateSig_answered (hr : Ready s env Enc.gateSig x) (hlo : 1 ≤ env.n64 x x.b) (hhi : env.n64 x x.b < 2 ^ 32) {m : Word}
    (hkind : p.kind = .gateRemote n seq nm q d (some (.gate m))) :
    exec (.gateSig x) s = .next ((s.tick.setOp id .nothing).complete env Enc.gateSig x {}) := by
  have hcount : ¬ (env.n64 x x.b = 0 ∨ 2 ^ 32 ≤ env.n64 x x.b) := by omega
  change execGateSig x s = _
  refine issue_done hr ((if_neg hact).trans ?_)
  rw [hname]
  dsimp only
  rw [if_neg hcount, if_neg (by rw [hoff]; simp)]
  exact (if_pos hpkg).trans (gateAway_answered hoff hop hkind (.inr ⟨m, rfl⟩))

/-- gate.wait with the home's answer: VALUE if it met the threshold at once, or that it waits. -/
theorem gateWait_answered (hr : Ready s env Enc.gateWait x) {r : Reply} (hkind : p.kind = .gateRemote n seq nm q d (some r))
    (hok : r = .accept ∨ ∃ m, r = .gate m) : exec (.gateWait x) s = .next (State.complete { s.tick with ops := s.ops.del id } env Enc.gateWait x
      { wait := .remoteGate n seq name (BitVec.ofNat 64 (env.n64 x x.b)) (match x.d with | .reg r => some r | _ => none) (gateAnswerValue r) }) := by
  change execGateWait x s = _
  refine issue_done hr ((if_neg hact).trans ?_)
  rw [hname]
  refine (if_pos hpkg).trans ((gateAway_answered hoff hop hkind hok).trans ?_)
  dsimp only
  rw [hop, Option.map_some, hkind]
  rfl

end

/-- Settles O50: on a gate of this package, then on another package's, first its sending and then its answer. -/
theorem gateInstructions : Obligations.GateInstructions := by
  unfold Obligations.GateInstructions
  intro s env x pkg g name hact hname part v d trap sigOk
  refine ⟨fun hpkg => ⟨fun hr hsig hdrained => ⟨fun t i => ?_, fun b => ?_⟩, fun hr => ⟨fun t i => ?_, fun b => ?_⟩,
    fun hr => ⟨fun t i => ?_, fun b => ?_⟩⟩, fun hpkg => ⟨fun hr hoff => ⟨?_, fun n => ?_⟩, fun id p n seq o dst hoff hop =>
      ⟨fun m hkind => ⟨fun hr hsig => ?_, fun hr => ?_, fun hr => ?_⟩, fun hkind hr => ?_, fun b hkind hr => ?_⟩⟩⟩
  · exact gateSig_signals hact hname hr hsig.1 hsig.2 hdrained hpkg
  · exact gateSig_denied hact hname hr hsig.1 hsig.2 hdrained hpkg
  · exact gateWait_waits hact hname hr hpkg
  · exact gateWait_denied hact hname hr hpkg
  · exact gateRd_reads hact hname hr hpkg
  · exact gateRd_denied hact hname hr hpkg
  · exact gateRd_unrouted hact hname hr hpkg hoff
  · exact gateRd_sends hact hname hr hpkg hoff
  · exact gateSig_answered hact hname hpkg hoff hop hr hsig.1 hsig.2 hkind
  · have h := gateWait_answered hact hname hpkg hoff hop hr hkind (.inr ⟨m, rfl⟩)
    exact h
  · exact gateRd_answered hact hname hpkg hoff hop hr hkind
  · have h := gateWait_answered hact hname hpkg hoff hop hr hkind (.inl rfl)
    exact h
  · exact gateRd_refused hact hname hpkg hoff hop hr hkind

/-! ### Who may use a gate (R290) -/

section
variable {s : State} {n pkg part right : Nat}

theorem aclRow_gone (h : s.gate n = none) : s.aclRow n pkg part right = .error 3 := by
  unfold State.aclRow
  rw [h]

/-- The row of an access list that admits a partition of a package. -/
def Gate.names (g : Gate) (pkg part i : Nat) : Bool := nbit (g.entry i) 63 && bits (g.entry i) 51 12 == pkg && bits (g.entry i) 47 4 == part

theorem Gate.names_iff (g : Gate) (i : Nat) : g.names pkg part i = true ↔
    nbit (wordAt g.acl i) 63 = true ∧ bits (wordAt g.acl i) 51 12 = pkg ∧ bits (wordAt g.acl i) 47 4 = part := by
  simp only [Gate.names, Gate.entry, Bool.and_eq_true, beq_iff_eq, and_assoc]

theorem aclRow_found {g : Gate} (h : s.gate n = some g) : s.aclRow n pkg part right =
    match (List.range 8).find? (g.names pkg part) with
    | none => .error 1
    | some i => if nbit (g.entry i) right then .ok (g, i) else .error 1 := by
  unfold State.aclRow
  rw [h]
  rfl

theorem aclRow_unnamed {g : Gate} (h : s.gate n = some g)
    (hno : ∀ i, i < 8 → ¬ (nbit (wordAt g.acl i) 63 = true ∧ bits (wordAt g.acl i) 51 12 = pkg ∧ bits (wordAt g.acl i) 47 4 = part)) :
    s.aclRow n pkg part right = .error 1 := by
  have hnone : (List.range 8).find? (g.names pkg part) = none :=
    List.find?_eq_none.mpr fun i hi hb => hno i (List.mem_range.mp hi) ((g.names_iff i).mp hb)
  rw [aclRow_found h, hnone]

theorem aclRow_admits {g : Gate} {i : Nat} (h : s.aclRow n pkg part right = .ok (g, i)) :
    s.gate n = some g ∧ i < 8 ∧ nbit (wordAt g.acl i) 63 = true ∧ bits (wordAt g.acl i) 51 12 = pkg ∧ bits (wordAt g.acl i) 47 4 = part ∧
      nbit (wordAt g.acl i) right = true := by
  cases hg : s.gate n with
  | none => rw [aclRow_gone hg] at h; cases h
  | some q =>
    rw [aclRow_found hg] at h
    cases hi : (List.range 8).find? (q.names pkg part) with
    | none => rw [hi] at h; cases h
    | some j =>
      rw [hi] at h
      dsimp only at h
      split at h
      case isFalse => cases h
      case isTrue hright =>
        cases h
        obtain ⟨hvalid, hpkg, hpart⟩ := (g.names_iff i).mp (List.find?_some hi)
        exact ⟨rfl, List.mem_range.mp (List.mem_of_find?_eq_some hi), hvalid, hpkg, hpart, hright⟩

end

/-! ### A signal at its home (R290) -/

section
variable {s : State} {n i moment : Nat} {g : Gate} {k : Word} {who : GWho}

theorem Gate.open_iff (g : Gate) (i : Nat) : g.open i = true ↔
    g.st ≠ .frozen ∧ (bits (wordAt g.acl i) 28 16 ≠ 0 → bits (wordAt g.acl i) 12 8 ≠ 0) := by
  simp only [Gate.open, Gate.entry, aclRefill, aclTokens, Bool.and_eq_true, bne_iff_ne, Bool.or_eq_true, beq_iff_eq, ne_eq]
  tauto

theorem Gate.not_open_iff (g : Gate) (i : Nat) : g.open i = false ↔
    g.st = .frozen ∨ (bits (wordAt g.acl i) 28 16 ≠ 0 ∧ bits (wordAt g.acl i) 12 8 = 0) := by
  rw [← Bool.not_eq_true, Gate.open_iff]
  tauto

theorem applySignal_eq : s.applySignal n g i k = s.gateValue n
    { (if bits (wordAt g.acl i) 28 16 ≠ 0 then g.setTokens i (bits (wordAt g.acl i) 12 8 - 1) else g) with value := g.value + k } := by
  unfold State.applySignal
  by_cases h : bits (wordAt g.acl i) 28 16 = 0
  · rw [if_neg (not_not.mpr h)]
    simp only [if_pos (show aclRefill (g.entry i) = 0 from h)]
  · rw [if_pos h]
    simp only [if_neg (show ¬ aclRefill (g.entry i) = 0 from h)]
    rfl

theorem waits_iff : g.deferred.any (fun d => d.acl == i) = true ↔ ∃ e ∈ g.deferred, e.acl = i := by
  simp only [List.any_eq_true, beq_iff_eq]

theorem signalAt_applies (hopen : g.open i = true) (hfirst : ∀ e ∈ g.deferred, e.acl ≠ i) : s.signalAt n g i k who = (s.applySignal n g i k, true) := by
  have hnone : g.deferred.any (fun d => d.acl == i) = false :=
    Bool.eq_false_iff.mpr fun h => let ⟨e, he, hi⟩ := waits_iff.mp h; hfirst e he hi
  unfold State.signalAt
  rw [hopen, hnone]
  rfl

/-- A signal that waits. -/
def State.deferral (s : State) (i : Nat) (k : Word) (who : GWho) : Deferred := { id := s.nextId, who := who, n := k, acl := i, limit := s.time.ns + 10000 }

/-- A state with a gate's waiting signal numbered. -/
def State.numbered (s : State) (who : GWho) : State :=
  { s with nextId := match who with
      | .op _ => s.nextId
      | .msg _ _ => s.nextId + 1 }

theorem signalAt_defers (h : g.open i = false ∨ ∃ e ∈ g.deferred, e.acl = i) : s.signalAt n g i k who =
    ((s.numbered who).putGate n { g with deferred := g.deferred ++ [s.deferral i k who] }, false) := by
  have hwait : ¬ (g.open i && !g.deferred.any (fun d => d.acl == i)) = true := by
    rcases h with h | h
    · rw [h]; simp
    · rw [waits_iff.mpr h]; simp
  unfold State.signalAt
  exact if_neg hwait

theorem without_only {e : Deferred} (hone : g.deferred = [e]) : g.without e = { g with deferred := [] } := by
  unfold Gate.without
  rw [hone]
  simp

variable {e : Deferred} (hg : s.gate n = some g) (hone : g.deferred = [e])
include hg hone

theorem settleGate_drops (hlate : e.limit < moment) : s.settleGate n moment = (s.putGate n { g with deferred := [] }).sigOver n e (some 2) := by
  unfold State.settleGate
  simp only [hg, hone, State.applyDeferred, without_only hone, if_pos hlate]

theorem settleGate_waits (htime : moment ≤ e.limit) (hshut : g.open e.acl = false) : s.settleGate n moment = s := by
  unfold State.settleGate
  simp only [hg, hone, State.applyDeferred, if_neg (Nat.not_lt.mpr htime), hshut, Bool.not_false, Bool.or_true, if_true]

theorem settleGate_applies (htime : moment ≤ e.limit) (hopen : g.open e.acl = true) :
    s.settleGate n moment = (s.applySignal n { g with deferred := [] } e.acl e.n).sigOver n e none := by
  unfold State.settleGate
  simp only [hg, hone, State.applyDeferred, without_only hone, if_neg (Nat.not_lt.mpr htime), hopen, List.contains_nil, Bool.not_true, Bool.or_false,
    Bool.false_eq_true, if_false]

end

/-! ### What comes to a gate by itself (R288, R290) -/

section
variable {s : State} {gate i op : Nat} {g : Gate} (hup : s.up = true)
include hup

theorem gateTokenRefill_adds (hg : s.gate gate = some g) (hi : i < 8) (hlim : bits (wordAt g.acl i) 28 16 ≠ 0) (hnone : g.deferred = []) :
    exec (.gateTokenRefill gate i) s = .next (s.addTicks gate i g (s.ticksDue gate i g)) := by
  have hgo : ¬ (!s.up || decide (8 ≤ i) || decide (aclRefill (g.entry i) = 0)) = true := by
    simp [hup, Nat.not_le.mpr hi, show aclRefill (g.entry i) ≠ 0 from hlim]
  change execGateTokenRefill gate i s = _
  unfold execGateTokenRefill
  simp only [hg]
  rw [if_neg (by simpa using hgo), hnone]
  unfold State.catchUp
  simp only [List.length_nil, hg]

theorem gateDeferTimeout_none (hgates : s.gates = [(gate, g)]) (hd : g.deferred.find? (fun d => d.id == op && decide (d.limit < s.time.ns)) = none) :
    exec (.gateDeferTimeout op) s = .next s := by
  change execGateDeferTimeout op s = _
  unfold execGateDeferTimeout
  simp only [hup, hgates, List.foldl_cons, List.foldl_nil, hd, Bool.not_true, Bool.false_eq_true, if_false]

theorem gateDeferTimeout_over (hgates : s.gates = [(gate, g)]) {d : Deferred} (hd : g.deferred.find? (fun d => d.id == op && decide (d.limit < s.time.ns)) = some d)
    {h : Gate} (hh : (s.refreshGate gate).gates.find gate = some h) :
    exec (.gateDeferTimeout op) s = .next (if h.deferred.any (fun x => x.id == op) then
      (((s.refreshGate gate).putGate gate (h.without d)).sigOver gate d (some 2)).settleGate gate (s.refreshGate gate).time.ns else s.refreshGate gate) := by
  change execGateDeferTimeout op s = _
  unfold execGateDeferTimeout
  simp only [hup, hgates, List.foldl_cons, List.foldl_nil, hd, hh, Bool.not_true, Bool.false_eq_true, if_false]

end

/-! ### Operations of other packages (R289, R290) -/

/-- A state in which a link has let go of a message's number. -/
def State.forgotten (s : State) (link seq : Nat) : State :=
  { s with out := .none, links := if (s.link link).seen.isEmpty then s.links else s.links.put link ((s.link link).forget seq) }

/-- A message that has come over an UP link for the first time. -/
structure MessageComes (s : State) (link seq : Nat) : Prop where
  up : s.up = true
  arrives : (s.link link).st = .up
  new : (s.link link).seen.find? (fun e => e.1 == seq) = none

section
variable {s : State} {link seq gate pkg part : Nat} {op : GateOp} (hc : MessageComes s link seq)
include hc

theorem receive_new (f : State → State) : s.receive link seq f = f (s.forgotten link seq) := by
  unfold State.receive
  have hgo : ¬ (!s.up || decide ((s.link link).st ≠ .up)) = true := by simp [hc.up, hc.arrives]
  rw [if_neg (by simpa using hgo), hc.new]
  rfl

theorem gateMessage_full (hroom : (s.forgotten link seq).replayRoom [link] = false) :
    exec (.gateMessage link seq gate pkg part op) s = .next ((s.forgotten link seq).answer link seq .retryLater) := by
  change execGateMessage link seq gate pkg part op s = _
  unfold execGateMessage
  rw [receive_new hc, if_pos (by rw [hroom]; rfl)]

variable (hroom : (s.forgotten link seq).replayRoom [link] = true)
include hroom

theorem gateMessage_sig_refused {k : Word} {b : BitVec 8} (hacl : (((s.forgotten link seq).refreshGate gate).gateGot link seq).aclRow gate pkg part 46 = .error b) :
    exec (.gateMessage link seq gate pkg part (.sig k)) s =
      .next ((((s.forgotten link seq).refreshGate gate).gateGot link seq).gateReply (link, seq) (.gateTrap b)) := by
  change execGateMessage link seq gate pkg part (.sig k) s = _
  unfold execGateMessage
  rw [receive_new hc, if_neg (by rw [hroom]; decide)]
  dsimp only
  rw [hacl]

theorem gateMessage_sig_admitted {k : Word} {g : Gate} {i : Nat}
    (hacl : (((s.forgotten link seq).refreshGate gate).gateGot link seq).aclRow gate pkg part 46 = .ok (g, i)) :
    let r := (((s.forgotten link seq).refreshGate gate).gateGot link seq).signalAt gate g i k (.msg link seq)
    exec (.gateMessage link seq gate pkg part (.sig k)) s = .next (r.1.gateReply (link, seq) (if r.2 then .gate (g.value + k) else .accept)) := by
  change execGateMessage link seq gate pkg part (.sig k) s = _
  unfold execGateMessage
  rw [receive_new hc, if_neg (by rw [hroom]; decide)]
  dsimp only
  rw [hacl]

theorem gateMessage_wait_refused {v : Word} {b : BitVec 8} (hacl : (s.forgotten link seq).aclRow gate pkg part 45 = .error b) :
    exec (.gateMessage link seq gate pkg part (.wait v)) s = .next (((s.forgotten link seq).gateGot link seq).gateReply (link, seq) (.gateTrap b)) := by
  change execGateMessage link seq gate pkg part (.wait v) s = _
  unfold execGateMessage
  rw [receive_new hc, if_neg (by rw [hroom]; decide)]
  dsimp only
  rw [hacl]

theorem gateMessage_rd_refused {b : BitVec 8} (hacl : ((s.forgotten link seq).gateGot link seq).aclRow gate pkg part 44 = .error b) :
    exec (.gateMessage link seq gate pkg part .rd) s = .next (((s.forgotten link seq).gateGot link seq).gateReply (link, seq) (.gateTrap b)) := by
  change execGateMessage link seq gate pkg part .rd s = _
  unfold execGateMessage
  rw [receive_new hc, if_neg (by rw [hroom]; decide)]
  dsimp only
  rw [hacl]

theorem gateMessage_rd_admitted {g : Gate} {i : Nat} (hacl : ((s.forgotten link seq).gateGot link seq).aclRow gate pkg part 44 = .ok (g, i)) :
    exec (.gateMessage link seq gate pkg part .rd) s = .next (((s.forgotten link seq).gateGot link seq).gateReply (link, seq) (.gate g.value)) := by
  change execGateMessage link seq gate pkg part .rd s = _
  unfold execGateMessage
  rw [receive_new hc, if_neg (by rw [hroom]; decide)]
  dsimp only
  rw [hacl]

variable {v : Word} {g : Gate} {i : Nat} (hacl : (s.forgotten link seq).aclRow gate pkg part 45 = .ok (g, i))
include hacl

theorem gateMessage_wait_full (hwait : (s.forgotten link seq).waiterRoom gate = false) :
    exec (.gateMessage link seq gate pkg part (.wait v)) s = .next ((s.forgotten link seq).answer link seq .retryLater) := by
  change execGateMessage link seq gate pkg part (.wait v) s = _
  unfold execGateMessage
  rw [receive_new hc, if_neg (by rw [hroom]; decide)]
  dsimp only
  rw [hacl]
  exact congrArg Host.Outcome.next (if_pos (by rw [hwait]; rfl))

variable (hwait : (s.forgotten link seq).waiterRoom gate = true)
include hwait

theorem gateMessage_wait_met (hv : v ≤ g.value ∧ ¬ (g.st = .migrating ∧ i = g.mpart)) :
    exec (.gateMessage link seq gate pkg part (.wait v)) s = .next (((s.forgotten link seq).gateGot link seq).gateReply (link, seq) (.gate g.value)) := by
  rw [← migrating_iff] at hv
  change execGateMessage link seq gate pkg part (.wait v) s = _
  unfold execGateMessage
  rw [receive_new hc, if_neg (by rw [hroom]; decide)]
  dsimp only
  rw [hacl]
  exact congrArg Host.Outcome.next ((if_neg (by rw [hwait]; decide)).trans (if_pos hv))

theorem gateMessage_wait_waits (hv : ¬ (v ≤ g.value ∧ ¬ (g.st = .migrating ∧ i = g.mpart))) :
    exec (.gateMessage link seq gate pkg part (.wait v)) s = .next ((((s.forgotten link seq).gateGot link seq).putGate gate
      { g with nwait := g.nwait + 1, remote := g.remote ++ [{ back := some (link, seq), v := v, acl := i }] }).gateReply (link, seq) .accept) := by
  rw [← migrating_iff] at hv
  change execGateMessage link seq gate pkg part (.wait v) s = _
  unfold execGateMessage
  rw [receive_new hc, if_neg (by rw [hroom]; decide)]
  dsimp only
  rw [hacl]
  exact congrArg Host.Outcome.next ((if_neg (by rw [hwait]; decide)).trans (if_neg hv))

end

/-- Settles O51: who may use a gate, a signal at its home, then what comes to a gate by itself. -/
theorem gateSignals : Obligations.GateSignals := by
  unfold Obligations.GateSignals
  refine ⟨⟨fun s n pkg part right => ⟨aclRow_gone, fun g => aclRow_unnamed, fun g i => aclRow_admits⟩, ?signal⟩, ?refill, ?late, ?message⟩
  case signal =>
    intro s n i g k who limited tokens d
    refine ⟨fun hst htok hfirst => ?_, fun h => ?_, ?settle⟩
    · rw [signalAt_applies ((g.open_iff i).mpr ⟨hst, htok⟩) hfirst, applySignal_eq]
    · exact signalAt_defers (by rw [g.not_open_iff i, or_assoc]; exact h)
    · intro e moment hg hone shut
      exact ⟨settleGate_drops hg hone, fun htime hshut => settleGate_waits hg hone htime ((g.not_open_iff e.acl).mpr hshut),
        fun htime hopen => settleGate_applies hg hone htime (Bool.of_not_eq_false fun h => hopen ((g.not_open_iff e.acl).mp h))⟩
  case refill =>
    intro s gate i g hup hg hi hlim hnone last k tokens burst t
    rw [gateTokenRefill_adds hup hg hi hlim hnone]
    rfl
  case late =>
    intro s op gate g hup hgates
    refine ⟨gateDeferTimeout_none hup hgates, ?_⟩
    intro d hd t h hh
    exact gateDeferTimeout_over hup hgates hd hh
  case message =>
    intro s link seq gate pkg part op hup hlink hnew t got
    have hc : MessageComes s link seq := ⟨hup, hlink, hnew⟩
    refine ⟨gateMessage_full hc, fun hroom => ⟨?sig, ?wait, ?read⟩⟩
    case sig =>
      intro k ho u
      subst ho
      exact ⟨fun b => gateMessage_sig_refused hc hroom, fun g i => gateMessage_sig_admitted hc hroom⟩
    case wait =>
      intro v ho
      subst ho
      exact ⟨fun b => gateMessage_wait_refused hc hroom, fun g i hacl => ⟨gateMessage_wait_full hc hroom hacl,
        gateMessage_wait_met hc hroom hacl, gateMessage_wait_waits hc hroom hacl⟩⟩
    case read =>
      intro ho
      subst ho
      exact ⟨fun b => gateMessage_rd_refused hc hroom, fun g i => gateMessage_rd_admitted hc hroom⟩

end Sys2Proof.Machine

/-! PROOFS. Copies, fetch bindings and overlays (R209 to R216, R333): O31 and O32. -/

namespace Sys2Proof.Machine

/-! ### A copy at issue (R214, R215, R333) -/

section
variable {s : State} {env : Env} {x : Args} {c : Copy}

theorem spanOf_single (n p : Nat) : spanOf 1 n p = n := by
  unfold spanOf
  omega

theorem copyOp_starts (hdst : s.copyRange env c.dst (spanOf c.rows c.len c.dpitch) true) (hsrc : s.copyRange env c.src (spanOf c.rows c.len c.spitch) false) :
    copyOp x c env s = .ok ((s.addOp env x (.cp c false none)).startCopy s.nextId env.co.core env.co.ctx (some env.co) c none) := by
  unfold copyOp
  rw [copyTrap_none.mpr ⟨hdst, hsrc⟩]

theorem copyOp_traps {t : Trap} (h : s.copyTrap env.co.core env.co.ctx (some env.co) c = some t) : copyOp x c env s = .trap t := by
  unfold copyOp
  rw [h]

/-- The words of a block as an instruction takes them from it. -/
theorem blockOpen_words {va : Nat} (h : s.blockOpen env va) : va % 64 = 0 ∧ ∃ l, s.pagedRead env.co va 64 0xFF = .ok l ∧
    (List.range 8).map (fun i => BitVec.ofNat 64 (bits (leNat (s.peekAll l)) (64 * i) 64)) = s.blockWords env va :=
  blockOpen_read h

/-- The copy of cp: one row. -/
def Env.oneRow (env : Env) (x : Args) : Copy :=
  { src := env.co.scalar x.a.num, dst := env.co.scalar x.d.num, rows := 1, len := env.val x .n32 x.b, spitch := 0, dpitch := 0, sig := 0, free := [], earlier := [] }

theorem oneRow_ranges : s.copyTrap env.co.core env.co.ctx (some env.co) (env.oneRow x) = none ↔
    s.copyRange env (env.co.scalar x.d.num) (env.val x .n32 x.b) true ∧ s.copyRange env (env.co.scalar x.a.num) (env.val x .n32 x.b) false := by
  rw [copyTrap_none, ← spanOf_single (env.val x .n32 x.b) 0]
  rfl

variable (hact : env.acting x ≠ 0)
include hact

theorem cp_empty (hr : Ready s env Enc.cp x) (hn : env.val x .n32 x.b = 0) : exec (.cp x) s = .next (s.tick.trapHere env Trap.field) :=
  issue_trap hr ((if_neg hact).trans (if_pos hn))

theorem cp_starts (hr : Ready s env Enc.cp x) (hn : env.val x .n32 x.b ≠ 0) (hdst : s.tick.copyRange env (env.co.scalar x.d.num) (env.val x .n32 x.b) true)
    (hsrc : s.tick.copyRange env (env.co.scalar x.a.num) (env.val x .n32 x.b) false) : exec (.cp x) s = .next
      (((s.tick.addOp env x (.cp (env.oneRow x) false none)).startCopy s.nextId env.co.core env.co.ctx (some env.co) (env.oneRow x) none).complete env Enc.cp x {}) := by
  obtain ⟨hdst, hsrc⟩ := copyTrap_none.mp (oneRow_ranges.mpr ⟨hdst, hsrc⟩)
  change execCp x s = _
  exact issue_done hr ((if_neg hact).trans ((if_neg hn).trans (copyOp_starts hdst hsrc)))

theorem cp_traps (hr : Ready s env Enc.cp x) (hn : env.val x .n32 x.b ≠ 0) {t : Trap}
    (ht : s.tick.copyTrap env.co.core env.co.ctx (some env.co) (env.oneRow x) = some t) : exec (.cp x) s = .next (s.tick.trapHere env t) := by
  change execCp x s = _
  exact issue_trap hr ((if_neg hact).trans ((if_neg hn).trans (copyOp_traps ht)))

theorem cpD_starts (hr : Ready s env Enc.cpD x) (hopen : s.tick.blockOpen env (env.co.scalar x.a.num).toNat) {w : List Word}
    (hw : s.tick.blockWords env (env.co.scalar x.a.num).toNat = w) (hcheck : Copy.check w = none)
    (hdst : s.tick.copyRange env (Copy.ofWords w).dst (spanOf (Copy.ofWords w).rows (Copy.ofWords w).len (Copy.ofWords w).dpitch) true)
    (hsrc : s.tick.copyRange env (Copy.ofWords w).src (spanOf (Copy.ofWords w).rows (Copy.ofWords w).len (Copy.ofWords w).spitch) false) :
    exec (.cpD x) s = .next (((s.tick.addOp env x (.cp (Copy.ofWords w) false none)).startCopy s.nextId env.co.core env.co.ctx (some env.co)
      (Copy.ofWords w) none).complete env Enc.cpD x {}) := by
  obtain ⟨halign, l, hread, hwords⟩ := blockOpen_words hopen
  change execCpD x s = _
  refine issue_done hr ((if_neg hact).trans ((if_neg (not_not.mpr halign)).trans ((awaitBlock_open hopen _).trans ?_)))
  rw [hread]
  dsimp only
  rw [hwords, hw, hcheck]
  exact copyOp_starts hdst hsrc

end

/-! ### A copy on an engine (R215, R248) -/

theorem signalFree_none (s : State) (op core ctx : Nat) : s.signalFree op core ctx 0 = true := by
  unfold State.signalFree
  split <;> rfl

theorem signalDec_none (s : State) (core ctx : Nat) : s.signalDec core ctx 0 = .ok s := rfl

theorem signalDec_lowers {s : State} {core ctx : Nat} {sig : Word} {pa : Nat × PageKind} (hsig : sig ≠ 0)
    (hpa : s.translate core ctx sig.toNat none true = .ok pa) :
    s.signalDec core ctx sig = .ok (s.pokeNat pa.1 8 (BitVec.ofNat 64 (s.peekNat pa.1 8) - 1).toNat) := by
  unfold State.signalDec
  rw [if_neg hsig, hpa]

section
variable {s : State} {op : Nat} {o : Op} {c : Copy} {node : Option (Nat × Nat)} (hop : s.ops.find op = some o)
include hop

theorem copyEngineAcquire_takes (hkind : o.kind = .cp c false node) (hfree : (s.ops.filter (fun p => s.onEngine (dieOf (s.opCore o)) p.2)).length < Config.copyEngines)
    (hfirst : s.copyBehind op o = false) : exec (.copyEngineAcquire op) s = .next (s.setOp op (.cp c true node)) := by
  change execCopyEngineAcquire op s = _
  unfold execCopyEngineAcquire
  simp only [hop, hkind]
  exact if_neg (by rw [hfirst, decide_eq_false (Nat.not_le.mpr hfree)]; decide)

variable (hkind : o.kind = .cp c true node) {src dst : List (Nat × Nat)}
  (hsrc : s.copyRows (s.opCore o) o.ctx (o.cid.bind s.courses.find) c.src c.rows c.len c.spitch false = .ok src)
  (hdst : s.copyRows (s.opCore o) o.ctx (o.cid.bind s.courses.find) c.dst c.rows c.len c.dpitch true = .ok dst)
  (hlines : c.linesReady s src = true) (hengine : s.engineReady op o src dst = true) (hsig : s.signalFree op (s.opCore o) o.ctx c.sig = true)
include hkind hsrc hdst hlines hengine hsig

/-- The copy is made, and then the signal object is lowered. -/
theorem cpComplete_copies {u : State}
    (hdec : ((s.writeMarked dst (s.readMarked src)).arriveLines op (scratchLinesOf dst)).signalDec (s.opCore o) o.ctx c.sig = .ok u) :
    exec (.cpComplete op) s = .next (((u.unlock op).finishOp op).nodeEnded node none) := by
  change execCpComplete op s = _
  unfold execCpComplete
  simp only [hop, hkind, hsrc, hdst, hlines, hengine, hsig, Bool.not_true, Bool.or_self, Bool.false_eq_true, if_false, hdec]

end

section
variable {s : State} {op : Nat} {o : Op} {c : Copy} {node : Option (Nat × Nat)} (hop : s.ops.find op = some o) {t : Trap} (ht : s.engineFault o = some t)
include hop ht

theorem engineFault_overlay {core slot id va n : Nat} (hkind : o.kind = .ovlLd core slot id va n true) :
    exec (.engineFault op) s = .next ((s.failOp op o t).wakeOvl core o.ctx id) := by
  change execEngineFault op s = _
  unfold execEngineFault
  simp only [hop, ht, hkind]

/-- The pieces of the destination rows that translate. -/
def State.destPieces (s : State) (o : Op) (c : Copy) : List (Nat × Nat) :=
  (List.range c.rows).flatMap (fun r => (s.copyPieces (s.opCore o) o.ctx (o.cid.bind s.courses.find) (c.dst + BitVec.ofNat 64 (r * c.dpitch)) c.len true).toOption.getD [])

theorem engineFault_copy (hkind : o.kind = .cp c true node) (hlines : c.linesReady s (s.copyLead (s.opCore o) o.ctx c).1 = true)
    (hengine : s.engineReady op o (s.copyLead (s.opCore o) o.ctx c).1 (s.copyLead (s.opCore o) o.ctx c).2 = true) :
    exec (.engineFault op) s = .next (((s.copyBegun (s.opCore o) o.ctx c).arriveLines op (scratchLinesOf (s.destPieces o c))).failOp op o t) := by
  change execEngineFault op s = _
  unfold execEngineFault
  simp only [hop, ht, hkind, hlines, hengine, Bool.not_true, Bool.or_self, Bool.false_eq_true, if_false]
  refine congrArg (fun l => Host.Outcome.next (((s.copyBegun (s.opCore o) o.ctx c).arriveLines op (scratchLinesOf l)).failOp op o t))
    (List.flatMap_congr fun r _ => ?_)
  cases s.copyPieces (s.opCore o) o.ctx (o.cid.bind s.courses.find) (c.dst + BitVec.ofNat 64 (r * c.dpitch)) c.len true <;> rfl

end

/-- Settles O31: copies at issue, on an engine, and ended by a fault. -/
theorem copies : Obligations.Copies := by
  unfold Obligations.Copies
  refine ⟨fun s env x hact => ⟨?cp, ?cpD⟩, fun s op o c node hop => ⟨copyEngineAcquire_takes hop, ?complete, ?overlay, ?fault⟩⟩
  case cp =>
    intro hr n src dst c
    refine ⟨cp_empty hact hr, fun hn => cp_starts hact hr hn, fun hn hbad => ?_⟩
    obtain ⟨t, ht⟩ := Option.ne_none_iff_exists'.mp fun hnone => hbad (oneRow_ranges.mp hnone)
    exact ⟨t, ht, cp_traps hact hr hn ht⟩
  case cpD =>
    intro hr va words c hopen
    exact cpD_starts hact hr hopen rfl
  case complete =>
    intro hkind core co from_ into src dst t hfrom hinto hlines hengine
    refine ⟨fun hsig => ?_, fun pa hsig hfree hpa => ?_⟩
    · have hfree : s.signalFree op core o.ctx c.sig = true := hsig ▸ signalFree_none ..
      have hdec : t.signalDec core o.ctx c.sig = .ok t := hsig ▸ rfl
      exact cpComplete_copies hop hkind (isOk_getD hfrom []) (isOk_getD hinto []) hlines hengine hfree hdec
    · exact cpComplete_copies hop hkind (isOk_getD hfrom []) (isOk_getD hinto []) hlines hengine hfree (signalDec_lowers hsig hpa)
  case overlay =>
    intro core slot id va n hfault hkind
    obtain ⟨t, ht⟩ := Option.isSome_iff_exists.mp hfault
    exact ⟨t, ht, engineFault_overlay hop ht hkind⟩
  case fault =>
    intro hkind hfault core lead dst hlines hengine
    obtain ⟨t, ht⟩ := Option.isSome_iff_exists.mp hfault
    exact ⟨t, ht, engineFault_copy hop ht hkind hlines hengine⟩

end Sys2Proof.Machine

/-! PROOFS. Fetch bindings and overlay loading (R209 to R216, R333): O32. -/

namespace Sys2Proof.Machine

/-! ### fbind, fetch and funbind (R210 to R213, R333) -/

section
variable {s : State} {env : Env} {x : Args} (hact : env.acting x ≠ 0)
include hact

theorem fbind_invalid (hr : Ready s env Enc.fbind x) (hopen : s.tick.blockOpen env (env.co.scalar x.a.num).toNat)
    (hbad : FDesc.valid (s.tick.blockWords env (env.co.scalar x.a.num).toNat) = false) : exec (.fbind x) s = .next (s.tick.trapHere env Trap.field) := by
  obtain ⟨halign, l, hread, hwords⟩ := blockOpen_words hopen
  change execFbind x s = _
  refine issue_trap hr ((if_neg hact).trans ((if_neg (not_not.mpr halign)).trans ((awaitBlock_open hopen _).trans ?_)))
  rw [hread]
  dsimp only
  rw [hwords, hbad]
  rfl

theorem fbind_binds (hr : Ready s env Enc.fbind x) (hopen : s.tick.blockOpen env (env.co.scalar x.a.num).toNat) {w : List Word}
    (hw : s.tick.blockWords env (env.co.scalar x.a.num).toNat = w) (hgood : FDesc.valid w = true) {ps : List (Nat × Nat)}
    (hext : s.tick.extent env.cid env.co (FDesc.parse w) = .ok ps) :
    let t := s.tick.unbind env x.b.ctl
    exec (.fbind x) s = .next ((((t.addOp env x (.fbind x.b.ctl)).modCourse env.cid (fun c =>
      { c with binds := c.binds.put x.b.ctl { words := w, op := t.nextId, live := false } })).lockRanges t.nextId true (lockPieces false ps)).complete env Enc.fbind x {}) := by
  obtain ⟨halign, l, hread, hwords⟩ := blockOpen_words hopen
  change execFbind x s = _
  refine issue_done hr ((if_neg hact).trans ((if_neg (not_not.mpr halign)).trans ((awaitBlock_open hopen _).trans ?_)))
  rw [hread]
  dsimp only
  rw [hwords, hw, hgood, hext]
  rfl

theorem fetch_unbound (hr : Ready s env Enc.fetch x) (hb : env.co.binds.find x.b.ctl = none) : exec (.fetch x) s = .next (s.tick.trapHere env Trap.field) := by
  change execFetch x s = _
  refine issue_trap hr ((if_neg (by rw [lanes_ne hact]; decide)).trans ?_)
  rw [hb]

/-- The coordinates of every acting lane of a fetch. -/
def State.fetchCoords (s : State) (env : Env) (x : Args) (d : FDesc) : List (Nat × List Nat) :=
  (lanesOf (env.acting x)).map (fun l => (l, (List.range d.dims.length).map (fun i => s.vecLane env (x.a.num + i) false l)))

section
variable (hr : Ready s env Enc.fetch x) {b : Binding} (hb : env.co.binds.find x.b.ctl = some b)
  (hpair : (FDesc.parse b.words).valueTy.wide = true → x.d.num % 2 = 0) (hregs : x.a.num + (FDesc.parse b.words).dims.length ≤ 64)
  (hclean : (lanesOf (env.acting x)).find? (s.tick.elemBad env x.a (FDesc.parse b.words).dims.length) = none)
  (harray : (FDesc.parse b.words).ea = true → s.tick.eaWaits env.co.core env.cid env.co.ctx (handleArray (FDesc.parse b.words).base) = false)
include hr hb hpair hregs hclean harray

/-- A fetch of a bound slot, once its registers and its array may be read. -/
theorem fetch_checked : exec (.fetch x) s = issue Enc.fetch x (fun env s =>
    match firstTrap ((s.fetchCoords env x (FDesc.parse b.words)).map (fun e => s.fetchLane env.cid env.co (FDesc.parse b.words) true e.1 e.2)) with
    | some t => .trap t
    | none => .ok (s.addOp env x (.fetch b.op b.words x.d (s.fetchCoords env x (FDesc.parse b.words))))) s := by
  have heven : ¬ ((FDesc.parse b.words).valueTy.wide && x.d.num % 2 == 1) = true := by
    simp only [Bool.and_eq_true, beq_iff_eq, not_and]
    intro h
    have := hpair h
    omega
  have hquiet : ¬ ((FDesc.parse b.words).ea && s.tick.eaWaits env.co.core env.cid env.co.ctx (handleArray (FDesc.parse b.words).base)) = true := by
    simp only [Bool.and_eq_true, not_and, Bool.not_eq_true]
    exact harray
  change execFetch x s = _
  unfold execFetch
  rw [issue_ready hr, issue_ready hr]
  unfold fetchBody
  dsimp only
  rw [if_neg (by rw [lanes_ne hact]; decide), hb]
  dsimp only
  rw [if_neg heven, if_neg (Nat.not_lt.mpr hregs), hclean]
  dsimp only
  rw [if_neg hquiet]
  rfl

theorem fetch_traps {t : Trap} (ht : firstTrap ((s.tick.fetchCoords env x (FDesc.parse b.words)).map (fun e =>
    s.tick.fetchLane env.cid env.co (FDesc.parse b.words) true e.1 e.2)) = some t) : exec (.fetch x) s = .next (s.tick.trapHere env t) := by
  rw [fetch_checked hact hr hb hpair hregs hclean harray]
  exact issue_trap hr (by rw [ht])

theorem fetch_starts (ht : firstTrap ((s.tick.fetchCoords env x (FDesc.parse b.words)).map (fun e =>
    s.tick.fetchLane env.cid env.co (FDesc.parse b.words) true e.1 e.2)) = none) : exec (.fetch x) s =
      .next ((s.tick.addOp env x (.fetch b.op b.words x.d (s.tick.fetchCoords env x (FDesc.parse b.words)))).complete env Enc.fetch x {}) := by
  rw [fetch_checked hact hr hb hpair hregs hclean harray]
  refine issue_done hr ?_
  rw [ht]
  rfl

end

theorem funbind_queued (hr : Ready s env Enc.funbind x) (hq : (s.tick.opsOf env.cid).any (fun o => o.2.isQueued) = true) :
    exec (.funbind x) s = .next ((s.tick.queueSilent env Enc.funbind x).complete env Enc.funbind x {}) := by
  change execFunbind x s = _
  exact issue_done hr ((if_neg hact).trans (if_pos hq))

theorem funbind_unbinds (hr : Ready s env Enc.funbind x) (hq : (s.tick.opsOf env.cid).any (fun o => o.2.isQueued) = false) :
    exec (.funbind x) s = .next ((s.tick.unbind env x.a.ctl).complete env Enc.funbind x {}) := by
  change execFunbind x s = _
  exact issue_done hr ((if_neg hact).trans (if_neg (by rw [hq]; decide)))

end

section
variable {s : State} {env : Env} {slot : Nat}

theorem unbind_none (hb : env.co.binds.find slot = none) : s.unbind env slot = s := by
  unfold State.unbind
  rw [hb]

theorem unbind_some {b : Binding} (hb : env.co.binds.find slot = some b) (hc : s.courses.find env.cid = some env.co) :
    s.unbind env slot = (s.setCourse env.cid { env.co with binds := env.co.binds.del slot }).addSilent env (.funbind b.op) := by
  unfold State.unbind
  rw [hb]
  dsimp only
  rw [modCourse_found _ hc]

end

/-! ### A binding comes and goes (R212, R213) -/

section
variable {s : State} {op : Nat} {o : Op} (hop : s.ops.find op = some o)
include hop

theorem fbindComplete_binds {cid slot : Nat} {c : Course} {b : Binding} (hcid : o.cid = some cid) (hc : s.courses.find cid = some c) (hkind : o.kind = .fbind slot)
    (hb : c.binds.find slot = some b) (hmine : b.op = op) (hmem : (FDesc.parse b.words).ea = false) (hengine : s.engineReady op o (s.ownRanges op) [] = true) :
    exec (.fbindComplete op) s = .next ((s.setCourse cid { c with binds := c.binds.put slot { b with live := true } }).finishOp op) := by
  change execFbindComplete op s = _
  unfold execFbindComplete
  simp only [hop, hkind, hcid, hc, hb, hmine, hmem, hengine, Option.bind_some, Option.getD_some, if_true, Bool.false_and, Bool.not_true, Bool.or_self,
    Bool.false_eq_true, if_false, modCourse_found _ hc]

theorem funbindRelease_releases {bind : Nat} (hkind : o.kind = .funbind bind) (hbound : s.ops.find bind = none)
    (hread : ∀ p ∈ s.ops, ∀ w d l, p.2.kind ≠ .fetch bind w d l) : exec (.funbindRelease op) s = .next ((s.unlock bind).finishOp op) := by
  change execFunbindRelease op s = _
  unfold execFunbindRelease
  simp only [hop, hkind, hbound, Option.isSome_none, Bool.or_false]
  refine if_neg ?_
  rw [List.any_eq_true]
  rintro ⟨p, hp, hreading⟩
  split at hreading
  next b w d l hk => exact hread p hp w d l (by rw [hk, beq_iff_eq.mp hreading])
  next => cases hreading

end

/-! ### Overlays (R216) -/

section
variable {s : State} {env : Env} {x : Args} (hr : Ready s env Enc.ovlLd x) (hact : env.acting x ≠ 0)
include hr hact

theorem ovlLd_field (hbad : bits (env.co.scalar x.d.num).toNat 16 3 = 0 ∨ env.val x .n32 x.b = 0 ∨ 5461 < env.val x .n32 x.b) :
    exec (.ovlLd x) s = .next (s.tick.trapHere env Trap.field) := by
  change execOvlLd x s = _
  exact issue_trap hr ((if_neg hact).trans (if_pos hbad))

theorem ovlLd_starts (hslot : bits (env.co.scalar x.d.num).toNat 16 3 ≠ 0) (hlo : 1 ≤ env.val x .n32 x.b) (hhi : env.val x .n32 x.b ≤ 5461)
    (hmbz : bits (env.co.scalar x.d.num).toNat 19 45 = 0) (halign : (env.co.scalar x.a.num).toNat % 256 = 0)
    (htr : (s.tick.translate env.co.core env.co.ctx (env.co.scalar x.a.num).toNat none false).isOk = true)
    (hpriv : env.co.hwBad (env.co.scalar x.a.num).toNat 1 = false) :
    let id := bits (env.co.scalar x.d.num).toNat 0 16
    let slot := bits (env.co.scalar x.d.num).toNat 16 3
    let n := env.val x .n32 x.b
    let t := (s.tick.addOp env x (.ovlLd env.co.core slot id (env.co.scalar x.a.num).toNat n false)).markOvls env.co.core env.co.ctx slot id s.nextId
    exec (.ovlLd x) s = .next ((t.lockRanges s.nextId false (lockPieces false (t.copySpan env.co.core env.co.ctx (env.co.scalar x.a.num) (12 * n) false))).complete env
      Enc.ovlLd x {}) := by
  have hfield : ¬ (bits (env.co.scalar x.d.num).toNat 16 3 = 0 ∨ env.val x .n32 x.b = 0 ∨ 5461 < env.val x .n32 x.b) := by omega
  obtain ⟨r, hr'⟩ := isOk_ok htr
  change execOvlLd x s = _
  refine issue_done hr ((if_neg hact).trans ((if_neg hfield).trans ((if_neg (not_not.mpr hmbz)).trans ((if_neg (not_not.mpr halign)).trans ?_))))
  rw [hr']
  exact if_neg (by rw [hpriv]; decide)

end

section
variable {s : State} {op core slot id va n : Nat} {o : Op} (hop : s.ops.find op = some o)
include hop

theorem ovlUnload_unloads (hkind : o.kind = .ovlLd core slot id va n false) (hfirst : s.loadsBefore op core slot = false)
    (hidle : ∀ e ∈ s.ovls, op ∈ e.2.mark → s.midRun core (e.1 % 8) e.2 = false) :
    exec (.ovlUnload op) s = .next (State.setOp { s with ovls := s.ovls.filter (fun e => !e.2.mark.contains op) } op (.ovlLd core slot id va n true)) := by
  have hnone : (s.ovls.filter (fun e => e.2.mark.contains op)).any (fun e => s.midRun core (e.1 % 8) e.2) = false := by
    refine List.any_eq_false.mpr fun e he => ?_
    obtain ⟨hmem, hmark⟩ := List.mem_filter.mp he
    rw [hidle e hmem (List.contains_iff_mem.mp hmark)]
    decide
  change execOvlUnload op s = _
  unfold execOvlUnload
  simp only [hop, hkind, hfirst, hnone, Bool.or_self, Bool.false_eq_true, if_false]

variable (hkind : o.kind = .ovlLd core slot id va n true) {l : List (Nat × Nat)}
  (himage : s.copyPieces core o.ctx (o.cid.bind s.courses.find) (BitVec.ofNat 64 va) (12 * n) false = .ok l) (hengine : s.engineReady op o l [] = true)
include hkind himage hengine

theorem ovlLdComplete_poisoned {u : Nat} (hbad : s.poisonedRun va l = some u) :
    exec (.ovlLdComplete op) s = .next ((s.failOp op o (Trap.poison 0xFF u)).wakeOvl core o.ctx id) := by
  change execOvlLdComplete op s = _
  unfold execOvlLdComplete
  simp only [hop, hkind, himage, hengine, hbad, Bool.not_true, Bool.false_eq_true, if_false]

theorem ovlLdComplete_installs (hclean : s.poisonedRun va l = none) :
    exec (.ovlLdComplete op) s = .next ((((s.unlock op).finishOp op).installOvl core slot id o.ctx va n (s.peekAll l)).wakeOvl core o.ctx id) := by
  change execOvlLdComplete op s = _
  unfold execOvlLdComplete
  simp only [hop, hkind, himage, hengine, hclean, Bool.not_true, Bool.false_eq_true, if_false]

end

theorem installOvl_stands (s : State) (core slot id ctx va n : Nat) (data : List Byte) : ∃ e : Ovl,
    (s.installOvl core slot id ctx va n data).ovls.find (core * 8 + slot) = some e ∧ e.id = id ∧ e.ctx = ctx ∧ e.n = n ∧ e.image = va ∧ e.loaded = true :=
  ⟨_, Tab.find_put_same .., rfl, rfl, rfl, rfl, rfl⟩

theorem installOvl_image (s : State) (core slot id ctx va n : Nat) (data : List Byte) :
    (s.installOvl core slot id ctx va n data).mem = s.store (imemBase core slot) (data ++ List.replicate (65536 - data.length) 0) := rfl

/-- Settles O32: bindings at issue, a binding's coming and going, then an overlay's load. -/
theorem bindingsAndOverlays : Obligations.BindingsAndOverlays := by
  unfold Obligations.BindingsAndOverlays
  refine ⟨⟨fun s env x hact => ⟨?fbind, ?fetch, ?funbind, fun hr => funbind_queued hact hr⟩, ?bound, ?released⟩, ?load, fun s op core slot id va n o hop => ⟨ovlUnload_unloads hop, ?loaded⟩⟩
  case fbind =>
    intro hr va words ext hopen
    exact ⟨fbind_invalid hact hr hopen, fun hgood hext => fbind_binds hact hr hopen rfl hgood (isOk_getD hext [])⟩
  case fetch =>
    intro hr
    refine ⟨fetch_unbound hact hr, ?_⟩
    intro b hb d co r hpair hregs hclean harray
    exact ⟨fun t => fetch_traps hact hr hb hpair hregs hclean harray, fetch_starts hact hr hb hpair hregs hclean harray⟩
  case funbind =>
    intro hr hq
    refine ⟨fun hb => ?_, fun b hb => ?_⟩
    · rw [funbind_unbinds hact hr hq, unbind_none hb]
    · rw [funbind_unbinds hact hr hq, unbind_some hb (ready_tick hr)]
  case bound => exact fun s op o cid c slot b hop hcid hc hkind => fbindComplete_binds hop hcid hc hkind
  case released => exact fun s op bind o hop => funbindRelease_releases hop
  case load =>
    intro s env x hr hact d a n slot
    exact ⟨ovlLd_field hr hact, ovlLd_starts hr hact⟩
  case loaded =>
    intro hkind image l himage hengine
    refine ⟨fun u => ovlLdComplete_poisoned hop hkind (isOk_getD himage []) hengine, fun hclean => ?_⟩
    exact ⟨ovlLdComplete_installs hop hkind (isOk_getD himage []) hengine hclean, installOvl_stands .., installOvl_image ..⟩

end Sys2Proof.Machine

/-! PROOFS. The instructions of the bent matrix unit (R185, R191 to R198, R204, R205, R207): O36. -/

namespace Sys2Proof.Machine

/-! ### Instructions that enter the matrix queue (R185, R196, R198, R204, R207) -/

/-- The multiply instructions with their kinds. -/
def mulTable : List ((Args → Instr) × Entry × MatKind) :=
  [(Instr.mmaE4m3, Enc.mmaE4m3, MatKind.mma .e4m3 .e4m3), (Instr.mmaE5m2, Enc.mmaE5m2, MatKind.mma .e5m2 .e5m2), (Instr.mmaI8, Enc.mmaI8, MatKind.mma .i8 .i8),
    (Instr.mmaBf16, Enc.mmaBf16, MatKind.mma .bf16 .bf16), (Instr.mmaF16, Enc.mmaF16, MatKind.mma .f16 .f16), (Instr.mmaF32, Enc.mmaF32, MatKind.mma .f32 .f32),
    (Instr.mmaF64, Enc.mmaF64, MatKind.mma .f64 .f64), (Instr.mmqQ4g, Enc.mmqQ4g, MatKind.mmq .q4g), (Instr.mmqQ8g, Enc.mmqQ8g, MatKind.mmq .q8g),
    (Instr.mmspE4m3, Enc.mmspE4m3, MatKind.mmsp .e4m3), (Instr.mmspE5m2, Enc.mmspE5m2, MatKind.mmsp .e5m2), (Instr.mmspI8, Enc.mmspI8, MatKind.mmsp .i8),
    (Instr.mmspBf16, Enc.mmspBf16, MatKind.mmsp .bf16), (Instr.mmspF16, Enc.mmspF16, MatKind.mmsp .f16)]

theorem exec_mul : ∀ r ∈ mulTable, ∀ (x : Args) (s : State), exec (r.1 x) s = issue r.2.1 x (matOp x r.2.2) s := by
  intro r hr
  unfold mulTable at hr
  fin_cases hr <;> exact fun _ _ => rfl

/-- The transfers; the flag says that it stores. -/
def xferTable : List ((Args → Instr) × Entry × Bool) := [(Instr.mld, Enc.mld, false), (Instr.mstr, Enc.mstr, true)]

theorem exec_xfer : ∀ r ∈ xferTable, ∀ (x : Args) (s : State), exec (r.1 x) s = issue r.2.1 x (xferOp x r.2.2) s := by
  intro r hr
  unfold xferTable at hr
  fin_cases hr <;> exact fun _ _ => rfl

/-- The sparsity steps. -/
def sparsityTable : List ((Args → Instr) × Entry × MatKind) := [(Instr.spdg, Enc.spdg, MatKind.spdg), (Instr.spsal, Enc.spsal, MatKind.spsal)]

theorem exec_sparsity : ∀ r ∈ sparsityTable, ∀ (x : Args) (s : State), exec (r.1 x) s = issue r.2.1 x (sparsityOp x r.2.2) s := by
  intro r hr
  unfold sparsityTable at hr
  fin_cases hr <;> exact fun _ _ => rfl

/-- The test for a tile that is not held fails on one that is. -/
theorem not_eq_true_of_held {b : Bool} (h : b = true) : ¬ (!b) = true := by
  rw [h]
  exact Bool.false_ne_true

section
variable {s : State} {env : Env} {x : Args}

/-- The state after an entry has been put into its course's matrix queue. -/
def State.matQueued (s : State) (env : Env) (x : Args) (m : Mat) (locks : List (Nat × Nat × Bool)) : State :=
  ((s.tick.addOp env x (.mat m)).lockRanges s.nextId false locks).modCourse env.cid (fun c => { c with mq := c.mq ++ [s.nextId] })

variable (hact : env.acting x ≠ 0)
include hact

/-- A wbld whose fields have passed enters its queue: behind a tfence at once, else once its source has been translated and may be locked (R160, R196). -/
def wbldQueue (x : Args) (env : Env) (s : State) : Res :=
  let entry := Mat.wbld (env.co.scalar x.a.num) (env.val x .n32 x.b) (env.co.scalar x.d.num).toNat
  if env.co.tfencing then enqueue x entry [] env s else
  match s.rowPieces env.co (env.co.scalar x.a.num) 1 (512 * env.val x .n32 x.b) 0 false with
  | .error t => .trap t
  | .ok l =>
    match s.lockedTrap env.cid (env.co.scalar x.a.num).toNat false l.flatten with
    | some t => .trap t
    | none => enqueue x entry (lockPieces false l.flatten) env s

section
variable (hr : Ready s env Enc.wbld x) (hlo : 1 ≤ env.val x .n32 x.b) (hhi : env.val x .n32 x.b ≤ 1024) (hmbz : bits (env.co.scalar x.d.num).toNat 10 54 = 0)
  (halign : bits (env.co.scalar x.a.num).toNat 0 8 = 0) (hcanon : isScratchAddr (env.co.scalar x.a.num) = true ∨ (env.co.scalar x.a.num).toNat < 2 ^ 60)
  (hfits : (env.co.scalar x.d.num).toNat + env.val x .n32 x.b ≤ (s.tick.weightWindow env.co).2)
include hr hlo hhi hmbz halign hcanon hfits

theorem wbld_checked : exec (.wbld x) s = issue Enc.wbld x (wbldQueue x) s := by
  have hcount : ¬ (env.val x .n32 x.b = 0 ∨ 1024 < env.val x .n32 x.b) := by omega
  have haddr : ¬ (!isScratchAddr (env.co.scalar x.a.num) && decide (2 ^ 60 ≤ (env.co.scalar x.a.num).toNat)) = true := by
    rcases hcanon with h | h
    · rw [h]; exact Bool.false_ne_true
    · rw [decide_eq_false (Nat.not_le.mpr h), Bool.and_false]; decide
  change execWbld x s = _
  unfold execWbld
  rw [issue_ready hr, issue_ready hr]
  dsimp only
  rw [if_neg hact, if_neg hcount, if_neg (not_not.mpr hmbz), if_neg (not_not.mpr halign), if_neg haddr, if_neg (Nat.not_lt.mpr hfits)]
  rfl

variable (hroom : env.co.mq.length < 8)
include hroom

theorem wbld_queues (htf : env.co.tfencing = false) {l : List (List (Nat × Nat))}
    (hsrc : s.tick.rowPieces env.co (env.co.scalar x.a.num) 1 (512 * env.val x .n32 x.b) 0 false = .ok l)
    (hlock : s.tick.lockedTrap env.cid (env.co.scalar x.a.num).toNat false l.flatten = none) :
    exec (.wbld x) s = .next ((s.matQueued env x (Mat.wbld (env.co.scalar x.a.num) (env.val x .n32 x.b) (env.co.scalar x.d.num).toNat)
      (lockPieces false l.flatten)).complete env Enc.wbld x {}) := by
  rw [wbld_checked hact hr hlo hhi hmbz halign hcanon hfits]
  refine issue_done hr ((if_neg (by rw [htf]; decide)).trans ?_)
  rw [hsrc]
  dsimp only
  rw [hlock]
  exact enqueue_done x _ _ env s hroom

theorem wbld_queues_fenced (htf : env.co.tfencing = true) :
    exec (.wbld x) s = .next ((s.matQueued env x (Mat.wbld (env.co.scalar x.a.num) (env.val x .n32 x.b) (env.co.scalar x.d.num).toNat) []).complete env Enc.wbld x {}) := by
  rw [wbld_checked hact hr hlo hhi hmbz halign hcanon hfits]
  exact issue_done hr ((if_pos htf).trans (enqueue_done x _ _ env s hroom))

end

section
variable (hroom : env.co.mq.length < 8)
include hroom

theorem mzero_queues (hr : Ready s env Enc.mzero x) (hheld : s.tick.holdsTile env.cid (env.tileKey x.d) = true) :
    exec (.mzero x) s = .next ((s.matQueued env x (Mat.plain .mzero x.d.num) []).complete env Enc.mzero x {}) := by
  change execMzero x s = _
  exact issue_done hr ((if_neg hact).trans ((if_neg (not_eq_true_of_held hheld)).trans (enqueue_done x _ _ env s hroom)))

theorem xfer_queues {i : Args → Instr} {e : Entry} {store : Bool} (hi : exec (i x) s = issue e x (xferOp x store) s) (hr : Ready s env e x)
    (hheld : s.tick.holdsTile env.cid (env.tileKey x.d) = true) (ha : (env.co.scalar x.a.num).toNat % Ty.bytes x.m.tyD = 0) (hn : env.val x .n32 x.b % Ty.bytes x.m.tyD = 0)
    (hrows : env.co.tfencing = false → (s.tick.rowPieces env.co (env.co.scalar x.a.num) (xferRows x.m.tyD).1 (xferRows x.m.tyD).2 (env.val x .n32 x.b) store).isOk = true) :
    exec (i x) s = .next ((s.matQueued env x { Mat.plain (if store then .mstr x.m.tyD else .mld x.m.tyD) x.d.num with
      addr := env.co.scalar x.a.num, n := env.val x .n32 x.b } []).complete env e x {}) := by
  have halign : ¬ ((env.co.scalar x.a.num).toNat % Ty.bytes x.m.tyD ≠ 0 ∨ env.val x .n32 x.b % Ty.bytes x.m.tyD ≠ 0) := by
    rw [ha, hn]
    decide
  rw [hi]
  refine issue_done hr ((if_neg hact).trans ((if_neg (not_eq_true_of_held hheld)).trans ((if_neg halign).trans ?_)))
  by_cases htf : env.co.tfencing = true
  · rw [if_pos htf]
    exact enqueue_done x _ _ env s hroom
  · obtain ⟨l, hl⟩ := isOk_ok (hrows (Bool.eq_false_iff.mpr htf))
    rw [if_neg htf, hl]
    exact enqueue_done x _ _ env s hroom

theorem sparsity_queues {i : Args → Instr} {e : Entry} {kind : MatKind} (hi : exec (i x) s = issue e x (sparsityOp x kind) s) (hr : Ready s env e x) :
    let off := (env.co.scalar x.d.num).toNat
    let wa := Shape.of (env.co.shape x.a.num)
    let wb := Shape.of (env.co.shape x.b.num)
    let win := s.tick.coreWindow env.co
    let k := s.tick.counter (win.1 + off)
    wa.fmt = 0x0D → wb.fmt = 0x0D → wa.rows = wb.rows → wa.cols = wb.cols → off % 64 = 0 → off + 64 ≤ win.2 → s.tick.present (win.1 + off) = true →
    s.tick.blockReady env.cid [(win.1 + off, 64)] = true → s.tick.poisonedAll [(win.1 + off, 64)] = none → k.1 ≤ 4096 → k.2.2.2 = false →
    k.2.2.1 * 256 + (wa.rows * wa.cols + 7) / 8 ≤ win.2 → wa.stop 2 ≤ win.2 → wb.stop 2 ≤ win.2 →
    exec (i x) s = .next ((s.matQueued env x { Mat.plain kind 0 with
      sha := env.co.shape x.a.num, shb := env.co.shape x.b.num, addr := BitVec.ofNat 64 k.1, n := off, line := k.2.2.1 } []).complete env e x {}) := by
  intro off wa wb win k hfa hfb hrows hcols halign hfits hpres hready hclean hswap hmbz hmap hsa hsb
  have hshape : ¬ (wa.fmt ≠ 0x0D ∨ wb.fmt ≠ 0x0D ∨ wa.rows ≠ wb.rows ∨ wa.cols ≠ wb.cols) := by
    rw [hfa, hfb, hrows, hcols]
    simp
  have hstall : ¬ (!s.tick.present (win.1 + off) || !s.tick.blockReady env.cid [(win.1 + off, 64)]) = true := by
    rw [hpres, hready]
    decide
  have hcounter : ¬ (4096 < k.1 ∨ k.2.2.2 = true) := by
    rw [hmbz]
    simpa using hswap
  have hwindow : ¬ (win.2 < k.2.2.1 * 256 + (wa.rows * wa.cols + 7) / 8 ∨ win.2 < wa.stop 2 ∨ win.2 < wb.stop 2) := by omega
  rw [hi]
  refine issue_done hr ((if_neg hact).trans ((if_neg hshape).trans ((if_neg (not_not.mpr halign)).trans ((if_neg (Nat.not_lt.mpr hfits)).trans
    ((if_neg hstall).trans ?_)))))
  rw [hclean]
  exact (if_neg hcounter).trans ((if_neg hwindow).trans (enqueue_done x _ _ env s hroom))

end

theorem mzero_refused (hr : Ready s env Enc.mzero x) (hheld : s.tick.holdsTile env.cid (env.tileKey x.d) = false) :
    exec (.mzero x) s = .next (s.tick.trapHere env Trap.field) := by
  change execMzero x s = _
  exact issue_trap hr ((if_neg hact).trans (if_pos (by rw [hheld]; rfl)))

/-! ### Shape records and tiles (R192, R205) -/

theorem mshape_records (hr : Ready s env Enc.mshape x) :
    let w0 := (env.co.scalar x.a.num).toNat
    let w1 := (env.co.scalar x.b.num).toNat
    let r : BitVec 128 := BitVec.ofNat 128 (w0 + 2 ^ 64 * w1)
    let h := Shape.of r
    1 ≤ h.rows → h.rows ≤ 64 → 1 ≤ h.cols → h.cols ≤ 4096 → h.estride ≠ 0 → h.fmt < 0x12 → bits w0 0 8 = 0 → bits w1 36 7 = 0 → bits w1 0 24 = 0 →
    exec (.mshape x) s = .next ((s.tick.setCourse env.cid { env.co with shapes := env.co.shapes.set 0 x.d.num r }).complete env Enc.mshape x {}) := by
  intro w0 w1 r h hrlo hrhi hclo hchi hes hfmt hz0 hz1 hz2
  have hfield : ¬ (h.rows = 0 ∨ 64 < h.rows ∨ h.cols = 0 ∨ 4096 < h.cols ∨ h.estride = 0 ∨ 0x12 ≤ h.fmt) := by omega
  have hmbz : ¬ (bits w0 0 8 ≠ 0 ∨ bits w1 36 7 ≠ 0 ∨ bits w1 0 24 ≠ 0) := by
    rw [hz0, hz1, hz2]
    decide
  change execMshape x s = _
  refine issue_done hr ((if_neg hact).trans ((if_neg hfield).trans ((if_neg hmbz).trans ?_)))
  rw [modCourse_found _ (ready_tick hr)]
  rfl

section
variable (hr : Ready s env Enc.mtalloc x) (hgrant : nbit (s.tick.partWord (s.tick.partOf env.co.ctx) 3) x.a.num = true)
include hr hgrant

theorem mtalloc_free (hst : (s.tick.tile (env.tileKey x.a)).st = .free) : exec (.mtalloc x) s = .next (((s.tick.takeTile env.cid env.co.ctx (env.tileKey x.a)).setPred
    env.cid x.d.num (env.acting x) (BitVec.allOnes 64)).complete env Enc.mtalloc x {}) := by
  change execMtalloc x s = _
  refine issue_done hr ((if_neg hact).trans ((if_neg (by rw [hgrant]; decide)).trans ?_))
  dsimp only
  rw [hst]
  rfl

theorem mtalloc_own (hst : (s.tick.tile (env.tileKey x.a)).st = .held env.cid) :
    exec (.mtalloc x) s = .next ((s.tick.setPred env.cid x.d.num (env.acting x) (BitVec.allOnes 64)).complete env Enc.mtalloc x {}) := by
  change execMtalloc x s = _
  refine issue_done hr ((if_neg hact).trans ((if_neg (by rw [hgrant]; decide)).trans ?_))
  dsimp only
  rw [hst]
  dsimp only
  simp only [if_true]
  rfl

/-- A tile of another course of the context stays with it. -/
theorem mtalloc_others {cid : Nat} {c : Course} (hother : cid ≠ env.cid) (hst : (s.tick.tile (env.tileKey x.a)).st = .held cid)
    (hc : s.tick.courses.find cid = some c) (hctx : c.ctx = env.co.ctx) :
    exec (.mtalloc x) s = .next ((s.tick.setPred env.cid x.d.num (env.acting x) 0).complete env Enc.mtalloc x {}) := by
  change execMtalloc x s = _
  refine issue_done hr ((if_neg hact).trans ((if_neg (by rw [hgrant]; decide)).trans ?_))
  dsimp only
  rw [hst]
  dsimp only
  simp only [if_neg hother, hc, hctx, ne_eq, not_true_eq_false, false_and, if_false, Bool.false_eq_true]
  rfl

end

theorem mtfree_releases (hr : Ready s env Enc.mtfree x) (hheld : s.tick.holdsTile env.cid (env.tileKey x.a) = true) :
    exec (.mtfree x) s = .next (((s.tick.setTile (env.tileKey x.a) { s.tile (env.tileKey x.a) with st := .releasing env.cid }).drainTiles env.cid).complete env
      Enc.mtfree x {}) := by
  change execMtfree x s = _
  exact issue_done hr ((if_neg hact).trans (if_neg (not_eq_true_of_held hheld)))

end

/-- Settles O36: the instructions that enter the queue, then shape records and tiles. -/
theorem matrixInstructions : Obligations.MatrixInstructions := by
  unfold Obligations.MatrixInstructions
  intro s env x hact queued key off a n
  refine ⟨?mul, ?wbld, ?mzero, ?xfer, ?sparsity, mshape_records hact, ?mtalloc, mtfree_releases hact⟩
  case mul => exact fun r hmem ta tb kstep hr hf => mat_start (exec_mul r hmem) hact ta tb kstep hr hf
  case wbld =>
    intro hr hlo hhi hmbz halign hcanon hfits hroom src entry
    exact ⟨fun htf hsrc => wbld_queues hact hr hlo hhi hmbz halign hcanon hfits hroom htf (isOk_getD hsrc []),
      wbld_queues_fenced hact hr hlo hhi hmbz halign hcanon hfits hroom⟩
  case mzero => exact fun hr => ⟨mzero_refused hact hr, fun hheld hroom => mzero_queues hact hroom hr hheld⟩
  case xfer => exact fun r hmem hr hheld ha hn hrows hroom => xfer_queues hact hroom (exec_xfer r hmem x s) hr hheld ha hn hrows
  case sparsity =>
    intro r hmem hr wa wb win k hfa hfb hrows hcols halign hfits hpres hready hclean hswap hmbz hmap hsa hsb hroom
    exact sparsity_queues hact hroom (exec_sparsity r hmem x s) hr hfa hfb hrows hcols halign hfits hpres hready hclean hswap hmbz hmap hsa hsb
  case mtalloc =>
    intro hr hgrant k
    exact ⟨mtalloc_free hact hr hgrant, mtalloc_own hact hr hgrant, fun cid c => mtalloc_others hact hr hgrant⟩

end Sys2Proof.Machine

/-! PROOFS. The sequencer, the weight buffer and the tiles of a bent (R185, R189, R190, R196, R203, R208): O37. -/

namespace Sys2Proof.Machine

/-! ### Serving a queue (R185, R196) -/

theorem lockWbld_other {m : Mat} (h : m.kind ≠ .wbld) (s : State) (op : Nat) (c : Course) : s.lockWbld op c m = s := by
  unfold State.lockWbld
  exact if_pos (.inl h)

/-- The weight lines that an entry loads. -/
def State.loadLines (s : State) (c : Course) (m : Mat) : List Nat := (List.range m.n).map (fun i => (s.weightWindow c).1 + m.line + i)

/-- The weight lines whose P an entry clears as it is served: those that a wbld loads. -/
def State.servedLines (s : State) (c : Course) (m : Mat) : List Nat :=
  match m.kind with
  | .wbld => s.loadLines c m
  | _ => []

theorem servedLines_other {m : Mat} (hkind : m.kind ≠ .wbld) (s : State) (c : Course) : s.servedLines c m = [] := by
  unfold State.servedLines
  split
  next h => exact absurd h hkind
  next => rfl

theorem servedLines_wbld {m : Mat} (hkind : m.kind = .wbld) (s : State) (c : Course) : s.servedLines c m = s.loadLines c m := by
  unfold State.servedLines
  rw [hkind]

section
variable {s : State} {bent op cid : Nat} {o : Op} {c : Course} {m : Mat} (hmat : s.matOf op = some (o, cid, c, m))
include hmat

section
variable (hidle : (s.bent bent).cur = none) (hon : s.bentOn bent = true) (hup : s.up = true)
  (hq : s.queueCourse bent (((s.bent bent).last + 1) % 64) = some (cid, c)) (hawake : s.awake cid c = true) (hhead : c.mq.head? = some op)
  (hready : s.headReady bent cid op = true)
include hidle hon hup hq hawake hhead hready

/-- The first queue in round-robin order is served when its head may be. -/
theorem matrixQueueServe_first : exec (.matrixQueueServe bent) s = .next (
    (State.setAbsent { s with bents := s.bents.put bent { last := ((s.bent bent).last + 1) % 64, cur := some op, todo := s.servedLines c m, done := false } }
      ((s.servedLines c m).flatMap (fun j => [weightBase (2 * bent) / 256 + j, weightBase (2 * bent + 1) / 256 + j]))).lockWbld op c m) := by
  change execMatrixQueueServe bent s = _
  unfold execMatrixQueueServe
  simp only [hidle, hon, hup, Bool.not_true, Bool.or_self, Bool.false_eq_true, if_false]
  rw [findSome_range_first _ 63 (((s.bent bent).last + 1) % 64, op) (by
    simp only [Nat.add_zero, hq, hawake, hhead, if_true, Option.filter_some, hready, Option.map_some])]
  dsimp only
  rw [hmat]
  rfl

theorem matrixQueueServe_other (hkind : m.kind ≠ .wbld) : exec (.matrixQueueServe bent) s =
    .next (State.setAbsent { s with bents := s.bents.put bent { last := ((s.bent bent).last + 1) % 64, cur := some op, todo := [], done := false } } []) := by
  rw [matrixQueueServe_first hmat hidle hon hup hq hawake hhead hready]
  rw [servedLines_other hkind, lockWbld_other hkind]
  rfl

theorem matrixQueueServe_wbld (hkind : m.kind = .wbld) : exec (.matrixQueueServe bent) s =
    .next ((State.setAbsent { s with bents := s.bents.put bent { last := ((s.bent bent).last + 1) % 64, cur := some op, todo := s.loadLines c m, done := false } }
      ((s.loadLines c m).flatMap (fun j => [weightBase (2 * bent) / 256 + j, weightBase (2 * bent + 1) / 256 + j]))).lockWbld op c m) := by
  rw [matrixQueueServe_first hmat hidle hon hup hq hawake hhead hready]
  rw [servedLines_wbld hkind]

end

/-! ### A step of the entry in progress (R199, R203, R208) -/

end

section
variable {s : State} {bent op cid : Nat} {o : Op} {c : Course} {m : Mat} (hmore : (s.bent bent).done = false) (hstay : s.mayLeave bent op = false)
  (hlive : s.courseLive c = true → s.awake cid c = true) (hplace : s.inPlace bent cid op = true)
include hmore hstay hlive hplace

/-- The entry in progress may take its step. -/
theorem matrixStep_goes : ¬ ((s.bent bent).done || s.mayLeave bent op || (s.courseLive c && !s.awake cid c) || !s.inPlace bent cid op) = true := by
  cases hl : s.courseLive c
  · simp [hmore, hstay, hplace]
  · simp [hmore, hstay, hplace, hlive hl]

variable (hmat : s.matOf op = some (o, cid, c, m)) (hcur : (s.bent bent).cur = some op)
include hmat hcur

theorem matrixStep_zeroes (hkind : m.kind = .mzero) : exec (.matrixStep bent) s = .next (
    let t := (s.poke (tileBase bent m.tile) (List.replicate tileBytes 0)).setTile (8 * bent + m.tile) { s.tile (8 * bent + m.tile) with act := false, step := 0 }
    { t with bents := t.bents.put bent { t.bent bent with done := true } }) := by
  have hgo := matrixStep_goes hmore hstay hlive hplace
  change execMatrixStep bent s = _
  unfold execMatrixStep
  simp only [hcur, hmat]
  rw [if_neg hgo]
  unfold State.wholeStep
  simp only [hkind]
  rfl

variable {a b : Ty} {kstep : Nat} (hf : m.kind.formats = some (a, b, kstep))
include hf

theorem matrixStep_forms {y : Ty} (hkind : m.kind = .mmsp y) (hnew : m.sparse = none) : exec (.matrixStep bent) s = .next (s.formStep bent op o cid c m) := by
  have hgo := matrixStep_goes hmore hstay hlive hplace
  change execMatrixStep bent s = _
  unfold execMatrixStep
  simp only [hcur, hmat]
  rw [if_neg hgo, hf]
  simp only [hkind, hnew, Option.isNone_none, if_true]

theorem matrixStep_multiplies (hformed : ∀ y, m.kind = .mmsp y → m.sparse ≠ none) : exec (.matrixStep bent) s = .next (s.mulStep bent op o cid c m a b kstep) := by
  have hgo := matrixStep_goes hmore hstay hlive hplace
  change execMatrixStep bent s = _
  unfold execMatrixStep
  simp only [hcur, hmat]
  rw [if_neg hgo, hf]
  split
  next hk => rw [hk] at hf; cases hf
  next y _ _ _ hk heq => cases heq; exact if_neg (by simpa using hformed y hk)
  next heq _ _ => cases heq; rfl
  next heq _ => cases heq

end

/-! ### Forming a live list, and a step of a multiplication (R199, R202, R203) -/

section
variable {s : State} {bent op cid : Nat} {o : Op} {c : Course} {m : Mat}

theorem formStep_forms (hpres : s.allPresent (s.bitmapReads c m) = true)
    (hfree : s.engineReady op o ((s.bitmapReads c m).filter (fun r => r.1 < weightBase 0)) [] = true) (hclean : s.poisonedAll (s.bitmapReads c m) = none) :
    s.formStep bent op o cid c m = s.setOp op (.mat { m with sparse := some (s.formSparse c m) }) := by
  unfold State.formStep
  dsimp only
  rw [if_neg (by rw [hpres, hfree]; decide), hclean]

section
variable {a b : Ty} {kstep st : Nat} (hst : (if (s.tile (8 * bent + m.tile)).act then (s.tile (8 * bent + m.tile)).step else 0) = st) (hmore : st < stepsOf kstep m.ks.length)
include hst hmore

theorem mulStep_absent (habsent : s.allPresent (s.stepReads c m a b (stepKs kstep m.ks st)) = false) : s.mulStep bent op o cid c m a b kstep = s := by
  unfold State.mulStep
  simp only [hst, hmore, if_true, habsent, Bool.not_false, Bool.true_or]

/-- An operation that starts on its tile without adding to what stands there (R199). -/
def State.freshMat (s : State) (bent : Nat) (m : Mat) : Bool := !(s.tile (8 * bent + m.tile)).act && m.mods.getLsbD 0

/-- The tile of an operation after step st of it. -/
def State.stepped (s : State) (bent : Nat) (c : Course) (m : Mat) (a b : Ty) (kstep st : Nat) : State :=
  let k := 8 * bent + m.tile
  let r := (if s.freshMat bent m then s.zeroRows k (Ty.bytes m.kind.tileTy) (Shape.of m.sha).rows else s).takeStep c m a b kstep st m.ks
  r.1.setTile k { s.tile k with mst := (s.tile k).mst ||| r.2, step := st + 1, act := decide (st + 1 < stepsOf kstep m.ks.length) }

theorem mulStep_takes (hpres : s.allPresent (s.stepReads c m a b (stepKs kstep m.ks st)) = true)
    (hfree : s.engineReady op o ((s.stepReads c m a b (stepKs kstep m.ks st)).filter (fun r => r.1 < weightBase 0)) [] = true)
    (hclean : s.poisonedAll (s.stepReads c m a b (stepKs kstep m.ks st) ++
      (if s.freshMat bent m then [] else [(tileBase bent m.tile, Ty.bytes m.kind.tileTy * 192 * (Shape.of m.sha).rows)])) = none) :
    s.mulStep bent op o cid c m a b kstep =
      let u := s.stepped bent c m a b kstep st
      if st + 1 < stepsOf kstep m.ks.length then u else { u with bents := u.bents.put bent { u.bent bent with done := true } } := by
  have hown : (if (decide (st < stepsOf kstep m.ks.length) && !s.freshMat bent m) = true then
      [(tileBase bent m.tile, Ty.bytes m.kind.tileTy * 192 * (Shape.of m.sha).rows)] else []) =
      if s.freshMat bent m then [] else [(tileBase bent m.tile, Ty.bytes m.kind.tileTy * 192 * (Shape.of m.sha).rows)] := by
    rw [decide_eq_true hmore]
    cases s.freshMat bent m <;> rfl
  have hgo : ¬ (!s.allPresent (s.stepReads c m a b (stepKs kstep m.ks st)) ||
      !s.engineReady op o ((s.stepReads c m a b (stepKs kstep m.ks st)).filter (fun r => r.1 < weightBase 0)) []) = true := by
    rw [hpres, hfree]
    decide
  unfold State.freshMat at hown hclean
  unfold State.mulStep State.stepped State.freshMat
  simp only [hst, if_pos hmore]
  rw [if_neg hgo, hown, hclean]

end

end

/-! ### Completion and arrival (R189, R190, R196) -/

section
variable {s : State} {bent op cid : Nat} {o : Op} {c : Course} {m : Mat} (hmat : s.matOf op = some (o, cid, c, m)) (hcur : (s.bent bent).cur = some op)
include hmat hcur

theorem matrixOpComplete_ends (hdone : (s.bent bent).done = true) : exec (.matrixOpComplete bent) s = .next (s.endMat bent op cid) := by
  change execMatrixOpComplete bent s = _
  unfold execMatrixOpComplete
  simp only [hcur, hmat, hdone, if_true]

/-- Line j of both buffers takes its bytes, from the first half of the source and from the second. -/
def State.lineArrives (s : State) (bent j : Nat) (l r : List (Nat × Nat)) : State :=
  let t := s.pokeFrom (weightBase (2 * bent) + j * 256) (s.peekAll l) (s.poisonedAll l).isSome
  (t.pokeFrom (weightBase (2 * bent + 1) + j * 256) (t.peekAll r) (t.poisonedAll r).isSome).setPresent [weightBase (2 * bent) / 256 + j, weightBase (2 * bent + 1) / 256 + j]

theorem wbldLineArrival_arrives {j : Nat} (hj : j ∈ (s.bent bent).todo) {l r : List (List (Nat × Nat))}
    (hl : s.rowPieces c (m.addr + BitVec.ofNat 64 (256 * (j - ((s.weightWindow c).1 + m.line)))) 1 256 0 false = .ok l)
    (hr : s.rowPieces c (m.addr + BitVec.ofNat 64 (256 * (m.n + (j - ((s.weightWindow c).1 + m.line))))) 1 256 0 false = .ok r)
    (hfree : s.engineReady op o (l.flatten ++ r.flatten) [] = true) (hpres : s.allPresent (l.flatten ++ r.flatten) = true) :
    let rest := (s.bent bent).todo.filter (· ≠ j)
    let t := s.lineArrives bent j l.flatten r.flatten
    let u : State := { t with bents := t.bents.put bent { s.bent bent with todo := rest } }
    exec (.wbldLineArrival bent j) s = .next (if rest.isEmpty then u.endMat bent op cid else u) := by
  have hgo : ¬ (!s.engineReady op o (l.flatten ++ r.flatten) [] || !s.allPresent (l.flatten ++ r.flatten)) = true := by
    rw [hfree, hpres]
    decide
  have hin : ¬ (!(s.bent bent).todo.contains j) = true := by
    rw [List.contains_iff_mem.mpr hj]
    decide
  change execWbldLineArrival bent j s = _
  unfold execWbldLineArrival
  simp only [hcur, hmat]
  rw [if_neg hin, hl, hr]
  dsimp only [Except.map]
  rw [if_neg hgo]
  exact (apply_ite Host.Outcome.next _ _ _).symm

end

theorem tileSaveFinished_saves {s t : State} {bent tile cid : Nat} (hst : (s.tile (8 * bent + tile)).st = .saving cid)
    (hsave : s.saveTile cid (8 * bent + tile) = some t) : exec (.tileSaveFinished bent tile) s = .next t := by
  change execTileSaveFinished bent tile s = _
  unfold execTileSaveFinished
  simp only [hst, hsave, Option.getD_some]

/-- Settles O37: service, steps, completion, arrivals and tile images. -/
theorem matrixUnit : Obligations.MatrixUnit := by
  unfold Obligations.MatrixUnit
  intro s bent op cid o c m hmat b k
  refine ⟨?serve, ?step, matrixOpComplete_ends hmat, ?arrival, ?saved⟩
  case serve =>
    intro hidle hon hup hq hawake hhead hready
    exact ⟨matrixQueueServe_other hmat hidle hon hup hq hawake hhead hready, matrixQueueServe_wbld hmat hidle hon hup hq hawake hhead hready⟩
  case step =>
    intro hcur hmore hstay hlive hplace
    refine ⟨matrixStep_zeroes hmore hstay hlive hplace hmat hcur, ?_⟩
    intro ta tb kstep hf maps steps t st sz rows fresh reads own
    refine ⟨fun y hkind hnew hpres hfree hclean => ?_, fun hformed hst habsent => ?_, ?_⟩
    · rw [matrixStep_forms hmore hstay hlive hplace hmat hcur hf hkind hnew, formStep_forms hpres hfree hclean]
    · rw [matrixStep_multiplies hmore hstay hlive hplace hmat hcur hf hformed, mulStep_absent rfl hst habsent]
    · intro hformed hst hpres hfree hclean
      rw [matrixStep_multiplies hmore hstay hlive hplace hmat hcur hf hformed]
      exact congrArg Host.Outcome.next (mulStep_takes rfl hst hpres hfree hclean)
  case arrival =>
    intro j hcur hj i from0 from1 l r hfrom0 hfrom1 hfree hpres
    exact wbldLineArrival_arrives hmat hcur hj (isOk_getD hfrom0 []) (isOk_getD hfrom1 []) hfree hpres
  case saved =>
    intro tile hst hsave
    obtain ⟨t, ht⟩ := Option.isSome_iff_exists.mp hsave
    exact ⟨t, ht, tileSaveFinished_saves hst ht⟩

end Sys2Proof.Machine

/-! PROOFS. The instructions on expert queues (R254 to R271): O47. -/

namespace Sys2Proof.Machine

/-! ### Configuration (R260, R263, R333) -/

section
variable {s : State} {env : Env} {x : Args} (hact : env.acting x ≠ 0)
include hact

section
variable (hr : Ready s env Enc.xqCfg x) (hgrant : s.tick.xqGranted (s.tick.partOf env.co.ctx) (env.val x .n32 x.b) = true)
  (hown : s.tick.xqForeign env.co.ctx (env.val x .n32 x.b) = false) (hopen : s.tick.blockOpen env (env.co.scalar x.a.num).toNat)
include hgrant hown hopen

/-- The block of a configuration is read, and its checks and the ring's follow. -/
theorem xqCfgBody_reads : xqCfgBody x env s.tick =
    let w := s.tick.blockWords env (env.co.scalar x.a.num).toNat
    match (xqCheck w).or (s.tick.ringOut env.co.ctx (env.val x .n32 x.b) w) with
    | some t => .trap t
    | none => .ok (s.tick.addOp env x (.xqCfg (env.val x .n32 x.b) w)) := by
  obtain ⟨halign, l, hread, hwords⟩ := blockOpen_read hopen
  have hgo : ¬ (!s.tick.xqGranted (s.tick.partOf env.co.ctx) (env.val x .n32 x.b) || s.tick.xqForeign env.co.ctx (env.val x .n32 x.b)) = true := by
    rw [hgrant, hown]
    decide
  refine (if_neg hact).trans ((if_neg hgo).trans ((if_neg (not_not.mpr halign)).trans ((awaitBlock_open hopen _).trans ?_)))
  rw [hread]
  dsimp only
  rw [hwords]
  cases xqCheck (s.tick.blockWords env (env.co.scalar x.a.num).toNat) with
  | some t => rfl
  | none => cases s.tick.ringOut env.co.ctx (env.val x .n32 x.b) (s.tick.blockWords env (env.co.scalar x.a.num).toNat) <;> rfl

include hr

theorem xqCfg_refused {t : Trap} (ht : (xqCheck (s.tick.blockWords env (env.co.scalar x.a.num).toNat)).or
    (s.tick.ringOut env.co.ctx (env.val x .n32 x.b) (s.tick.blockWords env (env.co.scalar x.a.num).toNat)) = some t) :
    exec (.xqCfg x) s = .next (s.tick.trapHere env t) := by
  change execXqCfg x s = _
  refine issue_trap hr ((xqCfgBody_reads hact hgrant hown hopen).trans ?_)
  dsimp only
  rw [ht]

theorem xqCfg_starts (ht : (xqCheck (s.tick.blockWords env (env.co.scalar x.a.num).toNat)).or
    (s.tick.ringOut env.co.ctx (env.val x .n32 x.b) (s.tick.blockWords env (env.co.scalar x.a.num).toNat)) = none) :
    exec (.xqCfg x) s = .next ((s.tick.addOp env x (.xqCfg (env.val x .n32 x.b) (s.tick.blockWords env (env.co.scalar x.a.num).toNat))).complete env Enc.xqCfg x {}) := by
  change execXqCfg x s = _
  refine issue_done hr ((xqCfgBody_reads hact hgrant hown hopen).trans ?_)
  dsimp only
  rw [ht]
  rfl

end

/-! ### Push (R258, R261, R263) -/

section
variable (hr : Ready s env Enc.xqPush x)

/-- The rows of the acting lanes. -/
def State.pushRows (s : State) (env : Env) (x : Args) : List PushRow := (lanesOf (env.acting x)).map (s.pushRow env x (s.devNo env.co.ctx))

/-- The guard predicate of an instruction, whose duplicate lanes a push clears. -/
def guardPred (x : Args) : BitVec 6 :=
  match x.g with
  | .on p _ => p
  | .always => 0

include hr

theorem xqPush_refused {t : Trap} (ht : s.tick.pushTrap env (s.tick.devNo env.co.ctx) (s.tick.pushRows env x) = some t) :
    exec (.xqPush x) s = .next (s.tick.trapHere env t) := by
  unfold State.pushRows at ht
  change execXqPush x s = _
  refine issue_trap hr ((if_neg (by rw [lanes_ne hact]; decide)).trans ?_)
  dsimp only
  rw [ht]

theorem xqPush_starts (hcheck : s.tick.pushTrap env (s.tick.devNo env.co.ctx) (s.tick.pushRows env x) = none) (hdrained : s.tick.drained env.cid s.nextId = true)
    (hopen : ∀ r ∈ s.tick.pushRows env x, r.link = none → s.tick.xqPending r.q = false) {t : State} {here : List (Nat × Word × Word × Nat × Nat)} {dups : LaneMask}
    (haccept : s.tick.acceptRows (s.tick.pushRows env x) = .ok (t, here, dups)) (hroom : s.tick.replayRoom ((s.tick.pushRows env x).filterMap (·.link)) = true) :
    ∃ srcs, exec (.xqPush x) s =
      let e := t.sendRows t.nextId (s.tick.pushRows env x)
      let u : State := if (s.tick.pushRows env x).any (fun r => r.link.isSome) then { e.1 with free := s.free + 1 } else e.1
      .next (((u.addOp env x (.xqPush (guardPred x) (here ++ e.2.1) dups e.2.2)).lockRanges t.nextId false (lockPieces false srcs)).complete env Enc.xqPush x {}) := by
  have hquiet : (s.tick.pushRows env x).any (fun r => r.link.isNone && s.tick.xqPending r.q) = false := by
    refine List.any_eq_false.mpr fun r hmem h => ?_
    obtain ⟨hlink, hpend⟩ := Bool.and_eq_true_iff.mp h
    rw [hopen r hmem (Option.isNone_iff_eq_none.mp hlink)] at hpend
    cases hpend
  have hgo : ¬ (!s.tick.drained env.cid s.tick.nextId || (s.tick.pushRows env x).any (fun r => r.link.isNone && s.tick.xqPending r.q)) = true := by
    rw [hquiet, show s.tick.drained env.cid s.tick.nextId = true from hdrained]
    decide
  change ∃ srcs, execXqPush x s = _
  apply Exists.intro
  refine issue_done hr ((if_neg (by rw [lanes_ne hact]; decide)).trans ?_)
  unfold State.pushRows at *
  dsimp only
  rw [hcheck]
  dsimp only
  rw [if_neg hgo, haccept]
  dsimp only
  rw [if_neg (by rw [hroom]; decide)]
  rfl

end

/-! ### Batches (R262, R263, R268) -/

theorem batchOps_refused (hbatch : s.tick.batchOf env.co.ctx (env.co.scalar x.a.num) = none) :
    (Ready s env Enc.xqPop x → exec (.xqPop x) s = .next (s.tick.trapHere env Trap.field)) ∧
    (Ready s env Enc.xqComb x → exec (.xqComb x) s = .next (s.tick.trapHere env Trap.field)) ∧
    (Ready s env Enc.xqDone x → exec (.xqDone x) s = .next (s.tick.trapHere env Trap.field)) := by
  refine ⟨fun hr => ?_, fun hr => ?_, fun hr => ?_⟩
  · change execXqPop x s = _
    exact issue_trap hr ((if_neg hact).trans (by rw [hbatch]))
  · change execXqComb x s = _
    exact issue_trap hr ((if_neg hact).trans (by rw [hbatch]))
  · change execXqDone x s = _
    exact issue_trap hr ((if_neg hact).trans (by dsimp only; rw [hbatch]))

section
variable {q : Nat} {v : XQ} {b : Batch} (hbatch : s.tick.batchOf env.co.ctx (env.co.scalar x.a.num) = some (q, v, b))
include hbatch

/-- Where a pop leaves the tags: nowhere without an operand for it. -/
def Env.tagDest (env : Env) (x : Args) : Word := if x.b = .zero then noTags else env.co.scalar x.b.num

theorem xqPop_starts (hr : Ready s env Enc.xqPop x) (halign : (env.co.scalar x.d.num).toNat % 16 = 0) (htalign : x.b ≠ .zero → (env.tagDest x).toNat % 8 = 0)
    {rows tags : List (Nat × Nat)} (hrows : s.tick.xqRange env (env.co.scalar x.d.num) (b.rows.length * v.rowSize) true = .ok rows)
    (htags : (if x.b = .zero then .ok [] else s.tick.xqRange env (env.tagDest x) (8 * b.rows.length) true) = .ok tags) :
    exec (.xqPop x) s = .next ((((s.tick.addOp env x (.xqPop q (b.rows.map (·.loc)) (env.co.scalar x.d.num) (env.tagDest x))).clearLines
      (scratchLinesOf (rows ++ tags))).lockRanges s.nextId false (lockPieces true (rows ++ tags))).complete env Enc.xqPop x {}) := by
  have htag : ¬ (x.b ≠ .zero ∧ (env.tagDest x).toNat % 8 ≠ 0) := fun h => h.2 (htalign h.1)
  unfold Env.tagDest at *
  change execXqPop x s = _
  refine issue_done hr ((if_neg hact).trans ?_)
  rw [hbatch]
  dsimp only
  rw [if_neg (not_not.mpr halign), if_neg htag, hrows, htags]
  rfl

theorem xqComb_starts (hr : Ready s env Enc.xqComb x) (halign : (env.co.scalar x.d.num).toNat % 16 = 0) (hstill : s.tick.rowsMoving q (b.rows.map (·.loc)) = false)
    {tags : List Word} (htags : s.tick.batchTags q v b = .ok tags) (hslots : ∀ g ∈ tags, bits g.toNat 32 32 < v.ntok ∧ bits g.toNat 28 4 < v.kmax)
    (hsrc : (s.tick.xqRange env (env.co.scalar x.d.num) (tags.length * v.outSize) false).isOk = true)
    (hdst : ∀ g ∈ tags, bits g.toNat 16 12 = s.tick.devNo env.co.ctx → (s.tick.xqRange env (BitVec.ofNat 64 (v.slotVa g)) v.outSize true).isOk = true)
    (hroom : s.tick.replayRoom ((tags.filter (fun g => bits g.toNat 16 12 != s.tick.devNo env.co.ctx)).filterMap (fun g => s.tick.routeTo (bits g.toNat 16 12))) = true) :
    let e := s.tick.sendComb s.nextId q (s.tick.devNo env.co.ctx) v (tags.zipIdx.map (fun g => (g.2, g.1)))
    exec (.xqComb x) s = .next ((e.1.addOp env x (.xqComb q (env.co.scalar x.d.num) e.2.1 e.2.2)).complete env Enc.xqComb x {}) := by
  have hfield : tags.any (fun g => decide (v.ntok ≤ bits g.toNat 32 32) || decide (v.kmax ≤ bits g.toNat 28 4)) = false := by
    refine any_false fun g hg => ?_
    obtain ⟨htok, hk⟩ := hslots g hg
    rw [decide_eq_false (Nat.not_le.mpr htok), decide_eq_false (Nat.not_le.mpr hk), Bool.or_false]
  have hhere : (tags.filter (fun g => bits g.toNat 16 12 == s.tick.devNo env.co.ctx)).findSome? (fun g =>
      failed (s.tick.xqRange env (BitVec.ofNat 64 (v.slotVa g)) v.outSize true)) = none := by
    refine List.findSome?_eq_none_iff.mpr fun g hg => ?_
    obtain ⟨hmem, hdev⟩ := List.mem_filter.mp hg
    obtain ⟨l, hl⟩ := isOk_ok (hdst g hmem (beq_iff_eq.mp hdev))
    rw [hl]
    rfl
  obtain ⟨l, hl⟩ := isOk_ok hsrc
  change execXqComb x s = _
  refine issue_done hr ((if_neg hact).trans ?_)
  rw [hbatch]
  dsimp only
  rw [if_neg (by rw [hstill]; decide), htags]
  dsimp only
  rw [if_neg (by rw [hfield]; decide), if_neg (not_not.mpr halign), hl, hhere]
  exact if_neg (by rw [hroom]; decide)

theorem xqDone_done (hr : Ready s env Enc.xqDone x) (hidle : ∀ o ∈ s.tick.opsOf env.cid, (∀ d t, o.2.kind ≠ .xqPop q (b.rows.map (·.loc)) d t) ∧
    (∀ d todo r, todo ≠ [] → o.2.kind ≠ .xqComb q d todo r)) :
    exec (.xqDone x) s = .next (((s.tick.batchDone q (env.co.scalar x.a.num)).addOp env x .nothing).complete env Enc.xqDone x {}) := by
  change execXqDone x s = _
  refine issue_done hr ((if_neg hact).trans ?_)
  dsimp only
  rw [hbatch]
  refine if_neg ?_
  rw [List.any_eq_true]
  rintro ⟨o, ho, hbusy⟩
  obtain ⟨hpop, hcomb⟩ := hidle o ho
  split at hbusy
  next r locs d t hk =>
    obtain ⟨hq, hl⟩ := Bool.and_eq_true_iff.mp hbusy
    exact hpop d t (by rw [hk, beq_iff_eq.mp hq, beq_iff_eq.mp hl])
  next r d todo rem hk =>
    obtain ⟨hq, hl⟩ := Bool.and_eq_true_iff.mp hbusy
    exact hcomb d todo rem (by simpa using hl) (by rw [hk, beq_iff_eq.mp hq])
  next => cases hbusy

end

end

/-- The batch of a handle is its queue's. -/
theorem batchOf_queue {s : State} {ctx q : Nat} {h : Word} {v : XQ} {b : Batch} (hb : s.batchOf ctx h = some (q, v, b)) : s.xqs.find q = some v := by
  unfold State.batchOf at hb
  dsimp only at hb
  split at hb
  next x hx =>
    split at hb
    · obtain ⟨d, -, hd⟩ := Option.map_eq_some_iff.mp hb
      cases hd
      exact hx
    · cases hb
  next => cases hb

theorem batchDone_queue {s : State} {q : Nat} {v : XQ} (hq : s.xqs.find q = some v) (h : Word) :
    (s.batchDone q h).xqs.find q = some { v with out := v.out.filter (fun b => b.handle != h) } := by
  unfold State.batchDone
  rw [hq]
  exact Tab.find_put_same ..

/-! ### Status (R262) -/

section
variable {s : State} {env : Env} {x : Args} (hact : env.acting x ≠ 0) (hr : Ready s env Enc.xqStat x)
include hact hr

theorem xqStat_refused (hgrant : s.tick.xqGranted (s.tick.partOf env.co.ctx) (env.val x .n32 x.a) = false) :
    exec (.xqStat x) s = .next (s.tick.trapHere env Trap.field) := by
  change execXqStat x s = _
  exact issue_trap hr ((if_neg hact).trans (if_pos (by rw [hgrant]; rfl)))

theorem xqStat_reads (hgrant : s.tick.xqGranted (s.tick.partOf env.co.ctx) (env.val x .n32 x.a) = true) : exec (.xqStat x) s =
    .next ((s.tick.addOp env x (.land .n64 x.d [(64, s.tick.xqStatus env.co.ctx (env.val x .n32 x.a) x.b.ctl)])).complete env Enc.xqStat x {}) := by
  change execXqStat x s = _
  exact issue_done hr ((if_neg hact).trans (if_neg (by rw [hgrant]; decide)))

end

/-- Settles O47: configuration, push, what an outstanding batch allows, and status. -/
theorem expertQueueInstructions : Obligations.ExpertQueueInstructions := by
  unfold Obligations.ExpertQueueInstructions
  intro s env x hact ctx a d
  refine ⟨?cfg, ?push, ?pop, ?comb, ?done, batchOps_refused hact, fun hr => ⟨xqStat_refused hact hr, xqStat_reads hact hr⟩⟩
  case cfg =>
    intro hr q w hgrant hown hopen
    refine ⟨fun t hcheck => ?_, fun t hcheck hring => ?_, fun hcheck hring => ?_⟩
    · exact xqCfg_refused hact hr hgrant hown hopen (by rw [hcheck]; rfl)
    · exact xqCfg_refused hact hr hgrant hown hopen (by rw [hcheck]; exact hring)
    · exact xqCfg_starts hact hr hgrant hown hopen (by rw [hcheck]; exact hring)
  case push =>
    intro hr own l
    refine ⟨fun t => xqPush_refused hact hr, fun hcheck hdrained hopen haccept hroom => ?_⟩
    obtain ⟨⟨t, here, dups⟩, ht⟩ := isOk_ok haccept
    obtain ⟨srcs, hs⟩ := xqPush_starts hact hr hcheck hdrained hopen ht hroom
    exact ⟨t, here, dups, srcs, ht, hs⟩
  case pop =>
    intro q v b hbatch halign hr t rows tags htalign hrows htags l
    have hpop := xqPop_starts hact hbatch hr halign htalign (isOk_getD hrows []) (isOk_getD htags [])
    have hpassed : ∀ r : Except Trap (List (Nat × Nat)), passed r = r.toOption.getD [] := fun r => by cases r <;> rfl
    simp only [l, hpassed]
    exact hpop
  case comb =>
    intro q v b hbatch halign hr own tags hstill htags hslots hsrc hdst hroom
    exact xqComb_starts hact hbatch hr halign hstill (isOk_getD htags []) hslots hsrc hdst hroom
  case done =>
    intro q v b hbatch hr hidle
    exact ⟨xqDone_done hact hbatch hr hidle, batchDone_queue (batchOf_queue hbatch) a⟩

end Sys2Proof.Machine

/-! PROOFS. What comes to expert queues by itself (R241, R242, R259 to R261, R264, R267, R268): O48. -/

namespace Sys2Proof.Machine

/-! ### The answer of a cairn to a row (R259, R261) -/

/-- A list leaves one of the numbers up to its length out. -/
theorem exists_not_mem_range (l : List Nat) : ∃ i ∈ List.range (l.length + 1), i ∉ l := by
  by_contra h
  push Not at h
  have hle := (List.subperm_of_subset List.nodup_range h).length_le
  rw [List.length_range] at hle
  omega

theorem XQ.length_places (x : XQ) : x.places.length = x.occ := by
  simp only [XQ.places, XQ.occ, List.length_map, List.length_append, List.length_flatMap]

/-- The place that a row takes: the first that is free. -/
def XQ.freePlace (x : XQ) : Nat := ((List.range (x.occ + 1)).find? (fun i => !x.places.contains i)).getD 0

theorem XQ.freePlace_free (x : XQ) : x.freePlace ∉ x.places := by
  obtain ⟨i, hi, hfree⟩ := exists_not_mem_range x.places
  rw [x.length_places] at hi
  cases hf : (List.range (x.occ + 1)).find? (fun i => !x.places.contains i) with
  | none => exact absurd (List.find?_eq_none.mp hf i hi) (by simpa using hfree)
  | some j =>
    unfold XQ.freePlace
    rw [hf]
    simpa using List.find?_some hf

section
variable {s : State} {q : Nat} {tag : Word}

theorem xqAccept_off (hq : s.xqs.find q = none) : s.xqAccept q tag = (s, .off) := by
  unfold State.xqAccept
  rw [hq]

section
variable {x : XQ} {r : Nat × PageKind} (hq : s.xqs.find q = some x) (hr : s.translate (xqCore q) x.ctx (wordAt x.cfg 4 + bits tag.toNat 32 32 / 8) none false = .ok r)
include hq hr

theorem xqAccept_dup (hbit : nbit (s.peekNat r.1 1) (bits tag.toNat 32 32 % 8) = true) :
    s.xqAccept q tag = ({ s with xqs := s.xqs.put q { x with dup := x.dup + 1 } }, .dup) := by
  unfold State.xqAccept
  simp only [hq, hr, hbit, if_true]

theorem xqAccept_spill (hbit : nbit (s.peekNat r.1 1) (bits tag.toNat 32 32 % 8) = false) (hfull : x.rrows + x.spilln ≤ x.occ) :
    s.xqAccept q tag = (s, .spill) := by
  unfold State.xqAccept
  simp only [hq, hr, hbit, hfull, Bool.false_eq_true, if_false, if_true]

end

/-- A row that takes a place. -/
theorem xqAccept_place {x : XQ} (hq : s.xqs.find q = some x) {u : State} {loc : Nat} (h : s.xqAccept q tag = (u, .place loc)) :
    loc ∉ x.places ∧ x.occ < x.rrows + x.spilln ∧ ∃ y, u.xqs.find q = some y ∧ y.occ = x.occ + 1 := by
  unfold State.xqAccept at h
  simp only [hq] at h
  split at h
  case h_1 => cases h
  split at h
  case isTrue => cases h
  split at h
  case isTrue => cases h
  case isFalse hroom =>
    split at h
    case h_1 =>
      cases h
      refine ⟨x.freePlace_free, Nat.lt_of_not_le hroom, _, Tab.find_put_same .., ?_⟩
      simp only [XQ.occ, List.length_append, List.length_singleton]
      omega
    all_goals cases h

end

/-! ### A waiting configuration (R260) -/

/-- A queue as its configuration leaves it; its serial number goes on. -/
def XQ.configured (w : List Word) (ctx : Nat) (serial : BitVec 16) : XQ :=
  { cfg := w, ctx := ctx, dup := 0, fired := 0, cref := 0, serial := serial, rows := [], out := [], expiry := none }

theorem xqCfgApply_applies {s : State} {op q : Nat} {o : Op} {w : List Word} {x : XQ} (hop : s.ops.find op = some o) (hkind : o.kind = .xqCfg q w)
    (hq : s.xqs.find q = some x) (hrows : x.rows = []) (hout : x.out = []) (hfirst : ∀ p ∈ s.ops, p.1 < op → ∀ v, p.2.kind ≠ .xqCfg q v) :
    exec (.xqCfgApply op) s = .next (State.finishOp { s.clearBitmap q o.ctx (wordAt w 4) with
      xqs := (s.clearBitmap q o.ctx (wordAt w 4)).xqs.put q (XQ.configured w o.ctx x.serial) } op) := by
  change execXqCfgApply op s = _
  unfold execXqCfgApply
  simp only [hop, hkind, hq, hrows, hout]
  refine if_neg ?_
  simp only [List.isEmpty_nil, Bool.and_self, Bool.not_true, Bool.or_false, Bool.not_not]
  rw [List.any_eq_true]
  rintro ⟨p, hp, hbefore⟩
  obtain ⟨hlt, hcfg⟩ := Bool.and_eq_true_iff.mp hbefore
  split at hcfg
  next r v hk => exact hfirst p hp (of_decide_eq_true hlt) v (by rw [hk, beq_iff_eq.mp hcfg])
  next => cases hcfg

/-! ### Selection rounds (R264) -/

section
variable {s : State} {die : Nat}

theorem selectionRound_early (hdue : s.roundDue die = false) : exec (.selectionRound die) s = .next s := by
  change execSelectionRound die s = _
  unfold execSelectionRound
  dsimp only
  rw [hdue]
  exact if_pos (by simp)

/-- A state in which a die's round has passed. -/
def State.rounded (s : State) (die : Nat) : State := { s with lastRound := s.lastRound.put die ((s.nextRound die).getD 0) }

/-- The expiry of the queues that a round considers for their age. -/
def State.expiring (s : State) (round : Nat) (l : List (Nat × List Nat)) : State :=
  { s with xqs := s.xqs.map (fun (e : Nat × XQ) =>
      if l.any (fun c => c.1 == e.1 && c.2.headD 1 == 0) && e.2.expiry.isNone then (e.1, { e.2 with expiry := some round }) else e) }

variable (hdie : die < 2) (hdue : s.roundDue die = true)
include hdie hdue

theorem selectionRound_none (hnone : (s.rounded die).candidates die ((s.nextRound die).getD 0) = []) : exec (.selectionRound die) s = .next (s.rounded die) := by
  have hgo : ¬ (decide (2 ≤ die) || !s.roundDue die) = true := by simp [hdue, Nat.not_le.mpr hdie]
  unfold State.rounded at hnone
  change execSelectionRound die s = _
  unfold execSelectionRound
  dsimp only
  rw [if_neg hgo, hnone]
  simp only [List.foldl_nil, List.any_nil, Bool.false_and, Bool.false_eq_true, if_false, List.map_id']
  rfl

/-- A round that considers one queue. -/
theorem selectionRound_one {q : Nat} {key : List Nat} (hone : (s.rounded die).candidates die ((s.nextRound die).getD 0) = [(q, key)]) :
    let round := (s.nextRound die).getD 0
    let u := (s.rounded die).expiring round [(q, key)]
    ∀ x, u.xqs.find q = some x → exec (.selectionRound die) s = .next (match u.fireCrew q x with | some k => u.fire q x round k | none => u) := by
  intro round u x hx
  have hgo : ¬ (decide (2 ≤ die) || !s.roundDue die) = true := by simp [hdue, Nat.not_le.mpr hdie]
  unfold State.rounded at hone
  change execSelectionRound die s = _
  unfold execSelectionRound
  dsimp only
  rw [if_neg hgo, hone]
  simp only [List.foldl_cons, List.foldl_nil, insertKey]
  change Host.Outcome.next (match u.xqs.find q with
    | some x => match u.fireCrew q x with
      | some k => (u.fire q x round k, 0 + 1)
      | none => (u, 0)
    | none => (u, 0)).1 = _
  rw [hx]
  dsimp only
  cases u.fireCrew q x <;> rfl

end

/-- What makes a queue's row expire, as R264 puts it. -/
theorem expiring_one (s : State) (round q : Nat) (key : List Nat) : s.expiring round [(q, key)] =
    { s with xqs := s.xqs.map (fun (e : Nat × XQ) => if q = e.1 ∧ key.headD 1 = 0 ∧ e.2.expiry = none then (e.1, { e.2 with expiry := some round }) else e) } := by
  unfold State.expiring
  simp only [List.any_cons, List.any_nil, Bool.or_false, Bool.and_eq_true, beq_iff_eq, Option.isNone_iff_eq_none, and_assoc]

/-! ### Rows and output rows of other packages (R267, R268, R310) -/

section
variable {s : State} {link seq : Nat} (hc : MessageComes s link seq)
include hc

section
variable {dev queue : Nat} {tag : Word} {row : List Byte} {marks : List Bool}

theorem remotePush_checkpoint (hcp : s.pkg.checkpoint = true) :
    exec (.remotePush link seq dev queue tag (row, marks)) s = .next ((s.forgotten link seq).answer link seq .retryLater) := by
  change execRemotePush link seq dev queue tag (row, marks) s = _
  unfold execRemotePush
  rw [receive_new hc]
  exact congrArg Host.Outcome.next (if_pos hcp)

variable (hcp : s.pkg.checkpoint = false)
include hcp

theorem remotePush_refused (hat : s.xqAt dev queue = false) :
    exec (.remotePush link seq dev queue tag (row, marks)) s = .next ((s.forgotten link seq).answer link seq .refused) := by
  change execRemotePush link seq dev queue tag (row, marks) s = _
  unfold execRemotePush
  rw [receive_new hc]
  exact congrArg Host.Outcome.next ((if_neg (by rw [show (s.forgotten link seq).pkg.checkpoint = false from hcp]; decide)).trans
    (if_pos (by rw [show (s.forgotten link seq).xqAt dev queue = false from hat]; rfl)))

variable (hat : s.xqAt dev queue = true) (hopen : s.xqClosed queue = false) {u : State} {loc : Nat}
  (haccept : (s.forgotten link seq).xqAccept queue tag = (u, .place loc))
include hat hopen haccept

/-- A row that takes a place lands there, unless a lock forbids it. -/
theorem remotePush_places : exec (.remotePush link seq dev queue tag (row, marks)) s = .next (
    if !(u.xRowPlaces queue loc).all (u.rangeFree u.nextId true) then s else
    let n := (u.transferSize queue loc).getD 0
    (u.putXRow queue loc tag ((row ++ List.replicate (n - row.length) 0).take n, marks)).1.answer link seq .accept) := by
  change execRemotePush link seq dev queue tag (row, marks) s = _
  unfold execRemotePush
  rw [receive_new hc, if_neg (by rw [show (s.forgotten link seq).pkg.checkpoint = false from hcp]; decide),
    if_neg (by rw [show (s.forgotten link seq).xqAt dev queue = true from hat]; decide),
    if_neg (by rw [show (s.forgotten link seq).xqClosed queue = false from hopen]; decide), haccept]

end

section
variable {queue layer kmax outu : Nat} {tag : Word} {row : List Byte} {marks : List Bool}

theorem combineMessage_refused (hq : s.xqs.find queue = none) :
    exec (.combineMessage link seq queue layer tag kmax outu (row, marks)) s = .next ((s.forgotten link seq).answer link seq .refused) := by
  change execCombineMessage link seq queue layer tag kmax outu (row, marks) s = _
  unfold execCombineMessage
  rw [receive_new hc, show (s.forgotten link seq).xqs.find queue = none from hq]

variable {x : XQ} (hq : s.xqs.find queue = some x) (hlayer : x.layer = layer) (hsize : bits (wordAt x.cfg 0) 23 6 = outu) (hkmax : x.kmax = kmax)
  (htok : bits tag.toNat 32 32 < x.ntok)
include hq hlayer hsize hkmax htok

theorem combineMessage_faults {t : Trap} (hslot : (s.forgotten link seq).pagedSpan (xqCore queue) x.ctx (x.slotVa tag) x.outSize true = .error t) :
    exec (.combineMessage link seq queue layer tag kmax outu (row, marks)) s = .next ((s.forgotten link seq).answer link seq .retryLater) := by
  have hagree : ¬ (x.layer ≠ layer ∨ bits (wordAt x.cfg 0) 23 6 ≠ outu ∨ x.kmax ≠ kmax ∨ x.ntok ≤ bits tag.toNat 32 32) := by omega
  change execCombineMessage link seq queue layer tag kmax outu (row, marks) s = _
  unfold execCombineMessage
  rw [receive_new hc, show (s.forgotten link seq).xqs.find queue = some x from hq]
  dsimp only
  rw [if_neg hagree, hslot]

theorem combineMessage_lands {l : List (Nat × Nat)} (hslot : (s.forgotten link seq).pagedSpan (xqCore queue) x.ctx (x.slotVa tag) x.outSize true = .ok l)
    (hfree : ∀ p ∈ l, (s.forgotten link seq).rangeFree (s.forgotten link seq).nextId true p = true) :
    exec (.combineMessage link seq queue layer tag kmax outu (row, marks)) s =
      .next (((s.forgotten link seq).writeMarked l ((row ++ List.replicate (x.outSize - row.length) 0).take x.outSize, marks)).answer link seq .accept) := by
  have hagree : ¬ (x.layer ≠ layer ∨ bits (wordAt x.cfg 0) 23 6 ≠ outu ∨ x.kmax ≠ kmax ∨ x.ntok ≤ bits tag.toNat 32 32) := by omega
  change execCombineMessage link seq queue layer tag kmax outu (row, marks) s = _
  unfold execCombineMessage
  rw [receive_new hc, show (s.forgotten link seq).xqs.find queue = some x from hq]
  dsimp only
  rw [if_neg hagree, hslot]
  exact congrArg Host.Outcome.next (if_neg (by rw [List.all_eq_true.mpr hfree]; decide))

end

end

/-! ### Retirement (R241, R242) -/

section
variable {s : State} {cid : Nat} {c : Course} {k : Kernel} (hcourse : s.courses.find cid = some c) (hover : s.courseOver cid c = true) (hmoved : c.moved = none)
  (hmay : s.mayRetire c = true) (hk : ((s.clearRecord c).releaseCourse cid c).kernels.find c.kern = some k)
include hcourse hover hmoved hmay hk

/-- A course retires, and with the last one its kernel. -/
theorem courseRetire_retires : exec (.courseRetire cid) s =
    let u := (s.clearRecord c).releaseCourse cid c
    let t : State := { u with kernels := u.kernels.put c.kern { k with live := k.live - 1 } }
    if k.st = .resident ∧ k.live - 1 = 0 then .next (t.kernelRetire c.kern { k with live := k.live - 1 } c.core) else .next t := by
  change execCourseRetire cid s = _
  unfold execCourseRetire
  simp only [hcourse, hover, hmoved, hmay, Option.isSome_none, Bool.not_true, Bool.or_self, Bool.false_eq_true, if_false]
  rw [hk]

end

/-- Settles O48: the answer to a row, a configuration, a round, messages, and retirement. -/
theorem expertQueueEvents : Obligations.ExpertQueueEvents := by
  unfold Obligations.ExpertQueueEvents
  refine ⟨fun s q tag => ⟨xqAccept_off, ?accept⟩, fun s op q o w x hop hkind hq hrows hout => xqCfgApply_applies hop hkind hq hrows hout,
    fun s die hdie => ⟨selectionRound_early, ?round⟩, ?message, ?retire⟩
  case accept =>
    intro x r hq t hr
    exact ⟨xqAccept_dup hq hr, xqAccept_spill hq hr, fun u loc => xqAccept_place hq⟩
  case round =>
    intro hdue round t
    refine ⟨selectionRound_none hdie hdue, ?_⟩
    intro q key hone u x hx
    have hu : (s.rounded die).expiring round [(q, key)] = u := expiring_one ..
    have h := selectionRound_one hdie hdue hone x
    rw [show (s.rounded die).expiring ((s.nextRound die).getD 0) [(q, key)] = u from hu] at h
    exact h hx
  case message =>
    intro s link seq dev queue tag row marks hup hlink hnew t
    have hc : MessageComes s link seq := ⟨hup, hlink, hnew⟩
    refine ⟨remotePush_checkpoint hc, remotePush_refused hc, ?place, ?combine⟩
    case place =>
      intro u loc hcp hat hopen haccept n
      refine ⟨fun hfree => ?_, fun hheld => ?_⟩
      · rw [remotePush_places hc hcp hat hopen haccept, hfree]
        rfl
      · rw [remotePush_places hc hcp hat hopen haccept, hheld]
        rfl
    case combine =>
      intro layer kmax outu
      refine ⟨combineMessage_refused hc, ?_⟩
      intro x hq hlayer hsize hkmax htok slot
      refine ⟨fun hbad => ?_, fun hok hfree => ?_⟩
      · cases hs : slot with
        | ok l => rw [hs] at hbad; cases hbad
        | error e => exact combineMessage_faults hc hq hlayer hsize hkmax htok hs
      · obtain ⟨l, hl⟩ := isOk_ok hok
        rw [hl] at hfree ⊢
        exact combineMessage_lands hc hq hlayer hsize hkmax htok hl hfree
  case retire =>
    intro s cid c k hcourse hover hmoved hmay t hk u
    refine ⟨fun hstay => ?_, fun hst hlast => ?_⟩
    · rw [courseRetire_retires hcourse hover hmoved hmay hk]
      refine if_neg ?_
      rintro ⟨hst, hlive⟩
      rcases hstay with h | h
      · exact h hst
      · omega
    · rw [courseRetire_retires hcourse hover hmoved hmay hk]
      have hzero : k.live - 1 = 0 := by rw [hlast]
      refine (if_pos ⟨hst, hzero⟩).trans ?_
      exact congrArg (fun n => Host.Outcome.next (u.kernelRetire c.kern { k with live := n } c.core)) hzero

end Sys2Proof.Machine

/-! PROOFS. Queues, their nodes, and what reaches them from outside (R217 to R219, R244 to R251, R314): O46. -/

namespace Sys2Proof.Machine

/-! ### The walker of a queue (R245, R246, R248, R250) -/

section
variable {s : State} {q slot : Nat} {v : Queue} (hq : s.queues.find q = some v)
include hq

/-- A node that has just become RUNNING. -/
def NodeRun.started (q slot : Nat) : NodeRun := { q := q, slot := slot, kern := none, op := none, watch := none, done := false, cond := false, bad := none }

theorem nodeStart_starts (hup : s.up = true) (hst : v.st = .active) (hopen : v.closing = false) (hfew : (s.runs q).length < 64)
    (hfirst : s.firstReady q v = some slot) (hfree : s.nodeWaits q v slot = false) : exec (.nodeStart q slot) s =
      .next ((State.runNode { s.setNode q v slot 3 with nodes := (s.setNode q v slot 3).nodes ++ [NodeRun.started q slot] } q slot v).settleQueue q) := by
  have hgo : ¬ (!s.up || decide (v.st ≠ .active) || v.closing || decide (64 ≤ (s.runs q).length) || decide (s.firstReady q v ≠ some slot) || s.nodeWaits q v slot) = true := by
    simp [hup, hst, hopen, Nat.not_le.mpr hfew, hfirst, hfree]
  change execNodeStart q slot s = _
  unfold execNodeStart
  rw [hq]
  exact if_neg (by simpa using hgo)

section
variable {r : NodeRun} (hr : s.nodes.find? (fun r => r.q == q && r.slot == slot) = some r)
include hr

/-- A node of a kind whose end its record tells. -/
theorem nodeComplete_completes (hbad : r.bad = none) (hdone : r.done = true) (h1 : bits (s.nodeWord q v slot 0) 60 4 ≠ 1)
    (h7 : bits (s.nodeWord q v slot 0) 60 4 ≠ 7) (h8 : bits (s.nodeWord q v slot 0) 60 4 ≠ 8) :
    exec (.nodeComplete q slot) s = .next ((((s.leaveRun q v r).setNode q v slot 4).sendArrivals q slot r.cond).settleQueue q) := by
  have hover : s.nodeOver r (bits (s.nodeWord q v slot 0) 60 4) = true := by
    unfold State.nodeOver
    rw [hbad]
    split
    next h => exact absurd h h1
    next h => exact absurd h h7
    next h => exact absurd h h8
    next => rw [hdone]; rfl
  change execNodeComplete q slot s = _
  unfold execNodeComplete
  rw [hq, hr]
  exact if_neg (by rw [hover]; decide)

theorem nodeFault_stops {f c u : Nat} (hbad : r.bad = some (f, c, u)) (hst : v.st = .active) :
    let t := ((s.leaveRun q v r).setNode q v slot 6).putNode q v slot 3 (f * 2 ^ 56 + c * 2 ^ 48 + u * 2 ^ 40 + bits (s.nodeWord q v slot 3) 0 16)
    exec (.nodeFault q slot) s = .next ((State.settleQueue { t with queues := t.queues.put q { v with st := .stopped, fnode := slot } } q).notify v.part
      { stamp := t.time.ns, ctx := v.ctx, src := 2 * 2 ^ 13 + q, cls := BitVec.ofNat 8 c, sub := BitVec.ofNat 8 u }) := by
  intro t
  change execNodeFault q slot s = _
  unfold execNodeFault
  rw [hq, hr]
  dsimp only
  rw [hbad]
  dsimp only
  rw [if_pos hst]

end

/-! ### Arrivals (R246, R247) -/

section
variable {src fuel : Nat} {live : Bool}

theorem arriveNode_outside (hslot : v.nslot ≤ slot) : s.arriveNode (fuel + 1) q src slot live = s := by
  unfold State.arriveNode
  rw [hq]
  exact if_pos hslot

variable (hslot : slot < v.nslot)
include hslot

theorem arriveNode_while (hst : nodeState (s.nodeWord q v slot 0) = 3) (hkind : bits (s.nodeWord q v slot 0) 60 4 = 6) (hbody : s.inBody q v slot src = true) :
    s.arriveNode (fuel + 1) q src slot live =
      if (s.whileTurn q v slot).2 then (s.whileTurn q v slot).1.arriveNode fuel q slot (bits (s.nodeWord q v slot 0) 16 16) true else (s.whileTurn q v slot).1 := by
  rw [State.arriveNode, hq]
  exact (if_neg (Nat.not_le.mpr hslot)).trans (if_pos ⟨hst, hkind, hbody⟩)

theorem arriveNode_notWaiting (hst : nodeState (s.nodeWord q v slot 0) ≠ 1)
    (hbody : ¬ (nodeState (s.nodeWord q v slot 0) = 3 ∧ bits (s.nodeWord q v slot 0) 60 4 = 6 ∧ s.inBody q v slot src = true)) :
    s.arriveNode (fuel + 1) q src slot live = s := by
  rw [State.arriveNode, hq]
  exact (if_neg (Nat.not_le.mpr hslot)).trans ((if_neg hbody).trans (if_pos hst))

/-- A WAITING node after an arrival: its new STATE, LIVE and PREDLEFT. -/
def State.afterArrival (s : State) (q : Nat) (v : Queue) (slot : Nat) (live : Bool) (st : Nat) : State :=
  s.putNode q v slot 0 (setBits (setBits (setBits (s.nodeWord q v slot 0) 57 3 st) 56 1 (if nbit (s.nodeWord q v slot 0) 56 || live then 1 else 0)) 32 8
    (bits (s.nodeWord q v slot 0) 32 8 - 1))

/-- The state that an arrival gives a WAITING node. -/
def arrivalState (left : Nat) (lives : Bool) : Nat := if left ≠ 0 then 1 else if lives then 2 else 5

section
variable (hst : nodeState (s.nodeWord q v slot 0) = 1)
include hst

theorem arriveNode_waits {st : Nat} (hnext : arrivalState (bits (s.nodeWord q v slot 0) 32 8 - 1) (nbit (s.nodeWord q v slot 0) 56 || live) = st) (hstay : st ≠ 5) :
    s.arriveNode (fuel + 1) q src slot live = s.afterArrival q v slot live st := by
  subst hnext
  rw [State.arriveNode, hq]
  exact (if_neg (Nat.not_le.mpr hslot)).trans ((if_neg (fun h => by omega)).trans ((if_neg (not_not.mpr hst)).trans (if_neg hstay)))

/-- A node that is SKIPPED sends skipping arrivals. -/
theorem arriveNode_skips (hnext : arrivalState (bits (s.nodeWord q v slot 0) 32 8 - 1) (nbit (s.nodeWord q v slot 0) 56 || live) = 5) :
    let t := s.afterArrival q v slot live 5
    s.arriveNode (fuel + 1) q src slot live =
      [(t.succs q v slot).1, (t.succs q v slot).2.1, (t.succs q v slot).2.2].foldl (fun s j => s.arriveNode fuel q slot j false) t := by
  intro t
  rw [State.arriveNode, hq]
  refine (if_neg (Nat.not_le.mpr hslot)).trans ((if_neg (fun h => by omega)).trans ((if_neg (not_not.mpr hst)).trans ((if_pos hnext).trans ?_)))
  unfold arrivalState at hnext
  rw [hnext]
  rfl

end

end

end

/-! ### The driver's registers (R248, R250, R314) -/

/-- The slots before the first FREE one of a ring. -/
def State.usedSlots (s : State) (q : Nat) (v : Queue) : Nat := ((List.range v.nslot).find? (fun j => s.nodeSt q v j == 0)).getD v.nslot

theorem usedSlots_spec (s : State) (q : Nat) (v : Queue) : s.usedSlots q v ≤ v.nslot ∧ (∀ j, j < s.usedSlots q v → s.nodeSt q v j ≠ 0) ∧
    (s.usedSlots q v < v.nslot → s.nodeSt q v (s.usedSlots q v) = 0) := by
  unfold State.usedSlots
  cases hf : (List.range v.nslot).find? (fun j => s.nodeSt q v j == 0) with
  | none =>
    rw [List.find?_range_eq_none] at hf
    exact ⟨Nat.le_refl _, fun j hj => by simpa using hf j hj, fun h => absurd h (Nat.lt_irrefl _)⟩
  | some i =>
    obtain ⟨hfree, hin, hbefore⟩ := List.find?_range_eq_some.mp hf
    exact ⟨Nat.le_of_lt (List.mem_range.mp hin), fun j hj => by simpa using hbefore j hj, fun _ => by simpa using hfree⟩

section
variable {s : State} {page q : Nat} (hpage : s.queuePage page q = true)
include hpage

/-- A queue as a driver's block gives it, with no node counted yet. -/
def Queue.opened (page : Nat) (va : Word) (ctx : Nat) (w : List Word) : Queue :=
  { st := .active, block := va, ring := wordAt w 0, ctx := ctx, part := page - 1, prio := bits (wordAt w 1) 41 3,
    nslot := bits (wordAt w 1) 0 16, head := 0, tail := noNode, used := 0, fnode := noNode, closing := false }

/-- A queue whose nodes up to the first FREE slot are counted. -/
def Queue.counted (v : Queue) (used : Nat) : Queue := { v with used := used, tail := if used = 0 then noNode else used - 1 }

/-- WAITING nodes without predecessors become READY. -/
def State.wakeNodes (s : State) (q : Nat) (v : Queue) : State :=
  (List.range v.used).foldl (fun (s : State) j =>
    let w0 := s.nodeWord q v j 0
    if nodeState w0 = 1 ∧ bits w0 40 8 = 0 then s.setNode q v j 2 else s) s

theorem queueEnable_enables {ctx : Nat} {w : List Word} {va : Word} (hva : va ≠ 0) (hnone : s.queues.find q = none) (halign : va.toNat % 64 = 0)
    (howner : (s.setQblock q va).blockOwner (page - 1) q va.toNat = some (ctx, w)) (hsize : ringSize (bits (wordAt w 1) 0 16) = true) (hring : wordAt w 0 % 128 = 0) :
    let u := s.setQblock q va
    let v := (Queue.opened page va ctx w).counted (u.usedSlots q (Queue.opened page va ctx w))
    exec (.queueEnable page q va) s = .next (State.settleQueue { u.wakeNodes q v with queues := (u.wakeNodes q v).queues.put q v } q) := by
  intro u v
  have hon : ¬ (!s.queuePage page q || va == 0) = true := by
    rw [hpage, beq_eq_false_iff_ne.mpr hva]
    decide
  have hok : ¬ (!true || !ringSize (bits (wordAt w 1) 0 16) || wordAt w 0 % 128 != 0) = true := by simp [hsize, hring]
  change execQueueEnable page q va s = _
  unfold execQueueEnable
  rw [if_neg hon]
  dsimp only
  rw [if_neg (by simp [halign]), show (s.setQblock q va).queues.find q = none from hnone, howner]
  exact if_neg hok

variable {v : Queue} (hq : s.queues.find q = some v)
include hq

theorem queueDisable_closes (hst : v.st ≠ .off) :
    exec (.queueDisable page q) s = .next (State.settleQueue { s.setQblock q 0 with queues := s.queues.put q { v with closing := true } } q) := by
  change execQueueDisable page q s = _
  unfold execQueueDisable
  rw [if_neg (by rw [hpage]; decide)]
  dsimp only
  rw [show (s.setQblock q 0).queues.find q = some v from hq]
  exact if_neg (by simpa using hst)

theorem queueResume_resumes (hst : v.st = .stopped) (hnode : State.nodeSt { s with queues := s.queues.put q { v with st := .active } } q v v.fnode = 2) :
    exec (.queueResume page q) s = .next (State.settleQueue { s with queues := s.queues.put q { v with st := .active } } q) := by
  have hgo : ¬ (!s.queuePage page q || decide (v.st ≠ .stopped)) = true := by simp [hpage, hst]
  change execQueueResume page q s = _
  unfold execQueueResume
  rw [hq]
  refine (if_neg (by simpa using hgo)).trans ?_
  dsimp only
  exact congrArg (fun t => Host.Outcome.next (State.settleQueue t q)) (if_neg fun h => by rw [hnode] at h; exact absurd h.2 (by decide))

theorem bell_links (hst : v.st ≠ .off) (hroom : v.used < v.nslot) (hnode : s.nodeSt q v ((v.tail + 1) % v.nslot) ≠ 0) :
    exec (.bell page q ((v.tail + 1) % v.nslot)) s = .next (s.linkTail q ((v.tail + 1) % v.nslot)) := by
  change execBell page q _ s = _
  unfold execBell
  rw [hq]
  exact if_neg (by simp [hpage, hst, Nat.not_le.mpr hroom, hnode])

omit hpage in
theorem bell_ignored {tail : Nat} (htail : tail ≠ (v.tail + 1) % v.nslot) : exec (.bell page q tail) s = .next s := by
  change execBell page q tail s = _
  unfold execBell
  rw [hq]
  exact if_pos (by simp [htail])

end

/-! ### Peer writes (R219, R317) -/

section
variable {s : State} {off : Nat} {bytes : List Byte} {marks : List Bool} (hup : s.up = true) (hne : bytes ≠ []) (hend : off + bytes.length ≤ 2 ^ 36)
include hup hne hend

theorem peerWrite_goes : ¬ (!s.up || bytes.length == 0 || decide (2 ^ 36 < off + bytes.length)) = true := by
  have hlen : bytes.length ≠ 0 := fun h => hne (List.length_eq_zero_iff.mp h)
  rw [hup, beq_eq_false_iff_ne.mpr hlen, decide_eq_false (Nat.not_lt.mpr hend)]
  decide

theorem peerWrite_counted (hnone : (s.pkg.peerEn.getD (off / 2 ^ 32) (0, false)).2 = false ∨ s.armed off bytes.length = []) :
    exec (.peerWrite off (bytes, marks)) s =
      .next { s with pkg := { s.pkg with peerErr := s.pkg.peerErr.put (off / 2 ^ 32) ((s.pkg.peerErr.getD (off / 2 ^ 32) 0 + 1) % 2 ^ 32) } } := by
  have hl : (if (s.pkg.peerEn.getD (off / 2 ^ 32) (0, false)).2 then s.armed off bytes.length else []) = [] := by
    rcases hnone with h | h
    · rw [h]; rfl
    · rw [h]; exact ite_self _
  have hpart : ¬ (List.range bytes.length).all (fun i => ([] : List (Nat × Op × Nat × Nat × Nat)).any (fun a => decide (a.2.2.1 ≤ i) && decide (i < a.2.2.1 + a.2.2.2.2))) = true := by
    intro h
    have hlen : 0 < bytes.length := List.length_pos_iff.mpr hne
    exact Bool.false_ne_true (List.all_eq_true.mp h 0 (List.mem_range.mpr hlen))
  change execPeerWrite off (bytes, marks) s = _
  unfold execPeerWrite
  dsimp only
  rw [if_neg (peerWrite_goes hup hne hend), hl]
  exact congrArg Host.Outcome.next (if_neg hpart)

/-- A write that one armed range takes whole. -/
theorem peerWrite_lands {op q slot : Nat} {o : Op} {d : Word} {count base got dst : Nat} {ps : List (Nat × Nat)}
    (hen : (s.pkg.peerEn.getD (off / 2 ^ 32) (0, false)).2 = true) (harmed : s.armed off bytes.length = [(op, o, 0, dst, bytes.length)])
    (hop : s.ops.find op = some o) (hkind : o.kind = .storage q slot d count base got)
    (hps : s.copyPieces (queueCore q) o.ctx none (BitVec.ofNat 64 dst) bytes.length true = .ok ps) (hfree : s.engineReady op o [] ps = true) :
    let t := (s.writeMarked ps (bytes, marks.take bytes.length)).setOp op (.storage q slot d count base (got + bytes.length))
    exec (.peerWrite off (bytes, marks)) s = .next (if got + bytes.length < count then t else t.nodeEnded (some (q, slot)) none) := by
  have hl : (if (s.pkg.peerEn.getD (off / 2 ^ 32) (0, false)).2 then s.armed off bytes.length else []) = [(op, o, 0, dst, bytes.length)] := by rw [if_pos hen, harmed]
  have hwhole : (List.range bytes.length).all (fun i => ([(op, o, 0, dst, bytes.length)] : List (Nat × Op × Nat × Nat × Nat)).any
      (fun a => decide (a.2.2.1 ≤ i) && decide (i < a.2.2.1 + a.2.2.2.2))) = true := by
    refine List.all_eq_true.mpr fun i hi => ?_
    have hlt : i < bytes.length := List.mem_range.mp hi
    simp [hlt]
  change execPeerWrite off (bytes, marks) s = _
  unfold execPeerWrite
  dsimp only
  rw [if_neg (peerWrite_goes hup hne hend), hl]
  simp only [List.all_cons, List.all_nil, Bool.and_true, hkind, hps, hfree, Bool.not_true, Bool.false_eq_true, if_false]
  rw [if_pos hwhole]
  simp only [List.foldl_cons, List.foldl_nil, hop]
  unfold State.landStorage
  simp only [hkind, hps, List.drop_zero, List.take_length]

end

/-! ### Decoded frames (R217, R218) -/

section
variable {s : State} {q slot op : Nat} {o : Op} {v : Queue} (hup : s.up = true) (hmedia : s.mediaOp q slot = some (op, o)) (hq : s.queues.find q = some v)
include hup hmedia hq

/-- The fill that gives a frame to its node's array. -/
def EaJob.feeding (key : Word) (data : List Byte) : EaJob :=
  { o := .feed key (data.length / 256), phase := .offered, d := .zero, result := 0, trees := [], writes := [], shoots := [],
    oldNodes := [], pages := [], leaves := [], freed := none, data := data }

/-- A state in which the fill of a node's frame has been offered. -/
def State.feedArray (s : State) (q slot : Nat) (v : Queue) (key : Word) (data : List Byte) : State :=
  let o : Op := { cid := none, ctx := v.ctx, path := q, ovl := 0, idx := slot, flag := none, lwb := 0, pend := [], kind := .ea (EaJob.feeding key data) }
  { s with ops := s.ops.put s.nextId o, nextId := s.nextId + 1 }

theorem decodeFrame_feeds {ten : Bool} {width height : Nat} {luma chroma : List Nat} (err last : Bool) {busy : Bool} (hkind : o.kind = .media q slot busy false)
    (hfree : busy = true ∨ s.decoderFree op q = true) :
    let frame := pictureBytes ten width height luma chroma
    let t := s.setOp op (.media q slot true last)
    let u := if frame.length / 256 = 0 then t else t.feedArray q slot v (BitVec.ofNat 64 (s.nodeWord q v slot 11)) frame
    exec (.decodeFrame q slot ⟨ten, width, height, luma, chroma⟩ err last) s =
      .next (if (err || s.badBitstream q slot v) || last then u.freeWord.2.putNode q v slot 13 u.freeWord.1.toNat else u) := by
  have hgo : ¬ (!s.up || !(busy || s.decoderFree op q)) = true := by
    rcases hfree with h | h <;> simp [hup, h]
  change execDecodeFrame q slot _ err last s = _
  unfold execDecodeFrame
  rw [hmedia, hq]
  dsimp only
  rw [hkind]
  dsimp only
  rw [if_neg hgo]
  exact (apply_ite Host.Outcome.next _ _ _).symm

end

/-- Settles O46: the walker, arrivals, the driver's registers, peer writes, decoded frames. -/
theorem queuesAndNodes : Obligations.QueuesAndNodes := by
  unfold Obligations.QueuesAndNodes
  refine ⟨⟨fun s q slot v hup hq => ⟨nodeStart_starts hq hup, fun r hr => nodeComplete_completes hq hr, ?fault⟩, ?arrivals⟩, ?registers, ?peer, ?frames⟩
  case fault =>
    intro r f c u hr hbad hst
    exact nodeFault_stops hq hr hbad hst
  case arrivals =>
    intro s q slot src fuel v live hq w0 lives after
    refine ⟨arriveNode_outside hq, arriveNode_while hq, arriveNode_notWaiting hq, fun hslot hst hleft => ?_, fun hslot hst hleft hlives => ?_, fun hslot hst hleft hlives => ?_⟩
    · exact arriveNode_waits hq hslot hst (if_pos (show bits w0 32 8 - 1 ≠ 0 by omega)) (by decide)
    · have hlast : ¬ bits w0 32 8 - 1 ≠ 0 := by omega
      exact arriveNode_waits hq hslot hst ((if_neg hlast).trans (if_pos hlives)) (by decide)
    · have hlast : ¬ bits w0 32 8 - 1 ≠ 0 := by omega
      exact arriveNode_skips hq hslot hst ((if_neg hlast).trans (if_neg (Bool.not_eq_true _ ▸ hlives)))
  case registers =>
    intro s page q hpage
    refine ⟨?enable, ?others⟩
    case enable =>
      intro ctx w va hva u hnone halign howner hsize hring
      obtain ⟨hle, hused, hfree⟩ := usedSlots_spec u q (Queue.opened page va ctx w)
      exact ⟨(Queue.opened page va ctx w).counted (u.usedSlots q (Queue.opened page va ctx w)), rfl, rfl, rfl, rfl, rfl, rfl, rfl, rfl, rfl, rfl, hle, rfl, hused, hfree,
        queueEnable_enables hpage hva hnone halign howner hsize hring⟩
    case others =>
      exact fun v hq => ⟨queueDisable_closes hpage hq, fun hst _ => queueResume_resumes hpage hq hst, bell_links hpage hq, fun tail => bell_ignored hq⟩
  case peer =>
    intro s off bytes marks hup hne hend
    refine ⟨peerWrite_counted hup hne hend, ?_⟩
    intro op o q slot d count base got ps hen harmed hop hkind hps hfree
    exact peerWrite_lands hup hne hend hen harmed hop hkind hps hfree
  case frames =>
    intro s q slot op o v hup hmedia hq ten width height luma chroma err last busy hkind hfree frame t u
    exact ⟨pictureBytes_rows .., decodeFrame_feeds hup hmedia hq err last hkind hfree⟩

end Sys2Proof.Machine
